-- ==== Sys2Proof/Word.lean ====
section
/-! DEFINITION. The word types of the X8 and the plainest arithmetic on them (00_scope.md, R1, R2). -/

namespace Sys2Proof

/-- A control word, a micro-order or a 32-bit element. -/
abbrev W32 := BitVec 32

/-- A g register, a virtual or plain address, a control register. -/
abbrev W64 := BitVec 64

/-- One byte of memory. -/
abbrev Byte := BitVec 8

/-- An acc80 element (R122). -/
abbrev Acc80 := BitVec 80

end Sys2Proof
end

