-- ==== Sys2Proof/Config.lean ====
section
/-! DEFINITION. What the spec leaves open: opaque constants with no value that a proof could use. Each is named in
a log entry of notes/assumptions. The fixed figures of the part stand here too (01_package.md, R20, R21). -/

namespace Sys2Proof.Config

/-- The significance count that VEXP2 gives a zero operand whose count is not EXACT: R132 states it through L(x),
which R131 does not give for a zero outside the add rule. Applied to the operand's bits and its count. -/
opaque exp2ZeroCount : W32 → Nat → BitVec 5

/-- The generation that a sequence descriptor holds before its first drop (R194). Applied to the home die's key
and the descriptor number. -/
opaque firstGen : Nat → Nat → BitVec 16

/-- Which free id a choice that the spec leaves open takes (a unit id or a launch id, R38; a sequence descriptor,
R194). Applied to the machine's counter of fresh values. -/
opaque freePick : Nat → Nat

/-- A byte whose value the spec does not promise (bytes of a forked partial block at and above the fork point, R207;
target data of an aborted RESHARD, R227). Applied to the counter of fresh values. -/
opaque freeByte : Nat → Byte

/-- A 64-bit answer whose value the spec does not give (SPDM signatures and certificates, R277). Applied to the
counter of fresh values. -/
opaque freeWord : Nat → W64

/-- A byte of a compute die's own MMIO, whose registers the spec does not give (R16). Applied to its plain address, and, where a
load reads it, to the counter of fresh values above that. -/
opaque mmioByte : Nat → Byte

/-- SHA-384 of a string of bytes, and the ECDSA P-384 check of a string of bytes against r and s with the Linler key whose
hash is fused (R275). The spec names the algorithms and gives no key. -/
opaque sha384 : List Byte → Nat
opaque signatureHolds : List Byte → Nat → Nat → Bool

/-- The fused secret of a part, the identity key derived from it, the alias key derived from it and measurement 1, and the
bytes of the two certificates: that of the identity key, and that of the alias key under the identity key (R276). -/
opaque fusedSecret : Nat → Nat
opaque identityKey : Nat → Nat
opaque aliasKey : Nat → Nat → Nat
opaque identityCert : Nat → List Byte
opaque aliasCert : Nat → Nat → List Byte

/-- The outcome logs that a home's log area holds, which the field firmware allocates (R244). Applied to the die's key; an
area holds at least one log. -/
opaque logArea : Nat → Nat

/-- The nanoseconds in which a slew moves a counter by one (R234); at least one. -/
opaque slewPeriod : Nat

/-- R21: CAP_DIES. -/
def diesPerPackage : Nat := 8
/-- R21: CAP_TILES. -/
def tilesPerDie : Nat := 32
/-- R21, R148: CAP_CIM_WAKE. -/
def cimWake : Nat := 48
/-- R59: entries of the retirement journal. -/
def journalSize : Nat := 128
/-- R60: entries of each command queue. -/
def queueSize : Nat := 32
/-- R179: entries of the CT's store queue. -/
def storeQueueSize : Nat := 32
/-- R187: words of the CT's fetch buffer. -/
def fetchWords : Nat := 64
/-- R243: logged requests of one tile without a response. -/
def loggedMax : Nat := 64
/-- R22: PTC_SKEW.POD_NS. -/
def podNs : Nat := 40
/-- R22: PTC_SKEW.PKG_NS. -/
def pkgNs : Nat := 4
/-- R48: pending-signal buffer. -/
def pendingSignals : Nat := 64
/-- R48: active event-table entries on a die. -/
def eventEntries : Nat := 8192
/-- R26: level-table entries of a die. -/
def levelEntries : Nat := 4096
/-- R199: grants registered at one home. -/
def grantRegister : Nat := 4096
/-- R195: live sequence descriptors at one home. -/
def seqDescriptors : Nat := 16384
/-- R35: entries of each ready queue that the die itself holds. -/
def readyHeld : Nat := 8
/-- R20, R248: functions of a package, the PF and VFs 1 to 15. -/
def functions : Nat := 16
/-- R274: the FID of the management cores' requests, which no function has. -/
def managementFid : Nat := 16
/-- R20, R237: ASIDs of a die. -/
def asids : Nat := 256
/-- R20: packages of the largest pod. -/
def packages : Nat := 1024
/-- R38: unit ids of a job on a die. -/
def unitIds : Nat := 8192

end Sys2Proof.Config
end

