-- ==== Sys2Proof/Machine/Tab.lean ====
section
/-! DEFINITION. Sparse tables: lists of (key, value) with keys strictly rising, an absent key reading as a default.
Registers files, memories and the machine's tables are held in this one form. -/

namespace Sys2Proof.Machine

/-- A sparse table. -/
abbrev Tab (α : Type) := List (Nat × α)

/-- The value at a key, if it is listed. -/
def Tab.find? {α : Type} : Tab α → Nat → Option α
  | [], _ => none
  | (k', v) :: r, k => if k' = k then some v else Tab.find? r k

/-- The value at a key; an absent key reads as `dflt`. -/
def Tab.get {α : Type} (dflt : α) (t : Tab α) (k : Nat) : α := (Tab.find? t k).getD dflt

/-- The table without a key. -/
def Tab.erase {α : Type} (t : Tab α) (k : Nat) : Tab α := t.filter fun p => p.1 != k

/-- A key and its value put in front of the first greater key. -/
def Tab.insert {α : Type} : Tab α → Nat → α → Tab α
  | [], k, v => [(k, v)]
  | (k', v') :: r, k, v => if k < k' then (k, v) :: (k', v') :: r else (k', v') :: Tab.insert r k v

/-- The table with the value at a key replaced. -/
def Tab.put {α : Type} (t : Tab α) (k : Nat) (v : α) : Tab α := Tab.insert (Tab.erase t k) k v

/-- The table with the value at a key replaced; a value equal to the default is not listed. -/
def Tab.set {α : Type} [DecidableEq α] (dflt : α) (t : Tab α) (k : Nat) (v : α) : Tab α :=
  if v = dflt then Tab.erase t k else Tab.put t k v

/-- The values at `len` consecutive keys. -/
def Tab.slice {α : Type} (dflt : α) (t : Tab α) (lo len : Nat) : List α :=
  let r : Tab α := t.filter fun p => decide (lo ≤ p.1 ∧ p.1 < lo + len)
  (List.range len).map fun i => Tab.get dflt r (lo + i)

/-- The table with the values at consecutive keys replaced. -/
def Tab.block {α : Type} [DecidableEq α] (dflt : α) (t : Tab α) (lo : Nat) (vs : List α) : Tab α :=
  (t.filter fun p => decide (p.1 < lo))
  ++ ((vs.zipIdx).filterMap fun v => if v.1 = dflt then none else some (lo + v.2, v.1))
  ++ (t.filter fun p => decide (lo + vs.length ≤ p.1))

/-- The keys listed. -/
def Tab.keys {α : Type} (t : Tab α) : List Nat := t.map Prod.fst

/-- Canonical form: keys strictly rising and no entry equal to the default. -/
def Tab.wf {α : Type} [DecidableEq α] (dflt : α) : Tab α → Bool
  | [] => true
  | [(_, v)] => decide (v ≠ dflt)
  | (k, v) :: (k', v') :: r => decide (v ≠ dflt) && decide (k < k') && Tab.wf dflt ((k', v') :: r)

end Sys2Proof.Machine
end

