-- ==== Sys2Proof/Machine/Inputs.lean ====
section
/-! DEFINITION. What the agents outside the instruction stream can hand the machine: register writes of the
host, the field firmware and the root monitor, and the firmware images of the boot chain. These are operands of
the events of Syntax.lean. -/

namespace Sys2Proof.Machine

/-- The per-die registers that only the field firmware writes (R42, R147, R235). -/
inductive DieReg where
  | ageLimit | preemptLimit | evovfBase | evovfSize | cimGate | reqTimeout
  deriving DecidableEq, Repr

/-- The registers held per job per die that only the field firmware writes (R42, R136, R223, R256, R269, R426). -/
inductive JobReg where
  | trapVec | trapArea | dmap | barRange | layArea | tileQuota
  deriving DecidableEq, Repr

/-- One entry of a die's ASID table (R237). -/
structure AsidEntry where
  root : Nat
  fid : Nat
  job : Nat
  tagBase : BitVec 64
  live : Bool
  deriving DecidableEq, Repr

/-- What the field firmware and the root monitor set when a job is placed (R26, R56, R224, R237). -/
structure JobPlacement where
  job : Nat
  fid : Nat
  asid : Nat
  /-- the dies of the placement, as die keys 8 * package + die, ascending -/
  dies : List Nat
  /-- frames of the job's context pool on each die (R56) -/
  frames : Nat
  /-- the plain address of the pool's first frame on each die of the placement (R263) -/
  frameBases : List Nat
  deriving DecidableEq, Repr

/-- A write by the host, the field firmware or the root monitor to a register or a table of theirs that has no
behaviour of its own (table row REGISTER_WRITE). -/
inductive RegWrite where
  /-- R42, R147, R235 -/
  | dieReg (die : Nat) (reg : DieReg) (value : BitVec 64)
  /-- R42, R223, R256, R269, R426 -/
  | jobReg (die job : Nat) (reg : JobReg) (value : BitVec 64)
  /-- PWR_STATE.CAP, R278 -/
  | powerCap (pkg : Nat) (value : BitVec 64)
  /-- a 64-bit word of a function register block, by the root monitor, R248 -/
  | functionWord (pkg fid word : Nat) (value : BitVec 64)
  /-- the appointment of the pod master's hub, by the root monitor, R234 -/
  | timeMaster (pkg : Nat)
  /-- CQ_BASE, R272 -/
  | cqBase (pkg fid : Nat) (value : BitVec 64)
  /-- bytes written by the host into a launch slot, R49, R51 -/
  | windowBytes (pkg fid offset : Nat) (bytes : List (BitVec 8))
  /-- bytes written by the host into device memory, R186 -/
  | deviceBytes (plain : Nat) (bytes : List (BitVec 8))
  /-- an ASID table entry, by the root monitor, R237 -/
  | asid (die n : Nat) (entry : AsidEntry)
  /-- the placement of a job, R26, R56, R224 -/
  | place (p : JobPlacement)
  /-- a block-resolver entry, R174, R205 -/
  | resolver (die block target : Nat)
  /-- blocks the field firmware puts into a job's pool on a die, R205 -/
  | pool (die job : Nat) (blocks : List Nat)
  /-- entries of the HBM ring of a ready queue, R35 -/
  | ring (die level entries : Nat)
  /-- the area of a die's HBM that its sequence home takes block tables from, R195, R425 -/
  | seqArea (die base len : Nat)
  /-- the field firmware reports the page unmapped that a record set aside asks for, R44 -/
  | unmapped (die idx : Nat)
  /-- the function that owns a 2 MiB page of a die's HBM, R249 -/
  | pageOwner (page fid : Nat)
  /-- TLBI issued on a die: kind and g, R239, R363 -/
  | tlbi (die kind : Nat) (value : BitVec 64)
  /-- bytes that the management cores ask to write, or to read, at a plain address, R249, R274 -/
  | mgmtWrite (plain : Nat) (bytes : List (BitVec 8))
  | mgmtRead (plain len : Nat)
  /-- a package's number and coordinates, at pod formation, R15, R23, R24 -/
  | coords (pkg number : Nat) (px py pz : Nat)
  /-- the package grid, at pod formation, R212 -/
  | grid (npx npy npz : Nat)
  deriving DecidableEq, Repr

/-- Who makes such a write (R274). -/
inductive Agent where
  | host | rootMonitor | fieldFirmware
  deriving DecidableEq, Repr

/-- A write and the agent that makes it. -/
structure AgentWrite where
  agent : Agent
  reg : RegWrite
  deriving DecidableEq, Repr

/-- A flit of a port: its channel and its sequence number (R215). -/
structure Flit where
  channel : Nat
  num : Nat
  deriving DecidableEq, Repr

/-- The counter that a time-sync exchange aligns, and the lead it takes: a die's to its hub, or that hub's to the pod
master's (R234). -/
inductive TimeLead where
  | die (ns : Nat) | hub (ns : Nat)
  deriving DecidableEq, Repr

/-- What fails: a die, or a package with its hub (R246). -/
inductive Failure where
  | die (d : Nat) | hub (pkg : Nat)
  deriving DecidableEq, Repr

/-- A signed firmware image as flash holds it (R275): the 128 bytes of its header, the 48 bytes of s, and the image. -/
structure FwImage where
  bytes : List (BitVec 8)
  deriving DecidableEq, Repr

end Sys2Proof.Machine
end

