-- ==== Sys2Proof/Syntax.lean ====
section
/-! DEFINITION. The steps of the X8: one constructor per row of spec/opcode_table.json, named after its mnemonic.
Control words and micro-orders carry the fields of their encoding as bits (04_formats_assembly.md, R81, R96);
an event carries the numbers that say where it happens (a die key is 8 * package + die, a tile key is
32 * die key + tile; `id` numbers a message or a request in flight; `n` of a command start is how much of the
transfer the engine performs before its next turn). -/

namespace Sys2Proof

inductive Instr where
  -- control words (R93)
  /-- ILL, R324. Any word with major opcode 0x00 traps ILLEGAL_OP at the word and changes no state. -/
  | ill (x : BitVec 25)
  /-- ADD, R285. Writes the wrapping 64-bit sum of two g registers to g[d]. -/
  | add (d : BitVec 6) (a : BitVec 6) (b : BitVec 6)
  /-- SUB, R336. Writes the wrapping 64-bit difference g[a] − g[b] to g[d]. -/
  | sub (d : BitVec 6) (a : BitVec 6) (b : BitVec 6)
  /-- MUL, R336. Writes the low 64 bits of the product of g[a] and g[b]. -/
  | mul (d : BitVec 6) (a : BitVec 6) (b : BitVec 6)
  /-- MUL_HI, R336. Writes bits 127:64 of the signed 128-bit product. -/
  | mulHi (d : BitVec 6) (a : BitVec 6) (b : BitVec 6)
  /-- MUL_HI_N, R336. Writes bits 127:64 of the unsigned 128-bit product. -/
  | mulHiN (d : BitVec 6) (a : BitVec 6) (b : BitVec 6)
  /-- DIV, R306. Signed division truncating towards zero; divide by zero gives all ones. -/
  | div (d : BitVec 6) (a : BitVec 6) (b : BitVec 6)
  /-- DIV_N, R306. Unsigned division; divide by zero gives all ones. -/
  | divN (d : BitVec 6) (a : BitVec 6) (b : BitVec 6)
  /-- REM, R336. Signed remainder with the sign of g[a]; a zero divisor delivers g[a]. -/
  | rem (d : BitVec 6) (a : BitVec 6) (b : BitVec 6)
  /-- REM_N, R336. Unsigned remainder; a zero divisor delivers g[a]. -/
  | remN (d : BitVec 6) (a : BitVec 6) (b : BitVec 6)
  /-- AND, R286. Writes the bitwise AND of g[a] and g[b]. -/
  | and (d : BitVec 6) (a : BitVec 6) (b : BitVec 6)
  /-- OR, R336. Writes the bitwise OR of g[a] and g[b]. -/
  | or (d : BitVec 6) (a : BitVec 6) (b : BitVec 6)
  /-- XOR, R405. Writes the bitwise XOR of g[a] and g[b]. -/
  | xor (d : BitVec 6) (a : BitVec 6) (b : BitVec 6)
  /-- SHL, R336. Shifts g[a] left by g[b][5:0], with zeros entering. -/
  | shl (d : BitVec 6) (a : BitVec 6) (b : BitVec 6)
  /-- SHR, R336. Shifts g[a] right logically by g[b][5:0]. -/
  | shr (d : BitVec 6) (a : BitVec 6) (b : BitVec 6)
  /-- SRA, R336. Shifts g[a] right arithmetically by g[b][5:0]. -/
  | sra (d : BitVec 6) (a : BitVec 6) (b : BitVec 6)
  /-- MIN, R336. Writes the signed minimum of g[a] and g[b]. -/
  | min (d : BitVec 6) (a : BitVec 6) (b : BitVec 6)
  /-- MIN_N, R336. Writes the unsigned minimum of g[a] and g[b]. -/
  | minN (d : BitVec 6) (a : BitVec 6) (b : BitVec 6)
  /-- MAX, R336. Writes the signed maximum of g[a] and g[b]. -/
  | max (d : BitVec 6) (a : BitVec 6) (b : BitVec 6)
  /-- MAX_N, R336. Writes the unsigned maximum of g[a] and g[b]. -/
  | maxN (d : BitVec 6) (a : BitVec 6) (b : BitVec 6)
  /-- SLT, R336. Writes 1 if g[a] is below g[b] signed, else 0. -/
  | slt (d : BitVec 6) (a : BitVec 6) (b : BitVec 6)
  /-- SLT_N, R336. Writes 1 if g[a] is below g[b] unsigned, else 0. -/
  | sltN (d : BitVec 6) (a : BitVec 6) (b : BitVec 6)
  /-- CLZ, R297. Writes the number of leading zero bits of g[a], 64 for zero. -/
  | clz (d : BitVec 6) (a : BitVec 6)
  /-- POPC, R336. Writes the number of one bits in g[a]. -/
  | popc (d : BitVec 6) (a : BitVec 6)
  /-- SEXT_B, R336. Sign-extends g[a][7:0] to 64 bits. -/
  | sextB (d : BitVec 6) (a : BitVec 6)
  /-- SEXT_H, R336. Sign-extends g[a][15:0] to 64 bits. -/
  | sextH (d : BitVec 6) (a : BitVec 6)
  /-- SEXT_W, R336. Sign-extends g[a][31:0] to 64 bits. -/
  | sextW (d : BitVec 6) (a : BitVec 6)
  /-- ADD_SAT, R285. Writes the signed sum of g[a] and g[b], clamped to 64 bits. -/
  | addSat (d : BitVec 6) (a : BitVec 6) (b : BitVec 6)
  /-- SUB_SAT, R336. Writes the signed difference of g[a] and g[b], clamped to 64 bits. -/
  | subSat (d : BitVec 6) (a : BitVec 6) (b : BitVec 6)
  /-- ADD_IMM, R285. Adds a sign-extended immediate to g[a] and writes the wrapping result to g[d]. -/
  | addImm (d : BitVec 6) (a : BitVec 6) (i : BitVec 13)
  /-- LIH, R334. Loads the sign-extended immediate shifted left by 13 into g[d]. -/
  | lih (d : BitVec 6) (i : BitVec 19)
  /-- PSET, R350. Sets predicate q to the result of a BR-style comparison of g[a] and g[b]. -/
  | pset (c : BitVec 3) (q : BitVec 3) (a : BitVec 6) (b : BitVec 6)
  /-- PLOG_AND, R348. Writes q[a] AND q[b] to q[d]. -/
  | plogAnd (d : BitVec 3) (a : BitVec 3) (b : BitVec 3)
  /-- PLOG_OR, R348. Writes q[a] OR q[b] to q[d]. -/
  | plogOr (d : BitVec 3) (a : BitVec 3) (b : BitVec 3)
  /-- PLOG_XOR, R348. Writes q[a] XOR q[b] to q[d]. -/
  | plogXor (d : BitVec 3) (a : BitVec 3) (b : BitVec 3)
  /-- PLOG_ANDN, R348. Writes q[a] AND NOT q[b] to q[d]. -/
  | plogAndn (d : BitVec 3) (a : BitVec 3) (b : BitVec 3)
  /-- PLOG_NOT, R348. Writes NOT q[a] to q[d]. -/
  | plogNot (d : BitVec 3) (a : BitVec 3)
  /-- LD, R332. Loads 1 to 8 bytes with sign or zero extension, optionally as an acquire at a scope. -/
  | ld (d : BitVec 6) (b : BitVec 6) (s : BitVec 3) (o : BitVec 2) (z : BitVec 2) (g : BitVec 1) (i : BitVec 5)
  /-- ST, R357. Stores 1 to 8 bytes of g[d] at commit, optionally as a release at a scope. -/
  | st (d : BitVec 6) (b : BitVec 6) (s : BitVec 3) (o : BitVec 2) (z : BitVec 2) (i : BitVec 5)
  /-- FLD, R320. Loads an f32 into f[d] with count 24, or 0 for infinity or NaN. -/
  | fld (d : BitVec 5) (a : BitVec 6) (i : BitVec 13)
  /-- FLD_T, R320. Loads an f32 value together with its tag byte as its count. -/
  | fldT (d : BitVec 5) (a : BitVec 6) (i : BitVec 13)
  /-- FST, R320. Stores the bits of f[d] and drops its count. -/
  | fst (d : BitVec 5) (a : BitVec 6) (i : BitVec 13)
  /-- FST_T, R320. Stores the f32 value and then its count into the tag byte. -/
  | fstT (d : BitVec 5) (a : BitVec 6) (i : BitVec 13)
  /-- BR, R291. Branches by a word offset when the comparison of g[a] and g[b] that cond selects holds. -/
  | br (c : BitVec 3) (a : BitVec 6) (b : BitVec 6) (o : BitVec 10)
  /-- BQ, R290. Branches by a word offset when q XOR neg is 1. -/
  | bq (n : BitVec 1) (q : BitVec 3) (o : BitVec 21)
  /-- JAL, R325. Jumps by a word offset and writes the return address to g[d]. -/
  | jal (d : BitVec 6) (i : BitVec 19)
  /-- JALR, R326. Jumps to g[a] + imm and writes the return address to g[d]; a misaligned target faults ALIGN. -/
  | jalr (d : BitVec 6) (a : BitVec 6) (i : BitVec 13)
  /-- LOOP, R335. Decrements a nonzero g[a] and branches back while the result is nonzero. -/
  | loop (a : BitVec 6) (o : BitVec 10)
  /-- BSIG, R292. Branches when the significance count of f[a] is below threshold n. -/
  | bsig (a : BitVec 5) (n : BitVec 5) (o : BitVec 10)
  /-- GRD, R87. Captures PV from q XOR neg and governs the next 1 to 8 words. -/
  | grd (q : BitVec 3) (n : BitVec 1) (c : BitVec 3)
  /-- PFX, R84. Supplies the high immediate bits of the following word as one indivisible instruction. -/
  | pfx (i : BitVec 25)
  /-- FADD, R314. Writes round(a + b) to f[d], with the count given by sig_add. -/
  | fadd (d : BitVec 5) (a : BitVec 5) (b : BitVec 5)
  /-- FSUB, R314. Writes round(a − b) to f[d], with the count given by sig_add. -/
  | fsub (d : BitVec 5) (a : BitVec 5) (b : BitVec 5)
  /-- FMUL, R314. Writes round(a × b) to f[d], with the count given by the multiply rule. -/
  | fmul (d : BitVec 5) (a : BitVec 5) (b : BitVec 5)
  /-- FDIV, R314. Writes round(a / b) to f[d], with the count given by the multiply rule. -/
  | fdiv (d : BitVec 5) (a : BitVec 5) (b : BitVec 5)
  /-- FSQRT, R314. Writes round(√a) to f[d], with the count given by the square-root rule. -/
  | fsqrt (d : BitVec 5) (a : BitVec 5)
  /-- FMAX, R314. Writes maximumNumber of a and b to f[d]. -/
  | fmax (d : BitVec 5) (a : BitVec 5) (b : BitVec 5)
  /-- FMIN, R314. Writes minimumNumber of a and b to f[d]. -/
  | fmin (d : BitVec 5) (a : BitVec 5) (b : BitVec 5)
  /-- FSGN, R314. Writes a with the sign of b. -/
  | fsgn (d : BitVec 5) (a : BitVec 5) (b : BitVec 5)
  /-- FSGN_N, R314. Writes a with the complement of b's sign. -/
  | fsgnN (d : BitVec 5) (a : BitVec 5) (b : BitVec 5)
  /-- FSGN_X, R314. Writes a with a's sign XOR b's sign. -/
  | fsgnX (d : BitVec 5) (a : BitVec 5) (b : BitVec 5)
  /-- FMOV, R314. Copies the bits and the count of f[a] to f[d]. -/
  | fmov (d : BitVec 5) (a : BitVec 5)
  /-- FCLASS, R316. Writes a one-hot class of f[a], with an EXACT bit, to g[d]. -/
  | fclass (d : BitVec 6) (a : BitVec 5)
  /-- FFMA, R319. Writes round(a × b + c) to f[d] with one rounding. -/
  | ffma (d : BitVec 5) (a : BitVec 5) (b : BitVec 5) (c : BitVec 5)
  /-- FCMP, R317. Sets predicate q from the floating comparison that cond selects. -/
  | fcmp (c : BitVec 3) (q : BitVec 3) (a : BitVec 5) (b : BitVec 5)
  /-- FCVT, R318. Converts between integer, f32, f16 and bf16 as the kind field gives, in the rounding the rm field gives. -/
  | fcvt (d : BitVec 6) (a : BitVec 6) (k : BitVec 4) (r : BitVec 3)
  /-- FSIG_READ, R321. Writes the count of f[a] to g[d]. -/
  | fsigRead (d : BitVec 6) (a : BitVec 5)
  /-- FSIG_SET, R321. Sets the count of f[d] from g[a][4:0]. -/
  | fsigSet (d : BitVec 5) (a : BitVec 6)
  /-- FSIG_IMM, R321. Sets the count of f[d] from an immediate of 0 to 31. -/
  | fsigImm (d : BitVec 5) (i : BitVec 5)
  /-- AADD, R281. Atomically adds v to the location at its home, returning the old value unless it is the no-return form. -/
  | aadd (d : BitVec 6) (a : BitVec 6) (b : BitVec 6) (s : BitVec 3) (o : BitVec 2) (z : BitVec 1) (n : BitVec 1)
  /-- ALOG_AND, R281. Atomically ANDs v into the location. -/
  | alogAnd (d : BitVec 6) (a : BitVec 6) (b : BitVec 6) (s : BitVec 3) (o : BitVec 2) (z : BitVec 1) (n : BitVec 1)
  /-- ALOG_OR, R281. Atomically ORs v into the location. -/
  | alogOr (d : BitVec 6) (a : BitVec 6) (b : BitVec 6) (s : BitVec 3) (o : BitVec 2) (z : BitVec 1) (n : BitVec 1)
  /-- ALOG_XOR, R281. Atomically XORs v into the location. -/
  | alogXor (d : BitVec 6) (a : BitVec 6) (b : BitVec 6) (s : BitVec 3) (o : BitVec 2) (z : BitVec 1) (n : BitVec 1)
  /-- AMAX, R281. Atomic signed maximum. -/
  | amax (d : BitVec 6) (a : BitVec 6) (b : BitVec 6) (s : BitVec 3) (o : BitVec 2) (z : BitVec 1) (n : BitVec 1)
  /-- AMAX_N, R281. Atomic unsigned maximum. -/
  | amaxN (d : BitVec 6) (a : BitVec 6) (b : BitVec 6) (s : BitVec 3) (o : BitVec 2) (z : BitVec 1) (n : BitVec 1)
  /-- AMIN, R281. Atomic signed minimum. -/
  | amin (d : BitVec 6) (a : BitVec 6) (b : BitVec 6) (s : BitVec 3) (o : BitVec 2) (z : BitVec 1) (n : BitVec 1)
  /-- AMIN_N, R281. Atomic unsigned minimum. -/
  | aminN (d : BitVec 6) (a : BitVec 6) (b : BitVec 6) (s : BitVec 3) (o : BitVec 2) (z : BitVec 1) (n : BitVec 1)
  /-- AMAXF, R284. Atomic f32 maximumNumber at the home, with the old value as first operand. -/
  | amaxf (d : BitVec 5) (a : BitVec 6) (b : BitVec 5) (s : BitVec 3) (o : BitVec 2) (n : BitVec 1)
  /-- AMINF, R284. Atomic f32 minimumNumber at the home. -/
  | aminf (d : BitVec 5) (a : BitVec 6) (b : BitVec 5) (s : BitVec 3) (o : BitVec 2) (n : BitVec 1)
  /-- AADDF, R284. Atomic f32 add with one rounding at the home; flags return with the response. -/
  | aaddf (d : BitVec 5) (a : BitVec 6) (b : BitVec 5) (s : BitVec 3) (o : BitVec 2) (n : BitVec 1)
  /-- ACAS, R281. Atomic compare-and-swap against g[d]; a failed comparison writes nothing. -/
  | acas (d : BitVec 6) (a : BitVec 6) (b : BitVec 6) (s : BitVec 3) (o : BitVec 2) (z : BitVec 1)
  /-- AXCH, R281. Atomic exchange. -/
  | axch (d : BitVec 6) (a : BitVec 6) (b : BitVec 6) (s : BitVec 3) (o : BitVec 2) (z : BitVec 1) (n : BitVec 1)
  /-- ATQ, R245. Queries a home's outcome log for a logged request tag and returns the result and the status. -/
  | atq (d : BitVec 6) (a : BitVec 6) (b : BitVec 6)
  /-- MARK, R181. Holds later queue entries until earlier ones have left, and waits for remote no-return responses. -/
  | mark
  /-- FENCE, R181. A MARK that also waits until every earlier access has been performed, synchronising at the scope given. -/
  | fence (s : BitVec 3)
  /-- AFENCE, R188. Waits until earlier stores are performed and blocks forwarding across it, joining aliases. -/
  | afence
  /-- EVSIG, R310. Adds g[b] to an event count as a release at .part and releases met waiters. -/
  | evsig (a : BitVec 6) (b : BitVec 6)
  /-- EVSIG_R, R310. Resets an event count to zero. -/
  | evsigR (a : BitVec 6)
  /-- EVWAIT, R311. Continues if an event count meets the threshold, else saves the unit and parks it in the wait list. -/
  | evwait (a : BitVec 6) (b : BitVec 6)
  /-- EVPOLL, R309. Reads an event count as an acquire at .part. -/
  | evpoll (d : BitVec 6) (a : BitVec 6)
  /-- BARINIT, R288. Sets a counting barrier's count, as a release at .part. -/
  | barinit (a : BitVec 6) (b : BitVec 6)
  /-- BARADD, R288. Adds to a counting barrier's count with saturation, as a release at .part. -/
  | baradd (a : BitVec 6) (b : BitVec 6)
  /-- BARWAIT, R289. Waits until the local barrier count reaches n, then subtracts n as an acquire at .part. -/
  | barwait (d : BitVec 6) (a : BitVec 6) (i : BitVec 13)
  /-- TOKSIG, R365. Signals a tile token by g[a] + imm with saturation, as a release at .tile. -/
  | toksig (t : BitVec 6) (a : BitVec 6) (i : BitVec 13)
  /-- TOKWAIT, R366. Waits in arrival order until a token's count reaches g[a], then subtracts it as an acquire at .tile. -/
  | tokwait (t : BitVec 6) (a : BitVec 6) (i : BitVec 13)
  /-- SQNEW, R196. Creates a grow-only sequence from a creation record and returns its handle. -/
  | sqnew (d : BitVec 6) (a : BitVec 6)
  /-- SQRES, R197. Reserves n slots at the home and returns the first index. -/
  | sqres (d : BitVec 6) (a : BitVec 6) (b : BitVec 6)
  /-- SQCOM, R198. Marks slots committed and advances CL over gap-free runs, as a release at the sequence's scope. -/
  | sqcom (d : BitVec 6) (a : BitVec 6) (b : BitVec 6)
  /-- SQLEN, R204. Returns CL with SEALED in bit 63, as an acquire. -/
  | sqlen (d : BitVec 6) (a : BitVec 6)
  /-- SQFORK, R207. Creates a sequence that shares the committed prefix of length k. -/
  | sqfork (d : BitVec 6) (a : BitVec 6) (b : BitVec 6)
  /-- SQDROP, R208. Frees a sequence, narrowing its grants and releasing its blocks. -/
  | sqdrop (a : BitVec 6)
  /-- SQSLOT, R199. Installs or refreshes a tile grant and returns a slot address. -/
  | sqslot (d : BitVec 6) (a : BitVec 6) (b : BitVec 6)
  /-- SQSEAL, R206. Seals a sequence against further reservation. -/
  | sqseal (a : BitVec 6)
  /-- SQWAIT, R204. Waits until CL reaches k, or until k becomes unreachable, then returns CL and SEALED. -/
  | sqwait (d : BitVec 6) (a : BitVec 6) (i : BitVec 13)
  /-- VRUN, R395. Issues a command that runs a sequencer table under a footprint word. -/
  | vrun (a : BitVec 6) (g : BitVec 6) (c : BitVec 6) (x : BitVec 1) (y : BitVec 1)
  /-- VBASE, R372. Sets the table-store base and zeroes the m registers that ZMASK names. -/
  | vbase (a : BitVec 6) (g : BitVec 6) (c : BitVec 6) (x : BitVec 1) (y : BitVec 1)
  /-- VBASE_L, R372. Loads table-store steps and tags from memory. -/
  | vbaseL (a : BitVec 6) (g : BitVec 6) (c : BitVec 6) (x : BitVec 1) (y : BitVec 1)
  /-- VHALT, R378. Stops the running table at its next step boundary. -/
  | vhalt (a : BitVec 6) (g : BitVec 6) (c : BitVec 6) (x : BitVec 1) (y : BitVec 1)
  /-- VSEND, R398. Writes a value into a z, i, k register or an m element. -/
  | vsend (a : BitVec 6) (g : BitVec 6) (c : BitVec 6) (x : BitVec 1) (y : BitVec 1)
  /-- MLDB, R343. Loads a CIM weight set from a read map. -/
  | mldb (a : BitVec 6) (g : BitVec 6) (c : BitVec 6) (x : BitVec 1) (y : BitVec 1)
  /-- MMUL, R344. Multiplies A rows by a weight set into an exact accumulator, chunk by chunk. -/
  | mmul (a : BitVec 6) (g : BitVec 6) (c : BitVec 6) (x : BitVec 1) (y : BitVec 1)
  /-- MDRAIN, R342. Writes accumulator rows to memory as i32, i64 or f32. -/
  | mdrain (a : BitVec 6) (g : BitVec 6) (c : BitVec 6) (x : BitVec 1) (y : BitVec 1)
  /-- MDRAIN_S, R342. Writes accumulator row status words to memory. -/
  | mdrainS (a : BitVec 6) (g : BitVec 6) (c : BitVec 6) (x : BitVec 1) (y : BitVec 1)
  /-- MCLR, R341. Clears accumulator rows, their flags and shift reports, and sets FLOOR to 255. -/
  | mclr (a : BitVec 6) (g : BitVec 6) (c : BitVec 6) (x : BitVec 1) (y : BitVec 1)
  /-- MBASE, R339. Sets the stamp reference to the DCC value at its start. -/
  | mbase (a : BitVec 6) (g : BitVec 6) (c : BitVec 6) (x : BitVec 1) (y : BitVec 1)
  /-- MSHR, R346. Shifts accumulator rows right with round-half-even and records the bits lost. -/
  | mshr (a : BitVec 6) (g : BitVec 6) (c : BitVec 6) (x : BitVec 1) (y : BitVec 1)
  /-- WDEF, R403. Defines a stream record from a read map, optionally with an index source. -/
  | wdef (a : BitVec 6) (g : BitVec 6) (c : BitVec 6) (x : BitVec 1) (y : BitVec 1)
  /-- TMAP, R364. Loads a 64-byte tensor-map image into a d register, computing ALIAS. -/
  | tmap (d : BitVec 4) (a : BitVec 6) (i : BitVec 13)
  /-- TLOAD, R361. Copies map elements from memory into the own slice. -/
  | tload (a : BitVec 6) (g : BitVec 6) (c : BitVec 6) (x : BitVec 1) (y : BitVec 1)
  /-- TSTORE, R361. Copies map elements from the own slice to memory. -/
  | tstore (a : BitVec 6) (g : BitVec 6) (c : BitVec 6) (x : BitVec 1) (y : BitVec 1)
  /-- TGATH, R361. Gathers indexed elements into the own slice. -/
  | tgath (a : BitVec 6) (g : BitVec 6) (c : BitVec 6) (x : BitVec 1) (y : BitVec 1)
  /-- TSCAT, R361. Scatters own-slice elements to indexed addresses. -/
  | tscat (a : BitVec 6) (g : BitVec 6) (c : BitVec 6) (x : BitVec 1) (y : BitVec 1)
  /-- XPAT, R406. Installs one of eight bit-field extraction patterns. -/
  | xpat (a : BitVec 6) (g : BitVec 6) (c : BitVec 6) (x : BitVec 1) (y : BitVec 1)
  /-- HEXCH, R323. Sends block faces to torus neighbours' halos and counts them on their barriers. -/
  | hexch (a : BitVec 6) (g : BitVec 6) (c : BitVec 6) (x : BitVec 1) (y : BitVec 1)
  /-- LAYSET, R331. Writes a layout slot on every die of the placement, through the home. -/
  | layset (a : BitVec 6) (g : BitVec 6) (c : BitVec 6) (x : BitVec 1) (y : BitVec 1)
  /-- LAYSET_PASS, R331. Loads the job's pass table. -/
  | laysetPass (a : BitVec 6) (g : BitVec 6) (c : BitVec 6) (x : BitVec 1) (y : BitVec 1)
  /-- LAYGET, R329. Reads a field of the executing die's copy of a layout slot. -/
  | layget (d : BitVec 6) (a : BitVec 6) (f : BitVec 7)
  /-- RESHARD, R352. Moves a tensor between layout slots by timed passes and advances both versions. -/
  | reshard (a : BitVec 6) (g : BitVec 6) (c : BitVec 6) (x : BitVec 1) (y : BitVec 1)
  /-- CRED, R299. Contributes to an in-router reduction and receives the result with a status record. -/
  | cred (a : BitVec 6) (g : BitVec 6) (c : BitVec 6) (x : BitVec 1) (y : BitVec 1)
  /-- CBCAST, R296. Broadcasts the root's payload down the collective tree. -/
  | cbcast (a : BitVec 6) (g : BitVec 6) (c : BitVec 6) (x : BitVec 1) (y : BitVec 1)
  /-- DISCARD, R305. Fences, then makes a range of pages fallow and waits for the revocation. -/
  | discard (a : BitVec 6) (b : BitVec 6)
  /-- PREF, R349. Asks the translation agent to cache the page walks of a range, with no architectural effect. -/
  | pref (a : BitVec 6) (b : BitVec 6)
  /-- SPAWN, R354. Registers n unit records from a template as a new launch. -/
  | spawn (d : BitVec 6) (a : BitVec 6) (b : BitVec 6)
  /-- JOIN, R327. Decrements a join counter and registers the continuation when it reaches zero. -/
  | join (d : BitVec 6) (a : BitVec 6) (b : BitVec 6)
  /-- EXIT, R313. Retires the unit, draining its queued commands. -/
  | exit
  /-- EXIT_D, R77. Retires the unit and discards its queued commands. -/
  | exitD
  /-- YIELD, R407. Waits for remote responses; if a pre-emption or cancel is pending, saves and re-enqueues the unit or cancels it. -/
  | yield
  /-- CANCEL, R293. Cancels a unit, launch, graph or phase of the job. -/
  | cancel (d : BitVec 6) (a : BitVec 6)
  /-- CMPL, R298. Closes a graph or phase entry and attaches its completion event. -/
  | cmpl (d : BitVec 6) (a : BitVec 6) (b : BitVec 6)
  /-- REGION, R351. Sets the timing mode, slack and checking, draining when the mode changes, and resets the stamp reference. -/
  | region (m : BitVec 2) (c : BitVec 1) (s : BitVec 12)
  /-- SEGEND, R353. Compares a segment's measured cycles and signature with its SEGS entry and restarts both counters. -/
  | segend (a : BitVec 6) (i : BitVec 13)
  /-- NOP, R92. Has no effect. -/
  | nop
  /-- TRAP, R367. Raises SOFTWARE with a 16-bit code, resuming at the next word. -/
  | trap (c : BitVec 16)
  /-- ERET, R259. Returns from the handler, restoring state from the record and re-entering cut commands. -/
  | eret
  /-- CTLR, R302. Reads a control register at commit. -/
  | ctlr (d : BitVec 6) (n : BitVec 13)
  /-- CTLW, R303. Writes a control register at commit, or traps PRIV or ILLEGAL_OP. -/
  | ctlw (a : BitVec 6) (n : BitVec 13)
  /-- BUFPH_SWAP, R267. A CTLW to BUFPH with EN set commits a buffer phase: it waits, snapshots state, records the refill and sets PHV. -/
  | bufphSwap (a : BitVec 6)
  /-- BUFPH_CLOSE, R267. A CTLW to BUFPH with EN clear closes phases and clears PHV. -/
  | bufphClose (a : BitVec 6)
  /-- TLBI, R363. Invalidates translation-cache entries as the kind field selects; a unit traps PRIV. -/
  | tlbi (a : BitVec 6) (k : BitVec 3)
  /-- CYC, R304. Reads the die cycle counter or the PTC copy. -/
  | cyc (d : BitVec 6) (k : BitVec 13)
  -- micro-orders (R101)
  /-- VNOP, R386. Micro-order with no effect. -/
  | vnop
  /-- VADD, R370. Lane-wise rounded f32 add with tags. -/
  | vadd (d : BitVec 8) (a : BitVec 8) (b : BitVec 8)
  /-- VADD_Z, R370. Lane-wise f32 add of a z scalar. -/
  | vaddZ (d : BitVec 8) (a : BitVec 8) (z : BitVec 4)
  /-- VSUB, R370. Lane-wise f32 subtract. -/
  | vsub (d : BitVec 8) (a : BitVec 8) (b : BitVec 8)
  /-- VSUB_Z, R370. Lane-wise f32 subtract of a z scalar. -/
  | vsubZ (d : BitVec 8) (a : BitVec 8) (z : BitVec 4)
  /-- VMUL, R370. Lane-wise f32 multiply. -/
  | vmul (d : BitVec 8) (a : BitVec 8) (b : BitVec 8)
  /-- VMUL_Z, R370. Lane-wise f32 multiply by a z scalar. -/
  | vmulZ (d : BitVec 8) (a : BitVec 8) (z : BitVec 4)
  /-- VFMA, R370. Lane-wise fused x × y + w into the destination. -/
  | vfma (d : BitVec 8) (a : BitVec 8) (b : BitVec 8)
  /-- VFMA_Z, R370. Lane-wise fused multiply-add with a z scalar. -/
  | vfmaZ (d : BitVec 8) (a : BitVec 8) (z : BitVec 4)
  /-- VFMA_S, R370. Lane-wise fused w − x × y. -/
  | vfmaS (d : BitVec 8) (a : BitVec 8) (b : BitVec 8)
  /-- VFMA_S_Z, R370. Lane-wise fused w − x × z. -/
  | vfmaSZ (d : BitVec 8) (a : BitVec 8) (z : BitVec 4)
  /-- VDIV, R370. Lane-wise f32 divide. -/
  | vdiv (d : BitVec 8) (a : BitVec 8) (b : BitVec 8)
  /-- VDIV_Z, R370. Lane-wise f32 divide by a z scalar. -/
  | vdivZ (d : BitVec 8) (a : BitVec 8) (z : BitVec 4)
  /-- VMAX, R370. Lane-wise maximumNumber. -/
  | vmax (d : BitVec 8) (a : BitVec 8) (b : BitVec 8)
  /-- VMAX_Z, R370. Lane-wise maximumNumber against a z scalar. -/
  | vmaxZ (d : BitVec 8) (a : BitVec 8) (z : BitVec 4)
  /-- VMIN, R370. Lane-wise minimumNumber. -/
  | vmin (d : BitVec 8) (a : BitVec 8) (b : BitVec 8)
  /-- VMIN_Z, R370. Lane-wise minimumNumber against a z scalar. -/
  | vminZ (d : BitVec 8) (a : BitVec 8) (z : BitVec 4)
  /-- VSGN, R370. Lane-wise copy of x with y's sign. -/
  | vsgn (d : BitVec 8) (a : BitVec 8) (b : BitVec 8)
  /-- VSGN_Z, R370. Lane-wise copy of x with the z scalar's sign. -/
  | vsgnZ (d : BitVec 8) (a : BitVec 8) (z : BitVec 4)
  /-- VRCP, R376. Lane-wise rounded reciprocal. -/
  | vrcp (d : BitVec 8) (a : BitVec 8)
  /-- VRSQ, R376. Lane-wise reciprocal square root. -/
  | vrsq (d : BitVec 8) (a : BitVec 8)
  /-- VSQRT, R376. Lane-wise square root. -/
  | vsqrt (d : BitVec 8) (a : BitVec 8)
  /-- VEXP2, R376. Lane-wise 2^x. -/
  | vexp2 (d : BitVec 8) (a : BitVec 8)
  /-- VLOG2, R376. Lane-wise log2 x. -/
  | vlog2 (d : BitVec 8) (a : BitVec 8)
  /-- VCMP_EQ, R374. Lane-wise equality into a k mask. -/
  | vcmpEq (k : BitVec 3) (a : BitVec 8) (b : BitVec 8)
  /-- VCMP_LT, R374. Lane-wise less-than into a k mask. -/
  | vcmpLt (k : BitVec 3) (a : BitVec 8) (b : BitVec 8)
  /-- VCMP_LE, R374. Lane-wise less-or-equal into a k mask. -/
  | vcmpLe (k : BitVec 3) (a : BitVec 8) (b : BitVec 8)
  /-- VCMP_UN, R374. Lane-wise unordered test into a k mask. -/
  | vcmpUn (k : BitVec 3) (a : BitVec 8) (b : BitVec 8)
  /-- VCMP_Z_EQ, R374. Lane-wise equality against a z scalar. -/
  | vcmpZEq (k : BitVec 3) (a : BitVec 8) (z : BitVec 4)
  /-- VCMP_Z_LT, R374. Lane-wise less-than against a z scalar. -/
  | vcmpZLt (k : BitVec 3) (a : BitVec 8) (z : BitVec 4)
  /-- VCMP_Z_LE, R374. Lane-wise less-or-equal against a z scalar. -/
  | vcmpZLe (k : BitVec 3) (a : BitVec 8) (z : BitVec 4)
  /-- VCMP_Z_UN, R374. Lane-wise unordered test against a z scalar. -/
  | vcmpZUn (k : BitVec 3) (a : BitVec 8) (z : BitVec 4)
  /-- VSEL, R397. Selects a or b in every lane by the step's mask. -/
  | vsel (d : BitVec 8) (a : BitVec 8) (b : BitVec 8)
  /-- VIADD, R379. Lane-wise wrapping 32-bit integer add. -/
  | viadd (d : BitVec 8) (a : BitVec 8) (b : BitVec 8)
  /-- VIADD_Z, R379. Lane-wise integer add of a z scalar. -/
  | viaddZ (d : BitVec 8) (a : BitVec 8) (z : BitVec 4)
  /-- VISUB, R379. Lane-wise wrapping integer subtract. -/
  | visub (d : BitVec 8) (a : BitVec 8) (b : BitVec 8)
  /-- VISUB_Z, R379. Lane-wise integer subtract of a z scalar. -/
  | visubZ (d : BitVec 8) (a : BitVec 8) (z : BitVec 4)
  /-- VIMUL, R379. Lane-wise low 32 bits of an integer product. -/
  | vimul (d : BitVec 8) (a : BitVec 8) (b : BitVec 8)
  /-- VIMUL_Z, R379. Lane-wise integer multiply by a z scalar. -/
  | vimulZ (d : BitVec 8) (a : BitVec 8) (z : BitVec 4)
  /-- VIMAX, R379. Lane-wise signed integer maximum. -/
  | vimax (d : BitVec 8) (a : BitVec 8) (b : BitVec 8)
  /-- VIMAX_Z, R379. Lane-wise signed maximum against a z scalar. -/
  | vimaxZ (d : BitVec 8) (a : BitVec 8) (z : BitVec 4)
  /-- VIMIN, R379. Lane-wise signed integer minimum. -/
  | vimin (d : BitVec 8) (a : BitVec 8) (b : BitVec 8)
  /-- VIMIN_Z, R379. Lane-wise signed minimum against a z scalar. -/
  | viminZ (d : BitVec 8) (a : BitVec 8) (z : BitVec 4)
  /-- VBIT_AND, R379. Lane-wise bitwise AND. -/
  | vbitAnd (d : BitVec 8) (a : BitVec 8) (b : BitVec 8)
  /-- VBIT_OR, R379. Lane-wise bitwise OR. -/
  | vbitOr (d : BitVec 8) (a : BitVec 8) (b : BitVec 8)
  /-- VBIT_XOR, R379. Lane-wise bitwise XOR. -/
  | vbitXor (d : BitVec 8) (a : BitVec 8) (b : BitVec 8)
  /-- VBIT_ANDN, R379. Lane-wise x AND NOT y. -/
  | vbitAndn (d : BitVec 8) (a : BitVec 8) (b : BitVec 8)
  /-- VSHF_SHL, R379. Lane-wise shift left by y[4:0]. -/
  | vshfShl (d : BitVec 8) (a : BitVec 8) (b : BitVec 8)
  /-- VSHF_SHR, R379. Lane-wise logical shift right. -/
  | vshfShr (d : BitVec 8) (a : BitVec 8) (b : BitVec 8)
  /-- VSHF_SRA, R379. Lane-wise arithmetic shift right. -/
  | vshfSra (d : BitVec 8) (a : BitVec 8) (b : BitVec 8)
  /-- VIADD_SAT, R379. Lane-wise saturating 32-bit add. -/
  | viaddSat (d : BitVec 8) (a : BitVec 8) (b : BitVec 8)
  /-- VISUB_SAT, R379. Lane-wise saturating 32-bit subtract. -/
  | visubSat (d : BitVec 8) (a : BitVec 8) (b : BitVec 8)
  /-- VIMAX_N, R379. Lane-wise unsigned maximum. -/
  | vimaxN (d : BitVec 8) (a : BitVec 8) (b : BitVec 8)
  /-- VIMIN_N, R379. Lane-wise unsigned minimum. -/
  | viminN (d : BitVec 8) (a : BitVec 8) (b : BitVec 8)
  /-- VCVT, R375. Lane-wise format conversion as the kind field gives, in the rounding the rm field gives. -/
  | vcvt (d : BitVec 8) (a : BitVec 8) (r : BitVec 3) (k : BitVec 4)
  /-- VQNT, R389. Quantises an f32 row to integers with exponent zE and writes the A-floor entry. -/
  | vqnt (d : BitVec 8) (a : BitVec 8) (e : BitVec 4) (m : BitVec 1) (f : BitVec 2)
  /-- VRSUM, R391. Reduces 64 lanes by rounded addition in the fixed tree into a z register. -/
  | vrsum (z : BitVec 4) (a : BitVec 8)
  /-- VRMAX, R391. Reduces 64 lanes by maximumNumber into a z register. -/
  | vrmax (z : BitVec 4) (a : BitVec 8)
  /-- VRMIN, R391. Reduces 64 lanes by minimumNumber into a z register. -/
  | vrmin (z : BitVec 4) (a : BitVec 8)
  /-- VMOV, R385. Copies operand values and tags bit for bit. -/
  | vmov (d : BitVec 8) (a : BitVec 8)
  /-- VROT, R390. Rotates the lanes of an operand by n. -/
  | vrot (d : BitVec 8) (a : BitVec 8) (n : BitVec 6)
  /-- VBCAST, R373. Broadcasts a z value and its tag to every written lane. -/
  | vbcast (d : BitVec 8) (z : BitVec 4)
  /-- VLD, R382. Loads 64 strided slice elements into an m operand with tag 24. -/
  | vld (d : BitVec 8) (z : BitVec 4) (s : BitVec 8)
  /-- VST, R400. Stores an operand into the slice at a lane stride and width. -/
  | vst (d : BitVec 8) (z : BitVec 4) (w : BitVec 2) (s : BitVec 6)
  /-- VLD_T, R382. Loads slice elements together with their slice tag bytes. -/
  | vldT (d : BitVec 8) (z : BitVec 4) (s : BitVec 8)
  /-- VST_T, R400. Stores 32-bit elements and their tag bytes into the slice. -/
  | vstT (d : BitVec 8) (z : BitVec 4) (s : BitVec 6)
  /-- VPOP, R387. Waits for and removes the head entry of a stream record's operand queue into an operand. -/
  | vpop (d : BitVec 8) (w : BitVec 4) (b : BitVec 8)
  /-- VPUSH, R388. Stores an operand contiguously into the slice and advances zB. -/
  | vpush (d : BitVec 8) (z : BitVec 4) (w : BitVec 2)
  /-- VSACC, R396. Scales 64 accumulator columns into f32 with y added, with one rounding. -/
  | vsacc (d : BitVec 8) (n : BitVec 2) (q : BitVec 2) (y : BitVec 2) (m : BitVec 1) (s : BitVec 4)
  /-- VSACC_N, R396. Normalising scale-and-accumulate that divides by a denominator column. -/
  | vsaccN (d : BitVec 8) (n : BitVec 2) (q : BitVec 2) (y : BitVec 2) (m : BitVec 1) (x : BitVec 2) (s : BitVec 4)
  /-- VACCR, R368. Copies accumulator columns, in the view the function selects, or row status words, into an operand. -/
  | vaccr (d : BitVec 8) (n : BitVec 2) (q : BitVec 2) (y : BitVec 2) (f : BitVec 8)
  /-- VSIGQ, R399. Sets k-mask bits for lanes whose tag is below n. -/
  | vsigq (k : BitVec 3) (a : BitVec 8) (n : BitVec 5)
  /-- VSIGS, R399. Sets destination tags from a's value bits 4:0. -/
  | vsigs (d : BitVec 8) (a : BitVec 8)
  /-- VSIGR, R399. Writes the tags of a as integer values. -/
  | vsigr (d : BitVec 8) (a : BitVec 8)
  /-- VLOOP, R383. Opens an inner loop level of n iterations, or skips to the matching VEND when n is 0. -/
  | vloop (n : BitVec 16)
  /-- VEND, R383. Closes an iteration of the innermost VLOOP level. -/
  | vend
  /-- VFLAG, R377. Writes the VRUN's flag set since the table started into a z register. -/
  | vflag (z : BitVec 4)
  /-- VFLAG_NEW, R377. Writes the flags raised since the previous VFLAG into a z register. -/
  | vflagNew (z : BitVec 4)
  /-- VWAIT, R401. Takes n from a tile token from the VS, bounded, as an acquire at .tile. -/
  | vwait (t : BitVec 6) (n : BitVec 8) (b : BitVec 8)
  /-- VIDX, R380. Sets an index register to imm16. -/
  | vidx (i : BitVec 3) (n : BitVec 16)
  /-- VIDX_ADD, R380. Adds imm16 to an index register modulo 2^16. -/
  | vidxAdd (i : BitVec 3) (n : BitVec 16)
  /-- VKSET, R381. Builds a k mask from a z threshold or from other masks, as the mode byte selects. -/
  | vkset (k : BitVec 3) (a : BitVec 8) (b : BitVec 8)
  /-- VZMOV_LANE, R402. Copies one lane's value and tag into a z register. -/
  | vzmovLane (z : BitVec 4) (a : BitVec 8) (l : BitVec 6)
  /-- VZMOV_Z, R402. Copies one z register to another. -/
  | vzmovZ (z : BitVec 4) (y : BitVec 4)
  -- events (95_what_each_step_holds.md)
  /-- REGISTER_WRITE, R42. A firmware, root-monitor or host write to a register that has no behaviour of its own. -/
  | registerWrite (w : Machine.AgentWrite)
  /-- LAUNCH_NOTIFY, R51. A host write to a slot's notify register sets BUSY and compares the stamp, or is dropped or refused. -/
  | launchNotify (pkg fid slot : Nat) (value : BitVec 32)
  /-- LAUNCH_STAMP_REREAD, R51. At each 50 ns interval after a stamp mismatch, the hub re-reads the slot; after 64 re-reads it completes with LAUNCH_TORN. -/
  | launchStampReread (pkg fid slot : Nat)
  /-- LAUNCH_UNIT_REGISTER, R38. The hub registers a waiting launch's further units as unit ids free. -/
  | launchUnitRegister (job launch : Nat)
  /-- CQ_CTL_WRITE, R272. A host write to CQ_CTL; setting EN restarts the entry count and releases held entries. -/
  | cqCtlWrite (pkg fid : Nat) (value : BitVec 64)
  /-- CQ_HEAD_WRITE, R272. A host write to CQ_HEAD lets the hub write entries it has been holding. -/
  | cqHeadWrite (pkg fid : Nat) (value : BitVec 32)
  /-- FIRMWARE_PREEMPT, R54. The field firmware sets a pre-emption pending on a tile. -/
  | firmwarePreempt (tile : Nat)
  /-- DISPATCH, R39. When a tile is idle and a dispatchable record exists, the scheduler pops the oldest record of the highest level and starts it. -/
  | dispatch (die : Nat)
  /-- AGING_SWEEP, R40. The background sweep visits every queued record, raising aged ones and discarding cancelled ones. -/
  | agingSweep (die : Nat)
  /-- TRANSLATION_COMPLETE, R44. A record set aside for translation returns to the head of its level when translation completes. -/
  | translationComplete (die idx : Nat)
  /-- FORCED_SAVE, R56. When PREEMPT_LIMIT expires on a pending pre-emption, the scheduler cuts the unit and writes a context frame. -/
  | forcedSave (tile : Nat)
  /-- CONTEXT_FRAME_FREE, R56. A frame of the job's context pool frees, and a forced save waiting for one begins. -/
  | contextFrameFree (tile : Nat)
  /-- CANCEL_LIMIT_EXPIRY, R30. PREEMPT_LIMIT ns after a cancel request reached a running unit, the cancel takes effect. -/
  | cancelLimitExpiry (tile : Nat)
  /-- EVENT_WAIT_REPRESENT, R48. The field firmware re-presents a parked wait once room exists. -/
  | eventWaitRepresent (die idx : Nat)
  /-- PENDING_SIGNAL_APPLY, R48. A held signal is applied in issue order once an event entry frees. -/
  | pendingSignalApply (die : Nat)
  /-- COMMAND_START, R62. The oldest queued command with no predecessors, and its gate taken, starts on its engine. -/
  | commandStart (tile queue n : Nat)
  /-- COMMAND_COMPLETE, R61. An engine command completes, releasing successors and signalling its completion token. -/
  | commandComplete (tile pos : Nat)
  /-- SCHED_MISS, R74. In a strict region, a stamped MQ command late beyond S raises SCHED_MISS. -/
  | schedMiss (tile : Nat)
  /-- WAIT_BOUND, R76. A stall counter passing its bound traps WAIT_BOUND, naming the wait. -/
  | waitBound (tile who : Nat)
  /-- HANDLER_ENTRY, R257. Once started commands have completed or been cut, the trap record is written and the handler is entered. -/
  | handlerEntry (tile : Nat)
  /-- LATE_LEG_FAULT, R262. A command leg that faults after its cut point raises a fault with LATE set, or writes a damage entry. -/
  | lateLegFault (tile pos : Nat) (cls : BitVec 8) (faddr : BitVec 64)
  /-- STREAM_FILL_ENTRY, R169. The stream engine fills the next operand-queue entry of a live record, or marks it with a fault. -/
  | streamFillEntry (tile rec : Nat)
  /-- MMUL_CHUNK_COMMIT, R143. At the end of a K chunk, its sums are committed into the accumulator with saturation. -/
  | mmulChunkCommit (tile : Nat)
  /-- CIM_GATE_IDLE, R147. A weight set idle past CIM_GATE.IDLE cycles is power-gated. -/
  | cimGateIdle (tile set : Nat)
  /-- CIM_WAKE_END, R148. A weight-set wake of CAP_CIM_WAKE cycles ends and the command may start. -/
  | cimWakeEnd (tile set : Nat)
  /-- LOGGED_REQUEST_AT_HOME, R244. A home acts on an arriving remote request before D − 2 × skew, or refuses it, and logs the outcome. -/
  | loggedRequestAtHome (src dst : Nat)
  /-- REMOTE_RESPONSE, R245. A response to a remote request arrives and completes it, normal or poisoned. -/
  | remoteResponse (id : Nat) (poisoned : Bool)
  /-- REQUEST_DEADLINE, R245. A remote request with no response by its deadline D ends in TIMEOUT. -/
  | requestDeadline (id : Nat)
  /-- SCRUB_READ, R192. The scrubber reads and corrects a 256-byte HBM sector. -/
  | scrubRead (die sector : Nat) (correctable : Bool)
  /-- SCRUB_WRITEBACK, R192. The scrubber writes back a corrected sector, or drops the write-back if the version changed. -/
  | scrubWriteback (die sector : Nat)
  /-- PTE_CHANGE, R240. The root monitor writes a leaf entry, issues TLBI and sends revocations. -/
  | pteChange (job va : Nat) (entry : BitVec 64)
  /-- REVOCATION_RECEIVE, R240. A tile marks the extents it holds over the range revoked. -/
  | revocationReceive (id tile : Nat)
  /-- REVOCATION_ACK, R240. A tile acknowledges once every access checked against the revoked extents has been performed. -/
  | revocationAck (id tile : Nat)
  /-- REVOCATION_COMPLETE, R240. With every acknowledgement in, the change completes, letting DISCARD or a migration copy proceed. -/
  | revocationComplete (id : Nat)
  /-- MIGRATION_COMPLETE, R241. The root monitor writes the new ADDR and clears MIGRATING, releasing waiting records and ERET stalls. -/
  | migrationComplete (job va target : Nat)
  /-- GRANT_NARROWING, R202. A tile receives a narrowing of a grant's W range. -/
  | grantNarrowing (id : Nat)
  /-- NARROWING_ACK, R202. The home receives narrowing acknowledgements and advances CL. -/
  | narrowingAck (id : Nat)
  /-- SEQ_HOME_RETRY, R425. A sequence request waiting at its home proceeds when a descriptor, block or grant entry frees. -/
  | seqHomeRetry (id : Nat)
  /-- SEQ_HOME_REFUSE, R425. The home refuses a waiting remote sequence request once its PTC reaches D − 2 × skew. -/
  | seqHomeRefuse (id : Nat)
  /-- FLIT_RETRANSMIT_REQUEST, R215. A flit that FEC cannot correct is requested again by sequence number and retransmitted. -/
  | flitRetransmitRequest (die port : Nat) (flit : Machine.Flit)
  /-- LINK_DOWN, R216. After 16 failed retransmissions or 10,000 ns without acknowledgement, a link goes down and traffic reroutes. -/
  | linkDown (die port : Nat)
  /-- TIME_SYNC_EXCHANGE, R234. Every 65,536 ns a die aligns its PTC copy to the master by slewing. -/
  | timeSyncExchange (die : Nat) (lead : Machine.TimeLead)
  /-- TIME_REFERENCE_FAIL, R236. A failed time reference stops the die's PTC copy and marks its ports degraded. -/
  | timeReferenceFail (die : Nat)
  /-- TIME_REFERENCE_RETURN, R236. A returning time reference steps the PTC forward and clears degraded. -/
  | timeReferenceReturn (die : Nat)
  /-- HUB_WATCHDOG_EXPIRY, R236. After 2 ms without a time-sync reply, the hub declares the die lost. -/
  | hubWatchdogExpiry (die : Nat)
  /-- PACKAGE_LINKS_DOWN, R246. A package whose off-package links have all been down for 2 ms is declared lost. -/
  | packageLinksDown (pkg : Nat)
  /-- LOSS_NOTICE, R246. A die applies a loss notice: it marks routes, fails outstanding requests and writes damage entries. -/
  | lossNotice (die member : Nat)
  /-- SLAB_ARRIVAL, R222. A headland slab arrives, is written through its halo map and then counted on the barrier. -/
  | slabArrival (id : Nat)
  /-- LAYSET_DISTRIBUTE, R220. The home reserves layout-area room and distributes a slot image to every die of the placement. -/
  | laysetDistribute (id : Nat)
  /-- LAYSET_INSTALL, R219. A die installs a slot image or pass table in the home's order. -/
  | laysetInstall (id : Nat)
  /-- RESHARD_PASS_TIME, R226. At T0 + OFF[k], a die sends READY for pass k once it is ready. -/
  | reshardPassTime (die job : Nat)
  /-- RESHARD_READY, R226. A partner's READY arrives; matching parameters start the exchange and others abort. -/
  | reshardReady (id : Nat)
  /-- RESHARD_SLACK_EXPIRY, R227. A pass not ready by T0 + OFF + SLACK aborts with RESHARD_LATE. -/
  | reshardSlackExpiry (die job : Nat)
  /-- RESHARD_ABORT, R227. An ABORT message stops a die's passes and faults its RESHARD. -/
  | reshardAbort (id : Nat)
  /-- RESHARD_PASS_END, R226. A pass ends when both directions are performed; after the last pass the die reports to rank 0. -/
  | reshardPassEnd (die job : Nat)
  /-- RESHARD_REPORT, R226. Rank 0 receives a report and, once it has all of them, sends the commit. -/
  | reshardReport (id : Nat)
  /-- RESHARD_COMMIT, R226. At the commit a die advances both versions, releases the target data and completes the RESHARD. -/
  | reshardCommit (id : Nat)
  /-- RESHARD_LOCAL_MOVE, R225. With P = 1, at T0 the die moves every element locally and commits. -/
  | reshardLocalMove (die job : Nat)
  /-- COLLECTIVE_PARTIAL_ARRIVAL, R229. A partial arrives at a router, joins or opens a slot, or is dropped if late. -/
  | collectivePartialArrival (id : Nat)
  /-- COLLECTIVE_FORWARD, R229. When EXP is complete or the forward time comes, a router folds its inputs and forwards its partial. -/
  | collectiveForward (die job cid : Nat)
  /-- COLLECTIVE_ROOT_FINISH, R233. The root finishes at EXP complete or DEADLINE and sends the result down the tree. -/
  | collectiveRootFinish (die job cid : Nat)
  /-- COLLECTIVE_RESULT_ARRIVAL, R233. A result or CBCAST payload arrives, is delivered locally and forwarded down. -/
  | collectiveResultArrival (id : Nat)
  /-- COLLECTIVE_SLOT_TIMEOUT, R233. At DEADLINE + 50,000 ns with no result, a slot frees and a local CRED completes LOST. -/
  | collectiveSlotTimeout (die job cid : Nat)
  /-- CBCAST_DEADLINE, R233. A member CBCAST whose DEADLINE passes before delivery completes INCOMPLETE. -/
  | cbcastDeadline (die job cid : Nat)
  /-- FLR_INITIATE, R250. The PCIe FLR bit sets FLRB, stops launches and cuts the function's tiles. -/
  | flrInitiate (pkg fid : Nat)
  /-- FLR_DRAIN_DONE, R250. After the function's requests drain, its ASIDs and state are cleared and FLRB is cleared. -/
  | flrDrainDone (pkg fid : Nat)
  /-- PACKAGE_RESET, R273. The secure core boots from ROM, verifying and starting the root monitor and the field firmware. -/
  | packageReset (pkg : Nat) (slotA slotB field : Machine.FwImage)
  /-- FIRMWARE_UPDATE, R275. An update is written to the inactive slot and checked at once. -/
  | firmwareUpdate (pkg : Nat) (image : Machine.FwImage) (root : Bool)
  /-- SVN_COMMIT, R275. The root monitor raises the fused SVN minimum on command. -/
  | svnCommit (pkg svn : Nat)
  /-- GET_VERSION, R277. SPDM GET_VERSION request on a DOE mailbox. -/
  | getVersion (pkg fid : Nat)
  /-- GET_CAPABILITIES, R277. SPDM GET_CAPABILITIES request. -/
  | getCapabilities (pkg fid : Nat)
  /-- NEGOTIATE_ALGORITHMS, R277. SPDM NEGOTIATE_ALGORITHMS request, offering only P-384 and SHA-384. -/
  | negotiateAlgorithms (pkg fid offered : Nat)
  /-- GET_DIGESTS, R277. SPDM GET_DIGESTS request. -/
  | getDigests (pkg fid : Nat)
  /-- GET_CERTIFICATE, R277. SPDM GET_CERTIFICATE request. -/
  | getCertificate (pkg fid : Nat)
  /-- CHALLENGE, R277. SPDM CHALLENGE request signed with the alias key. -/
  | challenge (pkg fid nonce : Nat)
  /-- GET_MEASUREMENTS, R277. SPDM GET_MEASUREMENTS request, with measurement 4 read at signing. -/
  | getMeasurements (pkg fid index : Nat)
  /-- SPDM_UNSUPPORTED, R277. Any other SPDM request returns UnsupportedRequest. -/
  | spdmUnsupported (pkg fid code : Nat)
  /-- DROOP_STRETCH, R278. A supply droop stretches the die's cycles within 2 ns. -/
  | droopStretch (die stretch : Nat)
  /-- POWER_WINDOW, R278. Each 1 ms window, the power controller adjusts added stretch to hold the cap. -/
  | powerWindow (pkg avg stretch : Nat)
  /-- THERMAL_HALF_RATE, R279. A die junction passing 105 °C is stretched to half rate. -/
  | thermalHalfRate (die temp : Nat)
  /-- THERMAL_RECOVER, R279. A die falling below 100 °C leaves half rate. -/
  | thermalRecover (die temp : Nat)
  /-- THERMAL_SHUTDOWN, R279. A die passing 115 °C loses power and is declared lost. -/
  | thermalShutdown (die temp : Nat)
  /-- REMOTE_ACCESS_AT_HOME, R177. A request from another die arrives at a home and is performed there in home order. Such requests are loads, stores, barrier and event operations, sequence operations that are not logged, and level-table or scheduler messages. -/
  | remoteAccessAtHome (src dst : Nat)
  /-- DIE_FAILURE, R246. The hub detects an uncorrectable failure of a compute die and declares the die lost, sending a loss notice. -/
  | dieFailure (what : Machine.Failure)
  /-- POISONED_WINDOW_WRITE, R271. A host write to a launch window that arrives poisoned, or with an unsupported size, is discarded and logged through AER. -/
  | poisonedWindowWrite (pkg fid offset : Nat)
  /-- JOB_CLOSE, R25. The field firmware closes a job's level-4 entry, so the job completes once its count reaches zero. At completion its level entries, events and sequences are freed. -/
  | jobClose (job : Nat)
  /-- JOB_CANCEL, R30. The field firmware cancels a job at level 4, and every unit and entry of the job is cancelled as R30 gives. -/
  | jobCancel (job : Nat)
  deriving DecidableEq, Repr

end Sys2Proof
end

