-- ==== Sys2Proof/Machine/State.lean ====
section
/-! DEFINITION. The state of the machine: the pod, its packages, dies, tiles and jobs, memory, and the requests and
messages in flight. Every piece of state that the spec names is here; INVENTORY.md lists each with its rule. The
default value of each field is its value at reset. -/

namespace Sys2Proof.Machine

/-! ## Why the machine can stop -/

/-- Reasons a step faults. -/
inductive Fault where
  /-- The schedule in `State.turns` names as an event an instruction that is a control word or a micro-order. Raised
  by `step` only. Safe: the schedule is the model's own input and no machine state asks for it. -/
  | badTurn
  deriving DecidableEq, Repr

/-- Reasons an instruction has no meaning here. -/
inductive Refusal where
  /-- The instruction has no meaning in the model yet. Raised by `exec`. Safe: no claim about it can be proved. -/
  | notModelled (mnemonic : String)
  deriving DecidableEq, Repr

/-! ## Registers -/

/-- An f register: value and significance count, 31 being EXACT (R6, R131). -/
structure FReg where
  val : W32 := 0
  cnt : BitVec 5 := 31
  deriving DecidableEq, Repr

/-- An element of an m register, or a z register: value and tag (R138). -/
structure VElem where
  val : W32 := 0
  tag : BitVec 5 := 0
  deriving DecidableEq, Repr

/-- A tensor map (R154), as a d register holds it. -/
structure TMap where
  base : W64 := 0
  extC : W32 := 0
  extX : W32 := 0
  extY : W32 := 0
  extT : W32 := 0
  strC : W32 := 0
  strX : W32 := 0
  strY : W32 := 0
  strT : W32 := 0
  index : W64 := 0
  fmt : W32 := 0
  ly : W32 := 0
  ibound : W32 := 0
  deriving DecidableEq, Repr

/-- The bits and the state of one accumulator row: R122, R140. -/
structure AccRow where
  ovf : Bool := false
  inv : Bool := false
  floor : Nat := 255
  inx : Bool := false
  lost : Nat := 0
  deriving DecidableEq, Repr

/-- One bit field of an extraction pattern (R165). -/
structure XField where
  shift : Nat
  width : Nat
  sx : Bool
  deriving DecidableEq, Repr

/-- An extraction pattern (R165); NF = 0 at dispatch. -/
structure XPattern where
  period : Nat := 0
  nf : Nat := 0
  ofmt : Nat := 0
  fields : List XField := []
  deriving DecidableEq, Repr

/-- An entry of a stream record's operand queue: 64 lanes, or a fault met while filling (R170). -/
inductive StreamEntry where
  | lanes (l : List VElem) (flags : Nat)
  | fault (cls : Nat) (addr : W64)
  deriving DecidableEq, Repr

/-- A stream record w0..w15 (R168). -/
structure Stream where
  defined : Bool := false
  map : TMap := {}
  /-- the pattern that it extracts with (R167) -/
  pat : XPattern := {}
  rm : Nat := 0
  src : Option Nat := none
  /-- the next entry to fill -/
  next : Nat := 0
  /-- entries delivered -/
  popped : Nat := 0
  queue : List StreamEntry := []
  stopped : Bool := false
  /-- lanes of the head entry that the stream engine has consumed, where the record is an index source -/
  taken : Nat := 0
  /-- index values received from its own index source -/
  idx : List Nat := []
  /-- a later WDEF has redefined its index source (R404) -/
  orphan : Bool := false
  deriving DecidableEq, Repr

/-- A translated extent of a tile (R44, R240). -/
structure Extent where
  vbase : Nat
  plain : Nat
  len : Nat
  r : Bool
  w : Bool
  x : Bool
  tagged : Bool
  fallow : Bool
  revoked : Bool := false
  /-- footprint entry it came from -/
  foot : Nat := 0
  deriving DecidableEq, Repr

/-- A grant entry of a tile (R199). -/
structure Grant where
  handle : W64
  /-- block-table index, and the plain tier-10 address of the block's first byte -/
  blk : Nat
  plain : Nat
  /-- W range in bytes within the block -/
  wlo : Nat
  whi : Nat
  stamp : BitVec 16
  /-- order of installation -/
  age : Nat
  /-- the home die was lost: a store faults TARGET_LOST (R210) -/
  lost : Bool := false
  deriving DecidableEq, Repr

/-! ## Records and work -/

/-- A continuation record (R31). -/
structure Rec where
  code : W64 := 0
  frame : W64 := 0
  join : W64 := 0
  foot : W64 := 0
  job : Nat := 0
  phase : Nat := 0
  graph : Nat := 0
  launch : Nat := 0
  event : Nat := 0
  prio : Nat := 0
  flags : BitVec 8 := 0
  tileMask : W32 := 0
  dieMask : BitVec 8 := 0
  nfoot : BitVec 8 := 0
  unit : BitVec 16 := 0
  enqt : W32 := 0
  state : W64 := 0
  deriving DecidableEq, Repr

/-- A ready-queue entry: the record and its extension line (R36). `index` is the unit's index in its launch, `die`
the die it was placed on, `frame` the number of the context frame that holds its full save. -/
structure Entry where
  cr : Rec := {}
  index : Nat := 0
  die : Nat := 0
  ext : List W64 := []
  frame : Option Nat := none
  /-- virtual addresses at which the field firmware has reported its footprint unmapped (R44) -/
  reported : List Nat := []
  deriving DecidableEq, Repr

/-- A dependence resource (R63, R167, R219). Memory is named by 64-byte lines of plain address, first to last. -/
inductive Res where
  | m (n : Nat) | a (n : Nat) | b (n : Nat) | w (n : Nat) | ly (n : Nat) | pat (n : Nat) | passTable
  | tables | scalars | afloor
  | lines (lo hi : Nat) | allMem
  deriving DecidableEq, Repr

/-- The kind of an engine command (R60). -/
inductive CmdKind where
  | vrun | vbase | vbaseL | vhalt | vsend | wdef
  | mldb | mmul | mdrain | mdrainS | mclr | mbase | mshr
  | tload | tstore | tgath | tscat | xpat | hexch | layset | laysetPass | reshard | cred | cbcast
  deriving DecidableEq, Repr

/-- A command queue. -/
inductive Queue where
  | vq | mq | cq
  deriving DecidableEq, Repr

/-- An engine command: queued, started or cut (R61). -/
structure Cmd where
  kind : CmdKind
  seq : BitVec 16
  atag : W64
  /-- program-order position of the word that issued it -/
  pos : Nat
  clause : BitVec 5
  gate : Option Nat := none
  comp : Option Nat := none
  p0 : W64 := 0
  p1 : W64 := 0
  m0 : TMap := {}
  m1 : TMap := {}
  /-- the record an XPAT carries (R406) -/
  pat : XPattern := {}
  /-- FPC as it stood at issue (R127) -/
  fpc : W64 := 0
  rd : List Res := []
  wr : List Res := []
  /-- positions of the earlier commands it waits for -/
  preds : List Nat := []
  gateTaken : Bool := false
  /-- it stands in the token's list of takers; the DCC at which the gate take began -/
  gateSince : Option Nat := none
  /-- DCC at which it became the oldest of its queue -/
  oldestAt : Option Nat := none
  /-- no stamp: re-entered after a cut (R150) -/
  unstamped : Bool := false
  /-- stamp reference in force at issue, unless an MBASE lies ahead of it (R146) -/
  ref : Nat := 0
  /-- the stamp counts from the MBASE ahead of it in MQ -/
  refMbase : Bool := false
  /-- elements, slabs or bytes performed -/
  elem : Nat := 0
  /-- K chunks committed -/
  chunk : Nat := 0
  /-- some effect on tile state or memory has been made (R252) -/
  effect : Bool := false
  /-- byte address, and half for i4, of each element that a checked write has performed (R162) -/
  wrote : List (Nat × Option Nat) := []
  /-- requests with smaller numbers left the die before it started -/
  startId : Nat := 0
  /-- flags raised so far -/
  flags : Nat := 0
  /-- legs in flight: messages or faces not yet ended -/
  legs : Nat := 0
  /-- the fault met by a leg, delivered when the legs have ended -/
  legFault : Option (Nat × W64) := none
  /-- a copy with legs has performed its elements: only the answers are out (R79, R362) -/
  moved : Bool := false
  /-- its die's PTC when it started -/
  startPtc : Nat := 0
  /-- faces that a HEXCH has sent, and the ports of those that have failed (R222, R323) -/
  faces : Nat := 0
  failed : List Nat := []
  /-- elements performed of each slab of a HEXCH -/
  slabs : Tab Nat := []
  /-- DCC of its start -/
  startedAt : Nat := 0
  /-- it was cut or its issuer left: its flags and faults are late (R79, R262) -/
  late : Bool := false
  deriving DecidableEq, Repr

/-- What a journal entry holds (R59). A register write holds the value to put back. -/
inductive JKind where
  | g (n : Nat) (old : W64)
  | f (n : Nat) (old : FReg)
  | q (old : BitVec 8)
  | d (n : Nat) (old : TMap)
  | store (va : W64) (plain : Nat) (bytes : List Byte) (grant : Option Nat)
  | tok (t n : Nat)
  | none
  deriving DecidableEq, Repr

/-- One entry of the retirement journal, with the flags its word ORs into FPC at commit (R79). -/
structure JEntry where
  pos : Nat
  kind : JKind
  flags : Nat := 0
  clause : BitVec 5 := 0
  /-- address of its word -/
  pc : W64 := 0
  /-- a release: it leaves once every earlier store has been performed (R183) -/
  rel : Bool := false
  deriving DecidableEq, Repr

/-- A no-return atomic or a store in the store queue, with its address as issued and its plain address (R179). -/
structure SEntry where
  va : W64
  plain : Nat
  bytes : List Byte
  grant : Option Nat := none
  /-- a no-return atomic: operation code, size in bytes, operand bits, operand count, scope; its tag -/
  amo : Option (Nat × Nat × W64) := none
  tag : BitVec 16 := 0
  /-- FPC as it stood at the atomic, and the count of its operand (R284) -/
  fpc : W64 := 0
  cnt : Nat := 31
  /-- program order of its word -/
  pos : Nat := 0
  deriving DecidableEq, Repr

/-- What a stalled CT or VS waits on (R76). -/
inductive WaitOn where
  | token (t n : Nat)
  | barrier (b n : Nat)
  | seqn (handle : W64) (k : Nat)
  | seqRoom (id : Nat)
  | queue (q : Queue)
  | slack
  | journal
  | storeQueue
  | logged
  | response (id : Nat)
  | posted
  | commit
  | drain
  | discard (id : Nat)
  | eret
  | levelRoom
  | eventRoom
  | stream (w : Nat)
  | allDone
  /-- a tagged load has its value, and has yet to read the tag byte (R137) -/
  | tagRead (v : W32)
  /-- the first bytes of an image on another die have been loaded (R364) -/
  | imageRead (bs : List Byte)
  deriving DecidableEq, Repr

/-- A stall of the CT or the VS: its cause, the DCC at which it began, and its bound in cycles, if it has one. A
parked wait is ended by another step; a wait that is not parked is tried again each turn. -/
structure Wait where
  on : WaitOn
  since : Nat
  bound : Option Nat
  parked : Bool
  /-- destination register of the waiting instruction -/
  dst : Nat := 0
  deriving DecidableEq, Repr

/-- A taker waiting on a tile token, in arrival order (R67). -/
inductive Taker where
  | ct (n : Nat)
  | vs (n : Nat)
  | gate (pos : Nat)
  deriving DecidableEq, Repr

/-- A VLOOP level (R383): counter and the step after the VLOOP. -/
structure VLevel where
  count : Nat
  start : Nat
  deriving DecidableEq, Repr

/-- The running VRUN of the vector sequencer (R70, R72): its command, its table, and the loop state. -/
structure VsRun where
  cmd : Cmd
  /-- table-store index of body step 0, tag-store index of its tag, body length -/
  body : Nat
  tagOff : Nat
  steps : Nat
  ns : Nat
  rot : Bool
  bank : Bool
  n : Nat
  upc : Nat := 0
  pass : Nat := 0
  rb : Nat := 0
  levels : List VLevel := []
  /-- sticky flags of the table, and those since the last VFLAG (R377) -/
  flags : Nat := 0
  flagNew : Nat := 0
  /-- a VHALT has been taken; the table ends at the next step boundary -/
  halt : Bool := false
  /-- some step has completed (R252) -/
  moved : Bool := false
  /-- its last pass has ended -/
  done : Bool := false
  wait : Option Wait := none
  /-- the take of its VWAIT has been served -/
  granted : Bool := false
  deriving DecidableEq, Repr

/-- The gating of one weight set (R147, R148). -/
structure CimGate where
  gated : Bool := false
  idleSince : Nat := 0
  wakeEnd : Option Nat := none
  deriving DecidableEq, Repr

/-- An open segment of a strict region (R264). -/
structure Segment where
  start : Option Nat := none
  crc : W32 := 0xFFFFFFFF#32
  void : Bool := false
  deriving DecidableEq, Repr

/-- An open buffer phase (R267). -/
structure Phase where
  g : List W64
  q : BitVec 8
  pc : W64
  refill : List Cmd
  taken : Bool := false
  /-- INH at its start -/
  inh : Bool := false
  deriving DecidableEq, Repr

/-- The commands of one queue that have started and are not treated as discarded: those since the unit's dispatch or
resumption, newest first, back to the newest one complete, and the last one before the resumption (R254, R412). -/
structure Started where
  since : List (BitVec 16) := []
  before : Option (BitVec 16) := none
  deriving DecidableEq, Repr

/-- The fault in hand while the cut is taken (R252, R255). -/
structure TrapInfo where
  cls : Nat
  src : Nat := 0
  faddr : W64 := 0
  objk : Nat := 0
  obj : Nat := 0
  atag : BitVec 16 := 0
  wseq : BitVec 16 := 0
  lane : Nat := 0
  ly : W32 := 0
  late : Bool := false
  frc : Bool := false
  /-- the fault was reported for a posted request, and the word that waited for it raises it (R245) -/
  posted : Bool := false
  /-- queue sequence number and address tag of the command that faulted, if one did (R270) -/
  seq : Nat := 0
  ctag : Option W64 := none
  /-- program order of the faulting word or command, and of the point the PC was rewound to -/
  pos : Nat := 0
  cutPos : Nat := 0
  pc : W64 := 0
  clause : BitVec 5 := 0
  next : List (BitVec 16) := []
  ptc : Nat := 0
  /-- flags that the faulting operation set (R126) -/
  flags : Nat := 0
  /-- the sector at fault is one of a weight set (R345) -/
  inSet : Bool := false
  deriving DecidableEq, Repr

/-- What the kind-1 damage entry of a unit that is killed names: the class, the location in VA where the fault has one, and
the address tag and number of the command that faulted, if one did (R78, R258, R270). -/
structure Death where
  cls : Nat
  va : Option W64 := none
  tag : Option W64 := none
  seq : Nat := 0
  deriving DecidableEq, Repr

/-- What ends at the cut in place of a handler. -/
inductive CutWhy where
  | trap (t : TrapInfo)
  | cancel
  /-- the unit is killed (R78, R258, R270) -/
  | abort (d : Death)
  /-- a forced save; a fault met during it is kept, class 0 standing for none (R57) -/
  | save (t : TrapInfo)
  | flr
  /-- a phase runs again (R268); a fault met meanwhile is kept as in `save` -/
  | replay (t : TrapInfo)
  deriving DecidableEq, Repr

/-- The state of a tile (R39, R41, R77, R252). -/
inductive TStatus where
  | idle
  | running
  /-- a cut is being taken: started commands complete or are cut first -/
  | cutting (why : CutWhy)
  /-- EXIT or EXIT.d has committed -/
  | draining
  /-- the completion actions of R28 are under way; the join decrement is in flight as request `id` -/
  | retiring (id : Nat)
  deriving DecidableEq, Repr

/-- A response that the CT need not wait for: a posted remote store or no-return atomic (R245, R358). -/
structure Posted where
  id : Nat
  addr : W64
  grant : Option Nat := none
  /-- program order of its word -/
  pos : Nat := 0
  deriving DecidableEq, Repr

/-- A fault reported for a posted request or by a leg, not yet raised. -/
structure Report where
  cls : Nat
  addr : W64
  tag : BitVec 16 := 0
  leg : Bool := false
  src : Nat := 7
  /-- address tag and queue number of the command whose leg it is -/
  ctag : Option W64 := none
  seq : Nat := 0
  deriving DecidableEq, Repr

/-! ## Tiles -/

/-- A tile (R19). The default values are those of package reset; `dispatchTile` of Ops.lean sets those of dispatch. -/
structure Tile where
  status : TStatus := .idle
  entry : Entry := {}
  asid : Nat := 0
  /-- PTC at which a cancel request, or a pre-emption, reached the tile (R30, R54) -/
  cancelAt : Option Nat := none
  preemptAt : Option Nat := none
  /-- the field firmware has been told that no context frame was free for the pending save (R56) -/
  saveAsked : Bool := false
  /-- the cancel took effect on the unit: it is counted cancelled (R30) -/
  cancelled : Bool := false
  g : Tab W64 := []
  f : Tab FReg := []
  q : BitVec 8 := 1
  d : Tab TMap := []
  pc : W64 := 0
  /-- the immediate of a PFX whose word has not run (R84) -/
  pfx : Option (BitVec 25) := none
  /-- PV and REM (R89) -/
  clause : BitVec 5 := 0
  /-- CLAUSE before the word in hand, or its PFX, was fetched (R90) -/
  fetchClause : BitVec 5 := 0
  /-- words of the fetch buffer by address, newest first (R187) -/
  fbuf : List (Nat × W32) := []
  /-- the control word in hand (R264) -/
  word : W32 := 0
  fpc : W64 := 0
  waitCap : W64 := 0x03FFF03FFF03FFF#64
  regionState : W64 := 1
  bufph : W64 := 0
  inh : Bool := false
  /-- program order of the handler's first word, and LS at its entry (R254, R259) -/
  handlerPos : Nat := 0
  handlerLs : List Started := []
  /-- NEXT as the record that the handler runs on gives it (R254) -/
  handlerNext : List (BitVec 16) := []
  phase : Option Phase := none
  /-- TLOAD and TGATH commands issued, newest first, for the refill of R267 -/
  loads : List Cmd := []
  order : Nat := 0
  journal : List JEntry := []
  storeQ : List SEntry := []
  /-- program order of the latest MARK: entries of the store queue before it leave before any access after it (R181) -/
  markPos : Nat := 0
  posted : List Posted := []
  reports : List Report := []
  wait : Option Wait := none
  atag : BitVec 16 := 0
  grantCtr : BitVec 16 := 0
  grantAge : Nat := 0
  grants : Tab Grant := []
  tokens : Tab Nat := []
  takers : Tab (List Taker) := []
  /-- per token, the DCC of its last take and what has been taken in that cycle (R67) -/
  took : Tab (Nat × Nat) := []
  vq : List Cmd := []
  mq : List Cmd := []
  cq : List Cmd := []
  nextV : BitVec 16 := 0
  nextM : BitVec 16 := 0
  nextC : BitVec 16 := 0
  /-- LS of R254 -/
  lsV : Started := {}
  lsM : Started := {}
  lsC : Started := {}
  started : List Cmd := []
  /-- queue and number of each command issued at or after the oldest one not complete (R254) -/
  hist : List (Nat × Queue × BitVec 16) := []
  cutM : Option Cmd := none
  cutC : Option Cmd := none
  vs : Option VsRun := none
  cutV : Option VsRun := none
  exts : List Extent := []
  pins : List Extent := []
  /-- DCC that stamps count from (R146); the unit's first word has yet to issue -/
  stampRef : Nat := 0
  refPending : Bool := false
  /-- DCC at which the latest MBASE started since the reference was last set -/
  mbaseAt : Option Nat := none
  /-- program order of the first word that counts from that reference -/
  refPos : Nat := 0
  /-- fixed mode: no issue before this DCC (R74) -/
  stallUntil : Nat := 0
  m : Tab VElem := []
  z : Tab VElem := []
  ix : Tab (BitVec 16) := []
  k : Tab W64 := []
  steps : Tab W32 := []
  tags : Tab (BitVec 4) := []
  vbase : BitVec 14 := 0
  b : Tab Byte := []
  /-- 256-byte sectors of the two sets that cannot be corrected, 0 to 1023 (R345) -/
  badB : List Nat := []
  bfmt0 : BitVec 2 := 3
  bfmt1 : BitVec 2 := 3
  /-- the maps that the weight sets were last loaded through (R150, R345) -/
  bmap0 : Option TMap := none
  bmap1 : Option TMap := none
  cim0 : CimGate := {}
  cim1 : CimGate := {}
  acc : Tab Acc80 := []
  rows : Tab AccRow := []
  afloor : Tab Byte := []
  streams : Tab Stream := []
  pats : Tab XPattern := []
  swz : Tab (BitVec 4) := []
  seg : Option Segment := none
  deriving DecidableEq, Repr

/-- What a context frame holds (R263): the tile's state at the save, the bytes of the scratchpad slice, the trap
record if one is in hand, and the flags and faults that arrived late. -/
structure Saved where
  key : Nat
  tile : Tile
  slice : Tab Byte
  trap : Option TrapInfo := none
  /-- PTC at the end of the save, and CAP_SELF of the saving tile -/
  ptc : Nat := 0
  self : W64 := 0
  /-- the bytes of the trap record of a handler that the save stopped (R261) -/
  record : Option (List Byte) := none
  lflags : Nat := 0
  late : List Report := []
  deriving DecidableEq, Repr

/-! ## Dies -/

/-- A waiter of a named event: a parked unit or a host launch, with its threshold (R46). -/
inductive Waiter where
  | unit (e : Entry) (thr : Nat)
  | launch (key : Nat) (thr : Nat)
  deriving DecidableEq, Repr

/-- An entry of the event table (R46). -/
structure Event where
  count : Nat := 0
  waiters : List Waiter := []
  deriving DecidableEq, Repr

/-- A signal held in the pending-signal buffer (R48). -/
structure Signal where
  job : Nat
  name : Nat
  n : Nat
  deriving DecidableEq, Repr

/-- A record outside the queues: set aside for translation, or parked by the field firmware for an event wait. -/
structure Parked where
  entry : Entry
  event : Nat := 0
  thr : Nat := 0
  /-- a host launch in place of a unit: its key in the wait lists -/
  launch : Option Nat := none
  /-- the virtual address whose page the field firmware is asked to supply (R44) -/
  asked : Option Nat := none
  deriving DecidableEq, Repr

/-- A level-table entry (R26). -/
structure LevelEntry where
  job : Nat
  level : Nat
  id : Nat
  count : Nat := 0
  closed : Bool := false
  cancelled : Bool := false
  done : Nat := 0
  canc : Nat := 0
  event : Option (Nat × Nat) := none
  /-- the entry's opening counted it in its parent: level and id of the parent -/
  parent : Option (Nat × Nat) := none
  /-- the host launch it belongs to: package, function, slot, CQTAG, CQE -/
  host : Option (Nat × Nat × Nat × W32 × Bool) := none
  deriving DecidableEq, Repr

/-- A waiter on a counting barrier: tile, units, destination (R223). -/
structure BarWaiter where
  tile : Nat
  n : Nat
  deriving DecidableEq, Repr

/-- A counting barrier (R223). -/
structure Barrier where
  count : Nat := 0
  waiters : List BarWaiter := []
  deriving DecidableEq, Repr

/-- A block-table entry (R205). -/
structure BlockEntry where
  v : Bool := false
  sh : Bool := false
  die : Nat := 0
  block : Nat := 0
  deriving DecidableEq, Repr

/-- A grant registered at a sequence's home (R199): its tile, its entry there, its block number, its unit. -/
structure RegGrant where
  tile : Nat
  num : Nat
  blk : Nat
  /-- unit id of its holder, which a forced save leaves registered (R201) -/
  unit : Nat := 0
  deriving DecidableEq, Repr

/-- A sequence descriptor (R195). -/
structure Seqn where
  live : Bool := false
  gen : Option (BitVec 16) := none
  job : Nat := 0
  slotLog2 : Nat := 3
  cap : Nat := 0
  scope : Nat := 0
  blkDies : BitVec 8 := 0
  cl : Nat := 0
  rc : Nat := 0
  /-- slots marked filled at or above CL, ascending -/
  win : List Nat := []
  sealed : Bool := false
  /-- plain address of the block table -/
  bt : Nat := 0
  grants : List RegGrant := []
  deriving DecidableEq, Repr

/-- A block-resolver entry: target address and prefix reference count (R205). -/
structure Resolved where
  target : Nat
  refs : Nat
  deriving DecidableEq, Repr

/-- A layout slot's installed copy: image fields and owner entries (R217, R220). -/
structure LaySlot where
  kind : Nat := 0
  fmt : Nat := 0
  ver : BitVec 16 := 0
  ext : List Nat := []
  blk : List Nat := []
  nown : Nat := 0
  owner : W64 := 0
  owners : List W64 := []
  deriving DecidableEq, Repr

/-- One pass of a pass table (R224). -/
structure Pass where
  xmask : Nat
  off : Nat
  slack : Nat
  deriving DecidableEq, Repr

/-- A RESHARD running on a die (R226). -/
structure Reshard where
  tile : Nat
  pos : Nat
  s : Nat
  t : Nat
  t0 : Nat
  rank : Nat
  pass : Nat := 0
  /-- the pass's READY has been sent, the partner's has been received -/
  sent : Bool := false
  /-- READYs received: sender's die key, pass, S, T, T0 -/
  readys : List (Nat × Nat × Nat × Nat × Nat) := []
  /-- the transfer of the pass has been made in both directions -/
  moved : Bool := false
  /-- reports received at rank 0 -/
  reports : List Nat := []
  /-- elements with both owners here have been moved -/
  localDone : Bool := false
  deriving DecidableEq, Repr

/-- The state of a collective slot (R233). -/
inductive CollState where
  | gather | sent | done
  deriving DecidableEq, Repr

/-- A partial or a result of a collective (R229). -/
structure Partial where
  value : List Byte
  count : Nat
  present : List Nat
  nanSeen : Bool := false
  nanMem : Nat := 0
  flags : Nat := 0
  op : Nat
  len : Nat
  deadline : Nat
  mismatch : Bool := false
  /-- a CBCAST payload -/
  bcast : Bool := false
  deriving DecidableEq, Repr

/-- The geometry of a collective, which every member's descriptor gives (R228). -/
structure CollBox where
  x0 : Nat
  y0 : Nat
  z0 : Nat
  sx : Nat
  sy : Nat
  sz : Nat
  deriving DecidableEq, Repr

/-- The local command of a collective slot: tile, position, the plain address of its buffer, none on a fallow page, and
its OP and LEN (R299). -/
structure CollLocal where
  tile : Nat
  pos : Nat
  buf : Option Nat
  op : Nat
  len : Nat
  deriving DecidableEq, Repr

/-- A collective slot of a die (R233): inputs by number, 0 being the local CRED and p + 1 the port p. -/
structure CollSlot where
  state : CollState := .gather
  box : CollBox
  deadline : Nat
  inputs : Tab Partial := []
  loc : Option CollLocal := none
  result : Option Partial := none
  deriving DecidableEq, Repr

/-- An entry of an outcome log (R244). -/
structure LogEntry where
  tag : BitVec 16 := 0
  state : Nat := 0
  opc : Nat := 0
  job : Nat := 0
  result : W64 := 0
  deriving DecidableEq, Repr

/-- The outcome log of one requester tile at a home (R244). -/
structure OutLog where
  first : BitVec 16
  recreated : Bool := false
  entries : Tab LogEntry := []
  used : Nat := 0
  deriving DecidableEq, Repr

/-- A damage entry (R270). -/
structure Damage where
  kind : Nat
  cls : Nat := 0
  valid : Nat := 0
  job : Nat := 0
  asid : Nat := 0
  unit : Nat := 0
  launch : Nat := 0
  graph : Nat := 0
  phase : Nat := 0
  ptc : Nat := 0
  plain : Nat := 0
  len : Nat := 0
  va : W64 := 0
  tag : W64 := 0
  seq : Nat := 0
  segid : Nat := 0
  place : Nat := 0
  deriving DecidableEq, Repr

/-- A job's registers and pools on one die (R42, R56, R223, R256, R269, R426, R217). -/
structure JobDie where
  trapVec : W64 := 0
  trapArea : W64 := 0
  dmap : W64 := 0
  barRange : W64 := 0
  layArea : W64 := 0
  quota : Nat := 0
  frames : Nat := 0
  /-- plain address of the first context frame of the job's pool on this die (R263) -/
  frameBase : Nat := 0
  /-- context frames in use: number and contents -/
  saved : Tab Saved := []
  unitsUsed : List Nat := []
  slots : Tab LaySlot := []
  passes : Option (List Pass) := none
  reshard : Option Reshard := none
  /-- T0 of the job's last aborted RESHARD, and the fault address of that abort (R227) -/
  lastT0 : Option (Nat × W64) := none
  /-- the T0 of the last ABORT that the router has applied: other ranks' ABORTs of the same T0 change nothing (log 87) -/
  lastAbort : Option Nat := none
  /-- pass tables that reached the die while a RESHARD was running (R219), each with its command's tile and position -/
  passNext : List (List Pass × Nat × Nat) := []
  /-- blocks in the job's pool (R205) -/
  pool : List Nat := []
  deriving DecidableEq, Repr

/-- A cached translation: ASID and 64 KiB page of virtual address to a plain page and the entry's bits (R239). -/
structure CacheEntry where
  asid : Nat
  page : Nat
  plain : Nat
  bits : Nat
  deriving DecidableEq, Repr

/-- A revocation in progress (R240): the job's range and the tiles that have not acknowledged. -/
structure Revocation where
  job : Nat
  vbase : Nat
  len : Nat
  waiting : List Nat
  /-- tiles to which the revocation has not yet been delivered -/
  unsent : List Nat
  /-- pages of a DISCARD's range that have yet to be made fallow: they are MIGRATING (R305) -/
  todo : List Nat := []
  /-- the tile whose DISCARD waits for it -/
  discard : Option Nat := none
  deriving DecidableEq, Repr

/-- A message to the field firmware's mailbox (R35, R44, R48, R56, R196, R220). -/
structure Notice where
  /-- what it tells: the fault class that names the lack, 0 for a context frame, 1 for ring space, 3 for a page -/
  kind : Nat
  job : Nat
  /-- the event name, the level or the virtual address it is about -/
  what : Nat := 0
  deriving DecidableEq, Repr

/-- A compute die (R17). -/
structure Die where
  /-- DCC at the moment the stretch last changed, the nominal cycle of that moment, and the stretch in 1/256 of the
  nominal period: the DCC now is computed from them (R17, R18) -/
  dccV : Nat := 0
  dccT : Nat := 0
  stretch : Nat := 0
  /-- the stretch that the power controller adds, and the junction's temperature as last reported (R278, R279) -/
  power : Nat := 0
  temp : Nat := 0
  half : Bool := false
  powered : Bool := true
  /-- lead of the PTC copy over its hub's counter that it is slewed to, the lead that the slew began from and when, the value
  below which it does not step, and its last value where the reference failed (R234, R236) -/
  ptcOff : Nat := 0
  ptcFrom : Nat := 0
  ptcSlewAt : Nat := 0
  ptcFloor : Nat := 0
  ptcStop : Option Nat := none
  lastSync : Nat := 0
  ageLimit : W64 := 1000000
  preemptLimit : W64 := 50000
  evovfBase : W64 := 0
  evovfSize : W64 := 0
  cimGate : W64 := 256
  reqTimeout : W64 := 100000
  linkState : Tab (BitVec 2) := []
  /-- retransmissions of the flits that a replay buffer may still hold, by 4096 × (8 × port + channel) + number (R215, R216) -/
  retrans : Tab Nat := []
  jobs : Tab JobDie := []
  /-- ready queues by level, oldest first, and the entries of the HBM ring of each (R35) -/
  queues : Tab (List Entry) := []
  rings : Tab Nat := []
  aside : Tab Parked := []
  fwParked : Tab Parked := []
  levels : List LevelEntry := []
  events : Tab Event := []
  pending : List Signal := []
  bars : Tab Barrier := []
  seqs : Tab Seqn := []
  /-- the area of the die's HBM that holds block tables: plain address and bytes (R195, R425) -/
  btBase : Nat := 0
  btLen : Nat := 0
  resolver : Tab Resolved := []
  colls : Tab CollSlot := []
  /-- collectives whose slot this die has freed after their delivery: key and DEADLINE (R229) -/
  collsGone : List (Nat × Nat) := []
  logs : Tab OutLog := []
  freed : List Nat := []
  asids : Tab AsidEntry := []
  cache : List CacheEntry := []
  /-- 64 KiB leaves that the root monitor has put in place of part of a larger leaf, or of none -/
  split : List CacheEntry := []
  lost : List Nat := []
  /-- dies that no route reaches from here (R216) -/
  cutOff : List Nat := []
  damage : List Damage := []
  scrubs : Tab Nat := []
  versions : Tab Nat := []
  badSectors : List Nat := []
  /-- messages to the field firmware's mailbox -/
  mailbox : List Notice := []
  deriving DecidableEq, Repr

/-! ## Packages, functions, jobs -/

/-- A launch slot's registers (R49, R51): BUSY, bit 1, the last accepted stamp, the pending notify. -/
structure Slot where
  busy : Bool := false
  torn : Bool := false
  stamp : Option W32 := none
  notify : Option (W32 × Nat) := none
  deriving DecidableEq, Repr

/-- A completion entry (R52). -/
structure CqEntry where
  cqtag : W32
  status : Nat
  sub : Nat
  slot : Nat
  done : Nat
  canc : Nat
  ptc : Nat
  deriving DecidableEq, Repr

/-- A function's registers (R248, R272). -/
structure Func where
  quads : W64 := 0
  asidWord : W64 := 0
  en : Bool := false
  flrb : Bool := false
  slots : Tab Slot := []
  window : Tab Byte := []
  cqBase : W64 := 0
  cqCtl : W64 := 0
  cqHead : W32 := 0
  cqN : Nat := 0
  held : List CqEntry := []
  /-- MSI-X vectors raised, newest first (R272) -/
  msix : List Nat := []
  deriving DecidableEq, Repr

/-- A host launch accepted and not yet wholly registered (R38, R46): what remains of it. -/
structure HostLaunch where
  pkg : Nat
  fid : Nat
  slot : Nat
  tmpl : Rec
  count : Nat
  next : Nat := 0
  launch : Nat
  cqtag : W32
  waiting : Bool := false
  /-- the field firmware has been told that a ring is full -/
  told : Bool := false
  deriving DecidableEq, Repr

/-- An SPDM answer given on a function's mailbox (R277): the request by the model's own number, 0 to 6 in the order of
R277 and 7 for any other, whether it is supported, and the contents of the answer. -/
structure SpdmAnswer where
  code : Nat
  ok : Bool
  words : List Nat
  deriving DecidableEq, Repr

/-- A package (R11, R15, R21, R278). -/
structure Pkg where
  px : Nat := 0
  py : Nat := 0
  pz : Nat := 0
  member : Bool := false
  funcs : Tab Func := []
  pwrAvg : Nat := 0
  pwrCap : Nat := 3600
  pwrTemp : Nat := 0
  pwrStr : Nat := 0
  aer : List (Nat × Nat) := []
  spdm : List (Nat × SpdmAnswer) := []
  /-- requests on a function in FLR, answered after it (R277) -/
  spdmWait : List (Nat × Nat × Nat) := []
  slotA : Option FwImage := none
  slotB : Option FwImage := none
  fieldA : Option FwImage := none
  fieldB : Option FwImage := none
  /-- the slot that the running image came from, and the slot that the next reset tries first, are slot B (R273, R275) -/
  rootActiveB : Bool := false
  rootFirstB : Bool := false
  fieldActiveB : Bool := false
  fieldFirstB : Bool := false
  recovery : Bool := false
  /-- the boot-status mailbox: the last step of R273 that succeeded, 0 where none has -/
  bootStatus : Nat := 5
  /-- bytes of the management mailboxes, by hub offset (R16, R271) -/
  mgmt : Tab Byte := []
  meas1 : Nat := 0
  meas2 : Nat := 0
  fusedSvn : Nat := 0
  runningSvn : Nat := 0
  /-- the part, by the number its package had at first (R276), and its identity and alias keys since the last boot -/
  part : Option Nat := none
  identKey : Nat := 0
  sealKey : Nat := 0
  /-- the hub's PTC from which power is measured, and the caps that have been replaced in the last millisecond, each with its time
  (R278) -/
  pwrAt : Nat := 0
  pwrCaps : List (Nat × Nat) := []
  /-- the bytes that the management cores last read; none where they have read none or the home refused (R274) -/
  mgmtReply : Option (List Byte) := none
  /-- lead of the hub's counter over the slowest hub's that it is slewed to, the lead that the slew began from and when, and
  the value below which it does not step (R234) -/
  hubOff : Nat := 0
  hubFrom : Nat := 0
  hubSlewAt : Nat := 0
  hubFloor : Nat := 0
  /-- per die of the package: PTC of its last time-sync reply (R236) -/
  syncReply : Tab Nat := []
  linksDownAt : Option Nat := none
  deriving DecidableEq, Repr

/-- A job (R25, R237): placement as die keys in rank order, function, ASID. -/
structure Job where
  placed : Bool := false
  fid : Nat := 0
  asid : Nat := 0
  dies : List Nat := []
  closed : Bool := false
  cancelled : Bool := false
  launches : List HostLaunch := []
  deriving DecidableEq, Repr

/-! ## Requests and messages -/

/-- What a request asks its home to do. -/
inductive HomeOp where
  | load (plain len : Nat)
  | store (plain : Nat) (bytes : List Byte)
  /-- an atomic: operation 0 to 12 as its major opcode counts from 0x30, operand, comparand or operand count, FPC -/
  | amo (op plain size : Nat) (v cmp fpc : W64)
  | evSignal (die job name n : Nat) (reset : Bool)
  | evPoll (die job name : Nat)
  | evWait (die job name thr : Nat)
  | bar (die b : Nat) (v : Nat) (init : Bool)
  | sqNew (crec : List Byte) (job : Nat)
  | sqRes (h : W64) (n : Nat)
  | sqCom (h : W64) (start n : Nat)
  | sqLen (h : W64)
  | sqFork (h : W64) (k : Nat)
  | sqDrop (h : W64)
  | sqSlot (h : W64) (i : Nat)
  | sqSeal (h : W64)
  | sqWait (h : W64) (k : Nat)
  | atq (plain : Nat) (tag : BitVec 16)
  | join (plain : Nat)
  /-- scheduler messages: units of a record to register for the die `reg` (R354, R327), CANCEL and CMPL (R293, R298) -/
  | spawn (cr : Rec) (n reg : Nat)
  | cancel (level id : Nat)
  | cmpl (level id : Nat) (ev : Option (Nat × Nat))
  /-- a unit of a record has ended: its launch counts it (R26, R28, R30) -/
  | count (cr : Rec) (cancelled : Bool)
  deriving DecidableEq, Repr

/-- What the requester does with the answer. -/
inductive Sink where
  /-- write g[d] after sign or zero extension of `size` bytes -/
  | g (d size : Nat) (sign : Bool)
  /-- write f[d] with count 24, or go on to load the tag byte at a virtual address -/
  | f (d : Nat) (tagAt : Option W64)
  /-- write f[d] with the value loaded before and the tag that answers -/
  | ftag (d : Nat) (v : W32)
  /-- the next 8 bytes of an image, after those loaded before (R364) -/
  | image (done : List Byte)
  /-- write g[d] and g[d+1] (ATQ) -/
  | pair (d : Nat)
  | discardValue
  | posted
  | join
  | eventWait
  /-- the answer of a JOIN's counter: destination, record to register -/
  | joinCount (d : Nat) (cr : Rec)
  /-- the record of a JOIN has been registered: g[d] := 1 -/
  | joinDone (d : Nat)
  /-- the event signal of a unit that completes, and what is left to do after it (R28): its entry, whether it counts
  as cancelled, whether it holds its tile until then -/
  | signalled (e : Entry) (cancelled held : Bool)
  /-- a message that has no answer -/
  | counted
  deriving DecidableEq, Repr

/-- The answer of a home (R245). -/
inductive Answer where
  | value (v : W64) (flags : Nat)
  | pair (v w : W64)
  | fault (cls : Nat) (addr : W64)
  | refused
  deriving DecidableEq, Repr

/-- A request of a tile to a home, and its answer once the home has acted (R243 to R245). -/
structure Request where
  tile : Nat
  fid : Nat
  job : Nat
  src : Nat
  dst : Nat
  op : HomeOp
  sink : Sink
  addr : W64
  deadline : Nat
  logged : Bool
  tag : BitVec 16 := 0
  opc : Nat := 0
  /-- the record of the unit that made it (R246, R270) -/
  crec : Rec := {}
  /-- the field firmware has been told that it waits for room (R196, R197) -/
  told : Bool := false
  answer : Option Answer := none
  /-- the home keeps it, waiting for room or for a length (R204, R425) -/
  kept : Bool := false
  /-- narrowings it waits for before it goes on (R202, R208) -/
  acks : List Nat := []
  /-- its die's PTC when it left, or was last sent over a link (R216, R235) -/
  sent : Nat := 0
  /-- the place that its answer takes among what its home sends on the LS channel (R215) -/
  ansNo : Nat := 0
  /-- the grant against which a store was checked (R202) -/
  grant : Option Nat := none
  /-- its unit is gone: the answer has no taker -/
  dead : Bool := false
  /-- its deadline has passed at the requester -/
  expired : Bool := false
  /-- it, or its response, was on a link that went down (R216) -/
  lost : Bool := false
  deriving DecidableEq, Repr

/-- A message in flight other than a request. -/
inductive Msg where
  /-- a slab of a face (R222): source tile and command position, receiving die, barrier, job and function, slab number,
  element width, swizzle record, elements as (plain address, half of the byte, bits), and the fault that stopped it -/
  | slab (tile pos die bar job fid idx bits code : Nat) (elems : List (Option Nat × Option Nat × Nat)) (fail : Option (Nat × W64))
  | layImage (tile pos home job slot : Nat) (addr : W64) (img : LaySlot)
  | layInstall (tile pos die job slot : Nat) (img : LaySlot)
  | passImage (tile pos home job : Nat) (passes : List Pass)
  | passInstall (tile pos die job : Nat) (passes : List Pass)
  | ready (job frm die pass s t t0 : Nat)
  | report (job frm die t0 : Nat)
  | commit (job die t0 : Nat)
  | abort (job frm die t0 cls : Nat) (faddr : W64)
  | part (job cid frm die port : Nat) (box : CollBox) (p : Partial)
  | result (job cid frm die : Nat) (box : CollBox) (p : Partial)
  /-- a narrowing on its way to a tile (R202): home, descriptor, tile and entry, unit, new start in bytes, request held;
  the handle and the block number of the grant it is for -/
  | narrow (die seq tile num unit wlo req : Nat) (drop : Bool) (h : W64) (blk : Nat)
  /-- its acknowledgement: the tile, its entry and unit, the number of the narrowing, the request that waits for it -/
  | narrowAck (die seq tile num unit id req : Nat)
  deriving DecidableEq, Repr

/-! ## The schedule -/

/-- Whose turn it is. -/
inductive Who where
  | ct (tile : Nat)
  | vs (tile : Nat)
  /-- the tile's store queue performs its entry number `n` -/
  | store (tile n : Nat)
  /-- the tile's fetch buffer takes the word at an address -/
  | prefetch (tile va : Nat)
  | ev (i : Instr)
  deriving DecidableEq, Repr

/-- One turn of the schedule: who moves, and the nominal cycles and nanoseconds that pass first. -/
structure Turn where
  who : Who
  cycles : Nat := 1
  ns : Nat := 1
  deriving DecidableEq, Repr

/-- The machine. -/
structure State where
  /-- the model's own: the schedule, the tile in focus, the counters of fresh values and of message numbers -/
  turns : List Turn
  focus : Nat
  fresh : Nat
  nextId : Nat
  /-- nominal cycles and nanoseconds since reset -/
  cycles : Nat
  ns : Nat
  npx : Nat
  npy : Nat
  npz : Nat
  /-- lost dies, as die keys (R246) -/
  lost : List Nat
  pkgs : Tab Pkg
  dies : Tab Die
  tiles : Tab Tile
  jobs : Tab Job
  mem : List Host.Cell
  hostMem : List Host.Cell
  /-- the function that owns each 2 MiB of HBM (R249), by plain address >> 21 -/
  owners : Tab Nat
  reqs : Tab Request
  msgs : Tab Msg
  /-- per message on the network, the nanoseconds since reset at which it was sent -/
  sentAt : Tab Nat
  /-- the package whose hub is pod master (R234) -/
  timeMaster : Nat
  revs : Tab Revocation
  deriving DecidableEq, Repr

/-- The machine right after package reset: one package that stands alone (R13, R15), every register at its reset
value, memory with nothing listed, no work. -/
def State.reset : State :=
  { turns := [], focus := 0, fresh := 0, nextId := 0, cycles := 0, ns := 0
    npx := 1, npy := 1, npz := 1, lost := []
    pkgs := [], dies := [], tiles := [], jobs := []
    mem := [], hostMem := [], owners := [], reqs := [], msgs := [], sentAt := [], timeMaster := 0, revs := [] }

end Sys2Proof.Machine
end

