-- ==== Sys2Proof/Machine/Base.lean ====
section
/-! DEFINITION. Numbering, accessors, clocks, registers and bytes: the plainest operations over the state. -/

namespace Sys2Proof.Machine

/-! ## Fault codes (R9) -/

def Cls.illegalOp : Nat := 0x01
def Cls.extent : Nat := 0x02
def Cls.extentRevoked : Nat := 0x03
def Cls.align : Nat := 0x04
def Cls.sigloss : Nat := 0x05
def Cls.fpTrap : Nat := 0x06
def Cls.schedMiss : Nat := 0x07
def Cls.stallCount : Nat := 0x08
def Cls.waitBound : Nat := 0x09
def Cls.swizzle : Nat := 0x0A
def Cls.staleLayout : Nat := 0x0B
def Cls.seqImmutable : Nat := 0x0C
def Cls.seqWindow : Nat := 0x0D
def Cls.seqClosed : Nat := 0x0E
def Cls.appliedLost : Nat := 0x0F
def Cls.targetLost : Nat := 0x10
def Cls.timeout : Nat := 0x11
def Cls.segmentMismatch : Nat := 0x12
def Cls.uncorrectable : Nat := 0x13
def Cls.eventOverflow : Nat := 0x14
def Cls.doubleFault : Nat := 0x15
def Cls.priv : Nat := 0x16
def Cls.aliasWrite : Nat := 0x17
def Cls.reshardLate : Nat := 0x18
def Cls.launchTorn : Nat := 0x19
def Cls.software : Nat := 0x1A

/-! ## Numbering (R13, R14, R174) -/

def tileDie (k : Nat) : Nat := k / 32
def tileNum (k : Nat) : Nat := k % 32
def diePkg (d : Nat) : Nat := d / 8
def dieNum (d : Nat) : Nat := d % 8

/-- The die key of a plain address: package and die field (R174). -/
def plainDie (p : Nat) : Nat := p / 2 ^ 42
/-- The tier of a plain address (R174). -/
def plainTier (p : Nat) : Nat := p / 2 ^ 40 % 4
/-- The offset of a plain address (R174). -/
def plainOff (p : Nat) : Nat := p % 2 ^ 40
/-- A plain address from die key, tier and offset (R174). -/
def mkPlain (die tier off : Nat) : Nat := die * 2 ^ 42 + tier * 2 ^ 40 + off
/-- The plain address of the first byte of a tile's slice (R14). -/
def sliceBase (k : Nat) : Nat := mkPlain (tileDie k) 1 (tileNum k * 2 ^ 22)
/-- The tile whose slice holds a tier-01 plain address (R14). -/
def sliceTile (p : Nat) : Nat := 32 * plainDie p + plainOff p / 2 ^ 22 % 32

/-! ## Words -/

/-- The field [lo+n-1:lo] of a word, as a number. -/
def fld {w : Nat} (v : BitVec w) (lo n : Nat) : Nat := (v.extractLsb' lo n).toNat
/-- Bit i of a word. -/
def bit {w : Nat} (v : BitVec w) (i : Nat) : Bool := v.getLsbD i
/-- A 64-bit word from a number. -/
def w64 (n : Nat) : W64 := BitVec.ofNat 64 n
/-- The little-endian bytes of a number (R3). -/
def leBytes (len v : Nat) : List Byte := (List.range len).map fun i => BitVec.ofNat 8 (v / 2 ^ (8 * i))
/-- The number that little-endian bytes hold (R3). -/
def leNat : List Byte → Nat
  | [] => 0
  | b :: r => b.toNat + 256 * leNat r
/-- The field [lo+n-1:lo] of a number. -/
def nfld (v lo n : Nat) : Nat := v / 2 ^ lo % 2 ^ n
/-- Two's complement reading of the low n bits. -/
def sextN (v n : Nat) : Int :=
  let u := v % 2 ^ n
  if u < 2 ^ (n - 1) then (u : Int) else (u : Int) - (2 : Int) ^ n
/-- The low n bits of an integer, as a number. -/
def wrapN (v : Int) (n : Nat) : Nat := (v % (2 : Int) ^ n).toNat

/-! ## Accessors -/

def State.tile (s : State) (k : Nat) : Tile := Tab.get {} s.tiles k
def State.setTile (s : State) (k : Nat) (t : Tile) : State := { s with tiles := Tab.put s.tiles k t }
def State.modTile (s : State) (k : Nat) (f : Tile → Tile) : State := s.setTile k (f (s.tile k))
def State.die (s : State) (d : Nat) : Die := Tab.get {} s.dies d
def State.setDie (s : State) (d : Nat) (x : Die) : State := { s with dies := Tab.put s.dies d x }
def State.modDie (s : State) (d : Nat) (f : Die → Die) : State := s.setDie d (f (s.die d))
def State.pkg (s : State) (p : Nat) : Pkg := Tab.get {} s.pkgs p
def State.setPkg (s : State) (p : Nat) (x : Pkg) : State := { s with pkgs := Tab.put s.pkgs p x }
def State.modPkg (s : State) (p : Nat) (f : Pkg → Pkg) : State := s.setPkg p (f (s.pkg p))
def State.job (s : State) (j : Nat) : Job := Tab.get {} s.jobs j
def State.setJob (s : State) (j : Nat) (x : Job) : State := { s with jobs := Tab.put s.jobs j x }
def State.func (s : State) (p f : Nat) : Func := Tab.get {} (s.pkg p).funcs f
def State.modFunc (s : State) (p f : Nat) (h : Func → Func) : State :=
  s.modPkg p fun x => { x with funcs := Tab.put x.funcs f (h (Tab.get {} x.funcs f)) }
def State.jobDie (s : State) (d j : Nat) : JobDie := Tab.get {} (s.die d).jobs j
def State.modJobDie (s : State) (d j : Nat) (h : JobDie → JobDie) : State :=
  s.modDie d fun x => { x with jobs := Tab.put x.jobs j (h (Tab.get {} x.jobs j)) }

/-- Two packages are in one pod, or are one package: a package that no pod has a number for stands alone (R15, R174). -/
def State.peers (s : State) (p q : Nat) : Bool := p = q || ((s.pkg p).member && (s.pkg q).member)

/-- The number of a package: the one that the pod gave it, or 0 where it stands alone (R15). The model keeps a package that
stands alone under a key of its own (log 100). -/
def State.pkgName (s : State) (p : Nat) : Nat := if (s.pkg p).member then p else 0

/-- The package that number n names in package p: a member of p's pod, or p itself. -/
def State.pkgNamed (s : State) (p n : Nat) : Option Nat :=
  if (s.pkg p).member then (if (s.pkg n).member then some n else none) else if n = 0 then some p else none

/-- A plain address as a die of package p names it, by the keys of the packages; one that names no package there lies outside
the address space (R174). -/
def State.plainIn (s : State) (p a : Nat) : Nat :=
  match s.pkgNamed p (a / 2 ^ 45) with
  | some q => q * 2 ^ 45 + a % 2 ^ 45
  | none => 2 ^ 55 + a
/-- The die that a sequence handle names in package p; none where it names no member (R194). -/
def State.seqHome (s : State) (p : Nat) (h : W64) : Option Nat := (s.pkgNamed p (fld h 54 10)).map fun q => 8 * q + fld h 51 3
/-- The same address as its own package names it. -/
def State.plainName (s : State) (a : Nat) : Nat := s.pkgName (a / 2 ^ 45) * 2 ^ 45 + a % 2 ^ 45

/-- CAP_SELF (R15, R23). -/
def State.capSelf (s : State) (k : Nat) : W64 :=
  w64 (tileNum k + 256 * dieNum (tileDie k) + 65536 * s.pkgName (diePkg (tileDie k)))

/-- The job's home die: rank 0 of its placement (R26). -/
def State.homeDie (s : State) (j : Nat) : Nat := (s.job j).dies.headD 0

/-- The job of the unit on a tile. -/
def State.jobOf (s : State) (k : Nat) : Nat := (s.tile k).entry.cr.job
/-- The function of the unit on a tile (R237). -/
def State.fidOf (s : State) (k : Nat) : Nat := (s.job (s.jobOf k)).fid
/-- The job's registers on the tile's die. -/
def State.jobRegs (s : State) (k : Nat) : JobDie := s.jobDie (tileDie k) (s.jobOf k)
/-- Unit id of a record (R31). -/
def Rec.unitId (r : Rec) : Nat := fld r.unit 0 13
/-- EVDIE of a record (R31). -/
def Rec.evDie (r : Rec) : Nat := fld r.unit 13 3

/-- k0 reads all ones (R6). -/
def Tile.kGet (t : Tile) (n : Nat) : W64 := if n = 0 then BitVec.allOnes 64 else Tab.get 0 t.k n

/-! ## Clocks (R17, R18, R234, R235) -/

/-- The die's cycle counter. -/
def State.dcc (s : State) (d : Nat) : Nat :=
  let x := s.die d
  x.dccV + (s.cycles - x.dccT) * 256 / (256 + x.stretch + x.power + (if x.half then 256 else 0))
/-- A lead that is slewed from one value to another, n nanoseconds after the slew began (R234): one nanosecond in each
`Config.slewPeriod` (the spec gives no rate: log 9). -/
def slewed (frm dst n : Nat) : Nat :=
  let step := n / Nat.max 1 Config.slewPeriod
  if frm = dst then dst else if frm < dst then min dst (frm + step) else max dst (frm - step)
/-- A hub's counter, the reference of its package: it leads the slowest hub of the pod by its offset, and never steps back
(R234). -/
def State.hubPtc (s : State) (p : Nat) : Nat :=
  let x := s.pkg p
  max x.hubFloor (s.ns + slewed x.hubFrom x.hubOff (s.ns - x.hubSlewAt))
/-- The die's copy of the package time counter, aligned to its hub likewise (R234); a failed copy stands still (R236). -/
def State.ptc (s : State) (d : Nat) : Nat :=
  let x := s.die d
  match x.ptcStop with
  | some v => v
  | none => max x.ptcFloor (s.hubPtc (diePkg d) + slewed x.ptcFrom x.ptcOff (s.ns - x.ptcSlewAt))

/-- A fresh value's number. -/
def State.bump (s : State) : State := { s with fresh := s.fresh + 1 }

/-! ## Scalar registers (R6) -/

def Tile.gReg (t : Tile) (n : Nat) : W64 := if n = 0 then 0 else Tab.get 0 t.g n
def Tile.fReg (t : Tile) (n : Nat) : FReg := Tab.get {} t.f n
def Tile.qReg (t : Tile) (n : Nat) : Bool := n = 0 || t.q.getLsbD n
def Tile.dReg (t : Tile) (n : Nat) : TMap := Tab.get {} t.d n

/-- Some engine command has been issued and not started: later effects are held in the journal (R59). -/
def Tile.queued (t : Tile) : Bool := !(t.vq.isEmpty && t.mq.isEmpty && t.cq.isEmpty)
/-- Later effects are held in the journal: a command is unstarted, or an earlier entry has not committed (R59). -/
def Tile.ahead (t : Tile) : Bool := t.queued || !t.journal.isEmpty

/-- The address of the word in hand, or of its PFX (R85). -/
def Tile.instrPc (t : Tile) : W64 := if t.pfx.isSome then t.pc - 4 else t.pc
/-- CLAUSE before the word in hand, or its PFX, was fetched (R90). -/
def Tile.instrClause (t : Tile) : BitVec 5 := if t.pfx.isSome then t.fetchClause else t.clause

/-- An entry joins the journal for the word in hand. -/
def Tile.journalAdd (t : Tile) (k : JKind) (flags : Nat) (rel : Bool) : Tile :=
  { t with journal := t.journal ++
      [{ pos := t.order, kind := k, flags := flags, clause := t.instrClause, pc := t.instrPc, rel := rel }] }

/-- A journal entry for the word in hand, where the CT runs ahead of its engines (R59). -/
def Tile.log (t : Tile) (k : JKind) (flags : Nat) : Tile :=
  if t.ahead then t.journalAdd k flags false
  else { t with fpc := t.fpc ||| BitVec.ofNat 64 flags }

/-- A write to a g register; g0 discards it (R6). -/
def Tile.putG (t : Tile) (n : Nat) (v : W64) : Tile :=
  if n = 0 then t else { t with g := Tab.set 0 t.g n v }
/-- A write to a q register; q0 discards it (R6). -/
def Tile.putQ (t : Tile) (n : Nat) (v : Bool) : Tile :=
  if n = 0 then t
  else { t with q := if v then t.q ||| (1#8 <<< n) else t.q &&& ~~~(1#8 <<< n) }
def Tile.putF (t : Tile) (n : Nat) (v : FReg) : Tile := { t with f := Tab.set {} t.f n v }
def Tile.putD (t : Tile) (n : Nat) (v : TMap) : Tile := { t with d := Tab.set {} t.d n v }

/-- A journalled write to a g register, with the flags of its word (R59, R79). -/
def Tile.writeG (t : Tile) (n : Nat) (v : W64) (flags : Nat := 0) : Tile :=
  (t.log (.g n (t.gReg n)) flags).putG n v
def Tile.writeQ (t : Tile) (n : Nat) (v : Bool) (flags : Nat := 0) : Tile :=
  (t.log (.q t.q) flags).putQ n v
def Tile.writeF (t : Tile) (n : Nat) (v : FReg) (flags : Nat := 0) : Tile :=
  (t.log (.f n (t.fReg n)) flags).putF n v
def Tile.writeD (t : Tile) (n : Nat) (v : TMap) : Tile := (t.log (.d n (t.dReg n)) 0).putD n v

/-! ## The word in hand -/

/-- CLAUSE after one fetch: REM falls by 1; a closed clause reads 0 (R89). -/
def clauseStep (c : BitVec 5) : BitVec 5 := if fld c 0 4 ≤ 1 then 0 else c - 1

/-- The CRC-32C of a word added to a running value, bit by bit (R264; reflected polynomial 0x82F63B78). -/
def crcBits : Nat → W32 → W32
  | 0, c => c
  | n + 1, c => crcBits n (if c.getLsbD 0 then (c >>> 1) ^^^ 0x82F63B78#32 else c >>> 1)
def crcWord (c w : W32) : W32 := crcBits 32 (c ^^^ w)

/-- The word in hand, and its PFX before it, count as issued in their segment (R264). -/
def Tile.segIssue (t : Tile) (dcc : Nat) : Tile :=
  { t with seg := t.seg.map fun g =>
      { g with start := some (g.start.getD dcc)
               crc := crcWord (match t.pfx with
                 | some p => crcWord g.crc (BitVec.ofNat 32 (0x3E000000 + p.toNat))
                 | none => g.crc) t.word } }

/-- The word in hand ends and the CT goes on at `pc`; its clause falls by one (R80, R89). -/
def Tile.retireTo (t : Tile) (pc : W64) (dcc : Nat) : Tile :=
  { t.segIssue dcc with pc := pc, pfx := none, clause := clauseStep t.clause, order := t.order + 1, wait := none
                        stampRef := if t.refPending then dcc else t.stampRef, refPending := false }
/-- The CT goes on at the next word. -/
def Tile.retire (t : Tile) (dcc : Nat) : Tile := t.retireTo (t.pc + 4) dcc

/-- The tile in focus becomes `t`, its word ended. -/
def State.retire (s : State) (t : Tile) : State := s.setTile s.focus (t.retire (s.dcc (tileDie s.focus)))
/-- As `retire`, going on at `pc`. -/
def State.retireTo (s : State) (t : Tile) (pc : W64) : State :=
  s.setTile s.focus (t.retireTo pc (s.dcc (tileDie s.focus)))

/-! ## Waits (R76) -/

/-- The bounds of WAIT_CAP in cycles: DEFLT, GATE, ISSUE. -/
def capDeflt (w : W64) : Nat := 64 * (fld w 40 20 + 1)
def capGate (w : W64) : Nat := 64 * (fld w 20 20 + 1)
def capIssue (w : W64) : Nat := 64 * (fld w 0 20 + 1)

/-- A prefix whose word stalls runs again with it (R85, R86). -/
def Tile.unprefix (t : Tile) : Tile :=
  if t.pfx.isSome then { t with pc := t.pc - 4, pfx := none, clause := t.fetchClause } else t

/-- The CT of tile k stalls: the word in hand is tried again, or is ended by another step where it is parked. The
stall counter goes on where the same stall goes on. -/
def State.stall (s : State) (k : Nat) (on : WaitOn) (bound : Option Nat) (parked : Bool := false) (dst : Nat := 0) :
    State :=
  s.modTile k fun t =>
    let t := if parked then t else t.unprefix
    let since := match t.wait with
      | some v => if v.on = on then v.since else s.dcc (tileDie k)
      | none => s.dcc (tileDie k)
    { t with wait := some { on := on, since := since, bound := bound, parked := parked, dst := dst } }

/-- A stall bounded by WAIT_CAP.ISSUE. -/
def State.stallIssue (s : State) (k : Nat) (on : WaitOn) : State :=
  s.stall k on (some (capIssue (s.tile k).waitCap))

/-! ## Coordinates and ports (R12, R13, R212) -/

/-- A die's pod coordinates (R13, R24). -/
def State.dieCoord (s : State) (d : Nat) : Nat × Nat × Nat :=
  let p := s.pkg (diePkg d)
  let i := dieNum d
  (2 * p.px + i % 2, 2 * p.py + i / 2 % 2, 2 * p.pz + i / 4 % 2)

/-- Dies around a ring of n packages, where package p is in the pod; two where it stands alone (R13). -/
def State.ring (s : State) (p n : Nat) : Nat := if (s.pkg p).member then 2 * n else 2
/-- Dies around the ring of each dimension that package p is in. -/
def State.ringX (s : State) (p : Nat) : Nat := s.ring p s.npx
def State.ringY (s : State) (p : Nat) : Nat := s.ring p s.npy
def State.ringZ (s : State) (p : Nat) : Nat := s.ring p s.npz

/-- The dies of a package. -/
def pkgDies (p : Nat) : List Nat := (List.range 8).map fun i => 8 * p + i

/-- The keys of the packages, 0 first. -/
def State.packages (s : State) : List Nat := 0 :: (Tab.keys s.pkgs).filter (· ≠ 0)

/-- The die at pod coordinates in the pod of package q, if a package stands there; its own die where q stands alone. -/
def State.dieAt (s : State) (q x y z : Nat) : Option Nat :=
  (s.packages.find? fun p => s.peers q p && (s.pkg p).px = x / 2 && (s.pkg p).py = y / 2 && (s.pkg p).pz = z / 2).map
    fun p => 8 * p + (x % 2 + 2 * (y % 2) + 4 * (z % 2))

/-- The die that port p leads to (R12, R13): in a package that stands alone, both ports of a dimension lead to the
partner. -/
def State.neighbour (s : State) (d p : Nat) : Option Nat :=
  let q := diePkg d
  let (x, y, z) := s.dieCoord d
  let step (v n : Nat) : Nat := if p % 2 = 0 then (v + 1) % n else (v + n - 1) % n
  match p / 2 with
  | 0 => s.dieAt q (step x (s.ringX q)) y z
  | 1 => s.dieAt q x (step y (s.ringY q)) z
  | _ => s.dieAt q x y (step z (s.ringZ q))

/-! ## Bytes of memory (R3, R174) -/

/-- The byte that plain memory holds; an unlisted byte reads 0 (DESIGN CHOICE, log 5). -/
def State.byte (s : State) (p : Nat) : Byte := Tab.get 0 s.mem p
def State.bytes (s : State) (p len : Nat) : List Byte := (List.range len).map fun i => s.byte (p + i)
/-- One byte of plain memory written. -/
def State.putByte (s : State) (p : Nat) (b : Byte) : State := { s with mem := Tab.set 0 s.mem p b }
/-- Consecutive bytes of plain memory written. -/
def State.putBytes (s : State) (p : Nat) : List Byte → State
  | [] => s
  | b :: r => (s.putByte p b).putBytes (p + 1) r
def State.hostByte (s : State) (p : Nat) : Byte := Tab.get 0 s.hostMem p
def State.putHost (s : State) (p : Nat) : List Byte → State
  | [] => s
  | b :: r => State.putHost { s with hostMem := Tab.set 0 s.hostMem p b } (p + 1) r

/-- Canonical form of memory. -/
def Memory.wf (m : List Host.Cell) : Bool := Tab.wf (0 : Byte) m

/-- A program write is recorded in the HBM sectors' versions (R192). -/
def State.touchSectors (s : State) (p len : Nat) : State :=
  if plainTier p = 0 ∧ 0 < len then
    s.modDie (plainDie p) fun d =>
      { d with versions := (List.range ((p + len - 1) / 256 - p / 256 + 1)).foldl
                 (fun v i => Tab.set 0 v (p / 256 + i) (Tab.get 0 v (p / 256 + i) + 1)) d.versions }
  else s

/-- The swizzle records of the 2 KiB blocks that a write to a slice touches take the writer's span code (R149). -/
def State.markSwizzle (s : State) (p len : Nat) (code : BitVec 4) : State :=
  if plainTier p = 1 ∧ 0 < len then
    s.modTile (sliceTile p) fun t =>
      let o := plainOff p % 2 ^ 22
      { t with swz := (List.range ((o + len - 1) / 2048 - o / 2048 + 1)).foldl
                 (fun v i => Tab.set 0 v (o / 2048 + i) code) t.swz }
  else s

/-- A write that R149 does not list, at its home (an atomic's, a collective's record, an agent's): the bytes and the sector
versions; the swizzle records stay. -/
def State.writeAtomic (s : State) (p : Nat) (bs : List Byte) : State := (s.putBytes p bs).touchSectors p bs.length

/-- A range of plain memory is zeroed. -/
def State.zeroRange (s : State) (p len : Nat) : State := { s with mem := s.mem.filter fun c => !(p ≤ c.1 && c.1 < p + len) }

/-- A program write at its home: the bytes, the sector versions and the swizzle records. -/
def State.writePlain (s : State) (p : Nat) (bs : List Byte) (code : BitVec 4 := 0) : State :=
  ((s.putBytes p bs).touchSectors p bs.length).markSwizzle p bs.length code

/-! ## Homes and paths (R16, R174, R178) -/

/-- What a plain address names. -/
inductive Place where
  /-- bytes at this plain address of tier 00 or 01, after the block resolver -/
  | mem (p : Nat)
  /-- the hub, at this tier-11 offset -/
  | hub (off : Nat)
  /-- a compute die's own MMIO block -/
  | mmio
  /-- not decoded: EXTENT -/
  | bad
  /-- on a lost member: TARGET_LOST -/
  | lost
  deriving DecidableEq, Repr

/-- Dies that a die can send no request to: those a loss notice has named (R246), and those no route reaches (R216). -/
def Die.unreachable (x : Die) : List Nat := x.lost ++ x.cutOff

/-- The hub link over which die d reaches the hub at die h: its own, or that of die h in another package (log 86). -/
def State.hubLinkUp (s : State) (d h : Nat) : Bool :=
  Tab.get 0 (s.die (if diePkg d = diePkg h then d else h)).linkState 6 ≠ 2

/-- Where an access from die `d` to the plain address p of `len` bytes is performed. -/
def State.place (s : State) (d p len : Nat) : Place :=
  let h := plainDie p
  let off := plainOff p
  let live (x : Place) : Place := if h ∈ (s.die d).unreachable then .lost else x
  if p ≥ 2 ^ 55 ∨ !s.peers (diePkg d) (diePkg h) then .bad
  else match plainTier p with
    | 0 => if off + len ≤ 0x1000000000 then live (.mem p) else .bad
    | 1 => if off + len ≤ 0x8000000 then live (.mem p) else .bad
    | 2 =>
      if off % 2 ^ 16 + len ≤ 2 ^ 16 then
        live (match Tab.find? (s.die h).resolver (off / 2 ^ 16) with
          | some r => .mem (r.target + off % 2 ^ 16)
          | none => .bad)
      else .bad
    | _ => if off < 0xF000000000 then live .mmio else if dieNum h = 0 then (if s.hubLinkUp d h then live (.hub off) else .lost) else .bad

/-- The home order an access takes its place in (R178): a number that two accesses share exactly when they have the
same home. -/
def pathOf (p : Nat) : Nat :=
  let base := plainDie p * 4 + plainTier p
  match plainTier p with
  | 1 => base * 64 + plainOff p / 2 ^ 22 % 32
  | 3 => base * 64 + (if plainOff p < 0xF000000000 then 0 else 1)
  | _ => base * 64

/-- R249: the page belongs to another function. -/
def State.foreign (s : State) (fid p : Nat) : Bool :=
  match Tab.find? s.owners (p / 2 ^ 21) with
  | some f => plainTier p = 0 && f ≠ fid
  | none => false

/-- A message to the field firmware's mailbox of a die. -/
def State.tell (s : State) (d kind job what : Nat) : State :=
  s.modDie d fun x => { x with mailbox := x.mailbox ++ [{ kind := kind, job := job, what := what }] }

/-- The 256-byte sector of a byte cannot be corrected (R270). -/
def State.badSector (s : State) (p len : Nat) : Option Nat :=
  ((List.range ((p + len - 1) / 256 - p / 256 + 1)).map (· + p / 256)).find? fun i => i ∈ (s.die (plainDie p)).badSectors

end Sys2Proof.Machine
end

