-- ==== Sys2Proof/Machine/Flags.lean ====
section
/-! DEFINITION. Floating-point values, the one rounding, the flags and the significance counts
(05_numbers_significance.md). A finite value is held exactly; every operation forms its exact result and rounds it
once (R124). -/

namespace Sys2Proof.Machine

/-! ## Formats (R117) -/

/-- A binary format: exponent and fraction widths. -/
structure Fmt where
  eb : Nat
  fb : Nat
  deriving DecidableEq, Repr

def Fmt.f32 : Fmt := { eb := 8, fb := 23 }
def Fmt.f16 : Fmt := { eb := 5, fb := 10 }
def Fmt.bf16 : Fmt := { eb := 8, fb := 7 }
def Fmt.bias (f : Fmt) : Nat := 2 ^ (f.eb - 1) - 1
/-- Precision p. -/
def Fmt.p (f : Fmt) : Nat := f.fb + 1
/-- Exponent of the smallest normal value. -/
def Fmt.emin (f : Fmt) : Int := 1 - (f.bias : Int)
def Fmt.expOnes (f : Fmt) : Nat := 2 ^ f.eb - 1
/-- The canonical quiet NaN (R118). -/
def Fmt.nan (f : Fmt) : Nat := f.expOnes * 2 ^ f.fb + 2 ^ (f.fb - 1)
def Fmt.signBit (f : Fmt) : Nat := 2 ^ (f.eb + f.fb)
def Fmt.inf (f : Fmt) (s : Bool) : Nat := (if s then f.signBit else 0) + f.expOnes * 2 ^ f.fb
/-- The largest finite value. -/
def Fmt.big (f : Fmt) (s : Bool) : Nat := (if s then f.signBit else 0) + f.expOnes * 2 ^ f.fb - 1
def Fmt.zero (f : Fmt) (s : Bool) : Nat := if s then f.signBit else 0

/-- A value: a NaN, an infinity, or (−1)^s × m × 2^e. -/
inductive FV where
  | nan (signalling : Bool)
  | inf (s : Bool)
  | fin (s : Bool) (m : Nat) (e : Int)
  deriving DecidableEq, Repr

/-- The value of a bit pattern (R117). -/
def unpack (f : Fmt) (v : Nat) : FV :=
  let s := decide (v / f.signBit % 2 = 1)
  let e := v / 2 ^ f.fb % 2 ^ f.eb
  let m := v % 2 ^ f.fb
  if e = f.expOnes then (if m = 0 then .inf s else .nan (decide (m / 2 ^ (f.fb - 1) = 0)))
  else if e = 0 then .fin s m (f.emin - f.fb)
  else .fin s (m + 2 ^ f.fb) ((e : Int) - f.bias - f.fb)

/-- Unbiased exponent of a finite nonzero value: that of its leading one bit (R131). -/
def expOf (m : Nat) (e : Int) : Int := (Nat.log2 m : Int) + e

def FV.isZero : FV → Bool
  | .fin _ m _ => m = 0
  | _ => false
def FV.isNan : FV → Bool
  | .nan _ => true
  | _ => false
def FV.sNan : FV → Bool
  | .nan b => b
  | _ => false
def FV.sign : FV → Bool
  | .nan _ => false
  | .inf s => s
  | .fin s _ _ => s
def FV.finite : FV → Bool
  | .fin _ _ _ => true
  | _ => false

/-! ## Rounding modes and flags (R123 to R125) -/

inductive RM where
  | rne | rtz | rdn | rup
  deriving DecidableEq, Repr

/-- RM field values (R123). -/
def rmOf (n : Nat) : RM :=
  match n with
  | 0 => .rne
  | 1 => .rtz
  | 2 => .rdn
  | _ => .rup

/-- FPC.RM. -/
def fpcRm (fpc : W64) : RM := rmOf (fld fpc 16 2)

def Flg.inexact : Nat := 1
def Flg.underflow : Nat := 2
def Flg.overflow : Nat := 4
def Flg.divZero : Nat := 8
def Flg.invalid : Nat := 16
def Flg.sigloss : Nat := 32

/-- Does a magnitude with integer part i and the remainder r of d round away from zero? -/
def roundsUp (rm : RM) (s : Bool) (i r d : Nat) : Bool :=
  match rm with
  | .rne => 2 * r > d || (2 * r == d && i % 2 == 1)
  | .rtz => false
  | .rdn => s && r != 0
  | .rup => !s && r != 0

/-- num/den × 2^k as a fraction of naturals. -/
def scaleQ (num den : Nat) (k : Int) : Nat × Nat :=
  if 0 ≤ k then (num * 2 ^ k.toNat, den) else (num, den * 2 ^ (-k).toNat)

/-- floor(log2(num/den)) of a positive fraction. -/
def log2Q (num den : Nat) : Int :=
  let l : Int := (Nat.log2 num : Int) - (Nat.log2 den : Int)
  let (a, b) := scaleQ num den (-l)
  if a < b then l - 1 else l

/-- A rounded result: bits, IEEE flags, and whether it differs from the exact result. -/
structure Rnd where
  bits : Nat
  flags : Nat := 0
  rounded : Bool := false
  deriving DecidableEq, Repr

/-- A positive fraction times 2^e with a sign, rounded to a format (R124, R125). -/
def roundQ (f : Fmt) (rm : RM) (s : Bool) (num den : Nat) (e : Int) : Rnd :=
  let ex := log2Q num den + e
  let q := max (ex - f.fb) (f.emin - f.fb)
  let (a, b) := scaleQ num den (e - q)
  let i := a / b
  let r := a % b
  let i' := if roundsUp rm s i r b then i + 1 else i
  let inx := r != 0
  -- tininess after rounding, with the exponent range unbounded
  let (a2, b2) := scaleQ num den (e - (ex - f.fb))
  let i2 := if roundsUp rm s (a2 / b2) (a2 % b2) b2 then a2 / b2 + 1 else a2 / b2
  let tiny := decide (ex < f.emin) && !(decide (ex + 1 = f.emin) && i2 == 2 ^ (f.fb + 1))
  let ovf := decide (i' ≠ 0) && decide (expOf i' q > (f.bias : Int))
  if ovf then
    let toInf := match rm with
      | .rne => true
      | .rtz => false
      | .rdn => s
      | .rup => !s
    { bits := if toInf then f.inf s else f.big s, flags := Flg.overflow + Flg.inexact, rounded := true }
  else
    let mag := i' + (q - (f.emin - f.fb)).toNat * 2 ^ f.fb
    { bits := (if s then f.signBit else 0) + mag
      flags := (if inx then Flg.inexact else 0) + (if inx && tiny then Flg.underflow else 0)
      rounded := inx }

/-- An integer times 2^e, rounded; zero takes the sign given. -/
def roundZ (f : Fmt) (rm : RM) (z : Int) (e : Int) (zeroSign : Bool) : Rnd :=
  if z = 0 then { bits := f.zero zeroSign }
  else roundQ f rm (decide (z < 0)) z.natAbs 1 e

/-! ## Significance counts (R131, R132) -/

/-- EXACT. -/
def exact : Nat := 31

/-- A result: bits, count, flags, and whether the significance threshold applies to it (R134). -/
structure FRes where
  bits : Nat
  cnt : Nat
  flags : Nat := 0
  sig : Bool := true
  deriving DecidableEq, Repr

/-- The canonical NaN with flags. -/
def FRes.qnan (f : Fmt) (flags : Nat := 0) : FRes := { bits := f.nan, cnt := 0, flags := flags, sig := false }

/-- A count that a load, a set or a stream fill delivers with a value (R131). -/
def storeCount (bits : W32) (c : Nat) : BitVec 5 :=
  match unpack .f32 bits.toNat with
  | .fin _ _ _ => if 25 ≤ c ∧ c ≤ 30 then 24 else BitVec.ofNat 5 c
  | _ => 0

/-- The cap of a subnormal result's count: the significand bits present (R132). -/
def capCount (f : Fmt) (bits c : Nat) : Nat :=
  match unpack f bits with
  | .fin _ m e => if m ≠ 0 ∧ expOf m e < f.emin ∧ c ≠ exact
                  then min c (expOf m e - (f.emin - f.fb) + 1).toNat else c
  | _ => 0

/-- A rounded result with its count: 0 for NaN and infinity, the cap for a subnormal. -/
def mkRes (f : Fmt) (r : Rnd) (c : Nat) (extra : Nat := 0) : FRes :=
  { bits := r.bits, cnt := capCount f r.bits c, flags := r.flags ||| extra, sig := (unpack f r.bits).finite }

/-- The trust floor L of an operand: none is minus infinity (R131). -/
def trustFloor (v : FV) (c : Nat) : Option Int :=
  match v with
  | .fin _ m e => if m = 0 ∨ c = exact then none else some (expOf m e - c + 1)
  | _ => none

def maxFloor : Option Int → Option Int → Option Int
  | none, b => b
  | a, none => a
  | some a, some b => some (max a b)

def clampCount (i : Int) (p : Nat) : Nat := if i < 0 then 0 else if i > p then p else i.toNat

/-- `sig_add` of R132, on the operands' floors and whether both are EXACT. -/
def sigAdd (f : Fmt) (la lb : Option Int) (bothExact : Bool) (r : Rnd) : Nat :=
  match unpack f r.bits with
  | .fin _ m e =>
    if bothExact then (if m = 0 || !r.rounded then exact else f.p)
    else if m = 0 then 0
    else
      let er := expOf m e
      let fl := match maxFloor la lb with
        | none => er - f.p + 1
        | some l => max l (er - f.p + 1)
      clampCount (er - fl + 1) f.p
  | _ => 0

/-- The multiply rule of R132. -/
def sigMul (p ca cb : Nat) (rounded : Bool) : Nat :=
  if ca = exact ∧ cb = exact then (if rounded then p else exact)
  else if ca = cb ∧ ca < p then ca - 1
  else min (min ca cb) p

/-- The square-root rule of R132. -/
def sigRoot (p ca : Nat) (rounded : Bool) : Nat :=
  if ca = exact then (if rounded then p else exact) else min (ca + 1) p

/-! ## Arithmetic -/

def anySNan (a b : FV) : Nat := if a.sNan || b.sNan then Flg.invalid else 0

/-- Sum of two finite values as an integer and an exponent. -/
def addFin (sa : Bool) (ma : Nat) (ea : Int) (sb : Bool) (mb : Nat) (eb : Int) : Int × Int :=
  let e := min ea eb
  let x : Int := (ma * 2 ^ (ea - e).toNat : Nat)
  let y : Int := (mb * 2 ^ (eb - e).toNat : Nat)
  ((if sa then -x else x) + (if sb then -y else y), e)

/-- Sign of an exact zero sum (R124). -/
def zeroSumSign (rm : RM) (sa sb : Bool) (bothZero : Bool) : Bool :=
  if bothZero && sa == sb then sa else rm = .rdn

/-- a + b with counts (R124, R125, R132). -/
def fpAdd (f : Fmt) (rm : RM) (a : FV) (ca : Nat) (b : FV) (cb : Nat) : FRes :=
  match a, b with
  | .nan _, _ => .qnan f (anySNan a b)
  | _, .nan _ => .qnan f (anySNan a b)
  | .inf sa, .inf sb => if sa = sb then { bits := f.inf sa, cnt := 0, sig := false } else .qnan f Flg.invalid
  | .inf sa, _ => { bits := f.inf sa, cnt := 0, sig := false }
  | _, .inf sb => { bits := f.inf sb, cnt := 0, sig := false }
  | .fin sa ma ea, .fin sb mb eb =>
    let (z, e) := addFin sa ma ea sb mb eb
    let r := roundZ f rm z e (zeroSumSign rm sa sb (ma = 0 && mb = 0))
    mkRes f r (sigAdd f (trustFloor a ca) (trustFloor b cb) (ca = exact && cb = exact) r)

def FV.neg : FV → FV
  | .nan b => .nan b
  | .inf s => .inf (!s)
  | .fin s m e => .fin (!s) m e

/-- a × b (R124, R125, R132). -/
def fpMul (f : Fmt) (rm : RM) (a : FV) (ca : Nat) (b : FV) (cb : Nat) : FRes :=
  let s := a.sign != b.sign
  match a, b with
  | .nan _, _ => .qnan f (anySNan a b)
  | _, .nan _ => .qnan f (anySNan a b)
  | .inf _, x => if x.isZero then .qnan f Flg.invalid else { bits := f.inf s, cnt := 0, sig := false }
  | x, .inf _ => if x.isZero then .qnan f Flg.invalid else { bits := f.inf s, cnt := 0, sig := false }
  | .fin _ ma ea, .fin _ mb eb =>
    let r := if ma * mb = 0 then { bits := f.zero s } else roundQ f rm s (ma * mb) 1 (ea + eb)
    mkRes f r (sigMul f.p ca cb r.rounded)

/-- a / b (R124, R125, R132). -/
def fpDiv (f : Fmt) (rm : RM) (a : FV) (ca : Nat) (b : FV) (cb : Nat) : FRes :=
  let s := a.sign != b.sign
  match a, b with
  | .nan _, _ => .qnan f (anySNan a b)
  | _, .nan _ => .qnan f (anySNan a b)
  | .inf _, .inf _ => .qnan f Flg.invalid
  | .inf _, _ => { bits := f.inf s, cnt := 0, sig := false }
  | _, .inf _ => mkRes f { bits := f.zero s } (sigMul f.p ca cb false)
  | .fin _ ma ea, .fin _ mb eb =>
    if mb = 0 then
      (if ma = 0 then .qnan f Flg.invalid else { bits := f.inf s, cnt := 0, flags := Flg.divZero, sig := false })
    else
      let r := if ma = 0 then { bits := f.zero s } else roundQ f rm s ma mb (ea - eb)
      mkRes f r (sigMul f.p ca cb r.rounded)

/-- The largest r in fuel bits with r² ≤ n. -/
def isqrtGo : Nat → Nat → Nat → Nat
  | 0, _, r => r
  | k + 1, n, r => isqrtGo k n (if (r + 2 ^ k) * (r + 2 ^ k) ≤ n then r + 2 ^ k else r)
def isqrt (n : Nat) : Nat := isqrtGo (Nat.log2 n / 2 + 1) n 0

/-- √a (R125, R132). -/
def fpSqrt (f : Fmt) (rm : RM) (a : FV) (ca : Nat) : FRes :=
  match a with
  | .nan b => .qnan f (if b then Flg.invalid else 0)
  | .inf s => if s then .qnan f Flg.invalid else { bits := f.inf false, cnt := 0, sig := false }
  | .fin s m e =>
    if m = 0 then { bits := f.zero s, cnt := ca }
    else if s then .qnan f Flg.invalid
    else
      let (m1, e1) := if e % 2 = 0 then (m, e) else (2 * m, e - 1)
      let n := m1 * 2 ^ 128
      let y := isqrt n
      let r := roundQ f rm false (2 * y + (if y * y = n then 0 else 1)) 2 (e1 / 2 - 64)
      mkRes f r (sigRoot f.p ca r.rounded)

/-- 1/√a (R376). -/
def fpRsq (f : Fmt) (rm : RM) (a : FV) (ca : Nat) : FRes :=
  match a with
  | .nan b => .qnan f (if b then Flg.invalid else 0)
  | .inf s => if s then .qnan f Flg.invalid else { bits := f.zero false, cnt := 0 }
  | .fin s m e =>
    if m = 0 then { bits := f.inf s, cnt := 0, flags := Flg.divZero, sig := false }
    else if s then .qnan f Flg.invalid
    else
      let (m1, e1) := if e % 2 = 0 then (m, e) else (2 * m, e - 1)
      let n := 2 ^ 256 / m1
      let y := isqrt n
      let r := roundQ f rm false (2 * y + (if m1 * (y * y) = 2 ^ 256 then 0 else 1)) 2 (-(e1 / 2) - 128)
      mkRes f r (sigRoot f.p ca r.rounded)

/-- A zero that is no root has count 0, unless the operand is EXACT and the result is not rounded (R376). A VEXP2 of an EXACT
operand that underflows to zero falls under this sentence and under R132's row, which gives p; R376 is taken (DEDUCED,
log 105). -/
def zeroCount (f : Fmt) (ca : Nat) (r : FRes) : FRes :=
  if (unpack f r.bits).isZero && (ca != exact || r.cnt != exact) then { r with cnt := 0 } else r

/-- 1/a (R376). -/
def fpRcp (f : Fmt) (rm : RM) (a : FV) (ca : Nat) : FRes :=
  zeroCount f ca (fpDiv f rm (.fin false 1 0) exact a ca)

/-- 2^(j/2^n) for 0 ≤ j < 2^n as a fixed-point number with 112 fraction bits: the product of the roots of two that the
bits of j select, most significant first. -/
def exp2Go : Nat → Nat → Nat → Nat → Nat
  | 0, _, _, acc => acc
  | n + 1, j, root, acc =>
    exp2Go n j (isqrt (root * 2 ^ 112)) (if j / 2 ^ n % 2 = 1 then acc * root / 2 ^ 112 else acc)

/-- 2^a (R376). A magnitude below 2^-40 lies closer to 1 than any rounding boundary but 1 itself. -/
def fpExp2 (f : Fmt) (rm : RM) (a : FV) (ca : Nat) (zeroCnt : Nat) : FRes :=
  match a with
  | .nan b => .qnan f (if b then Flg.invalid else 0)
  | .inf s => if s then { bits := f.zero false, cnt := 0 } else { bits := f.inf false, cnt := 0, sig := false }
  | .fin s m e =>
    if m = 0 then
      { bits := f.bias * 2 ^ f.fb, cnt := if ca = exact then exact else min zeroCnt (f.fb + 1) }
    else
      let r : Rnd :=
        if expOf m e > 20 then
          (if s then roundQ f rm false 1 1 (-1000) else roundQ f rm false 1 1 1000)
        else if expOf m e < -40 then
          (if s then roundQ f rm false (2 ^ 60 - 1) 1 (-60) else roundQ f rm false (2 ^ 60 + 1) 1 (-60))
        else
          -- x = k + j / 2^n with n = 64
          let x : Int := if 0 ≤ e + 64 then (m * 2 ^ (e + 64).toNat : Nat) else (m / 2 ^ (-(e + 64)).toNat : Nat)
          let x := if s then -x else x
          let k := x / 2 ^ 64
          let j := (x % 2 ^ 64).toNat
          if j = 0 then roundQ f rm false 1 1 k
          else
            let y := exp2Go 64 j (isqrt (2 * 2 ^ 224)) (2 ^ 112)
            roundQ f rm false (2 * y + 1) 2 (k - 112)
      let c := if ca = exact then (if r.rounded then f.p else exact)
               else clampCount (-(expOf m e - ca + 1) - 1) f.p
      zeroCount f ca (mkRes f r c)

/-- Bits of log2 of y/2^240, for 1 ≤ y/2^240 < 2, most significant first. -/
def log2Go : Nat → Nat → Nat → Nat
  | 0, _, acc => acc
  | n + 1, y, acc =>
    let y2 := y * y / 2 ^ 240
    if y2 ≥ 2 ^ 241 then log2Go n (y2 / 2) (2 * acc + 1) else log2Go n y2 (2 * acc)

/-- log2 a (R376). -/
def fpLog2 (f : Fmt) (rm : RM) (a : FV) (ca : Nat) : FRes :=
  match a with
  | .nan b => .qnan f (if b then Flg.invalid else 0)
  | .inf s => if s then .qnan f Flg.invalid else { bits := f.inf false, cnt := 0, sig := false }
  | .fin s m e =>
    if m = 0 then { bits := f.inf true, cnt := 0, flags := Flg.divZero, sig := false }
    else if s then .qnan f Flg.invalid
    else
      let l := Nat.log2 m
      let k : Int := expOf m e
      let r : Rnd :=
        if m = 2 ^ l then roundZ f rm k 0 false
        else
          let y := m * 2 ^ (240 - l)
          let fr := log2Go 100 y 0
          roundZ f rm (2 * ((k * (2 : Int) ^ 100) + fr) + 1) (-101) false
      let c := match unpack f r.bits with
        | .fin _ mr er =>
          if ca = exact then (if r.rounded then f.p else exact)
          else if mr = 0 then 0
          else clampCount (expOf mr er + ca) f.p
        | _ => 0
      zeroCount f ca (mkRes f r c)

/-- a × b + c with one rounding (R132, R319). -/
def fpFma (f : Fmt) (rm : RM) (a : FV) (ca : Nat) (b : FV) (cb : Nat) (c : FV) (cc : Nat) : FRes :=
  let s := a.sign != b.sign
  let sn := if a.sNan || b.sNan || c.sNan then Flg.invalid else 0
  match a, b with
  | .nan _, _ => .qnan f sn
  | _, .nan _ => .qnan f sn
  | .inf _, x =>
    if x.isZero then .qnan f Flg.invalid
    else match c with
      | .nan _ => .qnan f sn
      | .inf sc => if sc = s then { bits := f.inf s, cnt := 0, sig := false } else .qnan f Flg.invalid
      | _ => { bits := f.inf s, cnt := 0, sig := false }
  | x, .inf _ =>
    if x.isZero then .qnan f Flg.invalid
    else match c with
      | .nan _ => .qnan f sn
      | .inf sc => if sc = s then { bits := f.inf s, cnt := 0, sig := false } else .qnan f Flg.invalid
      | _ => { bits := f.inf s, cnt := 0, sig := false }
  | .fin _ ma ea, .fin _ mb eb =>
    match c with
    | .nan _ => .qnan f sn
    | .inf sc => { bits := f.inf sc, cnt := 0, sig := false }
    | .fin sc mc ec =>
      let cp := sigMul f.p ca cb false
      let lp := trustFloor (.fin s (ma * mb) (ea + eb)) cp
      let (z, e) := addFin s (ma * mb) (ea + eb) sc mc ec
      let r := roundZ f rm z e (zeroSumSign rm s sc (ma * mb = 0 && mc = 0))
      mkRes f r (sigAdd f lp (trustFloor c cc) (cp = exact && cc = exact) r)

/-- Is a below b, for values that are not NaN, with −0 below +0? -/
def FV.below : FV → FV → Bool
  | .inf sa, .inf sb => sa && !sb
  | .inf sa, _ => sa
  | _, .inf sb => !sb
  | .fin sa ma ea, .fin sb mb eb =>
    let (z, _) := addFin sa ma ea (!sb) mb eb
    if z = 0 then sa && !sb && ma = 0 else z < 0
  | _, _ => false

/-- maximumNumber or minimumNumber on bit patterns with counts (R129). -/
def fpMinMax (f : Fmt) (isMax : Bool) (a ca b cb : Nat) : FRes :=
  let va := unpack f a
  let vb := unpack f b
  let fl := anySNan va vb
  if va.isNan && vb.isNan then .qnan f fl
  else if va.isNan then { bits := b, cnt := if vb.finite then cb else 0, flags := fl, sig := false }
  else if vb.isNan then { bits := a, cnt := if va.finite then ca else 0, flags := fl, sig := false }
  else
    let takeB := if isMax then va.below vb else vb.below va
    let (v, c, x) := if takeB then (b, cb, vb) else (a, ca, va)
    { bits := v, cnt := if x.finite then c else 0, flags := fl, sig := false }

/-! ## Comparisons and classes -/

/-- a = b, with −0 = +0; false on a NaN (R317). -/
def FV.feq : FV → FV → Bool
  | .inf sa, .inf sb => sa == sb
  | .fin sa ma ea, .fin sb mb eb => (addFin sa ma ea (!sb) mb eb).1 = 0
  | _, _ => false
/-- a < b; false on a NaN (R317). -/
def FV.flt : FV → FV → Bool
  | .nan _, _ => false
  | _, .nan _ => false
  | .fin sa ma ea, .fin sb mb eb => (addFin sa ma ea (!sb) mb eb).1 < 0
  | a, b => a.below b

/-- The comparison of FCMP and VCMP by condition number, with the flag it raises (R317, R374). -/
def fpCmp (c : Nat) (a b : FV) : Bool × Nat :=
  let nan := a.isNan || b.isNan
  let sn := anySNan a b
  match c with
  | 0 => (a.feq b, sn)
  | 1 => (a.flt b, if nan then Flg.invalid else 0)
  | 2 => (a.flt b || a.feq b, if nan then Flg.invalid else 0)
  | _ => (nan, sn)

/-- FCLASS's one-hot class (R316). -/
def fpClass (f : Fmt) (v : Nat) : Nat :=
  match unpack f v with
  | .inf s => if s then 1 else 2 ^ 7
  | .nan b => if b then 2 ^ 8 else 2 ^ 9
  | .fin s m e =>
    if m = 0 then (if s then 2 ^ 3 else 2 ^ 4)
    else if expOf m e < f.emin then (if s then 2 ^ 2 else 2 ^ 5)
    else (if s then 2 ^ 1 else 2 ^ 6)

/-! ## Conversions (R128) -/

/-- Integer to float: EXACT if exact, else p. -/
def fpFromInt (f : Fmt) (rm : RM) (z : Int) : FRes :=
  let r := roundZ f rm z 0 false
  mkRes f r (if r.rounded then f.p else exact)

/-- Float to integer in [lo, hi]: value and flags. -/
def fpToInt (rm : RM) (v : FV) (lo hi : Int) : Int × Nat :=
  match v with
  | .nan _ => (0, Flg.invalid)
  | .inf s => (if s then lo else hi, Flg.invalid)
  | .fin s m e =>
    let (a, b) := scaleQ m 1 e
    let i := a / b
    let r := a % b
    let i' : Int := ((if roundsUp rm s i r b then i + 1 else i : Nat) : Int)
    let z := if s then -i' else i'
    if z > hi then (hi, Flg.invalid)
    else if z < lo then (lo, Flg.invalid)
    else (z, if r = 0 then 0 else Flg.inexact)

/-- The exact value of a pattern of one format in f32 bits: f16 and bf16 widen exactly (R128). -/
def widen (f : Fmt) (v : Nat) : Nat :=
  match unpack f v with
  | .nan _ => Fmt.f32.nan
  | .inf s => Fmt.f32.inf s
  | .fin s m e => if m = 0 then Fmt.f32.zero s else (roundQ .f32 .rtz s m 1 e).bits

/-- f32 rounded to a narrower format: its bits there, its count and flags (R128, R132). -/
def narrow (f : Fmt) (rm : RM) (v cnt : Nat) : FRes :=
  match unpack .f32 v with
  | .nan b => .qnan f (if b then Flg.invalid else 0)
  | .inf s => { bits := f.inf s, cnt := 0, sig := false }
  | .fin s m e =>
    let r := if m = 0 then { bits := f.zero s } else roundQ f rm s m 1 e
    mkRes f r (if cnt = exact then (if r.rounded then f.p else exact) else min cnt f.p)

/-- The weight of a ds8 term (R120); a reserved term reads 0 (R121). -/
def ds8Term (s e : Nat) : Int :=
  let t : Int := if e = 7 then 0 else ((2 ^ (6 - e) : Nat) : Int)
  if s = 1 then -t else t
def ds8Weight (b : Nat) : Int := ds8Term (b / 128 % 2) (b / 16 % 8) + ds8Term (b / 8 % 2) (b % 8)
def ds8Reserved (b : Nat) : Bool := b / 16 % 16 = 15 || b % 16 = 15

/-! ## What a result's flags and count do (R126, R134) -/

/-- SIGTH and SIGTE of FPC. -/
def fpcSigth (fpc : W64) : Nat := fld fpc 19 5

/-- The flags that a result sets, SIGLOSS among them. -/
def FRes.allFlags (fpc : W64) (r : FRes) : Nat :=
  r.flags ||| (if r.sig && r.cnt < fpcSigth fpc then Flg.sigloss else 0)

/-- The trap that flags raise: an enabled IEEE flag raises FP_TRAP, else SIGLOSS with SIGTE set. -/
def flagTrap (fpc : W64) (flags : Nat) : Option Nat :=
  if (flags % 32) &&& fld fpc 8 5 ≠ 0 then some Cls.fpTrap
  else if flags / 32 % 2 = 1 ∧ bit fpc 18 then some Cls.sigloss
  else none

end Sys2Proof.Machine
end

