-- ==== Sys2Proof/Machine/Access.lean ====
section
/-! DEFINITION. The check and relocation of an access by virtual address, plain reference or slot address (R45, R175,
R200, R237), reading and writing through it, and the messages to other dies. -/

namespace Sys2Proof.Machine

/-- The permission an access needs. -/
inductive Need where
  | r | w | x | rw
  deriving DecidableEq, Repr

/-- A checked access: its plain address, whether its page is fallow (R242), and the grant it came through. -/
structure Acc where
  plain : Nat
  fallow : Bool := false
  grant : Option Nat := none
  deriving DecidableEq, Repr

/-- A fault met by an access: class and fault address. -/
abbrev AFault := Nat × W64

def Extent.covers (e : Extent) (va len : Nat) : Bool := e.vbase ≤ va && va + len ≤ e.vbase + e.len
def Extent.allows (e : Extent) (n : Need) : Bool :=
  match n with
  | .r => e.r
  | .w => e.w
  | .x => e.x
  | .rw => e.r && e.w

/-- What an access of its kind meets on tier 11 (R176): words and double words of the CT are performed, its bytes and
half words are misaligned, and atomics, tagged accesses and map-driven transfers find no extent. -/
inductive Tier11 where
  | performed | misaligned | refused
  deriving DecidableEq, Repr

/-- The first extent that covers every byte with the needed permission, the pinned ones before the table (R45). -/
def Tile.findExtent (t : Tile) (va len : Nat) (n : Need) : Option Extent :=
  (t.pins ++ t.exts).find? fun e => e.covers va len && e.allows n

/-- The home's answer to a checked address: not decoded, lost, or another function's page (R174, R246, R249). The home of
another die finds the owner of a `posted` access itself, and answers later (R358). -/
def State.homeCheck (s : State) (k : Nat) (va : W64) (a : Acc) (len : Nat) (posted : Bool) : Except AFault Acc :=
  match s.place (tileDie k) a.plain len with
  | .bad => .error (Cls.extent, va)
  | .lost => .error (Cls.targetLost, va)
  | .mem p =>
    if s.foreign (s.fidOf k) p && !(posted && plainDie a.plain ≠ tileDie k) then .error (Cls.extent, va) else .ok a
  | _ => .ok a

/-- A slot address (R199, R200). -/
def State.slotCheck (s : State) (k : Nat) (va : W64) (len : Nat) (n : Need) (posted : Bool) : Except AFault Acc :=
  let t := s.tile k
  let num := fld va 53 3
  let off := fld va 0 16
  match Tab.find? t.grants num with
  | none => .error (Cls.extent, va)
  | some g =>
    if fld va 32 21 ≠ 0 ∨ va.extractLsb' 16 16 ≠ g.stamp ∨ off + len > 65536 then .error (Cls.extent, va)
    else
      let a : Acc := { plain := g.plain + off, grant := some num }
      match n with
      | .x | .rw => .error (Cls.extent, va)
      | .r => s.homeCheck k va a len posted
      | .w =>
        if g.lost then .error (Cls.targetLost, va)
        else if off < g.wlo then .error (Cls.seqImmutable, va)
        else if off + len > g.whi then .error (Cls.extent, va)
        else s.homeCheck k va a len posted

/-- The check of an access of `len` bytes at `va` by tile k (R45, R175, R237), in the order of R283 and R333: no extent, an
address that is not decoded or another function's page, a revoked extent, a fallow page, a lost home. `slots` admits slot
addresses; `tagged` asks for the TAGGED bit (R136); `posted` is for a store or a no-return atomic (R283, R358). -/
def State.check (s : State) (k : Nat) (va : W64) (len : Nat) (n : Need) (slots : Bool := false) (tagged : Bool := false)
    (dev : Tier11 := .performed) (posted : Bool := false) : Except AFault Acc :=
  let t := s.tile k
  let hi := fld va 48 16
  if fld va 56 8 = 0xFE then
    let p := s.plainIn (diePkg (tileDie k)) (fld va 0 55)
    if bit va 55 ∨ p < sliceBase k ∨ p + len > sliceBase k + 2 ^ 22 ∨ n = .x ∨ tagged then .error (Cls.extent, va)
    else .ok { plain := p }
  else if fld va 56 8 = 0xFD then
    if slots ∧ !tagged then s.slotCheck k va len n posted else .error (Cls.extent, va)
  else if hi ≠ 0 then .error (Cls.extent, va)
  else
    match t.findExtent va.toNat len n with
    | none => .error (Cls.extent, va)
    | some e =>
      let a : Acc := { plain := e.plain + (va.toNat - e.vbase), fallow := e.fallow }
      if plainTier a.plain = 3 ∧ dev = .misaligned then .error (Cls.align, va)
      else if (plainTier a.plain = 3 ∧ dev = .refused) ∨ (tagged && !e.tagged) ∨ (e.fallow && n = .x) then .error (Cls.extent, va)
      else match s.homeCheck k va a len posted with
        | .ok a => if e.revoked then .error (Cls.extentRevoked, va) else .ok a
        | .error (c, x) =>
          if c ≠ Cls.targetLost then .error (c, x)
          else if e.revoked then .error (Cls.extentRevoked, va)
          else if e.fallow then .ok a else .error (c, x)

/-- The address of an access after its home's block resolver; none where the home reports a fault. -/
def State.resolve (s : State) (d p len : Nat) : Option Nat :=
  match s.place d p len with
  | .mem q => some q
  | _ => none

/-! ## Reading the hub (R16, R49, R248, R272) -/

/-- The window and the function block that a tier-11 hub offset lies in. -/
def hubOff (off : Nat) : Nat := off - 0xF000000000

/-- The value of a function block word (R248). -/
def Func.blockWord (x : Func) (w : Nat) : W64 :=
  match w with
  | 0 => x.quads
  | 1 => x.asidWord &&& 0x1FFFF#64
  | 2 => w64 ((if x.en then 1 else 0) + (if x.flrb then 2 else 0))
  | _ => 0

/-- A status register of a slot (R49). -/
def Func.slotStatus (x : Func) (slot : Nat) : Nat :=
  let sl := Tab.get {} x.slots slot
  (if sl.busy then 1 else 0) + (if sl.torn then 2 else 0)

/-- What a hub offset belongs to: a function's launch window (R49), a function's register block (R248), or the management
mailboxes, to which the spec gives no place (log 70). -/
inductive HubPlace where
  | window (fid off : Nat)
  | block (fid off : Nat)
  | mailbox
  deriving DecidableEq, Repr

def hubPlace (o : Nat) : HubPlace :=
  if o < Config.functions * 0x10000 then .window (o / 0x10000) (o % 0x10000)
  else if 0x200000 ≤ o ∧ o < 0x200000 + Config.functions * 64 then .block ((o - 0x200000) / 64) (o % 64)
  else .mailbox

/-- A read of `len` bytes at a hub offset. In recovery only the DOE and boot-status mailboxes are there, and the rest reads
zero (R273). -/
def State.hubRead (s : State) (p off len : Nat) : Nat :=
  let o := hubOff off
  if (s.pkg p).recovery then 0
  else match hubPlace o with
  | .window f w =>
    let x := s.func p f
    if w < 0x8000 then leNat ((List.range len).map fun i => Tab.get 0 x.window (w + i))
    else if 0xC000 ≤ w ∧ w < 0xC400 then
      x.slotStatus ((w - 0xC000) / 4) + (if len = 8 then 2 ^ 32 * x.slotStatus ((w - 0xC000) / 4 + 1) else 0)
    else if 0xE000 ≤ w ∧ w < 0xE018 then
      let v := match (w - 0xE000) / 8 with
        | 0 => x.cqBase.toNat
        | 1 => x.cqCtl.toNat
        | _ => x.cqHead.toNat
      v / 2 ^ (8 * (w % 8)) % 2 ^ (8 * len)
    else 0
  | .block f b => ((s.func p f).blockWord (b / 8)).toNat / 2 ^ (8 * (b % 8)) % 2 ^ (8 * len)
  | .mailbox => leNat ((List.range len).map fun i => Tab.get 0 (s.pkg p).mgmt (o + i))

/-- Bytes read at a hub offset, by the double words that hold them. -/
def State.hubBytes (s : State) (p off len : Nat) : List Byte :=
  (List.range len).map fun i => BitVec.ofNat 8 (s.hubRead p ((off + i) / 8 * 8) 8 / 2 ^ (8 * ((off + i) % 8)))

/-- The bytes at a checked address, read at their home; a fallow page reads zero (R242). A die's own MMIO holds bytes that
the spec does not give (log 70). -/
def State.readAcc (s : State) (k : Nat) (a : Acc) (len : Nat) : List Byte :=
  if a.fallow then List.replicate len 0
  else match s.place (tileDie k) a.plain len with
    | .mem q => s.bytes q len
    | .hub off => s.hubBytes (plainDie a.plain / 8) off len
    | _ => (List.range len).map fun i => Config.mmioByte (a.plain + i)

/-- Bytes written at a checked address; a fallow page drops them (R242). -/
def State.writeAcc (s : State) (k : Nat) (a : Acc) (bs : List Byte) (code : BitVec 4 := 0) : State :=
  if a.fallow then s
  else match s.resolve (tileDie k) a.plain bs.length with
    | some q => s.writePlain q bs code
    | none => s

/-- Bytes read through the extent table by an engine or a check at issue. -/
def State.readVa (s : State) (k : Nat) (va : W64) (len : Nat) : Except AFault (List Byte) := do
  let a ← s.check k va len .r
  match s.resolve (tileDie k) a.plain len with
  | some q =>
    match s.badSector q len with
    | some _ => if a.fallow then .ok (List.replicate len 0) else .error (Cls.uncorrectable, va)
    | none => .ok (s.readAcc k a len)
  | none => .ok (s.readAcc k a len)

/-- As `readVa`, byte by byte, so that a range may lie in more than one extent; the fault names its byte. -/
def State.readVaList (s : State) (k : Nat) (va : W64) : Nat → Except AFault (List Byte)
  | 0 => .ok []
  | n + 1 => do
    let b ← s.readVa k va 1
    let r ← State.readVaList s k (va + 1) n
    .ok (b ++ r)

/-! ## Forwarding from the journal and the store queue (R59, R180) -/

/-- The byte that a pending store of the CT gives at an address as issued. -/
def pendingByte (va : W64) : List (W64 × List Byte) → Option Byte
  | [] => none
  | (a, bs) :: r =>
    match pendingByte va r with
    | some b => some b
    | none => bs[(va - a).toNat]?

/-- Pending stores of the CT, oldest first. -/
def Tile.pendingStores (t : Tile) : List (W64 × List Byte) :=
  (t.storeQ.filterMap fun e => if e.amo.isNone then some (e.va, e.bytes) else none) ++
  (t.journal.filterMap fun e => match e.kind with
    | .store va _ bs _ => some (va, bs)
    | _ => none)

/-- Bytes loaded by the CT: those of its own pending stores to the same address, else those given (R180). -/
def Tile.forward (t : Tile) (va : W64) (bs : List Byte) : List Byte :=
  let ps := t.pendingStores
  bs.mapIdx fun i b => (pendingByte (va + BitVec.ofNat 64 i) ps).getD b

/-- Stores of tile k on their way to another die, oldest first. -/
def State.inFlight (s : State) (k : Nat) : List (W64 × List Byte) :=
  s.reqs.filterMap fun p => match p.2.op with
    | .store _ bs => if p.2.tile = k && p.2.answer.isNone && !p.2.expired && !p.2.lost && !p.2.dead then some (p.2.addr, bs) else none
    | _ => none

/-- As `Tile.forward`, for an image or a record that is read at once though its home may be another die: the CT's stores
on their way there count too (R180, R364). -/
def State.forward (s : State) (k : Nat) (va : W64) (bs : List Byte) : List Byte :=
  let ps := s.inFlight k ++ (s.tile k).pendingStores
  bs.mapIdx fun i b => (pendingByte (va + BitVec.ofNat 64 i) ps).getD b

/-- Every byte of the access is a byte of a pending store. -/
def Tile.allForwarded (t : Tile) (va : W64) (len : Nat) : Bool :=
  let ps := t.pendingStores
  (List.range len).all fun i => (pendingByte (va + BitVec.ofNat 64 i) ps).isSome

/-! ## Requests to other dies (R243, R245) -/

/-- A new request of tile k to die `dst`, and its number. -/
def State.send (s : State) (k dst : Nat) (op : HomeOp) (sink : Sink) (addr : W64) (logged : Bool := false) (opc : Nat := 0) :
    State × Nat :=
  let t := s.tile k
  let src := tileDie k
  let id := s.nextId
  let r : Request :=
    { tile := k, fid := s.fidOf k, job := t.entry.cr.job, src := src, dst := dst, op := op, sink := sink, addr := addr
      deadline := s.ptc src + fld (s.die src).reqTimeout 0 32, logged := logged, tag := t.atag, opc := opc
      crec := t.entry.cr, sent := s.ptc src }
  let s := if logged then s.setTile k { t with atag := t.atag + 1 } else s
  ({ s with nextId := id + 1, reqs := Tab.put s.reqs id r }, id)

/-- The dies between which a message travels. -/
def State.msgEnds (s : State) (m : Msg) : Nat × Nat :=
  match m with
  | .slab k _ die _ _ _ _ _ _ _ _ => (tileDie k, die)
  | .layImage k _ home _ _ _ _ | .passImage k _ home _ _ => (tileDie k, home)
  | .layInstall _ _ die job _ _ | .passInstall _ _ die job _ | .commit job die _ => (s.homeDie job, die)
  | .ready _ frm die _ _ _ _ | .report _ frm die _ | .part _ _ frm die _ _ _ | .abort _ frm die _ _ _ | .result _ _ frm die _ _ => (frm, die)
  | .narrow die _ k _ _ _ _ _ _ _ => (die, tileDie k)
  | .narrowAck die _ k _ _ _ _ => (tileDie k, die)

/-- A message put on the network. -/
def State.post (s : State) (m : Msg) : State :=
  { s with nextId := s.nextId + 1, msgs := Tab.put s.msgs s.nextId m, sentAt := Tab.put s.sentAt s.nextId (s.ptc (s.msgEnds m).1) }
def State.unpost (s : State) (id : Nat) : State := { s with msgs := Tab.erase s.msgs id, sentAt := Tab.erase s.sentAt id }
def State.modReq (s : State) (id : Nat) (f : Request → Request) : State :=
  match Tab.find? s.reqs id with
  | some r => { s with reqs := Tab.put s.reqs id (f r) }
  | none => s
def State.dropReq (s : State) (id : Nat) : State := { s with reqs := Tab.erase s.reqs id }
/-- The home answers a request: the answer takes its place among what the home sends (R215). -/
def State.answerReq (s : State) (id : Nat) (a : Answer) : State :=
  ({ s with nextId := s.nextId + 1 } : State).modReq id fun r => { r with answer := some a, kept := false, acks := [], ansNo := s.nextId }

/-- Logged requests of tile k without a response (R243). -/
def State.loggedOpen (s : State) (k : Nat) : Nat := (s.reqs.filter fun p => p.2.tile = k && p.2.logged && !p.2.expired).length

/-- The signal of a unit that completes, and its count in its launch, have no deadline: only the loss of a die ends them
(R29, R247). -/
def Sink.undated : Sink → Bool
  | .signalled _ _ _ | .counted => true
  | _ => false

/-- Nothing that die a sent to die b before number n is still on its way: the LS channel delivers in order (R215). -/
def State.lsFirst (s : State) (a b n : Nat) : Bool :=
  !(s.reqs.any fun p =>
      let r := p.2
      !r.lost && ((p.1 < n && r.src = a && r.dst = b && r.answer.isNone && !r.kept)
        || (r.ansNo < n && r.src = b && r.dst = a && (match r.answer with
          | none | some .refused => false
          | some _ => s.ptc b < r.deadline || r.sink.undated))))
  && !(s.msgs.any fun m => m.1 < n && match m.2 with
      | .narrow die _ k _ _ _ _ _ _ _ => die = a && tileDie k = b
      | _ => false)

/-- The oldest request from die `src` to die `dst` that has not reached its home, on the ordered LS channel (R215). -/
def State.oldestReq (s : State) (src dst : Nat) : Option (Nat × Request) :=
  List.find? (fun p => p.2.src = src && p.2.dst = dst && p.2.answer.isNone && !p.2.kept && !p.2.lost) s.reqs

end Sys2Proof.Machine
end

