-- ==== Sys2Proof/Machine/Work.lean ====
section
/-! DEFINITION. Work: page-table walks and footprints, damage entries, completion queues, the level table, named
events, registration and placement of records, and the completion actions of a unit (02_work_and_scheduling.md,
11_pod_containment.md, 12_traps_faults.md). -/

namespace Sys2Proof.Machine

/-! ## Translation (R237, R238) -/

/-- What a walk finds: the page's virtual base, its plain base, its size and the entry's low byte. -/
inductive Walk where
  | unmapped
  | page (vbase plain size bits : Nat)
  deriving DecidableEq, Repr

def readLe (s : State) (p len : Nat) : Nat := leNat (s.bytes p len)

/-- Does a leaf on a die of package q name plain addresses that R174 decodes? `p` is the address by the packages' keys. -/
def leafDecodes (s : State) (q p size : Nat) : Bool :=
  p < 2 ^ 55 && s.peers q (diePkg (plainDie p)) && match plainTier p with
  | 0 => plainOff p + size ≤ 0x1000000000
  | 1 => plainOff p + size ≤ 0x8000000
  | 2 => true
  | _ => plainOff p < 0xF000000000 || dieNum (plainDie p) = 0

/-- The walk on a die of package q from a table at a level, with the levels below it (R238). -/
def walkGo (s : State) (q va : Nat) : Nat → Nat → Walk
  | 0, _ => .unmapped
  | lv + 1, table =>
    let (lo, n) := match lv with
      | 0 => (16, 5)
      | l + 1 => (21 + 9 * l, 9)
    let e := readLe s (table + 8 * nfld va lo n) 8
    let addr := s.plainIn q (nfld e 8 47 * 256)
    let leaf := lv = 0 || nfld e 4 1 = 1
    if nfld e 0 1 = 0 ∨ nfld e 55 9 ≠ 0 ∨ (lv = 3 ∧ nfld e 4 1 = 1) then .unmapped
    else if leaf then
      let size := 2 ^ lo
      if addr % size ≠ 0 ∨ !leafDecodes s q addr size then .unmapped
      else .page (va / size * size) addr size (e % 256)
    else walkGo s q va lv addr

/-- The translation of a virtual address in an ASID of a die (R237, R238): bits above 47 are zero or nothing is mapped.
The cache of R239 is consulted first. -/
def State.walk (s : State) (d asid va : Nat) : Walk :=
  let x := s.die d
  if 2 ^ 48 ≤ va then .unmapped
  else match x.cache.find? (fun c => c.asid = asid && c.page = va / 65536) with
  | some c => .page (va / 65536 * 65536) c.plain 65536 c.bits
  | none =>
    match x.split.find? (fun c => c.asid = asid && c.page = va / 65536) with
    | some c =>
      let p := s.plainIn (diePkg d) c.plain
      if c.bits % 2 = 1 ∧ leafDecodes s (diePkg d) p 65536 then .page (va / 65536 * 65536) p 65536 c.bits else .unmapped
    | none =>
      let a := Tab.get { root := 0, fid := 0, job := 0, tagBase := 0, live := false } x.asids asid
      if a.live then walkGo s (diePkg d) va 4 (s.plainIn (diePkg d) a.root) else .unmapped

def Walk.bitAt (b i : Nat) : Bool := b / 2 ^ i % 2 = 1

/-- A walk's page is kept in the die's cache, unless it is MIGRATING (R239). -/
def State.cacheWalk (s : State) (d asid va : Nat) : State :=
  match s.walk d asid va with
  | .page vb p _ b =>
    if Walk.bitAt b 7 ∨ (s.die d).cache.any (fun c => c.asid = asid && c.page = va / 65536) then s
    else s.modDie d fun x =>
      { x with cache := { asid := asid, page := va / 65536, plain := p + (va / 65536 * 65536 - vb), bits := b } :: x.cache }
  | .unmapped => s

/-- One page's bytes read through the page tables, by the scheduler or the root monitor. -/
def State.readJobVa (s : State) (d asid va : Nat) : Nat → Option (List Byte)
  | 0 => some []
  | n + 1 =>
    match s.walk d asid va with
    | .page vb p _ _ =>
      match s.resolve d (p + (va - vb)) 1, State.readJobVa s d asid (va + 1) n with
      | some q, some r => some (s.byte q :: r)
      | _, _ => none
    | .unmapped => none

/-- Bytes written through the page tables by the root monitor. -/
def State.writeJobVa (s : State) (d asid va : Nat) : List Byte → State
  | [] => s
  | b :: r =>
    match s.walk d asid va with
    | .page vb p _ _ =>
      match s.resolve d (p + (va - vb)) 1 with
      | some q => State.writeJobVa (s.putByte q b) d asid (va + 1) r
      | none => State.writeJobVa s d asid (va + 1) r
    | .unmapped => State.writeJobVa s d asid (va + 1) r

/-- What translating a footprint gives (R44). -/
inductive Foot where
  | ok (es : List Extent)
  | migrating (va : Nat)
  /-- no valid entry maps the byte at `va`, the first one that lacks it -/
  | unmapped (va : Nat)
  /-- the list itself is wrong, or 32 extents do not suffice -/
  | fault (va : Nat)
  deriving DecidableEq, Repr

/-- Adjacent runs of one range merge. -/
def addExtent (es : List Extent) (e : Extent) : List Extent :=
  match es.getLast? with
  | some l =>
    if l.foot = e.foot ∧ l.vbase + l.len = e.vbase ∧ l.plain + l.len = e.plain ∧ l.r = e.r ∧ l.w = e.w ∧ l.x = e.x
        ∧ l.tagged = e.tagged ∧ l.fallow = e.fallow then es.dropLast ++ [{ l with len := l.len + e.len }]
    else es ++ [e]
  | none => [e]

/-- One range, page by page (R44). -/
def footRange (s : State) (d asid : Nat) (foot acc : Nat) : Nat → Nat → Nat → List Extent → Foot
  | 0, _, _, es => .ok es
  | fuel + 1, va, len, es =>
    if len = 0 then .ok es
    else match s.walk d asid va with
      | .unmapped => .unmapped va
      | .page vb p size b =>
        if Walk.bitAt b 7 then .migrating va
        else
          let n := min len (vb + size - va)
          let e : Extent :=
            { vbase := va, plain := p + (va - vb), len := n, r := Walk.bitAt acc 0 && Walk.bitAt b 1
              w := Walk.bitAt acc 1 && Walk.bitAt b 2, x := Walk.bitAt acc 2 && Walk.bitAt b 3
              tagged := Walk.bitAt b 6, fallow := Walk.bitAt b 5, foot := foot }
          let es' := addExtent es e
          if es'.length > 32 then .fault va else footRange s d asid foot acc fuel (va + n) (len - n) es'

/-- The entries of a footprint list, from entry i on (R43, R44). -/
def footList (s : State) (d asid foot : Nat) (only : Nat → Bool) : Nat → Nat → List Extent → Foot
  | 0, _, es => .ok es
  | n + 1, i, es =>
    match s.readJobVa d asid (foot + 16 * i) 16 with
    | none => .unmapped (foot + 16 * i)
    | some bs =>
      let vb := leNat (bs.take 8)
      let len := leNat ((bs.drop 8).take 4)
      let acc := leNat (bs.drop 12)
      if !only i then footList s d asid foot only n (i + 1) es
      else if acc / 8 ≠ 0 ∨ len = 0 then .fault vb
      else match footRange s d asid i acc (len / 65536 + 2) vb len es with
        | .ok es' => footList s d asid foot only n (i + 1) es'
        | r => r

/-- The extents of a record on a die (R44). -/
def State.translate (s : State) (d asid : Nat) (r : Rec) : Foot :=
  footList s d asid r.foot.toNat (fun _ => true) (fld r.nfoot 0 6) 0 []

/-! ## Damage (R269, R270) -/

/-- The 64 bytes of a damage entry. -/
def Damage.bytes (e : Damage) : List Byte :=
  leBytes 2 e.kind ++ leBytes 1 e.cls ++ leBytes 1 e.valid ++ leBytes 2 e.job ++ leBytes 1 e.asid ++ leBytes 1 0
  ++ leBytes 2 e.unit ++ leBytes 2 e.launch ++ leBytes 2 e.graph ++ leBytes 2 e.phase ++ leBytes 8 e.ptc
  ++ leBytes 8 e.plain ++ leBytes 8 e.len ++ leBytes 8 e.va.toNat ++ leBytes 8 e.tag.toNat
  ++ leBytes 4 (e.seq + e.segid * 65536) ++ leBytes 4 e.place

/-- WHERE of a damage entry: a tile, or tile 0 of a die. -/
def State.damagePlace (s : State) (k : Nat) : Nat := tileNum k + 32 * dieNum (tileDie k) + 256 * s.pkgName (diePkg (tileDie k))

/-- A damage entry goes to the die's firmware ring, and to the job's ring if one is set (R269). -/
def State.damage (s : State) (d : Nat) (e : Damage) : State :=
  let e := { e with plain := s.plainName e.plain }
  let s := s.modDie d fun x => { x with damage := x.damage ++ [e] }
  let dm := (s.jobDie d e.job).dmap
  let n := fld dm 48 8
  let base := fld dm 12 36 * 4096
  let asid := (s.job e.job).asid
  if e.job = 0 ∨ n < 6 ∨ n > 20 then s
  else match s.readJobVa d asid base 32 with
    | none => s
    | some h =>
      let written := leNat (h.take 8)
      let lostN := leNat ((h.drop 8).take 8)
      let readN := leNat (h.drop 24)
      if (written - readN) < 2 ^ n then
        (s.writeJobVa d asid (base + 64 * (1 + written % 2 ^ n)) e.bytes).writeJobVa d asid base (leBytes 8 (written + 1))
      else s.writeJobVa d asid (base + 8) (leBytes 8 (lostN + 1))

/-- The damage entry of a unit on a tile. -/
def State.unitDamage (s : State) (k : Nat) (r : Rec) (kind cls : Nat) : Damage :=
  { kind := kind, cls := cls, job := r.job, asid := (s.job r.job).asid, unit := r.unitId, launch := r.launch, graph := r.graph
    phase := r.phase, ptc := s.ptc (tileDie k), place := s.damagePlace k }

/-! ## Completion queues (R52, R272) -/

def cqLog2N (ctl : W64) : Nat := fld ctl 0 5

/-- The 32 bytes of completion entry n. -/
def CqEntry.bytes (e : CqEntry) (n log2n : Nat) : List Byte :=
  leBytes 4 e.cqtag.toNat ++ leBytes 1 e.status ++ leBytes 1 e.sub ++ leBytes 1 e.slot ++ leBytes 1 0
  ++ leBytes 4 e.done ++ leBytes 4 e.canc ++ leBytes 8 e.ptc ++ leBytes 8 (if n / 2 ^ log2n % 2 = 0 then 1 else 0)

/-- Held entries are written in order while the queue is enabled and has room (R272). -/
def flushCqGo (s : State) (p f : Nat) : List CqEntry → State
  | [] => s.modFunc p f fun x => { x with held := [] }
  | e :: r =>
    let x := s.func p f
    let l := cqLog2N x.cqCtl
    if bit x.cqCtl 17 ∧ x.cqN - x.cqHead.toNat < 2 ^ l then
      let s := s.putHost (fld x.cqBase 12 52 * 4096 + 32 * (x.cqN % 2 ^ l)) (e.bytes x.cqN l)
      flushCqGo (s.modFunc p f fun x => { x with cqN := x.cqN + 1, msix := fld x.cqCtl 18 2 :: x.msix }) p f r
    else s.modFunc p f fun x => { x with held := e :: r }
def State.flushCq (s : State) (p f : Nat) : State := flushCqGo s p f (s.func p f).held

/-- A completion entry (R52). -/
def State.complete (s : State) (p f : Nat) (e : CqEntry) : State :=
  (s.modFunc p f fun x => { x with held := x.held ++ [e] }).flushCq p f

/-! ## Jobs, quotas and partitions (R26, R41, R248) -/

/-- The tiles of a die. -/
def dieTiles (d : Nat) : List Nat := (List.range 32).map fun i => 32 * d + i

def TStatus.isIdle : TStatus → Bool
  | .idle => true
  | _ => false

def Tile.isIdle (t : Tile) : Bool := t.status.isIdle
def Tile.isRunning (t : Tile) : Bool :=
  match t.status with
  | .running => true
  | _ => false

/-- Tiles the job holds on a die (R41). -/
def State.held (s : State) (d j : Nat) : Nat :=
  ((dieTiles d).filter fun k => !(s.tile k).isIdle && (s.jobOf k = j)).length
/-- The job's tile limit on a die (R42). -/
def State.quota (s : State) (d j : Nat) : Nat :=
  let q := (s.jobDie d j).quota
  if q = 0 ∨ q > 32 then 32 else q

/-- Is tile k in the partition of the job's function (R248)? -/
def State.inPartition (s : State) (k j : Nat) : Bool :=
  bit (s.func (diePkg (tileDie k)) (s.job j).fid).quads (8 * dieNum (tileDie k) + tileNum k / 4)

/-- A record's masks admit the tile (R31, R33). -/
def State.admits (s : State) (r : Rec) (k : Nat) : Bool :=
  bit r.dieMask (dieNum (tileDie k)) && bit r.tileMask (tileNum k) && s.inPartition k r.job && (s.die (tileDie k)).powered
  && (tileDie k ∈ (s.job r.job).dies) && !(tileDie k ∈ s.lost)

/-- An idle tile of the die that the record admits, the job being below its quota (R39) and its function not in a
function-level reset (R250). -/
def State.idleFor (s : State) (r : Rec) (d : Nat) : Option Nat :=
  if s.held d r.job < s.quota d r.job ∧ !(s.func (diePkg d) (s.job r.job).fid).flrb then (dieTiles d).find? fun k => (s.tile k).isIdle && s.admits r k else none

/-! ## Ready queues (R35, R37, R54) -/

/-- The unit has left neither its CT nor its tile: a pre-emption can become pending on it (R54). -/
def TStatus.active : TStatus → Bool
  | .running | .cutting (.trap _) | .cutting (.replay _) => true
  | _ => false

/-- A pre-emption becomes pending on each running tile of the die that a ready record of higher priority could use, where
no tile that the record admits is idle (R54). -/
def State.preemptFor (s : State) (d : Nat) (r : Rec) : State :=
  if bit r.flags 5 ∨ (dieTiles d).any (fun k => (s.tile k).isIdle && s.admits r k) then s
  else ((dieTiles d).filter fun k =>
      let t := s.tile k
      t.status.active && t.entry.cr.prio < r.prio && s.admits r k && t.preemptAt.isNone
      && (s.held d r.job - (if t.entry.cr.job = r.job then 1 else 0) < s.quota d r.job)).foldl
    (fun s k => s.modTile k fun t => { t with preemptAt := some (s.ptc d) }) s

/-- Pre-emption is weighed for every record queued on a die (R54). -/
def State.preemptAll (s : State) (d : Nat) : State :=
  (s.die d).queues.foldl (fun s q => q.2.foldl (fun s e => s.preemptFor d e.cr) s) s

/-- The level's queue has no room for another record: the die's own entries and the HBM ring are full (R35). -/
def State.queueFull (s : State) (d p : Nat) : Bool :=
  Config.readyHeld + Tab.get 0 (s.die d).rings p ≤ (Tab.get [] (s.die d).queues p).length

/-- An entry goes to the tail of its level with ENQT the current PTC (R31, R35). -/
def State.enqueue (s : State) (d : Nat) (e : Entry) (keepEnqt : Bool := false) : State :=
  let e := if keepEnqt then e else { e with cr := { e.cr with enqt := BitVec.ofNat 32 (s.ptc d) } }
  (s.modDie d fun x => { x with queues := Tab.set [] x.queues e.cr.prio (Tab.get [] x.queues e.cr.prio ++ [e]) }).preemptFor d e.cr

/-- The smallest number not in use at or above n. -/
def firstFree (used : List Nat) : Nat → Nat → Nat
  | 0, n => n
  | fuel + 1, n => if n ∈ used then firstFree used fuel (n + 1) else n

/-- A free number below `lim`: the opaque choice where it is free, else the lowest (R38). -/
def pickFree (used : List Nat) (lim fresh : Nat) : Nat :=
  let c := Config.freePick fresh % lim
  if c ∈ used then firstFree used (used.length + 1) 0 else c

/-- The dies of a record's DIEMASK in a package, within the job's placement, ascending. -/
def State.maskDies (s : State) (pkg : Nat) (r : Rec) : List Nat :=
  ((List.range 8).map (8 * pkg + ·)).filter fun d => bit r.dieMask (dieNum d) && (d ∈ (s.job r.job).dies) && !(d ∈ s.lost)

/-- The die a record is placed on (R37): `reg` is the registering die, if there is one. -/
def State.placeDie (s : State) (pkg : Nat) (reg : Option Nat) (r : Rec) : Option Nat :=
  let ds := (s.maskDies pkg r).filter fun d => (s.jobDie d r.job).unitsUsed.length < Config.unitIds
  let withIdle := ds.filter fun d => (s.idleFor r d).isSome
  match reg with
  | some d => if d ∈ withIdle then some d else if withIdle ≠ [] then withIdle.head? else
      ds.foldl (fun b x => match b with
        | none => some x
        | some y => if (Tab.get [] (s.die x).queues r.prio).length < (Tab.get [] (s.die y).queues r.prio).length then some x else some y) none
  | none => if withIdle ≠ [] then withIdle.head? else
      ds.foldl (fun b x => match b with
        | none => some x
        | some y => if (Tab.get [] (s.die x).queues r.prio).length < (Tab.get [] (s.die y).queues r.prio).length then some x else some y) none

/-! ## The level table (R26, R27) -/

/-- The parent of a level's entry as a record names it: level and id. -/
def parentOf (r : Rec) (level : Nat) : Option (Nat × Nat) :=
  match level with
  | 1 => if r.graph ≠ 0 then some (2, r.graph) else if r.phase ≠ 0 then some (3, r.phase) else some (4, r.job)
  | 2 => if r.phase ≠ 0 then some (3, r.phase) else some (4, r.job)
  | 3 => some (4, r.job)
  | _ => none

def State.findLevel (s : State) (j level id : Nat) : Option LevelEntry :=
  (s.die (s.homeDie j)).levels.find? fun e => e.job = j && e.level = level && e.id = id

def State.modLevel (s : State) (j level id : Nat) (f : LevelEntry → LevelEntry) : State :=
  s.modDie (s.homeDie j) fun x =>
    { x with levels := x.levels.map fun e => if e.job = j && e.level = level && e.id = id then f e else e }

def State.dropLevel (s : State) (j level id : Nat) : State :=
  s.modDie (s.homeDie j) fun x =>
    { x with levels := x.levels.filter fun e => !(e.job = j && e.level = level && e.id = id) }

/-- Opens the entries a record names above and at a level, each counted in its parent (R26, R27). -/
def openLevel (s : State) (r : Rec) : Nat → Nat → Nat → State
  | 0, _, _ => s
  | fuel + 1, level, id =>
    match s.findLevel r.job level id with
    | some _ => s
    | none =>
      let par := parentOf r level
      let s := match par with
        | some (l, i) => (openLevel s r fuel l i).modLevel r.job l i fun e => { e with count := e.count + 1 }
        | none => s
      s.modDie (s.homeDie r.job) fun x =>
        { x with levels := x.levels ++ [{ job := r.job, level := level, id := id, parent := par }] }

/-- Level entries that a registration would open. -/
def levelsNeeded (s : State) (r : Rec) : Nat → Nat → Nat → Nat
  | 0, _, _ => 0
  | fuel + 1, level, id =>
    match s.findLevel r.job level id with
    | some _ => 0
    | none => 1 + (match parentOf r level with
        | some (l, i) => levelsNeeded s r fuel l i
        | none => 0)

/-- Is the launch's entry, or one above it, cancelled (R30)? -/
def ancestorCancelled (s : State) (j : Nat) : Nat → Nat → Nat → Bool
  | 0, _, _ => false
  | fuel + 1, level, id =>
    match s.findLevel j level id with
    | some e => e.cancelled || (match e.parent with
        | some (l, i) => ancestorCancelled s j fuel l i
        | none => false)
    | none => false

/-- A launch id that no open launch of the job holds (R38). -/
def State.newLaunch (s : State) (j : Nat) : Nat :=
  pickFree ((((s.die (s.homeDie j)).levels.filter fun e => e.job = j && e.level = 1).map fun e => e.id)
    ++ (s.job j).launches.map fun l => l.launch) 65536 s.fresh

/-! ## Named events (R46 to R48) -/

def evKey (j name : Nat) : Nat := j * 65536 + name % 65536
def evMax : Nat := 0xFFFFFFFF

def Event.active (e : Event) : Bool := e.count ≠ 0 || !e.waiters.isEmpty

/-- Overflow blocks in use: one per spilled entry, one per four spilled waiters (R48). -/
def Die.blocksUsed (x : Die) : Nat :=
  (x.events.length - Config.eventEntries) + (x.events.map fun p => (p.2.waiters.length - 16 + 3) / 4).sum
def Die.blocksFree (x : Die) : Nat := fld x.evovfSize 0 32 - x.blocksUsed

/-- Is there room for a new active entry of an event? -/
def State.eventRoom (s : State) (d key : Nat) : Bool :=
  (Tab.find? (s.die d).events key).isSome || (s.die d).events.length < Config.eventEntries || 0 < (s.die d).blocksFree
/-- Is there room for one more waiter of an event? -/
def State.waiterRoom (s : State) (d key : Nat) : Bool :=
  let e := Tab.get {} (s.die d).events key
  s.eventRoom d key && (e.waiters.length < 16 || (e.waiters.length - 16) % 4 ≠ 0 || 0 < (s.die d).blocksFree)

def State.setEvent (s : State) (d key : Nat) (e : Event) : State :=
  s.modDie d fun x => { x with events := if e.active then Tab.put x.events key e else Tab.erase x.events key }

/-! ## Registration of units (R33, R36, R38) -/

/-- One unit of a launch registered: counted, given an id and placed on a die. `none` where no die has a free id. -/
def State.placeUnit (s : State) (pkg : Nat) (reg : Option Nat) (r : Rec) (launch i : Nat) : Option (State × Nat × Entry) :=
  match s.placeDie pkg reg r with
  | none => none
  | some d =>
    let id := pickFree (s.jobDie d r.job).unitsUsed Config.unitIds s.fresh
    let s := s.bump
    let r := { r with launch := launch, unit := BitVec.ofNat 16 (r.evDie * 8192 + id) }
    let s := s.modJobDie d r.job fun x => { x with unitsUsed := id :: x.unitsUsed }
    let s := s.modLevel r.job 1 launch fun e => { e with count := e.count + 1 }
    some (s, d, { cr := r, index := i, die := d })

/-! ## Completion of levels (R26), with the waiters that a completion event releases -/

/-- Waiters whose threshold the count meets leave in wait-list order; the rest stay (R46, R47). -/
def splitWaiters (count : Nat) (ws : List Waiter) : List Waiter × List Waiter :=
  ws.partition fun w => match w with
    | .unit _ thr => decide (thr ≤ count)
    | .launch _ thr => decide (thr ≤ count)

/-- A released waiter: a unit goes to the tail of its level on the die it was placed on (R37, R47), a launch goes on
registering. -/
def State.release (s : State) (w : Waiter) : State :=
  match w with
  | .unit e _ => s.enqueue e.die e
  | .launch key _ =>
    { s with jobs := s.jobs.map fun p =>
        (p.1, { p.2 with launches := p.2.launches.map fun l => if l.launch + 65536 * p.1 = key then { l with waiting := false } else l }) }

/-- The table of die d can take a signal: it has the entry, an entry is free, or the pending-signal buffer has room
(R48). -/
def State.signalRoom (s : State) (d j name n : Nat) : Bool :=
  n = 0 || s.eventRoom d (evKey j name) || (s.die d).pending.length < Config.pendingSignals

/-- n is added to an event's count at its die, and the waiters it meets leave (R46, R47). A signal that needs an
entry when none is free waits in the pending-signal buffer (R48). -/
def State.signal (s : State) (d j name n : Nat) : State :=
  let key := evKey j name
  if n ≠ 0 ∧ !s.eventRoom d key then
    s.modDie d fun x => { x with pending := x.pending ++ [{ job := j, name := name, n := n }] }
  else
    let e := Tab.get {} (s.die d).events key
    let c := min (e.count + n) evMax
    let (go, stay) := splitWaiters c e.waiters
    go.foldl (fun s w => s.release w) (s.setEvent d key { count := c, waiters := stay })

/-- The CQ entry of a host launch that completes (R52). -/
def State.hostDone (s : State) (e : LevelEntry) : State :=
  match e.host with
  | some (p, f, slot, tag, true) =>
    s.complete p f
      { cqtag := tag, status := 0, sub := 0, slot := slot, done := e.done, canc := e.canc, ptc := s.hubPtc p }
  | _ => s

/-! ## The end of a job (R25, R208) -/

def State.setSeq (s : State) (d idx : Nat) (q : Seqn) : State := s.modDie d fun x => { x with seqs := Tab.put x.seqs idx q }

/-- The generation a descriptor holds; before its first drop, what the part gives it (R194). -/
def Seqn.genOf (q : Seqn) (d idx : Nat) : BitVec 16 := q.gen.getD (Config.firstGen d idx)

/-- A block-table entry as its 8 bytes hold it (R205). -/
def BlockEntry.ofWord (v : Nat) : BlockEntry := { v := nfld v 63 1 = 1, sh := nfld v 62 1 = 1, die := nfld v 24 3, block := nfld v 0 24 }
/-- The 8 bytes of a block-table entry. -/
def BlockEntry.word (e : BlockEntry) : Nat :=
  (if e.v then 2 ^ 63 else 0) + (if e.sh then 2 ^ 62 else 0) + e.die * 2 ^ 24 + e.block

/-- Slots of one block (R195). -/
def Seqn.spb (q : Seqn) : Nat := 2 ^ (16 - q.slotLog2)
/-- Entries of the block table (R196). -/
def Seqn.blocks (q : Seqn) : Nat := (q.cap + q.spb - 1) / q.spb

/-- Entry b of a sequence's block table, read in the home die's HBM (R205). -/
def State.btEntry (s : State) (q : Seqn) (b : Nat) : BlockEntry := BlockEntry.ofWord (readLe s (q.bt + 8 * b) 8)
/-- Entry b of a sequence's block table is written by the home. -/
def State.setBt (s : State) (q : Seqn) (b : Nat) (e : BlockEntry) : State := s.putBytes (q.bt + 8 * b) (leBytes 8 e.word)
/-- The block numbers whose entry holds a block: V is in the entry's last byte, so that byte is listed. -/
def State.btUsed (s : State) (q : Seqn) : List Nat :=
  ((s.mem.filter fun c => q.bt ≤ c.1 && c.1 < q.bt + 8 * q.blocks && (c.1 - q.bt) % 8 = 7).map fun c => (c.1 - q.bt) / 8).filter
    fun b => (s.btEntry q b).v

/-- A block's reference count falls by one; at zero the block goes back to its pool (R208). -/
def State.dropBlock (s : State) (d job : Nat) (e : BlockEntry) : State :=
  let o := 8 * diePkg d + e.die
  let r := Tab.get { target := 0, refs := 0 } (s.die o).resolver e.block
  if !e.v ∨ o ∈ s.lost then s
  else if r.refs ≤ 1 then
    (s.modDie o fun x => { x with resolver := Tab.put x.resolver e.block { r with refs := 0 } }).modJobDie o job
      fun x => { x with pool := x.pool ++ [e.block] }
  else s.modDie o fun x => { x with resolver := Tab.put x.resolver e.block { r with refs := r.refs - 1 } }

/-- The descriptor is freed and GEN advances (R208 steps 2 and 3). -/
def State.freeSeq (s : State) (d idx : Nat) : State :=
  let q := Tab.get {} (s.die d).seqs idx
  let s := (s.btUsed q).foldl (fun s b => s.dropBlock d q.job (s.btEntry q b)) s
  s.setSeq d idx { gen := some (q.genOf d idx + 1) }

/-- A completed job's level entries, events and sequences are freed (R25, R27, R208). The blocks of a sequence whose home
is lost keep their counts (R210). -/
def State.endJob (s : State) (j : Nat) : State :=
  let s := ((s.job j).dies.filter fun d => !(d ∈ s.lost)).foldl (fun s d =>
    let s := ((s.die d).seqs.filter fun q => q.2.live && q.2.job = j).foldl (fun s q => s.freeSeq d q.1) s
    s.modDie d fun x =>
      { x with events := x.events.filter fun e => e.1 / 65536 ≠ j, pending := x.pending.filter fun p => p.job ≠ j
               levels := x.levels.filter fun e => e.job ≠ j }) s
  s.setJob j { s.job j with placed := false, closed := false, cancelled := false, launches := [] }

/-- An entry that is closed with no outstanding child completes: event, parent, freed (R26). Where its event's table cannot
take the signal, the entry waits for room (R48). -/
def levelCheck (s : State) (j : Nat) : Nat → Nat → Nat → State
  | 0, _, _ => s
  | fuel + 1, level, id =>
    match s.findLevel j level id with
    | none => s
    | some e =>
      if e.closed && e.count = 0 && (match e.event with
          | some (d, name) => d ∈ s.lost || s.signalRoom d j name 1
          | none => true) then
        let s := match e.event with
          | some (d, name) => s.signal d j name 1
          | none => s
        let s := (s.dropLevel j level id).hostDone e
        if level = 4 then s.endJob j
        else match e.parent with
        | some (l, i) =>
          levelCheck (s.modLevel j l i fun p =>
            if e.cancelled then { p with count := p.count - 1, canc := p.canc + 1 }
            else { p with count := p.count - 1, done := p.done + 1 }) j fuel l i
        | none => s
      else s

/-- A unit of a launch completes or is cancelled (R26, R30). -/
def State.launchChild (s : State) (r : Rec) (cancelled : Bool) : State :=
  levelCheck (s.modLevel r.job 1 r.launch fun e =>
    if cancelled then { e with count := e.count - 1, canc := e.canc + 1 }
    else { e with count := e.count - 1, done := e.done + 1 }) r.job 5 1 r.launch

/-- A launch is closed: no further unit will be registered (R25). -/
def State.closeLaunch (s : State) (j launch : Nat) : State :=
  levelCheck (s.modLevel j 1 launch fun e => { e with closed := true }) j 5 1 launch

/-! ## Completion actions (R28, R29) -/

/-- Grants of a unit leave the registers at their homes (R201). -/
def State.dropGrants (s : State) (k unit : Nat) (gs : Tab Grant) : State :=
  gs.foldl (fun s p =>
    match s.seqHome (diePkg (tileDie k)) p.2.handle with
    | none => s
    | some d => s.modDie d fun x =>
      { x with seqs := x.seqs.map fun q => (q.1, { q.2 with grants := q.2.grants.filter fun g => !(g.tile = k && g.num = p.1 && g.unit = unit) }) }) s

/-- A tile is freed: its grants are deregistered, its extents and unit state are gone (R41, R201); the tile and the quota
that it frees are weighed for the records queued (R54). Registers stay as they are until the next dispatch (R34). -/
def State.freeTile (s : State) (k : Nat) : State :=
  let s := s.dropGrants k (s.tile k).entry.cr.unitId (s.tile k).grants
  (s.modTile k fun t =>
    { t with status := .idle, entry := {}, cancelAt := none, preemptAt := none, cancelled := false, grants := []
             exts := [], pins := [], started := [], vq := [], mq := [], cq := [], hist := [], journal := [], storeQ := []
             cutM := none, cutC := none, cutV := none, vs := none, takers := [], wait := none, pfx := none, phase := none
             loads := [], reports := [], seg := none, streams := [] }).preemptAll (tileDie k)

/-- Action 4: the launch decrement; and the unit's id is freed (R38). To a home on another die the decrement goes as a
scheduler message (R215). -/
def State.lastAction (s : State) (d : Nat) (e : Entry) (cancelled : Bool) : State :=
  let s := s.modJobDie d e.cr.job fun x => { x with unitsUsed := x.unitsUsed.filter (· ≠ e.cr.unitId) }
  let home := s.homeDie e.cr.job
  if home = d then s.launchChild e.cr cancelled
  else if home ∈ (s.die d).unreachable then s
  else
    let q : Request :=
      { tile := 32 * d, fid := (s.job e.cr.job).fid, job := e.cr.job, src := d, dst := home, op := .count e.cr cancelled, sink := .counted
        addr := 0, deadline := 0, logged := false, crec := e.cr, sent := s.ptc d }
    { s with nextId := s.nextId + 1, reqs := Tab.put s.reqs s.nextId q }

/-- Actions 3 and 4 of a unit that completes: the event signal and the launch decrement. A signal to another die's table
goes there as a message, and one that finds its table and the pending-signal buffer full waits there; the unit holds its
tile meanwhile (R48). A record that holds no tile has `held` false. -/
def State.finishActions (s : State) (d k : Nat) (held : Bool) (e : Entry) (cancelled : Bool) : State :=
  let r := e.cr
  let ed := 8 * diePkg d + r.evDie
  let free (s : State) : State := if held then s.freeTile k else s
  if !bit r.flags 0 then (free s).lastAction d e cancelled
  else if ed ∈ (s.die d).unreachable then
    (free (s.damage d { s.unitDamage k r 6 Cls.targetLost with valid := 1, va := w64 (r.evDie * 65536 + r.event) })).lastAction d e cancelled
  else if ed = d ∧ s.signalRoom d r.job r.event 1 then ((free s).signal d r.job r.event 1).lastAction d e cancelled
  else
    let q : Request :=
      { tile := k, fid := (s.job r.job).fid, job := r.job, src := d, dst := ed, op := .evSignal ed r.job r.event 1 false
        sink := .signalled e cancelled held, addr := w64 (r.evDie * 65536 + r.event), deadline := 0, logged := false, kept := ed = d, crec := r, sent := s.ptc d }
    let id := s.nextId
    let s := { s with nextId := id + 1, reqs := Tab.put s.reqs id q }
    if held then s.modTile k fun t => { t with status := .retiring id } else s

/-- The join decrement, action 2, at its counter's home: a wrapping 64-bit atomic, or the class of the fault that the home
reports (R29, R249). -/
def State.joinAt (s : State) (d fid plain : Nat) : Except Nat State :=
  match s.place d plain 8 with
  | .mem q =>
    if s.foreign fid q then .error Cls.extent
    else if (s.badSector q 8).isSome then .error Cls.uncorrectable
    else .ok (s.writeAtomic q (leBytes 8 (readLe s q 8 + (2 ^ 64 - 1))))
  | .lost => .error Cls.targetLost
  | _ => .error Cls.extent

/-- Where the page tables as they stand put the join counter of a record. -/
inductive JoinPlace where
  | acc (a : Acc)
  /-- its page is MIGRATING (R241) -/
  | migrating
  /-- no W range of the footprint holds it -/
  | none
  deriving DecidableEq, Repr

/-- The ranges of a footprint list from entry i on that hold 8 bytes at `va` and allow W; a range that cannot be read or is
malformed holds nothing, and the other ranges count all the same (R43, R45). -/
def State.inWRange (s : State) (d asid foot va : Nat) : Nat → Nat → Bool
  | 0, _ => false
  | n + 1, i =>
    (match s.readJobVa d asid (foot + 16 * i) 16 with
      | some bs =>
        let vb := leNat (bs.take 8)
        let acc := leNat (bs.drop 12)
        acc / 8 = 0 && Walk.bitAt acc 1 && vb ≤ va && va + 8 ≤ vb + leNat ((bs.drop 8).take 4)
      | none => false) || State.inWRange s d asid foot va n (i + 1)

/-- The join counter's place through the page tables as they stand, for a record that holds no usable extent over it
(R28, R30, R45). -/
def State.joinAcc (s : State) (d : Nat) (r : Rec) : JoinPlace :=
  let va := r.join.toNat
  let asid := (s.job r.job).asid
  if !s.inWRange d asid r.foot.toNat va (fld r.nfoot 0 6) 0 then .none
  else match s.walk d asid va with
    | .unmapped => .none
    | .page vb p _ b =>
      if Walk.bitAt b 7 then .migrating
      else if Walk.bitAt b 2 then .acc { plain := p + (va - vb), fallow := Walk.bitAt b 5 } else .none

def JoinPlace.acc? : JoinPlace → Option Acc
  | .acc a => some a
  | _ => Option.none

/-- The join decrement of a record must wait until the page of its counter has moved (R44, R241). -/
def State.joinMoves (s : State) (d : Nat) (r : Rec) : Bool := bit r.flags 1 && s.joinAcc d r = .migrating

/-- Action 2 of a unit or a record on die d, from the counter's place, where its home is reached at once: dropped on a
fallow page (R242), abandoned with a damage entry of kind 6 where it cannot be performed (R29). -/
def State.joinAction (s : State) (d k : Nat) (r : Rec) (a : Option Acc) : State :=
  let failed (cls : Nat) : State := s.damage d { s.unitDamage k r 6 cls with valid := 1, va := r.join }
  match a with
  | none => failed Cls.extent
  | some a =>
    if a.fallow then s
    else match s.joinAt d (s.job r.job).fid a.plain with
      | .ok s => s
      | .error c => failed c

/-- The saved unit of an entry, where a context frame holds it. -/
def State.savedOf (s : State) (d : Nat) (e : Entry) : Option Saved :=
  e.frame.bind fun n => Tab.find? (s.jobDie d e.cr.job).saved n

/-- A record may be discarded: nothing of a unit saved in a frame is still on its way, so that its writes are released before
its join (R28), and the page of its join counter does not move. -/
def State.discardable (s : State) (d : Nat) (e : Entry) : Bool :=
  !s.joinMoves d e.cr && match s.savedOf d e with
    | some v => v.tile.posted.isEmpty && v.tile.started.isEmpty
    | none => true

/-- A record waits outside the queues: its translation meets a page that is MIGRATING, or the field firmware is asked to
supply a page (R44). -/
def State.setAside (s : State) (d : Nat) (e : Entry) (asked : Option Nat) : State :=
  let s := match asked with
    | some va => s.tell d 3 e.cr.job va
    | none => s
  { s with nextId := s.nextId + 1 }.modDie d fun x => { x with aside := Tab.put x.aside s.nextId { entry := e, asked := asked } }

/-- A record discarded by a cancel performs its completion actions and is counted cancelled (R30). It holds no tile:
WHERE in a damage entry of it names tile 0 of its die (DESIGN CHOICE, log 71). One whose join counter's page is MIGRATING
waits as R44 sets a record aside, and is discarded once the page has moved (DESIGN CHOICE, log 71). -/
def State.discardRecord (s : State) (d : Nat) (e : Entry) : State :=
  let r := e.cr
  if s.joinMoves d r then s.setAside d e none
  else
  let s := if bit r.flags 1 then s.joinAction d (32 * d) r (s.joinAcc d r).acc? else s
  let s := match s.savedOf d e with
    | some v => s.dropGrants v.key r.unitId v.tile.grants
    | none => s
  let s := match e.frame with
    | some n => s.modJobDie d r.job fun x => { x with saved := Tab.erase x.saved n }
    | none => s
  s.finishActions d (32 * d) false e true

/-- A unit of a cancelled launch whose record names no die but lost ones is counted and discarded without a place (R30,
R247); its completion actions are made from the lowest live die of the package, with a unit id that no unit there holds (log
101). -/
def State.discardUnplaced (s : State) (pkg : Nat) (r : Rec) (launch i : Nat) : Option State :=
  match (pkgDies pkg).find? fun d => !(d ∈ s.lost) && (s.jobDie d r.job).unitsUsed.length < Config.unitIds with
  | none => none
  | some d =>
    let id := pickFree (s.jobDie d r.job).unitsUsed Config.unitIds s.fresh
    let r := { r with launch := launch, unit := BitVec.ofNat 16 (r.evDie * 8192 + id), flags := r.flags ||| 0x20 }
    some ((s.bump.modLevel r.job 1 launch fun e => { e with count := e.count + 1 }).discardRecord d { cr := r, index := i, die := d })

/-- A unit is registered: enqueued, or discarded where its launch or a level above it is cancelled (R30, R36, R38). None
where no die has a free id, or the queue it would join is full (R35). -/
def State.registerUnit (s : State) (pkg : Nat) (reg : Option Nat) (r : Rec) (launch i : Nat) : Option State :=
  match s.placeUnit pkg reg r launch i with
  | none =>
    if (s.maskDies pkg r).isEmpty ∧ ancestorCancelled s r.job 5 1 launch then s.discardUnplaced pkg r launch i else none
  | some (u, d, e) =>
    if ancestorCancelled u r.job 5 1 launch then some (u.discardRecord d { e with cr := { e.cr with flags := e.cr.flags ||| 0x20 } })
    else if s.queueFull d r.prio then none
    else some (u.enqueue d e)

/-- A unit that has retired performs its completion actions in order and frees its tile (R28). A join counter on
another die is decremented by a request; the tile is held until it ends. Where the counter's extent has been revoked,
the counter is found through the page tables as they stand (DESIGN CHOICE, log 72). -/
def State.retireUnit (s : State) (k : Nat) (cancelled : Bool) : State :=
  let t := s.tile k
  let r := t.entry.cr
  let d := tileDie k
  let s := s.modTile k fun t => { t with cancelled := cancelled }
  let finish (s : State) : State := s.finishActions d k true (s.tile k).entry cancelled
  if !bit r.flags 1 then finish s
  else
    let a : Option Acc := match t.exts.find? fun e => e.covers r.join.toNat 8 && e.w with
      | some e => if e.revoked then (s.joinAcc d r).acc? else some { plain := e.plain + (r.join.toNat - e.vbase), fallow := e.fallow }
      | none => none
    match a with
    | some a =>
      if a.fallow ∨ plainDie a.plain = d ∨ plainDie a.plain ∈ (s.die d).unreachable then finish (s.joinAction d k r (some a))
      else
        let (s, id) := s.send k (plainDie a.plain) (.join a.plain) .join r.join
        s.modTile k fun t => { t with status := .retiring id }
    | none => finish (s.joinAction d k r none)

end Sys2Proof.Machine
end

