-- ==== Sys2Proof/Machine/Frame.lean ====
section
/-! DEFINITION. The bytes of a trap record and of a context frame, and the frame's place in the context pool
(12_traps_faults.md, R255, R263). The machine keeps a frame as the data `Saved`, whose bytes it also puts into memory
(log 39). -/

namespace Sys2Proof.Machine

/-! ## The commands that have started (R254, R412) -/

/-- LS as a record gives it. -/
def Started.last (l : Started) : BitVec 16 := l.since.headD 0xFFFF#16
/-- The number up to which a command that is issued again is skipped. -/
def Started.skip (l : Started) : BitVec 16 := l.since.headD (l.before.getD 0xFFFF#16)
/-- A command starts. -/
def Started.push (l : Started) (n : BitVec 16) : Started := { l with since := n :: l.since }
/-- A started command is treated as discarded. -/
def Started.drop (l : Started) (n : BitVec 16) : Started := { l with since := l.since.erase n }
/-- A command completes: older ones play no part any longer. -/
def Started.trim (l : Started) (n : BitVec 16) : Started :=
  if n ∈ l.since then { l with since := l.since.takeWhile (· ≠ n) ++ [n] } else l
/-- The unit resumes from a frame: no command has started since, and none that had started runs again (log 84). -/
def Started.resume (l : Started) : Started := { before := some l.skip }

/-! ## The trap record (R255) -/

/-- Stage mask of the pass a table is in (R70). -/
def stageMask (ns n pass : Nat) : Nat :=
  ((List.range ns).map fun st => if st ≤ pass ∧ pass - st < n then 2 ^ st else 0).sum

/-- The cut VRUN, where VQ's slot holds one. -/
def Tile.cutRun (t : Tile) : Option VsRun := t.cutV.filter fun v => v.cmd.kind == CmdKind.vrun
/-- Queues whose slot holds a cut (R253). -/
def Tile.cuts (t : Tile) : Nat := (if t.cutV.isSome then 1 else 0) + (if t.cutM.isSome then 1 else 0) + if t.cutC.isSome then 1 else 0

def Tile.stat (t : Tile) (i : TrapInfo) : Nat :=
  (if i.late then 1 else 0) + (if 2 ≤ t.cuts then 2 else 0) + (if t.cutRun.isSome then 4 else 0) + (if i.frc then 8 else 0)
  + (if t.cutM.isSome then 16 else 0) + (if t.cutC.isSome then 32 else 0)

/-- The 128 bytes of the trap record. -/
def Tile.record (t : Tile) (i : TrapInfo) : List Byte :=
  let vs (f : VsRun → Nat) : Nat := (t.cutRun.map f).getD 0
  leBytes 8 i.pc.toNat ++ leBytes 8 i.faddr.toNat ++ leBytes 1 i.cls ++ leBytes 1 i.src ++ leBytes 1 i.objk ++ leBytes 1 i.obj
  ++ leBytes 2 i.atag.toNat ++ leBytes 2 (t.stat i)
  ++ leBytes 2 t.lsV.last.toNat ++ leBytes 2 t.lsM.last.toNat ++ leBytes 2 t.lsC.last.toNat ++ leBytes 2 i.wseq.toNat
  ++ leBytes 2 (i.next.getD 0 0).toNat ++ leBytes 2 (i.next.getD 1 0).toNat ++ leBytes 2 (i.next.getD 2 0).toNat
  ++ leBytes 2 i.lane ++ leBytes 8 i.clause.toNat
  ++ leBytes 2 (vs fun v => v.upc) ++ leBytes 1 (vs fun v => stageMask v.ns v.n v.pass) ++ leBytes 1 (vs fun v => v.rb)
  ++ leBytes 4 (vs fun v => v.pass)
  ++ (List.range 4).flatMap (fun l => leBytes 2 (vs fun v => ((v.levels.getD l { count := 0, start := 0 }).count)))
  ++ leBytes 4 i.ly.toNat
  ++ leBytes 2 ((t.cutM.map fun c => c.seq.toNat).getD 0) ++ leBytes 1 ((t.cutM.map fun c => c.chunk).getD 0) ++ leBytes 1 0
  ++ leBytes 2 ((t.cutC.map fun c => c.seq.toNat).getD 0) ++ leBytes 6 0
  ++ leBytes 8 ((t.cutC.map fun c => c.elem).getD 0) ++ leBytes 8 i.ptc
  ++ leBytes 8 (t.gReg 1).toNat ++ leBytes 8 (t.gReg 2).toNat ++ leBytes 8 (t.gReg 3).toNat ++ leBytes 8 (t.gReg 4).toNat

/-! ## Context frames (R263) -/

/-- Byte `i` of a value of `len` bytes, little-endian; 0 above it. -/
def leByte (len v i : Nat) : Byte := if i < len then BitVec.ofNat 8 (v / 2 ^ (8 * i)) else 0

/-- Byte `i` of the 64-byte image of a map (R154). -/
def TMap.imageByte (m : TMap) (i : Nat) : Byte :=
  (leBytes 8 m.base.toNat ++ leBytes 4 m.extC.toNat ++ leBytes 4 m.extX.toNat ++ leBytes 4 m.extY.toNat ++ leBytes 4 m.extT.toNat
    ++ leBytes 4 m.strC.toNat ++ leBytes 4 m.strX.toNat ++ leBytes 4 m.strY.toNat ++ leBytes 4 m.strT.toNat
    ++ leBytes 8 m.index.toNat ++ leBytes 4 m.fmt.toNat ++ leBytes 4 m.ly.toNat ++ leBytes 4 m.ibound.toNat).getD i 0

/-- Byte `i` of the 64-byte record that holds an extraction pattern (R165). -/
def XPattern.imageByte (p : XPattern) (i : Nat) : Byte :=
  (leBytes 1 p.period ++ leBytes 1 p.nf ++ leBytes 1 p.ofmt ++ leBytes 5 0
    ++ p.fields.flatMap fun x => leBytes 2 (x.shift + 128 * (x.width - 1) + if x.sx then 4096 else 0)).getD i 0

/-- The header of a frame. -/
def Saved.headByte (v : Saved) (i : Nat) : Byte :=
  (leBytes 4 0x4D524643 ++ leBytes 2 1 ++ leBytes 2 ((if v.trap.isSome || v.record.isSome then 1 else 0) + if v.tile.inh then 2 else 0)
    ++ leBytes 8 (v.tile.asid % 256 + 65536 * (v.tile.entry.cr.unit.toNat % 8192)) ++ leBytes 8 v.ptc ++ leBytes 8 v.self.toNat
    ++ leBytes 8 v.tile.pc.toNat ++ leBytes 8 v.lflags).getD i 0

/-- Byte `i` of a 5-bit tag plane, in element order. -/
def tagPlaneByte (m : Tab VElem) (i : Nat) : Byte :=
  BitVec.ofNat 8 (((List.range 8).map fun b =>
    if (Tab.get {} m ((8 * i + b) / 5)).tag.getLsbD ((8 * i + b) % 5) then 2 ^ b else 0).sum)

/-- Byte `off` of a frame (R263). Within the cut commands' images, the reference of the phase snapshot, a grant, and a stream
record above its map, the spec gives no layout, and those bytes are free values. -/
def Saved.frameByte (v : Saved) (off : Nat) : Byte :=
  let t := v.tile
  let vs (f : VsRun → Nat) : Nat := (t.cutRun.map f).getD 0
  let row (n : Nat) : AccRow := Tab.get {} t.rows n
  if off < 0x100 then v.headByte off
  else if off < 0x180 then match v.trap with
    | some i => (t.record i).getD (off - 0x100) 0
    | none => (v.record.map fun bs => bs.getD (off - 0x100) 0).getD 0
  else if off < 0x200 then Config.freeByte off
  else if off < 0x400 then leByte 8 (t.gReg ((off - 0x200) / 8)).toNat (off % 8)
  else if off < 0x480 then leByte 4 (t.fReg ((off - 0x400) / 4)).val.toNat (off % 4)
  else if off < 0x4A0 then (t.fReg (off - 0x480)).cnt.setWidth 8
  else if off < 0x4C0 then
    leByte 8 ([t.clause.toNat, t.fpc.toNat, t.waitCap.toNat, t.regionState.toNat].getD ((off - 0x4A0) / 8) 0) (off % 8)
  else if off < 0x4C8 then leByte 1 t.q.toNat (off - 0x4C0)
  else if off < 0x4D0 then leByte 1 ((if t.inh then 1 else 0) + if t.phase.isSome then 2 else 0) (off - 0x4C8)
  else if off < 0x4D8 then leByte 8 t.bufph.toNat (off % 8)
  else if off < 0x500 then Config.freeByte off
  else if off < 0x900 then (t.dReg ((off - 0x500) / 64)).imageByte (off % 64)
  else if off < 0x980 then leByte 2 (Tab.get 0 t.tokens ((off - 0x900) / 2)) (off % 2)
  else if off < 0x9C0 then leByte 4 (Tab.get {} t.z ((off - 0x980) / 4)).val.toNat (off % 4)
  else if off < 0x9D0 then (Tab.get {} t.z (off - 0x9C0)).tag.setWidth 8
  else if off < 0x9E0 then leByte 2 (Tab.get 0 t.ix ((off - 0x9D0) / 2)).toNat (off % 2)
  else if off < 0xA20 then leByte 8 (t.kGet ((off - 0x9E0) / 8)).toNat (off % 8)
  else if off < 0xA30 then
    (leBytes 2 (vs fun x => x.upc) ++ leBytes 1 (vs fun x => stageMask x.ns x.n x.pass) ++ leBytes 1 (vs fun x => x.rb)
      ++ leBytes 4 (vs fun x => x.pass)
      ++ (List.range 4).flatMap fun l => leBytes 2 (vs fun x => (x.levels.getD l { count := 0, start := 0 }).count)).getD (off - 0xA20) 0
  else if off < 0xA38 then leByte 2 t.vbase.toNat (off - 0xA30)
  else if off < 0xA40 then leByte 2 (vs fun x => x.body - 2) (off - 0xA38)
  else if off < 0xAC0 then Config.freeByte off
  else if off < 0xCC0 then
    let r := row ((off - 0xAC0) / 4)
    leByte 4 ((if r.inx then 2 ^ 31 else 0) + r.lost) (off % 4)
  else if off < 0xEC0 then
    let r := row ((off - 0xCC0) / 4)
    leByte 2 ((if r.ovf then 1 else 0) + (if r.inv then 2 else 0) + 256 * r.floor) (off % 4)
  else if off < 0xEE0 then Tab.get 255 t.afloor (off - 0xEC0)
  else if off < 0xF00 then leByte 2 (t.bfmt0.toNat + 256 * t.bfmt1.toNat) (off - 0xEE0)
  else if off < 0x1700 then
    if (off - 0xF00) % 128 < 64 then (Tab.get {} t.streams ((off - 0xF00) / 128)).map.imageByte (off % 64) else Config.freeByte off
  else if off < 0x1900 then (Tab.get {} t.pats ((off - 0x1700) / 64)).imageByte (off % 64)
  else if off < 0x1D00 then
    BitVec.ofNat 8 ((Tab.get 0 t.swz (2 * (off - 0x1900))).toNat + 16 * (Tab.get 0 t.swz (2 * (off - 0x1900) + 1)).toNat)
  else if off < 0x2000 then 0
  else if off < 0x12000 then leByte 4 (Tab.get 0 t.steps ((off - 0x2000) / 4)).toNat (off % 4)
  else if off < 0x14000 then
    BitVec.ofNat 8 ((Tab.get 0 t.tags (2 * (off - 0x12000))).toNat + 16 * (Tab.get 0 t.tags (2 * (off - 0x12000) + 1)).toNat)
  else if off < 0x54000 then leByte 4 (Tab.get {} t.m ((off - 0x14000) / 4)).val.toNat (off % 4)
  else if off < 0x5E000 then tagPlaneByte t.m (off - 0x54000)
  else if off < 0x9E000 then Tab.get 0 t.b (off - 0x5E000)
  else if off < 0xEE000 then leByte 10 (Tab.get 0 t.acc ((off - 0x9E000) / 10)).toNat ((off - 0x9E000) % 10)
  else if off < 0xF0000 then 0
  else if off < 0x4F0000 then Tab.get 0 v.slice (off - 0xF0000)
  else 0

/-- Bytes of a context frame (R263). -/
def frameLen : Nat := 0x4F0000

/-- The frame's bytes in memory: every byte below the slice, and the slice's bytes that are not zero. -/
def State.putFrame (s : State) (base : Nat) (v : Saved) : State :=
  let s := (List.range 0xF0000).foldl (fun s i => if v.frameByte i = 0 then s else s.putByte (base + i) (v.frameByte i)) (s.zeroRange base frameLen)
  v.slice.foldl (fun s c => s.putByte (base + 0xF0000 + c.1) c.2) s

/-- Frame n of a job's pool on a die takes the save `v` (R56, R263). -/
def State.setFrame (s : State) (d job n : Nat) (v : Saved) : State :=
  (s.modJobDie d job fun x => { x with saved := Tab.put x.saved n v }).putFrame ((s.jobDie d job).frameBase + n * frameLen) v

end Sys2Proof.Machine
end

