-- ==== Sys2Proof/Machine/Ops.lean ====
section
/-! DEFINITION. The shared operations of a tile: tokens, the store queue and the journal's commit, taking a fault and
entering the handler, and the return from it (03_tile_engines.md, 12_traps_faults.md). -/

namespace Sys2Proof.Machine

/-! ## Tile tokens (R66, R67) -/

def Tile.token (t : Tile) (n : Nat) : Nat := Tab.get 0 t.tokens n

/-- A queued command is marked as having its gate. -/
def markGate (pos : Nat) (cs : List Cmd) : List Cmd :=
  cs.map fun c => if c.pos = pos then { c with gateTaken := true, gateSince := none } else c

/-- One taker is served: the CT goes on past its TOKWAIT, the VS's VWAIT is granted, a command has its gate. -/
def Tile.serve (t : Tile) (dcc : Nat) (w : Taker) : Tile :=
  match w with
  | .ct _ => t.retire dcc
  | .vs _ => { t with vs := t.vs.map fun v => { v with granted := true } }
  | .gate pos => { t with vq := markGate pos t.vq, mq := markGate pos t.mq, cq := markGate pos t.cq }

def Taker.amount : Taker → Nat
  | .ct n => n
  | .vs n => n
  | .gate _ => 1

/-- What has been taken from token n in the cycle `dcc` (R67). -/
def Tile.takenNow (t : Tile) (dcc n : Nat) : Nat :=
  match Tab.find? t.took n with
  | some x => if x.1 = dcc then x.2 else 0
  | none => 0
/-- A take that is met. -/
def Tile.take (t : Tile) (dcc n amount : Nat) : Tile :=
  { t with tokens := Tab.set 0 t.tokens n (t.token n - amount), took := Tab.put t.took n (dcc, t.takenNow dcc n + amount) }

/-- Waiting takers are served strictly in arrival order; one that cannot be met blocks the later ones (R67). -/
def serveTakers (dcc n : Nat) : List Taker → Tile → Tile
  | [], t => { t with takers := Tab.set [] t.takers n [] }
  | w :: r, t =>
    if w.amount ≤ t.token n then
      serveTakers dcc n r ((t.take dcc n w.amount).serve dcc w)
    else { t with takers := Tab.set [] t.takers n (w :: r) }

/-- A signal of `amount` on token n: the count saturates at 0xFFFF (R66), before what has been taken in the same cycle
(R67). -/
def Tile.signalToken (t : Tile) (dcc n amount : Nat) : Tile :=
  serveTakers dcc n (Tab.get [] t.takers n)
    { t with tokens := Tab.set 0 t.tokens n (min (t.token n + t.takenNow dcc n + amount) 0xFFFF - t.takenNow dcc n) }

def State.signalToken (s : State) (k n amount : Nat) : State :=
  s.modTile k fun t => t.signalToken (s.dcc (tileDie k)) n amount

/-- A take that can be met at once: no taker waits before it and the count is enough (R67). -/
def Tile.canTake (t : Tile) (n amount : Nat) : Bool := (Tab.get [] t.takers n).isEmpty && amount ≤ t.token n
def Tile.addTaker (t : Tile) (n : Nat) (w : Taker) : Tile :=
  { t with takers := Tab.set [] t.takers n (Tab.get [] t.takers n ++ [w]) }
/-- Takers of one kind leave the lists, and those that now come first are served (R67). -/
def Tile.dropTakers (t : Tile) (dcc : Nat) (p : Taker → Bool) : Tile :=
  let u : Tile := { t with takers := (t.takers.map fun x => (x.1, x.2.filter fun w => !p w)).filter fun x => !x.2.isEmpty }
  (Tab.keys u.takers).foldl (fun t n => serveTakers dcc n (Tab.get [] t.takers n) t) u

/-! ## The store queue and the journal (R59, R179) -/

/-- One entry commits: a store enters the store queue, a token signal is made, flags join FPC (R59, R79). -/
def Tile.commitEntry (t : Tile) (dcc : Nat) (e : JEntry) : Tile :=
  let t := { t with fpc := t.fpc ||| BitVec.ofNat 64 e.flags }
  match e.kind with
  | .store va p bs g => { t with storeQ := t.storeQ ++ [{ va := va, plain := p, bytes := bs, grant := g, pos := e.pos }] }
  | .tok n a => t.signalToken dcc n a
  | _ => t

/-- Can the oldest entry leave: a release once every earlier store has been performed, a store where the store queue
has room (R179, R183)? -/
def Tile.entryLeaves (t : Tile) (e : JEntry) : Bool :=
  (!e.rel || (t.storeQ.isEmpty && t.posted.isEmpty && !t.reports.any fun r => !r.leg)) &&
  (match e.kind with
   | .store _ _ _ _ => t.storeQ.length < Config.storeQueueSize
   | _ => true)

/-- Entries older than every unstarted command commit in program order (R59). -/
def commitGo (dcc lim : Nat) : List JEntry → Tile → Tile
  | [], t => { t with journal := [] }
  | e :: r, t =>
    if e.pos < lim && t.entryLeaves e then commitGo dcc lim r (t.commitEntry dcc e) else { t with journal := e :: r }

/-- The position of the oldest unstarted command, or one past every word. -/
def oldestIn (cs : List Cmd) : Option Cmd :=
  cs.foldl (fun b c => match b with
    | none => some c
    | some x => if c.pos < x.pos then some c else some x) none
def Tile.oldestQueued (t : Tile) : Option Cmd := oldestIn (t.vq ++ t.mq ++ t.cq)

def Tile.commitJournal (t : Tile) (dcc : Nat) : Tile :=
  commitGo dcc ((t.oldestQueued.map fun c => c.pos).getD (t.order + 1)) t.journal t

/-- A journal entry's effect is undone (R59). -/
def Tile.undo (t : Tile) (e : JEntry) : Tile :=
  match e.kind with
  | .g n old => t.putG n old
  | .f n old => t.putF n old
  | .q old => { t with q := old }
  | .d n old => t.putD n old
  | _ => t

/-- Every entry from position `pos` on is undone, the newest first (R252). -/
def Tile.undoFrom (t : Tile) (pos : Nat) : Tile :=
  let t := (t.journal.reverse.filter fun e => pos ≤ e.pos).foldl Tile.undo t
  { t with journal := t.journal.filter fun e => e.pos < pos }

/-! ## Killing a unit (R78, R258) -/

/-- A command whose legs run on outside the tile (R252). -/
def CmdKind.legged : CmdKind → Bool
  | .hexch | .layset | .laysetPass | .reshard | .cred | .cbcast => true
  | _ => false

/-- The CT waits for the answer of a request, or for a revocation, that it cannot take back. -/
def Tile.awaiting (t : Tile) : Bool :=
  match t.wait with
  | some { on := .response _, .. } => true
  | some { on := .discard _, .. } => true
  | _ => false
/-- A copy with legs that has elements to perform: a save waits for them, as for a command that runs (R56). -/
def Tile.moving (t : Tile) : Bool := t.started.any fun c => !c.kind.legged && 0 < c.legs && !c.moved && c.legFault.isNone
/-- Started commands, and the answer of a request in hand, that a cut waits for. -/
def Tile.holding (t : Tile) : Bool :=
  t.vs.isSome || t.started.any (fun c => !(c.kind.legged || c.legs > 0)) || t.awaiting || !t.journal.isEmpty
/-- Every command of the unit is complete, legs included. -/
def Tile.allDone (t : Tile) : Bool :=
  t.vs.isNone && t.started.isEmpty && t.vq.isEmpty && t.mq.isEmpty && t.cq.isEmpty && !t.awaiting && t.journal.isEmpty

/-! ## The trap record's place, and killing a unit (R78, R256, R258) -/

/-- The virtual address of the tile's trap record (R256). -/
def State.recordVa (s : State) (k : Nat) : W64 :=
  w64 (fld (s.jobRegs k).trapArea 12 36 * 4096 + 128 * tileNum k)
/-- The handler's address; 0 means none (R256). -/
def State.handlerVa (s : State) (k : Nat) : W64 := w64 (fld (s.jobRegs k).trapVec 2 46 * 4)

/-- As `allDone`, and every store and posted request of the unit has been performed (R28, R183). -/
def Tile.allQuiet (t : Tile) : Bool := t.allDone && t.storeQ.isEmpty && t.posted.isEmpty

/-- The classes whose fault address is the virtual address of an access or a location (R255, R260). Every other class has
no address, or a handle or an object in its place (DEDUCED, log 96). -/
def Cls.hasVa (c : Nat) : Bool :=
  c ∈ [Cls.extent, Cls.extentRevoked, Cls.align, Cls.swizzle, Cls.seqImmutable, Cls.appliedLost, Cls.targetLost, Cls.timeout
    , Cls.segmentMismatch, Cls.uncorrectable, Cls.aliasWrite]

/-- What the damage entry of a unit killed by a fault names. -/
def TrapInfo.death (i : TrapInfo) : Death :=
  { cls := i.cls, va := if Cls.hasVa i.cls then some i.faddr else none, tag := i.ctag, seq := i.seq }

/-- A fault that a leg or a posted request has reported, as the trap that it raises (R245, R262). -/
def Report.trap (r : Report) : TrapInfo :=
  { cls := r.cls, faddr := r.addr, src := r.src, atag := r.tag, late := r.leg, posted := !r.leg, seq := r.seq, ctag := r.ctag }
/-- What the damage entry of such a fault names: its location is always known (R78). -/
def Report.death (r : Report) : Death := { cls := r.cls, va := some r.addr, tag := r.ctag, seq := r.seq }
/-- The report that a trap was raised from. -/
def TrapInfo.report? (i : TrapInfo) : Option Report :=
  if i.cls ≠ 0 ∧ (i.late ∨ i.posted) then
    some { cls := i.cls, addr := i.faddr, tag := i.atag, leg := i.late, src := i.src, ctag := i.ctag, seq := i.seq }
  else none

/-- DOUBLE_FAULT kills the unit (R258). -/
def CutWhy.double : CutWhy := .abort { cls := Cls.doubleFault }

/-- A kind-1 damage entry of the unit on tile k (R78, R262, R270). -/
def State.deathDamage (s : State) (k : Nat) (d : Death) : State :=
  s.damage (tileDie k)
    { s.unitDamage k (s.tile k).entry.cr 1 d.cls with
      valid := (if d.va.isSome then 1 else 0) + (if d.tag.isSome then 4 else 0), va := d.va.getD 0, tag := d.tag.getD 0, seq := d.seq }

/-- The unit is killed: a kind-1 damage entry, its commands discarded, its completion actions, counted cancelled
(R78, R258, R270). -/
def State.killUnit (s : State) (k : Nat) (d : Death) : State := (s.deathDamage k d).retireUnit k true

/-! ## Handler entry (R257, R258) -/

/-- The record is written, the handler's registers are set, and the CT goes on at TRAP_VEC.ADDR. With no handler, or
where the record or the handler's first word cannot be reached, DOUBLE_FAULT kills the unit (R258). -/
def State.handlerEntry (s : State) (k : Nat) (i : TrapInfo) : State :=
  let t := s.tile k
  let va := s.recordVa k
  let vec := s.handlerVa k
  let dead := s.setTile k { t with status := .cutting .double }
  if vec = 0 then dead
  else match s.check k va 128 .w, s.check k vec 4 .x with
    | .ok a, .ok _ =>
      let s := s.writeAcc k a (t.record i)
      s.modTile k fun t =>
        let t := (((t.putG 1 va).putG 2 (w64 i.cls)).putG 3 i.faddr).putG 4 i.pc
        { t with status := .running, clause := 0, inh := true, pc := vec, pfx := none, wait := none
                 handlerPos := t.order, handlerLs := [t.lsV, t.lsM, t.lsC], handlerNext := i.next, journal := [] }
    | _, _ => dead

/-! ## Buffer phases (R266 to R268) -/

/-- Fields of a BUFPH value. -/
def phaseLen (v : W64) : Nat := fld v 16 6
def phaseIn (v : W64) (half : Bool) : Nat := if half then fld v 8 8 else fld v 0 8

/-- The current half of a BUFPH value in a tile's slice, as 64-byte lines, first to last. -/
def phaseLines (k : Nat) (v : W64) : Nat × Nat :=
  let lo := sliceBase k + 65536 * phaseIn v (bit v 25)
  (lo / 64, (lo + 65536 * phaseLen v - 1) / 64)

/-- The first byte of an access of tile k, whatever its kind was: a read, also through a grant, a fetch, or a write. -/
def State.anyAcc (s : State) (k : Nat) (va : W64) : Option Acc :=
  [Need.r, .x, .w].findSome? fun n => (s.check k va 1 n true).toOption

/-- A unit whose phase can run again: it runs, also in its handler, or a cut that ends in its handler or its frame is being
taken (R268). -/
def TStatus.mayReplay : TStatus → Bool
  | .running | .cutting (.trap _) | .cutting (.save _) => true
  | _ => false

/-- The fault is the first uncorrectable error of the tile's open phase, and it lies in the phase's current half (R268). In
the handler, and while a cut is being taken, the phase runs again all the same (DEDUCED, log 97). -/
def State.phaseHit (s : State) (k : Nat) (i : TrapInfo) : Bool :=
  let t := s.tile k
  match t.phase, s.anyAcc k i.faddr with
  | some p, some a =>
    let r := phaseLines k t.bufph
    i.cls = Cls.uncorrectable && t.status.mayReplay && !p.taken && !a.fallow && r.1 ≤ a.plain / 64 && a.plain / 64 ≤ r.2
  | _, _ => false

/-- The phase has met the one error that raises no trap (R268). -/
def State.takePhase (s : State) (k : Nat) : State :=
  s.modTile k fun t => { t with phase := t.phase.map fun p => { p with taken := true } }

/-- The uncorrectable sector that a unit has consumed gives a damage entry of kind 2 (R268, R270). -/
def State.sectorDamage (s : State) (k : Nat) (i : TrapInfo) : State :=
  if i.cls ≠ Cls.uncorrectable then s
  else if i.inSet then
    -- a sector of a weight set has no address (log 94)
    s.damage (tileDie k) { s.unitDamage k (s.tile k).entry.cr 2 Cls.uncorrectable with
      valid := if i.ctag.isSome then 4 else 0, len := 256, tag := i.ctag.getD 0, seq := i.seq }
  else match (s.anyAcc k i.faddr).bind fun a => s.resolve (tileDie k) a.plain 1 with
    | some q => s.damage (tileDie k)
        { s.unitDamage k (s.tile k).entry.cr 2 Cls.uncorrectable with
          valid := if i.ctag.isSome then 7 else 3, plain := q / 256 * 256, len := 256, va := i.faddr, tag := i.ctag.getD 0, seq := i.seq }
    | none => s

/-- A phase whose data failed runs again from its start: its refill is issued again, and its snapshot is restored, INH as it
stood at the start with it (R268; INH: DEDUCED, log 97). -/
def Tile.replayPhase (t : Tile) (p : Phase) : Tile :=
  let t := { t with nextV := t.lsV.skip + 1, nextM := t.lsM.skip + 1, nextC := t.lsC.skip + 1, cutV := none, cutM := none, cutC := none }
  let t := p.refill.foldl (fun t c =>
    let c := { c with seq := t.nextC, pos := t.order, gate := none, comp := none
                      preds := (t.started ++ t.cq).map fun x => x.pos }
    { t with cq := t.cq ++ [c], nextC := t.nextC + 1, hist := t.hist ++ [(t.order, Queue.cq, c.seq)], order := t.order + 1 }) t
  let t := (p.g.zipIdx).foldl (fun t x => t.putG (x.2 + 1) x.1) t
  { t with q := p.q, pc := p.pc, clause := 0, pfx := none, wait := none, status := .running, inh := p.inh, phase := some { p with taken := true } }

/-! ## Forced saves (R56, R263) -/

/-- Frames of the job's pool on a die that are free: neither holding a unit nor taken by a save under way. -/
def State.framesFree (s : State) (d j : Nat) : Nat :=
  let x := s.jobDie d j
  x.frames - x.saved.length - ((dieTiles d).filter fun k => s.jobOf k = j && (match (s.tile k).status with
    | .cutting (.save _) => true
    | _ => false)).length

/-- The queue counters are set (R254). -/
def Tile.numbers (t : Tile) (n : List (BitVec 16)) : Tile :=
  { t with nextV := n.getD 0 t.nextV, nextM := n.getD 1 t.nextM, nextC := n.getD 2 t.nextC }

/-- The trap record read back from the tile's slot, after the handler's own stores to it. -/
def State.readRecord (s : State) (k : Nat) : Option (List Byte) :=
  match s.check k (s.recordVa k) 128 .r with
  | .ok a => some (s.forward k (s.recordVa k) (s.readAcc k a 128))
  | .error _ => none

/-- The save of a unit whose cut has been taken: its frame, its entry, its tile (R56, R201). A unit in its handler takes the
handler's record with it (R261). -/
def State.saveFrame (s : State) (k : Nat) (i : TrapInfo) : State :=
  let t := s.tile k
  let d := tileDie k
  let j := s.jobOf k
  let n := firstFree (Tab.keys (s.jobDie d j).saved) ((s.jobDie d j).saved.length + 1) 0
  let base := sliceBase k
  let sv : Saved :=
    { key := k, tile := { (if i.cls = 0 then t.numbers i.next else t) with
        status := .running, preemptAt := none, exts := [], pins := [], wait := none, pfx := none }
      slice := (s.mem.filter fun c => base ≤ c.1 && c.1 < base + 2 ^ 22).map fun c => (c.1 - base, c.2)
      trap := if i.cls = 0 then none else some i
      record := if t.inh then s.readRecord k else none
      ptc := s.ptc d, self := s.capSelf k }
  let cr := { t.entry.cr with flags := t.entry.cr.flags ||| (if t.cancelAt.isSome then 0x2C else 0xC), tileMask := BitVec.ofNat 32 (2 ^ tileNum k)
                              dieMask := BitVec.ofNat 8 (2 ^ dieNum d) }
  let e : Entry := { t.entry with cr := cr, ext := [], frame := some n }
  let s := s.setFrame d j n sv
  -- its grants stay registered at their homes
  ((s.modTile k fun t => { t with grants := [] }).freeTile k).enqueue d e

/-! ## Taking the cut (R251 to R254) -/

/-- NEXT of one queue: the number that the first of its commands at or after `pos` took, else the counter (R254). -/
def nextOf (t : Tile) (q : Queue) (pos : Nat) (ctr : BitVec 16) : BitVec 16 :=
  match t.hist.find? fun h => h.2.1 = q && pos ≤ h.1 with
  | some h => h.2.2
  | none => ctr

/-- The unit's join counter is to be found through the page tables, and its page is MIGRATING (R241, log 72). -/
def State.joinHeld (s : State) (k : Nat) : Bool :=
  let t := s.tile k
  let r := t.entry.cr
  (t.exts.find? fun e => e.covers r.join.toNat 8 && e.w).any fun e => e.revoked && s.joinMoves (tileDie k) r

/-- A tile whose unit is to end does so once all its commands, stores and requests are done. -/
def State.endUnit (s : State) (k : Nat) : State :=
  let t := s.tile k
  if !t.allQuiet || s.joinHeld k then s
  else match t.status with
    | .cutting .cancel => s.retireUnit k true
    | .cutting (.abort d) => s.killUnit k d
    | .draining => s.retireUnit k t.cancelled
    | _ => s

/-- The cut has been taken and nothing holds it: the tile goes on as its reason says. -/
def State.endCut (s : State) (k : Nat) : State :=
  let t := s.tile k
  match t.status with
  | .cutting (.trap i) => if t.holding then s else (s.handlerEntry k i).endUnit k
  | .cutting (.save i) => if t.holding || t.moving || !t.storeQ.isEmpty then s else s.saveFrame k i
  | .cutting (.replay _) =>
    if t.holding then s
    else match t.phase with
      | some p => s.setTile k (t.replayPhase p)
      | none => s
  | _ => s.endUnit k

/-! ## Words ended by another step -/

/-- The word that tile k waits in ends with the effect `f`. Where a cut is being taken at that word, it is taken after
it (R252). -/
def State.finishWord (s : State) (k : Nat) (f : Tile → Tile) : State :=
  let t := s.tile k
  let u := (f t).retire (s.dcc (tileDie k))
  let past (i : TrapInfo) : TrapInfo := if i.cutPos = t.order then { i with pc := u.pc, clause := u.clause, cutPos := u.order } else i
  let u := match t.status with
    | .cutting (.trap i) => { u with status := .cutting (.trap (past i)) }
    | .cutting (.save i) => { u with status := .cutting (.save (past i)) }
    | .cutting (.replay i) => { u with status := .cutting (.replay (past i)) }
    | _ => u
  (s.setTile k u).endCut k

/-! ## Counting barriers (R223) -/

/-- Waiters are served in arrival order; one that cannot be met blocks the later ones. -/
def serveBar (d b : Nat) : List BarWaiter → State → State
  | [], s => s.modDie d fun y => { y with bars := Tab.set {} y.bars b { Tab.get {} y.bars b with waiters := [] } }
  | w :: r, s =>
    let x := Tab.get {} (s.die d).bars b
    if w.n ≤ x.count then
      let s := s.modDie d fun y => { y with bars := Tab.set {} y.bars b { count := x.count - w.n, waiters := r } }
      serveBar d b r (s.finishWord w.tile id)
    else s.modDie d fun y => { y with bars := Tab.set {} y.bars b { x with waiters := w :: r } }

/-- A barrier takes a new count, and its waiters are served. -/
def State.setBar (s : State) (d b v : Nat) : State :=
  let x := Tab.get {} (s.die d).bars b
  serveBar d b x.waiters (s.modDie d fun y => { y with bars := Tab.set {} y.bars b { x with count := v } })

/-- The registration of a JOIN's record is not withdrawn with its wait (log 80). -/
def Sink.withdrawable : Sink → Bool
  | .joinDone _ => false
  | _ => true

/-- The answer goes to the word in hand. -/
def Sink.ofWord : Sink → Bool
  | .posted | .join | .signalled _ _ _ | .counted => false
  | _ => true

/-- What a request that waits for room at its home waits for, where WAIT_CAP.ISSUE bounds the wait wherever the home lies
(R310, R354, log 80). -/
def HomeOp.roomWait : HomeOp → Option WaitOn
  | .evSignal _ _ _ _ _ => some .eventRoom
  | .spawn _ _ _ | .cmpl _ _ _ => some .levelRoom
  | _ => none

/-- So for a request whose effect has not begun: a JOIN's registration follows its decrement, and its wait for room ends
with the answer alone (log 80). -/
def Request.roomWait (r : Request) : Option WaitOn := if r.sink.withdrawable then r.op.roomWait else none

/-- What the word in hand waits for outside the tile forgets it: a barrier's list, a request kept at a home on its own
die, and the answer of a request to another die (R252, R289, R425). -/
def State.unwait (s : State) (k : Nat) : State :=
  let d := tileDie k
  let s := (s.die d).bars.foldl (fun s p =>
    if p.2.waiters.any fun w => w.tile = k then
      serveBar d p.1 (p.2.waiters.filter fun w => w.tile ≠ k) s
    else s) s
  let own (r : Request) : Bool := r.tile = k && r.sink.ofWord
  -- the registration that a JOIN has asked for is made all the same, and a narrowing that has begun goes on to its end; other
  -- requests that wait for room are withdrawn
  let withdrawn (r : Request) : Bool :=
    own r && r.sink.withdrawable && r.acks.isEmpty && (r.src = r.dst || (r.kept && r.roomWait.isSome))
  { s with reqs := (s.reqs.filter fun p => !withdrawn p.2).map fun p => (p.1, if own p.2 then { p.2 with dead := true } else p.2) }

/-- The gate tokens that queued commands have taken. -/
def gateTokens (cs : List Cmd) : List Nat := cs.filterMap fun c => if c.gateTaken then c.gate else none

/-- Commands stop starting: every queued command is discarded with its gate take returned, the journal from the cut
on is undone, and the PC is the older of the point given and the oldest discarded command (R252). -/
def State.takeCut (s : State) (k : Nat) (why : CutWhy) (pos : Nat) (pc : W64) (clause : BitVec 5) : State :=
  let t := s.tile k
  let dcc := s.dcc (tileDie k)
  let held := t.awaiting && !(t.vq.any fun c => c.pos < t.order) && !(t.mq.any fun c => c.pos < t.order)
    && !(t.cq.any fun c => c.pos < t.order) && pos = t.order
  let s := if held then s else s.unwait k
  let (cpos, cpc, ccl) := match oldestIn ((t.vq ++ t.mq ++ t.cq).filter fun c => !c.unstamped) with
    | some c => if c.pos < pos then (c.pos, c.atag, c.clause) else (pos, pc, clause)
    | none => (pos, pc, clause)
  let gates := gateTokens (t.vq ++ t.mq ++ t.cq)
  -- a command that re-entered its queue and has not started goes back to its cut slot
  let backM := t.mq.find? fun c => c.unstamped
  let backC := t.cq.find? fun c => c.unstamped
  let nexts := [nextOf t .vq cpos t.nextV, nextOf t .mq cpos t.nextM, nextOf t .cq cpos t.nextC]
  let t := t.undoFrom cpos
  let gone := (t.vq ++ t.mq ++ t.cq).map fun c => c.pos
  let t := { t with vq := [], mq := [], cq := [], cutM := backM.or t.cutM, cutC := backC.or t.cutC
                    loads := t.loads.filter fun c => !(c.pos ∈ gone) }
  let t := t.dropTakers dcc fun w => match w with
    | .vs _ => false
    | _ => true
  let t := (t.commitJournal dcc)
  let t := gates.foldl (fun t n => t.signalToken dcc n 1) t
  let why := match why with
    | .trap i => .trap { i with pc := cpc, clause := ccl, next := nexts, cutPos := cpos, ptc := s.ptc (tileDie k) }
    | .save i => .save { i with pc := cpc, clause := ccl, next := nexts, cutPos := cpos, ptc := s.ptc (tileDie k) }
    | .replay i => .replay { i with pc := cpc, clause := ccl, next := nexts, cutPos := cpos, ptc := s.ptc (tileDie k) }
    | w => w
  let t := { t with status := .cutting why, pc := if held then t.pc else cpc, pfx := if held then t.pfx else none
                    clause := if held then t.clause else ccl, wait := if held then t.wait else none
                    started := t.started.map fun c => if c.kind.legged || 0 < c.legs then { c with late := true } else c
                    seg := t.seg.map fun g => { g with void := true } }
  (s.setTile k t).endCut k

/-- A fault of the CT, or of a command that has not started, at its program-order point. -/
def State.raiseAt (s : State) (k : Nat) (i : TrapInfo) (pos : Nat) (pc : W64) (clause : BitVec 5) : State :=
  let t := s.tile k
  match t.status with
  | .draining => (s.sectorDamage k i).takeCut k (.abort i.death) pos pc clause
  | _ =>
    if s.phaseHit k i then (s.takePhase k).takeCut k (.replay { cls := 0 }) pos pc clause
    else
      let s := s.sectorDamage k i
      if t.inh then s.takeCut k .double pos pc clause
      else s.takeCut k (.trap { i with pos := pos }) pos pc clause

/-- A fault of the word in hand of tile k: precise at the word, or at its PFX (R85, R252). -/
def State.raise (s : State) (k : Nat) (i : TrapInfo) : State :=
  let t := s.tile k
  s.raiseAt k i t.order t.instrPc t.instrClause

/-- The word that tile k waits in faults. Where a cut is being taken, the fault of an older engine command stands
(R261) and the word runs again; where the cut is that of a forced save or of a phase's replay and no command has faulted,
the word's fault is the one in hand (R57). A unit in its handler is killed (R258). -/
def State.failWord (s : State) (k : Nat) (i : TrapInfo) : State :=
  let t := s.tile k
  let ended : State := s.modTile k fun t => { t.unprefix with wait := none }
  let join (j : TrapInfo) : TrapInfo :=
    if j.cls ≠ 0 then j
    else { i with pos := t.order, pc := j.pc, clause := j.clause, next := j.next, cutPos := j.cutPos, ptc := s.ptc (tileDie k) }
  match t.status with
  | .running => (s.modTile k fun t => { t with wait := none }).raise k i
  | .cutting (.save j) =>
    if t.inh then ended.takeCut k .double t.order t.instrPc t.instrClause
    else ((ended.sectorDamage k i).modTile k fun t => { t with status := .cutting (.save { join j with frc := true }) }).endCut k
  | .cutting (.replay j) => ((ended.sectorDamage k i).modTile k fun t => { t with status := .cutting (.trap (join j)) }).endCut k
  | _ => ended.endCut k

/-- The common fault: class and address, raised by the CT. -/
def State.fault (s : State) (k cls : Nat) (addr : W64 := 0) : State := s.raise k { cls := cls, faddr := addr }

/-- ILLEGAL_OP at the word in hand (R95). -/
def State.illegal (s : State) (k : Nat) : State := s.fault k Cls.illegalOp

/-- A fault that a leg or a posted request has reported is raised at the next control-word boundary, PC being that
word (R245, R262). -/
def State.raiseReport (s : State) (k : Nat) (r : Report) : State :=
  s.raise k r.trap

def Queue.slotOf : CmdKind → Queue
  | .vrun | .vbase | .vbaseL | .vhalt | .vsend | .wdef => .vq
  | .mldb | .mmul | .mdrain | .mdrainS | .mclr | .mbase | .mshr => .mq
  | _ => .cq

def Queue.src : Queue → Nat
  | .vq => 1
  | .mq => 2
  | .cq => 3

def Tile.ls (t : Tile) (q : Queue) : Started :=
  match q with
  | .vq => t.lsV
  | .mq => t.lsM
  | .cq => t.lsC
def Tile.setLs (t : Tile) (q : Queue) (l : Started) : Tile :=
  match q with
  | .vq => { t with lsV := l }
  | .mq => { t with lsM := l }
  | .cq => { t with lsC := l }

/-- VQ's slot with a cut command in it: the running table's, or a VBASE.l, which is replayed from its first step (R372). -/
def cutRunOf (c : Cmd) (vrun : Option VsRun) : VsRun :=
  vrun.getD { cmd := c, body := 0, tagOff := 0, steps := 0, ns := 0, rot := false, bank := false, n := 0 }

/-- The unit's stores and posted requests before a position have been performed: a release there need not wait (R183). -/
def Tile.releasedTo (t : Tile) (pos : Nat) : Bool :=
  t.storeQ.all (fun e => pos ≤ e.pos) && t.posted.all (fun p => pos ≤ p.pos)
  && t.journal.all fun e => pos ≤ e.pos || (match e.kind with
    | .store _ _ _ _ => false
    | _ => true)

/-- A started command, already taken off the tile's lists, faults (R252, R253). One that made no effect counts as
discarded; one that did fills its queue's cut slot; a second cut of one queue aborts the unit. -/
def State.cmdFault (s : State) (k : Nat) (c : Cmd) (i : TrapInfo) (vrun : Option VsRun := none) : State :=
  let t := s.tile k
  let t := { t with fpc := t.fpc ||| BitVec.ofNat 64 i.flags }
  let q := Queue.slotOf c.kind
  let dcc := s.dcc (tileDie k)
  let i := { i with pos := c.pos, seq := c.seq.toNat, ctag := some c.atag }
  let full := c.effect && (match q with
    | .vq => t.cutV.isSome
    | .mq => t.cutM.isSome
    | .cq => t.cutC.isSome)
  -- the tile with the command discarded, or in its slot
  let t :=
    if c.effect then
      match q with
      | .vq => { t with cutV := some (cutRunOf { c with unstamped := true } vrun) }
      | .mq => { t with cutM := some { c with unstamped := true } }
      | .cq => { t with cutC := some { c with unstamped := true } }
    else
      let t := if c.gateTaken then (match c.gate with
        | some n => t.signalToken dcc n 1
        | none => t) else t
      ({ t with loads := t.loads.filter fun x => x.pos ≠ c.pos } : Tile).setLs q ((t.ls q).drop c.seq)
  let s := s.setTile k t
  let again := s.phaseHit k i
  let s := if again then s.takePhase k else s.sectorDamage k i
  let pt : Nat × W64 × BitVec 5 := if c.effect then (t.order, t.instrPc, t.instrClause) else (c.pos, c.atag, c.clause)
  -- the fault joins the one that the cut was taken for: the older in program order stands (R253, R261)
  let merge (j : TrapInfo) : TrapInfo :=
    let j' : TrapInfo :=
      if j.cls = 0 ∨ i.pos < j.pos then
        { i with pc := j.pc, clause := j.clause, next := j.next, cutPos := j.cutPos, ptc := s.ptc (tileDie k), frc := j.frc } else j
    if !c.effect && c.pos < j.cutPos then
      { j' with pc := c.atag, clause := c.clause, cutPos := c.pos
                next := [nextOf t .vq c.pos t.nextV, nextOf t .mq c.pos t.nextM, nextOf t .cq c.pos t.nextC] } else j'
  let abort : CutWhy := .abort i.death
  let goOn (j : TrapInfo) (why : CutWhy) : State :=
    (s.modTile k fun t => { t with status := .cutting why, pc := j.pc, clause := j.clause }).endCut k
  -- the cut ends in the phase's replay; a report that it was to raise is raised after that
  let replay (j : TrapInfo) : State :=
    let j' := merge { j with cls := 0 }
    (s.modTile k fun t =>
      { t with status := .cutting (.replay { j' with cls := 0 }), pc := j'.pc, clause := j'.clause, reports := t.reports ++ j.report?.toList }).endCut k
  match t.status with
  | .cutting (.trap j) =>
    if again then replay j
    else if full then s.takeCut k abort j.cutPos j.pc j.clause else goOn (merge j) (.trap (merge j))
  | .cutting (.save j) =>
    -- R57, R261: the save completes first; the record waits in the frame
    if again then replay j
    else if full then s.takeCut k abort j.cutPos j.pc j.clause
    else if t.inh then s.takeCut k .double j.cutPos j.pc j.clause
    else goOn (merge j) (.save { merge j with frc := true })
  | .cutting (.replay j) =>
    -- a second error of the phase, or another fault, raises its trap (R268)
    if full then s.takeCut k abort j.cutPos j.pc j.clause else goOn (merge j) (.trap (merge j))
  | .cutting _ => s.endCut k
  | .draining => s.takeCut k abort pt.1 pt.2.1 pt.2.2
  | _ =>
    if again then s.takeCut k (.replay { cls := 0 }) pt.1 pt.2.1 pt.2.2
    else if full then s.takeCut k abort pt.1 pt.2.1 pt.2.2
    else if t.inh then s.takeCut k .double pt.1 pt.2.1 pt.2.2
    else s.takeCut k (.trap i) pt.1 pt.2.1 pt.2.2

/-- The fault of a report joins a cut that is being taken: the journal and the PC go back to the release at entry `e` that
met it. The record names the older of the two faults, and the report of a younger one waits for the release to run again
(R253, R261). -/
def State.joinRelease (s : State) (k : Nat) (e : JEntry) (r : Report) (j : TrapInfo) (why : TrapInfo → CutWhy) : State :=
  let s := s.sectorDamage k r.trap
  let t := (s.tile k).undoFrom e.pos
  let stands := j.cls ≠ 0 ∧ j.pos ≤ e.pos
  let i : TrapInfo := if stands then j else { r.trap with pos := e.pos, frc := j.frc, ptc := s.ptc (tileDie k) }
  let i := { i with pc := e.pc, clause := e.clause, cutPos := e.pos
                    next := [nextOf t .vq e.pos t.nextV, nextOf t .mq e.pos t.nextM, nextOf t .cq e.pos t.nextC] }
  (s.setTile k { t with journal := [], status := .cutting (why i), pc := e.pc, clause := e.clause
                        reports := if stands then t.reports else t.reports.erase r }).endCut k

/-- A release in the journal has met a fault reported for an earlier request (R245): it is raised there, or joins the cut
that is being taken; the save of R57 completes first, and a unit in its handler is killed (R258). -/
def State.releaseFault (s : State) (k : Nat) (e : JEntry) (r : Report) : State :=
  let t := s.tile k
  match t.status with
  | .cutting (.trap j) => s.joinRelease k e r j .trap
  | .cutting (.replay j) => s.joinRelease k e r j .trap
  | .cutting (.save j) =>
    if t.inh then (s.sectorDamage k r.trap).takeCut k .double e.pos e.pc e.clause
    else s.joinRelease k e r { j with frc := true } .save
  | _ => (s.setTile k { t with reports := t.reports.erase r }).raiseAt k r.trap e.pos e.pc e.clause

/-- Faults reported for a unit that no handler will run for: a kind-1 entry each (R78, R262). -/
def State.dumpReports (s : State) (k : Nat) (rs : List Report) : State :=
  rs.foldl (fun s r => (s.sectorDamage k r.trap).deathDamage k r.death) s

/-- The journal's oldest entry is a release that every earlier store has reached its end for, and one of them has failed. -/
def Tile.failedRelease (t : Tile) : Option (JEntry × Report) :=
  match t.journal, t.reports.find? fun r => !r.leg with
  | e :: _, some r =>
    if e.rel && t.storeQ.isEmpty && ((t.oldestQueued.map fun c => decide (e.pos < c.pos)).getD true) then some (e, r) else none
  | _, _ => none

/-- The journal's oldest entries commit where they can. A fault reported for an earlier request is raised at a release
that waits for it (R245); a draining unit is aborted (R78), and one that is being cancelled or killed leaves a damage entry
(R262; DEDUCED, log 98). The tile goes on with a cut that nothing holds any longer. -/
def State.settle (s : State) (k : Nat) : State :=
  let dcc := s.dcc (tileDie k)
  let t := (s.tile k).commitJournal dcc
  let failed := t.failedRelease
  -- the release that met the fault, and what is younger, is not performed
  let ends : Tile := ({ (match failed with
    | some (e, _) => { t.undoFrom e.pos with journal := [] }
    | none => t) with reports := [] } : Tile).commitJournal dcc
  match t.status with
  | .draining =>
    match t.reports with
    | r :: rest => (((s.setTile k { t with reports := [] }).dumpReports k rest).sectorDamage k r.trap).takeCut k (.abort r.death) t.order t.pc t.clause
    | [] => (s.setTile k t).endCut k
  | .cutting .cancel | .cutting (.abort _) => ((s.dumpReports k t.reports).setTile k ends).endCut k
  | .cutting .flr => (s.setTile k ends).endCut k
  | _ =>
    match failed with
    | some (e, r) => (s.setTile k t).releaseFault k e r
    | none => (s.setTile k t).endCut k

/-! ## Return from the handler (R259) -/

def recWord (bs : List Byte) (off len : Nat) : Nat := leNat ((bs.drop off).take len)

/-- A cut command leaves its slot: it goes back to the head of its queue, or, abandoned, signals its completion token
and makes no further effect (R150, R259). -/
def reenter (c : Cmd) : Cmd := { c with gate := none, gateTaken := false, gateSince := none, unstamped := true, oldestAt := none }

def Tile.reenterM (t : Tile) (dcc : Nat) (abandon : Bool) : Tile :=
  match t.cutM with
  | none => t
  | some c =>
    let t := { t with cutM := none }
    if abandon then (match c.comp with
      | some n => t.signalToken dcc n 1
      | none => t)
    else { t with mq := reenter c :: t.mq }

def Tile.reenterC (t : Tile) (dcc : Nat) (abandon : Bool) : Tile :=
  match t.cutC with
  | none => t
  | some c =>
    let t := { t with cutC := none }
    if abandon then (match c.comp with
      | some n => t.signalToken dcc n 1
      | none => t)
    else { t with cq := reenter c :: t.cq }

/-- A cut VRUN goes back to the head of VQ; its loop state waits in the slot until it starts (R259, R395). A cut VBASE.l
goes back likewise (R372). -/
def Tile.reenterV (t : Tile) : Tile :=
  match t.cutV with
  | none => t
  | some v => { t with vq := reenter v.cmd :: t.vq }

/-- The start steps of the VLOOP levels open at step `upc`, found by matching VLOOP and VEND from body step 0 (R383). -/
def openLoops (steps : Tab W32) (body : Nat) : Nat → Nat → List Nat → List Nat
  | 0, _, l => l
  | n + 1, i, l =>
    let op := fld (Tab.get 0 steps (body + i)) 24 8
    openLoops steps body n (i + 1) (if op = 0x80 then l ++ [i + 1] else if op = 0x81 then l.dropLast else l)

/-- The VS loop state of a cut table, with the start of each open level found again in the table (R259, R383). What the
handler wrote over it in the record is ignored (R307). -/
def VsRun.restore (v : VsRun) (steps : Tab W32) : VsRun :=
  let st := openLoops steps v.body v.upc 0 []
  { v with levels := v.levels.mapIdx fun l x => { x with start := st.getD l x.start } }

/-- Step 3 of R259 on the tile, from the record's bytes: g1 to g4, CLAUSE and the queue counters; the VS loop state and LS
are those of the cut (R254, R307). A handler that rewrote NEXT has moved PC: nothing from before a resumption is skipped
any longer (log 84). -/
def Tile.eretRestore (t : Tile) (bs : List Byte) : Tile :=
  let kept (i : Nat) (l : Started) : Started :=
    let l := t.handlerLs.getD i l
    if recWord bs (0x20 + 2 * i) 2 = (t.handlerNext.getD i 0).toNat then l else { l with before := none }
  let t := { t with cutV := t.cutV.map fun (v : VsRun) => v.restore t.steps
                    lsV := kept 0 t.lsV, lsM := kept 1 t.lsM, lsC := kept 2 t.lsC }
  let t := (((t.putG 1 (w64 (recWord bs 0x60 8))).putG 2 (w64 (recWord bs 0x68 8))).putG 3 (w64 (recWord bs 0x70 8))).putG 4 (w64 (recWord bs 0x78 8))
  { t with clause := BitVec.ofNat 5 (recWord bs 0x28 8)
           nextV := BitVec.ofNat 16 (recWord bs 0x20 2), nextM := BitVec.ofNat 16 (recWord bs 0x22 2)
           nextC := BitVec.ofNat 16 (recWord bs 0x24 2) }

/-- Step 4 of R259: the cut commands re-enter their queues, or are abandoned as STAT says. -/
def Tile.eretReenter (t : Tile) (dcc : Nat) (bs : List Byte) : Tile :=
  let stat := recWord bs 0x16 2
  ((t.reenterV).reenterM dcc (stat / 64 % 2 = 1)).reenterC dcc (stat / 128 % 2 = 1)

/-- What re-translating the revoked footprint entries gives (R240). -/
def State.retranslate (s : State) (k : Nat) : Foot :=
  let t := s.tile k
  let bad := (t.exts.filter fun e => e.revoked).map fun e => e.foot
  let keep := t.exts.filter fun e => !(e.foot ∈ bad)
  footList s (tileDie k) t.asid t.entry.cr.foot.toNat (fun i => i ∈ bad) (fld t.entry.cr.nfoot 0 6) 0 keep

/-! ## Fetching a word -/

/-- The word that memory holds at an address, through the extent table (R45, R80). -/
def State.codeWord (s : State) (k : Nat) (va : W64) : Except AFault W32 :=
  if va.toNat % 4 ≠ 0 then .error (Cls.align, va)
  else match s.check k va 4 .x with
    | .error e => .error e
    | .ok a =>
      match s.resolve (tileDie k) a.plain 4 with
      | none => .error (Cls.extent, va)
      | some q =>
        match s.badSector q 4 with
        | some _ => .error (Cls.uncorrectable, va)
        | none => .ok (BitVec.ofNat 32 (leNat (s.bytes q 4)))

/-- The word that the CT fetches: the one that its fetch buffer has taken, or else memory's (R187). -/
def State.fetchWord (s : State) (k : Nat) (va : W64) : Except AFault W32 :=
  match (s.tile k).fbuf.find? fun w => w.1 = va.toNat with
  | none => s.codeWord k va
  | some w => match s.check k va 4 .x with
    | .error e => .error e
    | .ok _ => .ok w.2

/-- The fetch buffer takes the word at an address, the oldest of its 64 words giving way (R187). -/
def State.prefetch (s : State) (k va : Nat) : State :=
  match s.codeWord k (w64 va) with
  | .ok w => s.modTile k fun t => { t with fbuf := ((va, w) :: t.fbuf.filter fun x => x.1 ≠ va).take Config.fetchWords }
  | .error _ => s

end Sys2Proof.Machine
end

