-- ==== Sys2Proof/Machine/Hub.lean ====
section
/-! DEFINITION. The hub: records and their checks (R31 to R33), launches from the host (R49 to R52), and the register
blocks and windows that tier 11 of die 0 reaches (R16, R248, R272). -/

namespace Sys2Proof.Machine

/-! ## Records (R31 to R33) -/

def bytesAt (bs : List Byte) (off len : Nat) : Nat := leNat ((bs.drop off).take len)

/-- The record that 64 bytes hold. -/
def Rec.ofBytes (bs : List Byte) : Rec :=
  let n := bytesAt bs
  { code := w64 (n 0 8), frame := w64 (n 8 8), join := w64 (n 0x10 8), foot := w64 (n 0x18 8), job := n 0x20 2, phase := n 0x22 2
    graph := n 0x24 2, launch := n 0x26 2, event := n 0x28 2, prio := n 0x2A 1, flags := BitVec.ofNat 8 (n 0x2B 1)
    tileMask := BitVec.ofNat 32 (n 0x2C 4), dieMask := BitVec.ofNat 8 (n 0x30 1), nfoot := BitVec.ofNat 8 (n 0x31 1)
    unit := BitVec.ofNat 16 (n 0x32 2), enqt := BitVec.ofNat 32 (n 0x34 4), state := w64 (n 0x38 8) }

/-- What the check of a record finds. -/
inductive RecCheck where
  | ok | illegal | priv
  deriving DecidableEq, Repr

/-- R33, and the fields that only the scheduler writes (R50, R354). `jobOk` says that JOB is bound to the issuer. A record
that is both malformed and of a wrong JOB is refused with PRIV (DESIGN CHOICE, log 74). -/
def State.checkRec (s : State) (pkg : Nat) (r : Rec) (jobOk : Bool) : RecCheck :=
  if !jobOk then .priv
  else if fld r.flags 2 6 ≠ 0 ∨ fld r.nfoot 6 2 ≠ 0 ∨ fld r.code 0 2 ≠ 0 ∨ fld r.join 0 3 ≠ 0 ∨ fld r.foot 0 4 ≠ 0
      ∨ fld r.nfoot 0 6 > 32 ∨ r.launch ≠ 0 ∨ r.unitId ≠ 0 ∨ r.enqt ≠ 0
      ∨ (bit r.flags 0 ∧ !((8 * pkg + r.evDie) ∈ (s.job r.job).dies))
      ∨ !((s.maskDies pkg r).any fun d => (dieTiles d).any fun k => s.admits r k) then .illegal
  else .ok

/-- Entries that a new launch of a record needs in the level table, and whether they fit (R26). -/
def State.levelRoom (s : State) (r : Rec) : Bool :=
  let par := match parentOf r 1 with
    | some (l, i) => levelsNeeded s r 4 l i
    | none => 0
  (s.die (s.homeDie r.job)).levels.length + 1 + par ≤ Config.levelEntries

/-! ## Launches (R49 to R52) -/

/-- The 128 bytes of a slot. -/
def Func.slotBytes (x : Func) (slot : Nat) : List Byte := (List.range 128).map fun i => Tab.get 0 x.window (128 * slot + i)

def State.modSlot (s : State) (p f slot : Nat) (h : Slot → Slot) : State :=
  s.modFunc p f fun x => { x with slots := Tab.put x.slots slot (h (Tab.get {} x.slots slot)) }

/-- A launch that fails: its completion entry (R52). -/
def State.launchFails (s : State) (p f slot status sub : Nat) : State :=
  let bs := (s.func p f).slotBytes slot
  s.complete p f { cqtag := BitVec.ofNat 32 (bytesAt bs 0x4C 4), status := status, sub := sub, slot := slot, done := 0, canc := 0
                   ptc := s.hubPtc p }

/-- LAUNCH_TORN with a subcode: BUSY clears, status bit 1 is set (R51). -/
def State.torn (s : State) (p f slot sub : Nat) : State :=
  (s.modSlot p f slot fun x => { x with busy := false, torn := true, notify := none }).launchFails p f slot Cls.launchTorn sub

/-- The launch waits on its event on the job's home die (R46, R50); a wait that finds no room is parked (R48). -/
def State.launchWait (s : State) (job key name thr : Nat) : State :=
  let d := s.homeDie job
  let ek := evKey job name
  let e := Tab.get {} (s.die d).events ek
  if thr ≤ e.count then s.release (.launch key thr)
  else if s.waiterRoom d ek then s.setEvent d ek { e with waiters := e.waiters ++ [.launch key thr] }
  else (({ s with nextId := s.nextId + 1 } : State).modDie d fun x =>
    { x with fwParked := Tab.put x.fwParked s.nextId { entry := {}, event := ek, thr := thr, launch := some key } }).tell d Cls.eventOverflow job name

/-- A matching record is copied, checked and accepted, or refused (R51 step 3, R33, R38). A launch that R33 refuses counts
as accepted in its slot: its stamp is the last accepted one, and status bit 1 clears (DESIGN CHOICE, log 74). Where the
level table has no room, the slot stays BUSY with its notify pending (R26). -/
def State.acceptLaunch (s : State) (p f slot : Nat) (v : W32) : State :=
  let bs := (s.func p f).slotBytes slot
  let r := Rec.ofBytes bs
  let n := bytesAt bs 0x40 2 + 1
  let lflags := bytesAt bs 0x46 2
  let job := s.job r.job
  let taken := s.modSlot p f slot fun x => { x with busy := false, torn := false, stamp := some v, notify := none }
  match s.checkRec p r (job.placed && job.fid = f) with
  | .priv => taken.launchFails p f slot Cls.priv 0
  | .illegal => taken.launchFails p f slot Cls.illegalOp 0
  | .ok =>
    if bytesAt bs 0x42 2 ≠ 0 ∨ lflags ≥ 4 ∨ bytesAt bs 0x50 44 ≠ 0 ∨ n > Config.unitIds * (s.maskDies p r).length then
      taken.launchFails p f slot Cls.illegalOp 0
    else if !s.levelRoom r then s
    else
      let id := s.newLaunch r.job
      let s := taken.bump
      let wv := lflags % 2 = 1
      let tag := BitVec.ofNat 32 (bytesAt bs 0x4C 4)
      let cqe := decide (lflags / 2 % 2 = 1)
      let hl : HostLaunch :=
        { pkg := p, fid := f, slot := slot, tmpl := r, count := n, launch := id, cqtag := tag, waiting := wv }
      let s := (openLevel s r 5 1 id).modLevel r.job 1 id fun e => { e with host := some (p, f, slot, tag, cqe) }
      let s := s.setJob r.job { s.job r.job with launches := (s.job r.job).launches ++ [hl] }
      if wv then s.launchWait r.job (id + 65536 * r.job) (bytesAt bs 0x44 2) (bytesAt bs 0x48 4) else s

/-- The stamp is compared with the notified value; `left` re-reads remain (R51 steps 1 to 4). -/
def State.compareStamp (s : State) (p f slot : Nat) (v : W32) (left : Nat) : State :=
  let stamp := BitVec.ofNat 32 (bytesAt ((s.func p f).slotBytes slot) 0x7C 4)
  if stamp = v then s.acceptLaunch p f slot v
  else match left with
    | 0 => s.torn p f slot 1
    | n + 1 => s.modSlot p f slot fun x => { x with notify := some (v, n) }

/-- A write to a notify register (R51). In recovery the launch window is not there (R273). -/
def State.notify (s : State) (p f slot : Nat) (v : W32) : State :=
  let x := s.func p f
  let sl := Tab.get {} x.slots slot
  if (s.pkg p).recovery ∨ Config.functions ≤ f ∨ 256 ≤ slot then s
  else if !x.en || x.flrb || sl.busy then s.modSlot p f slot fun x => { x with torn := true }
  else
    let s := s.modSlot p f slot fun x => { x with busy := true, notify := some (v, 64) }
    if sl.stamp = some v then s.torn p f slot 2 else s.compareStamp p f slot v 64

/-! ## Registers of the hub (R248, R272) -/

/-- A write to CQ_CTL (R272): setting EN restarts the entry count; EN with LOG2N outside 6 to 16 is discarded. In
recovery the window is not there (R273). -/
def State.writeCqCtl (s : State) (p f : Nat) (v : W64) : State :=
  let v := v &&& 0x00000000000E001F#64
  if Config.functions ≤ f ∨ (s.pkg p).recovery then s
  else if bit v 17 ∧ (cqLog2N v < 6 ∨ 16 < cqLog2N v) then s
  else (s.modFunc p f fun x => { x with cqCtl := v, cqN := if bit v 17 ∧ !bit x.cqCtl 17 then 0 else x.cqN }).flushCq p f

/-- A write to CQ_HEAD (R272). -/
def State.writeCqHead (s : State) (p f : Nat) (v : W32) : State :=
  if Config.functions ≤ f ∨ (s.pkg p).recovery then s
  else (s.modFunc p f fun x => { x with cqHead := v }).flushCq p f

/-- A write of 4 or 8 bytes to a 64-bit register by its halves. -/
def mergeHalf (old : W64) (off len v : Nat) : W64 :=
  if len = 8 then w64 v
  else if off % 8 = 0 then w64 (old.toNat / 2 ^ 32 * 2 ^ 32 + v) else w64 (v * 2 ^ 32 + old.toNat % 2 ^ 32)

/-- A write at a hub offset: the state after it, or the class of its fault. A function block takes none but the root
monitor's (R248). -/
def State.hubWrite (s : State) (p off len v : Nat) : Except Nat State :=
  let o := hubOff off
  let put (old : Tab Byte) (at_ : Nat) : Tab Byte := (List.range len).foldl (fun t i => Tab.set 0 t (at_ + i) (BitVec.ofNat 8 (v / 2 ^ (8 * i)))) old
  match hubPlace o with
  | .block _ _ => .error Cls.priv
  | .window f w =>
    if (s.pkg p).recovery then .ok s
    else if w < 0x8000 then .ok (s.modFunc p f fun x => { x with window := put x.window w })
    else if w < 0x8400 then
      let s := s.notify p f ((w - 0x8000) / 4) (BitVec.ofNat 32 v)
      .ok (if len = 8 then s.notify p f ((w - 0x8000) / 4 + 1) (BitVec.ofNat 32 (v / 2 ^ 32)) else s)
    else if 0xE000 ≤ w ∧ w < 0xE008 then
      .ok (s.modFunc p f fun x => { x with cqBase := mergeHalf x.cqBase w len v &&& 0xFFFFFFFFFFFFF000#64 })
    else if 0xE008 ≤ w ∧ w < 0xE010 then .ok (s.writeCqCtl p f (mergeHalf (s.func p f).cqCtl w len v))
    else if w = 0xE010 then .ok (s.writeCqHead p f (BitVec.ofNat 32 v))
    else .ok s
  | .mailbox => .ok (if (s.pkg p).recovery then s else s.modPkg p fun x => { x with mgmt := put x.mgmt o })

end Sys2Proof.Machine
end

