-- ==== Sys2Proof/Machine/Levels.lean ====
section
/-! DEFINITION. Cancelling work and closing level entries (R25 to R30, R293, R298). -/

namespace Sys2Proof.Machine

/-- Is the entry (level, id) the entry (tl, ti), or below it (R25)? -/
def isUnder (s : State) (j tl ti : Nat) : Nat → Nat → Nat → Bool
  | 0, _, _ => false
  | fuel + 1, level, id =>
    (level = tl && id = ti) || (match s.findLevel j level id with
      | some e => match e.parent with
        | some (l, i) => isUnder s j tl ti fuel l i
        | none => false
      | none => false)

/-- FLAGS.CANC is set (R30). -/
def Entry.canc (e : Entry) : Entry := { e with cr := { e.cr with flags := e.cr.flags ||| 0x20 } }
def cancIf (p : Entry → Bool) (e : Entry) : Entry := if p e then e.canc else e
def Parked.cancIf (p : Entry → Bool) (x : Parked) : Parked :=
  if x.launch.isNone then { x with entry := Machine.cancIf p x.entry } else x

/-- The unit on tile k is cancelled, as its state has it (R30, R264). -/
def State.cancelTile (s : State) (k : Nat) : State :=
  let t := s.tile k
  let mark : State := s.setTile k
    { t with cancelAt := some (t.cancelAt.getD (s.ptc (tileDie k))), seg := t.seg.map fun g => { g with void := true } }
  match t.status with
  | .idle => s
  | .running => mark
  | .draining => s.takeCut k .cancel t.order t.pc t.clause
  -- its EXIT has retired: it is complete
  | .retiring _ => s
  | .cutting (.trap _) | .cutting (.save _) | .cutting (.replay _) => mark
  | .cutting _ => s

/-- Waiters that p and pl name leave a wait list: units are discarded at once, and a launch goes on registering units that
are discarded at their registration (R30). The waits that the field firmware has parked for launches end with them. -/
def State.cancelWaiters (s : State) (d : Nat) (p : Entry → Bool) (pl : Nat → Bool) : State :=
  let hit (w : Waiter) : Bool := match w with
    | .unit e _ => p e
    | .launch key _ => pl key
  let parked := (s.die d).fwParked.filterMap fun x => x.2.launch.bind fun key => if pl key then some key else none
  let gone := (s.die d).events.flatMap fun x => x.2.waiters.filter hit
  let s := s.modDie d fun x =>
    { x with events := (x.events.map fun (y : Nat × Event) => (y.1, { y.2 with waiters := y.2.waiters.filter fun w => !hit w })).filter
               fun y => y.2.active
             fwParked := x.fwParked.filter fun y => !(y.2.launch.any pl) }
  let s := parked.foldl (fun s key => s.release (.launch key 0)) s
  gone.foldl (fun s w => match w with
    | .unit e _ => s.discardRecord e.die e.canc
    | .launch _ _ => s.release w) s

/-- Some unit of the die, in any state but complete, is one that p names. -/
def State.anyUnit (s : State) (d : Nat) (p : Entry → Bool) : Bool :=
  let x := s.die d
  (x.queues.any fun q => q.2.any fun e => p e)
  || (x.events.any fun q => q.2.waiters.any fun w => match w with
      | .unit e _ => p e
      | .launch _ _ => false)
  || (x.aside.any fun q => p q.2.entry) || (x.fwParked.any fun q => q.2.launch.isNone && p q.2.entry)
  || ((dieTiles d).any fun k => !(s.tile k).isIdle && p (s.tile k).entry)

/-- Every unit of a die that p names is cancelled, and every launch waiting there that pl names (R30). -/
def State.cancelDie (s : State) (d : Nat) (p : Entry → Bool) (pl : Nat → Bool) : State :=
  let s := s.modDie d fun x =>
    { x with queues := x.queues.map fun (q : Nat × List Entry) => (q.1, q.2.map (cancIf p))
             aside := x.aside.map fun (q : Nat × Parked) => (q.1, q.2.cancIf p)
             fwParked := x.fwParked.map fun (q : Nat × Parked) => (q.1, q.2.cancIf p) }
  let s := s.cancelWaiters d p pl
  (dieTiles d).foldl (fun s k => if p (s.tile k).entry then s.cancelTile k else s) s

/-- CANCEL of a level and id of a job; `die` is the die that a level 0 id names. Answers whether it found something
(R293). -/
def State.cancelWork (s : State) (j level id die : Nat) : State × Bool :=
  if level = 0 then
    let p (e : Entry) : Bool := e.cr.job = j && e.cr.unitId = id && e.die = die
    let ds := (s.job j).dies
    (ds.foldl (fun s d => s.cancelDie d p fun _ => false) s, ds.any fun d => s.anyUnit d p)
  else if (level = 2 ∨ level = 3) ∧ id = 0 then (s, false)
  else
    match s.findLevel j level id with
    | none => (s, false)
    | some _ =>
      let p (e : Entry) : Bool := e.cr.job = j && isUnder s j level id 5 1 e.cr.launch
      let pl (key : Nat) : Bool := key / 65536 = j && isUnder s j level id 5 1 (key % 65536)
      let s := s.modLevel j level id fun e => { e with cancelled := true }
      ((s.job j).dies.foldl (fun s d => s.cancelDie d p pl) s, true)

/-- Closed entries whose event is on die d complete now where its table can take their signal (R26, R48). -/
def State.retryLevels (s : State) (d : Nat) : State :=
  (s.dies.flatMap fun x => x.2.levels.filter fun e => e.closed && e.count = 0 && (e.event.any fun v => v.1 = d)).foldl
    (fun s e => levelCheck s e.job 5 e.level e.id) s

/-- CMPL of an entry: the state, and the result of R298. -/
def State.closeEntry (s : State) (j level id : Nat) (ev : Option (Nat × Nat)) : State × Nat :=
  match s.findLevel j level id with
  | some e =>
    if e.closed then (s, 1)
    else (levelCheck (s.modLevel j level id fun e => { e with closed := true, event := ev }) j 5 level id, 0)
  | none => ((match ev with
      | some (d, name) => s.signal d j name 1
      | none => s), 2)

/-! ## Registering the units of a SPAWN or a JOIN (R354, R327) -/

/-- Units i up to n of a launch are registered; none where some unit finds no die with a free id, or a full queue. -/
def registerAll (pkg reg : Nat) (r : Rec) (launch : Nat) : Nat → Nat → State → Option State
  | 0, _, s => some s
  | n + 1, i, s =>
    match s.registerUnit pkg (some reg) r launch i with
    | some s => registerAll pkg reg r launch n (i + 1) s
    | none => none

/-- n units of a record are registered for die `reg` in one step under a new launch, which is closed: its id. None where
the level table, a ring or the unit ids have no room for all of them. -/
def State.spawn (s : State) (reg : Nat) (r : Rec) (n : Nat) : Option (State × Nat) :=
  let launch := s.newLaunch r.job
  if !s.levelRoom r then none
  else (registerAll (diePkg reg) reg r launch n 0 (openLevel s.bump r 5 1 launch)).map fun s => (s.closeLaunch r.job launch, launch)

/-- Some die that the record admits has a full queue at its level (R35). -/
def State.ringFull (s : State) (pkg : Nat) (r : Rec) : Bool := (s.maskDies pkg r).any fun d => s.queueFull d r.prio

end Sys2Proof.Machine
end

