-- ==== Sys2Proof/Machine/Home.lean ====
section
/-! DEFINITION. What a home does with a request: loads, stores, atomics (R281, R284), events (R46 to R48), barriers
(R223), sequences (R194 to R210, R425) and ATQ (R245). A home on the requester's own die answers in the same step. -/

namespace Sys2Proof.Machine

/-- What a home makes of a request: an answer, or the request kept with the narrowings it waits for, and the kind of the
message that its wait for room sends to the field firmware. -/
inductive Homed where
  | done (a : Answer)
  | keep (acks : List Nat) (tell : Option Nat)
  deriving DecidableEq, Repr

def Homed.value (v : W64) (flags : Nat := 0) : Homed := .done (.value v flags)
def Homed.fault (cls : Nat) (addr : W64) : Homed := .done (.fault cls addr)

/-! ## Atomics (R281, R284) -/

/-- The value an integer atomic writes; none where it writes nothing. Codes count from major opcode 0x30; 13 is the
counter of JOIN (R327). -/
def amoInt (op n : Nat) (old v cmp : Nat) : Option Nat :=
  match op with
  | 0 => some ((old + v) % 2 ^ n)
  | 1 => some (old &&& v)
  | 2 => some (old ||| v)
  | 3 => some (old ^^^ v)
  | 4 => some (if sextN old n < sextN v n then v else old)
  | 5 => some (if old < v then v else old)
  | 6 => some (if sextN v n < sextN old n then v else old)
  | 7 => some (if v < old then v else old)
  | 11 => if old = cmp then some v else none
  | 12 => some v
  | _ => if old = 0 then none else some (old - 1)

/-- A floating-point atomic: its result and all flags. `cnt` is the count of the operand (R284). -/
def amoFloat (op : Nat) (old v cnt : Nat) (fpc : W64) : Nat × Nat :=
  let r := match op with
    | 8 => fpMinMax .f32 true old 24 v cnt
    | 9 => fpMinMax .f32 false old 24 v cnt
    | _ => fpAdd .f32 (fpcRm fpc) (unpack .f32 old) (if (unpack .f32 old).finite then 24 else 0) (unpack .f32 v) cnt
  (r.bits, if op = 10 then r.allFlags fpc else r.flags)

/-- One atomic at the plain address of its location. -/
def State.amoAt (s : State) (q op size : Nat) (v cmp : W64) (fpc : W64) : State × Homed :=
  let old := readLe s q size
  let n := 8 * size
  if 8 ≤ op ∧ op ≤ 10 then
    let (r, fl) := amoFloat op old (v.toNat % 2 ^ 32) cmp.toNat fpc
    match flagTrap fpc fl with
    | some _ => (s, .value (w64 old) fl)
    | none => (s.writeAtomic q (leBytes 4 r), .value (w64 old) fl)
  else match amoInt op n old (v.toNat % 2 ^ n) (cmp.toNat % 2 ^ n) with
    | some x => (s.writeAtomic q (leBytes size x), .value (w64 old))
    | none => (s, .value (w64 old))

/-! ## Sequences: handles and blocks (R194, R205) -/

def seqIndex (h : W64) : Nat := fld h 16 14
/-- The handle of a descriptor of die d (R194). -/
def State.mkHandle (s : State) (d job idx : Nat) (gen : BitVec 16) : W64 :=
  w64 (s.pkgName (diePkg d) * 2 ^ 54 + dieNum d * 2 ^ 51 + job * 2 ^ 32 + idx * 2 ^ 16 + gen.toNat)

/-- The part of the handle check that the requester can make: reserved bits and JOB (R194). -/
def handleOk (h : W64) (job : Nat) : Bool := fld h 48 3 = 0 && fld h 30 2 = 0 && fld h 32 16 = job

/-- The descriptor of a handle at its home (R194). -/
def State.seqOf (s : State) (d : Nat) (h : W64) (job : Nat) : Option Seqn :=
  let q := Tab.get {} (s.die d).seqs (seqIndex h)
  if handleOk h job && q.live && q.job = job && q.genOf d (seqIndex h) = h.setWidth 16 then some q else none

/-- The die that holds block number b (R205). -/
def blockDie (d : Nat) (blkDies : BitVec 8) (b : Nat) : Nat :=
  let ds := (List.range 8).filter fun i => bit blkDies i
  if ds.isEmpty then d else 8 * diePkg d + ds.getD (b % ds.length) 0

/-- A block for block number b of a descriptor; none where its die's pool is empty. The rule says only a block of the pool: the
model takes the head of the list, and takes it where the die is lost too, whose pool the spec neither empties nor bars
(DESIGN CHOICE, log 106). -/
def State.allocBlock (s : State) (d : Nat) (q : Seqn) (b : Nat) : Option State :=
  if (s.btEntry q b).v then some s
  else
    let o := blockDie d q.blkDies b
    match (s.jobDie o q.job).pool with
    | [] => none
    | blk :: rest =>
      let s := s.modJobDie o q.job fun x => { x with pool := rest }
      let s := s.modDie o fun x => { x with resolver := Tab.put x.resolver blk { (Tab.get { target := 0, refs := 0 } x.resolver blk) with refs := 1 } }
      some (s.setBt q b { v := true, sh := false, die := dieNum o, block := blk })

/-- Blocks for `n` numbers from b on; all or none. -/
def allocBlocks (d : Nat) (q : Seqn) : Nat → Nat → State → Option State
  | 0, _, s => some s
  | n + 1, b, s => match s.allocBlock d q b with
    | none => none
    | some s => allocBlocks d q n (b + 1) s

/-- A place for a block table of n bytes in the die's area: the lowest one that no live sequence's table meets (log 76). -/
def State.tableRoom (s : State) (d n : Nat) : Option Nat :=
  let x := s.die d
  let used := (x.seqs.filter fun p => p.2.live).map fun p => (p.2.bt, 8 * p.2.blocks)
  let fits (c : Nat) : Bool := x.btBase ≤ c && c + n ≤ x.btBase + x.btLen && !used.any fun u => u.1 < c + n && c < u.1 + u.2
  ((x.btBase :: used.map fun u => u.1 + u.2).filter fits).foldl (fun b c => match b with
    | none => some c
    | some y => some (min y c)) none

/-- A descriptor of a new sequence, with its block table in the home die's HBM, every entry invalid (R196, R207): its number
and what it holds. None where there is no free descriptor, or no room for the table. -/
def State.newSeq (s : State) (d : Nat) (q : Seqn) : Option (State × Nat × Seqn) :=
  let used := ((s.die d).seqs.filter fun p => p.2.live).map fun p => p.1
  if Config.seqDescriptors ≤ used.length then none
  else match s.tableRoom d (8 * q.blocks) with
    | none => none
    | some bt =>
      let i := pickFree used Config.seqDescriptors s.fresh
      let gen := (Tab.get {} (s.die d).seqs i).genOf d i
      some ((s.bump.zeroRange bt (8 * q.blocks)), i, { q with live := true, gen := some gen, bt := bt })

/-- The plain tier-10 address of a block. -/
def BlockEntry.plain (e : BlockEntry) (d : Nat) : Nat := mkPlain (8 * diePkg d + e.die) 2 (e.block * 65536)

/-- Marked slots stay in ascending order. -/
def winInsert : List Nat → Nat → List Nat
  | [], x => [x]
  | y :: r, x => if x < y then x :: y :: r else if x = y then y :: r else y :: winInsert r x

/-- The end of the run of marked slots from c on. -/
def runEnd : List Nat → Nat → Nat
  | [], c => c
  | x :: r, c => if x = c then runEnd r (c + 1) else c

/-- CL passes the run of marked slots (R198). -/
def Seqn.advance (q : Seqn) : Seqn :=
  let c := runEnd q.win q.cl
  { q with cl := c, win := q.win.filter fun x => c ≤ x }

/-- The byte of its block at which the W range of a grant on block b starts when CL is c (R199, R202). -/
def Seqn.startByte (q : Seqn) (b c : Nat) : Nat :=
  if (b + 1) * q.spb ≤ c then 65536 else if c ≤ b * q.spb then 0 else (c - b * q.spb) * 2 ^ q.slotLog2
/-- The byte at which it ends when RC is r. -/
def Seqn.endByte (q : Seqn) (b r : Nat) : Nat :=
  if (b + 1) * q.spb ≤ r then 65536 else if r ≤ b * q.spb then 0 else (r - b * q.spb) * 2 ^ q.slotLog2

/-- Narrowings are sent to the grants given, each to start at its byte; the numbers of their messages. -/
def State.narrow (s : State) (d idx req : Nat) (q : Seqn) (gs : List RegGrant) (c : Nat) (drop : Bool) : State × List Nat :=
  gs.foldl (fun (s, ids) g =>
    (s.post (.narrow d idx g.tile g.num g.unit (if drop then 65536 else q.startByte g.blk c) req drop
      (s.mkHandle d q.job idx (q.genOf d idx)) g.blk), ids ++ [s.nextId])) (s, [])

/-- The handle a request works on. -/
def HomeOp.handle? : HomeOp → Option W64
  | .sqRes h _ | .sqCom h _ _ | .sqLen h | .sqFork h _ | .sqDrop h | .sqSlot h _ | .sqSeal h | .sqWait h _ => some h
  | _ => none

/-- Another request is between its narrowings and its end on the descriptor (R195, R202). -/
def State.seqBusy (s : State) (id : Nat) (h : W64) : Bool :=
  s.reqs.any fun p => p.1 ≠ id && !p.2.acks.isEmpty && p.2.op.handle? = some h

/-- A request that waits at its home for a descriptor, a block or a grant's place (R196, R197, R199). -/
def Homed.noRoom : Homed := .keep [] (some Cls.seqWindow)

/-- The grant entry that was installed longest ago (R199). -/
def Tile.oldestGrant (t : Tile) : Option Nat :=
  (t.grants.foldl (fun (b : Option (Nat × Nat)) (p : Nat × Grant) => match b with
    | some x => if p.2.age < x.2 then some (p.1, p.2.age) else b
    | none => some (p.1, p.2.age)) none).map Prod.fst

/-- The tile's grant on a block: refreshed, or installed in the free entry of the lowest number (the rule says only a free
entry: DESIGN CHOICE, log 104), or the oldest one, with the counter's stamp (R199). The slot address and the entry. -/
def State.installGrant (s : State) (k : Nat) (h : W64) (b plain wlo whi byte : Nat) : State × W64 × Nat :=
  let t := s.tile k
  let addr (num : Nat) (stamp : BitVec 16) : W64 := w64 (0xFD * 2 ^ 56 + num * 2 ^ 53 + stamp.toNat * 2 ^ 16 + byte)
  match List.find? (fun (p : Nat × Grant) => p.2.handle = h && p.2.blk = b) t.grants with
  | some p =>
    (s.setTile k { t with grants := Tab.put t.grants p.1 { p.2 with wlo := wlo, whi := whi } }, addr p.1 p.2.stamp, p.1)
  | none =>
    let num := match (List.range 8).find? fun n => (Tab.find? t.grants n).isNone with
      | some n => n
      | none => t.oldestGrant.getD 0
    let g : Grant := { handle := h, blk := b, plain := plain, wlo := wlo, whi := whi, stamp := t.grantCtr, age := t.grantAge }
    -- the grant taken over leaves its home's register
    let s := match Tab.find? t.grants num with
      | some old => match s.seqHome (diePkg (tileDie k)) old.handle with
        | some d => s.modDie d fun x =>
          { x with seqs := x.seqs.map fun (q : Nat × Seqn) =>
              (q.1, { q.2 with grants := q.2.grants.filter fun g => !(g.tile = k && g.num = num && g.unit = t.entry.cr.unitId) }) }
        | none => s
      | none => s
    (s.setTile k { t with grants := Tab.put t.grants num g, grantCtr := t.grantCtr + 1, grantAge := t.grantAge + 1 },
     addr num t.grantCtr, num)

/-- A store checked against a grant has not been performed yet (R202). -/
def Tile.storesThrough (t : Tile) (num : Nat) : Bool :=
  t.storeQ.any (fun e => e.grant = some num) || t.posted.any (fun p => p.grant = some num)
  || t.journal.any fun e => match e.kind with
    | .store _ _ _ g => g = some num
    | _ => false

/-- Grants registered at a home (R199). -/
def Die.grantCount (x : Die) : Nat := (x.seqs.map fun p => p.2.grants.length).sum

/-! ## The sequence operations at their home -/

def seqLen (q : Seqn) : W64 := w64 (q.cl + (if q.sealed then 2 ^ 63 else 0))

/-- A sequence operation on its live descriptor (R197 to R208). Where the partial block of an SQFORK, the old one or the new
one, lies on a lost die or at a place that no memory answers to, the spec is silent: nothing is copied, and the fork succeeds
(DESIGN CHOICE, log 106). -/
def State.seqOp (s : State) (id : Nat) (r : Request) (h : W64) (q : Seqn) : State × Homed :=
  let d := r.dst
  let idx := seqIndex h
  let window : State × Homed := (s, .fault Cls.seqWindow h)
  match r.op with
  | .sqRes _ n =>
    if 2 ^ 32 ≤ n then window
    else if q.sealed then (s, .fault Cls.seqClosed h)
    else if q.rc + n > q.cap then window
    else if n = 0 then (s, .value (w64 q.rc))
    else
      let b0 := q.rc / q.spb
      match allocBlocks d q ((q.rc + n - 1) / q.spb + 1 - b0) b0 s with
      | none => (s, .noRoom)
      | some s => (s.setSeq d idx { q with rc := q.rc + n }, .value (w64 q.rc))
  | .sqCom _ start n =>
    if 2 ^ 32 ≤ start ∨ 2 ^ 32 ≤ n then window
    else if n = 0 then (s, .value 0)
    else if start + n > q.rc ∨ start + n > q.cl + 4096 then window
    else
      let lo := max start q.cl
      let q := { q with win := ((List.range (start + n - lo)).map (· + lo)).foldl winInsert q.win }
      let c := runEnd q.win q.cl
      let gs := if c = q.cl then [] else q.grants.filter fun g => q.cl / q.spb ≤ g.blk && g.blk ≤ (c - 1) / q.spb
      if gs.isEmpty then (s.setSeq d idx q.advance, .value 0)
      else
        let (s, ids) := (s.setSeq d idx q).narrow d idx id q gs c false
        (s, .keep ids none)
  | .sqLen _ => (s, .value (seqLen q))
  | .sqWait _ k =>
    if 2 ^ 32 ≤ k then window
    else if k ≤ q.cl ∨ (q.sealed ∧ q.rc < k) then (s, .value (seqLen q)) else (s, .keep [] none)
  | .sqSeal _ => (s.setSeq d idx { q with sealed := true }, .value 0)
  | .sqFork _ k =>
    if 2 ^ 32 ≤ k ∨ q.cl < k then window
    else
      let whole := k / q.spb
      let ents := (List.range whole).map fun b => (b, s.btEntry q b)
      let refs (s : State) (e : BlockEntry) : Resolved := Tab.get { target := 0, refs := 0 } (s.die (8 * diePkg d + e.die)).resolver e.block
      if ents.any fun p => (refs s p.2).refs = 2 ^ 32 - 1 then window
      else match s.newSeq d { job := q.job, slotLog2 := q.slotLog2, cap := q.cap, scope := q.scope, blkDies := q.blkDies, cl := k, rc := k } with
        | none => (s, .noRoom)
        | some (u, ni, nq) =>
          match (if k % q.spb = 0 then some u else u.allocBlock d nq whole) with
          | none => (s, .noRoom)
          | some u =>
            let u := ents.foldl (fun u p =>
              let o := 8 * diePkg d + p.2.die
              let u := u.modDie o fun x => { x with resolver := Tab.put x.resolver p.2.block { (refs u p.2) with refs := (refs u p.2).refs + 1 } }
              (u.setBt nq p.1 { p.2 with sh := true }).setBt q p.1 { p.2 with sh := true }) u
            let u := if k % q.spb = 0 then u else
              let n := k % q.spb * 2 ^ q.slotLog2
              match u.resolve d ((u.btEntry q whole).plain d) 65536, u.resolve d ((u.btEntry nq whole).plain d) 65536 with
              | some p, some t =>
                let bs := u.bytes p n ++ (List.range (65536 - n)).map fun i => Config.freeByte (u.fresh + i)
                ({ u with fresh := u.fresh + 65536 } : State).writePlain t bs
              | _, _ => u
            (u.setSeq d ni nq, .value (u.mkHandle d q.job ni (nq.genOf d ni)))
  | .sqDrop _ =>
    if q.grants.isEmpty then (s.freeSeq d idx, .value 0)
    else
      let (s, ids) := s.narrow d idx id q q.grants 0 true
      (s, .keep ids none)
  | .sqSlot _ i =>
    if 2 ^ 32 ≤ i then window
    else if q.rc ≤ i then (s, .fault Cls.extent h)
    else
      let b := i / q.spb
      let unit := (s.tile r.tile).entry.cr.unitId
      let known := q.grants.any fun g => g.tile = r.tile && g.blk = b && g.unit = unit
      if !known ∧ Config.grantRegister ≤ (s.die d).grantCount then (s, .noRoom)
      else if r.dead then (s, .value 0)
      else
        let (s, va, num) := s.installGrant r.tile h b ((s.btEntry q b).plain d) (q.startByte b q.cl) (q.endByte b q.rc)
          (i % q.spb * 2 ^ q.slotLog2)
        let s := s.modDie d fun x =>
          { x with seqs := Tab.put x.seqs idx { (Tab.get {} x.seqs idx) with
              grants := (Tab.get {} x.seqs idx).grants.filter (fun g => !(g.tile = r.tile && g.blk = b && g.unit = unit)) ++ [{ tile := r.tile, num := num, blk := b, unit := unit }] } }
        (s, .value va)
  | _ => (s, .value 0)

/-! ## ATQ (R245) and the outcome log (R244) -/

/-- older(x, y) of R245. -/
def older (x y : BitVec 16) : Bool := 1 ≤ (y - x).toNat && (y - x).toNat ≤ 32767

/-- A log for a requester tile that has none at home d. Where the area is full, the log used longest ago is freed for it
and its tile is marked (R244). -/
def Die.openLog (x : Die) (d tile : Nat) (l : OutLog) : Die :=
  let oldest := x.logs.foldl (fun (m : Option (Nat × Nat)) (e : Nat × OutLog) => match m with
    | some (k, u) => if e.2.used < u then some (e.1, e.2.used) else some (k, u)
    | none => some (e.1, e.2.used)) none
  match oldest with
  | some (k, _) =>
    if x.logs.length < Nat.max 1 (Config.logArea d) then { x with logs := Tab.put x.logs tile l }
    else { x with logs := Tab.put (Tab.erase x.logs k) tile l, freed := if k ∈ x.freed then x.freed else x.freed ++ [k] }
  | none => { x with logs := Tab.put x.logs tile l }

/-- The answer of ATQ at a home. A query that enters nothing does not count as a use of the log (DESIGN CHOICE, log 113). -/
def State.atq (s : State) (r : Request) (tag : BitVec 16) : State × Homed :=
  let x := s.die r.dst
  let pair (v : W64) (st : Nat) : Homed := .done (.pair v (w64 st))
  if r.dst = r.src then (s, pair 0 3)
  else match Tab.find? x.logs r.tile with
    | none =>
      if r.tile ∈ x.freed then (s, pair 0 2)
      else
        let e : LogEntry := { tag := tag, state := 2, job := r.job }
        (s.setDie r.dst (x.openLog r.dst r.tile { first := tag, entries := [(tag.toNat % 64, e)], used := s.ns }), pair 0 1)
    | some l =>
      let e := Tab.get {} l.entries (tag.toNat % 64)
      let e' : LogEntry := { tag := tag, state := 2, job := r.job }
      let l' : OutLog := { l with entries := Tab.put l.entries (tag.toNat % 64) e', used := s.ns }
      let refuse : State × Homed := (s.setDie r.dst { x with logs := Tab.put x.logs r.tile l' }, pair 0 1)
      if e.state = 0 then (if l.recreated && older tag l.first then (s, pair 0 2) else refuse)
      else if e.job ≠ r.job ∨ (e.tag ≠ tag ∧ !older e.tag tag) then (s, pair 0 2)
      else if e.tag = tag then (if e.state = 1 then (s, pair e.result 0) else (s, pair 0 1))
      else refuse

/-- A logged request uses its requester's log at the home, and its outcome, where it has one, enters it; a log is made where
there is none (R244). -/
def State.useLog (s : State) (r : Request) (enter : Tab LogEntry → Tab LogEntry) : State :=
  s.modDie r.dst fun x =>
    match Tab.find? x.logs r.tile with
    | some l => { x with logs := Tab.put x.logs r.tile { l with entries := enter l.entries, used := s.ns } }
    | none => x.openLog r.dst r.tile { first := r.tag, recreated := decide (r.tile ∈ x.freed), entries := enter [], used := s.ns }

/-- The outcome of a logged request enters its requester's log. -/
def State.logOutcome (s : State) (r : Request) (st : Nat) (res : W64) : State :=
  s.useLog r fun t => Tab.put t (r.tag.toNat % 64) { tag := r.tag, state := st, opc := r.opc, job := r.job, result := res }

/-- The flags of an atomic that TEN enables: it has written nothing (R284). -/
def Request.flagFault (r : Request) (flags : Nat) : Option Nat :=
  match r.op with
  | .amo _ _ _ _ _ fpc => flagTrap fpc flags
  | _ => none

/-- The home has applied the request that it answers so: it has not faulted, and no flag has trapped (R244, R245, R284). -/
def Request.applied (r : Request) (a : Answer) : Bool :=
  match a with
  | .value _ fl => (r.flagFault fl).isNone
  | .pair _ _ => true
  | .fault _ _ | .refused => false

/-- What a logged request's answer leaves in the log: an applied one is entered, and one that has faulted or trapped only uses
the log, since the spec has no STATE for it (DEDUCED, log 102). -/
def State.logAnswer (s : State) (r : Request) (a : Answer) : State :=
  if !r.logged then s
  else match a with
    | .value v _ => if r.applied a then s.logOutcome r 1 v else s.useLog r id
    | _ => s.useLog r id

/-! ## Events at their table (R46 to R48, R310, R311) -/

/-- The unit on tile k is saved as YIELD saves it: CODE, EXT and g1 to g8 in its extension line; the tile is freed
(R55). -/
def State.yieldSave (s : State) (k : Nat) : State × Entry :=
  let t := s.tile k
  let e := { t.entry with
    cr := { t.entry.cr with code := t.pc + 4, flags := (t.entry.cr.flags ||| 4) &&& 0xF7 }
    ext := (List.range 8).map fun i => t.gReg (i + 1), frame := none }
  (s.freeTile k, e)

/-- The unit on a tile is to be cancelled: a cancel request has reached it, or its cut for one is being taken. -/
def Tile.toCancel (t : Tile) : Bool :=
  t.cancelAt.isSome || (match t.status with
    | .cutting .cancel => true
    | _ => false)

/-- The unit on a tile ends otherwise than in a wait: it is aborted, or its function is reset. -/
def Tile.toEnd (t : Tile) : Bool :=
  match t.status with
  | .cutting (.abort _) | .cutting .flr => true
  | _ => false

/-- A wait reaches the table: met, it returns at once; unmet, the unit is parked in the wait list, or by the field
firmware where there is no room (R48). A cancel that reached the unit meanwhile takes effect here (R30). -/
def State.eventWait (s : State) (r : Request) (die job name thr : Nat) : State × Homed :=
  let key := evKey job name
  let e := Tab.get {} (s.die die).events key
  if thr ≤ e.count then (s, .value 1)
  else if r.dead ∨ (s.tile r.tile).toEnd then (s, .value 0)
  else if (s.tile r.tile).toCancel then
    let (s, u) := s.yieldSave r.tile
    (s.discardRecord r.src u.canc, .value 0)
  else
    let (s, u) := s.yieldSave r.tile
    if s.waiterRoom die key then (s.setEvent die key { e with waiters := e.waiters ++ [.unit u thr] }, .value 0)
    else (((({ s with nextId := s.nextId + 1 } : State)).modDie die fun x =>
      { x with fwParked := Tab.put x.fwParked s.nextId { entry := u, event := key, thr := thr } }).tell die Cls.eventOverflow job name, .value 0)

/-! ## Any request at its home -/

/-- A plain access at its home: where it is performed, or the fault the home reports (R174, R249, R270). -/
def State.homeAccess (s : State) (r : Request) (plain len : Nat) : Except Homed Place :=
  match s.place r.dst plain len with
  | .bad => .error (.fault Cls.extent r.addr)
  | .lost => .error (.fault Cls.targetLost r.addr)
  | .mem q =>
    if s.foreign r.fid q then .error (.fault Cls.extent r.addr)
    else if (s.badSector q len).isSome then .error (.fault Cls.uncorrectable r.addr)
    else .ok (.mem q)
  | p => .ok p

/-- The home performs request number `id`. An EVSIG.R, an EVPOLL or an EVWAIT that reaches the table while an earlier signal of
its event is held in the pending-signal buffer acts on the event as it stands; the held signal is added afterwards
(DESIGN CHOICE, log 110). -/
def State.atHome (s : State) (id : Nat) (r : Request) : State × Homed :=
  match r.op with
  | .load p len =>
    match s.homeAccess r p len with
    | .error h => (s, h)
    | .ok (.mem q) => (s, .value (w64 (readLe s q len)))
    | .ok (.hub off) => (s, .value (w64 (s.hubRead (diePkg r.dst) off len)))
    -- a register of a die's own MMIO block: the spec gives its place and no value (log 62)
    | .ok _ => (s.bump, .value (w64 (leNat ((List.range len).map fun i => Config.mmioByte (2 ^ 55 * s.fresh + p + i)))))
  | .store p bs =>
    match s.homeAccess r p bs.length with
    | .error h => (s, h)
    | .ok (.mem q) => (s.writePlain q bs, .value 0)
    | .ok (.hub off) =>
      match s.hubWrite (diePkg r.dst) off bs.length (leNat bs) with
      | .ok s => (s, .value 0)
      | .error c => (s, .fault c r.addr)
    | .ok _ => (s, .value 0)
  | .amo op p size v cmp fpc =>
    match s.homeAccess r p size with
    | .error h => (s, h)
    | .ok (.mem q) => s.amoAt q op size v cmp fpc
    | .ok _ => (s, .fault Cls.extent r.addr)
  | .join p =>
    match s.joinAt r.dst r.fid p with
    | .ok s => (s, .value 0)
    | .error c => (s, .fault c r.addr)
  | .spawn cr n reg =>
    match s.spawn reg cr n with
    | some (s, launch) => (s, .value (w64 launch))
    | none => (s, .keep [] (if s.ringFull (diePkg reg) cr then some 1 else none))
  | .cancel level id =>
    let (s, found) := s.cancelWork r.job level id r.dst
    (s, .value (if found then 0 else 1))
  | .count cr cancelled => (s.launchChild cr cancelled, .value 0)
  | .cmpl level id ev =>
    let room := match ev with
      | some (d, name) => d ∈ s.lost || s.signalRoom d r.job name 1
      | none => true
    if (s.findLevel r.job level id).isNone ∧ !room then (s, .keep [] none)
    else
      let (s, res) := s.closeEntry r.job level id ev
      (s, .value (w64 res))
  | .evSignal die job name n reset =>
    let key := evKey job name
    if reset then (s.setEvent die key { (Tab.get {} (s.die die).events key) with count := 0 }, .value 0)
    else if !s.signalRoom die job name n then (s, .keep [] none)
    else (s.signal die job name n, .value 0)
  | .evPoll die job name => (s, .value (w64 (Tab.get {} (s.die die).events (evKey job name)).count))
  | .evWait die job name thr => s.eventWait r die job name thr
  | .bar die b v init =>
    let x := Tab.get {} (s.die die).bars b
    (s.setBar die b (if init then v else min (x.count + v) (2 ^ 64 - 1)), .value 0)
  | .atq _ tag => s.atq r tag
  | .sqNew cr job =>
    match s.newSeq r.dst { job := job, slotLog2 := bytesAt cr 4 1, cap := bytesAt cr 0 4, scope := bytesAt cr 5 1, blkDies := BitVec.ofNat 8 (bytesAt cr 8 1) } with
    | none => (s, .noRoom)
    | some (s, i, q) => (s.setSeq r.dst i q, .value (s.mkHandle r.dst job i (q.genOf r.dst i)))
  | op =>
    match op.handle? with
    | none => (s, .value 0)
    | some h =>
      match s.seqOf r.dst h r.job with
      | none => (s, .fault Cls.extent h)
      | some q => if s.seqBusy id h then (s, .keep [] none) else s.seqOp id r h q

/-! ## The requester's side (R245) -/

/-- One unit of a record could be registered now (R26, R35, R38). -/
def State.joinRoom (s : State) (k : Nat) (r : Rec) : Bool := (s.spawn (tileDie k) r 1).isSome

/-- The answer of a request reaches tile k: the word in hand ends with it, or faults. A JOIN whose counter has reached zero
goes on in `State.deliver`. -/
def State.endWord (s : State) (k : Nat) (r : Request) (a : Answer) : State :=
  let t := s.tile k
  match a with
  | .fault cls addr => s.failWord k { cls := cls, faddr := addr, atag := r.tag }
  | .refused => s
  | .pair v w => match r.sink with
    | .pair d => s.finishWord k fun t => (t.writeG d v).writeG (d + 1) w
    | _ => s.finishWord k id
  | .value v fl =>
    match flagTrap t.fpc fl with
    | some cls => (s.modTile k fun t => { t with fpc := t.fpc ||| BitVec.ofNat 64 fl }).failWord k { cls := cls, faddr := r.addr, atag := r.tag }
    | none =>
      match r.sink with
      | .g d size sign =>
        let x := v.toNat % 2 ^ (8 * size)
        s.finishWord k fun t => t.writeG d (if sign then BitVec.ofInt 64 (sextN x (8 * size)) else w64 x) fl
      | .f d none => s.finishWord k fun t => t.writeF d { val := v.setWidth 32, cnt := storeCount (v.setWidth 32) 24 } fl
      | .f _ (some _) =>
        -- the tag byte is read next, by the word itself (R137)
        if t.isRunning then (s.modTile k fun t => { t with wait := none }).stall k (.tagRead (v.setWidth 32)) none
        else (s.modTile k fun t => { t.unprefix with wait := none }).endCut k
      | .image done =>
        -- the word goes on with its next load (R364)
        if t.isRunning then (s.modTile k fun t => { t with wait := none }).stall k (.imageRead (done ++ leBytes 8 v.toNat)) none
        else (s.modTile k fun t => { t.unprefix with wait := none }).endCut k
      | .ftag d x => s.finishWord k fun t => t.writeF d { val := x, cnt := storeCount x (v.toNat % 32) }
      | .joinDone d => s.finishWord k fun t => t.writeG d 1
      | .joinCount d _ =>
        if v = 0 then s.finishWord k fun t => t.writeG d 2
        else if v = 1 then s
        else s.finishWord k fun t => t.writeG d 0
      | .eventWait => if v = 1 then s.finishWord k id else s
      | _ => s.finishWord k fun t => { t with fpc := t.fpc ||| BitVec.ofNat 64 fl }

/-- The event signal of a unit that completes has been made, or cannot be: its tile, where it held one, is freed, and its
last action follows (R28, R29). -/
def State.endSignal (s : State) (id : Nat) (r : Request) (fail : Option Nat) : State :=
  match r.sink with
  | .signalled e cancelled held =>
    let s := match fail with
      | some cls => s.damage r.src { s.unitDamage r.tile e.cr 6 cls with valid := 1, va := r.addr }
      | none => s
    let s := if held ∧ (s.tile r.tile).status = .retiring id then s.freeTile r.tile else s
    s.lastAction r.src e cancelled
  | _ => s

/-- The word in hand of tile k now waits for the answer of request `id`, whose effect has begun: it is not taken back
(log 80). -/
def State.awaitAnswer (s : State) (id : Nat) (r : Request) (bound : Option Nat) : State :=
  if r.dead ∨ !r.sink.ofWord then s
  else s.modTile r.tile fun t => match t.wait with
    | some w => { t with wait := some { w with on := .response id, since := s.dcc (tileDie r.tile), bound := bound } }
    | none => t

/-- A kept request that a change at its home answers: at once where the home is the requester's die, else by the
answer it sends back. -/
def State.answerKept (s : State) (id : Nat) (r : Request) (a : Answer) : State :=
  let s := s.logAnswer r a
  if r.src = r.dst then
    match r.sink with
    | .signalled _ _ _ => (s.dropReq id).endSignal id r none
    | .counted => s.dropReq id
    | _ => if r.dead then s.dropReq id else (s.dropReq id).endWord r.tile r a
  else if r.expired then s.dropReq id
  else
    let s := if r.op.roomWait.isSome then s.awaitAnswer id r none else s
    (s.answerReq id a).modReq id fun r =>
      { r with deadline := if r.op.roomWait.isSome then s.ptc r.src + fld (s.die r.src).reqTimeout 0 32 else r.deadline }

/-- The home keeps a request; the field firmware is told once, where the wait is for room (R35, R196, R197). -/
def State.keepReq (s : State) (id : Nat) (r : Request) (acks : List Nat) (tell : Option Nat) : State :=
  let s := match tell with
    | some kind => if r.told then s else s.tell r.dst kind r.job r.addr.toNat
    | none => s
  { s with reqs := Tab.put s.reqs id { r with kept := true, acks := acks, told := r.told || tell.isSome } }

/-- Waits on a sequence that its new length or its seal ends, and waits on a dropped one, are answered in order (R204,
R208). -/
def State.serveSeq (s : State) (h : W64) : State :=
  (s.reqs.filter fun p => p.2.kept && p.2.acks.isEmpty && p.2.answer.isNone && p.2.op.handle? = some h).foldl (fun s p =>
    match p.2.op with
    | .sqWait _ _ =>
      match s.atHome p.1 p.2 with
      | (s, .done a) => s.answerKept p.1 p.2 a
      | (_, .keep _ _) => s
    | _ => s) s

/-- The sequence whose waits a request's end may answer. -/
def HomeOp.seqAfter : HomeOp → Option W64
  | .sqCom h _ _ | .sqSeal h | .sqDrop h => some h
  | _ => none

def State.afterOp (s : State) (op : HomeOp) : State :=
  match op.seqAfter with
  | some h => s.serveSeq h
  | none => s

/-! ## Asking -/

/-- A request to a home on the tile's own die. -/
def State.ownRequest (s : State) (k : Nat) (op : HomeOp) (sink : Sink) (addr : W64) (opc : Nat) : Request :=
  { tile := k, fid := s.fidOf k, job := s.jobOf k, src := tileDie k, dst := tileDie k, op := op, sink := sink, addr := addr
    deadline := 0, logged := false, opc := opc }

/-- A request of the word in hand. Its home on the same die answers in the same step, by `dl`, or keeps it; another die
answers by a message (R243, R245). `on` and `bound` say what a kept local request stalls on. -/
def State.askWith (dl : State → Nat → Request → Answer → State) (s : State) (k dst : Nat) (op : HomeOp) (sink : Sink) (addr : W64)
    (logged : Bool) (opc : Nat) (on : Nat → WaitOn) (bound : Option Nat) : State :=
  let d := tileDie k
  if dst ∈ (s.die d).unreachable then s.fault k Cls.targetLost addr
  else if dst = d then
    let id := s.nextId
    let r := s.ownRequest k op sink addr opc
    match s.atHome id r with
    | (s, .done a) => dl (s.afterOp op) k r a
    | (s, .keep acks tell) =>
      let s := ({ s with nextId := max s.nextId (id + 1) } : State).keepReq id r acks tell
      let cap := some (capIssue (s.tile k).waitCap)
      s.stall k (if acks.isEmpty then r.roomWait.getD (on id) else .response id)
        (if acks.isEmpty then (if r.roomWait.isSome then cap else bound) else cap) true
  else if logged && Config.loggedMax ≤ s.loggedOpen k then s.stallIssue k .logged
  else
    let (s, id) := s.send k dst op sink addr logged opc
    let w := match op with
      | .sqWait _ _ => on id
      | _ => .response id
    s.stall k w (match op with
      | .sqWait _ _ => bound
      | _ => none) true

/-- The answer of a request reaches tile k. A JOIN whose counter has reached zero asks its job's home die to register its
record, and ends with that answer (R327). -/
def State.deliver (s : State) (k : Nat) (r : Request) (a : Answer) : State :=
  match r.sink, a with
  | .joinCount d cr, .value v _ =>
    if v = 1 then s.askWith State.endWord k (s.homeDie cr.job) (.spawn cr 1 (tileDie k)) (.joinDone d) r.addr false 0 .response none
    else s.endWord k r a
  | _, _ => s.endWord k r a

/-- A request of the word in hand (R243, R245). -/
def State.ask (s : State) (k dst : Nat) (op : HomeOp) (sink : Sink) (addr : W64) (logged : Bool := false) (opc : Nat := 0)
    (on : Nat → WaitOn := .response) (bound : Option Nat := none) : State :=
  s.askWith State.deliver k dst op sink addr logged opc on bound

end Sys2Proof.Machine
end

