-- ==== Sys2Proof/Machine/Operands.lean ====
section
/-! DEFINITION. Operand forms: immediates and their prefixes (R83, R84), the result of a scalar instruction written
and its flags (R126, R134), and the operands of micro-orders (R71, R96 to R98, R100). -/

namespace Sys2Proof.Machine

/-- The outcome type of every meaning. -/
abbrev Out := Host.Outcome State Fault Refusal

/-! ## Immediates -/

/-- The immediate of the word in hand, signed: its own field, or the field below its prefix (R83, R84). -/
def Tile.imm (t : Tile) {w : Nat} (own : BitVec w) : W64 :=
  match t.pfx with
  | some p => (p ++ own).signExtend 64
  | none => own.signExtend 64

/-- The immediate read as unsigned, where an instruction's entry says so (R83). -/
def Tile.immU (t : Tile) {w : Nat} (own : BitVec w) : Nat :=
  match t.pfx with
  | some p => p.toNat * 2 ^ w + own.toNat
  | none => own.toNat

/-- The target of a branch: the branch word's address plus 4 × offset (R83). -/
def Tile.target (t : Tile) {w : Nat} (off : BitVec w) : W64 := t.pc + 4 * t.imm off

/-- A bound field: 0 selects WAIT_CAP.DEFLT (R76). -/
def Tile.bound (t : Tile) (b : Nat) : Nat := if b = 0 then capDeflt t.waitCap else b

/-! ## Scalar results -/

/-- The CT writes g[d] and goes on. -/
def State.setG (s : State) (d : Nat) (v : W64) : Out := .next (s.retire ((s.tile s.focus).writeG d v))
/-- The CT writes q[d] and goes on. -/
def State.setQ (s : State) (d : Nat) (v : Bool) : Out := .next (s.retire ((s.tile s.focus).writeQ d v))

/-- A trap that flags raise at the word: the flags are set, the destination is not written (R126, R134). -/
def State.flagFault (s : State) (k cls flags : Nat) : State :=
  (s.modTile k fun t => { t with fpc := t.fpc ||| BitVec.ofNat 64 flags }).fault k cls

/-- A scalar floating-point result goes to f[d], or traps (R126, R134, R315). -/
def State.setF (s : State) (d : Nat) (r : FRes) : Out :=
  let t := s.tile s.focus
  let fl := r.allFlags t.fpc
  match flagTrap t.fpc fl with
  | some cls => .next (s.flagFault s.focus cls fl)
  | none => .next (s.retire (t.writeF d { val := BitVec.ofNat 32 r.bits, cnt := BitVec.ofNat 5 r.cnt } fl))

/-- A g result with flags, or a trap (R126). -/
def State.setGFlags (s : State) (d : Nat) (v : W64) (fl : Nat) : Out :=
  let t := s.tile s.focus
  match flagTrap t.fpc fl with
  | some cls => .next (s.flagFault s.focus cls fl)
  | none => .next (s.retire (t.writeG d v fl))

/-- A q result with flags, or a trap (R126, R317). -/
def State.setQFlags (s : State) (d : Nat) (v : Bool) (fl : Nat) : Out :=
  let t := s.tile s.focus
  match flagTrap t.fpc fl with
  | some cls => .next (s.flagFault s.focus cls fl)
  | none => .next (s.retire (t.writeQ d v fl))


/-- The CT's tile in focus. -/
def State.cur (s : State) : Tile := s.tile s.focus
/-- A g register of the tile in focus. -/
def State.g (s : State) {w : Nat} (n : BitVec w) : W64 := s.cur.gReg n.toNat

/-! ## Matrix register operands (R71, R96) -/

/-- An m operand byte: register, direction, index selector. -/
structure MOp where
  reg : Nat
  dir : Nat
  idx : Nat
  deriving DecidableEq, Repr

def mop (b : BitVec 8) : MOp := { reg := fld b 4 4, dir := fld b 2 2, idx := fld b 0 2 }

/-- The physical register that a logical one names (R71). -/
def physReg (rot : Bool) (rb n : Nat) : Nat := if rot ∧ 8 ≤ n then 8 + (n - 8 + rb) % 8 else n

/-- The element of its register that lane L of an operand names: its key in the tile's m table (R96). -/
def mKey (reg dir idx lane : Nat) : Nat :=
  let (r, c) := match dir with
    | 0 => (idx, lane)
    | 1 => (lane, idx)
    | 2 => (lane, (lane + idx) % 64)
    | _ => (lane, (idx + 64 - lane) % 64)
  reg * 4096 + r * 64 + c

/-- An operand of the running table: physical register and index value. -/
structure MRef where
  reg : Nat
  dir : Nat
  idx : Nat
  deriving DecidableEq, Repr

def Tile.mref (t : Tile) (v : VsRun) (o : MOp) : MRef :=
  { reg := physReg v.rot v.rb o.reg, dir := o.dir
    idx := (Tab.get 0 t.ix (o.idx + if v.bank then 4 else 0)).toNat % 64 }

def Tile.mGet (t : Tile) (r : MRef) (lane : Nat) : VElem := Tab.get {} t.m (mKey r.reg r.dir r.idx lane)
def Tile.mPut (t : Tile) (r : MRef) (lane : Nat) (e : VElem) : Tile := { t with m := Tab.set {} t.m (mKey r.reg r.dir r.idx lane) e }
def Tile.zGet (t : Tile) (n : Nat) : VElem := Tab.get {} t.z n
def Tile.zPut (t : Tile) (n : Nat) (e : VElem) : Tile := { t with z := Tab.set {} t.z n e }
def Tile.kPut (t : Tile) (n : Nat) (v : W64) : Tile := if n = 0 then t else { t with k := Tab.set 0 t.k n v }

/-- Every lane's value read before any is written (R98). -/
def Tile.mRead (t : Tile) (r : MRef) : List VElem := (List.range 64).map (t.mGet r)

/-- Lanes written with their elements. -/
def Tile.mWrite (t : Tile) (r : MRef) (vs : List (Nat × VElem)) : Tile := vs.foldl (fun t p => t.mPut r p.1 p.2) t

/-- The lanes that a step writes: those its tag's mask selects (R100). -/
def Tile.lanes (t : Tile) (msk : Nat) : List Nat :=
  if msk = 0 then List.range 64 else (List.range 64).filter fun l => (t.kGet msk).getLsbD l

end Sys2Proof.Machine
end

