-- ==== Sys2Proof/Machine/Integer.lean ====
section
/-! DEFINITION. The integer instructions, predicates and their logic (R285, R286, R297, R306, R334, R336, R348, R350,
R405). -/

namespace Sys2Proof.Machine

/-- Signed 64-bit clamp of an exact result (R7, R119). -/
def sat64 (z : Int) : W64 :=
  if z > 2 ^ 63 - 1 then BitVec.ofInt 64 (2 ^ 63 - 1) else if z < -(2 ^ 63) then BitVec.ofInt 64 (-(2 ^ 63)) else BitVec.ofInt 64 z

/-- Signed division truncating towards zero; a zero divisor gives all ones (R306). -/
def divS (a b : W64) : W64 := if b = 0 then BitVec.allOnes 64 else BitVec.ofInt 64 (a.toInt.tdiv b.toInt)
def divU (a b : W64) : W64 := if b = 0 then BitVec.allOnes 64 else a / b
/-- Remainder with the sign of the dividend; a zero divisor delivers the dividend (R336). -/
def remS (a b : W64) : W64 := if b = 0 then a else BitVec.ofInt 64 (a.toInt.tmod b.toInt)
def remU (a b : W64) : W64 := if b = 0 then a else a % b

/-- Zero bits above the most significant one bit (R297). -/
def clz64 (a : W64) : Nat := if a = 0 then 64 else 63 - Nat.log2 a.toNat
/-- One bits (R336). -/
def popc64 (a : W64) : Nat := ((List.range 64).filter fun i => a.getLsbD i).length

/-- The comparisons of BR and PSET (R291, R350). -/
def condHolds (c : BitVec 3) (a b : W64) : Bool :=
  match c.toNat with
  | 0 => a == b
  | 1 => a != b
  | 2 => a.slt b
  | 3 => !a.slt b
  | 4 => a.ult b
  | _ => !a.ult b

/-- g[d] := g[a] + g[b], wrapping (R285). -/
def execAdd (d a b : BitVec 6) (s : State) : Out :=
  s.setG d.toNat (s.g a + s.g b)

/-- g[d] := g[a] − g[b], wrapping (R336). -/
def execSub (d a b : BitVec 6) (s : State) : Out :=
  s.setG d.toNat (s.g a - s.g b)

/-- The low 64 bits of the product (R336). -/
def execMul (d a b : BitVec 6) (s : State) : Out :=
  s.setG d.toNat (s.g a * s.g b)

/-- Bits 127:64 of the signed product (R336). -/
def execMulHi (d a b : BitVec 6) (s : State) : Out :=
  s.setG d.toNat (BitVec.ofInt 64 ((s.g a).toInt * (s.g b).toInt / 2 ^ 64))

/-- Bits 127:64 of the unsigned product (R336). -/
def execMulHiN (d a b : BitVec 6) (s : State) : Out :=
  s.setG d.toNat (w64 ((s.g a).toNat * (s.g b).toNat / 2 ^ 64))

/-- Signed division (R306). -/
def execDiv (d a b : BitVec 6) (s : State) : Out :=
  s.setG d.toNat (divS (s.g a) (s.g b))

/-- Unsigned division (R306). -/
def execDivN (d a b : BitVec 6) (s : State) : Out :=
  s.setG d.toNat (divU (s.g a) (s.g b))

/-- Signed remainder (R336). -/
def execRem (d a b : BitVec 6) (s : State) : Out :=
  s.setG d.toNat (remS (s.g a) (s.g b))

/-- Unsigned remainder (R336). -/
def execRemN (d a b : BitVec 6) (s : State) : Out :=
  s.setG d.toNat (remU (s.g a) (s.g b))

/-- Bitwise AND (R286). -/
def execAnd (d a b : BitVec 6) (s : State) : Out :=
  s.setG d.toNat (s.g a &&& s.g b)

/-- Bitwise OR (R336). -/
def execOr (d a b : BitVec 6) (s : State) : Out :=
  s.setG d.toNat (s.g a ||| s.g b)

/-- Bitwise XOR (R405). -/
def execXor (d a b : BitVec 6) (s : State) : Out :=
  s.setG d.toNat (s.g a ^^^ s.g b)

/-- Left shift by g[b][5:0] (R336). -/
def execShl (d a b : BitVec 6) (s : State) : Out :=
  s.setG d.toNat (s.g a <<< fld (s.g b) 0 6)

/-- Logical right shift by g[b][5:0] (R336). -/
def execShr (d a b : BitVec 6) (s : State) : Out :=
  s.setG d.toNat (s.g a >>> fld (s.g b) 0 6)

/-- Arithmetic right shift by g[b][5:0] (R336). -/
def execSra (d a b : BitVec 6) (s : State) : Out :=
  s.setG d.toNat ((s.g a).sshiftRight (fld (s.g b) 0 6))

/-- Signed minimum (R336). -/
def execMin (d a b : BitVec 6) (s : State) : Out :=
  s.setG d.toNat (if (s.g b).slt (s.g a) then s.g b else s.g a)

/-- Unsigned minimum (R336). -/
def execMinN (d a b : BitVec 6) (s : State) : Out :=
  s.setG d.toNat (if (s.g b).ult (s.g a) then s.g b else s.g a)

/-- Signed maximum (R336). -/
def execMax (d a b : BitVec 6) (s : State) : Out :=
  s.setG d.toNat (if (s.g a).slt (s.g b) then s.g b else s.g a)

/-- Unsigned maximum (R336). -/
def execMaxN (d a b : BitVec 6) (s : State) : Out :=
  s.setG d.toNat (if (s.g a).ult (s.g b) then s.g b else s.g a)

/-- 1 if g[a] is below g[b] signed, else 0 (R336). -/
def execSlt (d a b : BitVec 6) (s : State) : Out :=
  s.setG d.toNat (if (s.g a).slt (s.g b) then 1 else 0)

/-- 1 if g[a] is below g[b] unsigned, else 0 (R336). -/
def execSltN (d a b : BitVec 6) (s : State) : Out :=
  s.setG d.toNat (if (s.g a).ult (s.g b) then 1 else 0)

/-- Leading zero bits, 64 for zero (R297). -/
def execClz (d a : BitVec 6) (s : State) : Out :=
  s.setG d.toNat (w64 (clz64 (s.g a)))

/-- One bits (R336). -/
def execPopc (d a : BitVec 6) (s : State) : Out :=
  s.setG d.toNat (w64 (popc64 (s.g a)))

/-- Sign extension of the low 8 bits (R336). -/
def execSextB (d a : BitVec 6) (s : State) : Out :=
  s.setG d.toNat (((s.g a).setWidth 8).signExtend 64)

/-- Sign extension of the low 16 bits (R336). -/
def execSextH (d a : BitVec 6) (s : State) : Out :=
  s.setG d.toNat (((s.g a).setWidth 16).signExtend 64)

/-- Sign extension of the low 32 bits (R336). -/
def execSextW (d a : BitVec 6) (s : State) : Out :=
  s.setG d.toNat (((s.g a).setWidth 32).signExtend 64)

/-- Signed sum clamped to 64 bits (R285). -/
def execAddSat (d a b : BitVec 6) (s : State) : Out :=
  s.setG d.toNat (sat64 ((s.g a).toInt + (s.g b).toInt))

/-- Signed difference clamped to 64 bits (R336). -/
def execSubSat (d a b : BitVec 6) (s : State) : Out :=
  s.setG d.toNat (sat64 ((s.g a).toInt - (s.g b).toInt))

/-- g[d] := g[a] + the signed immediate (R285). -/
def execAddImm (d a : BitVec 6) (i : BitVec 13) (s : State) : Out :=
  s.setG d.toNat (s.g a + s.cur.imm i)

/-- g[d] := the signed immediate shifted left by 13 (R334). -/
def execLih (d : BitVec 6) (i : BitVec 19) (s : State) : Out :=
  s.setG d.toNat (s.cur.imm i <<< 13)

/-- q := the comparison of g[a] with g[b] (R350). -/
def execPset (c q : BitVec 3) (a b : BitVec 6) (s : State) : Out :=
  s.setQ q.toNat (condHolds c (s.g a) (s.g b))

/-- q[d] := the AND of q[a] and q[b] (R348). -/
def execPlogAnd (d a b : BitVec 3) (s : State) : Out :=
  let x := s.cur.qReg a.toNat
  let y := s.cur.qReg b.toNat
  s.setQ d.toNat (x && y)

/-- q[d] := the OR of q[a] and q[b] (R348). -/
def execPlogOr (d a b : BitVec 3) (s : State) : Out :=
  let x := s.cur.qReg a.toNat
  let y := s.cur.qReg b.toNat
  s.setQ d.toNat (x || y)

/-- q[d] := the exclusive OR of q[a] and q[b] (R348). -/
def execPlogXor (d a b : BitVec 3) (s : State) : Out :=
  let x := s.cur.qReg a.toNat
  let y := s.cur.qReg b.toNat
  s.setQ d.toNat (x != y)

/-- q[d] := the AND of a with the complement of b of q[a] and q[b] (R348). -/
def execPlogAndn (d a b : BitVec 3) (s : State) : Out :=
  let x := s.cur.qReg a.toNat
  let y := s.cur.qReg b.toNat
  s.setQ d.toNat (x && !y)

/-- q[d] := the complement of q[a] (R348). -/
def execPlogNot (d a : BitVec 3) (s : State) : Out :=
  s.setQ d.toNat (!s.cur.qReg a.toNat)

end Sys2Proof.Machine
end

