-- ==== Sys2Proof/Machine/Memory.lean ====
section
/-! DEFINITION. Loads and stores of the control thread and its fences (R176, R179 to R184, R320, R332, R333, R357,
R358). -/

namespace Sys2Proof.Machine

/-- An instruction that performs only at commit, on the state in hand (R59). -/
def State.commitThen (s : State) (f : State → Out) : Out :=
  if s.cur.ahead then .next (s.stallIssue s.focus .commit) else f s

/-- A word that waits for every earlier store and posted request of its CT: a fence, a release, YIELD (R181, R183,
R245, R358). A fault reported for one of them is raised here. -/
def State.drained (s : State) (f : State → Out) : Out :=
  let t := s.cur
  match t.reports.find? fun r => !r.leg with
  | some r => .next ((s.setTile s.focus { t with reports := t.reports.erase r }).raiseReport s.focus r)
  | none =>
    if !t.storeQ.isEmpty then .next (s.stallIssue s.focus .storeQueue)
    else if !t.posted.isEmpty then .next (s.stall s.focus .posted none)
    else f s

/-- A release waits so; another access goes on (R183). -/
def State.releaseIf (s : State) (rel : Bool) (f : State → Out) : Out := if rel then s.drained f else f s

/-- Where the home of a checked access is. -/
inductive At where
  | here | away (die : Nat) | device (die : Nat)
  deriving DecidableEq, Repr

/-- The home of a checked plain address as seen from die d (R16, R174, R178). A device is a die's own MMIO block, or the
hub. -/
def State.at (s : State) (d p len : Nat) : At :=
  match s.place d p len with
  | .mmio | .hub _ => .device (plainDie p)
  | _ => if plainDie p = d then .here else .away (plainDie p)

/-- Any byte of an access is a byte of a pending store. -/
def Tile.anyForwarded (t : Tile) (va : W64) (len : Nat) : Bool :=
  let ps := t.pendingStores
  (List.range len).any fun i => (pendingByte (va + BitVec.ofNat 64 i) ps).isSome

/-- An earlier store on the path of an access has yet to leave its queue, and a MARK stands between them (R181). -/
def Tile.marked (t : Tile) (p : Nat) : Bool := t.storeQ.any fun e => e.pos < t.markPos && pathOf e.plain = pathOf p

/-- A local read at a checked address, with the fault of its home (R333). -/
def State.readHere (s : State) (k : Nat) (va : W64) (a : Acc) (len : Nat) : Except AFault (List Byte) :=
  if a.fallow then .ok (List.replicate len 0)
  else if s.cur.allForwarded va len then .ok (s.cur.forward va (List.replicate len 0))
  else match s.resolve (tileDie k) a.plain len with
    | none => .error (Cls.extent, va)
    | some q =>
      if (s.badSector q len).isSome then .error (Cls.uncorrectable, va)
      else .ok (s.cur.forward va (s.readAcc k a len))

/-- A load of 1 to 8 bytes (R332, R333): by value where its home is here or its bytes are the CT's own, else by a
request. `fin` takes the value to its destination, `sink` says the same to the answer. -/
def State.load (s : State) (ea : W64) (len : Nat) (sink : Sink) (fin : State → Nat → Out) : Out :=
  let k := s.focus
  let d := tileDie k
  if ea.toNat % len ≠ 0 then .next (s.fault k Cls.align ea)
  else match s.check k ea len .r true false (if len < 4 then .misaligned else .performed) with
    | .error (c, va) => .next (s.fault k c va)
    | .ok a =>
      if a.fallow then fin s 0
      else match s.at d a.plain len with
        | .device die => s.commitThen fun s =>
            if s.cur.anyForwarded ea len || s.cur.marked a.plain then .next (s.stallIssue k .storeQueue)
            else .next (s.ask k die (.load a.plain len) sink ea)
        | .here =>
          if s.cur.marked a.plain && !s.cur.allForwarded ea len then .next (s.stallIssue k .storeQueue)
          else match s.readHere k ea a len with
          | .error (c, va) => .next (s.fault k c va)
          | .ok bs => fin s (leNat bs)
        | .away die =>
          if s.cur.allForwarded ea len then fin s (leNat (s.cur.forward ea (List.replicate len 0)))
          else if s.cur.anyForwarded ea len then .next (s.stallIssue k .storeQueue)
          else .next (s.ask k die (.load a.plain len) sink ea)

/-- A load's value at its size, extended. -/
def extend (v size : Nat) (sign : Bool) : W64 := if sign then BitVec.ofInt 64 (sextN v (8 * size)) else w64 v

/-- The displacement of an M2 word times the access size (R332). -/
def State.dispEa (s : State) (b : BitVec 6) (i : BitVec 5) (size : Nat) : W64 := s.g b + s.cur.imm i * w64 size

/-- g[d] := the value at the address, sign- or zero-extended (R332, R333). -/
def execLd (d b : BitVec 6) (_sc : BitVec 3) (_o : BitVec 2) (z : BitVec 2) (g : BitVec 1) (i : BitVec 5) (s : State) : Out :=
  let size := 2 ^ z.toNat
  s.load (s.dispEa b i size) size (.g d.toNat size (g = 1)) fun s v => s.setG d.toNat (extend v size (g = 1))

/-- Stores of the word in hand, checked, enter the store queue, or the journal where the CT runs ahead (R59, R179). -/
def State.enqueueStores (s : State) (rel : Bool) (es : List (W64 × Acc × List Byte)) : Out :=
  let t := s.cur
  let es := es.filter fun e => !e.2.1.fallow
  if t.ahead then
    if t.journal.length + es.length > Config.journalSize then .next (s.stallIssue s.focus .journal)
    else .next (s.retire (es.foldl (fun t e => t.journalAdd (.store e.1 e.2.1.plain e.2.2 e.2.1.grant) 0 rel) t))
  else s.releaseIf rel fun s =>
    if t.storeQ.length + es.length > Config.storeQueueSize then .next (s.stallIssue s.focus .storeQueue)
    else .next (s.retire { t with storeQ := t.storeQ ++ es.map fun e => { va := e.1, plain := e.2.1.plain, bytes := e.2.2, grant := e.2.1.grant, pos := t.order } })

/-- The checks of a store at its issue (R333 with W, R357). -/
def State.storeCheck (s : State) (ea : W64) (len : Nat) (slots tagged : Bool) (dev : Tier11) : Except AFault Acc := do
  let a ← s.check s.focus ea len .w slots tagged dev true
  if a.fallow then .ok a
  else match s.place (tileDie s.focus) a.plain len with
    | .mem q => if plainDie a.plain = tileDie s.focus ∧ (s.badSector q len).isSome then .error (Cls.uncorrectable, ea) else .ok a
    | _ => .ok a

/-- A store of 1 to 8 bytes; one to tier 11 is performed at commit (R357, R358, R176). -/
def State.store (s : State) (ea : W64) (rel : Bool) (bs : List Byte) : Out :=
  let k := s.focus
  if ea.toNat % bs.length ≠ 0 then .next (s.fault k Cls.align ea)
  else match s.storeCheck ea bs.length true false (if bs.length < 4 then .misaligned else .performed) with
    | .error (c, va) => .next (s.fault k c va)
    | .ok a =>
      if plainTier a.plain = 3 ∧ !a.fallow then
        s.commitThen fun s => s.enqueueStores rel [(ea, a, bs)]
      else s.enqueueStores rel [(ea, a, bs)]

/-- The low bytes of g[d] go to memory (R357). -/
def execSt (d b : BitVec 6) (_sc : BitVec 3) (o : BitVec 2) (z : BitVec 2) (i : BitVec 5) (s : State) : Out :=
  let size := 2 ^ z.toNat
  s.store (s.dispEa b i size) (o = 2) (leBytes size (s.g d).toNat)

/-- f[d] := 32 bits, with count 24 or 0 (R320, R131). -/
def execFld (d : BitVec 5) (a : BitVec 6) (i : BitVec 13) (s : State) : Out :=
  s.load (s.g a + s.cur.imm i) 4 (.f d.toNat none) fun s v =>
    .next (s.retire (s.cur.writeF d.toNat { val := BitVec.ofNat 32 v, cnt := storeCount (BitVec.ofNat 32 v) 24 }))

/-- The bits of f[d] go to memory (R320). -/
def execFst (d : BitVec 5) (a : BitVec 6) (i : BitVec 13) (s : State) : Out :=
  s.store (s.g a + s.cur.imm i) false (leBytes 4 (s.cur.fReg d.toNat).val.toNat)

/-- The virtual address of the tag byte of an element (R136). -/
def State.tagAddr (s : State) (k : Nat) (va : W64) : W64 :=
  (Tab.get { root := 0, fid := 0, job := 0, tagBase := 0, live := false } (s.die (tileDie k)).asids (s.tile k).asid).tagBase + (va >>> 2)

/-- The bytes of one of the two reads of a tagged load: here, or by a request whose answer `sink` takes. -/
def State.tagPart (s : State) (va : W64) (acc : Acc) (len : Nat) (sink : Sink) (fin : Nat → Out) : Out :=
  let k := s.focus
  if acc.fallow then fin 0
  else if s.cur.allForwarded va len then fin (leNat (s.cur.forward va (List.replicate len 0)))
  else if s.cur.marked acc.plain || (plainDie acc.plain ≠ tileDie k && s.cur.anyForwarded va len) then .next (s.stallIssue k .storeQueue)
  else if plainDie acc.plain ≠ tileDie k then .next (s.ask k (plainDie acc.plain) (.load acc.plain len) sink va)
  else match s.readHere k va acc len with
    | .error (c, va) => .next (s.fault k c va)
    | .ok bs => fin (leNat bs)

/-- The value that a tagged load has read in an earlier turn (R137). -/
def Tile.tagValue (t : Tile) : Option W32 :=
  match t.wait with
  | some { on := .tagRead v, .. } => some v
  | _ => none

/-- f[d] := 32 bits and the count its tag byte holds (R136, R320). The value is read first, and the tag byte in a later turn:
the two have no joint atomicity (R137). -/
def execFldT (d : BitVec 5) (a : BitVec 6) (i : BitVec 13) (s : State) : Out :=
  let k := s.focus
  let ea := s.g a + s.cur.imm i
  let ta := s.tagAddr k ea
  if ea.toNat % 4 ≠ 0 then .next (s.fault k Cls.align ea)
  else match s.check k ea 4 .r false true .refused, s.check k ta 1 .r false false .refused with
    | .error (c, va), _ => .next (s.fault k c va)
    | _, .error (c, va) => .next (s.fault k c va)
    | .ok acc, .ok tacc =>
      let fin (v : W32) (tag : Nat) : Out := .next (s.retire (s.cur.writeF d.toNat { val := v, cnt := storeCount v tag }))
      if acc.fallow then fin 0 0
      else match s.cur.tagValue with
        | some v => s.tagPart ta tacc 1 (.ftag d.toNat v) fun tag => fin v (tag % 32)
        | none => s.tagPart ea acc 4 (.f d.toNat (some ta)) fun v => .next (s.stall k (.tagRead (BitVec.ofNat 32 v)) none)

/-- The bits of f[d] go to memory, then its count to the tag byte (R136, R137, R320). -/
def execFstT (d : BitVec 5) (a : BitVec 6) (i : BitVec 13) (s : State) : Out :=
  let k := s.focus
  let ea := s.g a + s.cur.imm i
  let ta := s.tagAddr k ea
  let f := s.cur.fReg d.toNat
  if ea.toNat % 4 ≠ 0 then .next (s.fault k Cls.align ea)
  else match s.storeCheck ea 4 false true .refused, s.storeCheck ta 1 false false .refused with
    | .error (c, va), _ => .next (s.fault k c va)
    | _, .error (c, va) => .next (s.fault k c va)
    | .ok acc, .ok tacc =>
      s.enqueueStores false [(ea, acc, leBytes 4 f.val.toNat), (ta, tacc, leBytes 1 f.cnt.toNat)]

/-! ## Images (R364, R406) -/

/-- What stands in the way of an image: a fault, a wait, or the home on another die of its next 8 bytes. -/
inductive ImageStop where
  | fault (cls : Nat) (va : W64)
  | wait (on : WaitOn)
  | away (die plain : Nat) (va : W64) (done : List Byte)
  deriving DecidableEq, Repr

/-- The bytes of the image that the word in hand has loaded in earlier turns. -/
def Tile.imageRead (t : Tile) : List Byte :=
  match t.wait with
  | some { on := .imageRead bs, .. } => bs
  | _ => []

/-- One of the 8-byte loads of an image, after those that are done: a plain load of the CT, checked, ordered and forwarded as
its loads are (R45, R180, R364). A fallow page reads zero, or stops the word (R242, R364). -/
def State.imageWord (s : State) (k : Nat) (va : W64) (done : List Byte) (fallow : Bool) : Except ImageStop (List Byte) :=
  let t := s.tile k
  match s.check k va 8 .r with
  | .error (c, x) => .error (.fault c x)
  | .ok a =>
    if a.fallow then (if fallow then .ok (List.replicate 8 0) else .error (.fault Cls.extent va))
    else match s.at (tileDie k) a.plain 8 with
      | .here =>
        if t.marked a.plain && !t.allForwarded va 8 then .error (.wait .storeQueue)
        else match s.readHere k va a 8 with
          | .error (c, x) => .error (.fault c x)
          | .ok bs => .ok bs
      | .device die =>
        if t.ahead then .error (.wait .commit)
        else if t.anyForwarded va 8 || t.marked a.plain then .error (.wait .storeQueue)
        else .error (.away die a.plain va done)
      | .away die =>
        if t.allForwarded va 8 then .ok (t.forward va (List.replicate 8 0))
        else if t.anyForwarded va 8 then .error (.wait .storeQueue)
        else .error (.away die a.plain va done)

/-- The loads that are left. -/
def State.imageRest (s : State) (k : Nat) (va : W64) (len : Nat) (fallow : Bool) : Nat → List Byte → Except ImageStop (List Byte)
  | 0, done => .ok done
  | fuel + 1, done =>
    if len ≤ done.length then .ok done
    else match s.imageWord k (va + w64 done.length) done fallow with
      | .error x => .error x
      | .ok bs => s.imageRest k va len fallow fuel (done ++ bs)

/-- An image of `len` bytes, read as plain 8-byte loads of the CT (R364). Those of an image on the own die are performed in one
step (log 32). -/
def State.loadImage (s : State) (k : Nat) (va : W64) (len : Nat) (fallow : Bool) : Except ImageStop (List Byte) :=
  s.imageRest k va len fallow (len / 8 + 1) (s.tile k).imageRead

/-- A word that cannot have its image yet: it faults, waits, or asks for the next bytes (R364). -/
def State.imageStop (s : State) (x : ImageStop) : Out :=
  let k := s.focus
  .next (match x with
    | .fault c va => s.fault k c va
    | .wait on => s.stallIssue k on
    | .away die plain va done => s.ask k die (.load plain 8) (.image done) va)

/-! ## Fences (R181, R188) -/

/-- A store of the CT has yet to commit: it stands before a fence in program order (R179). -/
def Tile.storesAhead (t : Tile) : Bool := t.journal.any fun e => match e.kind with
  | .store _ _ _ _ => true
  | _ => false

/-- Every earlier store has entered its queue, and what a FENCE waits for is over (R179, R181). -/
def State.fence (s : State) : Out :=
  if s.cur.storesAhead then .next (s.stallIssue s.focus .commit)
  else s.drained fun s => .next (s.retire s.cur)

/-- The queues of the CT are realigned, once the MARK has its place in both (R179): stores to other dies have their responses, and stores to this die leave before any
later access does, without being waited for (R181). -/
def execMark (s : State) : Out :=
  let k := s.focus
  let t := s.cur
  match t.reports.find? fun r => !r.leg with
  | some r => .next ((s.setTile k { t with reports := t.reports.erase r }).raiseReport k r)
  | none =>
    if t.storesAhead then .next (s.stallIssue k .commit)
    else if Config.storeQueueSize ≤ t.storeQ.length then .next (s.stallIssue k .storeQueue)
    else if t.storeQ.any fun e => plainDie e.plain ≠ tileDie k then .next (s.stallIssue k .storeQueue)
    else if !t.posted.isEmpty then .next (s.stall k .posted none)
    else .next (s.retire { t with markPos := t.order })
/-- Every earlier access has been performed at its home (R181). -/
def execFence (_sc : BitVec 3) (s : State) : Out := s.fence
/-- As FENCE; no later load takes a forwarded value (R188). -/
def execAfence (s : State) : Out := s.fence

/-! ## The store queue performs an entry (R177, R180) -/

/-- An entry that an earlier entry of the same path does not hold back (R180). -/
def Tile.storeReady (t : Tile) (n : Nat) : Option SEntry :=
  match t.storeQ[n]? with
  | none => none
  | some e => if (t.storeQ.take n).any fun x => pathOf x.plain = pathOf e.plain then none else some e

/-- The operation of a queued entry. -/
def SEntry.op (e : SEntry) : HomeOp :=
  match e.amo with
  | none => .store e.plain e.bytes
  | some (op, size, v) => .amo op e.plain size v (w64 e.cnt) e.fpc

/-- Entry n of the tile's store queue is performed: at once where its home is on the die, else as a posted request
(R245, R358). -/
def State.performStore (s : State) (k n : Nat) : State :=
  let t := s.tile k
  let d := tileDie k
  match t.storeReady n with
  | none => s
  | some e =>
    let s := s.setTile k { t with storeQ := t.storeQ.eraseIdx n }
    let dst := plainDie e.plain
    let report (s : State) (cls : Nat) : State :=
      s.modTile k fun t => { t with reports := t.reports ++ [{ cls := cls, addr := e.va, tag := e.tag }] }
    if dst ∈ (s.die d).unreachable then (report s Cls.targetLost).settle k
    else if dst = d then
      let r := s.ownRequest k e.op .posted e.va 0
      match s.atHome s.nextId r with
      | (s, .done (.fault c _)) => (report s c).settle k
      | (s, .done (.value _ fl)) =>
        let trap := flagTrap e.fpc fl
        let s := s.modTile k fun t => { t with fpc := t.fpc ||| BitVec.ofNat 64 fl }
        ((match trap with
          | some c => report s c
          | none => s)).settle k
      | (s, _) => s.settle k
    else
      let logged := e.amo.isSome
      if logged && Config.loggedMax ≤ s.loggedOpen k then s.setTile k t
      else
        let (s, id) := s.send k dst e.op .posted e.va logged (match e.amo with
          | some (op, _, _) => 0x30 + op
          | none => 0)
        let s := s.modReq id fun r => { r with grant := e.grant }
        (s.modTile k fun t => { t with posted := t.posted ++ [{ id := id, addr := e.va, grant := e.grant, pos := e.pos }] }).settle k

end Sys2Proof.Machine
end

