-- ==== Sys2Proof/Machine/Atomic.lean ====
section
/-! DEFINITION. The memory atomics and ATQ (R189, R190, R245, R280 to R284, R287). -/

namespace Sys2Proof.Machine

/-- The checks of an atomic before its home (R283, R176, R200). -/
def State.atomicCheck (s : State) (ea : W64) (size : Nat) (nr : Bool := false) : Except AFault Acc :=
  if ea.toNat % size ≠ 0 then .error (Cls.align, ea)
  else s.check s.focus ea size .rw false false .refused nr

/-- A returning atomic has no place in the store queue yet (R179), or an earlier entry there is on its path (R180 rules 1 and
4). -/
def Tile.pathBusy (t : Tile) (p : Nat) : Bool :=
  Config.storeQueueSize ≤ t.storeQ.length || t.storeQ.any fun e => pathOf e.plain = pathOf p

/-- No-return atomics in the store queue that are to become logged requests (R243). -/
def Tile.loggedQueued (t : Tile) (d : Nat) : Nat := (t.storeQ.filter fun e => e.amo.isSome && plainDie e.plain ≠ d).length

/-- Any atomic: `op` counts from major opcode 0x30, `v` is the operand, `cmp` the comparand of ACAS or the count of a
floating-point operand. -/
def State.atomic (s : State) (op size : Nat) (ea v cmp : W64) (rel nr : Bool) (sink : Sink) : Out :=
  s.commitThen fun s =>
    let k := s.focus
    match s.atomicCheck ea size nr with
    | .error (c, va) => .next (s.fault k c va)
    | .ok a =>
      s.releaseIf rel fun s =>
        let t := s.cur
        if nr then
          if a.fallow then .next (s.retire t)
          else if t.storeQ.length ≥ Config.storeQueueSize then .next (s.stallIssue k .storeQueue)
          else if plainDie a.plain ≠ tileDie k ∧ Config.loggedMax ≤ s.loggedOpen k + t.loggedQueued (tileDie k) then .next (s.stallIssue k .logged)
          else
            let e : SEntry := { va := ea, plain := a.plain, bytes := [], amo := some (op, size, v), tag := t.atag, pos := t.order, fpc := t.fpc
                                cnt := cmp.toNat }
            .next (s.retire { t with storeQ := t.storeQ ++ [e] })
        else if a.fallow then
          match sink with
          | .g d _ _ => s.setG d 0
          | .f d _ => moveF d s
          | _ => .next (s.retire t)
        else if t.pathBusy a.plain then .next (s.stallIssue k .storeQueue)
        else .next (s.ask k (plainDie a.plain) (.amo op a.plain size v cmp t.fpc) sink ea true (0x30 + op))
where
  /-- A fallow page returns zero (R242). -/
  moveF (d : Nat) (s : State) : Out := .next (s.retire (s.cur.writeF d { val := 0, cnt := 24 }))

/-- The integer mould (R280, R281). -/
def State.atomicInt (s : State) (op : Nat) (d a b : BitVec 6) (o : BitVec 2) (z n : BitVec 1) : Out :=
  let size := if z = 0 then 4 else 8
  let sign := !(op = 5 || op = 7)
  s.atomic op size (s.g a) (s.g b) (s.g d) (o = 2) (n = 1) (.g d.toNat size sign)

/-- The floating-point mould (R284). -/
def State.atomicFloat (s : State) (op : Nat) (d : BitVec 5) (a : BitVec 6) (b : BitVec 5) (o : BitVec 2) (n : BitVec 1) : Out :=
  let x := s.cur.fReg b.toNat
  s.atomic op 4 (s.g a) (x.val.setWidth 64) (w64 x.cnt.toNat) (o = 2) (n = 1) (.f d.toNat none)

/-- old + v (R281). -/
def execAadd (d a b : BitVec 6) (_s : BitVec 3) (o : BitVec 2) (z n : BitVec 1) (s : State) : Out := s.atomicInt 0 d a b o z n
/-- old AND v (R281). -/
def execAlogAnd (d a b : BitVec 6) (_s : BitVec 3) (o : BitVec 2) (z n : BitVec 1) (s : State) : Out := s.atomicInt 1 d a b o z n
/-- old OR v (R281). -/
def execAlogOr (d a b : BitVec 6) (_s : BitVec 3) (o : BitVec 2) (z n : BitVec 1) (s : State) : Out := s.atomicInt 2 d a b o z n
/-- old XOR v (R281). -/
def execAlogXor (d a b : BitVec 6) (_s : BitVec 3) (o : BitVec 2) (z n : BitVec 1) (s : State) : Out := s.atomicInt 3 d a b o z n
/-- Signed maximum (R281). -/
def execAmax (d a b : BitVec 6) (_s : BitVec 3) (o : BitVec 2) (z n : BitVec 1) (s : State) : Out := s.atomicInt 4 d a b o z n
/-- Unsigned maximum (R281). -/
def execAmaxN (d a b : BitVec 6) (_s : BitVec 3) (o : BitVec 2) (z n : BitVec 1) (s : State) : Out := s.atomicInt 5 d a b o z n
/-- Signed minimum (R281). -/
def execAmin (d a b : BitVec 6) (_s : BitVec 3) (o : BitVec 2) (z n : BitVec 1) (s : State) : Out := s.atomicInt 6 d a b o z n
/-- Unsigned minimum (R281). -/
def execAminN (d a b : BitVec 6) (_s : BitVec 3) (o : BitVec 2) (z n : BitVec 1) (s : State) : Out := s.atomicInt 7 d a b o z n
/-- maximumNumber (R284). -/
def execAmaxf (d : BitVec 5) (a : BitVec 6) (b : BitVec 5) (_s : BitVec 3) (o : BitVec 2) (n : BitVec 1) (s : State) : Out :=
  s.atomicFloat 8 d a b o n
/-- minimumNumber (R284). -/
def execAminf (d : BitVec 5) (a : BitVec 6) (b : BitVec 5) (_s : BitVec 3) (o : BitVec 2) (n : BitVec 1) (s : State) : Out :=
  s.atomicFloat 9 d a b o n
/-- old + x, rounded once (R284). -/
def execAaddf (d : BitVec 5) (a : BitVec 6) (b : BitVec 5) (_s : BitVec 3) (o : BitVec 2) (n : BitVec 1) (s : State) : Out :=
  s.atomicFloat 10 d a b o n
/-- v where old equals g[d], else no write (R281). -/
def execAcas (d a b : BitVec 6) (_s : BitVec 3) (o : BitVec 2) (z : BitVec 1) (s : State) : Out := s.atomicInt 11 d a b o z 0
/-- v (R281). -/
def execAxch (d a b : BitVec 6) (_s : BitVec 3) (o : BitVec 2) (z n : BitVec 1) (s : State) : Out := s.atomicInt 12 d a b o z n

/-- What became of a logged request (R245, R287). -/
def execAtq (d a b : BitVec 6) (s : State) : Out :=
  s.commitThen fun s =>
    let k := s.focus
    if d.toNat = 0 ∨ d.toNat % 2 = 1 ∨ fld (s.g b) 16 48 ≠ 0 then .next (s.illegal k)
    else match s.atomicCheck (s.g a) 1 with
      | .error (c, va) => .next (s.fault k c va)
      | .ok acc =>
        if s.cur.pathBusy acc.plain then .next (s.stallIssue k .storeQueue)
        else .next (s.ask k (plainDie acc.plain) (.atq acc.plain ((s.g b).setWidth 16)) (.pair d.toNat) (s.g a))

end Sys2Proof.Machine
end

