-- ==== Sys2Proof/Machine/Maps.lean ====
section
/-! DEFINITION. Tensor maps: images and their checks, address generation, swizzle, index and extraction, element reads
and writes, and the ranges a map adds to a footprint (R154 to R167, R172, R364). -/

namespace Sys2Proof.Machine

/-! ## Fields of a map (R155 to R157) -/

def TMap.format (m : TMap) : Nat := fld m.fmt 0 4
def TMap.span (m : TMap) : Nat := fld m.fmt 8 3
def TMap.swz (m : TMap) : Bool := bit m.fmt 11
def TMap.idim (m : TMap) : Nat := fld m.fmt 12 2
def TMap.idx (m : TMap) : Bool := bit m.fmt 15
def TMap.xpat (m : TMap) : Nat := fld m.fmt 16 3
def TMap.xpe (m : TMap) : Bool := bit m.fmt 19
def TMap.mode (m : TMap) : Nat := fld m.fmt 20 3
def TMap.alias_ (m : TMap) : Bool := bit m.fmt 23
def TMap.lye (m : TMap) : Bool := bit m.ly 3
def TMap.slot (m : TMap) : Nat := fld m.ly 0 3
def TMap.ver (m : TMap) : BitVec 16 := m.ly.extractLsb' 16 16
def TMap.reads (m : TMap) : Bool := m.mode = 0 || m.mode = 3
def TMap.writes (m : TMap) : Bool := m.mode = 1 || m.mode = 2 || m.mode = 3
def TMap.strict (m : TMap) : Bool := m.mode = 2
/-- Elements of the map. -/
def TMap.count (m : TMap) : Nat := m.extC.toNat * m.extX.toNat * m.extY.toNat * m.extT.toNat
/-- The swizzle record that a write through the map leaves (R149). -/
def TMap.spanCode (m : TMap) : BitVec 4 := if m.swz then BitVec.ofNat 4 (m.span + 1) else 0

/-- Bits per element of a FORMAT code (R157); 0 for the reserved ones. -/
def fmtBits (f : Nat) : Nat :=
  match f with
  | 0 => 4
  | 1 | 2 | 12 => 8
  | 3 | 4 | 10 | 11 => 16
  | 5 | 6 | 9 => 32
  | 7 | 8 => 64
  | _ => 0

def TMap.bits (m : TMap) : Nat := fmtBits m.format
/-- Bytes an element access moves; an i4 element lies in one byte. -/
def TMap.bytes (m : TMap) : Nat := max 1 (m.bits / 8)

/-! ## Loading a map (R158, R162, R364) -/

/-- The map that 64 image bytes hold, with ALIAS still clear. -/
def TMap.ofBytes (bs : List Byte) : TMap :=
  let n := bytesAt bs
  let w32 (o : Nat) : W32 := BitVec.ofNat 32 (n o 4)
  { base := w64 (n 0 8), extC := w32 8, extX := w32 0xC, extY := w32 0x10, extT := w32 0x14, strC := w32 0x18, strX := w32 0x1C
    strY := w32 0x20, strT := w32 0x24, index := w64 (n 0x28 8), fmt := w32 0x30 &&& ~~~0x00800000#32, ly := w32 0x34, ibound := w32 0x38 }

/-- Dimensions of extent above 1 as (|stride|, extent), in the order of R162. -/
def dimInsert (d : Nat × Nat) : List (Nat × Nat) → List (Nat × Nat)
  | [] => [d]
  | e :: r => if d.1 < e.1 then d :: e :: r else e :: dimInsert d r

def aliasTest : List (Nat × Nat) → Nat → Bool
  | [], _ => true
  | (st, ext) :: r, sum => decide (st ≥ 1 + sum) && aliasTest r (sum + st * (ext - 1))

/-- Two elements of the map may share an address (R162). -/
def TMap.mayAlias (m : TMap) : Bool :=
  let ds := ([(m.strC, m.extC), (m.strX, m.extX), (m.strY, m.extY), (m.strT, m.extT)].filter fun p => 1 < p.2.toNat).map
    fun p => (p.1.toInt.natAbs, p.2.toNat)
  m.writes && !aliasTest (ds.foldl (fun l d => dimInsert d l) []) 0

def TMap.withAlias (m : TMap) : TMap := if m.mayAlias then { m with fmt := m.fmt ||| 0x00800000#32 } else m

/-- What the checks of R158 on the image bytes find. -/
inductive ImageCheck where
  | ok (m : TMap) | illegal | align (a : W64)
  deriving DecidableEq, Repr

/-- The checks of R158 in its order. A misaligned BASE or INDEX is reported by its value (DESIGN CHOICE, log 93). -/
def checkImage (bs : List Byte) : ImageCheck :=
  let m := TMap.ofBytes bs
  if fld m.fmt 24 8 ≠ 0 ∨ bit m.fmt 14 ∨ fld m.fmt 4 4 ≠ 0 ∨ fld m.ly 4 12 ≠ 0 ∨ bytesAt bs 0x3C 4 ≠ 0 ∨ m.format ≥ 13 ∨ m.mode ≥ 4 then .illegal
  else if m.swz ∧ m.bits = 64 then .illegal
  else if m.xpe ∧ (m.mode ≠ 0 ∨ m.idx ∨ m.strC ≠ 1) then .illegal
  else if m.base.toNat % m.bytes ≠ 0 then .align m.base
  else if m.idx ∧ m.index.toNat % 4 ≠ 0 then .align m.index
  else .ok m.withAlias

/-- The bytes of an image as the CT loads them: through the extents, forwarded, never through a slot address or a
fallow page (R364, R406). -/
def State.imageBytes (s : State) (k : Nat) (va : W64) (len : Nat) : Except ImageStop (List Byte) := s.loadImage k va len false

/-- d[d] := the checked map at the address (R364). -/
def execTmap (d : BitVec 4) (a : BitVec 6) (i : BitVec 13) (s : State) : Out :=
  let k := s.focus
  let va := s.g a + s.cur.imm i
  if va.toNat % 64 ≠ 0 then .next (s.fault k Cls.align va)
  else match s.imageBytes k va 64 with
    | .error x => s.imageStop x
    | .ok bs =>
      match checkImage bs with
      | .illegal => .next (s.illegal k)
      | .align x => .next (s.fault k Cls.align x)
      | .ok m => .next (s.retire (s.cur.writeD d.toNat m))

/-! ## Addresses (R160, R163, R164) -/

/-- The indices of linear element n: c, x, y, t. -/
def TMap.coords (m : TMap) (n : Nat) : Nat × Nat × Nat × Nat :=
  let c := m.extC.toNat
  let x := m.extX.toNat
  let y := m.extY.toNat
  (n % c, n / c % x, n / (c * x) % y, n / (c * x * y))

/-- The index of element n in a dimension. -/
def TMap.coord (m : TMap) (n dim : Nat) : Nat :=
  let (c, x, y, t) := m.coords n
  match dim with
  | 0 => c
  | 1 => x
  | 2 => y
  | _ => t

/-- The swizzle of an address (R163). -/
def TMap.swizzle (m : TMap) (a : Nat) : Nat :=
  let b := 16 * 2 ^ m.span
  if m.swz then a ^^^ ((a / b % (b / 4)) * 4) else a

/-- Where an element lies: its byte address and, for i4, its half; or a fault. -/
structure ElemAt where
  addr : Nat
  nib : Option Nat
  deriving DecidableEq, Repr

/-- The address of element n; `sub` is the coordinate that an index supplies in dimension IDIM. An address outside 0..2^64 is
reported modulo 2^64, before the swizzle (DESIGN CHOICE, log 93). -/
def TMap.elemAt (m : TMap) (n : Nat) (sub : Option Nat) : Except AFault ElemAt :=
  let (c, x, y, t) := m.coords n
  let j (dim own : Nat) : Int := match sub with
    | some v => if m.idim = dim then (v : Int) else (own : Int)
    | none => (own : Int)
  let e := j 0 c * m.strC.toInt + j 1 x * m.strX.toInt + j 2 y * m.strY.toInt + j 3 t * m.strT.toInt
  let a := (m.base.toNat : Int) + e * (m.bits : Int) / 8
  if a < 0 ∨ a + m.bytes > 2 ^ 64 then .error (Cls.extent, BitVec.ofInt 64 a)
  else .ok { addr := m.swizzle a.toNat, nib := if m.bits = 4 then some (e % 2).toNat else none }

/-! ## Element accesses of an engine (R45, R200, R242) -/

/-- An engine's access to memory, slot addresses admitted where it is the copy engine. -/
def State.engineCheck (s : State) (k : Nat) (va len : Nat) (n : Need) (slots : Bool) : Except AFault Acc :=
  match s.check k (w64 va) len n slots with
  | .error e => .error e
  | .ok a => if plainTier a.plain = 3 ∧ !a.fallow then .error (Cls.extent, w64 va) else .ok a

def State.engineRead (s : State) (k va len : Nat) (slots : Bool) : Except AFault Nat :=
  match s.engineCheck k va len .r slots with
  | .error e => .error e
  | .ok a =>
    if a.fallow then .ok 0
    else match s.resolve (tileDie k) a.plain len with
      | none => .error (Cls.extent, w64 va)
      | some q => if (s.badSector q len).isSome then .error (Cls.uncorrectable, w64 va) else .ok (readLe s q len)

/-- The index entry for element n of a map with IDX set (R164), which the engine reads as part of a transfer driven by the
map: an entry that lies in tier 11 faults EXTENT (R176; DEDUCED, log 107). -/
def State.indexOf (s : State) (k : Nat) (m : TMap) (n : Nat) : Except AFault (Option Nat) :=
  if !m.idx then .ok none
  else
    let ea := m.index + w64 (4 * m.coord n m.idim)
    match s.engineRead k ea.toNat 4 false with
    | .error e => .error e
    | .ok v =>
      if m.ibound ≠ 0 ∧ m.ibound.toNat ≤ v then .error (Cls.extent, ea) else .ok (some v)

/-! ## Elements (R160 to R162, R166) -/

def State.engineWrite (s : State) (k va : Nat) (bs : List Byte) (slots : Bool) (code : BitVec 4) : Except AFault State :=
  match s.engineCheck k va bs.length .w slots with
  | .error e => .error e
  | .ok a => .ok (s.writeAcc k a bs code)

/-- An element's raw bits through a map without extraction. -/
def State.readElemAt (s : State) (k : Nat) (m : TMap) (n : Nat) (sub : Option Nat) (slots : Bool) : Except AFault Nat :=
  match m.elemAt n sub with
  | .error e => .error e
  | .ok p =>
    match s.engineRead k p.addr m.bytes slots with
    | .error e => .error e
    | .ok v => .ok (match p.nib with
        | some h => v / 16 ^ h % 16
        | none => v)

/-- A value read, with its significance count and the flag its conversion raises. -/
structure Elem where
  bits : Nat
  cnt : Nat := 0
  flags : Nat := 0
  deriving DecidableEq, Repr

/-- The tile's extents relocate every byte of an access by one and the same entry (R45); addresses of the own slice and of
slots have none. -/
def Tile.oneExtent (t : Tile) (as : List Nat) : Bool :=
  as.any (fun a => 2 ^ 56 ≤ a) || (t.pins ++ t.exts).any fun e => e.r && as.all fun a => e.covers a 1

/-- Where the period of element n lies before the swizzle, and the field in it; `sub` as for `TMap.elemAt` (R166). -/
def TMap.periodAt (m : TMap) (p : XPattern) (n : Nat) (sub : Option Nat) : Int × XField :=
  let (c, x, y, t) := m.coords n
  let j (dim own : Nat) : Nat := if m.idim = dim then sub.getD own else own
  let (c, x, y, t) := (j 0 c, j 1 x, j 2 y, j 3 t)
  ((m.base.toNat : Int) + (c / p.nf : Nat) * (p.period / 8 : Nat) + x * m.strX.toInt + y * m.strY.toInt + t * m.strT.toInt
  , p.fields.getD (c % p.nf) { shift := 0, width := 1, sx := false })

/-- An extracted field (R166): of element n, or of the coordinate that an index source gives in dimension IDIM. A period that no
one R extent covers faults at the period's address before the swizzle; one that fails at a byte of it faults at that byte's
address after the swizzle (DESIGN CHOICE, log 93). -/
def State.readExtract (s : State) (k : Nat) (m : TMap) (p : XPattern) (n : Nat) (sub : Option Nat) (rm : RM) (slots : Bool) :
    Except AFault Elem :=
  let (a, f) := m.periodAt p n sub
  let nb := p.period / 8
  if a < 0 ∨ a + nb > 2 ^ 64 ∨ !(s.tile k).oneExtent ((List.range nb).map fun i => m.swizzle (a.toNat + i)) then
    .error (Cls.extent, BitVec.ofInt 64 a)
  else
    -- the period's bytes, each where the swizzle of its granule puts it
    match (List.range nb).foldl (fun (acc : Except AFault Nat) i =>
        match acc with
        | .error e => .error e
        | .ok v => match s.engineRead k (m.swizzle (a.toNat + i)) 1 slots with
          | .error e => .error e
          | .ok b => .ok (v + b * 256 ^ i)) (.ok 0) with
    | .error e => .error e
    | .ok raw =>
      let bits := nfld raw f.shift f.width
      let v : Int := if f.sx then sextN bits f.width else (bits : Int)
      if p.ofmt = 9 then
        let r := fpFromInt .f32 rm v
        .ok { bits := r.bits, cnt := r.cnt, flags := r.flags }
      else .ok { bits := wrapN v (fmtBits p.ofmt) }

/-- Element n as a copy moves it, with the flags its conversion raises (R361). -/
def State.readElem (s : State) (k : Nat) (m : TMap) (n : Nat) (rm : RM) (slots : Bool) : Except AFault Elem :=
  if m.xpe then s.readExtract k m (Tab.get {} (s.tile k).pats m.xpat) n none rm slots
  else match s.indexOf k m n with
    | .error e => .error e
    | .ok sub => match s.readElemAt k m n sub slots with
      | .error e => .error e
      | .ok v => .ok { bits := v }

/-- Where element n of a write map lies. -/
def State.writeAt (s : State) (k : Nat) (m : TMap) (n : Nat) : Except AFault ElemAt :=
  match s.indexOf k m n with
  | .error e => .error e
  | .ok sub => m.elemAt n sub

/-- A write through the map is checked element by element (R162, R164). -/
def TMap.checked (m : TMap) : Bool := m.strict && (m.alias_ || m.idx)

/-- The element at an address takes a value; of an i4 element's byte the other half stays. -/
def State.putAt (s : State) (k : Nat) (m : TMap) (p : ElemAt) (v : Nat) (slots : Bool) : Except AFault State :=
  match p.nib with
  | none => s.engineWrite k p.addr (leBytes m.bytes v) slots m.spanCode
  | some h =>
    match s.engineCheck k p.addr 1 .w slots with
    | .error e => .error e
    | .ok a =>
      let old := leNat (s.readAcc k a 1)
      let b := if h = 0 then old / 16 * 16 + v % 16 else old % 16 + 16 * (v % 16)
      s.engineWrite k p.addr (leBytes 1 b) slots m.spanCode

/-- Element n of a write map takes a value (R160 to R162), `wrote` being the addresses that the command has written: the
state and those addresses after it. -/
def State.writeElem (s : State) (k : Nat) (m : TMap) (n v : Nat) (slots : Bool) (wrote : List (Nat × Option Nat)) :
    Except AFault (State × List (Nat × Option Nat)) :=
  match s.writeAt k m n with
  | .error e => .error e
  | .ok p =>
    if m.checked && wrote.contains (p.addr, p.nib) then .error (Cls.aliasWrite, w64 p.addr)
    else match s.putAt k m p v slots with
      | .error e => .error e
      | .ok s => .ok (s, if m.checked then (p.addr, p.nib) :: wrote else wrote)

/-! ## Footprints (R63, R172) -/

/-- Plain lines of the part of an address range [lo, hi) that a window of `len` bytes at `base` maps to `plain`. -/
def windowLines (lo hi base len plain : Nat) : Option Res :=
  let a := max lo base
  let b := min hi (base + len)
  if a < b then some (.lines ((plain + (a - base)) / 64) ((plain + (b - 1 - base)) / 64)) else none

/-- The first slot address of a grant's block (R199). -/
def Grant.slotBase (g : Grant) (num : Nat) : Nat := 0xFD * 2 ^ 56 + num * 2 ^ 53 + g.stamp.toNat * 2 ^ 16

/-- Plain lines of a virtual range, through the extents, the tile's own slice, or the grants. -/
def State.rangeRes (s : State) (k lo hi : Nat) : List Res :=
  let t := s.tile k
  let top := lo / 2 ^ 56
  if hi ≤ lo then []
  else if top = 0xFE then
    let p := s.plainIn (diePkg (tileDie k)) (lo % 2 ^ 55)
    [.lines (p / 64) ((p + (hi - 1 - lo)) / 64)]
  else if top = 0xFD then t.grants.filterMap fun g => windowLines lo hi (g.2.slotBase g.1) 65536 g.2.plain
  else (t.pins ++ t.exts).filterMap fun e => windowLines lo hi e.vbase e.len e.plain

/-- The lowest and one past the highest byte of a map's elements before swizzle, widened to its swizzle rows. `span`
is the number of coordinates of the indexed dimension where there is one. -/
def TMap.range (m : TMap) (p : XPattern) (idxSpan : Option Nat) : Nat × Nat :=
  let ext (dim : Nat) (e : W32) : Int := match idxSpan with
    | some n => if m.idim = dim then (n : Int) else (e.toNat : Int)
    | none => (e.toNat : Int)
  let lo (st : Int) (n : Int) : Int := min 0 (st * (n - 1))
  let hi (st : Int) (n : Int) : Int := max 0 (st * (n - 1))
  let b : Int := m.base.toNat
  let nb := p.period / 8
  let (l, h) :=
    if m.xpe then
      let pers : Int := (((ext 0 m.extC).toNat + p.nf - 1) / p.nf : Nat)
      (b + lo m.strX.toInt (ext 1 m.extX) + lo m.strY.toInt (ext 2 m.extY) + lo m.strT.toInt (ext 3 m.extT),
       b + pers * nb + hi m.strX.toInt (ext 1 m.extX) + hi m.strY.toInt (ext 2 m.extY) + hi m.strT.toInt (ext 3 m.extT))
    else
      let l := lo m.strC.toInt (ext 0 m.extC) + lo m.strX.toInt (ext 1 m.extX) + lo m.strY.toInt (ext 2 m.extY) + lo m.strT.toInt (ext 3 m.extT)
      let h := hi m.strC.toInt (ext 0 m.extC) + hi m.strX.toInt (ext 1 m.extX) + hi m.strY.toInt (ext 2 m.extY) + hi m.strT.toInt (ext 3 m.extT)
      (b + l * m.bits / 8, b + h * m.bits / 8 + m.bytes)
  let row : Nat := if m.swz then 16 * 2 ^ m.span else 1
  (l.toNat / row * row, (h.toNat + row - 1) / row * row)

/-- The pattern that a command issued now will find: that of the latest XPAT before it (R167). -/
def Tile.patAhead (t : Tile) (n : Nat) : XPattern :=
  match ((t.started ++ t.cq).filter fun c => c.kind = .xpat && fld c.p0 48 3 = n).getLast? with
  | some c => c.pat
  | none => Tab.get {} t.pats n

/-- The memory, slot and pattern resources of a map: (its range, what it adds to the read set) (R167, R172). `idx` says that the
indexed dimension counts here. -/
def State.mapRes (s : State) (k : Nat) (m : TMap) (idx : Bool) : List Res × List Res :=
  let slot : List Res := (if m.lye then [.ly m.slot] else []) ++ if m.xpe then [.pat m.xpat] else []
  if m.count = 0 then ([], slot)
  else
    let n := match m.idim with
      | 0 => m.extC.toNat
      | 1 => m.extX.toNat
      | 2 => m.extY.toNat
      | _ => m.extT.toNat
    if idx then
      let ind := if m.idx then s.rangeRes k m.index.toNat (m.index.toNat + 4 * n) else []
      if m.ibound = 0 then ([.allMem], slot ++ ind)
      else
        let (l, h) := m.range ((s.tile k).patAhead m.xpat) (some m.ibound.toNat)
        (s.rangeRes k l h, slot ++ ind)
    else
      let (l, h) := m.range ((s.tile k).patAhead m.xpat) none
      (s.rangeRes k l h, slot)

end Sys2Proof.Machine
end

