-- ==== Sys2Proof/Machine/Issue.lean ====
section
/-! DEFINITION. Issue of engine commands: parameter checks, footprints, the dependence checker and the queues (R60 to
R65, R74, R91, R254, and the reference entries of the Q words); TMAP's companions LAYGET and LAYSET (R329, R330). -/

namespace Sys2Proof.Machine

/-! ## Resources (R63, R64) -/

/-- Two resources share a granule. -/
def Res.meets : Res → Res → Bool
  | .lines lo hi, .lines lo' hi' => decide (lo ≤ hi') && decide (lo' ≤ hi)
  | .allMem, .lines _ _ => true
  | .lines _ _, .allMem => true
  | x, y => x = y

def resMeet (xs ys : List Res) : Bool := xs.any fun x => ys.any fun y => x.meets y

/-- An edge from an earlier command X to Y (R64). -/
def edge (x y : Cmd) : Bool := resMeet x.wr y.rd || resMeet x.rd y.wr || resMeet x.wr y.wr

/-- Commands of the unit in a queue or started. -/
def Tile.live (t : Tile) : List Cmd := t.vq ++ t.mq ++ t.cq ++ t.started ++ (t.vs.map fun v => v.cmd).toList
/-- Commands of the unit that are not complete: those and the cut ones (R64, R150). -/
def Tile.owed (t : Tile) : List Cmd := t.live ++ (t.cutV.map fun v => v.cmd).toList ++ t.cutM.toList ++ t.cutC.toList

/-! ## Modes and lateness (R73, R74, R146) -/

def Tile.mode (t : Tile) : Nat := fld t.regionState 0 2
def Tile.slack (t : Tile) : Nat := fld t.regionState 16 12
def Tile.chk (t : Tile) : Bool := bit t.regionState 2

def Cmd.time (c : Cmd) : Nat := fld c.p0 51 13
/-- A stamped MQ command: TIME nonzero, never cut (R338, R150). -/
def Cmd.stamped (c : Cmd) : Bool := Queue.slotOf c.kind = .mq && c.time ≠ 0 && !c.unstamped

/-- The target of an unstarted command, if it is known yet. -/
def Cmd.targetAt (c : Cmd) (mode : Nat) : Option Nat :=
  if c.stamped && mode ≠ 0 then (if c.refMbase then none else some (c.ref + c.time)) else c.oldestAt

/-- Lateness of an unstarted command (R74). -/
def Cmd.late_ (c : Cmd) (mode dcc : Nat) : Nat :=
  match c.targetAt mode with
  | some t => dcc - t
  | none => 0

def Tile.queuedCmds (t : Tile) : List Cmd := t.vq ++ t.mq ++ t.cq

/-- The CT stalls at its next issue: some command is late beyond S (R74). In strict mode that holds for the commands
that raise no SCHED_MISS. -/
def Tile.lateStall (t : Tile) (dcc : Nat) : Bool :=
  match t.mode with
  | 1 => t.queuedCmds.any fun c => t.slack < c.late_ 1 dcc
  | 2 => t.queuedCmds.any fun c => !c.stamped && t.slack < c.late_ 2 dcc
  | _ => false

def Tile.getQ (t : Tile) (q : Queue) : List Cmd :=
  match q with
  | .vq => t.vq
  | .mq => t.mq
  | .cq => t.cq
def Tile.setQueue (t : Tile) (q : Queue) (l : List Cmd) : Tile :=
  match q with
  | .vq => { t with vq := l }
  | .mq => { t with mq := l }
  | .cq => { t with cq := l }

/-- The head of each queue has a time at which it became the oldest. -/
def headSince (dcc : Nat) : List Cmd → List Cmd
  | [] => []
  | c :: r => (if c.oldestAt.isNone then { c with oldestAt := some dcc } else c) :: r
def Tile.promote (t : Tile) (dcc : Nat) : Tile :=
  { t with vq := headSince dcc t.vq, mq := headSince dcc t.mq, cq := headSince dcc t.cq }

/-- A command's unresolved edges: predecessors not complete. -/
def Tile.unresolved (t : Tile) (c : Cmd) : Bool := c.preds.any fun p => t.owed.any fun x => x.pos = p

/-- In fixed mode with CHK, a command that has just become the oldest of its queue with an unresolved edge traps
STALL_COUNT (R74). -/
def State.stallCount (s : State) (k : Nat) : State :=
  let t := s.tile k
  let dcc := s.dcc (tileDie k)
  let bad (q : Queue) : Option Cmd :=
    match t.getQ q with
    | c :: _ => if t.mode = 0 && t.chk && c.oldestAt = some dcc && t.unresolved c then some c else none
    | [] => none
  match [Queue.vq, .mq, .cq].findSome? bad with
  | some c => if t.isRunning || t.status = .draining then
      s.raiseAt k { cls := Cls.stallCount, src := (Queue.slotOf c.kind).src, seq := c.seq.toNat, ctag := some c.atag } c.pos c.atag c.clause else s
  | none => s

/-! ## Issue -/

/-- What the checks of a command at issue give: a refusal of the word, or what the entry holds beyond the common part. -/
inductive IssueCheck where
  | illegal
  | fault (cls : Nat) (addr : W64)
  /-- the issue is held (R393) -/
  | hold
  /-- the image that the word reads is not there yet (R406) -/
  | image (x : ImageStop)
  | ok (c : Cmd)
  deriving Repr

/-- The number a queue gives next. -/
def Tile.nextNum (t : Tile) (q : Queue) : BitVec 16 :=
  match q with
  | .vq => t.nextV
  | .mq => t.nextM
  | .cq => t.nextC
/-- LS of a queue (R254). -/
def Tile.lsNum (t : Tile) (q : Queue) : BitVec 16 := (t.ls q).last
/-- A number that a queue gives next is at most the last one started: its command is not enqueued (R254). -/
def Tile.skips (t : Tile) (q : Queue) (n : BitVec 16) : Bool := decide (((t.ls q).skip - n).toNat < 2 ^ 15)
def Tile.bumpNum (t : Tile) (q : Queue) : Tile :=
  match q with
  | .vq => { t with nextV := t.nextV + 1 }
  | .mq => { t with nextM := t.nextM + 1 }
  | .cq => { t with nextC := t.nextC + 1 }

/-- The stamp reference at issue: a queued MBASE ahead, else the reference in force (R146). -/
def Tile.refAtIssue (t : Tile) (dcc : Nat) : Nat × Bool :=
  if t.mq.any (fun c => c.kind = .mbase && t.refPos ≤ c.pos) then (0, true)
  else match t.mbaseAt with
    | some at_ => (at_, false)
    | none => if t.refPending then (dcc, false) else (t.stampRef, false)

/-- The journal holds a release, and an earlier posted request has no answer yet, or one has failed (R251). -/
def Tile.releaseOpen (t : Tile) : Bool :=
  t.journal.any (fun e => e.rel) && (!t.posted.isEmpty || t.reports.any fun r => !r.leg)

/-- A store to another die than `d` in the journal stands before a release there. -/
def farBeforeRelease (d : Nat) : List JEntry → Bool
  | [] => false
  | e :: r =>
    (match e.kind with
      | .store _ p _ _ => plainDie p ≠ d && r.any fun x => x.rel
      | _ => false) || farBeforeRelease d r

/-- The journal holds a release, and an earlier request that it may yet report a fault for has not left the tile: a store
to another die, or a no-return atomic (R245, R251). -/
def Tile.releaseFar (t : Tile) (d : Nat) : Bool :=
  (t.journal.any (fun e => e.rel) && t.storeQ.any fun e => e.amo.isSome || plainDie e.plain ≠ d) || farBeforeRelease d t.journal

/-- A release in the journal may still fault: no younger command issues (R251). -/
def Tile.issueHeld (t : Tile) (d : Nat) : Bool := t.releaseOpen || t.releaseFar d

/-- Issue of a command of kind `kind` with parameter register `a` (R61, R62, R74, R91, R254). -/
def State.issue (s : State) (kind : CmdKind) (a g c : BitVec 6) (x y : BitVec 1) (pair : Bool)
    (check : State → W64 → W64 → IssueCheck) : Out :=
  let k := s.focus
  let t := s.cur
  let q := Queue.slotOf kind
  let dcc := s.dcc (tileDie k)
  let num := t.nextNum q
  if pair ∧ a.toNat % 2 = 1 then .next (s.illegal k)
  else if t.skips q num then .next (s.retire { t.bumpNum q with hist := t.hist ++ [(t.order, q, num)] })
  else
    let p0 := t.gReg a.toNat
    let p1 := if pair then t.gReg (a.toNat + 1) else 0
    let room (f : Out) : Out :=
      if Config.queueSize ≤ (t.getQ q).length then .next (s.stallIssue k (.queue q))
      else if t.lateStall dcc then .next (s.stallIssue k .slack)
      -- the deadline of each request that has been sent bounds the stall, WAIT_CAP.ISSUE one that waits to be sent (log 99)
      else if t.releaseOpen then .next (s.stall k .posted none)
      else if t.releaseFar (tileDie k) then .next (s.stallIssue k .storeQueue)
      else f
    match check s p0 p1 with
    | .illegal => .next (s.illegal k)
    | .fault cls addr => .next (s.fault k cls addr)
    | .hold => .next (s.stallIssue k .allDone)
    | .image x => room (s.imageStop x)
    | .ok body => room <|
        let (ref, rm) := t.refAtIssue dcc
        let cmd : Cmd :=
          { body with kind := kind, seq := num, atag := t.instrPc, pos := t.order, clause := t.instrClause
                      gate := if x = 1 then some g.toNat else none, comp := if y = 1 then some c.toNat else none
                      p0 := p0, p1 := p1, fpc := t.fpc, ref := ref, refMbase := rm }
        let cmd := { cmd with preds := (t.owed.filter fun e => edge e cmd).map fun e => e.pos }
        let t := (t.setQueue q (t.getQ q ++ [cmd])).bumpNum q
        let t := { t with hist := t.hist ++ [(cmd.pos, q, num)]
                          loads := if kind == CmdKind.tload || kind == CmdKind.tgath then cmd :: t.loads else t.loads
                          stallUntil := if t.mode = 0 then dcc + cmd.time else t.stallUntil }
        .next ((s.retire (t.promote dcc)).stallCount k)

/-- The least of a command's entry: its footprint and maps. -/
def okCmd (kind : CmdKind) (rd wr : List Res) (m0 m1 : TMap := {}) (pat : XPattern := {}) : IssueCheck :=
  .ok { kind := kind, seq := 0, atag := 0, pos := 0, clause := 0, rd := rd, wr := wr, m0 := m0, m1 := m1, pat := pat }

/-! ## The vector queue -/

/-- Registers named by a 16-bit field, all of m8 to m15 where one of them is and rotation is on (R65). -/
def regBits (v : Nat) (rot : Bool) : List Res :=
  ((List.range 16).filter fun i => v / 2 ^ i % 2 = 1 || (rot && 8 ≤ i && v / 256 ≠ 0)).map Res.m

/-- The header of a table: its 64 bits (R99). -/
def Tile.header (t : Tile) (at_ : Nat) : W64 := Tab.get 0 t.steps (at_ + 1) ++ Tab.get 0 t.steps at_

def headerOk (h : W64) (at_ : Nat) : Bool :=
  let src := fld h 18 2
  fld h 50 14 = 0 && src ≠ 3 && fld h 0 14 ≠ 0 && !(src = 2 && bit h 23) && (src = 0 || fld h 24 12 = 0)
  && at_ + 1 + fld h 0 14 ≤ 16383 && fld h 36 14 + fld h 0 14 - 1 ≤ 16383

/-- Starts a table (R392 to R394). -/
def execVrun (a g c : BitVec 6) (x y : BitVec 1) (s : State) : Out :=
  s.issue .vrun a g c x y true fun s p0 p1 =>
    let k := s.focus
    let t := s.cur
    if fld p0 14 37 ≠ 0 ∨ fld p1 42 22 ≠ 0 then .illegal
    else if t.owed.any fun e => e.kind = .vbase || e.kind = .vbaseL then .hold
    else
      let at_ := t.vbase.toNat + fld p0 0 14
      let h := t.header at_
      if !headerOk h at_ then .illegal
      else
        let rot := bit h 15
        let acc (lo : Nat) : List Res := ((List.range 4).filter fun i => bit p1 (lo + i)).map Res.a
        let sp := bit p1 40
        let slice : List Res := if sp then [.lines (sliceBase k / 64) ((sliceBase k + 2 ^ 22 - 1) / 64)] else []
        okCmd .vrun (.tables :: .scalars :: regBits (fld p1 0 16) rot ++ acc 32 ++ slice ++ (if bit p1 41 then (List.range 16).map Res.w else []))
          (.scalars :: regBits (fld p1 16 16) rot ++ acc 36 ++ slice ++ (if sp then [.afloor] else []))

/-- Sets the table-store base and zeroes registers (R371, R372). -/
def execVbase (a g c : BitVec 6) (x y : BitVec 1) (s : State) : Out :=
  s.issue .vbase a g c x y false fun _ p0 _ =>
    if fld p0 47 4 ≠ 0 ∨ fld p0 32 15 ≠ 0 ∨ fld p0 30 2 ≠ 0 then .illegal
    else okCmd .vbase [] (.tables :: regBits (fld p0 0 16) false)

/-- Loads steps and tags (R371, R372). -/
def execVbaseL (a g c : BitVec 6) (x y : BitVec 1) (s : State) : Out :=
  s.issue .vbaseL a g c x y true fun s p0 p1 =>
    let n := fld p0 32 15
    let src := fld p1 0 48
    if fld p0 47 4 ≠ 0 ∨ fld p0 30 2 ≠ 0 ∨ fld p0 0 16 ≠ 0 ∨ fld p1 48 16 ≠ 0 ∨ n = 0 ∨ fld p0 16 14 + n > 16384 then .illegal
    else if src % 4 ≠ 0 then .fault Cls.align (w64 src)
    else okCmd .vbaseL (s.rangeRes s.focus src (src + 4 * n + (n + 1) / 2)) [.tables]

/-- Stops a running table (R378). -/
def execVhalt (a g c : BitVec 6) (x y : BitVec 1) (s : State) : Out :=
  s.issue .vhalt a g c x y false fun _ p0 _ => if fld p0 0 51 ≠ 0 then .illegal else okCmd .vhalt [] []

/-- Sends one value to the vector sequencer (R398). -/
def execVsend (a g c : BitVec 6) (x y : BitVec 1) (s : State) : Out :=
  s.issue .vsend a g c x y true fun _ p0 _ =>
    let kind := fld p0 28 2
    let reg := fld p0 16 4
    if fld p0 30 21 ≠ 0 ∨ fld p0 20 3 ≠ 0 ∨ fld p0 12 4 ≠ 0 ∨ ((kind = 1 ∨ kind = 2) ∧ fld p0 23 5 ≠ 0) ∨ (kind ≠ 3 ∧ fld p0 0 12 ≠ 0)
        ∨ (kind = 1 ∧ 7 < reg) ∨ (kind = 2 ∧ (reg = 0 ∨ 7 < reg)) then .illegal
    else okCmd .vsend [] [if kind = 3 then .m reg else .scalars]

/-- Defines a stream record (R168, R403). -/
def execWdef (a g c : BitVec 6) (x y : BitVec 1) (s : State) : Out :=
  s.issue .wdef a g c x y false fun s p0 _ =>
    let m := s.cur.dReg (fld p0 0 4)
    let ie := bit p0 8
    if fld p0 13 38 ≠ 0 ∨ (!ie ∧ fld p0 9 4 ≠ 0) ∨ !m.reads ∨ (!m.xpe ∧ (m.format = 7 ∨ m.format = 8 ∨ m.format = 12))
        ∨ (ie ∧ fld p0 4 4 ≤ fld p0 9 4) ∨ (m.idx ∧ ie) then .illegal
    else
      let (r, e) := s.mapRes s.focus m (m.idx || ie)
      okCmd .wdef (r ++ e ++ if ie then [.w (fld p0 9 4)] else []) [.w (fld p0 4 4)] m

/-! ## The matrix queue (R337 to R346) -/

/-- The fields of a matrix parameter that a command may set: mask of bits [50:0]. -/
def matrixOk (p0 : W64) (mask : Nat) : Bool := fld p0 0 51 &&& (2 ^ 51 - 1 - mask) = 0

def mShift : Nat := 0x7F * 2 ^ 32
def mNr : Nat := 0x1F * 2 ^ 24
def mRow0 : Nat := 0x1F * 2 ^ 16
def mAcc : Nat := 3 * 2 ^ 12
def mSet : Nat := 2 ^ 8
def mNch : Nat := 2 ^ 7
def mMap : Nat := 15
/-- Rows of a matrix parameter, and its first row. -/
def rowsOf (p0 : W64) : Nat := fld p0 24 5 + 1
def row0Of (p0 : W64) : Nat := fld p0 16 5
def accOf (p0 : W64) : Nat := fld p0 12 2
def setOf (p0 : W64) : Nat := fld p0 8 1

/-- Sets the stamp reference (R339). -/
def execMbase (a g c : BitVec 6) (x y : BitVec 1) (s : State) : Out :=
  s.issue .mbase a g c x y false fun _ p0 _ => if !matrixOk p0 0 then .illegal else okCmd .mbase [] []

/-- Clears accumulator rows (R341). -/
def execMclr (a g c : BitVec 6) (x y : BitVec 1) (s : State) : Out :=
  s.issue .mclr a g c x y false fun _ p0 _ =>
    if !matrixOk p0 (mNr + mRow0 + mAcc) ∨ row0Of p0 + rowsOf p0 > 32 then .illegal else okCmd .mclr [] [.a (accOf p0)]

/-- Shifts accumulator rows (R346). -/
def execMshr (a g c : BitVec 6) (x y : BitVec 1) (s : State) : Out :=
  s.issue .mshr a g c x y false fun _ p0 _ =>
    if !matrixOk p0 (mShift + mNr + mRow0 + mAcc) ∨ row0Of p0 + rowsOf p0 > 32 ∨ 79 < fld p0 32 7 then .illegal
    else okCmd .mshr [.a (accOf p0)] [.a (accOf p0)]

/-- Loads a weight set (R343). -/
def execMldb (a g c : BitVec 6) (x y : BitVec 1) (s : State) : Out :=
  s.issue .mldb a g c x y false fun s p0 _ =>
    let m := s.cur.dReg (fld p0 0 4)
    if !matrixOk p0 (mSet + mMap) ∨ !m.reads ∨ m.idx ∨ m.xpe ∨ !(m.format = 0 || m.format = 1 || m.format = 12)
        ∨ m.count ≠ (if m.format = 0 then 262144 else 131072) then .illegal
    else
      let (r, e) := s.mapRes s.focus m false
      okCmd .mldb (r ++ e) [.b (setOf p0)] m

/-- Multiplies (R344). -/
def execMmul (a g c : BitVec 6) (x y : BitVec 1) (s : State) : Out :=
  s.issue .mmul a g c x y false fun s p0 _ =>
    let m := s.cur.dReg (fld p0 0 4)
    let nch := fld p0 7 1 + 1
    if !matrixOk p0 (mNr + mAcc + mSet + mNch + mMap) ∨ !m.reads ∨ m.idx ∨ m.xpe ∨ 4 < m.format
        ∨ !(m.count = rowsOf p0 * nch * 512 || m.count = rowsOf p0 * nch * 1024) then .illegal
    else
      let (r, e) := s.mapRes s.focus m false
      okCmd .mmul (r ++ e ++ [.b (setOf p0), .afloor, .a (accOf p0)] ++ if nch = 2 then [.b (1 - setOf p0)] else []) [.a (accOf p0)] m

/-- The common part of the two forms of MDRAIN (R342). -/
def State.issueDrain (s : State) (kind : CmdKind) (a g c : BitVec 6) (x y : BitVec 1) (ok : TMap → Nat → Bool) : Out :=
  s.issue kind a g c x y false fun s p0 _ =>
    let m := s.cur.dReg (fld p0 0 4)
    if !matrixOk p0 (mNr + mRow0 + mAcc + mMap) ∨ row0Of p0 + rowsOf p0 > 32 ∨ !m.writes ∨ m.idx ∨ !ok m (rowsOf p0) then .illegal
    else
      let (r, e) := s.mapRes s.focus m false
      okCmd kind (.a (accOf p0) :: e) r m

/-- Drains accumulator values (R342). -/
def execMdrain (a g c : BitVec 6) (x y : BitVec 1) (s : State) : Out :=
  s.issueDrain .mdrain a g c x y fun m n => (m.format = 5 || m.format = 7 || m.format = 9) && m.count = 256 * n
/-- Drains row status words (R342). -/
def execMdrainS (a g c : BitVec 6) (x y : BitVec 1) (s : State) : Out :=
  s.issueDrain .mdrainS a g c x y fun m n => m.format = 8 && m.count = n

/-! ## The copy queue -/

/-- A plain reference to the tile's own slice (R175, R360). -/
def State.ownSlice (s : State) (k : Nat) (a : W64) : Bool :=
  let p := s.plainIn (diePkg (tileDie k)) (fld a 0 55)
  fld a 56 8 = 0xFE && !bit a 55 && sliceBase k ≤ p && p < sliceBase k + 2 ^ 22

/-- The element width a copy compares (R360). -/
def Tile.copyWidth (t : Tile) (m : TMap) : Nat := if m.xpe then fmtBits (t.patAhead m.xpat).ofmt else m.bits

/-- The four copy commands (R359, R360, R362). -/
def State.issueCopy (s : State) (kind : CmdKind) (a g c : BitVec 6) (x y : BitVec 1) : Out :=
  s.issue kind a g c x y false fun s p0 _ =>
    let k := s.focus
    let t := s.cur
    let src := t.dReg (fld p0 0 4)
    let dst := t.dReg (fld p0 4 4)
    let intoSlice := kind = .tload || kind = .tgath
    if fld p0 8 43 ≠ 0 ∨ !src.reads ∨ !dst.writes ∨ src.idx ≠ (kind = .tgath) ∨ dst.idx ≠ (kind = .tscat) ∨ src.count ≠ dst.count
        ∨ t.copyWidth src ≠ dst.bits ∨ !s.ownSlice k (if intoSlice then dst.base else src.base) then .illegal
    else
      let (r, e) := s.mapRes k src (kind = .tgath)
      let (w, f) := s.mapRes k dst (kind = .tscat)
      okCmd kind (r ++ e ++ f) w src dst

/-- Copies into the own slice (R359). -/
def execTload (a g c : BitVec 6) (x y : BitVec 1) (s : State) : Out := s.issueCopy .tload a g c x y
/-- Copies out of the own slice (R359). -/
def execTstore (a g c : BitVec 6) (x y : BitVec 1) (s : State) : Out := s.issueCopy .tstore a g c x y
/-- Gathers into the own slice (R359). -/
def execTgath (a g c : BitVec 6) (x y : BitVec 1) (s : State) : Out := s.issueCopy .tgath a g c x y
/-- Scatters out of the own slice (R359). -/
def execTscat (a g c : BitVec 6) (x y : BitVec 1) (s : State) : Out := s.issueCopy .tscat a g c x y

/-- The pattern a record holds; none where R165 refuses it. -/
def patternOf (bs : List Byte) : Option XPattern :=
  let per := bytesAt bs 0 1
  let nf := bytesAt bs 1 1
  let of := bytesAt bs 2 1
  let f (i : Nat) : Nat := bytesAt bs (8 + 2 * i) 2
  let ok (i : Nat) : Bool :=
    if i < nf then f i / 8192 = 0 && f i % 128 + f i / 128 % 32 + 1 ≤ per else f i = 0
  if per % 8 = 0 ∧ 8 ≤ per ∧ per ≤ 128 ∧ 1 ≤ nf ∧ nf ≤ 16 ∧ (of < 7 ∨ of = 9) ∧ bytesAt bs 3 5 = 0 ∧ bytesAt bs 0x28 24 = 0
      ∧ (List.range 16).all ok then
    some { period := per, nf := nf, ofmt := of
           fields := (List.range nf).map fun i => { shift := f i % 128, width := f i / 128 % 32 + 1, sx := f i / 4096 % 2 = 1 } }
  else none

/-- Loads an extraction pattern (R165, R406). -/
def execXpat (a g c : BitVec 6) (x y : BitVec 1) (s : State) : Out :=
  s.issue .xpat a g c x y false fun s p0 _ =>
    let va := w64 (fld p0 0 48)
    if va.toNat % 64 ≠ 0 then .fault Cls.align va
    else match s.imageBytes s.focus va 64 with
      | .error (.fault c e) => .fault c e
      | .error x => .image x
      | .ok bs =>
        match patternOf bs with
        | none => .illegal
        | some p => okCmd .xpat [] [.pat (fld p0 48 3)] {} {} p

/-- Exchanges faces (R322, R323). -/
def execHexch (a g c : BitVec 6) (x y : BitVec 1) (s : State) : Out :=
  s.issue .hexch a g c x y false fun _ p0 _ =>
    if fld p0 48 3 ≠ 0 then .illegal
    else if fld p0 0 48 % 32 ≠ 0 then .fault Cls.align (w64 (fld p0 0 48))
    -- its images are read at its start: they may name any slot and any pattern (R167, R173)
    else okCmd .hexch ([.allMem] ++ (List.range 8).map Res.ly ++ (List.range 8).map Res.pat) []

/-- Writes a layout slot from an image (R330). -/
def execLayset (a g c : BitVec 6) (x y : BitVec 1) (s : State) : Out :=
  s.issue .layset a g c x y false fun s p0 _ =>
    let va := fld p0 0 48
    if va % 64 ≠ 0 then .fault Cls.align (w64 va)
    else okCmd .layset (s.rangeRes s.focus va (va + 64)) [.ly (fld p0 48 3)]

/-- Loads the job's pass table (R330). -/
def execLaysetPass (a g c : BitVec 6) (x y : BitVec 1) (s : State) : Out :=
  s.issue .laysetPass a g c x y false fun s p0 _ =>
    let va := fld p0 0 48
    if fld p0 48 3 ≠ 0 then .illegal
    else if va % 16 ≠ 0 then .fault Cls.align (w64 va)
    else okCmd .laysetPass (s.rangeRes s.focus va (va + 8208)) [.passTable]

/-- Moves a tensor between layouts (R352). -/
def execReshard (a g c : BitVec 6) (x y : BitVec 1) (s : State) : Out :=
  s.issue .reshard a g c x y true fun _ p0 _ =>
    let sl := fld p0 0 3
    let tl := fld p0 4 3
    if fld p0 7 44 ≠ 0 ∨ bit p0 3 then .illegal
    else okCmd .reshard [.ly sl, .ly tl, .passTable, .allMem] [.ly sl, .ly tl, .allMem]

/-- The two collectives (R294). -/
def State.issueCollective (s : State) (kind : CmdKind) (a g c : BitVec 6) (x y : BitVec 1) : Out :=
  s.issue kind a g c x y true fun s p0 p1 =>
    let desc := fld p0 0 48
    let buf := fld p1 0 48
    if fld p0 48 3 ≠ 0 ∨ fld p1 48 16 ≠ 0 then .illegal
    else if desc % 32 ≠ 0 then .fault Cls.align (w64 desc)
    else if buf % 16 ≠ 0 then .fault Cls.align (w64 buf)
    else
      let b := s.rangeRes s.focus buf (buf + 272)
      okCmd kind (s.rangeRes s.focus desc (desc + 32) ++ b) b

/-- Reduces over a group of dies (R294, R299). -/
def execCred (a g c : BitVec 6) (x y : BitVec 1) (s : State) : Out := s.issueCollective .cred a g c x y
/-- Broadcasts over a group of dies (R294, R296). -/
def execCbcast (a g c : BitVec 6) (x y : BitVec 1) (s : State) : Out := s.issueCollective .cbcast a g c x y

/-! ## LAYGET (R329) -/

/-- Reads a field of the executing die's copy of a layout slot, at commit (R329). -/
def execLayget (d a : BitVec 6) (f : BitVec 7) (s : State) : Out :=
  s.commitThen fun s =>
    let k := s.focus
    let v := s.g a
    if 5 < f.toNat ∨ fld v 3 61 ≠ 0 then .next (s.illegal k)
    else
      let l := Tab.get {} (s.jobRegs k).slots (fld v 0 3)
      let two (xs : List Nat) (i : Nat) : W64 := w64 (xs.getD i 0 + xs.getD (i + 1) 0 * 2 ^ 32)
      s.setG d.toNat (match f.toNat with
        | 0 => w64 (l.kind + l.fmt * 256 + l.ver.toNat * 65536 + l.nown * 2 ^ 32)
        | 1 => two l.ext 0
        | 2 => two l.ext 2
        | 3 => two l.blk 0
        | 4 => two l.blk 2
        | _ => l.owner)

end Sys2Proof.Machine
end

