-- ==== Sys2Proof/Machine/Engines.lean ====
section
/-! DEFINITION. What the commands of a tile's own engines do from their start to their completion: the vector queue,
the matrix unit, the copy engine and the stream engine (06_matrix_unit.md, 07_tensor_maps_streams.md, and the reference
entries of the Q words). -/

namespace Sys2Proof.Machine

/-- What a step of a started command gives. -/
inductive Ran where
  | ok (s : State) (c : Cmd)
  | wait (s : State) (c : Cmd)
  | fault (s : State) (c : Cmd) (i : TrapInfo)

/-- A fault of the command by class and address. -/
def Ran.err (s : State) (c : Cmd) (cls : Nat) (va : W64 := 0) : Ran :=
  .fault s c { cls := cls, faddr := va, src := (Queue.slotOf c.kind).src }

/-- The layout version of a map against its slot on the tile's die (R173); an empty slot never agrees (R218). -/
def State.layoutOk (s : State) (k : Nat) (m : TMap) : Bool :=
  let l := Tab.get {} (s.jobRegs k).slots m.slot
  !m.lye || (l.kind != 0 && l.ver == m.ver)

/-- STALE_LAYOUT names the slot and the map's version (R173, R255). -/
def Ran.stale (s : State) (c : Cmd) (m : TMap) : Ran :=
  .fault s c { cls := Cls.staleLayout, src := (Queue.slotOf c.kind).src, objk := 8, obj := m.slot
               ly := BitVec.ofNat 32 (m.slot + 65536 * m.ver.toNat) }

/-! ## The vector queue -/

/-- Sets the table-store base and zeroes physical registers (R372). -/
def runVbase (s : State) (k : Nat) (c : Cmd) : Ran :=
  let z := fld c.p0 0 16
  .ok (s.modTile k fun t =>
    { t with vbase := BitVec.ofNat 14 (fld c.p0 16 14), m := t.m.filter fun e => z / 2 ^ (e.1 / 4096) % 2 = 0 }) c

/-- The bytes of a VBASE.l image, read through the extents: those before the first fault, and the fault. -/
def readImage (s : State) (k : Nat) (va : Nat) : Nat → List Byte × Option AFault
  | 0 => ([], none)
  | n + 1 =>
    match s.engineRead k va 1 false with
    | .error e => ([], some e)
    | .ok b =>
      let (r, f) := readImage s k (va + 1) n
      (BitVec.ofNat 8 b :: r, f)

/-- Steps and tags whose bytes have been read (R372). -/
def Tile.placeImage (t : Tile) (step nstep : Nat) (bs : List Byte) : Tile :=
  let whole := min nstep (bs.length / 4)
  let t := { t with steps := (List.range whole).foldl (fun x i => Tab.set 0 x (step + i) (BitVec.ofNat 32 (bytesAt bs (4 * i) 4))) t.steps }
  let tags := bs.length - 4 * nstep
  { t with tags := (List.range (min nstep (2 * tags))).foldl (fun x i =>
      Tab.set 0 x (step + i) (BitVec.ofNat 4 (bytesAt bs (4 * nstep + i / 2) 1 / 16 ^ (i % 2) % 16))) t.tags }

/-- Loads steps and tags (R372). A fault at the first byte has made no effect. -/
def runVbaseL (s : State) (k : Nat) (c : Cmd) : Ran :=
  let n := fld c.p0 32 15
  let src := fld c.p1 0 48
  let (bs, f) := readImage s k src (4 * n + (n + 1) / 2)
  let s := s.modTile k fun t => t.placeImage (fld c.p0 16 14) n bs
  match f with
  | none => .ok s c
  | some (cls, va) => Ran.err s { c with effect := c.effect || !bs.isEmpty } cls va

/-- VHALT reaches the running table: it stops at its next step boundary, and a waiting step gives up (R378). -/
def runVhalt (s : State) (k : Nat) (c : Cmd) : Ran :=
  .ok (s.modTile k fun t =>
    match t.vs with
    | none => t
    | some v =>
      if v.granted then { t with vs := some { v with halt := true } }
      else
        let u : Tile := { t with vs := some { v with halt := true, wait := none } }
        u.dropTakers (s.dcc (tileDie k)) fun w => match w with
          | .vs _ => true
          | _ => false) c

/-- One value for the vector sequencer (R398). -/
def runVsend (s : State) (k : Nat) (c : Cmd) : Ran :=
  let reg := fld c.p0 16 4
  let tag := fld c.p0 23 5
  let e : VElem := { val := c.p1.setWidth 32, tag := storeCount (c.p1.setWidth 32) tag }
  .ok (s.modTile k fun t =>
    match fld c.p0 28 2 with
    | 0 => t.zPut reg e
    | 1 => { t with ix := Tab.set 0 t.ix reg (c.p1.setWidth 16) }
    | 2 => t.kPut reg c.p1
    | _ => { t with m := Tab.set {} t.m (reg * 4096 + fld c.p0 6 6 * 64 + fld c.p0 0 6) e }) c

/-- A pattern with NF = 0 faults where a command starts through it (R166). -/
def State.patOk (s : State) (k : Nat) (m : TMap) : Bool := !m.xpe || (Tab.get {} (s.tile k).pats m.xpat).nf ≠ 0

/-- A record whose index source a WDEF of record `n` redefines (R404). -/
def Stream.sourceLost (w : Stream) (n : Nat) : Stream := { w with orphan := w.orphan || decide (w.src = some n) }

/-- A stream record is installed (R168, R403), and the records that take their indexes from it lose their source (R404). -/
def runWdef (s : State) (k : Nat) (c : Cmd) : Ran :=
  if !s.layoutOk k c.m0 then .stale s c c.m0
  else if !s.patOk k c.m0 then .err s c Cls.illegalOp
  else
    let src := if bit c.p0 8 then some (fld c.p0 9 4) else none
    let rm := fld c.fpc 16 2
    let w : Stream := { defined := true, map := c.m0, pat := Tab.get {} (s.tile k).pats c.m0.xpat, rm := rm, src := src }
    let rc := fld c.p0 4 4
    .ok (s.modTile k fun t =>
      { t with streams := Tab.put (t.streams.map fun (e : Nat × Stream) => (e.1, e.2.sourceLost rc)) rc w }) c

/-- The running table that a VRUN starts, or goes on with where it was cut (R99, R395). -/
def State.startTable (s : State) (k : Nat) (c : Cmd) : VsRun :=
  let t := s.tile k
  match (if c.unstamped then t.cutV else none) with
  | some v => { v with cmd := c, moved := true }
  | none =>
    let at_ := t.vbase.toNat + fld c.p0 0 14
    let h := t.header at_
    let n := match fld h 18 2 with
      | 0 => fld h 20 16
      | 1 => (t.zGet (fld h 20 4)).val.toNat
      | _ => (Tab.get 0 t.ix (fld h 20 3)).toNat
    { cmd := c, body := at_ + 2, tagOff := fld h 36 14, steps := fld h 0 14, ns := fld h 16 2 + 1, rot := bit h 15, bank := bit h 14
      n := n, done := decide (n = 0) }

/-! ## The matrix unit (R140 to R153) -/

def Tile.row (t : Tile) (a r : Nat) : AccRow := Tab.get {} t.rows (a * 32 + r)
def Tile.setRow (t : Tile) (a r : Nat) (x : AccRow) : Tile := { t with rows := Tab.set {} t.rows (a * 32 + r) x }
def accKey (a r n : Nat) : Nat := (a * 32 + r) * 256 + n
def Tile.accVal (t : Tile) (a r n : Nat) : Int := (Tab.get 0 t.acc (accKey a r n)).toInt
def Tile.setAcc (t : Tile) (a r n : Nat) (v : Int) : Tile := { t with acc := Tab.set 0 t.acc (accKey a r n) (BitVec.ofInt 80 v) }
def Tile.floorAt (t : Tile) (r : Nat) : Nat := (Tab.get 255 t.afloor r).toNat
def Tile.bCode (t : Tile) (set : Nat) : Nat := if set = 0 then t.bfmt0.toNat else t.bfmt1.toNat

/-- K rows of a set, by its format code (R141). -/
def kRows (code : Nat) : Nat := if code = 2 then 1024 else 512

/-- The weights of row k of a set, n from 0 to 255 (R141 to R143); a reserved ds8 term reads 0, and a set never written
reads zero. -/
def Tile.weightRow (t : Tile) (set k : Nat) : List Int :=
  let row (i : Nat) : List Nat := (Tab.slice 0 t.b (set * 131072 + 256 * i) 256).map fun b => b.toNat
  match t.bCode set with
  | 0 => (row k).map fun v => sextN v 8
  | 1 => (row k).map ds8Weight
  | 2 => (row (k / 2)).map fun v => sextN (v / 16 ^ (k % 2)) 4
  | _ => List.replicate 256 0

/-- The sums of one A row over the K rows of weights. -/
def rowSums (ws : List (List Int)) (a : List Int) : List Int :=
  (ws.zip a).foldl (fun x p => if p.2 = 0 then x else (x.zip p.1).map fun q => q.1 + p.2 * q.2) (List.replicate 256 0)

/-- The set holds a reserved ds8 code (R121, R143). -/
def Tile.setReserved (t : Tile) (set : Nat) : Bool :=
  t.bCode set = 1 && t.b.any fun e => e.1 / 131072 = set && ds8Reserved e.2.toNat

/-- An A element's integer value by format (R119, R142). -/
def aValue (fmt bits : Nat) : Int :=
  match fmt with
  | 0 => sextN bits 4
  | 1 => sextN bits 8
  | 3 => sextN bits 16
  | _ => (bits : Int)

/-- Cycles per group of four rows (R142). -/
def groupCycles (fmt code : Nat) : Nat :=
  (match fmt with
    | 0 => 4
    | 1 | 2 => 8
    | _ => 16) * (if code = 2 then 2 else 1)

/-- Cycles of one chunk of an MMUL, and its chunks. -/
def Tile.chunkCycles (t : Tile) (c : Cmd) : Nat := (rowsOf c.p0 + 3) / 4 * groupCycles c.m0.format (t.bCode (setOf c.p0))
def Cmd.chunks (c : Cmd) : Nat := fld c.p0 7 1 + 1
/-- The cycle at which a started MMUL leaves the A path (R145); `elem` holds the chunk it started from. -/
def Tile.occupiedTo (t : Tile) (c : Cmd) : Nat := c.startedAt + (c.chunks - c.elem) * t.chunkCycles c

/-- Start of an MMUL: the checks of R344. -/
def startMmul (s : State) (k : Nat) (c : Cmd) : Ran :=
  let t := s.tile k
  let set := setOf c.p0
  let ka := kRows (t.bCode set)
  if !s.layoutOk k c.m0 then .stale s c c.m0
  else if c.m0.count ≠ rowsOf c.p0 * c.chunks * ka ∨ (c.chunks = 2 ∧ kRows (t.bCode (1 - set)) ≠ ka) then .err s c Cls.illegalOp
  else .ok s { c with elem := c.chunk }

/-- The address, after the swizzle, of an A element in a block of the own slice whose swizzle record is not the map's (R149; that a
SWIZZLE fault reports this address is a DESIGN CHOICE, log 49). -/
def State.aSwizzle (s : State) (k : Nat) (m : TMap) (n : Nat) : Option W64 :=
  match m.elemAt n none with
  | .error _ => none
  | .ok p =>
    match s.engineCheck k p.addr m.bytes .r false with
    | .error _ => none
    | .ok a =>
      let own := !a.fallow && sliceBase k ≤ a.plain && a.plain < sliceBase k + 2 ^ 22
      if own && Tab.get 0 (s.tile k).swz ((a.plain - sliceBase k) / 2048) ≠ m.spanCode then some (w64 p.addr) else none

/-- One A element. -/
def State.aElem (s : State) (k : Nat) (m : TMap) (n : Nat) : Except AFault Int :=
  match s.readElemAt k m n none false with
  | .error e => .error e
  | .ok v => .ok (aValue m.format v)

def Tile.bMap (t : Tile) (set : Nat) : Option TMap := if set = 0 then t.bmap0 else t.bmap1
def Tile.setBMap (t : Tile) (set : Nat) (m : Option TMap) : Tile := if set = 0 then { t with bmap0 := m } else { t with bmap1 := m }

/-- The first byte of a set's B tile that lies in a revoked extent (R150; log 94). -/
def Tile.bRevoked (t : Tile) (set : Nat) : Option Nat :=
  match t.bMap set with
  | none => none
  | some m =>
    let (lo, hi) := m.range {} none
    (t.exts.find? fun e => e.revoked && e.vbase < hi && lo < e.vbase + e.len).map fun e => max lo e.vbase

/-- A 256-byte sector of the set cannot be corrected (R345). -/
def Tile.setBad (t : Tile) (set : Nat) : Bool := t.badB.any fun i => i / 512 = set

/-- The commit of chunk `ch` (R143): rows of A values given. -/
def Tile.commitChunk (t : Tile) (c : Cmd) (rows : List (List Int)) : Tile :=
  let set := if c.chunk = 0 then setOf c.p0 else 1 - setOf c.p0
  let a := accOf c.p0
  let inv := t.setReserved set
  let lim : Int := 2 ^ 79 - 1
  let ws := (List.range (kRows (t.bCode set))).map (t.weightRow set)
  (rows.zipIdx).foldl (fun u (x : List Int × Nat) =>
    let j := x.2
    let u := (rowSums ws x.1).zipIdx.foldl (fun u (q : Int × Nat) =>
      let v := t.accVal a j q.2 + q.1
      let w := max (-lim) (min lim v)
      let u := u.setAcc a j q.2 w
      if v = w then u else u.setRow a j { u.row a j with ovf := true }) u
    let r := u.row a j
    u.setRow a j { r with inv := r.inv || inv, floor := min r.floor (t.floorAt j) }) t

/-- The next chunk of a started MMUL: the swizzle records of all its blocks are checked, its A rows are read, its B tile's
page is still there, no sector of the set is bad, and its sums are committed; or it faults (R143, R149, R150). -/
def chunkMmul (s : State) (k : Nat) (c : Cmd) : Ran :=
  let t := s.tile k
  let ka := kRows (t.bCode (setOf c.p0))
  let at_ (j i : Nat) : Nat := (j * c.chunks + c.chunk) * ka + i
  let rows := List.range (rowsOf c.p0)
  match rows.findSome? fun j => (List.range ka).findSome? fun i => s.aSwizzle k c.m0 (at_ j i) with
  | some va => .err s c Cls.swizzle va
  | none =>
    match rows.mapM fun j => (List.range ka).mapM fun i => s.aElem k c.m0 (at_ j i) with
    | .error (cls, va) => .err s c cls va
    | .ok rows =>
      match t.bRevoked (if c.chunk = 0 then setOf c.p0 else 1 - setOf c.p0) with
      | some va => .err s c Cls.extentRevoked (w64 va)
      | none =>
        if t.setBad (if c.chunk = 0 then setOf c.p0 else 1 - setOf c.p0) then
          .fault s c { cls := Cls.uncorrectable, src := (Queue.slotOf c.kind).src, inSet := true }
        else .ok (s.setTile k (t.commitChunk c rows)) { c with chunk := c.chunk + 1, effect := true }

/-- Start of an MLDB: the layout check and the format code (R343). -/
def startMldb (s : State) (k : Nat) (c : Cmd) : Ran :=
  if !s.layoutOk k c.m0 then .stale s c c.m0
  else
    let code : BitVec 2 := match c.m0.format with
      | 0 => 2
      | 12 => 1
      | _ => 0
    .ok (s.modTile k fun t =>
      ((if setOf c.p0 = 0 then { t with bfmt0 := code } else { t with bfmt1 := code } : Tile).setBMap (setOf c.p0) none)) c

/-- The elements of a map from n on, `fuel` of them: those read, and the fault that stopped them. -/
def readElems (s : State) (k : Nat) (m : TMap) : Nat → Nat → List Nat × Option AFault
  | 0, _ => ([], none)
  | fuel + 1, n =>
    match s.readElemAt k m n none false with
    | .error e => ([], some e)
    | .ok v =>
      let (r, f) := readElems s k m fuel (n + 1)
      (v :: r, f)

/-- The bytes of a weight set from the elements of its tile (R343). -/
def setBytes (i4 : Bool) : List Nat → List Nat
  | a :: b :: r => if i4 then (a + 16 * b) :: setBytes i4 r else a :: b :: setBytes i4 r
  | r => r

/-- An MLDB copies its tile, in whole (R343). A fault at the first element has made no effect. -/
def runMldb (s : State) (k : Nat) (c : Cmd) : Ran :=
  let (vs, f) := readElems s k c.m0 c.m0.count 0
  match f with
  | some (cls, va) => .err s { c with effect := c.effect || !vs.isEmpty } cls va
  | none =>
    let set := setOf c.p0
    let bs := setBytes (c.m0.format = 0) vs
    .ok (s.modTile k fun t =>
      ({ t with b := Tab.block 0 t.b (set * 131072) (bs.map fun v => BitVec.ofNat 8 v)
                badB := t.badB.filter fun i => i / 512 ≠ set } : Tile).setBMap set (some c.m0)) c

/-- MCLR (R341). -/
def runMclr (s : State) (k : Nat) (c : Cmd) : Ran :=
  let a := accOf c.p0
  .ok (s.modTile k fun t =>
    (List.range (rowsOf c.p0)).foldl (fun u i =>
      let r := row0Of c.p0 + i
      ({ u with acc := u.acc.filter fun e => e.1 / 256 ≠ a * 32 + r } : Tile).setRow a r {}) t) c

/-- v / 2^k to the nearest integer, ties to even (R151). -/
def roundShift (v : Int) (k : Nat) : Int :=
  let q := v.fdiv (2 ^ k)
  let r := (v - q * 2 ^ k).toNat
  if 2 * r > 2 ^ k ∨ (2 * r = 2 ^ k ∧ q % 2 ≠ 0) then q + 1 else q

def popcount : Nat → Nat → Nat
  | 0, _ => 0
  | n + 1, v => v % 2 + popcount n (v / 2)

/-- MSHR (R151, R346). -/
def runMshr (s : State) (k : Nat) (c : Cmd) : Ran :=
  let a := accOf c.p0
  let sh := fld c.p0 32 7
  .ok (s.modTile k fun t =>
    (List.range (rowsOf c.p0)).foldl (fun u i =>
      let r := row0Of c.p0 + i
      let lost := ((List.range 256).map fun n => popcount 80 ((u.accVal a r n).natAbs % 2 ^ sh)).sum
      let u := (List.range 256).foldl (fun u n => u.setAcc a r n (roundShift (u.accVal a r n) sh)) u
      let x := u.row a r
      u.setRow a r { x with lost := min lost 0xFFFF, inx := x.inx || decide (0 < lost) }) t) c

/-- An accumulator element as f32: bits and flags (R122). -/
def accToF32 (rm : RM) (x : AccRow) (v : Int) : Nat × Nat :=
  if x.inv then (Fmt.f32.nan, Flg.invalid)
  else
    let r := fpFromInt .f32 rm v
    (r.bits, r.flags ||| (if x.ovf then Flg.overflow + Flg.inexact else 0))

/-- The status word of an accumulator row (R342). -/
def AccRow.status (x : AccRow) : Nat :=
  (if x.ovf then 1 else 0) + (if x.inv then 2 else 0) + 256 * x.floor + 2 ^ 32 * x.lost + (if x.inx then 2 ^ 63 else 0)

/-- Element n of an MDRAIN: its bits and flags (R342). -/
def Tile.drainElem (t : Tile) (c : Cmd) (n : Nat) : Nat × Nat :=
  let a := accOf c.p0
  if c.kind = .mdrainS then ((t.row a (row0Of c.p0 + n)).status, 0)
  else
    let r := row0Of c.p0 + n / 256
    let v := t.accVal a r (n % 256)
    if c.m0.format = 9 then accToF32 (fpcRm c.fpc) (t.row a r) v
    else
      let w := c.m0.bits
      let hi : Int := 2 ^ (w - 1) - 1
      (wrapN (max (-hi - 1) (min hi v)) w, 0)

/-- The next element of an MDRAIN is written, or cuts the command. -/
def drainOne (s : State) (k : Nat) (c : Cmd) : Ran :=
  let (v, fl) := (s.tile k).drainElem c c.elem
  match flagTrap c.fpc fl with
  | some cls => .fault s c { cls := cls, src := (Queue.slotOf c.kind).src, flags := fl }
  | none =>
    match s.writeElem k c.m0 c.elem v false c.wrote with
    | .error (cls, va) => .err s c cls va
    | .ok (s, ws) => .ok s { c with elem := c.elem + 1, effect := true, flags := c.flags ||| fl, wrote := ws }

/-! ## The copy engine (R361) -/

/-- The next element of a copy is read and written, or cuts the command. -/
def copyOne (s : State) (k : Nat) (c : Cmd) : Ran :=
  match s.readElem k c.m0 c.elem (fpcRm c.fpc) true with
  | .error (cls, va) => .err s c cls va
  | .ok e =>
    match flagTrap c.fpc e.flags with
    | some cls => .fault s c { cls := cls, src := (Queue.slotOf c.kind).src, flags := e.flags }
    | none =>
      match s.writeElem k c.m1 c.elem e.bits true c.wrote with
      | .error (cls, va) => .err s c cls va
      | .ok (s, ws) => .ok s { c with elem := c.elem + 1, effect := true, flags := c.flags ||| e.flags, wrote := ws }

/-- Up to `fuel` further elements of a command, by its own element step, until `count` are done. -/
def runElems (one : State → Nat → Cmd → Ran) (k count : Nat) : Nat → State → Cmd → Ran
  | 0, s, c => .ok s c
  | fuel + 1, s, c =>
    if count ≤ c.elem then .ok s c
    else match one s k c with
      | .ok s c => runElems one k count fuel s c
      | r => r

/-- An access of an engine that has its home on another die. -/
def State.awayAt (s : State) (k va len : Nat) (n : Need) : Bool :=
  match s.engineCheck k va len n true with
  | .error _ => false
  | .ok a => !a.fallow && plainDie a.plain ≠ tileDie k

/-- Element n of a map has its home on another die (R362). -/
def State.elemAway (s : State) (k : Nat) (m : TMap) (write : Bool) (n : Nat) : Bool :=
  if m.xpe then
    let p := Tab.get {} (s.tile k).pats m.xpat
    let a := (m.periodAt p n none).1
    0 ≤ a && (List.range (p.period / 8)).any fun i => s.awayAt k (m.swizzle (a.toNat + i)) 1 .r
  else match s.writeAt k m n with
    | .error _ => false
    | .ok p => s.awayAt k p.addr m.bytes (if write then .w else .r)

/-- Some element of the map has its home on another die (R362). -/
def State.mapRemote (s : State) (k : Nat) (m : TMap) (write : Bool) : Bool := (List.range m.count).any (s.elemAway k m write)

/-- Start of a copy: the layout checks, SRC first, and the pattern (R361). Its elements move as it completes. -/
def startCopy (s : State) (k : Nat) (c : Cmd) : Ran :=
  if !s.layoutOk k c.m0 then .stale s c c.m0
  else if !s.layoutOk k c.m1 then .stale s c c.m1
  else if !s.patOk k c.m0 then .err s c Cls.illegalOp
  else
    .ok s { c with legs := if s.mapRemote k c.m0 false || s.mapRemote k c.m1 true then 1 else 0
                   startId := s.nextId, startPtc := s.ptc (tileDie k) }

/-- The address of element n of a map. -/
def State.elemVa (s : State) (k : Nat) (m : TMap) (n : Nat) : W64 :=
  if m.xpe then BitVec.ofInt 64 (m.periodAt (Tab.get {} (s.tile k).pats m.xpat) n none).1
  else match s.writeAt k m n with
    | .ok p => w64 p.addr
    | .error e => e.2

/-- The elements of a copy are performed in order, up to the first that faults (R361). Once the time of a request to another
die has passed since its start, whether the first element that has its home there gets an answer is a free choice: without
one it ends in TIMEOUT (R245; log 33). -/
def State.transfer (s : State) (k : Nat) (c : Cmd) : Ran :=
  let d := tileDie k
  let count := c.m1.count
  let away (n : Nat) : Bool := s.elemAway k c.m0 false n || s.elemAway k c.m1 true n
  if 0 < c.legs ∧ c.startPtc + fld (s.die d).reqTimeout 0 32 ≤ s.ptc d ∧ Config.freePick s.fresh % 2 = 1 then
    match (List.range count).find? fun n => c.elem ≤ n && away n with
    | none => runElems copyOne k count (count + 1) s c
    | some n => match runElems copyOne k n (n + 1) s.bump c with
      | .ok s c => .err s c Cls.timeout (if s.elemAway k c.m0 false n then s.elemVa k c.m0 n else s.elemVa k c.m1 n)
      | r => r
  else runElems copyOne k count (count + 1) s c

/-- Requests that left the die for others before a copy started have yet to arrive: on the ordered LS channel its transfers
come after them (R215). -/
def State.behind (s : State) (k : Nat) (c : Cmd) : Bool :=
  0 < c.legs && s.reqs.any fun r => r.1 < c.startId && r.2.src = tileDie k && r.2.dst ≠ tileDie k && r.2.answer.isNone && !r.2.kept && !r.2.lost && !r.2.expired

/-! ## The stream engine (R169, R170) -/

/-- One lane of a stream entry from an element's bits (R169). -/
def streamLane (fmt : Nat) (e : Elem) : VElem :=
  let v : W32 := BitVec.ofNat 32 e.bits
  match fmt with
  | 0 => { val := BitVec.ofInt 32 (sextN e.bits 4) }
  | 1 => { val := BitVec.ofInt 32 (sextN e.bits 8) }
  | 3 => { val := BitVec.ofInt 32 (sextN e.bits 16) }
  | 9 => { val := v, tag := storeCount v 24 }
  | 10 => let w : W32 := BitVec.ofNat 32 (widen .f16 e.bits); { val := w, tag := storeCount w 11 }
  | 11 => let w : W32 := BitVec.ofNat 32 (widen .bf16 e.bits); { val := w, tag := storeCount w 8 }
  | _ => { val := v }

/-- Elements that a record has delivered. -/
def Stream.delivered (w : Stream) : Nat := 64 * w.popped + w.taken
/-- A record is live until it has delivered its last element (R168). -/
def Stream.live (w : Stream) : Bool := w.defined && w.delivered < w.map.count

/-- What the next lane of an index source gives. -/
inductive Lane where
  | value (t : Tile) (v : Nat)
  | wait (t : Tile)
  | fault (cls : Nat) (va : W64)

/-- The stream engine consumes the next lane of an index source (R169, R404). -/
def Tile.takeLane (t : Tile) (src : Nat) : Lane :=
  let w := Tab.get {} t.streams src
  if !w.live then .fault Cls.illegalOp 0
  else match w.queue with
    | [] => .wait t
    | .fault cls va :: _ => .fault cls va
    | .lanes l _ :: r =>
      let w' := if w.taken = 63 ∨ w.map.count ≤ w.delivered + 1 then { w with queue := r, popped := w.popped + 1, taken := 0 }
                else { w with taken := w.taken + 1 }
      .value { t with streams := Tab.put t.streams src w' } (l.getD w.taken {}).val.toNat

/-- Index values are taken from the source until the record holds `need` of them; a redefined source gives none (R404). -/
def fillIndex (rc src need : Nat) : Nat → Tile → Lane
  | 0, t => .value t 0
  | fuel + 1, t =>
    let w := Tab.get {} t.streams rc
    if need ≤ w.idx.length then .value t 0
    else if w.orphan then .fault Cls.illegalOp 0
    else match t.takeLane src with
      | .value t v =>
        let w := Tab.get {} t.streams rc
        fillIndex rc src need fuel { t with streams := Tab.put t.streams rc { w with idx := w.idx ++ [v] } }
      | r => r

/-- Element n of a stream record, with the index its source gives (R164, R169). The INDEX field of its own map takes effect
in TGATH and TSCAT only. A value at or above IBOUND has no index entry in memory: its fault names address 0 (DESIGN CHOICE,
log 93). -/
def State.streamElem (s : State) (k : Nat) (w : Stream) (n : Nat) (sub : Option Nat) : Except AFault Elem :=
  if sub.any fun v => w.map.ibound ≠ 0 && w.map.ibound.toNat ≤ v then .error (Cls.extent, 0)
  else if w.map.xpe then s.readExtract k w.map w.pat n sub (rmOf w.rm) false
  else match s.readElemAt k w.map n sub false with
    | .error e => .error e
    | .ok v => .ok { bits := v }

/-- Lanes 0 to 63 of the next entry; lane L past the last element reads +0 with tag 31 (R169). -/
def State.streamLanes (s : State) (k : Nat) (w : Stream) : Nat → Nat → Except AFault (List VElem × Nat)
  | 0, _ => .ok ([], 0)
  | fuel + 1, lane =>
    let n := 64 * w.next + lane
    if w.map.count ≤ n then .ok ((List.range (fuel + 1)).map (fun _ => ({ val := 0, tag := 31 } : VElem)), 0)
    else
      let i := w.src.map fun _ => w.idx.getD (w.map.coord n w.map.idim) 0
      match s.streamElem k w n i with
      | .error e => .error e
      | .ok e =>
        let fmt := if w.map.xpe then w.pat.ofmt else w.map.format
        let lane0 := streamLane fmt e
        -- an extracted f32 keeps the count of its conversion
        let x := if w.map.xpe ∧ fmt = 9 then { lane0 with tag := BitVec.ofNat 5 e.cnt } else lane0
        match State.streamLanes s k w fuel (lane + 1) with
        | .error e => .error e
        | .ok (r, fl) => .ok (x :: r, fl ||| e.flags)

/-- Index values that the next entry of a record needs. -/
def Stream.indexNeed (w : Stream) : Nat :=
  ((List.range 64).map fun l =>
    let n := 64 * w.next + l
    if w.map.count ≤ n then 0 else w.map.coord n w.map.idim + 1).foldl max 0

/-- The next entry of a live record is filled, or marked with the fault that stops its filling (R169, R170). Its 64 elements
are read in one step (DESIGN CHOICE, log 93). -/
def State.fillStream (s : State) (k rc : Nat) : State :=
  let t := s.tile k
  let w := Tab.get {} t.streams rc
  if !w.defined || w.stopped || w.map.count ≤ 64 * w.next || 32 ≤ w.queue.length then s
  else
    let mark (s : State) (cls : Nat) (va : W64) : State := s.modTile k fun t =>
      let w := Tab.get {} t.streams rc
      { t with streams := Tab.put t.streams rc { w with queue := w.queue ++ [.fault cls va], stopped := true } }
    let ready : Lane := match w.src with
      | none => .value t 0
      | some src => fillIndex rc src w.indexNeed (w.indexNeed + 1) t
    match ready with
    | .wait t => s.setTile k t
    | .fault cls va => mark s cls va
    | .value t _ =>
      let s := if w.src.isSome then s.setTile k t else s
      let w := Tab.get {} t.streams rc
      match s.streamLanes k w 64 0 with
      | .error (cls, va) => mark s cls va
      | .ok (l, fl) => s.modTile k fun t =>
        { t with streams := Tab.put t.streams rc { w with queue := w.queue ++ [.lanes l fl], next := w.next + 1 } }

end Sys2Proof.Machine
end

