-- ==== Sys2Proof/Machine/Sync.lean ====
section
/-! DEFINITION. Events (R308 to R311), counting barriers (R223, R288, R289) and tile tokens (R66 to R68, R365,
R366). -/

namespace Sys2Proof.Machine

/-! ## Events -/

/-- The die key of an event selector (R308). -/
def State.eventDie (s : State) (sel : W64) : Nat := 8 * diePkg (tileDie s.focus) + fld sel 16 3

/-- The common part of the event instructions: at commit, with the selector's checks (R308). -/
def State.eventOp (s : State) (sel : W64) (f : State → Nat → Out) : Out :=
  s.commitThen fun s =>
    let k := s.focus
    if fld sel 19 45 ≠ 0 then .next (s.illegal k)
    else if !(s.eventDie sel ∈ (s.job (s.jobOf k)).dies) then .next (s.fault k Cls.priv sel)
    else f s (s.eventDie sel)

/-- The event's count rises by g[b] (R310). -/
def execEvsig (a b : BitVec 6) (s : State) : Out :=
  let sel := s.g a
  let n := s.g b
  s.eventOp sel fun s die =>
    if fld n 32 32 ≠ 0 then .next (s.illegal s.focus)
    else s.drained fun s =>
      .next (s.ask s.focus die (.evSignal die (s.jobOf s.focus) (fld sel 0 16) n.toNat false) .discardValue sel
        (on := fun _ => .eventRoom) (bound := some (capIssue s.cur.waitCap)))

/-- The event's count becomes zero (R310). -/
def execEvsigR (a : BitVec 6) (s : State) : Out :=
  let sel := s.g a
  s.eventOp sel fun s die => s.drained fun s =>
    .next (s.ask s.focus die (.evSignal die (s.jobOf s.focus) (fld sel 0 16) 0 true) .discardValue sel)

/-- g[d] := the event's count (R309). -/
def execEvpoll (d a : BitVec 6) (s : State) : Out :=
  let sel := s.g a
  s.eventOp sel fun s die =>
    .next (s.ask s.focus die (.evPoll die (s.jobOf s.focus) (fld sel 0 16)) (.g d.toNat 8 false) sel)

/-- Waits for the event: met, the unit goes on; unmet, it is parked and its tile freed. A pending cancel takes effect
here (R311, R30). -/
def execEvwait (a b : BitVec 6) (s : State) : Out :=
  let k := s.focus
  let sel := s.g a
  let thr := s.g b
  if s.cur.inh then .next (s.illegal k)
  else s.eventOp sel fun s die =>
    let t := s.cur
    if fld thr 32 32 ≠ 0 then .next (s.illegal k)
    else if t.cancelAt.isSome then .next (s.takeCut k .cancel t.order t.pc t.clause)
    else if !t.vs.isNone || !t.started.isEmpty then .next (s.stall k .drain none)
    else s.drained fun s =>
      .next (s.ask k die (.evWait die (s.jobOf k) (fld sel 0 16) thr.toNat) .eventWait sel)

/-! ## Counting barriers -/

/-- A barrier number lies in the job's range on a die (R223). -/
def State.barOk (s : State) (d job b : Nat) : Bool :=
  let r := (s.jobDie d job).barRange
  fld r 0 8 ≤ b && b < fld r 0 8 + fld r 8 8

/-- The die that a barrier selector names, by its package's number (R288). -/
def State.barDie (s : State) (sel : W64) : Option Nat :=
  (s.pkgNamed (diePkg (tileDie s.focus)) (fld sel 16 10)).map fun q => 8 * q + fld sel 8 3

/-- The common part of BARINIT and BARADD (R288). -/
def State.barOp (s : State) (sel v : W64) (init : Bool) : Out :=
  s.commitThen fun s =>
    let k := s.focus
    if fld sel 26 38 ≠ 0 ∨ fld sel 11 5 ≠ 0 then .next (s.illegal k)
    else match s.barDie sel with
      | none => .next (s.fault k Cls.priv sel)
      | some die =>
        if !(die ∈ (s.job (s.jobOf k)).dies) ∨ !s.barOk die (s.jobOf k) (fld sel 0 8) then .next (s.fault k Cls.priv sel)
        else s.drained fun s => .next (s.ask k die (.bar die (fld sel 0 8) v.toNat init) .discardValue sel)

/-- The barrier's count becomes g[b] (R288). -/
def execBarinit (a b : BitVec 6) (s : State) : Out := s.barOp (s.g a) (s.g b) true
/-- The barrier's count rises by g[b] (R288). -/
def execBaradd (a b : BitVec 6) (s : State) : Out := s.barOp (s.g a) (s.g b) false

/-- Waits until the barrier of this die holds n, then takes n (R289). -/
def execBarwait (d a : BitVec 6) (i : BitVec 13) (s : State) : Out :=
  let k := s.focus
  let n := (s.g d).toNat
  let sel := s.g a
  let bnd := s.cur.bound (s.cur.immU i)
  let b := fld sel 0 8
  if s.cur.ahead then .next (s.stall k (.barrier b n) (some bnd))
  else if fld sel 8 56 ≠ 0 then .next (s.illegal k)
  else if !s.barOk (tileDie k) (s.jobOf k) b then .next (s.fault k Cls.priv sel)
  else if n = 0 then .next (s.retire s.cur)
  else
    let x := Tab.get {} (s.die (tileDie k)).bars b
    let s := s.stall k (.barrier b n) (some bnd) true
    .next (serveBar (tileDie k) b (x.waiters ++ [{ tile := k, n := n }]) s)

/-! ## Tile tokens -/

/-- The token's count rises by g[a] + imm; a release at .tile (R365, R68). -/
def execToksig (t a : BitVec 6) (i : BitVec 13) (s : State) : Out :=
  let k := s.focus
  let n := (s.g a).toNat + s.cur.immU i
  let n := if 0xFFFF < n then 0xFFFF else n
  if s.cur.ahead then .next (s.retire (s.cur.journalAdd (.tok t.toNat n) 0 true))
  else s.drained fun s => .next (s.retire (s.cur.signalToken (s.dcc (tileDie k)) t.toNat n))

/-- Takes g[a] from the token, waiting in arrival order (R366, R67). -/
def execTokwait (t a : BitVec 6) (i : BitVec 13) (s : State) : Out :=
  let k := s.focus
  let n := (s.g a).toNat
  let tok := t.toNat
  let bnd := s.cur.bound (s.cur.immU i)
  if 0xFFFF < n then .next (s.illegal k)
  else if s.cur.ahead then .next (s.stall k (.token tok n) (some bnd))
  else if n = 0 then .next (s.retire s.cur)
  else if s.cur.canTake tok n then .next (s.retire (s.cur.take (s.dcc (tileDie s.focus)) tok n))
  else
    let s := s.stall k (.token tok n) (some bnd) true
    .next (s.modTile k fun x => x.addTaker tok (.ct n))

end Sys2Proof.Machine
end

