-- ==== Sys2Proof/Machine/Torus.lean ====
section
/-! DEFINITION. The die torus: HEXCH and its slabs (R221, R222), and the writing of layout
slots and pass tables (R217 to R220, R224, R330, R331). -/

namespace Sys2Proof.Machine

/-! ## Routes (R213, R216) -/

/-- Two dies are in one pod. -/
def State.podDies (s : State) (a b : Nat) : Bool := s.peers (diePkg a) (diePkg b)

def Die.portUp (x : Die) (p : Nat) : Bool := Tab.get 0 x.linkState p ≠ 2

/-- The dies from d on along port p, `n` hops, with the ports used; none where a link is down. -/
def walkPort (s : State) (p : Nat) : Nat → Nat → Option (Nat × List (Nat × Nat))
  | 0, d => some (d, [])
  | n + 1, d =>
    if !(s.die d).portUp p then none
    else match s.neighbour d p with
      | none => none
      | some e => match walkPort s p n e with
        | none => none
        | some (f, l) => some (f, (d, p) :: l)

/-- One dimension of a route: the way with fewer hops, + on a tie, else the other way (R213, R216). -/
def walkDim (s : State) (dim n frm dst d : Nat) : Option (Nat × List (Nat × Nat)) :=
  let fwd := (dst + n - frm) % n
  if fwd = 0 then some (d, [])
  else
    let plus := walkPort s (2 * dim) fwd d
    let minus := walkPort s (2 * dim + 1) (n - fwd) d
    if fwd ≤ n - fwd then plus.or minus else minus.or plus

/-- The links of the route from a die to another, x then y then z; none where no route reaches it. -/
def State.route (s : State) (a b : Nat) : Option (List (Nat × Nat)) :=
  let (x, y, z) := s.dieCoord a
  let (x', y', z') := s.dieCoord b
  let p := diePkg a
  if !s.podDies a b then none
  else match walkDim s 0 (s.ringX p) x x' a with
  | none => none
  | some (d, l0) => match walkDim s 1 (s.ringY p) y y' d with
    | none => none
    | some (d, l1) => match walkDim s 2 (s.ringZ p) z z' d with
      | none => none
      | some (_, l2) => some (l0 ++ l1 ++ l2)

/-- A die reaches another: it is the same one, or a route leads there. -/
def State.linked (s : State) (a b : Nat) : Bool := a = b || (s.route a b).isSome

/-- A message that can arrive: a route leads from the die that sent it (R216). -/
def State.msgAt (s : State) (id : Nat) : Option Msg :=
  (Tab.find? s.msgs id).filter fun m => s.linked (s.msgEnds m).1 (s.msgEnds m).2

/-! ## Commands with legs, wherever their unit is -/

def updCmd (pos : Nat) (f : Cmd → Cmd) (t : Tile) : Tile :=
  { t with started := t.started.map fun c => if c.pos = pos then f c else c }

/-- A started command of tile k changes, in the tile or in the frame that its unit was saved in (R79). -/
def State.modCmd (s : State) (k pos : Nat) (f : Cmd → Cmd) : State :=
  if (s.tile k).started.any fun c => c.pos = pos then s.modTile k (updCmd pos f)
  else s.modDie (tileDie k) fun x =>
    { x with jobs := x.jobs.map fun (j : Nat × JobDie) => (j.1, { j.2 with
        saved := j.2.saved.map fun (v : Nat × Saved) => (v.1, if v.2.key = k then { v.2 with tile := updCmd pos f v.2.tile } else v.2) }) }

/-- A leg of a command ends, with a fault if it met one; the first fault stands. -/
def Cmd.endLeg (c : Cmd) (f : Option (Nat × W64)) : Cmd := { c with legs := c.legs - 1, legFault := c.legFault.or f }

/-- A face of a HEXCH fails (R222). -/
def Cmd.failFace (c : Cmd) (port cls : Nat) : Cmd := { c with failed := port :: c.failed, legFault := c.legFault.or (some (cls, 0)) }

/-- Completion of a command whose legs have ended. -/
def finishLegs (s : State) (c : Cmd) (src : Nat) : Ran :=
  if 0 < c.legs then .wait s c
  else match c.legFault with
    | some (cls, va) => .fault s { c with legFault := none } { cls := cls, faddr := va, src := src }
    | none => .ok s c

/-! ## HEXCH (R221, R222, R323) -/

/-- One face: port, block map, halo map, width. -/
structure Face where
  port : Nat
  halo : TMap
  width : Nat
  deriving DecidableEq, Repr

def TMap.dim (m : TMap) (i : Nat) : Nat :=
  match i with
  | 0 => m.extX.toNat
  | 1 => m.extY.toNat
  | _ => m.extT.toNat

/-- Extents of the face of a port. -/
def faceExt (b : TMap) (port width : Nat) : Nat × Nat × Nat × Nat :=
  let e (i : Nat) : Nat := if port / 2 = i then width else b.dim i
  (b.extC.toNat, e 0, e 1, e 2)

/-- The element of the block that element n of a face is. -/
def faceElem (b : TMap) (port width n : Nat) : Nat :=
  let (c, x, y, _) := faceExt b port width
  let at_ (i v : Nat) : Nat := if port / 2 = i ∧ port % 2 = 0 then b.dim i - width + v else v
  let ic := n % c
  let ix := at_ 0 (n / c % x)
  let iy := at_ 1 (n / (c * x) % y)
  let it := at_ 2 (n / (c * x * y))
  ic + c * (ix + b.extX.toNat * (iy + b.extY.toNat * it))

/-- A face passes the checks of R221. -/
def Face.ok (f : Face) (b : TMap) : Bool :=
  let (c, x, y, t) := faceExt b f.port f.width
  0 < f.width && f.width ≤ b.dim (f.port / 2) && f.halo.extC.toNat = c && f.halo.extX.toNat = x && f.halo.extY.toNat = y
  && f.halo.extT.toNat = t && f.halo.format = b.format && (f.halo.mode = 1 || f.halo.mode = 2)
  && (b.format ≠ 0 || c * x * y * t % 2 = 0)

/-- The image of a map, read through R extents and checked (R158). -/
def State.mapImage (s : State) (k : Nat) (va : W64) : Except AFault (Option TMap) :=
  match s.readVa k va 64 with
  | .error e => .error e
  | .ok bs => match checkImage bs with
    | .ok m => .ok (some m)
    | _ => .ok none

/-- Where element n of a halo map lies, as the issuing unit may reach it. -/
def State.haloAt (s : State) (k : Nat) (h : TMap) (n : Nat) : Except AFault (Option Nat × Option Nat) :=
  match h.elemAt n none with
  | .error e => .error e
  | .ok p =>
    if h.strict && h.alias_ && (List.range n).any (fun i => match h.elemAt i none with
        | .ok q => q = p
        | .error _ => false) then .error (Cls.aliasWrite, w64 p.addr)
    else match s.engineCheck k p.addr h.bytes .w false with
      | .error e => .error e
      | .ok a => .ok (if a.fallow then none else some a.plain, p.nib)

/-- Elements n to n + fuel − 1 of a face, up to the first that cannot be written. -/
def slabElems (s : State) (k : Nat) (b : TMap) (f : Face) (vals : List Nat) : Nat → Nat →
    List (Option Nat × Option Nat × Nat) × Option AFault
  | 0, _ => ([], none)
  | fuel + 1, n =>
    match s.haloAt k f.halo n with
    | .error e => ([], some e)
    | .ok (p, nib) =>
      let (r, e) := slabElems s k b f vals fuel (n + 1)
      ((p, nib, vals.getD n 0) :: r, e)

/-- Slabs of a face from element n on, up to one that a fault stops; slabs that `perf` lists whole are left out. -/
def postSlabs (k : Nat) (c : Cmd) (b : TMap) (f : Face) (vals : List Nat) (die bar per count : Nat) :
    Nat → Nat → State → Nat → State × Nat
  | 0, _, s, legs => (s, legs)
  | fuel + 1, i, s, legs =>
    if count ≤ i * per then (s, legs)
    else
      let idx := f.port * 2 ^ 20 + i
      let have_ := Tab.get 0 c.slabs idx
      let n := min per (count - i * per)
      if n ≤ have_ then postSlabs k c b f vals die bar per count fuel (i + 1) s legs
      else
        let (es, flt) := slabElems s k b f vals (n - have_) (i * per + have_)
        let s := s.post (.slab k c.pos die bar (s.jobOf k) (s.fidOf k) idx b.bits f.halo.spanCode.toNat es flt)
        match flt with
        | some _ => (s, legs + 1)
        | none => postSlabs k c b f vals die bar per count fuel (i + 1) s (legs + 1)

/-- One face is sent; a lost neighbour faults it (R222). -/
def sendFace (k : Nat) (b : TMap) (barn : Nat → Nat) (f : Face) (vals : List Nat) (x : State × Cmd) : State × Cmd :=
  let (s, c) := x
  match s.neighbour (tileDie k) f.port with
  | none => (s, c.failFace f.port Cls.targetLost)
  | some d =>
    if d ∈ (s.die (tileDie k)).unreachable then (s, c.failFace f.port Cls.targetLost)
    else
      let (x0, x1, x2, x3) := faceExt b f.port f.width
      let count := x0 * x1 * x2 * x3
      let per := 4096 * 8 / b.bits
      let (s, legs) := postSlabs k c b f vals d (barn f.port) per count (count / per + 1) 0 s 0
      (s, { c with legs := c.legs + legs })

/-- The descriptor's images and faces, checked; none is ILLEGAL_OP. -/
def State.halo (s : State) (k : Nat) (c : Cmd) : Except AFault (Option (TMap × List Face × List Byte)) := do
  let desc := w64 (fld c.p0 0 48)
  let bs ← s.readVa k desc 32
  let faces := bytesAt bs 0 1
  if 64 ≤ faces ∨ bytesAt bs 0xA 6 ≠ 0 then return none
  let some b ← s.mapImage k (w64 (bytesAt bs 0x10 8)) | return none
  let fs ← ((List.range 6).filter fun p => faces / 2 ^ p % 2 = 1).mapM fun p => do
    let m ← s.mapImage k (w64 (bytesAt bs 0x18 8 + 64 * p))
    return m.map fun h => { port := p, halo := h, width := bytesAt bs (1 + p / 2) 1 : Face }
  if fs.any Option.isNone then return none
  let fs := fs.filterMap id
  if !b.reads ∨ !fs.all (fun f => f.ok b) then return none
  return some (b, fs, bs)

/-- Start of a HEXCH: its images are read and checked, and its faces are sent (R221, R222). -/
def startHexch (s : State) (k : Nat) (c : Cmd) : Ran :=
  let err (cls : Nat) (va : W64) : Ran := .fault s c { cls := cls, faddr := va, src := 5 }
  match s.halo k c with
  | .error (cls, va) => err cls va
  | .ok none => err Cls.illegalOp 0
  | .ok (some (b, fs, desc)) =>
    match (b :: fs.map fun f => f.halo).find? fun m => !s.layoutOk k m with
    | some m => .stale s c m
    | none =>
      if !s.patOk k b then err Cls.illegalOp 0
      else
      -- an extracting block map gives its fields, in the low bits of the halo's elements (log 95)
      let read := fs.mapM fun f =>
        let (x0, x1, x2, x3) := faceExt b f.port f.width
        (List.range (x0 * x1 * x2 * x3)).mapM fun n => s.readElem k { b with fmt := b.fmt &&& ~~~0x8000#32 } (faceElem b f.port f.width n) (fpcRm c.fpc) false
      match read with
      | .error (cls, va) => err cls va
      | .ok elems =>
        let vals := elems.map fun l => l.map fun e => e.bits % 2 ^ b.bits
        let fl := elems.foldl (fun x l => l.foldl (fun x e => x ||| e.flags) x) 0
        match flagTrap c.fpc fl with
        | some cls => .fault s c { cls := cls, src := 5, flags := fl }
        | none =>
        let c := { c with flags := c.flags ||| fl }
        let (s, c) := (fs.zip vals).foldl (fun x f => sendFace k b (fun p => bytesAt desc (4 + p) 1) f.1 f.2 x) (s, { c with legs := 0, faces := fs.length })
        .ok s c

/-- The home refuses an element of a slab: the page is another function's (R249). -/
def State.putRefused (s : State) (d fid : Nat) (e : Option Nat × Option Nat × Nat) : Bool :=
  match e.1 with
  | none => false
  | some p => match s.resolve d p 1 with
    | some q => s.foreign fid q
    | none => false

/-- Bits of one element put at a plain address. -/
def State.putElem (s : State) (d : Nat) (bits code : Nat) (e : Option Nat × Option Nat × Nat) : State :=
  match e.1 with
  | none => s
  | some p =>
    match s.resolve d p (max 1 (bits / 8)) with
    | none => s
    | some q =>
      match e.2.1 with
      | none => s.writePlain q (leBytes (bits / 8) e.2.2) (BitVec.ofNat 4 code)
      | some h =>
        let old := (s.byte q).toNat
        s.writePlain q (leBytes 1 (if h = 0 then old / 16 * 16 + e.2.2 % 16 else old % 16 + 16 * (e.2.2 % 16))) (BitVec.ofNat 4 code)

/-- A slab arrives: its elements are written, its bytes counted in the barrier, its leg ends; on a lost neighbour nothing
more is written (R222). -/
def State.slabArrives (s : State) (id : Nat) (tile pos die bar job fid idx bits code : Nat)
    (es : List (Option Nat × Option Nat × Nat)) (flt : Option AFault) : State :=
  if die ∈ s.lost then s
  else
  let s := s.unpost id
  if !s.barOk die job bar then s.modCmd tile pos fun c => { c.endLeg (some (Cls.priv, w64 bar)) with failed := idx / 2 ^ 20 :: c.failed }
  else
    let ok := es.takeWhile fun e => !s.putRefused die fid e
    -- a slab names no virtual address: the fault of a refused element has none (log 49)
    let flt := if ok.length < es.length then some (Cls.extent, 0) else flt
    let es := ok
    let s := es.foldl (fun s e => s.putElem die bits code e) s
    let x := Tab.get {} (s.die die).bars bar
    let s := s.setBar die bar (min (x.count + es.length * bits / 8) (2 ^ 64 - 1))
    s.modCmd tile pos fun c =>
      { c.endLeg flt with failed := if flt.isSome then idx / 2 ^ 20 :: c.failed else c.failed
                          slabs := Tab.put c.slabs idx (Tab.get 0 c.slabs idx + es.length), effect := true, elem := c.elem + 1 }

/-! ## Layout slots (R217 to R220, R331) -/

/-- Elements of one block of a slot. -/
def LaySlot.blkCount (l : LaySlot) : Nat := l.blk.getD 0 0 * l.blk.getD 1 0 * l.blk.getD 2 0 * l.blk.getD 3 0
def LaySlot.g (l : LaySlot) (i : Nat) : Nat := l.ext.getD i 0
def LaySlot.b (l : LaySlot) (i : Nat) : Nat := l.blk.getD i 0
/-- Bytes of one owner's data. -/
def LaySlot.ownBytes (l : LaySlot) : Nat := (l.blkCount * fmtBits l.fmt + 7) / 8

/-- The die and the first block of an owner entry (R217). -/
def ownerDie (e : W64) : Nat := 8 * fld e 27 10 + fld e 24 3
def ownerBlock (e : W64) : Nat := fld e 0 24
/-- An owner entry read on a die of package p, by the key of the package that it names (R174). -/
def State.ownerKey (s : State) (p : Nat) (e : W64) : Option W64 :=
  (s.pkgNamed p (fld e 27 10)).map fun q => w64 (fld e 37 27 * 2 ^ 37 + q * 2 ^ 27 + fld e 0 27)

/-- The image of a slot, its owner entries not yet read. -/
def LaySlot.ofBytes (bs : List Byte) : LaySlot :=
  let n := bytesAt bs
  { kind := n 0 1, fmt := n 1 1, ver := BitVec.ofNat 16 (n 2 2), ext := (List.range 4).map fun i => n (4 + 4 * i) 4
    blk := (List.range 4).map fun i => n (0x14 + 4 * i) 4, nown := n 0x24 4, owner := w64 (n 0x28 8) }

/-- The image obeys R218, but for its owner entries. -/
def LaySlot.shapeOk (l : LaySlot) : Bool :=
  let nb (i : Nat) : Nat := l.g i / l.b i
  let divides (i : Nat) : Bool := l.g i % l.b i = 0
  l.kind ≤ 3 && l.fmt < 13 && (List.range 4).all (fun i => 0 < l.g i && 0 < l.b i) && l.owner.toNat % 8 = 0
  && l.blkCount * fmtBits l.fmt % 8 = 0
  && (match l.kind with
    | 1 => l.b 0 = l.g 0 && divides 1 && divides 2 && divides 3 && l.nown = nb 1 * nb 2 * nb 3
    | 2 => l.b 1 = l.g 1 && l.b 2 = l.g 2 && l.b 3 = l.g 3 && divides 0 && l.nown = nb 0
    | _ => l.blk = l.ext && 1 ≤ l.nown && l.nown ≤ 8192)

/-- Start of a LAYSET: the image and its owner entries are read and checked, and go to the job's home die (R331). -/
def startLayset (s : State) (k : Nat) (c : Cmd) : Ran :=
  let va := w64 (fld c.p0 0 48)
  let j := s.jobOf k
  let home := s.homeDie j
  let err (cls : Nat) (a : W64) : Ran := .fault s c { cls := cls, faddr := a, src := 5 }
  let go (l : LaySlot) : Ran :=
    if home ∈ (s.die (tileDie k)).unreachable then err Cls.targetLost (w64 (fld c.p0 48 3))
    else .ok (s.post (.layImage k c.pos home j (fld c.p0 48 3) va l)) { c with legs := 1 }
  match s.readVa k va 64 with
  | .error (cls, a) => err cls a
  | .ok bs =>
    let l := LaySlot.ofBytes bs
    if bytesAt bs 0x30 16 ≠ 0 then err Cls.illegalOp 0
    else if l.kind = 0 then go {}
    else if !l.shapeOk then err Cls.illegalOp 0
    else match (List.range l.nown).mapM fun i => s.readVa k (l.owner + w64 (8 * i)) 8 with
      | .error (cls, a) => err cls a
      | .ok es =>
        let own := es.map fun e => w64 (leNat e)
        let key (e : W64) : Option W64 := s.ownerKey (diePkg (tileDie k)) e
        if own.any fun e => fld e 37 27 ≠ 0 || !((key e).any fun e => ownerDie e ∈ (s.job j).dies) then err Cls.illegalOp 0
        else go { l with owners := own.filterMap key }

/-- Owner entries of the job that a die's layout area holds or has reserved (R220). -/
def State.layUsed (s : State) (d j : Nat) : Nat :=
  ((s.jobDie d j).slots.map fun (x : Nat × LaySlot) => x.2.nown).sum +
  (s.msgs.map fun (m : Nat × Msg) => match m.2 with
    | .layInstall _ _ die job _ img => if die = d ∧ job = j then img.nown else 0
    | _ => 0).sum

/-- The home reserves room on every die of the placement and distributes the image, or the LAYSET faults (R219, R220). -/
def State.distribute (s : State) (id tile pos job slot : Nat) (addr : W64) (img : LaySlot) : State :=
  let s := s.unpost id
  let dies := (s.job job).dies
  let full := dies.filter fun d => fld (s.jobDie d job).layArea 0 32 < s.layUsed d job + img.nown
  if img.kind ≠ 0 ∧ full ≠ [] then
    let s := full.foldl (fun s d => s.tell d Cls.extent job slot) s
    s.modCmd tile pos fun c => c.endLeg (some (Cls.extent, addr))
  else
    let live := dies.filter fun d => !(d ∈ s.lost)
    let s := live.foldl (fun s d => s.post (.layInstall tile pos d job slot img)) s
    s.modCmd tile pos fun c =>
      { c with legs := live.length, legFault := if live.length < dies.length then some (Cls.targetLost, w64 slot) else c.legFault }

/-- No older write of a slot of the job is on its way to a die (R219). -/
def State.oldestInstall (s : State) (id die job : Nat) : Bool :=
  !(s.msgs.any fun (m : Nat × Msg) => m.1 < id && match m.2 with
    | .layInstall _ _ d j _ _ => d = die && j = job
    | .commit j d _ => d = die && j = job
    | .passInstall _ _ d j _ => d = die && j = job
    | _ => false)
/-- No older image of the job is on its way to its home: images reach it in the order in which they were sent, those of
different dies too (DESIGN CHOICE, log 112). -/
def State.oldestImage (s : State) (id job : Nat) : Bool :=
  !(s.msgs.any fun (m : Nat × Msg) => m.1 < id && match m.2 with
    | .layImage _ _ _ j _ _ _ => j = job
    | .passImage _ _ _ j _ => j = job
    | _ => false)

/-- A die installs an image (R219). -/
def State.install (s : State) (id tile pos die job slot : Nat) (img : LaySlot) : State :=
  (((s.unpost id).modJobDie die job fun x => { x with slots := Tab.put x.slots slot img })).modCmd tile pos
    fun c => { c.endLeg none with effect := true }

/-! ## Pass tables (R224, R331) -/

/-- The passes of an image after its header. -/
def passOf (bs : List Byte) : Option Pass :=
  let m := bytesAt bs 0 2
  if 8192 ≤ m then none else some { xmask := m, off := bytesAt bs 2 4, slack := bytesAt bs 6 2 }

/-- OFF never decreases and no two entries share an XMASK. -/
def passesOk : List Pass → Bool
  | [] => true
  | p :: r => r.all (fun q => p.off ≤ q.off && p.xmask ≠ q.xmask) && passesOk r

/-- Start of a LAYSET.pass (R224, R331). -/
def startLaysetPass (s : State) (k : Nat) (c : Cmd) : Ran :=
  let va := w64 (fld c.p0 0 48)
  let j := s.jobOf k
  let home := s.homeDie j
  let size := (s.job j).dies.length
  let err (cls : Nat) (a : W64) : Ran := .fault s c { cls := cls, faddr := a, src := 5 }
  match s.readVa k va 16 with
  | .error (cls, a) => err cls a
  | .ok h =>
    let n := bytesAt h 0 2
    let logp := bytesAt h 2 1
    if n = 0 ∨ 1024 < n ∨ logp = 0 ∨ 13 < logp ∨ bytesAt h 3 13 ≠ 0 ∨ 2 ^ logp ≠ size then err Cls.illegalOp 0
    else match (List.range n).mapM fun i => s.readVa k (va + w64 (16 + 8 * i)) 8 with
      | .error (cls, a) => err cls a
      | .ok es =>
        match es.mapM passOf with
        | none => err Cls.illegalOp 0
        | some ps =>
          if !passesOk ps ∨ ps.any (fun p => p.xmask = 0 || size ≤ p.xmask) then err Cls.illegalOp 0
          else if home ∈ (s.die (tileDie k)).unreachable then err Cls.targetLost 0
          else .ok (s.post (.passImage k c.pos home j ps)) { c with legs := 1 }

/-- The home distributes a pass table (R219). -/
def State.distributePass (s : State) (id tile pos job : Nat) (ps : List Pass) : State :=
  let dies := (s.job job).dies
  let live := dies.filter fun d => !(d ∈ s.lost)
  let s := live.foldl (fun s d => s.post (.passInstall tile pos d job ps)) (s.unpost id)
  s.modCmd tile pos fun c =>
    { c with legs := live.length, legFault := if live.length < dies.length then some (Cls.targetLost, 0) else c.legFault }

/-- A die installs a pass table, at once or when its RESHARD ends (R219). -/
def State.installPass (s : State) (id tile pos die job : Nat) (ps : List Pass) : State :=
  let s := s.unpost id
  if (s.jobDie die job).reshard.isSome then s.modJobDie die job fun x => { x with passNext := x.passNext ++ [(ps, tile, pos)] }
  else (s.modJobDie die job fun x => { x with passes := some ps }).modCmd tile pos fun c => { c.endLeg none with effect := true }

/-- The RESHARD of a die has ended: the pass tables that wait for it are installed, in order. -/
def State.installWaiting (s : State) (die job : Nat) : State :=
  (s.jobDie die job).passNext.foldl (fun s p =>
    (s.modJobDie die job fun x => { x with passes := some p.1 }).modCmd p.2.1 p.2.2 fun c => { c.endLeg none with effect := true })
    (s.modJobDie die job fun x => { x with passNext := [] })

end Sys2Proof.Machine
end

