-- ==== Sys2Proof/Machine/Collect.lean ====
section
/-! DEFINITION. Collectives: their trees, their combination, the slots of a router, CRED and CBCAST (R228 to R233,
R295, R296, R299). -/

namespace Sys2Proof.Machine

/-! ## The tree (R228, R229) -/

/-- Offset of a coordinate in a ring. -/
def offsetIn (v v0 n : Nat) : Nat := (v + n - v0) % n

/-- A die's offsets in a box. -/
def State.boxOff (s : State) (b : CollBox) (d : Nat) : Nat × Nat × Nat :=
  let (x, y, z) := s.dieCoord d
  (offsetIn x b.x0 (s.ringX (diePkg d)), offsetIn y b.y0 (s.ringY (diePkg d)), offsetIn z b.z0 (s.ringZ (diePkg d)))

def State.inBox (s : State) (b : CollBox) (d : Nat) : Bool :=
  let (ox, oy, oz) := s.boxOff b d
  ox < b.sx && oy < b.sy && oz < b.sz

/-- Member index (R228). -/
def State.memberIndex (s : State) (b : CollBox) (d : Nat) : Nat :=
  let (ox, oy, oz) := s.boxOff b d
  ox + b.sx * (oy + b.sy * oz)

/-- Does offset o of a dimension travel the − way (R229)? -/
def minusWay (size ring o : Nat) : Bool := size < ring || o ≤ ring / 2
def hopsOf (size ring o : Nat) : Nat := if minusWay size ring o then o else ring - o

/-- The port on which a die sends its partial; none at the root. -/
def State.outPort (s : State) (b : CollBox) (d : Nat) : Option Nat :=
  let (ox, oy, oz) := s.boxOff b d
  if ox ≠ 0 then some (if minusWay b.sx (s.ringX (diePkg d)) ox then 1 else 0)
  else if oy ≠ 0 then some (if minusWay b.sy (s.ringY (diePkg d)) oy then 3 else 2)
  else if oz ≠ 0 then some (if minusWay b.sz (s.ringZ (diePkg d)) oz then 5 else 4)
  else none

/-- Hop count to the root. -/
def State.hops (s : State) (b : CollBox) (d : Nat) : Nat :=
  let (ox, oy, oz) := s.boxOff b d
  hopsOf b.sx (s.ringX (diePkg d)) ox + hopsOf b.sy (s.ringY (diePkg d)) oy + hopsOf b.sz (s.ringZ (diePkg d)) oz

/-- The ports of a die on which members' partials arrive, and the die at each (R229). -/
def State.childPorts (s : State) (b : CollBox) (d : Nat) : List (Nat × Nat) :=
  (List.range 6).filterMap fun p =>
    match s.neighbour d p with
    | some n => if s.inBox b n && s.outPort b n = some (Nat.xor p 1) then some (p, n) else none
    | none => none

/-! ## Partials (R229 to R231) -/

/-- Elements of `w` bytes. -/
def elems (w : Nat) (bs : List Byte) : List Nat :=
  (List.range (bs.length / w)).map fun i => bytesAt bs (w * i) w

/-- The width of an element of an operation (R230). -/
def opWidth (op : Nat) : Nat := if op = 0 ∨ op = 5 then 8 else 4

/-- The contribution of a member (R299). -/
def contribution (op len deadline idx : Nat) (bs : List Byte) : Partial :=
  let es := elems 4 bs
  let isF := 1 ≤ op && op ≤ 4
  let nan := isF && es.any fun e => (unpack .f32 e).isNan
  let v := if op = 4 then es.flatMap fun e => leBytes 4 (if (unpack .f32 e).isNan then Fmt.f32.nan else e % 2 ^ 31) else bs
  { value := v, count := 1, present := [idx], nanSeen := nan, nanMem := if nan then idx else 0
    flags := if op = 4 && es.any (fun e => (unpack .f32 e).sNan) then Flg.invalid else 0
    op := op, len := len, deadline := deadline }

/-- One combination of two elements: its bits and flags (R230). -/
def combine1 (op a b : Nat) : Nat × Nat :=
  match op with
  | 0 => ((a + b) % 2 ^ 64, 0)
  | 1 => let r := fpAdd .f32 .rne (unpack .f32 a) 24 (unpack .f32 b) 24; (r.bits, r.flags)
  | 2 => let r := fpMinMax .f32 true a 24 b 24; (r.bits, r.flags)
  | 3 => let r := fpMinMax .f32 false a 24 b 24; (r.bits, r.flags)
  | 4 => (if (unpack .f32 a).isNan || (unpack .f32 b).isNan then Fmt.f32.nan else max a b, 0)
  | _ => (if sextN a 64 < sextN b 64 then b else a, 0)

/-- One fold step (R231). Partials that differ in OP or LEN are a mismatch (R232). -/
def Partial.fold (p q : Partial) : Partial :=
  let w := opWidth p.op
  let bad := p.mismatch || q.mismatch || p.op ≠ q.op || p.len ≠ q.len
  let rs := List.zipWith (combine1 p.op) (elems w p.value) (elems w q.value)
  { value := if bad then p.value else rs.flatMap fun r => leBytes w r.1
    count := p.count + q.count, present := p.present ++ q.present
    nanSeen := p.nanSeen || q.nanSeen
    nanMem := if p.nanSeen then (if q.nanSeen then min p.nanMem q.nanMem else p.nanMem) else q.nanMem
    flags := if bad then p.flags ||| q.flags else rs.foldl (fun f r => f ||| r.2) (p.flags ||| q.flags)
    op := p.op, len := p.len, deadline := p.deadline, mismatch := bad }

/-- The inputs of a slot, folded local first, then by port (R231). -/
def CollSlot.folded (c : CollSlot) : Option Partial :=
  match c.inputs.map fun (x : Nat × Partial) => x.2 with
  | [] => none
  | p :: r => some (r.foldl Partial.fold p)

/-! ## Slots (R233) -/

def collKey (job cid : Nat) : Nat := job * 65536 + cid % 65536
def State.coll (s : State) (d key : Nat) : Option CollSlot := Tab.find? (s.die d).colls key
def State.setColl (s : State) (d key : Nat) (c : CollSlot) : State := s.modDie d fun x => { x with colls := Tab.put x.colls key c }
/-- The slot goes back to FREE. -/
def State.freeColl (s : State) (d key deadline : Nat) : State :=
  s.modDie d fun x => { x with colls := Tab.erase x.colls key, collsGone := (key, deadline) :: x.collsGone.filter fun g => s.ptc d ≤ g.2 + 50000 }
/-- A slot for the key is there, or one is FREE. -/
def State.collRoom (s : State) (d key : Nat) : Bool := (s.coll d key).isSome || (s.die d).colls.length < 64
/-- EXP is complete (R229). -/
def State.expComplete (s : State) (d : Nat) (c : CollSlot) : Bool :=
  (Tab.find? c.inputs 0).isSome && (s.childPorts c.box d).all fun p => (Tab.find? c.inputs (p.1 + 1)).isSome

/-! ## Records and delivery (R232, R296) -/

def statusRecord (status : Nat) (p : Option Partial) (mapv : Bool) (miss : Nat) : List Byte :=
  match p with
  | none => leBytes 16 status
  | some p =>
    leBytes 8 (status + (if p.nanSeen then 16 else 0) + (if mapv then 32 else 0) + p.flags % 64 * 256 + p.nanMem % 8192 * 65536
      + p.count % 16384 * 2 ^ 32) ++ leBytes 8 miss

/-- Record, payload and flags that a result gives the local command. -/
def delivery (b : CollBox) (l : CollLocal) (p : Partial) : List Byte × Nat :=
  let size := b.sx * b.sy * b.sz
  if p.mismatch ∨ p.op ≠ l.op ∨ p.len ≠ l.len then (statusRecord 5 none false 0, 0)
  else if p.bcast then (leBytes 16 (2 ^ 32) ++ p.value, 0)
  else
    let mapv := size ≤ 64
    let miss := if mapv then (((List.range size).filter fun i => !(i ∈ p.present)).map fun i => 2 ^ i).sum else (size - p.count) % 16384
    (statusRecord (if p.count = size then 0 else 1) (some p) mapv miss ++ p.value, p.flags)

/-- Bytes written at the start of a command's buffer. -/
def State.writeBuf (s : State) (d : Nat) (buf : Option Nat) (bs : List Byte) : State :=
  match buf with
  | none => s
  | some p => match s.resolve d p bs.length with
    | some q => s.writeAtomic q bs
    | none => s

/-- The local command ends with a record, and its flags; the slot is freed. -/
def State.endLocal (s : State) (d key deadline : Nat) (l : CollLocal) (bs : List Byte) (flags : Nat) : State :=
  ((s.writeBuf d l.buf bs).freeColl d key deadline).modCmd l.tile l.pos fun c => { c with legs := 0, effect := true, flags := c.flags ||| flags }

/-- A result is sent on to the children of a die (R229). -/
def State.sendDown (s : State) (d job cid : Nat) (b : CollBox) (p : Partial) : State :=
  (s.childPorts b d).foldl (fun s x => s.post (.result job cid d x.2 b p)) s

/-- A slot has its result: DONE, delivered to the local command if there is one. -/
def State.collDone (s : State) (d job cid : Nat) (c : CollSlot) (p : Partial) : State :=
  let s := s.sendDown d job cid c.box p
  match c.loc with
  | some l => let (bs, fl) := delivery c.box l p; s.endLocal d (collKey job cid) c.deadline l bs fl
  | none => s.setColl d (collKey job cid) { c with state := .done, result := some p }

/-! ## Start of CRED and CBCAST (R295, R296, R299) -/

/-- A descriptor. -/
structure CollDesc where
  cid : Nat
  op : Nat
  len : Nat
  box : CollBox
  deadline : Nat
  zero : Bool
  deriving DecidableEq, Repr

def CollDesc.ofBytes (bs : List Byte) : CollDesc :=
  let n := bytesAt bs
  { cid := n 0 2, op := n 2 1, len := n 3 1
    box := { x0 := n 4 1, y0 := n 5 1, z0 := n 6 1, sx := n 8 1, sy := n 9 1, sz := n 0xA 1 }
    deadline := n 0x10 8, zero := n 7 1 = 0 && n 0xB 5 = 0 && n 0x18 8 = 0 }

/-- The descriptor passes the checks of R295 but for time and room. -/
def State.descOk (s : State) (k : Nat) (x : CollDesc) (bcast : Bool) : Bool :=
  let b := x.box
  let p := diePkg (tileDie k)
  x.zero && 1 ≤ x.len && x.len ≤ 32 && x.op < 7 && b.x0 < (s.ringX p) && b.y0 < (s.ringY p) && b.z0 < (s.ringZ p)
  && 1 ≤ b.sx && b.sx ≤ (s.ringX p) && 1 ≤ b.sy && b.sy ≤ (s.ringY p) && 1 ≤ b.sz && b.sz ≤ (s.ringZ p)
  && ((List.range b.sx).all fun i => (List.range b.sy).all fun j => (List.range b.sz).all fun l =>
      match s.dieAt p ((b.x0 + i) % (s.ringX p)) ((b.y0 + j) % (s.ringY p)) ((b.z0 + l) % (s.ringZ p)) with
      | some d => d ∈ (s.job (s.jobOf k)).dies
      | none => false)
  && s.inBox b (tileDie k) && (x.op = 6) = bcast

/-- Start of a collective command. A status completes it at once; else a leg waits for the result. -/
def startCollective (s : State) (k : Nat) (c : Cmd) : Ran :=
  let d := tileDie k
  let j := s.jobOf k
  let bcast : Bool := c.kind == CmdKind.cbcast
  let err (cls : Nat) (va : W64) : Ran := .fault s c { cls := cls, faddr := va, src := 5 }
  let buf := w64 (fld c.p1 0 48)
  match s.readVa k (w64 (fld c.p0 0 48)) 32 with
  | .error (cls, va) => err cls va
  | .ok ds =>
    let x := CollDesc.ofBytes ds
    let n := 16 + 8 * min (max x.len 1) 32
    match s.check k buf n .w, s.readVa k buf n with
    | .error (cls, va), _ => err cls va
    | _, .error (cls, va) => err cls va
    | .ok a, .ok bs =>
      let plain := if a.fallow then none else some a.plain
      let l : CollLocal := { tile := k, pos := c.pos, buf := plain, op := x.op, len := x.len }
      let key := collKey j x.cid
      let status (st : Nat) : Ran := .ok (s.writeBuf d plain (statusRecord st none false 0)) { c with legs := 0, effect := true }
      let held := match s.coll d key with
        | some y => y.loc.isSome || (Tab.find? y.inputs 0).isSome
        | none => false
      if !s.descOk k x bcast then err Cls.illegalOp 0
      else if x.deadline < s.ptc d then status 3
      else if held || !s.collRoom d key then status 2
      else
        let pay := bs.drop 16
        if bcast && s.outPort x.box d = none then
          let p : Partial := { value := pay, count := 1, present := [], op := 6, len := x.len, deadline := x.deadline, bcast := true }
          .ok ((s.sendDown d j x.cid x.box p).writeBuf d plain (leBytes 16 (2 ^ 32))) { c with legs := 0, effect := true }
        else
          let y : CollSlot := (s.coll d key).getD { box := x.box, deadline := x.deadline }
          match y.state, y.result with
          | .done, some p =>
            let (r, fl) := delivery y.box l p
            .ok ((s.writeBuf d plain r).freeColl d key y.deadline) { c with legs := 0, effect := true, flags := c.flags ||| fl }
          | .gather, _ =>
            let y := if bcast then y else
              { y with inputs := Tab.put y.inputs 0 (contribution x.op x.len x.deadline (s.memberIndex x.box d) pay) }
            .ok (s.setColl d key { y with loc := some l }) { c with legs := 1 }
          | _, _ => .ok (s.setColl d key { y with loc := some l }) { c with legs := 1 }

/-- A command whose read of its buffer is a release at .part, and which waits for the unit's earlier stores and posted requests
before it starts: CRED, and CBCAST at the root (R228, R296). -/
def State.releaseWaits (s : State) (k : Nat) (c : Cmd) : Bool :=
  let releases : Bool := match c.kind with
    | .cred => true
    | .cbcast => match s.readVa k (w64 (fld c.p0 0 48)) 32 with
      | .ok ds => s.outPort (CollDesc.ofBytes ds).box (tileDie k) = none
      | .error _ => false
    | _ => false
  releases && !(s.tile k).releasedTo c.pos

/-! ## The router's events (R229, R233) -/

/-- A partial arrives. -/
def State.partArrives (s : State) (id job cid die port : Nat) (b : CollBox) (p : Partial) : State :=
  let s := s.unpost id
  let key := collKey job cid
  if p.deadline < s.ptc die ∨ die ∈ s.lost then s
  else
    let c := (s.coll die key).getD { box := b, deadline := p.deadline }
    if !s.collRoom die key ∨ c.state ≠ .gather ∨ (Tab.find? c.inputs (port + 1)).isSome
        ∨ ((s.coll die key).isNone ∧ (key, p.deadline) ∈ (s.die die).collsGone) then s
    else s.setColl die key { c with inputs := Tab.put c.inputs (port + 1) p }

/-- A die that is not the root forwards its partial. -/
def State.forwardColl (s : State) (die job cid : Nat) : State :=
  let key := collKey job cid
  match s.coll die key with
  | none => s
  | some c => match s.outPort c.box die, c.folded with
    | some o, some p =>
      if c.state ≠ .gather ∨ p.bcast ∨ !(s.expComplete die c || c.deadline ≤ s.ptc die + 100 * s.hops c.box die) then s
      else
        let s := s.setColl die key { c with state := .sent }
        match s.neighbour die o with
        | some n => s.post (.part job cid die n (Nat.xor o 1) c.box p)
        | none => s
    | _, _ => s

/-- The root finishes. -/
def State.rootFinish (s : State) (die job cid : Nat) : State :=
  match s.coll die (collKey job cid) with
  | none => s
  | some c => match s.outPort c.box die, c.folded with
    | none, some p =>
      if c.state ≠ .gather ∨ !(s.expComplete die c || c.deadline ≤ s.ptc die) then s else s.collDone die job cid c p
    | _, _ => s

/-- A member's CBCAST whose DEADLINE has passed is INCOMPLETE (R296). -/
def State.bcastDeadline (s : State) (die job cid : Nat) : State :=
  let key := collKey job cid
  match s.coll die key with
  | none => s
  | some c => match c.loc with
    | some l => if l.op = 6 ∧ c.deadline < s.ptc die then s.endLocal die key c.deadline l (statusRecord 1 none false 0) 0 else s
    | none => s

/-- DEADLINE + 50,000 ns: the slot is freed, and a local command that still waits ends LOST; a CBCAST has been INCOMPLETE, and a root
that still gathers DONE, since DEADLINE (R233, R296). -/
def State.collTimeout (s : State) (die job cid : Nat) : State :=
  let key := collKey job cid
  match s.coll die key with
  | none => s
  | some c =>
    if s.ptc die < c.deadline + 50000 then s
    else if c.loc.any fun l => l.op = 6 then s.bcastDeadline die job cid
    else if c.state = .gather ∧ s.outPort c.box die = none ∧ c.folded.isSome then s.rootFinish die job cid
    else match c.loc with
      | some l => s.endLocal die key c.deadline l (statusRecord 4 none false 0) 0
      | none => s.freeColl die key c.deadline

/-- A result, or a payload of CBCAST, arrives. One that comes too late for the local command goes on to the children, and the
command ends as at its time: LOST at DEADLINE + 50,000 ns, a CBCAST INCOMPLETE after DEADLINE (R233). -/
def State.resultArrives (s : State) (id job cid die : Nat) (b : CollBox) (p : Partial) : State :=
  let s := s.unpost id
  let key := collKey job cid
  if die ∈ s.lost then s
  else match s.coll die key with
    | some c =>
      if c.state = .done then s
      else if c.deadline + 50000 ≤ s.ptc die then (s.sendDown die job cid c.box p).collTimeout die job cid
      else if p.bcast ∧ c.deadline < s.ptc die then (s.sendDown die job cid c.box p).bcastDeadline die job cid
      else s.collDone die job cid c p
    | none =>
      if (key, p.deadline) ∈ (s.die die).collsGone ∨ p.deadline < s.ptc die ∨ !s.collRoom die key then s.sendDown die job cid b p
      else s.collDone die job cid { box := b, deadline := p.deadline } p

end Sys2Proof.Machine
end

