-- ==== Sys2Proof/Machine/Reshard.lean ====
section
/-! DEFINITION. RESHARD (R224 to R227, R352): its checks, its passes, its aborts and its commit. -/

namespace Sys2Proof.Machine

/-! ## Elements and owners (R217, R218, R225) -/

/-- Elements of the whole tensor. -/
def LaySlot.count (l : LaySlot) : Nat := l.g 0 * l.g 1 * l.g 2 * l.g 3
/-- Coordinate i of element n, elements counted in c, x, y, t order. -/
def LaySlot.coord (l : LaySlot) (n i : Nat) : Nat :=
  match i with
  | 0 => n % l.g 0
  | 1 => n / l.g 0 % l.g 1
  | 2 => n / (l.g 0 * l.g 1) % l.g 2
  | _ => n / (l.g 0 * l.g 1 * l.g 2)
/-- The owner entry that holds element n; entry 0 of a replicated slot. -/
def LaySlot.ownerOf (l : LaySlot) (n : Nat) : Nat :=
  let b (i : Nat) : Nat := l.coord n i / l.b i
  match l.kind with
  | 1 => b 1 + l.g 1 / l.b 1 * (b 2 + l.g 2 / l.b 2 * b 3)
  | 2 => b 0
  | _ => 0
/-- The element's place in its owner's data. -/
def LaySlot.inOwner (l : LaySlot) (n : Nat) : Nat :=
  let r (i : Nat) : Nat := l.coord n i % l.b i
  r 0 + l.b 0 * (r 1 + l.b 1 * (r 2 + l.b 2 * r 3))
/-- The owner entries that a target holds element n in: every one of a replicated slot. -/
def LaySlot.targets (l : LaySlot) (n : Nat) : List Nat := if l.kind = 3 then List.range l.nown else [l.ownerOf n]

/-- The die of an owner entry, and the plain address and half byte of an element in its data. -/
def LaySlot.dieOf (l : LaySlot) (j : Nat) : Nat := ownerDie (l.owners.getD j 0)
def LaySlot.addr (l : LaySlot) (j n : Nat) : Nat × Option Nat :=
  let e := l.owners.getD j 0
  let bits := fmtBits l.fmt
  let o := l.inOwner n * bits
  (mkPlain (ownerDie e) 2 (ownerBlock e * 65536 + o / 8), if bits = 4 then some (o / 4 % 2) else none)

/-- Bits of an element at a plain address. -/
def State.getElem (s : State) (d bits : Nat) (e : Nat × Option Nat) : Nat :=
  match s.resolve d e.1 (max 1 (bits / 8)) with
  | none => 0
  | some q =>
    match e.2 with
    | none => leNat (s.bytes q (bits / 8))
    | some h => (s.byte q).toNat / 16 ^ h % 16

/-- Every element whose source owner is on die a and whose target owner is on die b is moved (R226). -/
def State.moveElems (s : State) (ls lt : LaySlot) (a b : Nat) : State :=
  let bits := fmtBits ls.fmt
  (List.range ls.count).foldl (fun s n =>
    let o := ls.ownerOf n
    if ls.dieOf o ≠ a then s
    else
      let v := s.getElem a bits (ls.addr o n)
      ((lt.targets n).filter fun j => lt.dieOf j = b).foldl (fun s j =>
        let p := lt.addr j n
        s.putElem b bits 0 (some p.1, p.2, v)) s) s

/-- Dies that die d must exchange data with (R225). -/
def exchanges (ls lt : LaySlot) (d : Nat) : List Nat :=
  (List.range ls.count).flatMap fun n =>
    let a := ls.dieOf (ls.ownerOf n)
    ((lt.targets n).map lt.dieOf).filterMap fun b =>
      if a = d ∧ b ≠ d then some b else if b = d ∧ a ≠ d then some a else none

/-- The run of block numbers of an owner entry. -/
def LaySlot.run (l : LaySlot) (e : W64) : Nat × Nat := (ownerBlock e, ownerBlock e + (l.ownBytes + 65535) / 65536)

/-- A source owner's run and a target owner's run on one die share a block. -/
def runsOverlap (ls lt : LaySlot) : Bool :=
  ls.owners.any fun x => lt.owners.any fun y =>
    ownerDie x = ownerDie y && (ls.run x).1 < (lt.run y).2 && (lt.run y).1 < (ls.run x).2

/-- A block of die d's own runs that its resolver does not map, or whose page another function owns (R225, R249). -/
def State.runUnmapped (s : State) (d fid : Nat) (l : LaySlot) (es : List W64) : Bool :=
  es.any fun e => ownerDie e = d &&
    (List.range ((l.run e).2 - (l.run e).1)).any fun i => match Tab.find? (s.die d).resolver (ownerBlock e + i) with
      | none => true
      | some b => s.foreign fid b.target || s.foreign fid (b.target + 65535)

/-- Some block of die d's own runs of a RESHARD's slots cannot be reached. -/
def State.runsBad (s : State) (d job sl tl : Nat) : Bool :=
  let x := s.jobDie d job
  let bad (i : Nat) : Bool := let l := Tab.get {} x.slots i; s.runUnmapped d (s.job job).fid l l.owners
  bad sl || bad tl

/-! ## Aborts (R227) -/

def reshardAddr (k rank : Nat) : W64 := w64 (k % 65536 + rank * 65536)

/-- A block of a die lies in the run of a source owner. -/
def LaySlot.holdsBlock (l : LaySlot) (die b : Nat) : Bool :=
  l.owners.any fun e => ownerDie e = die && (l.run e).1 ≤ b && b < (l.run e).2

/-- The target data of a die after an abort holds no promised value, and the source data is unchanged (R227): the bytes of
the die's own target runs are free values, but for blocks of a source run (log 45). -/
def State.freeTarget (s : State) (die : Nat) (ls lt : LaySlot) : State :=
  (lt.owners.filter fun e => ownerDie e = die).foldl (fun s e =>
    (List.range ((lt.ownBytes + 65535) / 65536)).foldl (fun s i =>
      let n := if ls.holdsBlock die (ownerBlock e + i) then 0 else min 65536 (lt.ownBytes - 65536 * i)
      match s.resolve die (mkPlain die 2 ((ownerBlock e + i) * 65536)) n with
      | none => s
      | some q => ({ s with fresh := s.fresh + n } : State).writePlain q ((List.range n).map fun x => Config.freeByte (s.fresh + x))) s) s

/-- A RESHARD with T0 `t0` is aborted: the one of the job that runs on the die, whatever its T0, ends with the fault, and the
router keeps its T0. A further ABORT of the same T0 ends nothing more (R227, log 87). -/
def State.endReshard (s : State) (die job t0 cls : Nat) (faddr : W64) : State :=
  let x := s.jobDie die job
  match x.reshard with
  | none => s.modJobDie die job fun x => { x with lastT0 := some (t0, faddr), lastAbort := some t0 }
  | some r =>
    if r.t0 ≠ t0 ∧ x.lastAbort = some t0 then s
    else
      let s := s.freeTarget die (Tab.get {} x.slots r.s) (Tab.get {} x.slots r.t)
      let s := s.modJobDie die job fun x => { x with lastT0 := some (r.t0, faddr), lastAbort := some t0, reshard := none }
      (s.modCmd r.tile r.pos fun c => { c with legs := 0, legFault := some (cls, faddr) }).installWaiting die job

/-- ABORT to every other rank of the job. -/
def State.sendAborts (s : State) (die job t0 cls : Nat) (faddr : W64) : State :=
  ((s.job job).dies.filter fun d => d ≠ die && !(d ∈ s.lost)).foldl (fun s d => s.post (.abort job die d t0 cls faddr)) s

/-- A die aborts its running RESHARD in pass k. -/
def State.abortOwn (s : State) (die job : Nat) (r : Reshard) (cls : Nat) : State :=
  let faddr := reshardAddr r.pass r.rank
  (s.sendAborts die job r.t0 cls faddr).endReshard die job r.t0 cls faddr

/-! ## Start (R225) -/

/-- The first check that fails, if one does. -/
def State.reshardCheck (s : State) (k sl tl t0 : Nat) : Option Nat :=
  let d := tileDie k
  let j := s.jobOf k
  let x := s.jobDie d j
  let ls := Tab.get {} x.slots sl
  let lt := Tab.get {} x.slots tl
  let dies := (s.job j).dies
  let p := dies.length
  let rank := dies.idxOf d
  let ps := x.passes.getD []
  let p0 := ps.headD { xmask := 0, off := 0, slack := 0 }
  if dies.any fun e => e ∈ (s.die d).unreachable then some Cls.targetLost
  else if sl = tl ∨ ls.kind = 0 ∨ lt.kind = 0 ∨ ls.fmt ≠ lt.fmt ∨ ls.ext ≠ lt.ext ∨ 2 ^ Nat.log2 p ≠ p ∨ (2 ≤ p ∧ x.passes.isNone) then
    some Cls.illegalOp
  else if (exchanges ls lt d).any fun e => !(ps.any fun q => q.xmask = Nat.xor rank (dies.idxOf e)) then some Cls.illegalOp
  else if runsOverlap ls lt then some Cls.illegalOp
  else if x.reshard.isSome then some Cls.illegalOp
  else if s.runsBad d j sl tl then some Cls.extent
  else if 2 ≤ p ∧ t0 + p0.off + p0.slack < s.ptc d then some Cls.reshardLate
  else none

/-- Start of a RESHARD. A failed check aborts it on every rank, and a RESHARD of the job that runs on this die with it; a T0
already aborted is late at once (R227). -/
def startReshard (s : State) (k : Nat) (c : Cmd) : Ran :=
  let d := tileDie k
  let j := s.jobOf k
  let sl := fld c.p0 0 3
  let tl := fld c.p0 4 3
  let t0 := c.p1.toNat
  let rank := (s.job j).dies.idxOf d
  let err (s : State) (cls : Nat) (va : W64) : Ran := .fault s c { cls := cls, faddr := va, src := 5 }
  match (s.jobDie d j).lastT0 with
  | some (t, faddr) =>
    if t = t0 then
      let x := s.jobDie d j
      err (if sl = tl then s else s.freeTarget d (Tab.get {} x.slots sl) (Tab.get {} x.slots tl)) Cls.reshardLate faddr
    else go err d j sl tl t0 rank
  | none => go err d j sl tl t0 rank
where
  go (err : State → Nat → W64 → Ran) (d j sl tl t0 rank : Nat) : Ran :=
    match s.reshardCheck k sl tl t0 with
    | some cls =>
      let faddr := reshardAddr 0 rank
      let x := s.jobDie d j
      let s := if sl = tl then s else s.freeTarget d (Tab.get {} x.slots sl) (Tab.get {} x.slots tl)
      err (((s.sendAborts d j t0 cls faddr).endReshard d j t0 cls faddr).modJobDie d j fun x => { x with lastT0 := some (t0, faddr) }) cls faddr
    | none =>
      .ok (s.modJobDie d j fun x => { x with reshard := some { tile := k, pos := c.pos, s := sl, t := tl, t0 := t0, rank := rank } })
        { c with legs := 1 }

/-! ## Passes and commit (R226) -/

/-- The pass a RESHARD is in. -/
def State.curPass (s : State) (die job : Nat) (r : Reshard) : Option Pass := ((s.jobDie die job).passes.getD [])[r.pass]?
/-- The partner of a pass. -/
def State.partner (s : State) (job : Nat) (r : Reshard) (p : Pass) : Nat := (s.job job).dies.getD (Nat.xor r.rank p.xmask) 0

/-- The partner's READY of the pass, as received: none, matching, or with other parameters. -/
def Reshard.readyFrom (r : Reshard) (die : Nat) : Option Bool :=
  (r.readys.find? fun x => x.1 = die && x.2.1 = r.pass).map fun x => x.2.2.1 = r.s && x.2.2.2.1 = r.t && x.2.2.2.2 = r.t0

def State.setReshard (s : State) (die job : Nat) (r : Reshard) : State :=
  s.modJobDie die job fun x => { x with reshard := some r }

/-- The versions of both slots advance and the RESHARD completes (R226). -/
def State.commitReshard (s : State) (die job : Nat) (r : Reshard) : State :=
  let up (t : Tab LaySlot) (i : Nat) : Tab LaySlot := let l := Tab.get {} t i; Tab.put t i { l with ver := l.ver + 1 }
  let s := s.modJobDie die job fun x => { x with reshard := none, slots := up (up x.slots r.s) r.t }
  (s.modCmd r.tile r.pos fun c => { c with legs := 0 }).installWaiting die job

/-- The time of the pass after the current one, whose READYs have both come and which has not ended: at its T0 + OFF a READY with
other values is met, and at the end of its slack it is late, since the pass before it has not ended here (R226). -/
def State.aheadCheck (s : State) (die job : Nat) (r : Reshard) : State :=
  let q := { r with pass := r.pass + 1 }
  match s.curPass die job q with
  | none => s
  | some p =>
    if s.ptc die < r.t0 + p.off then s
    else if q.readyFrom (s.partner job q p) = some false then s.abortOwn die job q Cls.illegalOp
    else if r.t0 + p.off + p.slack ≤ s.ptc die then s.abortOwn die job q Cls.reshardLate
    else s

/-- Both READYs of the current pass have come, with the same values. -/
def State.passMet (s : State) (job : Nat) (r : Reshard) (p : Pass) : Bool := r.sent && r.readyFrom (s.partner job r p) = some true

/-- At T0 + OFF of its pass a die sends READY, or is too late. A partner's READY with other values that came before is met
now (R226). -/
def State.passTime (s : State) (die job : Nat) : State :=
  match (s.jobDie die job).reshard with
  | none => s
  | some r => match s.curPass die job r with
    | none => s
    | some p =>
      if (s.job job).dies.length < 2 then s
      else if s.passMet job r p then s.aheadCheck die job r
      else if r.sent ∨ s.ptc die < r.t0 + p.off then s
      else if r.t0 + p.off + p.slack < s.ptc die then s.abortOwn die job r Cls.reshardLate
      else
        let b := s.partner job r p
        let s := (s.setReshard die job { r with sent := true }).post (.ready job die b r.pass r.s r.t r.t0)
        if r.readyFrom b = some false then s.abortOwn die job { r with sent := true } Cls.illegalOp else s

/-- A pass whose READYs have not both come by its slack is late (R226). -/
def State.slackExpiry (s : State) (die job : Nat) : State :=
  match (s.jobDie die job).reshard with
  | none => s
  | some r => match s.curPass die job r with
    | none => s
    | some p =>
      if (s.job job).dies.length < 2 then s
      else if s.passMet job r p then s.aheadCheck die job r
      else if s.ptc die < r.t0 + p.off + p.slack ∨ (r.sent ∧ (r.readyFrom (s.partner job r p)).isSome) then s
      else s.abortOwn die job r Cls.reshardLate

/-- A READY arrives. One that comes before its RESHARD has started, or before the die's own time for the pass, waits at the
router (R226). -/
def State.readyArrives (s : State) (id job frm die pass sl tl t0 : Nat) : State :=
  let x := s.jobDie die job
  if (x.lastT0.map fun l => l.1) = some t0 then s.unpost id
  else match x.reshard with
    | none => s
    | some r => match s.curPass die job r with
      | none => s
      | some p =>
        let s := s.unpost id
        let r := { r with readys := r.readys ++ [(frm, pass, sl, tl, t0)] }
        if pass = r.pass ∧ frm = s.partner job r p then
          if !r.sent then s.setReshard die job r
          else if r.s ≠ sl ∨ r.t ≠ tl ∨ r.t0 ≠ t0 then s.abortOwn die job r Cls.illegalOp
          else if r.t0 + p.off + p.slack < s.ptc die then s.abortOwn die job r Cls.reshardLate
          else s.setReshard die job r
        else if s.passMet job r p then (s.setReshard die job r).aheadCheck die job r
        else s.setReshard die job r

/-- A pass ends: both directions are performed, once, and at pass 0 the die's own elements move; after the last pass the die reports to rank 0 (R226). -/
def State.passEnd (s : State) (die job : Nat) : State :=
  match (s.jobDie die job).reshard with
  | none => s
  | some r => match s.curPass die job r with
    | none => s
    | some p =>
      let b := s.partner job r p
      let next (s : State) : State :=
        let x := s.jobDie die job
        let s := if r.localDone then s else s.moveElems (Tab.get {} x.slots r.s) (Tab.get {} x.slots r.t) die die
        let r' : Reshard := { r with pass := r.pass + 1, sent := false, moved := false, localDone := true }
        let last := r'.pass = ((s.jobDie die job).passes.getD []).length
        let s := s.setReshard die job r'
        if last then s.post (.report job die (s.homeDie job) r.t0) else s
      if !r.sent then s
      -- a home refuses the blocks of a page that another function owns (R249)
      else if s.runsBad die job r.s r.t then s.abortOwn die job r Cls.extent
      else if r.moved then next s
      else match r.readyFrom b with
        | none => s
        | some false => s.abortOwn die job r Cls.illegalOp
        | some true =>
          match (s.jobDie b job).reshard with
          | none => s
          | some q =>
            if q.t0 = r.t0 ∧ q.pass = r.pass ∧ q.sent ∧ q.readyFrom die = some true ∧ s.linked die b ∧ !s.runsBad b job r.s r.t then
              let x := s.jobDie die job
              let ls := Tab.get {} x.slots r.s
              let lt := Tab.get {} x.slots r.t
              next (((s.moveElems ls lt die b).moveElems ls lt b die).setReshard b job { q with moved := true })
            else s

/-- Rank 0 takes a report; with every report in, it sends the commit (R226). -/
def State.reportArrives (s : State) (id job frm die t0 : Nat) : State :=
  let x := s.jobDie die job
  if (x.lastT0.map fun l => l.1) = some t0 then s.unpost id
  else match x.reshard with
    | none => s
    | some r =>
      if r.t0 ≠ t0 then s
      else
        let r := { r with reports := frm :: r.reports.filter (· ≠ frm) }
        let s := (s.unpost id).setReshard die job r
        if (s.job job).dies.all fun d => d ∈ r.reports then
          (s.job job).dies.foldl (fun s d => s.post (.commit job d t0)) s
        else s

/-- The commit reaches a die (R226). -/
def State.commitArrives (s : State) (id job die t0 : Nat) : State :=
  match (s.jobDie die job).reshard with
  | none => s.unpost id
  | some r => if r.t0 = t0 then (s.unpost id).commitReshard die job r else s.unpost id

/-- With one die, every element moves locally at T0 and the RESHARD commits at once (R225). -/
def State.localMove (s : State) (die job : Nat) : State :=
  match (s.jobDie die job).reshard with
  | none => s
  | some r =>
    if (s.job job).dies.length ≠ 1 ∨ s.ptc die < r.t0 then s
    else if s.runsBad die job r.s r.t then s.abortOwn die job r Cls.extent
    else
      let x := s.jobDie die job
      (s.moveElems (Tab.get {} x.slots r.s) (Tab.get {} x.slots r.t) die die).commitReshard die job r

end Sys2Proof.Machine
end

