-- ==== Sys2Proof/Machine/Command.lean ====
section
/-! DEFINITION. Engine commands from the head of their queue to their completion: gates, wakes, starts, chunks,
completions, late legs, and the bounds of waits (R61, R62, R67, R74, R76, R79, R145 to R148, R262). -/

namespace Sys2Proof.Machine

/-! ## Weight sets (R147, R148) -/

/-- The weight sets a command names. -/
def Cmd.sets (c : Cmd) : List Nat :=
  match c.kind with
  | .mldb => [setOf c.p0]
  | .mmul => if c.chunks = 2 then [0, 1] else [setOf c.p0]
  | _ => []
def Tile.cim (t : Tile) (i : Nat) : CimGate := if i = 0 then t.cim0 else t.cim1
def Tile.setCim (t : Tile) (i : Nat) (x : CimGate) : Tile := if i = 0 then { t with cim0 := x } else { t with cim1 := x }

/-- A started command uses the set. -/
def Tile.setBusy (t : Tile) (i : Nat) : Bool := t.started.any fun c => i ∈ c.sets

/-- A set idle past CIM_GATE.IDLE is gated (R147). -/
def State.gateIdle (s : State) (k i : Nat) : State :=
  let t := s.tile k
  let x := t.cim i
  let lim := fld (s.die (tileDie k)).cimGate 0 16
  if x.gated ∨ x.wakeEnd.isSome ∨ t.setBusy i ∨ lim = 0 ∨ s.dcc (tileDie k) ≤ x.idleSince + lim then s
  else s.setTile k (t.setCim i { x with gated := true })

/-- A wake ends (R148). -/
def State.wakeEnds (s : State) (k i : Nat) : State :=
  let t := s.tile k
  let x := t.cim i
  let dcc := s.dcc (tileDie k)
  match x.wakeEnd with
  | some e => if e ≤ dcc then s.setTile k (t.setCim i { gated := false, idleSince := dcc, wakeEnd := none }) else s
  | none => s

/-! ## After a step of an engine -/

/-- The journal commits, the heads of the queues have their times, and CHK is applied (R59, R74). -/
def State.afterStep (s : State) (k : Nat) : State :=
  let s := s.settle k
  (s.modTile k fun t => t.promote (s.dcc (tileDie k))).stallCount k

/-- The idle counters of a command's sets restart as it ends (R147). -/
def Tile.restSets (t : Tile) (dcc : Nat) (c : Cmd) : Tile := c.sets.foldl (fun t i => t.setCim i { t.cim i with idleSince := dcc }) t

/-- What a tile keeps of a command that has completed: its flags, its token, its number (R61, R66, R79, R254). -/
def Tile.finish (t : Tile) (dcc : Nat) (c : Cmd) : Tile :=
  let t := { t with started := t.started.filter fun x => x.pos ≠ c.pos }
  let t := match c.comp with
    | some n => t.signalToken dcc n 1
    | none => t
  let low := t.live.foldl (fun m x => min m x.pos) t.order
  let q := Queue.slotOf c.kind
  let t := ({ t with hist := t.hist.filter fun h => low ≤ h.1 } : Tile).setLs q ((t.ls q).trim c.seq)
  t.restSets dcc c

/-- A command of a tile completes. -/
def State.finishCmd (s : State) (k : Nat) (c : Cmd) : State :=
  (s.modTile k fun t => ({ t with fpc := t.fpc ||| BitVec.ofNat 64 c.flags } : Tile).finish (s.dcc (tileDie k)) c).afterStep k

/-- A command leaves the started ones. -/
def State.dropStarted (s : State) (k pos : Nat) : State :=
  s.modTile k fun t => { t with started := t.started.filter fun x => x.pos ≠ pos }

/-- A started command ends with a fault (R147, R252). -/
def State.endCmd (s : State) (k : Nat) (c : Cmd) (i : TrapInfo) : State :=
  ((s.dropStarted k c.pos).modTile k fun t => t.restSets (s.dcc (tileDie k)) c).cmdFault k c i

/-- The running table stops with a fault: its VRUN is cut, or, where no step has completed, discarded (R252). -/
def State.vsFault (s : State) (k : Nat) (i : TrapInfo) : State :=
  let t := s.tile k
  match t.vs with
  | none => s
  | some v =>
    let c := { v.cmd with effect := v.moved }
    let t := ({ t with vs := none } : Tile).dropTakers (s.dcc (tileDie k)) fun w => match w with
      | .vs _ => true
      | _ => false
    (s.setTile k t).cmdFault k c { i with src := if i.src = 0 then 1 else i.src } (some { v with cmd := c, wait := none, granted := false })

/-! ## Starting (R62, R146, R148) -/

/-- Start of an MDRAIN: its layout check. -/
def startDrain (s : State) (k : Nat) (c : Cmd) : Ran := if !s.layoutOk k c.m0 then .stale s c c.m0 else .ok s c

/-- An MBASE has started: the commands behind it, up to and with the next MBASE, count their stamps from now (R146). -/
def rebase (dcc : Nat) : List Cmd → List Cmd
  | [] => []
  | c :: r =>
    (if c.refMbase then { c with ref := dcc, refMbase := false } else c) :: (if c.kind == CmdKind.mbase then r else rebase dcc r)

/-- What a command does as it starts. -/
def startKind (s : State) (k : Nat) (c : Cmd) : Ran :=
  match c.kind with
  | .vrun => .ok (let v := s.startTable k c; s.modTile k fun t => { t with vs := some v, cutV := if c.unstamped then none else t.cutV }) c
  | .vbase => runVbase s k c
  | .vbaseL => .ok (s.modTile k fun t => { t with cutV := if c.unstamped then none else t.cutV }) c
  | .vhalt => runVhalt s k c
  | .vsend => runVsend s k c
  | .wdef => runWdef s k c
  | .mldb => startMldb s k c
  | .mmul => startMmul s k c
  | .mdrain | .mdrainS => startDrain s k c
  | .mclr | .mshr => .ok s c
  | .mbase => .ok (s.modTile k fun t => { t with mbaseAt := if t.refPos ≤ c.pos then some (s.dcc (tileDie k)) else t.mbaseAt, mq := rebase (s.dcc (tileDie k)) t.mq }) c
  | .tload | .tstore | .tgath | .tscat => startCopy s k c
  | .xpat => .ok (s.modTile k fun t => { t with pats := Tab.put t.pats (fld c.p0 48 3) c.pat }) c
  | .hexch => startHexch s k c
  | .layset => startLayset s k c
  | .laysetPass => startLaysetPass s k c
  | .reshard => startReshard s k c
  | .cred | .cbcast => startCollective s k c

/-- The oldest command of a queue leaves it for its engine. -/
def State.begin_ (s : State) (k : Nat) (q : Queue) (c : Cmd) (rest : List Cmd) : State :=
  let dcc := s.dcc (tileDie k)
  let t := (s.tile k).setQueue q rest
  let t := if c.unstamped then t else t.setLs q ((t.ls q).push c.seq)
  let c := { c with startedAt := dcc }
  match startKind (s.setTile k t) k c with
  | .ok s c =>
    if c.kind == CmdKind.vrun then s.afterStep k
    else if c.kind == CmdKind.mbase then s.finishCmd k c
    else (s.modTile k fun t => { t with started := t.started ++ [c] }).afterStep k
  | .wait s c => (s.modTile k fun t => { t with started := t.started ++ [c] }).afterStep k
  | .fault s c i => s.endCmd k c i

/-- The unit's commands may start: a cut is not being taken (R252). -/
def Tile.mayStart (t : Tile) : Bool :=
  match t.status with
  | .running | .draining => true
  | _ => false

/-- Lateness past S of a stamped command in a strict region (R74). -/
def Tile.missed (t : Tile) (dcc : Nat) (c : Cmd) : Bool := t.mode = 2 && c.stamped && t.slack < c.late_ 2 dcc

def State.raiseMiss (s : State) (k : Nat) (c : Cmd) : State :=
  s.raiseAt k { cls := Cls.schedMiss, src := 2, seq := c.seq.toNat, ctag := some c.atag } c.pos c.atag c.clause

/-- The gate of the oldest command: taken, or waited for in the token's order (R66, R67). The command as it is then. -/
def Tile.gateStep (t : Tile) (dcc : Nat) (q : Queue) (c : Cmd) (rest : List Cmd) : Tile × Cmd :=
  match c.gate with
  | none => (t, c)
  | some n =>
    if c.gateTaken ∨ c.gateSince.isSome then (t, c)
    else if t.canTake n 1 then
      let c := { c with gateTaken := true }
      ((t.take dcc n 1).setQueue q (c :: rest), c)
    else
      let c := { c with gateSince := some dcc }
      ((t.setQueue q (c :: rest)).addTaker n (.gate c.pos), c)

/-- The sets that the oldest command of a queue names are gated where they have been idle for long enough (R147). -/
def State.gateSets (s : State) (k : Nat) (q : Queue) : State :=
  match (s.tile k).getQ q with
  | c :: _ => c.sets.foldl (fun s i => s.gateIdle k i) s
  | [] => s

/-- The oldest command of a queue starts, takes its gate, begins a wake, or waits. -/
def State.startCommand (s : State) (k : Nat) (q : Queue) (n : Nat) : State :=
  let s := s.gateSets k q
  let t := s.tile k
  let dcc := s.dcc (tileDie k)
  match t.getQ q with
  | [] => s
  | c :: rest =>
    if !t.mayStart || c.seq.toNat ≠ n || t.unresolved c then s
    else if t.missed dcc c then s.raiseMiss k c
    else
      let (t, c) := t.gateStep dcc q c rest
      let s := s.setTile k t
      if c.gate.isSome && !c.gateTaken then s
      else
        let due := if c.stamped && t.mode ≠ 0 then c.ref + c.time else 0
        if c.sets.any fun i => (t.cim i).wakeEnd.isSome then s
        else if c.sets.any fun i => (t.cim i).gated then
          if dcc + Config.cimWake < due then s
          else s.setTile k (c.sets.foldl (fun t i =>
            if (t.cim i).gated then t.setCim i { t.cim i with wakeEnd := some (dcc + Config.cimWake) } else t) t)
        else if dcc < due then s
        else if c.kind == CmdKind.mmul && t.started.any (fun x => x.kind == CmdKind.mmul && dcc < t.occupiedTo x) then s
        else if c.kind == CmdKind.vrun && t.vs.isSome then s
        else if s.releaseWaits k c then s
        else s.begin_ k q c rest

/-- The first stamped command of MQ that is late beyond S raises SCHED_MISS (R74). -/
def State.missEvent (s : State) (k : Nat) : State :=
  let t := s.tile k
  if !t.mayStart then s
  else match t.mq.find? fun c => t.missed (s.dcc (tileDie k)) c with
    | some c => s.raiseMiss k c
    | none => s

/-! ## Running to completion -/

/-- What is left of a started command. -/
def runKind (s : State) (k : Nat) (c : Cmd) : Ran :=
  let t := s.tile k
  let dcc := s.dcc (tileDie k)
  let rows := rowsOf c.p0
  match c.kind with
  | .vbaseL => runVbaseL s k c
  | .vhalt => match t.vs with
    | some v => if v.halt ∧ v.cmd.pos < c.pos then .wait s c else .ok s c
    | none => .ok s c
  | .mldb => runMldb s k c
  | .mmul => if c.chunk < c.chunks ∨ dcc < t.occupiedTo c + 12 then .wait s c else .ok s c
  | .mdrain | .mdrainS => runElems drainOne k c.m0.count (c.m0.count + 1) s c
  | .mclr => if dcc < c.startedAt + 4 + rows then .wait s c else runMclr s k c
  | .mshr => if dcc < c.startedAt + 4 + rows then .wait s c else runMshr s k c
  | .tload | .tstore | .tgath | .tscat => if c.moved then .ok s { c with legs := 0 } else if s.behind k c then .wait s c else s.transfer k c
  -- the completion of LAYSET is a release at .part (R219)
  | .layset | .laysetPass => if t.releasedTo c.pos then finishLegs s c 5 else .wait s c
  | .hexch | .reshard | .cred | .cbcast => finishLegs s c 5
  | .vrun | .vbase | .vsend | .wdef | .mbase | .xpat => .ok s c

/-- A fault that a command's leg, or its end, reports late (R262, R300). -/
def Cmd.report (c : Cmd) (cls : Nat) (addr : W64) : Report :=
  { cls := cls, addr := addr, leg := true, src := if c.kind.legged then 5 else 3, ctag := some c.atag, seq := c.seq.toNat }

/-- It is held for the unit where that runs. -/
def State.hold (s : State) (k : Nat) (r : Report) : State := s.modTile k fun t => { t with reports := t.reports ++ [r] }

/-- It goes into the frame's trap record, and the handler runs on resumption; where the record is taken, it waits until the
handler has returned (R262). -/
def Saved.hold (v : Saved) (r : Report) (ptc : Nat) : Saved :=
  if v.trap.isSome || v.tile.inh then { v with late := v.late ++ [r] }
  else
    let t := v.tile
    let i : TrapInfo :=
      { cls := r.cls, src := r.src, faddr := r.addr, late := true, pos := t.order, cutPos := t.order, pc := t.pc, clause := t.clause
        next := [t.nextV, t.nextM, t.nextC], ptc := ptc, seq := r.seq, ctag := r.ctag }
    { v with trap := some i }

/-- The flags of a CRED that TEN enables raise FP_TRAP after its completion, always late (R300). -/
def credTrap (c : Cmd) : Option Nat := if c.kind == CmdKind.cred then flagTrap c.fpc c.flags else none

/-- The frame that holds a unit of tile k with a started command at a position (R79): job and frame number. -/
def State.frameOf (s : State) (k pos : Nat) : Option (Nat × Nat × Saved × Cmd) :=
  (s.die (tileDie k)).jobs.findSome? fun (j : Nat × JobDie) =>
    j.2.saved.findSome? fun (v : Nat × Saved) =>
      if v.2.key = k then (v.2.tile.started.find? fun c => c.pos = pos).map fun c => (j.1, v.1, v.2, c) else none

/-- A command of a saved unit completes: its flags and its token go to the frame (R79). -/
def State.finishSaved (s : State) (k job n : Nat) (v : Saved) (c : Cmd) : State :=
  let d := tileDie k
  let v := match credTrap c with
    | some cls => v.hold (c.report cls 0) (s.ptc d)
    | none => v
  s.setFrame d job n { v with tile := v.tile.finish (s.dcc d) c, lflags := v.lflags ||| c.flags }

/-- The VRUN of the running table completes once its last pass, or the step that VHALT met, has ended (R72, R378). -/
def State.finishVrun (s : State) (k : Nat) : State :=
  match (s.tile k).vs with
  | some v =>
    if v.done || (v.halt && !v.granted) then
      (s.modTile k fun t => { t with vs := none }).finishCmd k { v.cmd with flags := v.flags }
    else s
  | none => s

/-- The legs of a HEXCH have ended, and every face has failed: it completes all the same (R323). -/
def Cmd.allFailed (c : Cmd) : Bool :=
  c.kind == CmdKind.hexch && c.legs = 0 && 0 < c.faces && c.faces ≤ c.failed.eraseDups.length && c.legFault.isSome

/-- Such a HEXCH completes, and its fault is reported after its completion, as that of a CRED is (R300, R323; DEDUCED, log 108). -/
def State.endFailed (s : State) (k : Nat) (c : Cmd) : State :=
  match c.legFault with
  | some (cls, va) => (s.hold k (c.report cls va)).finishCmd k { c with legFault := none }
  | none => s

/-- A command of tile k completes, or is cut by the fault it meets. -/
def State.completeCommand (s : State) (k pos : Nat) : State :=
  let t := s.tile k
  if (t.vs.map fun v => v.cmd.pos) = some pos then s.finishVrun k
  else match t.started.find? fun c => c.pos = pos with
    | some c =>
      if c.allFailed then s.endFailed k c
      else if c.late ∧ c.legs = 0 ∧ c.legFault.isSome then s
      else match runKind s k c with
        | .wait s _ => s
        | .ok s c =>
          -- a copy with legs has performed its elements, and its answers are still to come
          if 0 < c.legs then s.modTile k (updCmd pos fun _ => { c with moved := true })
          else
          let s := match credTrap c with
            | some cls => s.hold k (c.report cls 0)
            | none => s
          s.finishCmd k c
        | .fault s c i =>
          if c.late then s.modTile k (updCmd pos fun _ => { c with legs := 0, legFault := some (i.cls, i.faddr) })
          else s.endCmd k c i
    | none => match s.frameOf k pos with
      | some (j, n, v, c) =>
        if (0 < c.legs ∧ !c.moved) ∨ c.legFault.isSome ∨ (!v.tile.releasedTo c.pos ∧ (c.kind = .layset ∨ c.kind = .laysetPass)) then s
        else s.finishSaved k j n v { c with legs := 0 }
      | none => s

/-- The fault of a leg reaches its unit after the cut point: raised late, or kept in its frame (R262). -/
def State.lateLeg (s : State) (k pos : Nat) (cls : Nat) (addr : W64) : State :=
  let due (c : Cmd) : Bool := c.late && c.legs = 0 && c.legFault = some (cls, addr)
  match (s.tile k).started.find? fun c => c.pos = pos with
  | some c =>
    if !due c then s
    else if c.allFailed then s.endFailed k c
    else ((s.dropStarted k pos).hold k (c.report cls addr)).afterStep k
  | none => match s.frameOf k pos with
    | some (j, n, v, c) =>
      if due c then
        s.setFrame (tileDie k) j n
          ({ v with tile := { v.tile with started := v.tile.started.filter fun x => x.pos ≠ pos } }.hold (c.report cls addr) (s.ptc (tileDie k)))
      else s
    | none => s

/-- The oldest started MMUL with a chunk left commits it, 12 cycles after the chunk's occupancy (R143, R145). -/
def State.commitChunkEvent (s : State) (k : Nat) : State :=
  let t := s.tile k
  match t.started.find? fun c => c.kind == CmdKind.mmul && c.chunk < c.chunks with
  | none => s
  | some c =>
    if s.dcc (tileDie k) < c.startedAt + (c.chunk - c.elem + 1) * t.chunkCycles c + 12 then s
    else match chunkMmul s k c with
      | .fault s c i => s.endCmd k c i
      | .ok s c => s.modTile k (updCmd c.pos fun _ => c)
      | .wait s _ => s

/-! ## Bounds (R76) -/

/-- LS of the queue that would have ended a wait on a token (R76). Where commands of several queues would signal the token,
the first in the order VQ, MQ, CQ, then the started, then the cut ones is named; where none would, the number is 0 (DESIGN
CHOICE, log 85). -/
def Tile.producerLs (t : Tile) (n : Nat) : BitVec 16 :=
  match t.owed.find? fun c => c.comp = some n with
  | some c => t.lsNum (Queue.slotOf c.kind)
  | none => 0

def Queue.objk : Queue → Nat
  | .vq => 5
  | .mq => 6
  | .cq => 7

/-- The trap that a wait past its bound raises (R76, R255, R425). A stall for lateness names the first queue, in the order VQ,
MQ, CQ, that has a late command (DESIGN CHOICE, log 85). -/
def Tile.boundTrap (t : Tile) (on : WaitOn) (addr : W64) (dcc : Nat) : TrapInfo :=
  let i : TrapInfo := { cls := Cls.waitBound }
  match on with
  | .token n _ => { i with objk := 1, obj := n, wseq := t.producerLs n }
  | .barrier b _ => { i with objk := 2, obj := b }
  | .seqn h _ => { i with objk := 3, faddr := h }
  | .seqRoom _ | .response _ => { i with objk := 3, faddr := addr }
  | .queue q => { i with objk := q.objk, wseq := t.lsNum q }
  | .slack => match t.queuedCmds.find? fun c => t.slack < c.late_ t.mode dcc with
    | some c => { i with objk := (Queue.slotOf c.kind).objk, wseq := t.lsNum (Queue.slotOf c.kind) }
    | none => i
  | .stream w => { i with objk := 4, obj := w }
  | _ => i

def Wait.passed (w : Wait) (dcc : Nat) : Bool :=
  match w.bound with
  | some b => w.since + b < dcc
  | none => false

/-- The address that the request of a waiting word names. -/
def State.waitAddr (s : State) (w : Wait) : W64 :=
  match w.on with
  | .seqRoom id | .response id => match Tab.find? s.reqs id with
    | some r => r.addr
    | none => 0
  | _ => 0

/-- The oldest command of each queue whose gate take has passed WAIT_CAP.GATE. -/
def Tile.gateLate (t : Tile) (dcc : Nat) (q : Queue) : Option Cmd :=
  match t.getQ q with
  | c :: _ => match c.gateSince with
    | some b => if !c.gateTaken && b + capGate t.waitCap < dcc then some c else none
    | none => none
  | [] => none

/-- A stall past its bound traps WAIT_BOUND: `who` is 0 for the CT, 1 for the VS, 2 to 4 for the gate of a queue. -/
def State.waitBound (s : State) (k who : Nat) : State :=
  let t := s.tile k
  let dcc := s.dcc (tileDie k)
  match who with
  | 0 => match t.wait with
    | some w =>
      -- the word gives up on a request that it waits for: its home goes on with what has begun
      if t.isRunning && w.passed dcc then
        ((s.unwait k).modTile k fun t => { t with wait := none }).raise k (t.boundTrap w.on (s.waitAddr w) dcc)
      else s
    | none => s
  | 1 => match t.vs with
    | some v => match v.wait with
      | some w => if w.passed dcc && !v.granted then s.vsFault k { t.boundTrap w.on 0 dcc with src := 1 } else s
      | none => s
    | none => s
  | n =>
    let q : Queue := if n = 2 then .vq else if n = 3 then .mq else .cq
    match t.gateLate dcc q with
    | some c =>
      let g := c.gate.getD 0
      if t.mayStart then
        s.raiseAt k { cls := Cls.waitBound, src := q.src, objk := 1, obj := g, wseq := t.producerLs g, seq := c.seq.toNat, ctag := some c.atag } c.pos c.atag c.clause
      else s
    | none => s

/-! ## Events -/

/-- COMMAND_START (R62). -/
def execCommandStart (tile queue n : Nat) (s : State) : Out :=
  .next (s.startCommand tile (if queue = 0 then .vq else if queue = 1 then .mq else .cq) n)
/-- COMMAND_COMPLETE (R61). -/
def execCommandComplete (tile pos : Nat) (s : State) : Out := .next (s.completeCommand tile pos)
/-- SCHED_MISS (R74). -/
def execSchedMiss (tile : Nat) (s : State) : Out := .next (s.missEvent tile)
/-- WAIT_BOUND (R76). -/
def execWaitBound (tile who : Nat) (s : State) : Out := .next (s.waitBound tile who)
/-- HANDLER_ENTRY (R257): the tile goes on with a cut that nothing holds. -/
def execHandlerEntry (tile : Nat) (s : State) : Out := .next (s.endCut tile)
/-- LATE_LEG_FAULT (R262). -/
def execLateLegFault (tile pos : Nat) (cls : BitVec 8) (faddr : W64) (s : State) : Out :=
  .next (s.lateLeg tile pos cls.toNat faddr)
/-- STREAM_FILL_ENTRY (R169, R170). -/
def execStreamFillEntry (tile rc : Nat) (s : State) : Out :=
  .next (if (s.tile tile).isIdle then s else s.fillStream tile rc)
/-- MMUL_CHUNK_COMMIT (R143). -/
def execMmulChunkCommit (tile : Nat) (s : State) : Out := .next (s.commitChunkEvent tile)
/-- CIM_GATE_IDLE (R147). -/
def execCimGateIdle (tile set : Nat) (s : State) : Out := .next (s.gateIdle tile set)
/-- CIM_WAKE_END (R148). -/
def execCimWakeEnd (tile set : Nat) (s : State) : Out := .next (s.wakeEnds tile set)
/-- RESHARD_PASS_TIME (R226). -/
def execReshardPassTime (die job : Nat) (s : State) : Out := .next (s.passTime die job)
/-- RESHARD_SLACK_EXPIRY (R227). -/
def execReshardSlackExpiry (die job : Nat) (s : State) : Out := .next (s.slackExpiry die job)
/-- RESHARD_PASS_END (R226). -/
def execReshardPassEnd (die job : Nat) (s : State) : Out := .next (s.passEnd die job)
/-- RESHARD_LOCAL_MOVE (R225). -/
def execReshardLocalMove (die job : Nat) (s : State) : Out := .next (s.localMove die job)
/-- RESHARD_READY (R226). -/
def execReshardReady (id : Nat) (s : State) : Out :=
  .next (match s.msgAt id with
    | some (.ready job frm die pass sl tl t0) => s.readyArrives id job frm die pass sl tl t0
    | _ => s)
/-- RESHARD_ABORT (R227). -/
def execReshardAbort (id : Nat) (s : State) : Out :=
  .next (match s.msgAt id with
    | some (.abort job _ die t0 cls faddr) => (s.unpost id).endReshard die job t0 cls faddr
    | _ => s)
/-- RESHARD_REPORT (R226). -/
def execReshardReport (id : Nat) (s : State) : Out :=
  .next (match s.msgAt id with
    | some (.report job frm die t0) => s.reportArrives id job frm die t0
    | _ => s)
/-- RESHARD_COMMIT (R226), in the home's order with the writes of the slots (R219). -/
def execReshardCommit (id : Nat) (s : State) : Out :=
  .next (match s.msgAt id with
    | some (.commit job die t0) => if s.oldestInstall id die job then s.commitArrives id job die t0 else s
    | _ => s)
/-- SLAB_ARRIVAL (R222). -/
def execSlabArrival (id : Nat) (s : State) : Out :=
  .next (match s.msgAt id with
    | some (.slab tile pos die bar job fid idx bits code es fail) => s.slabArrives id tile pos die bar job fid idx bits code es fail
    | _ => s)
/-- LAYSET_DISTRIBUTE (R219, R220). -/
def execLaysetDistribute (id : Nat) (s : State) : Out :=
  .next (match s.msgAt id with
    | some (.layImage tile pos _ job slot addr img) => if s.oldestImage id job then s.distribute id tile pos job slot addr img else s
    | some (.passImage tile pos _ job ps) => if s.oldestImage id job then s.distributePass id tile pos job ps else s
    | _ => s)
/-- LAYSET_INSTALL (R219). -/
def execLaysetInstall (id : Nat) (s : State) : Out :=
  .next (match s.msgAt id with
    | some (.layInstall tile pos die job slot img) => if s.oldestInstall id die job then s.install id tile pos die job slot img else s
    | some (.passInstall tile pos die job ps) => if s.oldestInstall id die job then s.installPass id tile pos die job ps else s
    | _ => s)
/-- COLLECTIVE_PARTIAL_ARRIVAL (R229, R233). -/
def execCollectivePartialArrival (id : Nat) (s : State) : Out :=
  .next (match s.msgAt id with
    | some (.part job cid _ die port b p) => s.partArrives id job cid die port b p
    | _ => s)
/-- COLLECTIVE_FORWARD (R229). -/
def execCollectiveForward (die job cid : Nat) (s : State) : Out := .next (s.forwardColl die job cid)
/-- COLLECTIVE_ROOT_FINISH (R229, R233). -/
def execCollectiveRootFinish (die job cid : Nat) (s : State) : Out := .next (s.rootFinish die job cid)
/-- COLLECTIVE_RESULT_ARRIVAL (R233, R296). -/
def execCollectiveResultArrival (id : Nat) (s : State) : Out :=
  .next (match s.msgAt id with
    | some (.result job cid _ die b p) => s.resultArrives id job cid die b p
    | _ => s)
/-- COLLECTIVE_SLOT_TIMEOUT (R233). -/
def execCollectiveSlotTimeout (die job cid : Nat) (s : State) : Out := .next (s.collTimeout die job cid)
/-- CBCAST_DEADLINE (R296). -/
def execCbcastDeadline (die job cid : Nat) (s : State) : Out := .next (s.bcastDeadline die job cid)

end Sys2Proof.Machine
end

