-- ==== Sys2Proof/Machine/Control.lean ====
section
/-! DEFINITION. Branches, guards and prefixes (R84, R87, R290 to R292, R324 to R326, R335). -/

namespace Sys2Proof.Machine

/-- Every word with op 0x00 traps ILLEGAL_OP and changes no state (R324, R95). -/
def execIll (_x : BitVec 25) (s : State) : Out := .next (s.illegal s.focus)

/-- A branch: to its target where taken, else to the next word. It changes only the PC (R290). -/
def State.branch (s : State) (taken : Bool) (target : W64) : Out :=
  if taken then .next (s.retireTo s.cur target) else .next (s.retire s.cur)

/-- Taken when the comparison of g[a] with g[b] holds (R291). -/
def execBr (c : BitVec 3) (a b : BitVec 6) (o : BitVec 10) (s : State) : Out :=
  s.branch (condHolds c (s.g a) (s.g b)) (s.cur.target o)

/-- Taken when q XOR neg is 1 (R290). -/
def execBq (n : BitVec 1) (q : BitVec 3) (o : BitVec 21) (s : State) : Out :=
  s.branch (s.cur.qReg q.toNat != (n = 1)) (s.cur.target o)

/-- g[d] := the address of the following word; the PC becomes the target (R325). -/
def execJal (d : BitVec 6) (i : BitVec 19) (s : State) : Out :=
  .next (s.retireTo (s.cur.writeG d.toNat (s.cur.pc + 4)) (s.cur.target i))

/-- As JAL, to g[a] + the immediate in bytes; a target that is no multiple of 4 faults ALIGN (R326). -/
def execJalr (d a : BitVec 6) (i : BitVec 13) (s : State) : Out :=
  let t := s.g a + s.cur.imm i
  if t.toNat % 4 ≠ 0 then .next (s.fault s.focus Cls.align t)
  else .next (s.retireTo (s.cur.writeG d.toNat (s.cur.pc + 4)) t)

/-- Counts g[a] down and branches while it is not zero (R335). -/
def execLoop (a : BitVec 6) (o : BitVec 10) (s : State) : Out :=
  let v := s.g a
  if v = 0 then .next (s.retire s.cur)
  else if v = 1 then .next (s.retire (s.cur.writeG a.toNat 0))
  else .next (s.retireTo (s.cur.writeG a.toNat (v - 1)) (s.cur.target o))

/-- Taken when the count of f[a] is below n (R292). -/
def execBsig (a n : BitVec 5) (o : BitVec 10) (s : State) : Out :=
  s.branch ((s.cur.fReg a.toNat).cnt.ult n) (s.cur.target o)

/-- Opens a clause of c + 1 words, which run where q XOR neg is 1 (R87, R89). Its last word is fetched first: a fetch
fault is the GRD's, and a prefix there is illegal (R88). -/
def execGrd (q : BitVec 3) (n : BitVec 1) (c : BitVec 3) (s : State) : Out :=
  let k := s.focus
  match s.fetchWord k (s.cur.pc + 4 * (w64 (c.toNat + 1))) with
  | .error (cls, va) => .next (s.fault k cls va)
  | .ok w =>
    if fld w 25 7 = 0x1F then .next (s.illegal k)
    else
      let pv := s.cur.qReg q.toNat != (n = 1)
      let t := s.cur.retire (s.dcc (tileDie k))
      .next (s.setTile k { t with clause := BitVec.ofNat 5 ((if pv then 16 else 0) + c.toNat + 1) })

/-- Holds the immediate for the next word, which is one instruction with it (R84, R85, R89). -/
def execPfx (i : BitVec 25) (s : State) : Out :=
  let t := s.cur
  .next (s.setTile s.focus { t with pfx := some i, pc := t.pc + 4, fetchClause := t.clause, clause := clauseStep t.clause })

end Sys2Proof.Machine
end

