-- ==== Sys2Proof/Machine/Float.lean ====
section
/-! DEFINITION. The scalar floating-point instructions (R314 to R321). -/

namespace Sys2Proof.Machine

/-- The f register of the tile in focus. -/
def State.f (s : State) (n : BitVec 5) : FReg := s.cur.fReg n.toNat
def FReg.fv (r : FReg) : FV := unpack .f32 r.val.toNat
def FReg.c (r : FReg) : Nat := r.cnt.toNat
/-- FPC.RM of the tile in focus. -/
def State.rm (s : State) : RM := fpcRm s.cur.fpc

/-- A copy of bits and a count into f[d]: no flag (R315). -/
def State.moveF (s : State) (d : Nat) (v : FReg) : Out := .next (s.retire (s.cur.writeF d v))

/-- f[d] := round(f[a] + f[b]) (R314). -/
def execFadd (d a b : BitVec 5) (s : State) : Out :=
  s.setF d.toNat (fpAdd .f32 s.rm (s.f a).fv (s.f a).c (s.f b).fv (s.f b).c)

/-- f[d] := round(f[a] − f[b]) (R314). -/
def execFsub (d a b : BitVec 5) (s : State) : Out :=
  s.setF d.toNat (fpAdd .f32 s.rm (s.f a).fv (s.f a).c (s.f b).fv.neg (s.f b).c)

/-- f[d] := round(f[a] × f[b]) (R314). -/
def execFmul (d a b : BitVec 5) (s : State) : Out :=
  s.setF d.toNat (fpMul .f32 s.rm (s.f a).fv (s.f a).c (s.f b).fv (s.f b).c)

/-- f[d] := round(f[a] / f[b]) (R314). -/
def execFdiv (d a b : BitVec 5) (s : State) : Out :=
  s.setF d.toNat (fpDiv .f32 s.rm (s.f a).fv (s.f a).c (s.f b).fv (s.f b).c)

/-- f[d] := round(√f[a]) (R314, R315). -/
def execFsqrt (d a : BitVec 5) (s : State) : Out :=
  s.setF d.toNat (fpSqrt .f32 s.rm (s.f a).fv (s.f a).c)

/-- maximumNumber (R129, R314). -/
def execFmax (d a b : BitVec 5) (s : State) : Out :=
  s.setF d.toNat (fpMinMax .f32 true (s.f a).val.toNat (s.f a).c (s.f b).val.toNat (s.f b).c)

/-- minimumNumber (R129, R314). -/
def execFmin (d a b : BitVec 5) (s : State) : Out :=
  s.setF d.toNat (fpMinMax .f32 false (s.f a).val.toNat (s.f a).c (s.f b).val.toNat (s.f b).c)

/-- a's magnitude with a sign, and a's count. -/
def signed (a : FReg) (sign : Bool) : FReg :=
  { a with val := (a.val &&& 0x7FFFFFFF#32) ||| (if sign then 0x80000000#32 else 0) }

/-- a's magnitude, b's sign (R314). -/
def execFsgn (d a b : BitVec 5) (s : State) : Out :=
  s.moveF d.toNat (signed (s.f a) (bit (s.f b).val 31))

/-- a's magnitude, the complement of b's sign (R314). -/
def execFsgnN (d a b : BitVec 5) (s : State) : Out :=
  s.moveF d.toNat (signed (s.f a) (!bit (s.f b).val 31))

/-- a's magnitude, the exclusive OR of the signs (R314). -/
def execFsgnX (d a b : BitVec 5) (s : State) : Out :=
  s.moveF d.toNat (signed (s.f a) (bit (s.f a).val 31 != bit (s.f b).val 31))

/-- f[d] := f[a], bits and count (R314). -/
def execFmov (d a : BitVec 5) (s : State) : Out :=
  s.moveF d.toNat (s.f a)

/-- The one-hot class, with bit 10 for EXACT (R316). -/
def execFclass (d : BitVec 6) (a : BitVec 5) (s : State) : Out :=
  s.setG d.toNat (w64 (fpClass .f32 (s.f a).val.toNat + (if (s.f a).c = exact then 2 ^ 10 else 0)))

/-- f[d] := round(f[a] × f[b] + f[c]) (R319). -/
def execFfma (d a b c : BitVec 5) (s : State) : Out :=
  s.setF d.toNat (fpFma .f32 s.rm (s.f a).fv (s.f a).c (s.f b).fv (s.f b).c (s.f c).fv (s.f c).c)

/-- q := the comparison of f[a] with f[b] (R317). -/
def execFcmp (c q : BitVec 3) (a b : BitVec 5) (s : State) : Out :=
  let r := fpCmp c.toNat (s.f a).fv (s.f b).fv
  s.setQFlags q.toNat r.1 r.2

/-- The rounding mode of an FCVT or VCVT field: 000 selects FPC.RM (R94). -/
def cvtRm (r : Nat) (fpc : RM) : RM := if r = 0 then fpc else rmOf (r - 1)

/-- A narrowed result held exactly as f32 (R128, R318). -/
def narrowHeld (f : Fmt) (rm : RM) (v cnt : Nat) : FRes :=
  let r := narrow f rm v cnt
  { r with bits := widen f r.bits }

/-- f16 or bf16 bits widened exactly, with the precision of the format as count (R318). A signalling NaN raises
invalid (DEDUCED from R125, log 22). -/
def widenHeld (f : Fmt) (v : Nat) : FRes :=
  let x := unpack f v
  { bits := widen f v, cnt := if x.finite then f.p else 0, flags := if x.sNan then Flg.invalid else 0, sig := x.finite }

/-- The conversions, by kind (R318, R128). -/
def execFcvt (d a : BitVec 6) (k : BitVec 4) (r : BitVec 3) (s : State) : Out :=
  let rm := cvtRm r.toNat s.rm
  let x := s.cur.fReg a.toNat
  let toInt (lo hi : Int) (w : Nat) (signedHi : Bool) : Out :=
    let (z, fl) := fpToInt rm x.fv lo hi
    let n := wrapN z w
    s.setGFlags d.toNat (w64 (if signedHi then wrapN z 64 else n)) fl
  match k.toNat with
  | 0 => s.setF d.toNat (fpFromInt .f32 rm (s.g a).toInt)
  | 1 => s.setF d.toNat (fpFromInt .f32 rm ((s.g a).toNat : Int))
  | 2 => toInt (-(2 ^ 63)) (2 ^ 63 - 1) 64 true
  | 3 => toInt 0 (2 ^ 64 - 1) 64 false
  | 4 => toInt (-(2 ^ 31)) (2 ^ 31 - 1) 32 true
  | 5 => toInt 0 (2 ^ 32 - 1) 32 false
  | 6 => s.setF d.toNat (narrowHeld .f16 rm x.val.toNat x.c)
  | 7 => s.setF d.toNat (narrowHeld .bf16 rm x.val.toNat x.c)
  | 8 => s.setF d.toNat (widenHeld .f16 (fld (s.g a) 0 16))
  | 9 => s.setF d.toNat (widenHeld .bf16 (fld (s.g a) 0 16))
  | 10 => s.setGFlags d.toNat (w64 (narrow .f16 rm x.val.toNat x.c).bits) (narrow .f16 rm x.val.toNat x.c).flags
  | 11 => s.setGFlags d.toNat (w64 (narrow .bf16 rm x.val.toNat x.c).bits) (narrow .bf16 rm x.val.toNat x.c).flags
  | _ => .next (s.illegal s.focus)

/-- g[d] := the count of f[a] (R321). -/
def execFsigRead (d : BitVec 6) (a : BitVec 5) (s : State) : Out :=
  s.setG d.toNat (w64 (s.f a).c)

/-- The count of f[d] := g[a][4:0] (R321, R131). -/
def execFsigSet (d : BitVec 5) (a : BitVec 6) (s : State) : Out :=
  s.moveF d.toNat { s.f d with cnt := storeCount (s.f d).val (fld (s.g a) 0 5) }

/-- The count of f[d] := the immediate; a prefix may widen it to a value of at most 31 only (R321). -/
def execFsigImm (d : BitVec 5) (i : BitVec 5) (s : State) : Out :=
  match s.cur.pfx with
  | some 0 | none => s.moveF d.toNat { s.f d with cnt := storeCount (s.f d).val i.toNat }
  | some _ => .next (s.illegal s.focus)

end Sys2Proof.Machine
end

