-- ==== Sys2Proof/Machine/Revoke.lean ====
section
/-! DEFINITION. Changes to page-table leaves by the root monitor, TLBI, and the revocation of extents (R238 to R242). -/

namespace Sys2Proof.Machine

/-- On a die of package q, the plain address of the level 0 entry for a virtual address, where the tables above it hold one (R238). -/
def leafSlot (s : State) (q va : Nat) : Nat → Nat → Option Nat
  | 0, _ => none
  | lv + 1, table =>
    let (lo, n) := match lv with
      | 0 => (16, 5)
      | l + 1 => (21 + 9 * l, 9)
    let at_ := table + 8 * nfld va lo n
    if lv = 0 then some at_
    else
      let e := readLe s at_ 8
      if nfld e 0 1 = 0 ∨ nfld e 55 9 ≠ 0 ∨ nfld e 4 1 = 1 then none else leafSlot s q va lv (s.plainIn q (nfld e 8 47 * 256))

/-- TLBI of kind 0 on a die: the page leaves the cache (R239). -/
def State.tlbPage (s : State) (d asid va : Nat) : State :=
  s.modDie d fun x => { x with cache := x.cache.filter fun c => !(c.asid = asid && c.page = va / 65536) }

/-- The root monitor writes the 64 KiB leaf of a page on one die: the level 0 entry, or, where the tables hold none, a
leaf it splits off (log 15). -/
def State.writeLeaf (s : State) (d asid va entry : Nat) : State :=
  let a := Tab.get { root := 0, fid := 0, job := 0, tagBase := 0, live := false } (s.die d).asids asid
  let s := match (if a.live then leafSlot s (diePkg d) va 4 (s.plainIn (diePkg d) a.root) else none) with
    | some p => s.putBytes p (leBytes 8 entry)
    | none => s.modDie d fun x =>
        { x with split := { asid := asid, page := va / 65536, plain := nfld entry 16 39 * 65536, bits := if nfld entry 55 9 ≠ 0 ∨ nfld entry 8 8 ≠ 0 then 0 else entry % 256 }
                            :: x.split.filter fun c => !(c.asid = asid && c.page = va / 65536) }
  s.tlbPage d asid va

/-- The leaf entry of a page as the walk finds it on a die: its word, 0 where it is unmapped. -/
def State.leafWord (s : State) (d asid va : Nat) : Nat :=
  match s.walk d asid va with
  | .page vb p _ b => s.plainName (p + (va / 65536 * 65536 - vb)) / 256 * 256 + b
  | .unmapped => 0

/-- A request of a unit of the job, made from tile k at an address in the range, has yet to be performed at its home or
answered: the unit may have left the tile since (R240). -/
def State.reqOpen (s : State) (k j va len : Nat) : Bool :=
  s.reqs.any fun p =>
    let r := p.2
    r.tile = k && r.job = j && r.op.handle?.isNone && !r.lost && r.addr.toNat < va + len && va < r.addr.toNat + 8
    && (r.answer.isNone || !(r.dead || r.expired))

/-- A command of a unit of the job, issued on tile k, has elements on their way to memory: slabs, or a collective's record. The unit
may have left the tile since; the pages that they are for are not told apart (R240). -/
def State.legsOpen (s : State) (k j : Nat) : Bool :=
  (s.msgs.any fun m => match m.2 with
    | .slab t _ _ _ job _ _ _ _ _ _ => t = k && job = j
    | _ => false)
  || (s.die (tileDie k)).colls.any fun c => c.1 / 65536 = j && c.2.loc.any fun l => l.tile = k && l.buf.isSome

/-- Tiles of the job's placement that hold an extent over the range, or have an access to it under way, but `skip` (R240). -/
def State.holders (s : State) (j va len : Nat) (skip : Option Nat) : List Nat :=
  ((s.job j).dies.flatMap dieTiles).filter fun k =>
    let t := s.tile k
    some k ≠ skip && ((!t.isIdle && s.jobOf k = j && t.exts.any fun e => e.vbase < va + len && va < e.vbase + e.len) || s.reqOpen k j va len || s.legsOpen k j)

/-- A revocation of a virtual range begins: one message to each tile that holds an extent over it (R240). -/
def State.revoke (s : State) (j va len : Nat) : State :=
  let hs := s.holders j va len none
  { s with nextId := s.nextId + 1, revs := Tab.put s.revs s.nextId { job := j, vbase := va, len := len, waiting := hs, unsent := hs } }

/-- The ranges that the field firmware has pinned for a job: virtual base and length (R256, R269). -/
def State.pinned (s : State) (j : Nat) : List (Nat × Nat) :=
  (s.job j).dies.flatMap fun d =>
    let x := s.jobDie d j
    let vec := fld x.trapVec 2 46 * 4
    let n := fld x.dmap 48 8
    let lo := fld x.dmap 12 36 * 4096
    (if vec = 0 then [] else [(vec / 65536 * 65536, 65536)]) ++ [(fld x.trapArea 12 36 * 4096 / 65536 * 65536, 65536)]
    ++ if n < 6 ∨ 20 < n then [] else
      [(lo / 65536 * 65536, (lo + 64 * (1 + 2 ^ n) + 65535) / 65536 * 65536 - lo / 65536 * 65536)]
def State.pinnedPage (s : State) (j va : Nat) : Bool := (s.pinned j).any fun r => r.1 ≤ va && va < r.1 + r.2

/-- The root monitor makes the pages of a DISCARD that are not MIGRATING fallow, and revokes them (R242, R305). -/
def State.discardPages (s : State) (id : Nat) (r : Revocation) : State :=
  let a := (s.job r.job).asid
  let home := s.homeDie r.job
  let (later, now) := r.todo.partition fun va => Walk.bitAt (s.leafWord home a va) 7
  let s := now.foldl (fun s va =>
    let e := s.leafWord home a va
    (s.job r.job).dies.foldl (fun s d => s.writeLeaf d a va (if Walk.bitAt e 5 then e else e + 32)) s) s
  let hs := (s.holders r.job r.vbase r.len r.discard).filter fun k => !(k ∈ r.waiting)
  { s with revs := Tab.put s.revs id { r with todo := later, waiting := r.waiting ++ hs, unsent := r.unsent ++ hs } }

/-- A DISCARD of tile k begins (R305): its pages, and its number. -/
def State.discard (s : State) (k j va len : Nat) : State × Nat :=
  let r : Revocation :=
    { job := j, vbase := va, len := len, waiting := [], unsent := [], discard := some k
      todo := (List.range (len / 65536)).map fun i => va + 65536 * i }
  (({ s with nextId := s.nextId + 1 } : State).discardPages s.nextId r, s.nextId)

/-- A change of one 64 KiB leaf, on every die of the placement, and its revocation (R240). -/
def State.changeLeaf (s : State) (j va entry : Nat) : State :=
  let asid := (s.job j).asid
  let s := (s.job j).dies.foldl (fun s d => s.writeLeaf d asid va entry) s
  s.revoke j (va / 65536 * 65536) 65536

/-- The footprint entries of a tile's extents that meet a range are translated again (R305). -/
def State.renewExtents (s : State) (k va len : Nat) : State :=
  let t := s.tile k
  let bad := (t.exts.filter fun e => e.vbase < va + len && va < e.vbase + e.len).map fun e => e.foot
  let keep := t.exts.filter fun e => !(e.foot ∈ bad)
  match footList s (tileDie k) t.asid t.entry.cr.foot.toNat (fun i => i ∈ bad) (fld t.entry.cr.nfoot 0 6) 0 keep with
  | .ok es => s.setTile k { t with exts := es }
  | _ => s.setTile k { t with exts := t.exts.map fun e => if e.foot ∈ bad then { e with revoked := true } else e }

/-- The plain bytes that a tile's extents give a virtual range. -/
def Tile.plainIn (t : Tile) (va len p : Nat) : Bool :=
  t.exts.any fun e => e.plain ≤ p && p < e.plain + e.len && va ≤ e.vbase + (p - e.plain) && e.vbase + (p - e.plain) < va + len

/-- Stores that the tile's own commands have under way into a discarded range are dropped (R242, R305): elements of its
slabs, and the buffers of its collectives. -/
def State.dropStores (s : State) (k va len : Nat) : State :=
  let gone (p : Nat) : Bool := (s.tile k).plainIn va len p
  let keep (p : Option Nat) : Option Nat := p.filter fun q => !gone q
  { s with
    msgs := s.msgs.map fun (m : Nat × Msg) => (m.1, match m.2 with
      | .slab t pos die bar job fid idx bits code elems fail =>
        if t = k then .slab t pos die bar job fid idx bits code (elems.map fun e => (keep e.1, e.2)) fail else m.2
      | x => x)
    dies := s.dies.map fun (d : Nat × Die) => (d.1, { d.2 with colls := d.2.colls.map fun (c : Nat × CollSlot) =>
      (c.1, { c.2 with loc := c.2.loc.map fun l => if l.tile = k then { l with buf := keep l.buf } else l }) }) }

/-- Every acknowledgement has arrived: the change is complete, and a DISCARD that waits for it ends (R240, R305). -/
def State.endRevocation (s : State) (id : Nat) (r : Revocation) : State :=
  let s := { s with revs := Tab.erase s.revs id }
  match r.discard with
  | some k =>
    match (s.tile k).wait with
    | some w => if w.on = .discard id then ((s.dropStores k r.vbase r.len).renewExtents k r.vbase r.len).finishWord k (fun t => t) else s
    | none => s
  | none => s

end Sys2Proof.Machine
end

