-- ==== Sys2Proof/Machine/Units.lean ====
section
/-! DEFINITION. Units, launches and queues from outside the control thread: dispatch and aging (R34 to R45), launches
(R38, R50, R51), forced saves and resumption (R56, R57, R263), cancels that run out (R30), parked waits and signals
(R48), closing and cancelling a job (R25, R30), and the writes of the firmware and the host (R42, R51, R248, R272). -/

namespace Sys2Proof.Machine

/-! ## Dispatch (R34, R39, R40, R44) -/

def Rec.isCanc (r : Rec) : Bool := bit r.flags 5

def State.setQueueAt (s : State) (d p : Nat) (l : List Entry) : State :=
  s.modDie d fun x => { x with queues := Tab.set [] x.queues p l }
def State.queueAt (s : State) (d p : Nat) : List Entry := Tab.get [] (s.die d).queues p

/-- Is a record due to be raised (R40)? -/
def State.agedNow (s : State) (d : Nat) (r : Rec) : Bool :=
  let lim := fld (s.die d).ageLimit 0 31
  !bit r.flags 4 && lim ≠ 0 && lim < (BitVec.ofNat 32 (s.ptc d) - r.enqt).toNat

/-- A record raised: PRIO rises by 16 and AGED is set (R40). -/
def Entry.raised (e : Entry) : Entry :=
  { e with cr := { e.cr with prio := min (e.cr.prio + 16) 255, flags := e.cr.flags ||| 0x10 } }

/-- Aging is evaluated over one level, oldest record first (R40). -/
def State.ageLevel (s : State) (d p : Nat) : State :=
  (s.queueAt d p).foldl (fun s e =>
    if s.agedNow d e.cr then
      let s := s.setQueueAt d p ((s.queueAt d p).erase e)
      let r := e.raised
      s.setQueueAt d r.cr.prio (s.queueAt d r.cr.prio ++ [r])
    else s) s

/-- The record that a pop takes, and its tile: the oldest dispatchable one of the highest level that holds one (R39). A
cancelled record counts as dispatchable: the pop that selects it discards it (R30). -/
def State.popChoice (s : State) (d : Nat) : Option (Nat × Entry × Nat) :=
  ((s.die d).queues.reverse).findSome? fun (q : Nat × List Entry) =>
    q.2.findSome? fun e => if e.cr.isCanc && !s.discardable d e then none else (s.idleFor e.cr d).map fun k => (q.1, e, k)

/-- The state of a tile at a dispatch, before the unit's own registers: everything is zero (R34) but what outlives a
unit. -/
def Tile.blank (t : Tile) (e : Entry) (asid : Nat) (exts pins : List Extent) : Tile :=
  { status := .running, entry := e, asid := asid, exts := exts, pins := pins, pc := e.cr.code, refPending := true
    order := t.order, atag := t.atag, grantCtr := t.grantCtr, grantAge := t.grantAge, cim0 := t.cim0, cim1 := t.cim1
    swz := t.swz, bfmt0 := 0, bfmt1 := 0 }

/-- First dispatch, or resumption after a YIELD (R34, R55). -/
def Tile.firstRegs (t : Tile) (e : Entry) : Tile :=
  if bit e.cr.flags 2 then (e.ext.zipIdx).foldl (fun t x => t.putG (x.2 + 1) x.1) t
  else ((t.putG 1 e.cr.state).putG 2 (w64 e.index)).putG 3 e.cr.frame

/-- The two pinned extents of a tile of the job (R256). -/
def State.pinsOf (s : State) (d j asid : Nat) : List Extent :=
  let x := s.jobDie d j
  let one (va len : Nat) (r w x : Bool) : List Extent :=
    match s.walk d asid va with
    | .page vb p _ _ => [{ vbase := va, plain := p + (va - vb), len := len, r := r, w := w, x := x, tagged := false, fallow := false }]
    | .unmapped => []
  let vec := fld x.trapVec 2 46 * 4
  (if vec = 0 then [] else one (vec / 65536 * 65536) 65536 false false true) ++ one (fld x.trapArea 12 36 * 4096) 4096 true true false

/-- A stream record refills from its next element (R263). -/
def Stream.restart (w : Stream) : Stream := { w with queue := [], next := w.popped, stopped := false }

/-- The tile of a resumed full save: every saved item, with what the tile itself keeps (R56, R146, R148, R263). -/
def Saved.resume (v : Saved) (t : Tile) (e : Entry) (asid : Nat) (exts pins : List Extent) (dcc : Nat) : Tile :=
  let u := v.tile
  { u with status := .running, entry := e, asid := asid, exts := exts, pins := pins
           cancelAt := none, preemptAt := none, saveAsked := false
           order := max u.order t.order, atag := t.atag, grantCtr := t.grantCtr, grantAge := max u.grantAge t.grantAge
           cim0 := { idleSince := dcc }, cim1 := { idleSince := dcc }
           lsV := u.lsV.resume, lsM := u.lsM.resume, lsC := u.lsC.resume, handlerLs := u.handlerLs.map Started.resume
           fpc := u.fpc ||| BitVec.ofNat 64 v.lflags, refPending := true, mbaseAt := none, refPos := max u.order t.order
           badB := [], fbuf := [], streams := u.streams.map fun (w : Nat × Stream) => (w.1, w.2.restart)
           reports := u.reports ++ v.late }

/-- The scratchpad slice of tile k takes saved contents. -/
def State.putSlice (s : State) (k : Nat) (sl : Tab Byte) : State :=
  let base := sliceBase k
  let m := s.mem.filter fun c => !(base ≤ c.1 && c.1 < base + 2 ^ 22)
  { s with mem := sl.foldl (fun m c => Tab.set 0 m (base + c.1) c.2) m }

/-- A unit that cannot start as its footprint stands starts in its handler with EXTENT (R44). -/
def State.startFault (s : State) (k va : Nat) : State :=
  let t := s.tile k
  let i : TrapInfo :=
    { cls := Cls.extent, src := 6, faddr := w64 va, pc := t.pc, clause := t.clause, cutPos := t.order
      next := [t.nextV, t.nextM, t.nextC], ptc := s.ptc (tileDie k) }
  if t.inh then s.takeCut k .double t.order t.pc t.clause
  else (s.handlerEntry k i).endUnit k

/-- A unit that resumes from its frame goes on, enters its handler with the fault that its save met, or is killed where
it already is in its handler (R57, R261, R263). -/
def State.resumeFrame (s : State) (k : Nat) (v : Saved) (bad : Option Nat) : State :=
  let t := s.tile k
  let dcc := s.dcc (tileDie k)
  match v.trap, bad with
  | some i, _ =>
    if t.inh then s.takeCut k .double t.order t.pc t.clause
    else
      let s := if i.late then s.sectorDamage k i else s
      -- the record was placed in the frame before the resumption, with LS as it stood then
      let s := (s.modTile k fun t => { t with lsV := v.tile.lsV, lsM := v.tile.lsM, lsC := v.tile.lsC }).handlerEntry k i
      -- no command has started since the resumption, in the handler or after its return (R412)
      let l := [v.tile.lsV, v.tile.lsM, v.tile.lsC].map Started.resume
      (s.modTile k fun u => { u with lsV := t.lsV, lsM := t.lsM, lsC := t.lsC, handlerLs := l }).endUnit k
  | none, some va => s.startFault k va
  | none, none =>
    if t.inh then (match v.record, s.check k (s.recordVa k) 128 .w with
      | some bs, .ok a => s.writeAcc k a bs
      | _, _ => s)
    else s.setTile k ((t.reenterV.reenterM dcc false).reenterC dcc false)

/-- A record starts on a tile that is reserved for it (R34, R44, R56). `bad` is the first byte that its footprint could
not be given; such a unit starts in its handler and holds no extent of its footprint (DESIGN CHOICE, log 73). -/
def State.startUnit (s : State) (k : Nat) (e : Entry) (exts : List Extent) (bad : Option Nat) : State :=
  let e := { e with reported := [] }
  let d := tileDie k
  let j := e.cr.job
  let asid := (s.job j).asid
  let pins := s.pinsOf d j asid
  let t := s.tile k
  match e.frame.bind fun n => Tab.find? (s.jobDie d j).saved n with
  | some v =>
    let e' := { e with frame := none, cr := { e.cr with flags := e.cr.flags &&& 0xF7 } }
    let s := s.modJobDie d j fun x => { x with saved := Tab.erase x.saved (e.frame.getD 0) }
    ((s.putSlice k v.slice).setTile k (v.resume t e' asid exts pins (s.dcc d))).resumeFrame k v bad
  | none =>
    let s := s.setTile k ((t.blank e asid exts pins).firstRegs e)
    match bad with
    | some va => s.startFault k va
    | none => s

/-- One pop of a die's scheduler. -/
def State.dispatchOne (s : State) (d : Nat) : State :=
  match s.popChoice d with
  | none => s
  | some (p0, _, _) =>
    let s := s.ageLevel d p0
    -- the records that aging has raised, and the tile that the choice takes, are weighed once the pop has ended (R54)
    (match s.popChoice d with
    | none => s
    | some (p, e, k) =>
      let s := s.setQueueAt d p ((s.queueAt d p).erase e)
      if e.cr.isCanc then s.discardRecord d e
      else match s.translate d (s.job e.cr.job).asid e.cr with
        | .migrating _ => s.setAside d e none
        | .unmapped va => if va ∈ e.reported then s.startUnit k e [] (some va) else s.setAside d e (some va)
        | .ok es => s.startUnit k e es none
        | .fault va => s.startUnit k e [] (some va)).preemptAll d

/-- Every record queued on the die is visited: cancelled ones are discarded, aged ones raised (R30, R40). -/
def State.sweep (s : State) (d : Nat) : State :=
  let gone := (s.die d).queues.flatMap fun (q : Nat × List Entry) => q.2.filter fun e => e.cr.isCanc && s.discardable d e
  let s := s.modDie d fun x =>
    { x with queues := (x.queues.map fun (q : Nat × List Entry) => (q.1, q.2.filter fun e => !(e.cr.isCanc && s.discardable d e))).filter fun q => !q.2.isEmpty }
  let s := gone.foldl (fun s e => s.discardRecord d e) s
  ((Tab.keys (s.die d).queues).reverse.foldl (fun s p => s.ageLevel d p) s).preemptAll d

/-- A record set aside for translation goes back to the head of its level, or is discarded (R30, R44). -/
def State.translated (s : State) (d idx : Nat) : State :=
  match Tab.find? (s.die d).aside idx with
  | none => s
  | some p =>
    let e := p.entry
    let gone := s.modDie d fun x => { x with aside := Tab.erase x.aside idx }
    let back : State :=
      if e.cr.isCanc then (if s.discardable d e then gone.discardRecord d e else s)
      else (gone.setQueueAt d e.cr.prio (e :: gone.queueAt d e.cr.prio)).preemptFor d e.cr
    match s.translate d (s.job e.cr.job).asid e.cr with
    | .migrating _ => s
    | .unmapped va =>
      if va ∈ e.reported ∨ (e.cr.isCanc ∧ p.asked.isNone) then back
      else if p.asked = some va then s
      else (s.modDie d fun x => { x with aside := Tab.put x.aside idx { p with asked := some va } }).tell d 3 e.cr.job va
    | _ => back

/-- The field firmware reports that the page it was asked for stays unmapped (R44). -/
def State.reportUnmapped (s : State) (d idx : Nat) : State :=
  match Tab.find? (s.die d).aside idx with
  | some p => match p.asked with
    | some va => s.modDie d fun x =>
        { x with aside := Tab.put x.aside idx { p with asked := none, entry := { p.entry with reported := va :: p.entry.reported } } }
    | none => s
  | none => s

/-! ## Pre-emption and cancel limits (R30, R54, R56) -/

/-- The limit of a pending pre-emption has passed: the save begins where a frame is free (R56). -/
def State.forceSave (s : State) (k : Nat) : State :=
  let t := s.tile k
  let d := tileDie k
  let lim := fld (s.die d).preemptLimit 0 32
  match t.preemptAt with
  | some b =>
    if !t.isRunning || lim = 0 || s.ptc d < b + lim then s
    else if s.framesFree d (s.jobOf k) = 0 then
      if t.saveAsked then s
      else (s.modTile k fun t => { t with saveAsked := true }).tell d 0 (s.jobOf k) 0
    else s.takeCut k (.save { cls := 0 }) t.order t.instrPc t.instrClause
  | none => s

/-- The limit of a cancel request has passed: it takes effect, and a cut under way ends in it (R30, R261). -/
def State.cancelExpires (s : State) (k : Nat) : State :=
  let t := s.tile k
  let d := tileDie k
  match t.cancelAt with
  | some b =>
    if s.ptc d < b + fld (s.die d).preemptLimit 0 32 then s
    else match t.status with
      | .running => s.takeCut k .cancel t.order t.instrPc t.instrClause
      | .cutting (.trap _) | .cutting (.save _) | .cutting (.replay _) => (s.setTile k { t with status := .cutting .cancel }).endCut k
      | _ => s
  | none => s

/-! ## Parked waits and held signals (R48) -/

/-- The field firmware presents a parked wait again. -/
def State.represent (s : State) (d idx : Nat) : State :=
  match Tab.find? (s.die d).fwParked idx with
  | none => s
  | some p =>
    let gone := s.modDie d fun x => { x with fwParked := Tab.erase x.fwParked idx }
    let w : Waiter := match p.launch with
      | some key => .launch key p.thr
      | none => .unit p.entry p.thr
    let e := Tab.get {} (s.die d).events p.event
    if p.launch.isNone && p.entry.cr.isCanc then gone.discardRecord p.entry.die p.entry
    else if p.thr ≤ e.count then gone.release w
    else if s.waiterRoom d p.event then gone.setEvent d p.event { e with waiters := e.waiters ++ [w] }
    else s

/-- Signals that wait at this die because its buffer was full are tried again, oldest first. -/
def State.retrySignals (s : State) (d : Nat) : State :=
  (s.reqs.filter fun p => p.2.kept && p.2.dst = d && (match p.2.op with
    | .evSignal _ _ _ _ _ => true
    | _ => false)).foldl (fun s p =>
      match s.atHome p.1 p.2 with
      | (s, .done a) => s.answerKept p.1 p.2 a
      | (_, .keep _ _) => s) s

/-- The oldest held signal is applied once an entry is free; what waited for the buffer goes on. -/
def State.applyPending (s : State) (d : Nat) : State :=
  match (s.die d).pending with
  | [] => s
  | g :: r =>
    if s.eventRoom d (evKey g.job g.name) then
      (((s.modDie d fun x => { x with pending := r }).signal d g.job g.name g.n).retrySignals d).retryLevels d
    else s

/-! ## Launches (R38, R51) -/

/-- The next unit of a host launch is registered; after the last one the launch is closed. -/
def State.registerNext (s : State) (j launch : Nat) : State :=
  match (s.job j).launches.find? fun l => l.launch = launch && !l.waiting && !(s.func l.pkg l.fid).flrb with
  | none => s
  | some l =>
    let upd (s : State) (f : List HostLaunch → List HostLaunch) : State := s.setJob j { s.job j with launches := f (s.job j).launches }
    match s.registerUnit l.pkg none l.tmpl launch l.next with
    | none =>
      if !l.told && s.ringFull l.pkg l.tmpl then
        (upd s fun ls => ls.map fun x => if x.launch = launch then { x with told := true } else x).tell (s.homeDie j) 1 j l.tmpl.prio
      else s
    | some s =>
      if l.next + 1 < l.count then upd s fun ls => ls.map fun x => if x.launch = launch then { x with next := l.next + 1, told := false } else x
      else (upd s fun ls => ls.filter fun x => x.launch ≠ launch).closeLaunch j launch

/-! ## Jobs (R25, R30) -/

/-- The job's level 4 entry, opened where nothing has opened it yet. -/
def State.openJob (s : State) (j : Nat) : State := openLevel s { job := j } 5 4 j

/-- The field firmware closes the job. -/
def State.closeJob (s : State) (j : Nat) : State :=
  if !(s.job j).placed then s
  else
    let s := s.openJob j
    let s := s.setJob j { s.job j with closed := true }
    levelCheck (s.modLevel j 4 j fun e => { e with closed := true }) j 5 4 j

/-- The field firmware cancels the job: its units, its entries, its events (R27, R30, R47). -/
def State.cancelJob (s : State) (j : Nat) : State :=
  if !(s.job j).placed then s
  else
    let s := s.openJob j
    let s := s.setJob j { s.job j with cancelled := true, launches := (s.job j).launches.map fun l => { l with waiting := false } }
    let (s, _) := s.cancelWork j 4 j 0
    let s := (s.job j).dies.foldl (fun s d => s.modDie d fun x =>
      { x with events := x.events.filter fun e => e.1 / 65536 ≠ j, pending := x.pending.filter fun p => p.job ≠ j
               fwParked := x.fwParked.filter fun p => !(p.2.launch.isSome && p.2.event / 65536 = j) }) s
    -- graphs and phases take no further launch: each is freed as its count reaches zero
    let open_ := ((s.die (s.homeDie j)).levels.filter fun e => e.job = j && (e.level = 2 || e.level = 3)).map fun e => (e.level, e.id)
    open_.foldl (fun s e => levelCheck (s.modLevel j e.1 e.2 fun x => { x with closed := true }) j 5 e.1 e.2) s

/-! ## Register writes -/

def State.writeDieReg (s : State) (d : Nat) (r : DieReg) (v : W64) : State :=
  s.modDie d fun x => match r with
    | .ageLimit => { x with ageLimit := v &&& 0x7FFFFFFF#64 }
    | .preemptLimit => { x with preemptLimit := v &&& 0xFFFFFFFF#64 }
    | .evovfBase => { x with evovfBase := v &&& 0xFFFFFFFFFFFFFFC0#64 }
    | .evovfSize => { x with evovfSize := v &&& 0xFFFFFFFF#64 }
    | .cimGate => { x with cimGate := v &&& 0xFFFF#64 }
    | .reqTimeout => { x with reqTimeout := v &&& 0xFFFFFFFF#64 }

/-- A write to a job's register on a die; a new quota may let a waiting record pre-empt (R54). -/
def State.writeJobReg (s : State) (d j : Nat) (r : JobReg) (v : W64) : State :=
  (s.modJobDie d j fun x => match r with
    | .trapVec => { x with trapVec := v &&& 0x0000FFFFFFFFFFFC#64 }
    | .trapArea => { x with trapArea := v &&& 0x0000FFFFFFFFF000#64 }
    | .dmap => { x with dmap := v &&& 0x00FFFFFFFFFFF000#64 }
    | .barRange => { x with barRange := v &&& 0xFFFF#64 }
    | .layArea => { x with layArea := v &&& 0xFFFFFFFF#64 }
    | .tileQuota => { x with quota := fld v 0 6 }).preemptAll d

/-- The dies of a placement by rank: ascending in package number and die id, each once (R224). -/
def ranked (ds : List Nat) : List Nat := ds.foldl winInsert []

/-- A job is placed: its pools and slots are empty, its registers as the field firmware left them. A job number has 16
bits, an ASID 8 and a function 4 (R31, R237). -/
def State.placeJob (s : State) (p : JobPlacement) : State :=
  if 2 ^ 16 ≤ p.job ∨ Config.functions ≤ p.fid ∨ Config.asids ≤ p.asid then s
  else
    let s := p.dies.zipIdx.foldl (fun s d => s.modJobDie d.1 p.job fun x =>
      { trapVec := x.trapVec, trapArea := x.trapArea, dmap := x.dmap, barRange := x.barRange, layArea := x.layArea
        quota := x.quota, pool := x.pool, frames := p.frames, frameBase := p.frameBases.getD d.2 0 }) s
    s.setJob p.job { placed := true, fid := p.fid, asid := p.asid, dies := ranked p.dies }

/-- Two keys change places (log 79). -/
def swapKey (p n k : Nat) : Nat := if k = p then n else if k = n then p else k

/-- A table's keys are renamed. -/
def Tab.rekey {α : Type} (f : Nat → Nat) (t : Tab α) : Tab α := t.foldl (fun u x => Tab.put u (f x.1) x.2) []

/-- Package p takes number n (R15): what it holds is found under that number from now on. -/
def State.renumber (s : State) (p n : Nat) : State :=
  let at_ (unit k : Nat) : Nat := swapKey p n (k / unit) * unit + k % unit
  let plain := at_ (2 ^ 45)
  let owner (e : W64) : W64 := w64 (fld e 37 27 * 2 ^ 37 + at_ 1 (fld e 27 10) * 2 ^ 27 + fld e 0 27)
  let slot (l : LaySlot) : LaySlot := { l with owners := l.owners.map owner }
  -- the plain addresses that a die holds itself
  let die (x : Die) : Die :=
    { x with resolver := x.resolver.map fun (r : Nat × Resolved) => (r.1, { r.2 with target := plain r.2.target })
             btBase := plain x.btBase, seqs := x.seqs.map fun (q : Nat × Seqn) => (q.1, { q.2 with bt := plain q.2.bt })
             jobs := x.jobs.map fun (j : Nat × JobDie) =>
               (j.1, { j.2 with frameBase := plain j.2.frameBase, slots := j.2.slots.map fun (l : Nat × LaySlot) => (l.1, slot l.2) })
             versions := Tab.rekey (at_ (2 ^ 37)) x.versions, scrubs := Tab.rekey (at_ (2 ^ 37)) x.scrubs
             badSectors := x.badSectors.map (at_ (2 ^ 37)), cache := [], lost := x.lost.map (at_ 8), cutOff := x.cutOff.map (at_ 8) }
  { s with pkgs := Tab.rekey (at_ 1) s.pkgs, dies := (Tab.rekey (at_ 8) s.dies).map fun d => (d.1, die d.2), tiles := Tab.rekey (at_ 256) s.tiles
           mem := s.mem.foldl (fun m c => Tab.set 0 m (at_ (2 ^ 45) c.1) c.2) [], owners := Tab.rekey (at_ (2 ^ 24)) s.owners
           jobs := s.jobs.map fun (j : Nat × Job) => (j.1, { j.2 with dies := j.2.dies.map (at_ 8) }), lost := s.lost.map (at_ 8) }

/-- No job holds a tile in the package (R23). -/
def State.pkgIdle (s : State) (p : Nat) : Bool := (List.range 256).all fun i => (s.tile (256 * p + i)).isIdle

/-- At pod formation the root monitor gives a package its number and its coordinates, while no job holds a tile there; no
two packages share either (R15, R23, R24). -/
def State.formPackage (s : State) (p n x y z : Nat) : State :=
  if Config.packages ≤ n ∨ 8 ≤ x ∨ 8 ≤ y ∨ 16 ≤ z ∨ !s.pkgIdle p ∨ (n ≠ p ∧ (s.pkg n).member)
      ∨ s.pkgs.any (fun q => q.1 ≠ p && q.2.member && q.2.px = x && q.2.py = y && q.2.pz = z) then s
  else
    let named (p : Nat) (s : State) : State := s.modPkg p fun q => { q with part := some (q.part.getD p) }
    let s := if n = p then s else (named n (named p s)).renumber p n
    s.modPkg n fun q => { q with px := x, py := y, pz := z, member := true }

/-- Whose registers these are (R274; what stands in no row of its table goes to the agent that the register's own rule
names). -/
def RegWrite.agent : RegWrite → Agent
  | .windowBytes _ _ _ _ | .cqBase _ _ _ | .deviceBytes _ _ => .host
  | .functionWord _ _ _ _ | .asid _ _ _ | .tlbi _ _ _ | .timeMaster _ | .pageOwner _ _ | .coords _ _ _ _ _ | .grid _ _ _ => .rootMonitor
  | .dieReg _ _ _ | .jobReg _ _ _ _ | .powerCap _ _ | .place _ | .resolver _ _ _ | .pool _ _ _ | .ring _ _ _ | .seqArea _ _ _ | .unmapped _ _
  | .mgmtWrite _ _ | .mgmtRead _ _ => .fieldFirmware

/-- The package that the write concerns. -/
def RegWrite.package : RegWrite → Nat
  | .windowBytes p _ _ _ | .cqBase p _ _ | .functionWord p _ _ _ | .powerCap p _ | .timeMaster p | .coords p _ _ _ _ => p
  | .dieReg d _ _ | .jobReg d _ _ _ | .asid d _ _ | .tlbi d _ _ | .resolver d _ _ | .pool d _ _ | .ring d _ _ | .seqArea d _ _ | .unmapped d _ => d / 8
  | .place j => j.dies.headD 0 / 8
  | .deviceBytes a _ | .mgmtWrite a _ | .mgmtRead a _ => plainDie a / 8
  | .pageOwner g _ => plainDie (g * 2 ^ 21) / 8
  | .grid _ _ _ => 0

/-- Boot has started the agent in a package (R273). -/
def Pkg.runs (x : Pkg) : Agent → Bool
  | .host => true
  | .rootMonitor => 1 ≤ x.bootStatus
  | .fieldFirmware => 5 ≤ x.bootStatus

/-- TLBI on a die (R239, R363): a page, an ASID, or everything. -/
def State.tlbi (s : State) (d kind : Nat) (v : W64) : State :=
  match kind with
  | 0 => s.tlbPage d (fld v 56 8) (fld v 0 48)
  | 1 => s.modDie d fun x => { x with cache := x.cache.filter fun c => c.asid ≠ fld v 0 8 }
  | 2 => s.modDie d fun x => { x with cache := [] }
  | _ => s

/-- A slice of a tile that a function's quads hold: tenant memory, though no page owner is recorded for it (R248, R274; DEDUCED,
log 109). -/
def State.tenantSlice (s : State) (q : Nat) : Bool :=
  plainTier q = 1 && (s.pkg (plainDie q / 8)).funcs.any fun f => bit f.2.quads (8 * dieNum (plainDie q) + tileNum (sliceTile q) / 4)

/-- A request of the management cores at its home: it carries a FID that no tenant page carries (R249, R274). -/
def State.mgmtHome (s : State) (p len : Nat) : Option Nat :=
  match s.place (plainDie p) p len with
  | .mem q => if s.foreign Config.managementFid q || s.tenantSlice q then none else some q
  | _ => none

/-- What the management cores read at a plain address: memory that is no tenant's, a function register block, or a management
mailbox (R16, R248, R274). -/
def State.mgmtBytes (s : State) (p n : Nat) : Option (List Byte) :=
  match s.place (plainDie p) p n with
  | .hub off => match hubPlace (hubOff off) with
    | .block _ _ | .mailbox => some (s.hubBytes (plainDie p / 8) off n)
    | .window _ _ => none
  | _ => (s.mgmtHome p n).map fun q => s.bytes q n

/-- QUADS or an ASID range that another function of the package holds in part: the root monitor never gives it (R248). -/
def State.shares (s : State) (p f : Nat) (h : Func → Bool) : Bool := (s.pkg p).funcs.any fun x => x.1 ≠ f && h x.2
/-- An ASID range as AFIRST and ACOUNT give it (R248). -/
def asidsMeet (v w : W64) : Bool := fld v 0 8 < fld w 0 8 + fld w 8 9 && fld w 0 8 < fld v 0 8 + fld v 8 9 && fld v 8 9 ≠ 0 && fld w 8 9 ≠ 0

def State.writeReg (s : State) (w : RegWrite) : State :=
  match w with
  | .dieReg d r v => s.writeDieReg d r v
  | .jobReg d j r v => s.writeJobReg d j r v
  | .powerCap p v => s.modPkg p fun x =>
    { x with pwrCap := min 3600 (max 1200 (fld v 16 16))
             pwrCaps := x.pwrCaps.filter (fun c => s.hubPtc p < c.1 + 1000000) ++ [(s.hubPtc p, x.pwrCap)] }
  | .functionWord p f w v => if Config.functions ≤ f ∨ (w = 0 ∧ s.shares p f fun x => x.quads &&& v ≠ 0) ∨ (w = 1 ∧ s.shares p f fun x => asidsMeet x.asidWord v) then s else s.modFunc p f fun x => match w with
      | 0 => { x with quads := v }
      | 1 => { x with asidWord := v &&& 0x1FFFF#64 }
      -- functions are enabled in step 5 of the boot (R273)
      | 2 => { x with en := bit v 0 && !(s.pkg p).recovery }
      | _ => x
  | .cqBase p f v => if Config.functions ≤ f ∨ (s.pkg p).recovery then s else s.modFunc p f fun x => { x with cqBase := v &&& 0xFFFFFFFFFFFFF000#64 }
  | .windowBytes p f o bs =>
    if o + bs.length ≤ 0x8000 ∧ f < Config.functions ∧ !(s.pkg p).recovery then s.modFunc p f fun x =>
      { x with window := (bs.zipIdx).foldl (fun t b => Tab.set 0 t (o + b.2) b.1) x.window }
    else s
  | .deviceBytes p bs =>
    match s.place (plainDie p) p bs.length with
    | .mem q => s.writeAtomic q bs
    | _ => s
  | .asid d n e => if Config.asids ≤ n ∨ Config.functions ≤ e.fid then s else s.modDie d fun x => { x with asids := Tab.put x.asids n e, cache := x.cache.filter fun c => c.asid ≠ n }
  | .place p => s.placeJob p
  | .resolver d b t => s.modDie d fun x =>
      { x with resolver := Tab.put x.resolver b { target := t, refs := (Tab.get { target := 0, refs := 0 } x.resolver b).refs } }
  | .pool d j bs => s.modJobDie d j fun x => { x with pool := x.pool ++ bs }
  | .ring d p n => s.modDie d fun x => { x with rings := Tab.set 0 x.rings p n }
  | .seqArea d b n => s.modDie d fun x => { x with btBase := b, btLen := n }
  | .timeMaster p => if Config.packages ≤ p then s else { s with timeMaster := p }
  | .unmapped d i => s.reportUnmapped d i
  | .tlbi d k v => s.tlbi d k v
  | .mgmtWrite p bs =>
    match s.mgmtHome p bs.length with
    | some q => s.writeAtomic q bs
    | none => s
  | .mgmtRead p n => s.modPkg (plainDie p / 8) fun x => { x with mgmtReply := s.mgmtBytes p n }
  -- a page given to another function is zeroed first (R250)
  | .pageOwner p f => if Config.functions ≤ f then s else
    { (if Tab.find? s.owners p = some f then s else s.zeroRange (p * 2 ^ 21) (2 ^ 21)) with owners := Tab.put s.owners p f }
  | .coords p n x y z => s.formPackage p n x y z
  | .grid x y z => if x ≤ 8 ∧ y ≤ 8 ∧ z ≤ 16 then { s with npx := x, npy := y, npz := z } else s

/-! ## Events -/

/-- REGISTER_WRITE (R42): by the agent that may make it (R274), where boot has started it (R273). -/
def execRegisterWrite (w : AgentWrite) (s : State) : Out :=
  .next (if w.agent = w.reg.agent ∧ (s.pkg w.reg.package).runs w.agent then s.writeReg w.reg else s)
/-- LAUNCH_NOTIFY (R51). -/
def execLaunchNotify (pkg fid slot : Nat) (value : W32) (s : State) : Out := .next (s.notify pkg fid slot value)
/-- LAUNCH_STAMP_REREAD (R51). -/
def execLaunchStampReread (pkg fid slot : Nat) (s : State) : Out :=
  .next (match (Tab.get {} (s.func pkg fid).slots slot).notify with
    | some (v, left) => if (s.func pkg fid).flrb then s else s.compareStamp pkg fid slot v left
    | none => s)
/-- LAUNCH_UNIT_REGISTER (R38). -/
def execLaunchUnitRegister (job launch : Nat) (s : State) : Out := .next (s.registerNext job launch)
/-- CQ_CTL_WRITE (R272). -/
def execCqCtlWrite (pkg fid : Nat) (value : W64) (s : State) : Out := .next (s.writeCqCtl pkg fid value)
/-- CQ_HEAD_WRITE (R272). -/
def execCqHeadWrite (pkg fid : Nat) (value : W32) (s : State) : Out := .next (s.writeCqHead pkg fid value)
/-- FIRMWARE_PREEMPT (R54). -/
def execFirmwarePreempt (tile : Nat) (s : State) : Out :=
  .next (if (s.tile tile).status.active then
    s.modTile tile fun t => { t with preemptAt := some (t.preemptAt.getD (s.ptc (tileDie tile))) } else s)
/-- DISPATCH (R39). -/
def execDispatch (die : Nat) (s : State) : Out := .next (s.dispatchOne die)
/-- AGING_SWEEP (R40). -/
def execAgingSweep (die : Nat) (s : State) : Out := .next (s.sweep die)
/-- TRANSLATION_COMPLETE (R44). -/
def execTranslationComplete (die idx : Nat) (s : State) : Out := .next (s.translated die idx)
/-- FORCED_SAVE (R56). -/
def execForcedSave (tile : Nat) (s : State) : Out := .next (s.forceSave tile)
/-- CONTEXT_FRAME_FREE (R56): a save that waited for a frame begins. -/
def execContextFrameFree (tile : Nat) (s : State) : Out :=
  .next (if (s.tile tile).saveAsked then s.forceSave tile else s)
/-- CANCEL_LIMIT_EXPIRY (R30). -/
def execCancelLimitExpiry (tile : Nat) (s : State) : Out := .next (s.cancelExpires tile)
/-- EVENT_WAIT_REPRESENT (R48). -/
def execEventWaitRepresent (die idx : Nat) (s : State) : Out := .next (s.represent die idx)
/-- PENDING_SIGNAL_APPLY (R48). -/
def execPendingSignalApply (die : Nat) (s : State) : Out := .next (s.applyPending die)
/-- JOB_CLOSE (R25). -/
def execJobClose (job : Nat) (s : State) : Out := .next (s.closeJob job)
/-- JOB_CANCEL (R30). -/
def execJobCancel (job : Nat) (s : State) : Out := .next (s.cancelJob job)

end Sys2Proof.Machine
end

