-- ==== Sys2Proof/Machine/Network.lean ====
section
/-! DEFINITION. What happens between dies: requests at their homes and their responses (R177, R243 to R245, R425), the
narrowing of grants (R201, R202), revocations and migrations (R240, R241), links (R215, R216), time (R234, R236), and
the loss of a member (R210, R246, R247). -/

namespace Sys2Proof.Machine

/-! ## Requests at their home -/

/-- 2 × PTC_SKEW.POD_NS. -/
def skew2 : Nat := 2 * Config.podNs

/-- ATQ has already marked the request as refused (R245). -/
def State.atqRefused (s : State) (r : Request) : Bool :=
  match Tab.find? (s.die r.dst).logs r.tile with
  | some l => let e := Tab.get {} l.entries (r.tag.toNat % 64); e.state = 2 && e.tag = r.tag && e.job = r.job
  | none => false

/-- The home has made something of a request: its answer, or its wait there. -/
def State.homed (s : State) (id : Nat) (r : Request) (h : Homed) : State :=
  match h with
  | .keep acks tell =>
    let s := s.keepReq id r acks tell
    match r.roomWait, (s.tile r.tile).wait with
    | some on, some w =>
      if w.on = .response id then s.modTile r.tile fun t =>
        { t with wait := some { w with on := on, since := s.dcc (tileDie r.tile), bound := some (capIssue t.waitCap) } }
      else s
    | _, _ => s
  | .done a =>
    let s := s.logAnswer r a
    let parked := match r.op, a with
      | .evWait _ _ _ _, .value v _ => v = 0
      | _, _ => false
    let s := if r.expired || parked || r.sink = .counted then s.dropReq id else s.answerReq id a
    s.afterOp r.op

/-- A request that its home refuses without effect. -/
def State.refuse (s : State) (id : Nat) (r : Request) : State :=
  let s := if r.logged then s.logOutcome r 2 0 else s
  if r.expired then s.dropReq id else s.modReq id fun r => { r with answer := some .refused, kept := false }

/-- The oldest request on its way from one die to another reaches its home (R177, R215, R244). -/
def State.arrive (s : State) (src dst : Nat) (logged : Bool) : State :=
  match s.oldestReq src dst with
  | none => s
  | some (id, r) =>
    if r.logged ≠ logged ∨ dst ∈ s.lost ∨ !s.linked src dst ∨ !s.lsFirst src dst id then s
    else if r.logged && (r.deadline ≤ s.ptc dst + skew2 || s.atqRefused r) then s.refuse id r
    else
      let (s, h) := s.atHome id r
      s.homed id r h

/-- A request of another die that its home keeps for room is past the time in which the home acts, or ATQ has marked it
refused (R244, R245, R425). -/
def State.pastTime (s : State) (r : Request) : Bool :=
  r.src ≠ r.dst && (match r.op with
    | .sqWait _ _ => false
    | op => op.handle?.isSome || r.logged) && (r.deadline ≤ s.ptc r.dst + skew2 || (r.logged && s.atqRefused r))

/-- A request kept at its home is tried again (R425). -/
def State.retryHome (s : State) (id : Nat) : State :=
  match Tab.find? s.reqs id with
  | none => s
  | some r =>
    if !r.kept ∨ !r.acks.isEmpty ∨ r.answer.isSome ∨ r.dst ∈ s.lost then s
    else if s.pastTime r then s.refuse id r
    else match s.atHome id r with
      | (s, .done a) => (s.answerKept id r a).afterOp r.op
      | (s, .keep acks tell) =>
        -- narrowings that have begun are not taken back with the word, which WAIT_CAP.ISSUE bounds on the home's own die (log 99)
        let s := if r.src = r.dst ∧ !acks.isEmpty then s.awaitAnswer id r (some (capIssue (s.tile r.tile).waitCap)) else s
        s.keepReq id r acks tell

/-- A remote sequence request that has waited for room to the end of its time is refused (R425). -/
def State.refuseHome (s : State) (id : Nat) : State :=
  match Tab.find? s.reqs id with
  | none => s
  | some r =>
    if r.kept ∧ r.acks.isEmpty ∧ s.pastTime r then s.refuse id r else s

/-! ## Responses (R245, R358, R79) -/

/-- The frame of a die that holds a unit of tile k with a property: job, frame number and contents. -/
def State.frameWith (s : State) (k : Nat) (p : Saved → Bool) : Option (Nat × Nat × Saved) :=
  (s.die (tileDie k)).jobs.findSome? fun (j : Nat × JobDie) =>
    (List.find? (fun (v : Nat × Saved) => v.2.key = k && p v.2) j.2.saved).map fun (v : Nat × Saved) => (j.1, v.1, v.2)

/-- The tile, or the frame, that holds a posted request takes its response. -/
def State.endPosted (s : State) (k id : Nat) (rep : Option Report) (flags : Nat) : State :=
  let add (l : List Report) : List Report := match rep with
    | some r => l ++ [r]
    | none => l
  if (s.tile k).posted.any fun p => p.id = id then
    (s.modTile k fun t =>
      { t with posted := t.posted.filter (fun p => p.id ≠ id), fpc := t.fpc ||| BitVec.ofNat 64 flags, reports := add t.reports }).settle k
  else match s.frameWith k fun v => v.tile.posted.any fun p => p.id = id with
    | some (j, n, v) => s.setFrame (tileDie k) j n
        { v with lflags := v.lflags ||| flags
                 tile := { v.tile with posted := v.tile.posted.filter (fun p => p.id ≠ id), reports := add v.tile.reports } }
    | none => s

/-- The join decrement of a retiring unit has ended: its other completion actions follow, and its tile is freed (R28,
R29). -/
def State.endJoin (s : State) (k id : Nat) (fail : Option Nat) (addr : W64) : State :=
  let t := s.tile k
  if t.status ≠ .retiring id then s
  else
    let s := match fail with
      | some cls => s.damage (tileDie k) { s.unitDamage k t.entry.cr 6 cls with valid := 1, va := addr }
      | none => s
    s.finishActions (tileDie k) k true t.entry t.cancelled

/-- A request ends at its requester with a fault in place of an answer: TIMEOUT, TARGET_LOST or ATOMIC_APPLIED_LOST. -/
def State.failReq (s : State) (id : Nat) (r : Request) (cls : Nat) : State :=
  match r.sink with
  | .posted => s.endPosted r.tile id (some { cls := cls, addr := r.addr, tag := if r.logged then r.tag else 0 }) 0
  | .join => s.endJoin r.tile id (some cls) r.addr
  | .signalled _ _ _ => s.endSignal id r (some cls)
  | .counted => s
  | _ => if r.dead then s else s.failWord r.tile { cls := cls, faddr := r.addr, atag := if r.logged then r.tag else 0, src := 7 }

/-- A response reaches its requester before the deadline (R245). -/
def State.respond (s : State) (id : Nat) (poisoned : Bool) : State :=
  match Tab.find? s.reqs id with
  | none => s
  | some r => match r.answer with
    | none | some .refused => s
    | some a =>
      if r.lost ∨ (r.deadline ≤ s.ptc r.src ∧ !r.sink.undated) ∨ !s.linked r.dst r.src ∨ !s.lsFirst r.dst r.src r.ansNo then s
      else
        let gone := s.dropReq id
        let applied := r.applied a
        match r.sink with
        | .posted =>
          match a with
          | .fault c _ => gone.endPosted r.tile id (some { cls := c, addr := r.addr, tag := if r.logged then r.tag else 0 }) 0
          | .value _ fl => gone.endPosted r.tile id ((r.flagFault fl).map fun c => { cls := c, addr := r.addr, tag := r.tag }) fl
          | _ => gone.endPosted r.tile id none 0
        | .join => match a with
          | .fault c _ => gone.endJoin r.tile id (some c) r.addr
          | _ => gone.endJoin r.tile id none r.addr
        | .signalled _ _ _ => gone.endSignal id r none
        | .counted => gone
        | _ =>
          if r.dead then gone
          else if poisoned && applied then
            if r.logged || r.op.handle?.isSome then gone.failReq id r Cls.appliedLost
            else s.modReq id fun r => { r with lost := true }
          else gone.deliver r.tile r a

/-- The effects that a request still on its way may have after its requester gave up on it. -/
def HomeOp.outlives : HomeOp → Bool
  | .load _ _ | .evPoll _ _ _ | .evWait _ _ _ _ | .sqLen _ | .sqWait _ _ | .sqSlot _ _ | .atq _ _ => false
  | _ => true

/-- A request with no response by its deadline ends in TIMEOUT (R76, R243, R245). An SQWAIT at a home on another die ends there
or at its own bound, whichever comes first (DEDUCED, log 111). -/
def State.deadlinePasses (s : State) (id : Nat) : State :=
  match Tab.find? s.reqs id with
  | none => s
  | some r =>
    if r.src = r.dst ∨ r.expired ∨ s.ptc r.src < r.deadline ∨ r.sink.undated ∨ (r.kept ∧ r.op.roomWait.isSome) then s
    else
      let s := if r.answer.isNone && r.op.outlives && !r.lost then s.modReq id fun r => { r with expired := true } else s.dropReq id
      s.failReq id r Cls.timeout

/-! ## Narrowing (R201, R202, R208) -/

def Grant.narrowed (g : Grant) (wlo : Nat) : Grant := { g with wlo := max g.wlo wlo }

/-- A tile's grant table after a narrowing, which is for a grant on block b of a sequence: an entry taken over by another
grant meanwhile is left as it is. -/
def narrowTab (gs : Tab Grant) (num : Nat) (h : W64) (b wlo : Nat) (drop : Bool) : Tab Grant :=
  match Tab.find? gs num with
  | none => gs
  | some g => if g.handle ≠ h ∨ g.blk ≠ b then gs else if drop then Tab.erase gs num else Tab.put gs num (g.narrowed wlo)

/-- Does tile k run the unit of a job? -/
def State.runsUnit (s : State) (k job unit : Nat) : Bool :=
  !(s.tile k).isIdle && s.jobOf k = job && (s.tile k).entry.cr.unitId = unit

/-- A narrowing reaches the unit's grant, in its tile or in its frame. -/
def State.narrowUnit (s : State) (k job unit num : Nat) (h : W64) (b wlo : Nat) (drop : Bool) : State :=
  if s.runsUnit k job unit then s.modTile k fun t => { t with grants := narrowTab t.grants num h b wlo drop }
  else s.modJobDie (tileDie k) job fun x =>
    { x with saved := x.saved.map fun (v : Nat × Saved) =>
        (v.1, if v.2.key = k && v.2.tile.entry.cr.unitId = unit then
          { v.2 with tile := { v.2.tile with grants := narrowTab v.2.tile.grants num h b wlo drop } } else v.2) }

/-- GRANT_NARROWING: the grant is narrowed, and its acknowledgement leaves. -/
def State.narrowArrives (s : State) (id : Nat) : State :=
  match s.msgAt id with
  | some (.narrow die sq k num unit wlo req drop h b) =>
    let job := (Tab.get ({} : Seqn) (s.die die).seqs sq).job
    if die ≠ tileDie k ∧ !s.lsFirst die (tileDie k) id then s
    else ((s.unpost id).narrowUnit k job unit num h b wlo drop).post (.narrowAck die sq k num unit id req)
  | _ => s

/-- The request behind a narrowing ends once every acknowledgement is in: CL advances, or the descriptor is freed. -/
def State.ackOne (s : State) (die sq id req : Nat) : State :=
  match Tab.find? s.reqs req with
  | none => s
  | some r =>
    let acks := r.acks.filter (· ≠ id)
    let s := s.modReq req fun r => { r with acks := acks }
    if !acks.isEmpty ∨ r.acks.isEmpty then s
    else
      let s := match r.op with
        | .sqDrop _ => s.freeSeq die sq
        | _ => s.setSeq die sq (Tab.get ({} : Seqn) (s.die die).seqs sq).advance
      let r' := { r with acks := [] }
      (s.answerKept req r' (.value 0 0)).afterOp r.op

/-- A store of a unit on tile k that was checked against its grant `num` has yet to be performed at its home, though its
deadline may have passed (R202). -/
def State.storeOpen (s : State) (k unit num : Nat) : Bool :=
  s.reqs.any fun p => p.2.tile = k && p.2.grant = some num && p.2.crec.unitId = unit && p.2.answer.isNone && !p.2.lost

/-- NARROWING_ACK: it leaves once every store checked against the old range has been performed, and arrives after what its
die has sent to the home before (R202, R215). -/
def State.narrowAckArrives (s : State) (id : Nat) : State :=
  match s.msgAt id with
  | some (.narrowAck die sq k num unit nid req) =>
    let job := (Tab.get ({} : Seqn) (s.die die).seqs sq).job
    let open_ : Bool := s.storeOpen k unit num ||
      (if s.runsUnit k job unit then (s.tile k).storesThrough num
      else (s.jobDie (tileDie k) job).saved.any fun v => v.2.key = k && v.2.tile.entry.cr.unitId = unit && v.2.tile.storesThrough num)
    if open_ ∨ (die ≠ tileDie k ∧ !s.lsFirst (tileDie k) die s.nextId) then s
    else (s.unpost id).ackOne die sq nid req
  | _ => s

/-! ## Revocation and migration (R240, R241, R256) -/

/-- PTE_CHANGE: refused for a pinned page that is mapped, and for a page that another function owns (R238, R249). -/
def State.pteChange (s : State) (j va : Nat) (entry : W64) : State :=
  let e := entry.toNat
  if (s.pinnedPage j va ∧ s.leafWord (s.homeDie j) (s.job j).asid va ≠ 0) ∨ 2 ^ 48 ≤ va ∨ !(s.job j).placed ∨ (e % 2 = 1 ∧ s.foreign (s.job j).fid (s.plainIn (diePkg (s.homeDie j)) (nfld e 8 47 * 256))) then s
  else s.changeLeaf j va e

/-- REVOCATION_RECEIVE: the tile marks its extents over the range. -/
def State.revocationArrives (s : State) (id k : Nat) : State :=
  match Tab.find? s.revs id with
  | none => s
  | some r =>
    if k ∈ r.unsent then
      let s := { s with revs := Tab.put s.revs id { r with unsent := r.unsent.filter (· ≠ k) } }
      if s.jobOf k = r.job then s.modTile k fun t =>
        { t with exts := t.exts.map fun e => if e.vbase < r.vbase + r.len && r.vbase < e.vbase + e.len then { e with revoked := true } else e }
      else s
    else s

/-- An access of the tile over a virtual range has been checked and not performed (R240). -/
def State.accessOpen (s : State) (k va len : Nat) : Bool :=
  let t := s.tile k
  let hit (a : W64) (n : Nat) : Bool := a.toNat < va + len && va < a.toNat + n
  t.storeQ.any (fun e => hit e.va (max 1 e.bytes.length))
  || t.journal.any (fun e => match e.kind with
    | .store a _ bs _ => hit a bs.length
    | _ => false)
  || t.started.any fun c => 0 < c.legs && !c.moved && (match c.kind with
    | .reshard | .layset | .laysetPass => false
    | _ => true)

/-- REVOCATION_ACK. -/
def State.revocationAck (s : State) (id k : Nat) : State :=
  match Tab.find? s.revs id with
  | none => s
  | some r =>
    if k ∈ r.waiting ∧ !(k ∈ r.unsent) ∧ !(s.jobOf k = r.job && s.accessOpen k r.vbase r.len) ∧ !s.reqOpen k r.job r.vbase r.len ∧ !s.legsOpen k r.job then
      { s with revs := Tab.put s.revs id { r with waiting := r.waiting.filter (· ≠ k) } }
    else s

/-- REVOCATION_COMPLETE. -/
def State.revocationDone (s : State) (id : Nat) : State :=
  match Tab.find? s.revs id with
  | some r => if !r.todo.isEmpty then s.discardPages id r else if r.waiting.isEmpty then s.endRevocation id r else s
  | none => s

/-- MIGRATION_COMPLETE: the page is copied to its new place and its leaf names it (R241). -/
def State.migrate (s : State) (j va target : Nat) : State :=
  let asid := (s.job j).asid
  let home := s.homeDie j
  let e := s.leafWord home asid va
  let page := va / 65536 * 65536
  let new := s.plainIn (diePkg home) target
  if e / 128 % 2 = 0 ∨ target % 65536 ≠ 0 ∨ !leafDecodes s (diePkg home) new 65536 ∨ s.foreign (s.job j).fid new
      ∨ s.revs.any (fun r => r.2.job = j && !r.2.waiting.isEmpty && r.2.vbase < page + 65536 && page < r.2.vbase + r.2.len) then s
  else
    let old := s.plainIn (diePkg home) (e / 65536 * 65536)
    let s := match s.resolve home old 65536, s.resolve home new 65536 with
      | some p, some q => s.writePlain q (s.bytes p 65536)
      | _, _ => s
    (s.job j).dies.foldl (fun s d => s.writeLeaf d asid va (target + e % 256 - 128)) s

/-! ## Links (R213, R215, R216) -/

/-- Every die, of the pod and of the packages that stand alone. -/
def State.allDies (s : State) : List Nat := s.packages.flatMap pkgDies

/-- Retransmissions after which a flit has failed (R216). -/
def flitTries : Nat := 16
/-- Nanoseconds without an acknowledgement after which a link has failed (R216). -/
def ackLimit : Nat := 10000

/-- FLIT_RETRANSMIT_REQUEST: a flit of a port's channel, by its 12-bit number, is sent once more; flits that the 256 of the
replay buffer no longer hold have been received (R215). -/
def State.retransmit (s : State) (d port ch num : Nat) : State :=
  if 7 ≤ port ∨ 5 ≤ ch ∨ 4096 ≤ num ∨ !(s.die d).portUp port then s
  else s.modDie d fun x =>
    let c := port * 8 + ch
    let near (n : Nat) : Bool := (num + 4096 - n) % 4096 < 256 || (n + 4096 - num) % 4096 < 256
    { x with retrans := Tab.put (x.retrans.filter fun y => y.1 / 4096 ≠ c || near (y.1 % 4096)) (4096 * c + num)
                          (Tab.get 0 x.retrans (4096 * c + num) + 1) }

/-- One flit of the port has failed its retransmissions. -/
def Die.worn (x : Die) (port : Nat) : Bool := x.retrans.any fun y => y.1 / 32768 = port && flitTries ≤ y.2

/-- The link at a port of a die, or its other end, is on the route between two dies. -/
def State.onLink (s : State) (d port a b : Nat) : Bool :=
  a ≠ b && match s.route a b with
  | some l => l.any fun h => h = (d, port) || (some h.1 = s.neighbour d port && h.2 = Nat.xor port 1)
  | none => false

/-- A request to a hub's registers, and the die whose hub link it takes (log 86). -/
def Request.hubDie (r : Request) : Option Nat :=
  let via (p : Nat) : Option Nat := if plainTier p = 3 then some (if diePkg r.src = diePkg r.dst then r.src else r.dst) else none
  match r.op with
  | .load p _ => via p
  | .store p _ => via p
  | _ => none

/-- A request is on a die's link: to the hub for port 6, else along its route. -/
def State.reqOn (s : State) (d port : Nat) (r : Request) : Bool :=
  if 6 ≤ port then r.hubDie = some d
  else if r.answer.isNone then !r.kept && s.onLink d port r.src r.dst else s.onLink d port r.dst r.src

/-- A message is on a die's link to another die. -/
def State.msgOn (s : State) (d port : Nat) (m : Msg) : Bool := port < 6 && s.onLink d port (s.msgEnds m).1 (s.msgEnds m).2

/-- Something sent over the link has had no acknowledgement for 10,000 ns of its sender's PTC: a request or a message still on
its way, or on a hub link a time-sync exchange (R216, R234, R235; log 86). -/
def State.silent (s : State) (d port : Nat) : Bool :=
  s.reqs.any (fun p => p.2.answer.isNone && p.2.sent + ackLimit ≤ s.ptc p.2.src && s.reqOn d port p.2)
  || s.msgs.any (fun m => let now := s.ptc (s.msgEnds m.2).1; Tab.get now s.sentAt m.1 + ackLimit ≤ now && s.msgOn d port m.2)
  || (port = 6 && (s.die d).lastSync + 65536 + ackLimit ≤ s.ptc d)

/-- A link is to go down (R216). -/
def State.linkFails (s : State) (d port : Nat) : Bool :=
  (s.die d).worn port || s.silent d port || (port < 6 && (match s.neighbour d port with
    | some e => (s.die e).worn (Nat.xor port 1)
    | none => false))

/-- An off-package port of a die: outwards in each dimension (R212). -/
def offPackage (d port : Nat) : Bool := port < 6 && (dieNum d / 2 ^ (port / 2) % 2 = 1) = (port % 2 = 0)
/-- Every off-package link of a package is down. -/
def State.pkgCut (s : State) (p : Nat) : Bool :=
  (List.range 8).all fun i => (List.range 6).all fun q => !offPackage (8 * p + i) q || !(s.die (8 * p + i)).portUp q

/-- A die is declared lost. -/
def State.declareLost (s : State) (d : Nat) : State := if d ∈ s.lost then s else { s with lost := s.lost ++ [d] }

/-- Requests and responses of the LS channel that stood on a link: whether each is lost is a free choice (R216). -/
def State.loseFlits (s : State) (d port : Nat) : State :=
  let reqs := s.reqs.zipIdx.map fun (x : (Nat × Request) × Nat) =>
    (x.1.1, if x.1.2.src ≠ x.1.2.dst && s.reqOn d port x.1.2 && Config.freePick (s.fresh + x.2) % 2 = 1 then { x.1.2 with lost := true } else x.1.2)
  { s with reqs := reqs, fresh := s.fresh + reqs.length }

/-- What stood on a link that has gone down is sent over the new route, from now on (R216). -/
def State.resend (s : State) (d port : Nat) : State :=
  { s with
    reqs := s.reqs.map fun p => (p.1, if p.2.answer.isNone && s.reqOn d port p.2 then { p.2 with sent := s.ptc p.2.src } else p.2)
    sentAt := s.msgs.foldl (fun t m => if s.msgOn d port m.2 then Tab.put t m.1 (s.ptc (s.msgEnds m.2).1) else t) s.sentAt }

/-- Each die learns which dies no route reaches from it (R216); the pod master's hub declares lost those that no route from its
package reaches (R246). -/
def State.reroute (s : State) : State :=
  let s := s.allDies.foldl (fun s a =>
    let cut := s.allDies.filter fun b => a ≠ b && s.podDies a b && (s.route a b).isNone
    s.modDie a fun x => { x with cutOff := cut }) s
  (s.allDies.filter fun b => diePkg b ≠ s.timeMaster && s.peers s.timeMaster (diePkg b) && (List.range 8).all fun i => (s.route (8 * s.timeMaster + i) b).isNone).foldl
    State.declareLost s

/-- LINK_DOWN (R216), once the link has failed: both its ends are down, and what stood on it on the LS channel may be lost. -/
def State.linkDown (s : State) (d port : Nat) : State :=
  if 7 ≤ port ∨ !s.linkFails d port ∨ !(s.die d).portUp port then s
  else
    let s := ((s.loseFlits d port).resend d port).modDie d fun x => { x with linkState := Tab.put x.linkState port 2 }
    match (if port < 6 then s.neighbour d port else none) with
    | none => s
    | some e =>
      let s := (s.modDie e fun x => { x with linkState := Tab.put x.linkState (Nat.xor port 1) 2 }).reroute
      [diePkg d, diePkg e].foldl (fun s p =>
        if s.pkgCut p then s.modPkg p fun x => { x with linksDownAt := some (x.linksDownAt.getD (s.hubPtc s.timeMaster)) } else s) s

/-! ## Time (R22, R234, R236) -/

/-- The most by which one hub leads another: what PTC_SKEW leaves beside the dies' own leads (R22). -/
def hubLead : Nat := Config.podNs - Config.pkgNs

/-- TIME_SYNC_EXCHANGE: the die's copy is slewed towards its hub's counter, within PTC_SKEW.PKG_NS of it (log 9), and is
never stepped. Between hubs, a hub is slewed towards the pod master's likewise. -/
def State.timeSync (s : State) (d : Nat) (lead : TimeLead) : State :=
  let x := s.die d
  let p := diePkg d
  match lead with
  | .hub n =>
    if p = s.timeMaster ∨ !s.peers s.timeMaster p ∨ (s.route (8 * s.timeMaster) (8 * p)).isNone then s
    else s.modPkg p fun q => { q with hubFrom := slewed q.hubFrom q.hubOff (s.ns - q.hubSlewAt), hubOff := min n hubLead, hubSlewAt := s.ns
                                      hubFloor := s.hubPtc p }
  | .die n =>
    if x.ptcStop.isSome ∨ s.ptc d < x.lastSync + 65536 ∨ d ∈ s.lost ∨ !x.portUp 6 then s
    else (s.setDie d { x with ptcFrom := slewed x.ptcFrom x.ptcOff (s.ns - x.ptcSlewAt), ptcOff := min n Config.pkgNs, ptcSlewAt := s.ns
                              ptcFloor := s.ptc d, lastSync := s.ptc d }).modPkg p
      fun q => { q with syncReply := Tab.put q.syncReply (dieNum d) (s.hubPtc p) }

/-- TIME_REFERENCE_FAIL: the copy stops, and every port is degraded. -/
def State.timeFail (s : State) (d : Nat) : State :=
  let x := s.die d
  if x.ptcStop.isSome then s
  else s.setDie d { x with ptcStop := some (s.ptc d)
                           linkState := (List.range 7).foldl (fun t p => if Tab.get 0 t p = 0 then Tab.put t p 1 else t) x.linkState }

/-- Every deadline of a die that its PTC has reached takes effect: requests, collectives, RESHARD passes, pre-emption and
cancel limits, and aging (R235, R236). -/
def State.meetDeadlines (s : State) (d : Nat) : State :=
  let s := (s.reqs.filter fun p => p.2.src = d).foldl (fun s p => s.deadlinePasses p.1) s
  let s := (Tab.keys (s.die d).colls).foldl (fun s c =>
    let j := c / 65536
    let i := c % 65536
    (((s.forwardColl d j i).rootFinish d j i).bcastDeadline d j i).collTimeout d j i) s
  let s := (Tab.keys (s.die d).jobs).foldl (fun s j => s.slackExpiry d j) s
  let s := (dieTiles d).foldl (fun s k => (s.forceSave k).cancelExpires k) s
  s.sweep d

/-- TIME_REFERENCE_RETURN: the copy steps forward to the master, and every deadline that the step passes takes effect. -/
def State.timeReturn (s : State) (d : Nat) : State :=
  let x := s.die d
  if x.ptcStop.isNone ∨ d ∈ s.lost then s
  else
    let now := max (s.ptc d) (s.hubPtc (diePkg d) + x.ptcOff)
    (s.setDie d { x with ptcStop := none, ptcFrom := x.ptcOff, ptcFloor := now, lastSync := now
                         linkState := (x.linkState.filter fun p => p.2 ≠ 1) }).meetDeadlines d

/-! ## Losing a member (R246, R247, R210) -/

/-- HUB_WATCHDOG_EXPIRY: 2 ms of the hub's PTC without a time-sync reply of a die (R236). -/
def State.watchdog (s : State) (d : Nat) : State :=
  if Tab.get 0 (s.pkg (diePkg d)).syncReply (dieNum d) + 2000000 ≤ s.hubPtc (diePkg d) then s.declareLost d else s

/-- Every die of a package is declared lost. -/
def State.losePackage (s : State) (p : Nat) : State := (List.range 8).foldl (fun s i => s.declareLost (8 * p + i)) s

/-- DIE_FAILURE: an uncorrectable failure of a die, or of a hub, which loses its package (R246). -/
def State.dieFails (s : State) (what : Failure) : State :=
  match what with
  | .die d => s.declareLost d
  | .hub p => s.losePackage p

/-- PACKAGE_LINKS_DOWN (R246). -/
def State.linksDown (s : State) (p : Nat) : State :=
  match (s.pkg p).linksDownAt with
  | some b => if s.pkgCut p ∧ b + 2000000 ≤ s.hubPtc s.timeMaster then s.losePackage p else s
  | none => s

/-- The records of a job that a die holds, in any state but complete. -/
def State.recordsOn (s : State) (d j : Nat) : List Entry :=
  let x := s.die d
  ((x.queues.flatMap fun (q : Nat × List Entry) => q.2)
  ++ (x.events.flatMap fun (q : Nat × Event) => q.2.waiters.filterMap fun w => match w with
      | .unit e _ => some e
      | .launch _ _ => none)
  ++ (x.aside.map fun (q : Nat × Parked) => q.2.entry)
  ++ (x.fwParked.filterMap fun (q : Nat × Parked) => if q.2.launch.isNone then some q.2.entry else none)
  ++ ((dieTiles d).filterMap fun k => if (s.tile k).isIdle then none else some (s.tile k).entry)).filter fun e => e.cr.job = j

/-- The job's home counts the units of a lost die as cancelled (R247). -/
def State.loseUnits (s : State) (m j : Nat) : State :=
  let rs := s.recordsOn m j
  let other (e : Entry) : Bool := e.cr.job ≠ j
  let s := s.modDie m fun x =>
    { x with queues := (x.queues.map fun (q : Nat × List Entry) => (q.1, q.2.filter other)).filter fun q => !q.2.isEmpty
             events := x.events.filter fun q => q.1 / 65536 ≠ j, aside := x.aside.filter fun q => other q.2.entry
             fwParked := x.fwParked.filter fun q => q.2.event / 65536 ≠ j }
  let s := (dieTiles m).foldl (fun s k => if s.jobOf k = j then s.modTile k fun t => { t with status := .idle, entry := {} } else s) s
  rs.foldl (fun s e => (s.modJobDie e.die j fun x => { x with unitsUsed := x.unitsUsed.filter (· ≠ e.cr.unitId) }).launchChild e.cr true) s

/-- A job whose home die is lost is cancelled: its launches complete as cancelled, those of their units that have not been
registered included, and no further unit of it is registered (R30, R247). -/
def State.loseHome (s : State) (m j : Nat) : State :=
  let es := (s.die m).levels.filter fun e => e.job = j
  let left (e : LevelEntry) : Nat :=
    ((s.job j).launches.filter fun l => e.level = 1 && l.launch = e.id).foldl (fun n l => n + (l.count - l.next)) 0
  let es := es.map fun e => { e with canc := e.canc + e.count + left e, count := 0 }
  let s := s.modDie m fun x => { x with levels := x.levels.filter fun e => e.job ≠ j }
  let s := s.setJob j { s.job j with cancelled := true, launches := [] }
  es.foldl (fun s e => s.hostDone e) s

/-- What a die does for a job that has lost member m (R247). -/
def State.jobLoses (s : State) (d m j : Nat) : State :=
  let s := s.cancelDie d (fun e => e.cr.job = j) fun key => key / 65536 = j
  if s.homeDie j = d then (s.loseUnits m j).cancelJob j
  else if s.homeDie j = m ∧ ((s.job j).dies.filter fun x => !(x ∈ s.lost)).head? = some d then s.loseHome m j
  else s

/-- The unit that issued a command at a position of tile k's order: the tile's own, or one in a frame. -/
def State.cmdUnit (s : State) (k pos : Nat) : Rec :=
  if (s.tile k).started.any fun c => c.pos = pos then (s.tile k).entry.cr
  else match s.frameOf k pos with
    | some (_, _, v, _) => v.tile.entry.cr
    | none => (s.tile k).entry.cr

/-- The unit whose command has a leg on its way to die m, where the message is one. -/
def State.legUnit (s : State) (d m : Nat) (x : Msg) : Option (Nat × Rec) :=
  match x with
  | .slab k pos die _ _ _ _ _ _ _ _ | .layImage k pos die _ _ _ _ | .layInstall k pos die _ _ _ | .passImage k pos die _ _
  | .passInstall k pos die _ _ => if tileDie k = d ∧ die = m then some (k, s.cmdUnit k pos) else none
  | _ => none

/-- The units of a die that have something outstanding to the lost member: a request, or a leg of a command (R246). -/
def State.unitsOut (s : State) (d m : Nat) : List (Nat × Rec) :=
  ((s.reqs.filter fun p => p.2.src = d && p.2.dst = m && !p.2.expired && p.2.sink ≠ .counted).map (fun p => (p.2.tile, p.2.crec))
  ++ s.msgs.filterMap fun x => s.legUnit d m x.2).eraseDups

/-- Requests outstanding from a die to the lost member end in TARGET_LOST (R246). Those of the member that wait here for
narrowings go on to their end, which nobody learns; units of it whose count was on its way here count as cancelled (R247). -/
def State.loseRequests (s : State) (d m : Nat) : State :=
  let out := s.reqs.filter fun p => p.2.src = d && p.2.dst = m && !p.2.expired
  let counts := s.reqs.filterMap fun p => match p.2.op with
    | .count cr _ => if p.2.src = m ∧ p.2.dst = d then some cr else none
    | _ => none
  let s := out.foldl (fun s p => (s.dropReq p.1).failReq p.1 p.2 Cls.targetLost) s
  let s := { s with reqs := (s.reqs.filter fun p =>
      !((p.2.src = d && p.2.dst = m) || (p.2.src = m && p.2.dst = d && p.2.acks.isEmpty))).map fun p =>
    (p.1, if p.2.src = m ∧ p.2.dst = d then { p.2 with dead := true, expired := true } else p.2) }
  counts.foldl (fun s cr => s.launchChild cr true) s

/-- One damage entry of kind 4 for each unit named (R246, R270). -/
def State.lostDamage (s : State) (d m : Nat) (units : List (Nat × Rec)) : State :=
  units.foldl (fun s u =>
    s.damage d { s.unitDamage u.1 u.2 4 Cls.targetLost with valid := 2, plain := mkPlain m 0 0, len := 2 ^ 42 }) s

/-- Blocks of a die that only sequences homed on the lost member held: one damage entry each (R210, R270). -/
def State.orphans (s : State) (d m : Nat) : State :=
  let on (h : Nat) : List Nat := (s.die h).seqs.flatMap fun (q : Nat × Seqn) =>
    if q.2.live then (s.btUsed q.2).filterMap fun b => let e := s.btEntry q.2 b; if 8 * diePkg h + e.die = d then some e.block else none else []
  if diePkg d ≠ diePkg m then s
  else
    let kept := ((List.range 8).filter fun i => !(8 * diePkg d + i ∈ s.lost)).flatMap fun i => on (8 * diePkg d + i)
    ((on m).eraseDups.filter fun b => !(b ∈ kept)).foldl (fun s b =>
      s.damage d { kind := 5, cls := Cls.targetLost, valid := 2, ptc := s.ptc d, plain := mkPlain d 2 (b * 65536), len := 65536, place := s.damagePlace (32 * d) }) s

/-- Messages of this die's commands that were on their way to the lost member end their legs (R222, R227, R330). -/
def State.loseMessages (s : State) (d m : Nat) : State :=
  s.msgs.foldl (fun s x => match x.2 with
    | .slab k pos die _ _ _ idx _ _ _ _ =>
      if tileDie k = d ∧ die = m then (s.unpost x.1).modCmd k pos fun c =>
        { c.endLeg (some (Cls.targetLost, 0)) with failed := idx / 2 ^ 20 :: c.failed } else s
    | .layImage k pos h _ slot _ _ =>
      if tileDie k = d ∧ h = m then (s.unpost x.1).modCmd k pos fun c => c.endLeg (some (Cls.targetLost, w64 slot)) else s
    | .layInstall k pos die _ slot _ =>
      if tileDie k = d ∧ die = m then (s.unpost x.1).modCmd k pos fun c => c.endLeg (some (Cls.targetLost, w64 slot)) else s
    | .passImage k pos h _ _ =>
      if tileDie k = d ∧ h = m then (s.unpost x.1).modCmd k pos fun c => c.endLeg (some (Cls.targetLost, 0)) else s
    | .passInstall k pos die _ _ =>
      if tileDie k = d ∧ die = m then (s.unpost x.1).modCmd k pos fun c => c.endLeg (some (Cls.targetLost, 0)) else s
    | .narrow die sq k _ _ _ req _ _ _ => if die = d ∧ tileDie k = m then (s.unpost x.1).ackOne die sq x.1 req else s
    | .narrowAck die sq k _ _ nid req => if die = d ∧ tileDie k = m then (s.unpost x.1).ackOne die sq nid req else s
    | _ => s) s

/-- A die applies the notice of a lost member (R246, R247, R210, R227). -/
def State.lossNotice (s : State) (d m : Nat) : State :=
  if !(m ∈ s.lost) ∨ m ∈ (s.die d).lost ∨ d ∈ s.lost then s
  else
    let s := s.modDie d fun x => { x with lost := x.lost ++ [m], logs := x.logs.filter fun l => tileDie l.1 ≠ m }
    let s := (dieTiles d).foldl (fun s k => s.modTile k fun t =>
      { t with grants := t.grants.map fun (g : Nat × Grant) => (g.1, if s.seqHome (diePkg d) g.2.handle = some m then { g.2 with lost := true } else g.2) }) s
    let units := s.unitsOut d m
    let s := ((s.loseRequests d m).loseMessages d m).lostDamage d m units
    let s := { s with revs := s.revs.map fun (r : Nat × Revocation) =>
      (r.1, { r.2 with waiting := r.2.waiting.filter fun k => tileDie k ≠ m, unsent := r.2.unsent.filter fun k => tileDie k ≠ m }) }
    let s := s.orphans d m
    let js := (s.jobs.filter fun (j : Nat × Job) => j.2.placed && m ∈ j.2.dies && d ∈ j.2.dies).map fun (j : Nat × Job) => j.1
    js.foldl (fun s j =>
      let s := match (s.jobDie d j).reshard with
        | some r => s.abortOwn d j r Cls.targetLost
        | none => s
      s.jobLoses d m j) s

/-! ## Events -/

/-- REMOTE_ACCESS_AT_HOME (R177). -/
def execRemoteAccessAtHome (src dst : Nat) (s : State) : Out := .next (s.arrive src dst false)
/-- LOGGED_REQUEST_AT_HOME (R244). -/
def execLoggedRequestAtHome (src dst : Nat) (s : State) : Out := .next (s.arrive src dst true)
/-- REMOTE_RESPONSE (R245). -/
def execRemoteResponse (id : Nat) (poisoned : Bool) (s : State) : Out := .next (s.respond id poisoned)
/-- REQUEST_DEADLINE (R245). -/
def execRequestDeadline (id : Nat) (s : State) : Out := .next (s.deadlinePasses id)
/-- SEQ_HOME_RETRY (R425). -/
def execSeqHomeRetry (id : Nat) (s : State) : Out := .next (s.retryHome id)
/-- SEQ_HOME_REFUSE (R425). -/
def execSeqHomeRefuse (id : Nat) (s : State) : Out := .next (s.refuseHome id)
/-- GRANT_NARROWING (R202). -/
def execGrantNarrowing (id : Nat) (s : State) : Out := .next (s.narrowArrives id)
/-- NARROWING_ACK (R202). -/
def execNarrowingAck (id : Nat) (s : State) : Out := .next (s.narrowAckArrives id)
/-- PTE_CHANGE (R240). -/
def execPteChange (job va : Nat) (entry : W64) (s : State) : Out := .next (s.pteChange job va entry)
/-- REVOCATION_RECEIVE (R240). -/
def execRevocationReceive (id tile : Nat) (s : State) : Out := .next (s.revocationArrives id tile)
/-- REVOCATION_ACK (R240). -/
def execRevocationAck (id tile : Nat) (s : State) : Out := .next (s.revocationAck id tile)
/-- REVOCATION_COMPLETE (R240). -/
def execRevocationComplete (id : Nat) (s : State) : Out := .next (s.revocationDone id)
/-- MIGRATION_COMPLETE (R241). -/
def execMigrationComplete (job va target : Nat) (s : State) : Out := .next (s.migrate job va target)
/-- FLIT_RETRANSMIT_REQUEST (R215). -/
def execFlitRetransmitRequest (die port : Nat) (flit : Flit) (s : State) : Out := .next (s.retransmit die port flit.channel flit.num)
/-- LINK_DOWN (R216). -/
def execLinkDown (die port : Nat) (s : State) : Out := .next (s.linkDown die port)
/-- TIME_SYNC_EXCHANGE (R234). -/
def execTimeSyncExchange (die : Nat) (lead : TimeLead) (s : State) : Out := .next (s.timeSync die lead)
/-- TIME_REFERENCE_FAIL (R236). -/
def execTimeReferenceFail (die : Nat) (s : State) : Out := .next (s.timeFail die)
/-- TIME_REFERENCE_RETURN (R236). -/
def execTimeReferenceReturn (die : Nat) (s : State) : Out := .next (s.timeReturn die)
/-- HUB_WATCHDOG_EXPIRY (R236). -/
def execHubWatchdogExpiry (die : Nat) (s : State) : Out := .next (s.watchdog die)
/-- PACKAGE_LINKS_DOWN (R246). -/
def execPackageLinksDown (pkg : Nat) (s : State) : Out := .next (s.linksDown pkg)
/-- LOSS_NOTICE (R246). -/
def execLossNotice (die member : Nat) (s : State) : Out := .next (s.lossNotice die member)
/-- DIE_FAILURE (R246). -/
def execDieFailure (what : Failure) (s : State) : Out := .next (s.dieFails what)

end Sys2Proof.Machine
end

