-- ==== Sys2Proof/Machine/System.lean ====
section
/-! DEFINITION. Work, regions, traps, control registers and translation: SPAWN to YIELD, REGION, SEGEND, TRAP, ERET,
CTLR, CTLW, BUFPH, TLBI, CYC, PREF and DISCARD. -/

namespace Sys2Proof.Machine

/-- Does nothing (R348). -/
def execNop (s : State) : Out := .next (s.retire s.cur)

/-! ## Work -/

/-- The record at an address in memory, as the CT reads it (R327, R354). -/
def State.recordAt (s : State) (va : W64) : Except AFault Rec :=
  match s.readVa s.focus va 64 with
  | .error e => .error e
  | .ok bs => .ok (Rec.ofBytes (s.forward s.focus va bs))

/-- The check of a unit's record: its JOB must be the unit's own (R33, R354). -/
def State.checkOwn (s : State) (r : Rec) : RecCheck :=
  s.checkRec (diePkg (tileDie s.focus)) r (r.job = s.jobOf s.focus)

/-- Registers g[b] units from the template at g[a]; g[d] := the launch id (R354). -/
def execSpawn (d a b : BitVec 6) (s : State) : Out :=
  let va := s.g a
  let n := (s.g b).toNat
  s.commitThen fun s =>
    let k := s.focus
    if va.toNat % 64 ≠ 0 then .next (s.fault k Cls.align va)
    else match s.recordAt va with
      | .error (c, x) => .next (s.fault k c x)
      | .ok r =>
        let pkg := diePkg (tileDie k)
        if n = 0 ∨ 65536 < n ∨ Config.unitIds * (s.maskDies pkg { r with job := s.jobOf k }).length < n then .next (s.illegal k)
        else match s.checkOwn r with
          | .illegal => .next (s.illegal k)
          | .priv => .next (s.fault k Cls.priv va)
          | .ok => s.drained fun s =>
            .next (s.ask k (s.homeDie r.job) (.spawn r n (tileDie k)) (.g d.toNat 8 false) va)

/-- Counts a join counter down; the last one registers the record at g[b] (R327). -/
def execJoin (d a b : BitVec 6) (s : State) : Out :=
  let ca := s.g a
  let ra := s.g b
  s.commitThen fun s =>
    let k := s.focus
    if ca.toNat % 8 ≠ 0 then .next (s.fault k Cls.align ca)
    else if ra.toNat % 64 ≠ 0 then .next (s.fault k Cls.align ra)
    else match s.recordAt ra with
      | .error (c, x) => .next (s.fault k c x)
      | .ok r =>
        match s.checkOwn r with
        | .illegal => .next (s.illegal k)
        | .priv => .next (s.fault k Cls.priv ra)
        | .ok =>
          match s.atomicCheck ca 8 with
          | .error (c, x) => .next (s.fault k c x)
          | .ok acc => s.drained fun s =>
            if acc.fallow then s.setG d.toNat 2
            else
              let old := match s.resolve (tileDie k) acc.plain 8 with
                | some q => readLe s q 8
                | none => 0
              if plainDie acc.plain = tileDie k ∧ s.homeDie r.job = tileDie k ∧ old = 1 ∧ !s.joinRoom k r then .next (s.stallIssue k .levelRoom)
              else .next (s.ask k (plainDie acc.plain) (.amo 13 acc.plain 8 0 0 s.cur.fpc) (.joinCount d.toNat r) ca)

/-- Every engine command of the unit has completed. -/
def Tile.enginesDone (t : Tile) : Bool := t.vs.isNone && t.started.isEmpty && !t.queued

/-- The unit leaves its CT: it drains, and its completion follows (R77, R28). -/
def State.leave (s : State) (drop : Bool) : State :=
  let k := s.focus
  let t := (s.cur).segIssue (s.dcc (tileDie k))
  let t := { t with status := .draining, pfx := none, wait := none, cutM := none, cutC := none, cutV := none, phase := none
                    order := t.order + 1, vq := if drop then [] else t.vq, mq := if drop then [] else t.mq
                    cq := if drop then [] else t.cq }
  -- a started table keeps its place in a token's list (R77)
  let t := if drop then t.dropTakers (s.dcc (tileDie k)) fun w => match w with
    | .vs _ => false
    | _ => true else t
  let s := s.setTile k t
  if t.cancelAt.isSome then s.takeCut k .cancel t.order t.pc t.clause else s.endUnit k

/-- EXIT waits for the journal, and, where no command is left to drain, for the responses of its posted requests
(R77, R313, R358). -/
def State.exitWith (s : State) (drop : Bool) : Out :=
  if !s.cur.journal.isEmpty then .next (s.stallIssue s.focus .commit)
  else if s.cur.enginesDone then s.drained fun s => .next (s.leave drop)
  else .next (s.leave drop)

/-- Ends the unit after its commands have drained (R313). -/
def execExit (s : State) : Out := s.exitWith false
/-- Ends the unit, discarding its queued commands (R313). -/
def execExitD (s : State) : Out := s.exitWith true

/-- Yields to a pending pre-emption or cancel (R55, R407). -/
def execYield (s : State) : Out :=
  let k := s.focus
  if s.cur.inh then .next (s.illegal k)
  else s.commitThen fun s => s.drained fun s =>
    let t := s.cur
    if t.cancelAt.isSome then .next (s.takeCut k .cancel t.order t.pc t.clause)
    else if t.preemptAt.isNone then .next (s.retire t)
    else if !t.enginesDone then .next (s.stallIssue k .drain)
    else
      let (s, e) := s.yieldSave k
      .next (s.enqueue (tileDie k) e)

/-- The level selector of CANCEL and CMPL: level, id, die; none where it is refused (R293). -/
def levelSel (v : W64) : Option (Nat × Nat × Nat) :=
  let lv := fld v 16 3
  let id := fld v 0 16
  let die := fld v 24 3
  if fld v 27 37 ≠ 0 ∨ fld v 19 5 ≠ 0 ∨ 4 < lv ∨ (1 ≤ lv ∧ lv ≤ 3 ∧ die ≠ 0) ∨ (lv = 0 ∧ 2 ^ 13 ≤ id) then none else some (lv, id, die)

/-- Cancels a unit, a launch, a graph or a phase; g[d] := 0 where something was found, else 1 (R293, R30). -/
def execCancel (d a : BitVec 6) (s : State) : Out :=
  let v := s.g a
  s.commitThen fun s =>
    let k := s.focus
    match levelSel v with
    | none => .next (s.illegal k)
    | some (lv, id, die) =>
      let home := if lv = 0 then 8 * diePkg (tileDie k) + die else s.homeDie (s.jobOf k)
      if lv = 4 then .next (s.fault k Cls.priv v)
      else .next (s.ask k home (.cancel lv id) (.g d.toNat 8 false) v)

/-- Closes a graph or a phase and gives it its completion event (R298). -/
def execCmpl (d a b : BitVec 6) (s : State) : Out :=
  let v := s.g a
  let ev := s.g b
  s.commitThen fun s =>
    let k := s.focus
    let j := s.jobOf k
    match levelSel v with
    | none => .next (s.illegal k)
    | some (lv, id, _) =>
      if lv = 4 then .next (s.fault k Cls.priv v)
      else if lv < 2 ∨ id = 0 ∨ fld ev 32 32 ≠ 0 ∨ fld ev 19 12 ≠ 0 then .next (s.illegal k)
      else s.drained fun s =>
        let e := if bit ev 31 then some (8 * diePkg (tileDie k) + fld ev 16 3, fld ev 0 16) else none
        .next (s.ask k (s.homeDie j) (.cmpl lv id e) (.g d.toNat 8 false) v)

/-! ## Regions and segments -/

/-- Sets the mode, the slack and CHK (R75, R351). -/
def execRegion (m : BitVec 2) (c : BitVec 1) (sl : BitVec 12) (s : State) : Out :=
  let k := s.focus
  let t := s.cur
  if m = 3 ∨ (c = 1 ∧ m ≠ 0) ∨ t.pfx.getD 0 ≠ 0 then .next (s.illegal k)
  else if m.toNat ≠ t.mode ∧ !t.enginesDone then .next (s.stallIssue k .allDone)
  else s.commitThen fun s =>
    let s := s.retire s.cur
    .next (s.modTile k fun t =>
      { t with regionState := w64 (m.toNat + 4 * c.toNat + 65536 * sl.toNat), mbaseAt := none, refPos := t.order, refPending := false
               stampRef := s.dcc (tileDie k), seg := if m = 2 then some { void := t.inh } else none })

/-- A fault that stands after the word in hand: the word ends with the effect `f`, and PC is the next one (R252, R265,
R367). -/
def State.raiseAfter (s : State) (k : Nat) (i : TrapInfo) (f : Tile → Tile := fun t => t) : State :=
  let s := s.modTile k fun t => f (t.retire (s.dcc (tileDie k)))
  s.raiseAt k i (s.tile k).order (s.tile k).pc (s.tile k).clause

/-- Ends a segment: its cycles and signature are compared with the SEGS entry at the address, which it reads as plain loads
(R264, R265, R353). A CRC-32C is the inverse of the register that runs over the words (log 40). -/
def execSegend (a : BitVec 6) (i : BitVec 13) (s : State) : Out :=
  let ea := s.g a + s.cur.imm i
  s.commitThen fun s =>
    let k := s.focus
    let t := s.cur
    let dcc := s.dcc (tileDie k)
    let restart (s : State) : State := s.modTile k fun t => { t with seg := some { void := t.inh } }
    match (if t.mode = 2 then (t.segIssue dcc).seg else none) with
    | none => .next (s.illegal k)
    | some g =>
      if g.void then .next (restart (s.retire t))
      else if ea.toNat % 8 ≠ 0 then .next (s.fault k Cls.align ea)
      else match s.loadImage k ea 24 true with
        | .error x => s.imageStop x
        | .ok bs =>
          let cycles := dcc - g.start.getD dcc
          let want := bytesAt bs 0xC 4
          let segid := bytesAt bs 0x14 2
          if (cycles - want) + (want - cycles) > t.slack ∨ (~~~g.crc).toNat ≠ bytesAt bs 0x10 4 then
            let s := s.damage (tileDie k)
              { s.unitDamage k t.entry.cr 3 Cls.segmentMismatch with valid := 12, tag := w64 (bytesAt bs 0 8), segid := segid }
            -- the handler runs within the next segment, and the cut marks it void
            .next (s.raiseAfter k { cls := Cls.segmentMismatch, faddr := ea, objk := 9, obj := segid % 256 } fun t => { t with seg := some {} })
          else .next (restart (s.retire t))

/-! ## Traps -/

/-- Raises SOFTWARE; PC is the next word (R367). -/
def execTrap (c : BitVec 16) (s : State) : Out :=
  s.commitThen fun s => .next (s.raiseAfter s.focus { cls := Cls.software, faddr := c.setWidth 64 })

/-- Every engine command that the handler issued has completed (R259 step 1). -/
def Tile.handlerDone (t : Tile) : Bool := !t.ahead && t.vs.isNone && !(t.started.any fun c => t.handlerPos ≤ c.pos)

/-- Returns from the handler (R259, R240, R307). -/
def execEret (s : State) : Out :=
  let k := s.focus
  let t := s.cur
  let dcc := s.dcc (tileDie k)
  if !t.inh then .next (s.illegal k)
  else if !t.handlerDone then .next (s.stallIssue k .eret)
  else match s.readRecord k with
    | none => .next (s.fault k Cls.extent (s.recordVa k))
    | some bs =>
      let cl := recWord bs 0x28 8
      if 32 ≤ cl ∨ 8 < cl % 16 then .next (s.illegal k)
      else
        let pc := w64 (recWord bs 0 8)
        -- the handler has run within the open segment, which is void (R264)
        let u := (t.retire dcc).eretRestore bs
        let u := ({ u with inh := false, pc := pc, seg := u.seg.map fun g => { g with void := true } } : Tile).eretReenter dcc bs
        match s.retranslate k with
        | .migrating _ => .next (s.stall k .eret none)
        | .fault va | .unmapped va =>
          .next ((s.setTile k u).raiseAt k { cls := Cls.extent, faddr := w64 va } u.order u.pc u.clause)
        | .ok es =>
          let v := { u with exts := es }
          let s := s.setTile k v
          .next (if v.cancelAt.isSome then s.takeCut k .cancel v.order v.pc v.clause else s)

/-! ## Control registers (R301) -/

def capCoord (p : Pkg) : W64 := w64 (p.px % 8 + 256 * (p.py % 8) + 65536 * (p.pz % 16))

/-- The capability registers 0x100 to 0x113 (R21 to R24). -/
def State.capReg (s : State) (k n : Nat) : W64 :=
  match n with
  | 0 => 8
  | 1 => 1
  | 2 => 8
  | 3 => 32
  | 4 => 0x1000000000
  | 5 => 0x400000
  | 6 => 512
  | 7 => 48
  | 8 => 16384
  | 9 => 256
  | 10 => 256
  | 11 => 8192
  | 12 => 256
  | 13 => 64
  | 14 => 32
  | 15 => 32
  | 16 => 1024
  | 17 => 0x0000002800000004
  | 18 => s.capSelf k
  | 19 => capCoord (s.pkg (diePkg (tileDie k)))
  | _ => 0

/-- LINK_STATE of a die (R216). -/
def State.linkWord (s : State) (d : Nat) : W64 :=
  w64 (((List.range 7).map fun p =>
    (if p < 6 ∧ (s.neighbour d p).isNone then 3 else (Tab.get 0 (s.die d).linkState p).toNat) * 4 ^ p).sum)
/-- PWR_STATE of a package (R278). -/
def Pkg.pwrWord (p : Pkg) : W64 := w64 (p.pwrStr % 256 + 256 * (p.pwrTemp % 256) + 65536 * (p.pwrCap % 65536) + 2 ^ 32 * (p.pwrAvg % 65536))

/-- The value that CTLR reads (R301). CLAUSE counts the CTLR as fetched (R89). -/
def State.ctlValue (s : State) (k n : Nat) : W64 :=
  let t := s.tile k
  let d := tileDie k
  let x := s.die d
  let j := s.jobRegs k
  match n with
  | 0x020 => t.fpc
  | 0x021 => (Tab.get { root := 0, fid := 0, job := 0, tagBase := 0, live := false } x.asids t.asid).tagBase
  | 0x030 => j.trapVec
  | 0x031 => j.trapArea
  | 0x032 => j.dmap
  | 0x040 => x.ageLimit
  | 0x041 => x.preemptLimit
  | 0x042 => w64 (j.quota + 65536 * s.held d (s.jobOf k))
  | 0x043 => x.evovfBase
  | 0x044 => x.evovfSize
  | 0x060 => t.regionState
  | 0x061 => t.waitCap
  | 0x062 => (clauseStep t.clause).setWidth 64
  | 0x063 => t.bufph
  | 0x064 => w64 ((if t.inh then 1 else 0) + (if t.phase.isSome then 2 else 0))
  | 0x070 => x.cimGate
  | 0x080 => x.reqTimeout
  | 0x081 => j.barRange
  | 0x082 => s.linkWord (tileDie k)
  | 0x083 => j.layArea
  | 0x090 => (s.pkg (diePkg d)).pwrWord
  | _ => if 0x100 ≤ n ∧ n < 0x114 then s.capReg k (n - 0x100) else 0

/-- g[d] := the control register (R302). -/
def execCtlr (d : BitVec 6) (n : BitVec 13) (s : State) : Out :=
  s.commitThen fun s => s.setG d.toNat (s.ctlValue s.focus n.toNat)

/-- What a CTLW by a unit does to a register number (R301). -/
inductive CtlwKind where
  | fpc | waitCap | bufph | priv | illegal
  deriving DecidableEq, Repr

def ctlwKind (n : Nat) : CtlwKind :=
  match n with
  | 0x020 => .fpc
  | 0x061 => .waitCap
  | 0x063 => .bufph
  | 0x021 | 0x030 | 0x031 | 0x032 | 0x040 | 0x041 | 0x042 | 0x043 | 0x044 | 0x070 | 0x080 | 0x081 | 0x083 | 0x090 => .priv
  | _ => .illegal

/-- The writable bits of FPC, WAIT_CAP and BUFPH. -/
def fpcMask : W64 := 0x00FF1F3F#64
def waitCapMask : W64 := 0x0FFFFFFFFFFFFFFF#64
def bufphMask : W64 := 0x033FFFFF#64

/-- The halves of a BUFPH value fit the slice and do not overlap (R266). -/
def bufphOk (v : W64) : Bool :=
  let len := phaseLen v
  let i0 := phaseIn v false
  let i1 := phaseIn v true
  len ≠ 0 && i0 + len ≤ 64 && i1 + len ≤ 64 && (i0 + len ≤ i1 || i1 + len ≤ i0)

/-- Every line that the command writes lies within the current half. -/
def Cmd.fills (c : Cmd) (r : Nat × Nat) : Bool :=
  c.wr.all fun x => match x with
    | .lines lo hi => decide (r.1 ≤ lo) && decide (hi ≤ r.2)
    | _ => false

/-- A swap: the phase's commit point (R266, R267). -/
def State.swapPhase (s : State) (v : W64) : Out :=
  let k := s.focus
  if !bufphOk v then .next (s.illegal k)
  else if !s.cur.enginesDone then .next (s.stallIssue k .allDone)
  else
    let t := s.cur
    let ph : Phase :=
      { g := (List.range 8).map fun i => t.gReg (i + 1), q := t.q, pc := t.pc + 4
        refill := ((t.loads.filter fun c => c.fills (phaseLines k v)).take 4).reverse, inh := t.inh }
    .next (s.retire { t with bufph := v &&& bufphMask, phase := some ph })

/-- Phases are closed (R267). -/
def State.closePhase (s : State) (v : W64) : Out := .next (s.retire { s.cur with bufph := v &&& bufphMask, phase := none })

/-- A write to BUFPH (R266, R267). -/
def State.writeBufph (s : State) (v : W64) : Out := if bit v 24 then s.swapPhase v else s.closePhase v

/-- The control register := g[a] (R303). -/
def execCtlw (a : BitVec 6) (n : BitVec 13) (s : State) : Out :=
  let v := s.g a
  s.commitThen fun s =>
    match ctlwKind n.toNat with
    | .fpc => .next (s.retire { s.cur with fpc := v &&& fpcMask })
    | .waitCap => .next (s.retire { s.cur with waitCap := v &&& waitCapMask })
    | .bufph => s.writeBufph v
    | .priv => .next (s.fault s.focus Cls.priv)
    | .illegal => .next (s.illegal s.focus)

/-- BUFPH := g[a] with EN set (R267). -/
def execBufphSwap (a : BitVec 6) (s : State) : Out :=
  let v := s.g a
  s.commitThen fun s => s.writeBufph v
/-- BUFPH := g[a] with EN clear (R267). -/
def execBufphClose (a : BitVec 6) (s : State) : Out :=
  let v := s.g a
  s.commitThen fun s => s.writeBufph v

/-- g[d] := the die's DCC, or its PTC (R304). -/
def execCyc (d : BitVec 6) (c : BitVec 13) (s : State) : Out :=
  s.commitThen fun s =>
    let die := tileDie s.focus
    match c.toNat with
    | 0 => s.setG d.toNat (w64 (s.dcc die))
    | 1 => s.setG d.toNat (w64 (s.ptc die))
    | _ => .next (s.illegal s.focus)

/-! ## Translation -/

/-- A unit's TLBI traps PRIV (R363). -/
def execTlbi (_a : BitVec 6) (c : BitVec 3) (s : State) : Out :=
  if 3 ≤ c.toNat then .next (s.illegal s.focus) else .next (s.fault s.focus Cls.priv)

/-- The die's translation agent caches the leaves of a range (R349). -/
def execPref (a b : BitVec 6) (s : State) : Out :=
  let base := (s.g a).toNat
  let len := min (s.g b).toNat (2 ^ 30)
  s.commitThen fun s =>
    let k := s.focus
    let pages := if len = 0 then 0 else (base + len - 1) / 65536 - base / 65536 + 1
    let s := (List.range pages).foldl (fun s i =>
      let va := (base / 65536 + i) * 65536
      if va < 2 ^ 48 then s.cacheWalk (tileDie k) (s.tile k).asid va else s) s
    .next (s.retire s.cur)

/-- The first byte at or above `va` that no W extent of the table covers. -/
def firstGap (es : List Extent) : Nat → Nat → Nat
  | 0, va => va
  | fuel + 1, va =>
    match es.find? fun e => e.w && e.covers va 1 with
    | some e => firstGap es fuel (e.vbase + e.len)
    | none => va

/-- The first byte of a range that lies in a pinned page of the job, or in no W extent of the table (R256, R305). -/
def State.discardFails (s : State) (k base len : Nat) : Option Nat :=
  let t := s.tile k
  let pinned := ((s.pinned (s.jobOf k)).filter fun r => r.1 < base + len && base < r.1 + r.2).map fun r => max base r.1
  let bad := pinned.foldl min (firstGap t.exts (t.exts.length + 1) base)
  if bad < base + len then some bad else none

/-- Makes the pages of a range fallow, and waits for their revocation (R242, R305). -/
def execDiscard (a b : BitVec 6) (s : State) : Out :=
  let base := (s.g a).toNat
  let len := (s.g b).toNat
  let k := s.focus
  if base % 65536 ≠ 0 then .next (s.fault k Cls.align (s.g a))
  else if len % 65536 ≠ 0 then .next (s.fault k Cls.align (s.g b))
  else s.commitThen fun s => s.drained fun s =>
    if len = 0 then .next (s.retire s.cur)
    else match s.discardFails k base len with
      | some va => .next (s.fault k Cls.extent (w64 va))
      | none =>
        let (s, id) := s.discard k (s.jobOf k) base len
        .next (s.stall k (.discard id) none true)

end Sys2Proof.Machine
end

