-- ==== Sys2Proof/Machine/Platform.lean ====
section
/-! DEFINITION. The platform: the scrubber (R192, R270), the host port's poisoned writes (R271), function-level reset
(R250, R419), package reset, updates and attestation (R273 to R277), and the clocks under droop, power and heat (R18,
R278, R279). -/

namespace Sys2Proof.Machine

/-! ## The scrubber (R192, R270) -/

/-- A sector of a die's HBM or of its scratchpads, by its number in the die's plain addresses; the numbers after those name the
sectors of the weight sets, 1,024 for each tile (log 94). -/
def sectorKey (d sector : Nat) : Nat := mkPlain d 0 (256 * sector) / 256

/-- The job that the owner of a page holds on a die: 0 where none does. -/
def State.ownerJob (s : State) (d page : Nat) : Nat :=
  match Tab.find? s.owners page with
  | some f => ((List.find? (fun (j : Nat × Job) => j.2.placed && j.2.fid = f && d ∈ j.2.dies) s.jobs).map fun (j : Nat × Job) => j.1).getD 0
  | none => 0

/-- The number of the first sector of a die's weight sets. -/
def setSectors : Nat := 2 ^ 32 + 2 ^ 19

/-- A sector is read: its version is kept for the write-back, or it cannot be corrected and is reported (R192, R270). A sector
of a weight set is not scrubbed: it fails where an MMUL reads it (R345). -/
def State.scrubRead (s : State) (d sector : Nat) (ok : Bool) : State :=
  let key := sectorKey d sector
  if setSectors ≤ sector then
    let n := sector - setSectors
    if ok ∨ 2 ^ 15 ≤ n then s
    else s.modTile (32 * d + n / 1024) fun t => { t with badB := n % 1024 :: t.badB.filter (· ≠ n % 1024) }
  else if ok then s.modDie d fun x => { x with scrubs := Tab.put x.scrubs key (Tab.get 0 x.versions key) }
  else
    let s := s.modDie d fun x => { x with badSectors := key :: x.badSectors.filter (· ≠ key) }
    let p := 256 * key
    let j := s.ownerJob d (p / 2 ^ 21)
    s.damage d { kind := 2, cls := Cls.uncorrectable, valid := 2, job := j, asid := (s.job j).asid, ptc := s.ptc d, plain := p, len := 256
                 place := s.damagePlace (32 * d) }

/-- The write-back restores the stored value, or is dropped and the sector read again (R192). -/
def State.scrubBack (s : State) (d sector : Nat) : State :=
  let key := sectorKey d sector
  s.modDie d fun x =>
    match Tab.find? x.scrubs key with
    | none => x
    | some v =>
      let now := Tab.get 0 x.versions key
      if v = now then { x with scrubs := Tab.erase x.scrubs key } else { x with scrubs := Tab.put x.scrubs key now }

/-! ## Function-level reset (R250, R419) -/

/-- The tiles of a function's quads (R248). -/
def State.quadTiles (s : State) (p f : Nat) : List Nat :=
  ((pkgDies p).flatMap dieTiles).filter fun k => bit (s.func p f).quads (8 * dieNum (tileDie k) + tileNum k / 4)

/-- A tile stops at a cut that no handler and no completion action follows (R250 step 2). -/
def State.flrTile (s : State) (k : Nat) : State :=
  let t := s.tile k
  match t.status with
  | .running | .draining => s.takeCut k .flr t.order t.instrPc t.instrClause
  | .cutting _ => s.setTile k { t with status := .cutting .flr }
  | .retiring id =>
    let s := { s with reqs := s.reqs.map fun (r : Nat × Request) => if r.1 = id then (r.1, { r.2 with dead := true }) else r }
    s.setTile k { t with status := .cutting .flr }
  | .idle => s

/-- Steps 1 and 2 of R250. -/
def State.flrStart (s : State) (p f : Nat) : State :=
  if (s.func p f).flrb ∨ Config.functions ≤ f then s
  else
    let s := s.modFunc p f fun x => { x with flrb := true }
    (s.quadTiles p f).foldl State.flrTile s

/-- Steps 3 and 4 of R250 are over: every command of the tile has ended, every request of the function has ended or passed
its deadline. -/
def State.flrDrained (s : State) (p f : Nat) : Bool :=
  (s.quadTiles p f).all (fun k =>
    let t := s.tile k
    t.isIdle || (t.vs.isNone && t.started.isEmpty && t.storeQ.isEmpty && t.posted.isEmpty))
  && !s.reqs.any fun r => r.2.fid = f && diePkg r.2.src = p && !r.2.expired

/-- Jobs of a function with a die in a package. -/
def State.jobsOf (s : State) (p f : Nat) : List Nat :=
  (s.jobs.filter fun (j : Nat × Job) => j.2.fid = f && j.2.dies.any fun d => diePkg d = p).map fun (j : Nat × Job) => j.1

/-- The job that a message belongs to, where it names one. -/
def Msg.job? : Msg → Option Nat
  | .slab _ _ _ _ job _ _ _ _ _ _ => some job
  | .layImage _ _ _ job _ _ _ | .layInstall _ _ _ job _ _ | .passImage _ _ _ job _ | .passInstall _ _ _ job _ => some job
  | .ready job _ _ _ _ _ _ | .report job _ _ _ | .commit job _ _ | .abort job _ _ _ _ _ => some job
  | .part job _ _ _ _ _ _ | .result job _ _ _ _ _ => some job
  | .narrow _ _ _ _ _ _ _ _ _ _ | .narrowAck _ _ _ _ _ _ _ => none

/-- The tile that a narrowing concerns. -/
def Msg.tile? : Msg → Option Nat
  | .narrow _ _ tile _ _ _ _ _ _ _ | .narrowAck _ _ tile _ _ _ _ => some tile
  | _ => none

/-- A barrier of the die that a job's BAR_RANGE holds (R223). -/
def inRange (r : W64) (b : Nat) : Bool := fld r 0 8 ≤ b && b < fld r 0 8 + fld r 8 8

/-- What a die frees of a function's jobs (R250 step 5): function f of package p. -/
def State.flrDie (s : State) (p f : Nat) (js ts : List Nat) (d : Nat) : State :=
  let s := ((s.die d).seqs.filter fun (q : Nat × Seqn) => q.2.live && q.2.job ∈ js).foldl (fun s q => s.freeSeq d q.1) s
  s.modDie d fun x =>
    -- a function is one of its package: elsewhere its ASIDs are those of its jobs
    let own (a : AsidEntry) : Bool := a.fid = f && (diePkg d = p || a.job ∈ js)
    let mine := Tab.keys (x.asids.filter fun (a : Nat × AsidEntry) => own a.2)
    let gone (r : Rec) : Bool := r.job ∈ js
    { x with
      asids := x.asids.filter fun (a : Nat × AsidEntry) => !own a.2
      cache := x.cache.filter fun c => !(c.asid ∈ mine)
      split := x.split.filter fun c => !(c.asid ∈ mine)
      logs := x.logs.filter fun (l : Nat × OutLog) => !(l.1 ∈ ts)
      events := x.events.filter fun (e : Nat × Event) => !(e.1 / 65536 ∈ js)
      pending := x.pending.filter fun g => !(g.job ∈ js)
      bars := x.bars.filter fun (b : Nat × Barrier) => !(js.any fun j => inRange (Tab.get {} x.jobs j).barRange b.1)
      colls := x.colls.filter fun (c : Nat × CollSlot) => !(c.1 / 65536 ∈ js)
      levels := x.levels.filter fun e => !(e.job ∈ js)
      queues := (x.queues.map fun (q : Nat × List Entry) => (q.1, q.2.filter fun e => !gone e.cr)).filter fun (q : Nat × List Entry) => !q.2.isEmpty
      aside := x.aside.filter fun (q : Nat × Parked) => !gone q.2.entry.cr
      fwParked := x.fwParked.filter fun (q : Nat × Parked) => !(if q.2.launch.isSome then q.2.event / 65536 ∈ js else gone q.2.entry.cr)
      jobs := x.jobs.map fun (j : Nat × JobDie) =>
        if j.1 ∈ js then
          (j.1, { j.2 with saved := [], unitsUsed := [], slots := [], passes := none, reshard := none, lastT0 := none, passNext := [] })
        else j }

/-- A tile and its scratchpad slice read zero (R250 step 6). What outlives a unit on the tile stays. -/
def State.zeroTile (s : State) (k : Nat) : State :=
  let t := s.tile k
  let dcc := s.dcc (tileDie k)
  (s.setTile k { order := t.order, atag := t.atag, grantAge := t.grantAge, cim0 := { idleSince := dcc }, cim1 := { idleSince := dcc }
                 rows := (List.range 128).map fun i => (i, { floor := 0 }), afloor := (List.range 32).map fun i => (i, 0)
                 bfmt0 := 0, bfmt1 := 0 }).putSlice k []

/-- The extents and grants that a function's units hold on a tile are cleared (R250 step 5). -/
def State.clearExtents (s : State) (js : List Nat) (k : Nat) : State :=
  if !(s.tile k).isIdle && s.jobOf k ∈ js then s.modTile k fun t => { t with exts := [], pins := [], grants := [] } else s

/-- The function's window at step 7 (R419). -/
def Func.flrDone (x : Func) : Func :=
  { x with flrb := false, cqBase := 0, cqCtl := 0, cqHead := 0, cqN := 0, held := [], slots := [] }

/-! ## Attestation (R277) -/

/-- The certificates of the identity key and of the alias key (R276). -/
def Pkg.certs (x : Pkg) : List Byte × List Byte := (Config.identityCert x.identKey, Config.aliasCert x.identKey x.sealKey)

/-- The contents of measurement `index` (R277). -/
def State.measurement (s : State) (p f index : Nat) : Option (List Nat) :=
  let x := s.pkg p
  match index with
  | 1 => some [x.meas1]
  | 2 => some [x.meas2]
  | 3 => some [x.fusedSvn, (s.capReg (256 * p) 0).toNat, (s.capReg (256 * p) 1).toNat]
  | 4 => some ((List.range 8).map fun w => ((s.func p f).blockWord w).toNat)
  | _ => none

/-- The number that bytes hold. -/
def certNum (bs : List Byte) : Nat := leNat bs

/-- The answer to a request: its numbers are those of `SpdmAnswer`. A signature has a value that the spec does not give: a
free value, at each answer. The certificates are those of the keys of the last boot (R276). -/
def State.spdmAnswer (s : State) (p f code arg : Nat) : SpdmAnswer :=
  let free := (Config.freeWord s.fresh).toNat
  match code with
  | 0 => { code := 0, ok := true, words := [0x13] }
  | 1 => { code := 1, ok := true, words := [0] }
  | 2 => { code := 2, ok := arg % 2 = 1, words := if arg % 2 = 1 then [1] else [] }
  | 3 => { code := 3, ok := true, words := [Config.sha384 (s.pkg p).certs.1, Config.sha384 (s.pkg p).certs.2] }
  | 4 => { code := 4, ok := true, words := [(s.pkg p).identKey, certNum (s.pkg p).certs.1, (s.pkg p).sealKey, certNum (s.pkg p).certs.2] }
  | 5 => { code := 5, ok := true, words := [arg, (s.pkg p).sealKey, free] }
  | 6 => match s.measurement p f arg with
    | some ws => { code := 6, ok := true, words := ws ++ [free] }
    | none => { code := 6, ok := false, words := [] }
  | _ => { code := code, ok := false, words := [] }

/-- A request is answered at once, or, during the function's reset, after it (R277). In recovery only the PF's mailbox
answers (R273). -/
def State.spdmRequest (s : State) (p f code arg : Nat) : State :=
  if Config.functions ≤ f ∨ ((s.pkg p).recovery ∧ f ≠ 0) then s
  else if (s.func p f).flrb then s.modPkg p fun x => { x with spdmWait := x.spdmWait ++ [(f, code, arg)] }
  else (s.modPkg p fun x => { x with spdm := x.spdm ++ [(f, s.spdmAnswer p f code arg)] }).bump

/-- Requests that waited for a function's reset are answered in order. -/
def State.answerWaiting (s : State) (p f : Nat) : State :=
  let (mine, rest) := (s.pkg p).spdmWait.partition fun r => r.1 = f
  mine.foldl (fun s r => s.spdmRequest p f r.2.1 r.2.2) (s.modPkg p fun x => { x with spdmWait := rest })

/-- Steps 5 to 7 of R250, once the drain is over. -/
def State.flrFinish (s : State) (p f : Nat) : State :=
  if !(s.func p f).flrb ∨ !s.flrDrained p f then s
  else
    let ts := s.quadTiles p f
    let js := s.jobsOf p f
    -- on every die of the pod; a lost one is not reached, and the blocks of its sequences keep their counts (R210)
    let ds := s.allDies.filter fun d => s.peers p (diePkg d) && !(d ∈ s.lost)
    let s := ds.foldl (fun s d => (dieTiles d).foldl (fun s k => s.clearExtents js k) (s.flrDie p f js ts d)) s
    let s := { s with
      reqs := s.reqs.filter fun (r : Nat × Request) => !(r.2.fid = f && diePkg r.2.src = p)
      msgs := s.msgs.filter fun (m : Nat × Msg) =>
        !((m.2.job?.map fun j => decide (j ∈ js)).getD false) && !((m.2.tile?.map fun k => decide (k ∈ ts)).getD false)
      revs := s.revs.filter fun (r : Nat × Revocation) => !(r.2.job ∈ js) }
    let s := ts.foldl State.zeroTile s
    let s := js.foldl (fun s j => s.setJob j { s.job j with placed := false, closed := false, cancelled := false, launches := [] }) s
    (s.modFunc p f Func.flrDone).answerWaiting p f

/-! ## Boot (R273, R275, R276) -/

/-- The fields of an image (R275): those of its header, s, and the bytes that DIGEST covers. -/
def FwImage.magic (i : FwImage) : Nat := bytesAt i.bytes 0 4
def FwImage.svn (i : FwImage) : Nat := bytesAt i.bytes 4 4
def FwImage.len (i : FwImage) : Nat := bytesAt i.bytes 8 8
def FwImage.digest (i : FwImage) : Nat := bytesAt i.bytes 0x10 48
def FwImage.sigR (i : FwImage) : Nat := bytesAt i.bytes 0x40 48
def FwImage.reserved (i : FwImage) : Nat := bytesAt i.bytes 0x70 16
def FwImage.sigS (i : FwImage) : Nat := bytesAt i.bytes 0x80 48
def FwImage.body (i : FwImage) : List Byte := (i.bytes.drop 0xB0).take i.len

/-- A whole image with MAGIC, which no case of R275 refuses (log 88). -/
def FwImage.accepted (i : FwImage) (fused : Nat) : Bool :=
  i.magic = 0x47494D49 && i.body.length = i.len && Config.signatureHolds (i.bytes.take 0x40) i.sigR i.sigS
  && Config.sha384 i.body = i.digest && fused ≤ i.svn && i.reserved = 0

/-- The root monitor image that the ROM starts: that of the slot tried first, else that of the other; with whether it came
from slot B. -/
def bootImage (first : Bool) (a b : FwImage) (fused : Nat) : Option (FwImage × Bool) :=
  let x := if first then b else a
  let y := if first then a else b
  if x.accepted fused then some (x, first) else if y.accepted fused then some (y, !first) else none

/-- The state of a package out of reset, its flash and its fuses kept; no step of the boot has been made. -/
def Pkg.fresh (x : Pkg) : Pkg :=
  { slotA := x.slotA, slotB := x.slotB, fieldA := x.fieldA, fieldB := x.fieldB, rootFirstB := x.rootFirstB
    fieldFirstB := x.fieldFirstB, fusedSvn := x.fusedSvn, part := x.part, recovery := true, bootStatus := 0 }

/-- What the boot of package p gives, step by step (R273). The identity key comes from the fused secret of the part, the
alias key from that and measurement 1 (R276). -/
def Pkg.boot (x : Pkg) (p : Nat) (a b field : FwImage) : Pkg :=
  match bootImage x.rootFirstB a b x.fusedSvn with
  | none => x
  | some (root, inB) =>
    let secret := Config.fusedSecret (x.part.getD p)
    let x := { x with rootActiveB := inB, meas1 := root.digest, runningSvn := root.svn, identKey := Config.identityKey secret
                      sealKey := Config.aliasKey secret root.digest, bootStatus := 3 }
    if field.accepted x.fusedSvn then { x with fieldActiveB := x.fieldFirstB, meas2 := field.digest, recovery := false, bootStatus := 5 }
    else x

/-- PACKAGE_RESET: the package's tiles, dies and functions are as after reset, its work is gone, and it boots; its dies come
up only where the root monitor runs (R273). Memory keeps its contents (log 8). Images recorded in flash stand in place of
those given. -/
def State.packageReset (s : State) (p : Nat) (slotA slotB field : FwImage) : State :=
  let x := s.pkg p
  let a := x.slotA.getD slotA
  let b := x.slotB.getD slotB
  let f := (if x.fieldFirstB then x.fieldB else x.fieldA).getD field
  let near (d : Nat) : Bool := diePkg d = p
  let booted := (({ x with slotA := some a, slotB := some b }.fresh).boot p a b f)
  let blank : Die := { dccT := s.cycles, powered := 1 ≤ booted.bootStatus, lastSync := s.ns }
  let js := (s.jobs.filter fun (j : Nat × Job) => j.2.dies.any near).map fun (j : Nat × Job) => j.1
  let s := { s with
    tiles := (s.tiles.map fun (t : Nat × Tile) =>
      if near (tileDie t.1) then (t.1, ({ order := t.2.order, atag := t.2.atag } : Tile)) else t)
    dies := s.dies.map fun (d : Nat × Die) => if near d.1 then (d.1, blank) else d
    jobs := s.jobs.filter fun (j : Nat × Job) => !(j.1 ∈ js)
    reqs := s.reqs.filter fun (r : Nat × Request) => !(near r.2.src)
    msgs := s.msgs.filter fun (m : Nat × Msg) => !((m.2.job?.map fun j => decide (j ∈ js)).getD false)
    revs := s.revs.filter fun (r : Nat × Revocation) => !(r.2.job ∈ js)
    lost := s.lost.filter fun d => !near d }
  let s := (pkgDies p).foldl (fun s d => if (Tab.find? s.dies d).isSome then s else s.setDie d blank) s
  -- the hub's watchdog and its power windows count from here (R236, R278)
  s.setPkg p { booted with syncReply := (List.range 8).map fun i => (i, s.ns), pwrAt := s.ns }

/-- FIRMWARE_UPDATE: an image that is accepted is written to the inactive slot, which the next reset tries first (R275). -/
def State.firmwareUpdate (s : State) (p : Nat) (i : FwImage) (root : Bool) : State :=
  s.modPkg p fun x =>
    if !i.accepted x.fusedSvn then x
    else match root, x.rootActiveB, x.fieldActiveB with
      | true, false, _ => { x with slotB := some i, rootFirstB := true }
      | true, true, _ => { x with slotA := some i, rootFirstB := false }
      | false, _, false => { x with fieldB := some i, fieldFirstB := true }
      | false, _, true => { x with fieldA := some i, fieldFirstB := false }

/-- SVN_COMMIT: the fused minimum rises to the version of the running image (R275). -/
def State.svnCommit (s : State) (p svn : Nat) : State :=
  s.modPkg p fun x => if svn = x.runningSvn ∧ x.fusedSvn < svn then { x with fusedSvn := svn } else x

/-! ## Clocks, power and heat (R18, R278, R279) -/

/-- The die's clock changes: its counter is kept as it stands, and counts on at the new period. -/
def State.reclock (s : State) (d : Nat) (h : Die → Die) : State :=
  let now := s.dcc d
  s.modDie d fun x => h { x with dccV := now, dccT := s.cycles }

/-- Does the die run units? -/
def State.runsUnits (s : State) (d : Nat) : Bool := (dieTiles d).any fun k => !(s.tile k).isIdle

/-- The highest cap in force in the millisecond that ends now. -/
def State.capHigh (s : State) (p : Nat) : Nat :=
  let x := s.pkg p
  (x.pwrCaps.filter fun c => s.hubPtc p < c.1 + 1000000).foldl (fun m c => max m c.2) x.pwrCap

/-- The end of one of the sliding power windows of 1 ms of PTC: AVG and STR are set, and the stretch is spread evenly over the
dies that run units (R278). The controller has held the average at or below the cap: at or below the highest one in force
during the window (log 90). -/
def State.powerWindow (s : State) (p avg stretch : Nat) : State :=
  if s.capHigh p < avg ∨ s.hubPtc p < (s.pkg p).pwrAt + 1000000 then s
  else
    let st := min stretch 255
    let s := (pkgDies p).foldl (fun s d => s.reclock d fun x => { x with power := if s.runsUnits d then st else 0 }) s
    s.modPkg p fun x => { x with pwrAvg := avg, pwrStr := st }

/-- A junction's temperature is reported; PWR_STATE.TEMP is that of the hottest die (R278). -/
def State.setTemp (s : State) (d temp : Nat) : State :=
  let s := s.modDie d fun x => { x with temp := temp }
  s.modPkg (diePkg d) fun x => { x with pwrTemp := min 255 (((pkgDies (diePkg d)).map fun i => (s.die i).temp).foldl max 0) }

/-- A junction's temperature and what follows from it, whichever threshold it is reported for: past 105 °C half rate, until
it is below 100 °C; past 115 °C no power, and the die is lost (R246, R279). -/
def State.thermal (s : State) (d temp : Nat) : State :=
  let s := (s.setTemp d temp).reclock d fun x => { x with half := decide (105 < temp) || (x.half && decide (100 ≤ temp)) }
  if 115 < temp then (s.modDie d fun x => { x with powered := false }).declareLost d else s

/-! ## Events -/

/-- SCRUB_READ (R192). -/
def execScrubRead (die sector : Nat) (correctable : Bool) (s : State) : Out := .next (s.scrubRead die sector correctable)
/-- SCRUB_WRITEBACK (R192). -/
def execScrubWriteback (die sector : Nat) (s : State) : Out := .next (s.scrubBack die sector)
/-- POISONED_WINDOW_WRITE (R271): discarded and logged. -/
def execPoisonedWindowWrite (pkg fid offset : Nat) (s : State) : Out :=
  .next (if Config.functions ≤ fid then s else s.modPkg pkg fun x => { x with aer := x.aer ++ [(fid, offset)] })
/-- FLR_INITIATE (R250). -/
def execFlrInitiate (pkg fid : Nat) (s : State) : Out := .next (s.flrStart pkg fid)
/-- FLR_DRAIN_DONE (R250, R419). -/
def execFlrDrainDone (pkg fid : Nat) (s : State) : Out := .next (s.flrFinish pkg fid)
/-- PACKAGE_RESET (R273). -/
def execPackageReset (pkg : Nat) (slotA slotB field : FwImage) (s : State) : Out := .next (s.packageReset pkg slotA slotB field)
/-- FIRMWARE_UPDATE (R275). -/
def execFirmwareUpdate (pkg : Nat) (image : FwImage) (root : Bool) (s : State) : Out := .next (s.firmwareUpdate pkg image root)
/-- SVN_COMMIT (R275). -/
def execSvnCommit (pkg svn : Nat) (s : State) : Out := .next (s.svnCommit pkg svn)
/-- GET_VERSION (R277). -/
def execGetVersion (pkg fid : Nat) (s : State) : Out := .next (s.spdmRequest pkg fid 0 0)
/-- GET_CAPABILITIES (R277): no sessions. -/
def execGetCapabilities (pkg fid : Nat) (s : State) : Out := .next (s.spdmRequest pkg fid 1 0)
/-- NEGOTIATE_ALGORITHMS (R277). -/
def execNegotiateAlgorithms (pkg fid offered : Nat) (s : State) : Out := .next (s.spdmRequest pkg fid 2 offered)
/-- GET_DIGESTS (R277). -/
def execGetDigests (pkg fid : Nat) (s : State) : Out := .next (s.spdmRequest pkg fid 3 0)
/-- GET_CERTIFICATE (R277). -/
def execGetCertificate (pkg fid : Nat) (s : State) : Out := .next (s.spdmRequest pkg fid 4 0)
/-- CHALLENGE (R277). -/
def execChallenge (pkg fid nonce : Nat) (s : State) : Out := .next (s.spdmRequest pkg fid 5 nonce)
/-- GET_MEASUREMENTS (R277). -/
def execGetMeasurements (pkg fid index : Nat) (s : State) : Out := .next (s.spdmRequest pkg fid 6 index)
/-- SPDM_UNSUPPORTED (R277). -/
def execSpdmUnsupported (pkg fid code : Nat) (s : State) : Out := .next (s.spdmRequest pkg fid (7 + code) 0)
/-- DROOP_STRETCH (R18, R278). -/
def execDroopStretch (die stretch : Nat) (s : State) : Out := .next (s.reclock die fun x => { x with stretch := stretch })
/-- POWER_WINDOW (R278). -/
def execPowerWindow (pkg avg stretch : Nat) (s : State) : Out := .next (s.powerWindow pkg avg stretch)
/-- THERMAL_HALF_RATE (R279). -/
def execThermalHalfRate (die temp : Nat) (s : State) : Out := .next (s.thermal die temp)
/-- THERMAL_RECOVER (R279). -/
def execThermalRecover (die temp : Nat) (s : State) : Out := .next (s.thermal die temp)
/-- THERMAL_SHUTDOWN (R279). -/
def execThermalShutdown (die temp : Nat) (s : State) : Out := .next (s.thermal die temp)

end Sys2Proof.Machine
end

