-- ==== Sys2Proof/Machine/Sequence.lean ====
section
/-! DEFINITION. The sequence instructions (R196 to R211, R355, R356). -/

namespace Sys2Proof.Machine

/-- The common part: at commit, the checks the requester makes, the request to the descriptor's home (R355, R210). -/
def State.sequence (s : State) (h : W64) (op : HomeOp) (sink : Sink) (rel : Bool := false) (logged : Bool := false)
    (big : Bool := false) (on : Nat → WaitOn := .response) (bound : Option Nat := none) : Out :=
  s.commitThen fun s =>
    let k := s.focus
    match (if handleOk h (s.jobOf k) then s.seqHome (diePkg (tileDie k)) h else none) with
    | none => .next (s.fault k Cls.extent h)
    | some d => s.releaseIf rel fun s =>
      if d ∈ (s.die (tileDie k)).unreachable ∧ big then .next (s.fault k Cls.seqWindow h)
      else .next (s.ask k d op sink h logged 0x49 on bound)

/-- The wait of a request that finds no room at a home on its own die (R425). -/
def State.roomBound (s : State) : Option Nat := some (capIssue s.cur.waitCap)

/-- A creation record's checks beyond its address, in package p (R196). -/
def State.newSeqOk (s : State) (p job : Nat) (cr : List Byte) : Bool :=
  let home := bytesAt cr 6 2
  let pkg := s.pkgNamed p (home / 8 % 1024)
  let member (i : Nat) : Bool := match pkg with
    | some q => 8 * q + i ∈ (s.job job).dies
    | none => false
  bytesAt cr 0 4 ≠ 0 && 3 ≤ bytesAt cr 4 1 && bytesAt cr 4 1 ≤ 16 && bytesAt cr 5 1 < 8 && home < 2 ^ 13 && bytesAt cr 9 23 = 0
  && member (home % 8) && ((List.range 8).all fun i => bytesAt cr 8 1 / 2 ^ i % 2 = 0 || member i)

/-- Makes a sequence from the creation record at g[a] (R196). -/
def execSqnew (d a : BitVec 6) (s : State) : Out :=
  let ra := s.g a
  s.commitThen fun s =>
    let k := s.focus
    if ra.toNat % 32 ≠ 0 then .next (s.fault k Cls.align ra)
    else match s.readVa k ra 32 with
      | .error (c, va) => .next (s.fault k c va)
      | .ok bs =>
        let cr := s.forward k ra bs
        let p := diePkg (tileDie k)
        if !s.newSeqOk p (s.jobOf k) cr then .next (s.illegal k)
        else
          let home := bytesAt cr 6 2
          .next (s.ask k (8 * (s.pkgNamed p (home / 8 % 1024)).getD p + home % 8) (.sqNew cr (s.jobOf k)) (.g d.toNat 8 false) ra true 0x49
            (on := fun id => .seqRoom id) (bound := s.roomBound))

/-- Reserves g[b] slots; g[d] := the first (R197). -/
def execSqres (d a b : BitVec 6) (s : State) : Out :=
  let n := (s.g b).toNat
  s.sequence (s.g a) (.sqRes (s.g a) n) (.g d.toNat 8 false) false true (2 ^ 32 ≤ n) (fun id => .seqRoom id) s.roomBound

/-- Commits g[d] slots from g[b] on; a release (R198, R203, R356). -/
def execSqcom (d a b : BitVec 6) (s : State) : Out :=
  let n := (s.g d).toNat
  let start := (s.g b).toNat
  s.sequence (s.g a) (.sqCom (s.g a) start n) .discardValue true false (2 ^ 32 ≤ n || 2 ^ 32 ≤ start) (fun id => .seqRoom id) s.roomBound

/-- g[d] := CL, with SEALED in bit 63 (R203, R204). -/
def execSqlen (d a : BitVec 6) (s : State) : Out :=
  s.sequence (s.g a) (.sqLen (s.g a)) (.g d.toNat 8 false) (on := fun id => .seqRoom id) (bound := s.roomBound)

/-- Forks the prefix [0, g[b]); g[d] := the new handle (R207). -/
def execSqfork (d a b : BitVec 6) (s : State) : Out :=
  let n := (s.g b).toNat
  s.sequence (s.g a) (.sqFork (s.g a) n) (.g d.toNat 8 false) false true (2 ^ 32 ≤ n) (fun id => .seqRoom id) s.roomBound

/-- Frees the sequence (R208). -/
def execSqdrop (a : BitVec 6) (s : State) : Out :=
  s.sequence (s.g a) (.sqDrop (s.g a)) .discardValue (on := fun id => .seqRoom id) (bound := s.roomBound)

/-- The grant entry that an SQSLOT of slot i of handle h takes over: the one installed longest ago, where the tile has no grant
on the slot's block and no entry is free (R199). -/
def State.takenOver (s : State) (k : Nat) (h : W64) (i : Nat) : Option Nat :=
  let t := s.tile k
  let q := (s.seqHome (diePkg (tileDie k)) h).bind fun d => s.seqOf d h (s.jobOf k)
  if t.grants.length < 8 ∨ (q.any fun q => t.grants.any fun (p : Nat × Grant) => p.2.handle = h && p.2.blk = i / q.spb) then none
  else t.oldestGrant

/-- Installs or refreshes a grant; g[d] := the address of slot g[b] (R199). Where it takes over an entry, every store checked
against that entry is performed first. -/
def execSqslot (d a b : BitVec 6) (s : State) : Out :=
  let n := (s.g b).toNat
  s.commitThen fun s =>
    let k := s.focus
    let t := s.cur
    match (s.takenOver k (s.g a) n).filter t.storesThrough with
    | some num =>
      if t.posted.any fun p => p.grant = some num then .next (s.stall k .posted none) else .next (s.stallIssue k .storeQueue)
    | none => s.sequence (s.g a) (.sqSlot (s.g a) n) (.g d.toNat 8 false) false false (2 ^ 32 ≤ n) (fun id => .seqRoom id) s.roomBound

/-- Seals the sequence (R206). -/
def execSqseal (a : BitVec 6) (s : State) : Out :=
  s.sequence (s.g a) (.sqSeal (s.g a)) .discardValue (on := fun id => .seqRoom id) (bound := s.roomBound)

/-- Waits until CL reaches g[d], or never can; g[d] := CL, with SEALED in bit 63 (R204). -/
def execSqwait (d a : BitVec 6) (i : BitVec 13) (s : State) : Out :=
  let k := (s.g d).toNat
  let h := s.g a
  let bnd := s.cur.bound (s.cur.immU i)
  if s.cur.ahead then .next (s.stall s.focus (.seqn h k) (some bnd))
  else s.sequence h (.sqWait h k) (.g d.toNat 8 false) false false (2 ^ 32 ≤ k) (fun _ => .seqn h k) (some bnd)

end Sys2Proof.Machine
end

