-- ==== Sys2Proof/Machine/Vector.lean ====
section
/-! DEFINITION. The step of a running table: its operands against the footprint, its lanes, its flags and traps, and how
the table goes on after it (R65, R69 to R72, R96 to R102, R369, R370, R383). The micro-orders' own files call these. -/

namespace Sys2Proof.Machine

/-! ## The table (R69, R70, R100) -/

/-- The tag and the word of a body step. -/
def Tile.stepTag (t : Tile) (v : VsRun) (i : Nat) : Nat := (Tab.get 0 t.tags (v.tagOff + i)).toNat
def Tile.stepWord (t : Tile) (v : VsRun) (i : Nat) : W32 := Tab.get 0 t.steps (v.body + i)

/-- A stage of the current pass (R70). -/
def VsRun.stageOn (v : VsRun) (st : Nat) : Bool := st < v.ns && st ≤ v.pass && v.pass - st < v.n

/-- VLOOP and VEND run in every pass (R383). -/
def isLoopWord (w : W32) : Bool := fld w 24 8 = 0x80 || fld w 24 8 = 0x81

/-- A step that runs in the current pass. -/
def Tile.runsStep (t : Tile) (v : VsRun) (i : Nat) : Bool :=
  isLoopWord (t.stepWord v i) || v.stageOn (t.stepTag v i / 4)

/-- The first step at or after i that runs, within `n` steps. -/
def Tile.seekStep (t : Tile) (v : VsRun) : Nat → Nat → Nat
  | 0, i => i
  | n + 1, i => if t.runsStep v i then i else t.seekStep v n (i + 1)

/-- The pass after the current one, or the end of the table (R70, R71). -/
def VsRun.endPass (v : VsRun) : VsRun :=
  { v with upc := 0, pass := v.pass + 1, rb := if v.rot then (v.rb + 7) % 8 else v.rb
           done := decide (v.n + v.ns - 1 ≤ v.pass + 1) }

def VsRun.addFlags (v : VsRun) (fl : Nat) : VsRun := { v with flags := v.flags ||| fl, flagNew := v.flagNew ||| fl }

/-! ## How a step ends -/

/-- What a micro-order does. -/
inductive VRes where
  /-- its effects are made, with the flags they raise; the next step follows -/
  | go (s : State) (fl : Nat)
  /-- as `go`, and the flags of VFLAG.new start empty (R377) -/
  | flagged (s : State)
  /-- the loop levels change, and the step that follows is named -/
  | jump (upc : Nat) (levels : List VLevel)
  /-- a trap at the micro-PC; no effect -/
  | trap (i : TrapInfo) (fl : Nat)
  /-- it waits -/
  | hold (s : State) (w : Wait)

def VRes.illegal : VRes := .trap { cls := Cls.illegalOp } 0

/-- The step traps: the flags are set, and the VRUN is cut or discarded (R126, R252, R395). -/
def State.vsTrap (s : State) (k : Nat) (v : VsRun) (i : TrapInfo) (fl : Nat) : State :=
  (s.modTile k fun t => { t with vs := some (v.addFlags fl) }).vsFault k { i with src := 1, flags := fl }

/-- The table goes on from `upc`. A pass that ends with a level open traps at the last body step (R383). -/
def VsRun.goTo (v : VsRun) (upc : Nat) (levels : List VLevel) (fl : Nat) : Option VsRun :=
  let v := { v.addFlags fl with upc := upc, levels := levels, moved := true, wait := none, granted := false }
  if upc < v.steps then some v
  else if levels.isEmpty then some v.endPass
  else none

/-- The end of the step in hand; `s` is the state before it. -/
def State.vsEnd (s : State) (k : Nat) (v : VsRun) (r : VRes) : State :=
  let last := { v with upc := v.steps - 1 }
  match r with
  | .go u fl => match v.goTo (v.upc + 1) v.levels fl with
    | some w => u.modTile k fun t => { t with vs := some w }
    | none => s.vsTrap k last { cls := Cls.illegalOp } 0
  | .flagged u => match ({ v with flagNew := 0 } : VsRun).goTo (v.upc + 1) v.levels 0 with
    | some w => u.modTile k fun t => { t with vs := some w }
    | none => s.vsTrap k last { cls := Cls.illegalOp } 0
  | .jump upc levels => match v.goTo upc levels 0 with
    | some w => s.modTile k fun t => { t with vs := some w }
    | none => s.vsTrap k last { cls := Cls.illegalOp } 0
  | .trap i fl => s.vsTrap k v i fl
  | .hold u w => u.modTile k fun t => { t with vs := some { v with wait := some w } }

/-- A micro-order of the table that runs on the tile in focus. -/
def State.micro (s : State) (f : Tile → VsRun → VRes) : Out :=
  match s.cur.vs with
  | none => .next s
  | some v => .next (s.vsEnd s.focus v (f s.cur v))

/-! ## The footprint (R65) -/

/-- An m register named in a field of the footprint word; with rotation the eight rotating registers count as one. -/
def VsRun.named (v : VsRun) (lo n : Nat) : Bool :=
  let m := fld v.cmd.p1 lo 16
  m / 2 ^ n % 2 = 1 || (v.rot && 8 ≤ n && m / 256 ≠ 0)
def VsRun.mayRead (v : VsRun) (o : MOp) : Bool := v.named 0 o.reg
def VsRun.mayWrite (v : VsRun) (o : MOp) : Bool := v.named 16 o.reg
/-- An accumulator named in AR. -/
def VsRun.mayReadAcc (v : VsRun) (n : Nat) : Bool := bit v.cmd.p1 (32 + n)
/-- SP and PQ. -/
def VsRun.slice (v : VsRun) : Bool := bit v.cmd.p1 40
def VsRun.pops (v : VsRun) : Bool := bit v.cmd.p1 41

/-- As `micro`, for a micro-order that reads and writes the m operands given (R369 rule 2). -/
def State.microM (s : State) (rd wr : List MOp) (f : Tile → VsRun → VRes) : Out :=
  s.micro fun t v => if rd.all v.mayRead && wr.all v.mayWrite then f t v else .illegal

/-! ## Lanes, flags and traps (R100, R126, R134, R370) -/

/-- The lanes that the step in hand writes. -/
def Tile.stepLanes (t : Tile) (v : VsRun) : List Nat := t.lanes (t.stepTag v v.upc % 4)

/-- The trap that lanes' flags raise: FP_TRAP at the lowest lane with an enabled flag, else SIGLOSS (R126, R370). -/
def laneTrap (fpc : W64) (fs : List (Nat × Nat)) : Option TrapInfo :=
  match fs.find? fun p => flagTrap fpc p.2 = some Cls.fpTrap with
  | some p => some { cls := Cls.fpTrap, lane := p.1 }
  | none => (fs.find? fun p => flagTrap fpc p.2 = some Cls.sigloss).map fun p => { cls := Cls.sigloss, lane := p.1 }

def FRes.elem (r : FRes) : VElem := { val := BitVec.ofNat 32 r.bits, tag := BitVec.ofNat 5 r.cnt }

/-- A result that raises nothing. -/
def plainRes (bits cnt : Nat) : FRes := { bits := bits, cnt := cnt, sig := false }
/-- An element copied, value and tag. -/
def VElem.res (e : VElem) : FRes := plainRes e.val.toNat e.tag.toNat
def VElem.fv (e : VElem) : FV := unpack .f32 e.val.toNat
def VElem.c (e : VElem) : Nat := e.tag.toNat

/-- Flags of lanes' results, each with its lane. -/
def laneFlags (fpc : W64) (rs : List (Nat × FRes)) : List (Nat × Nat) := rs.map fun p => (p.1, p.2.allFlags fpc)
def orFlags (fs : List (Nat × Nat)) : Nat := fs.foldl (fun a p => a ||| p.2) 0

/-- Lanes' results are written, or one of them traps and none is. -/
def State.putLanes (s : State) (t : Tile) (v : VsRun) (d : MOp) (rs : List (Nat × FRes)) : VRes :=
  let fs := laneFlags v.cmd.fpc rs
  match laneTrap v.cmd.fpc fs with
  | some i => .trap i (orFlags fs)
  | none => .go (s.setTile s.focus (t.mWrite (t.mref v d) (rs.map fun p => (p.1, p.2.elem)))) (orFlags fs)

/-- A second operand: an m operand, or a z register for every lane (R97). -/
inductive VSrc where
  | m (o : MOp)
  | z (n : Nat)
  deriving DecidableEq, Repr

def VSrc.ops : VSrc → List MOp
  | .m o => [o]
  | .z _ => []
def Tile.vread (t : Tile) (v : VsRun) (x : VSrc) : List VElem :=
  match x with
  | .m o => t.mRead (t.mref v o)
  | .z n => List.replicate 64 (t.zGet n)

/-- Each written lane of d takes f of a's, y's and its own old element; `old` says that f uses the last (R98, R370). -/
def State.lanes2 (s : State) (d a : BitVec 8) (y : VSrc) (old : Bool) (f : RM → VElem → VElem → VElem → FRes) : Out :=
  s.microM (mop a :: (y.ops ++ if old then [mop d] else [])) [mop d] fun t v =>
    let xs := t.mRead (t.mref v (mop a))
    let ys := t.vread v y
    let ws := t.mRead (t.mref v (mop d))
    let rm := fpcRm v.cmd.fpc
    s.putLanes t v (mop d) ((t.stepLanes v).map fun l => (l, f rm (xs.getD l {}) (ys.getD l {}) (ws.getD l {})))

/-- Each written lane of d takes f of a's element. -/
def State.lanes1 (s : State) (d a : BitVec 8) (f : RM → VElem → FRes) : Out :=
  s.microM [mop a] [mop d] fun t v =>
    let xs := t.mRead (t.mref v (mop a))
    s.putLanes t v (mop d) ((t.stepLanes v).map fun l => (l, f (fpcRm v.cmd.fpc) (xs.getD l {})))

/-- Bits of a k register replaced on the written lanes (R100). -/
def Tile.kMerge (t : Tile) (k : Nat) (ls : List Nat) (f : Nat → Bool) : Tile :=
  t.kPut k (ls.foldl (fun w l => if f l then w ||| (1#64 <<< l) else w &&& ~~~(1#64 <<< l)) (t.kGet k))

end Sys2Proof.Machine
end

