-- ==== Sys2Proof/Machine/VectorFp.lean ====
section
/-! DEFINITION. Floating-point micro-orders (R370, R374 to R376, R389, R391). -/

namespace Sys2Proof.Machine

/-! ## Two operands (R370) -/

def vAdd (rm : RM) (x y _w : VElem) : FRes := fpAdd .f32 rm x.fv x.c y.fv y.c
def vSub (rm : RM) (x y _w : VElem) : FRes := fpAdd .f32 rm x.fv x.c y.fv.neg y.c
def vMul (rm : RM) (x y _w : VElem) : FRes := fpMul .f32 rm x.fv x.c y.fv y.c
def vFma (rm : RM) (x y w : VElem) : FRes := fpFma .f32 rm x.fv x.c y.fv y.c w.fv w.c
def vFms (rm : RM) (x y w : VElem) : FRes := fpFma .f32 rm x.fv.neg x.c y.fv y.c w.fv w.c
def vDiv (rm : RM) (x y _w : VElem) : FRes := fpDiv .f32 rm x.fv x.c y.fv y.c
def vMax (_rm : RM) (x y _w : VElem) : FRes := fpMinMax .f32 true x.val.toNat x.c y.val.toNat y.c
def vMin (_rm : RM) (x y _w : VElem) : FRes := fpMinMax .f32 false x.val.toNat x.c y.val.toNat y.c
/-- x's bits [30:0] with y's sign, and x's count. -/
def vSgn (_rm : RM) (x y _w : VElem) : FRes := plainRes (x.val.toNat % 2 ^ 31 + y.val.toNat / 2 ^ 31 * 2 ^ 31) x.c

/-- VADD (R370). -/
def execVadd (d a b : BitVec 8) (s : State) : Out := s.lanes2 d a (.m (mop b)) false vAdd
/-- VADD, scalar form (R370). -/
def execVaddZ (d a : BitVec 8) (z : BitVec 4) (s : State) : Out := s.lanes2 d a (.z z.toNat) false vAdd
/-- VSUB (R370). -/
def execVsub (d a b : BitVec 8) (s : State) : Out := s.lanes2 d a (.m (mop b)) false vSub
/-- VSUB, scalar form (R370). -/
def execVsubZ (d a : BitVec 8) (z : BitVec 4) (s : State) : Out := s.lanes2 d a (.z z.toNat) false vSub
/-- VMUL (R370). -/
def execVmul (d a b : BitVec 8) (s : State) : Out := s.lanes2 d a (.m (mop b)) false vMul
/-- VMUL, scalar form (R370). -/
def execVmulZ (d a : BitVec 8) (z : BitVec 4) (s : State) : Out := s.lanes2 d a (.z z.toNat) false vMul
/-- VFMA (R370). -/
def execVfma (d a b : BitVec 8) (s : State) : Out := s.lanes2 d a (.m (mop b)) true vFma
/-- VFMA, scalar form (R370). -/
def execVfmaZ (d a : BitVec 8) (z : BitVec 4) (s : State) : Out := s.lanes2 d a (.z z.toNat) true vFma
/-- VFMA.s (R370). -/
def execVfmaS (d a b : BitVec 8) (s : State) : Out := s.lanes2 d a (.m (mop b)) true vFms
/-- VFMA.s, scalar form (R370). -/
def execVfmaSZ (d a : BitVec 8) (z : BitVec 4) (s : State) : Out := s.lanes2 d a (.z z.toNat) true vFms
/-- VDIV (R370). -/
def execVdiv (d a b : BitVec 8) (s : State) : Out := s.lanes2 d a (.m (mop b)) false vDiv
/-- VDIV, scalar form (R370). -/
def execVdivZ (d a : BitVec 8) (z : BitVec 4) (s : State) : Out := s.lanes2 d a (.z z.toNat) false vDiv
/-- VMAX (R370). -/
def execVmax (d a b : BitVec 8) (s : State) : Out := s.lanes2 d a (.m (mop b)) false vMax
/-- VMAX, scalar form (R370). -/
def execVmaxZ (d a : BitVec 8) (z : BitVec 4) (s : State) : Out := s.lanes2 d a (.z z.toNat) false vMax
/-- VMIN (R370). -/
def execVmin (d a b : BitVec 8) (s : State) : Out := s.lanes2 d a (.m (mop b)) false vMin
/-- VMIN, scalar form (R370). -/
def execVminZ (d a : BitVec 8) (z : BitVec 4) (s : State) : Out := s.lanes2 d a (.z z.toNat) false vMin
/-- VSGN (R370). -/
def execVsgn (d a b : BitVec 8) (s : State) : Out := s.lanes2 d a (.m (mop b)) false vSgn
/-- VSGN, scalar form (R370). -/
def execVsgnZ (d a : BitVec 8) (z : BitVec 4) (s : State) : Out := s.lanes2 d a (.z z.toNat) false vSgn

/-! ## One operand (R376) -/

/-- VRCP. -/
def execVrcp (d a : BitVec 8) (s : State) : Out := s.lanes1 d a fun rm x => vRcp rm x
where vRcp (rm : RM) (x : VElem) : FRes :=
  -- c_x is kept (R376): the other operand of the division has no uncertainty
  fpRcp .f32 rm x.fv x.c
/-- VRSQ. -/
def execVrsq (d a : BitVec 8) (s : State) : Out := s.lanes1 d a fun rm x => zeroCount .f32 x.c (fpRsq .f32 rm x.fv x.c)
/-- VSQRT. -/
def execVsqrt (d a : BitVec 8) (s : State) : Out := s.lanes1 d a fun rm x => fpSqrt .f32 rm x.fv x.c
/-- VEXP2. The count of a zero operand that is not EXACT is a free value from 0 to p (log 18). -/
def execVexp2 (d a : BitVec 8) (s : State) : Out :=
  s.lanes1 d a fun rm x => fpExp2 .f32 rm x.fv x.c (Config.exp2ZeroCount x.val x.c).toNat
/-- VLOG2. -/
def execVlog2 (d a : BitVec 8) (s : State) : Out := s.lanes1 d a fun rm x => fpLog2 .f32 rm x.fv x.c

/-! ## Comparisons (R374) -/

/-- Bits of k on the written lanes, or FP_TRAP at the lowest lane that raises an enabled invalid. -/
def State.vcmp (s : State) (c : Nat) (k : BitVec 3) (a : BitVec 8) (y : VSrc) : Out :=
  s.microM (mop a :: y.ops) [] fun t v =>
    let xs := t.mRead (t.mref v (mop a))
    let ys := t.vread v y
    let r (l : Nat) : Bool × Nat := fpCmp c (xs.getD l {}).fv (ys.getD l {}).fv
    let ls := t.stepLanes v
    let fs := ls.map fun l => (l, (r l).2)
    match laneTrap v.cmd.fpc fs with
    | some i => .trap i (orFlags fs)
    | none => .go (s.setTile s.focus (t.kMerge k.toNat ls fun l => (r l).1)) (orFlags fs)

/-- VCMP.eq. -/
def execVcmpEq (k : BitVec 3) (a b : BitVec 8) (s : State) : Out := s.vcmp 0 k a (.m (mop b))
/-- VCMP.lt. -/
def execVcmpLt (k : BitVec 3) (a b : BitVec 8) (s : State) : Out := s.vcmp 1 k a (.m (mop b))
/-- VCMP.le. -/
def execVcmpLe (k : BitVec 3) (a b : BitVec 8) (s : State) : Out := s.vcmp 2 k a (.m (mop b))
/-- VCMP.un. -/
def execVcmpUn (k : BitVec 3) (a b : BitVec 8) (s : State) : Out := s.vcmp 3 k a (.m (mop b))
/-- VCMP.eq, scalar form. -/
def execVcmpZEq (k : BitVec 3) (a : BitVec 8) (z : BitVec 4) (s : State) : Out := s.vcmp 0 k a (.z z.toNat)
/-- VCMP.lt, scalar form. -/
def execVcmpZLt (k : BitVec 3) (a : BitVec 8) (z : BitVec 4) (s : State) : Out := s.vcmp 1 k a (.z z.toNat)
/-- VCMP.le, scalar form. -/
def execVcmpZLe (k : BitVec 3) (a : BitVec 8) (z : BitVec 4) (s : State) : Out := s.vcmp 2 k a (.z z.toNat)
/-- VCMP.un, scalar form. -/
def execVcmpZUn (k : BitVec 3) (a : BitVec 8) (z : BitVec 4) (s : State) : Out := s.vcmp 3 k a (.z z.toNat)

/-! ## Conversions (R375) -/

/-- A widened result whose count an f16 or bf16 subnormal caps (R132, R375). -/
def widenCapped (f : Fmt) (v : Nat) : FRes :=
  let r := widenHeld f v
  { r with cnt := if r.sig then capCount f v r.cnt else 0 }

/-- An integer result of a conversion: tag 0, no SIGLOSS. -/
def intRes (bits flags : Nat) : FRes := { bits := bits, cnt := 0, flags := flags, sig := false }

/-- The lane result of VCVT by kind; none where the kind is reserved. -/
def vConvert (kind : Nat) (rm : RM) (x : VElem) : Option FRes :=
  let n := x.val.toNat
  match kind with
  | 0 => some (fpFromInt .f32 rm x.val.toInt)
  | 1 => some (fpFromInt .f32 rm n)
  | 2 => let r := fpToInt rm x.fv (-(2 ^ 31)) (2 ^ 31 - 1); some (intRes (wrapN r.1 32) r.2)
  | 3 => let r := fpToInt rm x.fv 0 (2 ^ 32 - 1); some (intRes (wrapN r.1 32) r.2)
  | 4 => some (narrowHeld .f16 rm n x.c)
  | 5 => some (narrowHeld .bf16 rm n x.c)
  | 6 => some (widenCapped .f16 (n % 2 ^ 16))
  | 7 => some (widenCapped .bf16 (n % 2 ^ 16))
  | 8 => let r := narrow .f16 rm n x.c; some (intRes r.bits r.flags)
  | 9 => let r := narrow .bf16 rm n x.c; some (intRes r.bits r.flags)
  | 10 => some (if ds8Reserved (n % 256) then .qnan .f32 Flg.invalid else fpFromInt .f32 rm (ds8Weight (n % 256)))
  | _ => none

/-- VCVT (R375). -/
def execVcvt (d a : BitVec 8) (r : BitVec 3) (k : BitVec 4) (s : State) : Out :=
  if 5 ≤ r.toNat ∨ 11 ≤ k.toNat then s.micro fun _ _ => .illegal
  else s.lanes1 d a fun rm x => (vConvert k.toNat (cvtRm r.toNat rm) x).getD {  bits := 0, cnt := 0 }

/-! ## Quantisation (R139, R389) -/

/-- Range and width of a VQNT format. -/
def qntRange (f : Nat) : Int × Int × Nat :=
  match f with
  | 0 => (-128, 127, 8)
  | 1 => (-32768, 32767, 16)
  | 2 => (0, 255, 8)
  | _ => (0, 65535, 16)

/-- A value times 2^k; beyond the bounds of k the rounded outcome no longer changes. -/
def FV.scale (x : FV) (k : Int) : FV :=
  match x with
  | .fin s m e => .fin s m (max (-1000) (min 1000 (e + k)))
  | v => v

/-- The count of the element of largest magnitude among the lanes whose element is no NaN, the lowest lane on ties. -/
def rowCount (xs : List VElem) (ls : List Nat) : Option Nat :=
  (ls.foldl (fun (b : Option (Nat × Nat)) l =>
    let x := xs.getD l {}
    let m := x.val.toNat % 2 ^ 31
    if x.fv.isNan then b
    else match b with
      | some (n, _) => if n < m then some (m, x.c) else b
      | none => some (m, x.c)) none).map fun p => p.2

/-- VQNT (R389). -/
def execVqnt (d a : BitVec 8) (e : BitVec 4) (m : BitVec 1) (f : BitVec 2) (s : State) : Out :=
  if (mop d).dir ≠ 0 then s.micro fun _ _ => .illegal
  else s.microM [mop a] [mop d] fun t v =>
    let (lo, hi, w) := qntRange f.toNat
    let sh : Int := (w : Int) - 1 - (t.zGet e.toNat).val.toInt
    let xs := t.mRead (t.mref v (mop a))
    let ls := t.stepLanes v
    let rs := ls.map fun l =>
      let r := fpToInt (fpcRm v.cmd.fpc) ((xs.getD l {}).fv.scale sh) lo hi
      (l, intRes (wrapN r.1 32) r.2)
    let fl : Nat := match rowCount xs ls with
      | some c => min c (w - 1)
      | none => 0
    let j := (t.mref v (mop d)).idx % 32
    let old := (Tab.get 255 t.afloor j).toNat
    let new := if m = 1 then min old fl else fl
    s.putLanes { t with afloor := Tab.set 255 t.afloor j (BitVec.ofNat 8 new) } v (mop d) rs

/-! ## Reductions (R130, R391) -/

/-- One level of the tree: lane l of the first half combines with its partner; flags are gathered. -/
def halve (f : VElem → VElem → FRes) (l : List VElem) : List VElem × Nat :=
  let n := l.length / 2
  let rs := (List.range n).map fun i => f (l.getD i {}) (l.getD (i + n) {})
  (rs.map FRes.elem, rs.foldl (fun a r => a ||| r.flags) 0)

/-- The tree from level j = n − 1 down to 0: the last combination, and every flag. -/
def reduceTree (f : VElem → VElem → FRes) : Nat → List VElem → Nat → FRes × Nat
  | 0, l, fl => ((l.getD 0 {}).res, fl)
  | 1, l, fl => let r := f (l.getD 0 {}) (l.getD 1 {}); (r, fl ||| r.flags)
  | n + 1, l, fl => let (l, g) := halve f l; reduceTree f n l (fl ||| g)

/-- A reduction into z: `fill` is what an excluded lane enters as (R130). -/
def State.vreduce (s : State) (z : BitVec 4) (a : BitVec 8) (fill : VElem) (f : RM → VElem → VElem → FRes) : Out :=
  s.microM [mop a] [] fun t v =>
    let ls := t.stepLanes v
    let xs := (t.mRead (t.mref v (mop a))).mapIdx fun l x => if l ∈ ls then x else fill
    let (r, fl) := reduceTree (f (fpcRm v.cmd.fpc)) 6 xs 0
    let fl := ({ r with flags := fl } : FRes).allFlags v.cmd.fpc
    match laneTrap v.cmd.fpc [(0, fl)] with
    | some i => .trap i fl
    | none => .go (s.setTile s.focus (t.zPut z.toNat r.elem)) fl

/-- VRSUM (R391). -/
def execVrsum (z : BitVec 4) (a : BitVec 8) (s : State) : Out :=
  s.vreduce z a { val := 0, tag := 31 } fun rm x y => vAdd rm x y {}
/-- VRMAX (R391). -/
def execVrmax (z : BitVec 4) (a : BitVec 8) (s : State) : Out :=
  s.vreduce z a { val := BitVec.ofNat 32 Fmt.f32.nan, tag := 0 } fun rm x y => vMax rm x y {}
/-- VRMIN (R391). -/
def execVrmin (z : BitVec 4) (a : BitVec 8) (s : State) : Out :=
  s.vreduce z a { val := BitVec.ofNat 32 Fmt.f32.nan, tag := 0 } fun rm x y => vMin rm x y {}

end Sys2Proof.Machine
end

