-- ==== Sys2Proof/Machine/VectorAcc.lean ====
section
/-! DEFINITION. Micro-orders on the accumulators (R139, R152, R368, R396). -/

namespace Sys2Proof.Machine

/-- The index register that a two-bit field selects in the table's bank (R396). -/
def Tile.ixOf (t : Tile) (v : VsRun) (i : Nat) : Nat := (Tab.get 0 t.ix (i + if v.bank then 4 else 0)).toNat

/-! ## VACCR (R368) -/

/-- A part of an accumulator element, by function code. -/
def accPart (f : Nat) (v : Int) : Nat :=
  match f with
  | 0 => wrapN (max (-(2 ^ 31)) (min (2 ^ 31 - 1) v)) 32
  | 1 => wrapN v 32
  | 2 => wrapN v 80 / 2 ^ 32 % 2 ^ 32
  | _ => wrapN (sextN (wrapN v 80 / 2 ^ 64) 16) 32

/-- The status word of VACCR.st. -/
def AccRow.word (x : AccRow) : Nat :=
  (if x.ovf then 1 else 0) + (if x.inv then 2 else 0) + 2 ^ 6 * (x.floor % 256) + 2 ^ 14 * (x.lost % 2 ^ 16) + (if x.inx then 2 ^ 31 else 0)

/-- VACCR (R368). -/
def execVaccr (d : BitVec 8) (n q y : BitVec 2) (f : BitVec 8) (s : State) : Out :=
  s.microM [] [mop d] fun t v =>
    let a := n.toNat
    let ix := t.ixOf v y.toNat
    let code := f.toNat
    if 4 < code ∨ !v.mayReadAcc a then .illegal
    else if code = 4 then
      if q ≠ 0 ∨ y ≠ 0 then .illegal
      else s.putLanes t v (mop d) ((t.stepLanes v).map fun l => (l, plainRes (if l < 32 then (t.row a l).word else 0) 0))
    else if ix / 32 % 2 = 1 then .illegal
    else s.putLanes t v (mop d) ((t.stepLanes v).map fun l =>
      (l, plainRes (accPart code (t.accVal a (ix % 32) (64 * q.toNat + l))) 0))

/-! ## VSACC (R139, R152, R396) -/

/-- Scale and addend with their counts, and what the row says. -/
structure ScaleIn where
  v : Int
  den : Int
  s : VElem
  y : VElem
  row : AccRow

/-- The exact value of a finite operand as an integer and an exponent. -/
def FV.exactInt (x : FV) : Int × Int :=
  match x with
  | .fin s m e => (if s then -(m : Int) else m, e)
  | _ => (0, 0)

/-- round(v / den × s + y) with one rounding, its count and its flags; v × s is the plain form with den 1. -/
def scaleFin (rm : RM) (x : ScaleIn) : FRes :=
  let (ms, es) := x.s.fv.exactInt
  let (my, ey) := x.y.fv.exactInt
  let e := min es ey
  let tneg := ((decide (x.v < 0) != x.s.fv.sign) != decide (x.den < 0))
  let num := x.v * ms
  let d := x.den.natAbs
  let sd : Int := if x.den < 0 then -1 else 1
  let z : Int := sd * num * (2 : Int) ^ (es - e).toNat + my * (2 : Int) ^ (ey - e).toNat * d
  let zeroT := decide (num = 0)
  let r : Rnd :=
    if z = 0 then { bits := Fmt.f32.zero (zeroSumSign rm tneg x.y.fv.sign (zeroT && decide (my = 0))) }
    else roundQ .f32 rm (decide (z < 0)) z.natAbs d e
  -- the count of the scaled value (R139)
  let f := if x.row.floor = 255 then exact else x.row.floor
  let ct :=
    if f = exact ∧ x.s.c = exact then
      (if !zeroT && (roundQ .f32 rm tneg num.natAbs d es).rounded then 24 else exact)
    else min (min f x.s.c) 24
  let lt : Option Int := if zeroT ∨ ct = exact then none else some (log2Q num.natAbs d + es - ct + 1)
  mkRes .f32 r (sigAdd .f32 lt (trustFloor x.y.fv x.y.c) (ct = exact && x.y.c = exact) r)

/-- A lane of VSACC (R152). -/
def scaleLane (rm : RM) (x : ScaleIn) : FRes :=
  let ovf := if x.row.ovf then Flg.overflow + Flg.inexact else 0
  let s := x.s.fv
  let y := x.y.fv
  let tneg := ((decide (x.v < 0) != s.sign) != decide (x.den < 0))
  let inf (b : Bool) : FRes := { bits := Fmt.f32.inf b, cnt := 0, flags := ovf, sig := false }
  let yOther : Bool := match y with
    | .inf b => b != tneg
    | _ => false
  if x.row.inv then .qnan .f32 Flg.invalid
  else if x.den = 0 then
    if x.v = 0 then .qnan .f32 (Flg.invalid ||| ovf)
    else if s.isNan ∨ s.isZero ∨ y.isNan ∨ yOther then .qnan .f32 (Flg.divZero ||| Flg.invalid ||| ovf)
    else { inf tneg with flags := Flg.divZero ||| ovf }
  else if s.isNan ∨ y.isNan then
    -- 0 × ∞ is invalid whatever the addend (R125, R319)
    let zi : Nat := match s with
      | .inf _ => if x.v = 0 then Flg.invalid else 0
      | _ => 0
    .qnan .f32 (anySNan s y ||| zi ||| ovf)
  else match s, y with
    | .inf _, _ => if x.v = 0 ∨ yOther then .qnan .f32 (Flg.invalid ||| ovf) else inf tneg
    | _, .inf b => inf b
    | _, _ => let r := scaleFin rm x; { r with flags := r.flags ||| ovf }

/-- Both forms of VSACC: `x` selects the denominator's column in the normalising form. -/
def State.vsacc (s : State) (d : BitVec 8) (n q y : BitVec 2) (m : BitVec 1) (sr : BitVec 4) (x : Option (BitVec 2)) : Out :=
  let so : MOp := { mop d with reg := sr.toNat }
  s.microM (mop d :: if m = 1 then [so] else []) [mop d] fun t v =>
    let a := n.toNat
    let ix := t.ixOf v y.toNat
    if !v.mayReadAcc a ∨ ix / 32 % 2 = 1 then .illegal
    else
      let r := ix % 32
      let den := match x with
        | some i => t.accVal a r (t.ixOf v i.toNat % 256)
        | none => 1
      let ss := if m = 1 then t.mRead (t.mref v so) else List.replicate 64 (t.zGet sr.toNat)
      let ys := t.mRead (t.mref v (mop d))
      s.putLanes t v (mop d) ((t.stepLanes v).map fun l =>
        (l, scaleLane (fpcRm v.cmd.fpc)
          { v := t.accVal a r (64 * q.toNat + l), den := den, s := ss.getD l {}, y := ys.getD l {}, row := t.row a r }))

/-- VSACC (R396). -/
def execVsacc (d : BitVec 8) (n q y : BitVec 2) (m : BitVec 1) (sc : BitVec 4) (s : State) : Out := s.vsacc d n q y m sc none
/-- VSACC.n (R396). -/
def execVsaccN (d : BitVec 8) (n q y : BitVec 2) (m : BitVec 1) (x : BitVec 2) (sc : BitVec 4) (s : State) : Out :=
  s.vsacc d n q y m sc (some x)

end Sys2Proof.Machine
end

