-- ==== Sys2Proof/Machine/VectorData.lean ====
section
/-! DEFINITION. Micro-orders that move, count, select and control: VNOP, VSEL, moves, significance, k, z and index
registers, flags, loops and waits (R373, R377, R380, R381, R383, R385, R386, R390, R397, R399, R401, R402). -/

namespace Sys2Proof.Machine

/-- VNOP (R386). -/
def execVnop (s : State) : Out := s.micro fun _ _ => .go s 0

/-- VMOV (R385). -/
def execVmov (d a : BitVec 8) (s : State) : Out := s.lanes1 d a fun _ x => x.res

/-- VROT (R390): lane L receives lane (L + n) mod 64. -/
def execVrot (d a : BitVec 8) (n : BitVec 6) (s : State) : Out :=
  s.microM [mop a] [mop d] fun t v =>
    let xs := t.mRead (t.mref v (mop a))
    s.putLanes t v (mop d) ((t.stepLanes v).map fun l => (l, (xs.getD ((l + n.toNat) % 64) {}).res))

/-- VBCAST (R373). -/
def execVbcast (d : BitVec 8) (z : BitVec 4) (s : State) : Out :=
  s.microM [] [mop d] fun t v => s.putLanes t v (mop d) ((t.stepLanes v).map fun l => (l, (t.zGet z.toNat).res))

/-- VSEL (R397): the mask select chooses, and every lane is written. -/
def execVsel (d a b : BitVec 8) (s : State) : Out :=
  s.microM [mop a, mop b] [mop d] fun t v =>
    let xs := t.mRead (t.mref v (mop a))
    let ys := t.mRead (t.mref v (mop b))
    let m := t.kGet (t.stepTag v v.upc % 4)
    s.putLanes t v (mop d) ((List.range 64).map fun l => (l, ((if bit m l then xs else ys).getD l {}).res))

/-! ## Significance (R399) -/

/-- VSIGQ. EXACT is below no n, and n is at most 31. -/
def execVsigq (k : BitVec 3) (a : BitVec 8) (n : BitVec 5) (s : State) : Out :=
  s.microM [mop a] [] fun t v =>
    let xs := t.mRead (t.mref v (mop a))
    .go (s.setTile s.focus (t.kMerge k.toNat (t.stepLanes v) fun l => decide ((xs.getD l {}).c < n.toNat))) 0

/-- VSIGR. -/
def execVsigr (d a : BitVec 8) (s : State) : Out := s.lanes1 d a fun _ x => plainRes x.c 0

/-- VSIGS: the value of d is unchanged. -/
def execVsigs (d a : BitVec 8) (s : State) : Out :=
  s.microM [mop a, mop d] [mop d] fun t v =>
    let xs := t.mRead (t.mref v (mop a))
    let ds := t.mRead (t.mref v (mop d))
    s.putLanes t v (mop d) ((t.stepLanes v).map fun l =>
      let x := (ds.getD l {}).val
      (l, plainRes x.toNat (storeCount x ((xs.getD l {}).val.toNat % 32)).toNat))

/-! ## Scalar file (R377, R380, R381, R402) -/

/-- VKSET (R381). -/
def execVkset (k : BitVec 3) (a b : BitVec 8) (s : State) : Out :=
  s.micro fun t v =>
    let ka := t.kGet (fld a 4 3)
    let kb := t.kGet (fld a 0 3)
    let lim := min (t.zGet (fld a 0 4)).val.toNat 64
    let set (f : Nat → Bool) : VRes := .go (s.setTile s.focus (t.kMerge k.toNat (t.stepLanes v) f)) 0
    match b.toNat with
    | 0 => if fld a 4 4 ≠ 0 then .illegal else set fun l => decide (l < lim)
    | 1 => if fld a 4 4 ≠ 0 then .illegal else set fun l => decide (lim ≤ l)
    | 2 => if bit a 7 ∨ bit a 3 then .illegal else set fun l => bit ka l && bit kb l
    | 3 => if bit a 7 ∨ bit a 3 then .illegal else set fun l => bit ka l || bit kb l
    | 4 => if bit a 7 ∨ bit a 3 then .illegal else set fun l => bit ka l && !bit kb l
    | 5 => if bit a 7 ∨ bit a 3 then .illegal else set fun l => bit ka l != bit kb l
    | _ => .illegal

/-- VZMOV from a lane of an m operand (R402). -/
def execVzmovLane (z : BitVec 4) (a : BitVec 8) (l : BitVec 6) (s : State) : Out :=
  s.microM [mop a] [] fun t v =>
    .go (s.setTile s.focus (t.zPut z.toNat (t.mGet (t.mref v (mop a)) l.toNat))) 0
/-- VZMOV from a z register (R402). -/
def execVzmovZ (z y : BitVec 4) (s : State) : Out :=
  s.micro fun t _ => .go (s.setTile s.focus (t.zPut z.toNat (t.zGet y.toNat))) 0

/-- VIDX (R380). -/
def execVidx (i : BitVec 3) (n : BitVec 16) (s : State) : Out :=
  s.micro fun t _ => .go (s.setTile s.focus { t with ix := Tab.set 0 t.ix i.toNat n }) 0
/-- VIDX.add (R380). -/
def execVidxAdd (i : BitVec 3) (n : BitVec 16) (s : State) : Out :=
  s.micro fun t _ => .go (s.setTile s.focus { t with ix := Tab.set 0 t.ix i.toNat (Tab.get 0 t.ix i.toNat + n) }) 0

/-- A flag set in z; the flags of VFLAG.new start empty (R377). -/
def State.vflag (s : State) (z : BitVec 4) (f : VsRun → Nat) : Out :=
  s.micro fun t v => .flagged (s.setTile s.focus (t.zPut z.toNat { val := BitVec.ofNat 32 (f v % 64), tag := 0 }))
/-- VFLAG (R377). -/
def execVflag (z : BitVec 4) (s : State) : Out := s.vflag z fun v => v.flags
/-- VFLAG.new (R377). -/
def execVflagNew (z : BitVec 4) (s : State) : Out := s.vflag z fun v => v.flagNew

/-! ## Loops (R383) -/

/-- The step after the VEND that matches a VLOOP, from step i on with `depth` loops open, within `n` steps. -/
def Tile.matchEnd (t : Tile) (v : VsRun) : Nat → Nat → Nat → Option Nat
  | 0, _, _ => none
  | n + 1, i, depth =>
    let op := fld (t.stepWord v i) 24 8
    if op = 0x81 then (if depth = 0 then some (i + 1) else t.matchEnd v n (i + 1) (depth - 1))
    else t.matchEnd v n (i + 1) (if op = 0x80 then depth + 1 else depth)

/-- VLOOP. Its step tag must be 0000. -/
def execVloop (n : BitVec 16) (s : State) : Out :=
  s.micro fun t v =>
    if t.stepTag v v.upc ≠ 0 ∨ 4 ≤ v.levels.length then .illegal
    else if n = 0 then
      match t.matchEnd v (v.steps - (v.upc + 1)) (v.upc + 1) 0 with
      | some i => .jump i v.levels
      | none => .illegal
    else .jump (v.upc + 1) (v.levels ++ [{ count := n.toNat, start := v.upc + 1 }])

/-- VEND. Its step tag must be 0000. -/
def execVend (s : State) : Out :=
  s.micro fun t v =>
    if t.stepTag v v.upc ≠ 0 then .illegal
    else match v.levels.getLast? with
      | none => .illegal
      | some l =>
        if l.count ≤ 1 then .jump (v.upc + 1) v.levels.dropLast
        else .jump l.start (v.levels.dropLast ++ [{ l with count := l.count - 1 }])

/-! ## Waits (R76, R387, R401) -/

/-- The bound that a b byte names, in cycles. -/
def Tile.vsBound (t : Tile) (b : BitVec 8) : Nat := if b = 0 then capDeflt t.waitCap else 256 * b.toNat

/-- VWAIT (R401). -/
def execVwait (tok : BitVec 6) (n b : BitVec 8) (s : State) : Out :=
  s.micro fun t v =>
    let tok := tok.toNat
    let n := n.toNat
    if n = 0 ∨ v.granted then .go s 0
    else match v.wait with
      | some w => .hold s w
      | none =>
        if t.canTake tok n then .go (s.setTile s.focus (t.take (s.dcc (tileDie s.focus)) tok n)) 0
        else .hold (s.setTile s.focus (t.addTaker tok (.vs n)))
          { on := .token tok n, since := s.dcc (tileDie s.focus), bound := some (t.vsBound b), parked := true }

end Sys2Proof.Machine
end

