-- ==== Sys2Proof/Machine/VectorInt.lean ====
section
/-! DEFINITION. Integer micro-orders (R379). -/

namespace Sys2Proof.Machine

/-- An integer clamped to 32 signed bits. -/
def sat32 (z : Int) : Int := max (-(2 ^ 31)) (min (2 ^ 31 - 1) z)

/-- Each written lane takes f of two 32-bit integers, tag 0. -/
def State.vint (s : State) (d a : BitVec 8) (y : VSrc) (f : W32 → W32 → Nat) : Out :=
  s.lanes2 d a y false fun _ x y _ => plainRes (f x.val y.val) 0

/-- VIADD. -/
def execViadd (d a b : BitVec 8) (s : State) : Out := s.vint d a (.m (mop b)) fun x y => wrapN (x.toInt + y.toInt) 32
/-- VIADD, scalar form. -/
def execViaddZ (d a : BitVec 8) (z : BitVec 4) (s : State) : Out := s.vint d a (.z z.toNat) fun x y => wrapN (x.toInt + y.toInt) 32
/-- VISUB. -/
def execVisub (d a b : BitVec 8) (s : State) : Out := s.vint d a (.m (mop b)) fun x y => wrapN (x.toInt - y.toInt) 32
/-- VISUB, scalar form. -/
def execVisubZ (d a : BitVec 8) (z : BitVec 4) (s : State) : Out := s.vint d a (.z z.toNat) fun x y => wrapN (x.toInt - y.toInt) 32
/-- VIMUL. -/
def execVimul (d a b : BitVec 8) (s : State) : Out := s.vint d a (.m (mop b)) fun x y => wrapN (x.toInt * y.toInt) 32
/-- VIMUL, scalar form. -/
def execVimulZ (d a : BitVec 8) (z : BitVec 4) (s : State) : Out := s.vint d a (.z z.toNat) fun x y => wrapN (x.toInt * y.toInt) 32
/-- VIMAX. -/
def execVimax (d a b : BitVec 8) (s : State) : Out := s.vint d a (.m (mop b)) fun x y => (if y.toInt ≤ x.toInt then x else y).toNat
/-- VIMAX, scalar form. -/
def execVimaxZ (d a : BitVec 8) (z : BitVec 4) (s : State) : Out := s.vint d a (.z z.toNat) fun x y => (if y.toInt ≤ x.toInt then x else y).toNat
/-- VIMIN. -/
def execVimin (d a b : BitVec 8) (s : State) : Out := s.vint d a (.m (mop b)) fun x y => (if x.toInt ≤ y.toInt then x else y).toNat
/-- VIMIN, scalar form. -/
def execViminZ (d a : BitVec 8) (z : BitVec 4) (s : State) : Out := s.vint d a (.z z.toNat) fun x y => (if x.toInt ≤ y.toInt then x else y).toNat
/-- VBIT.and. -/
def execVbitAnd (d a b : BitVec 8) (s : State) : Out := s.vint d a (.m (mop b)) fun x y => (x &&& y).toNat
/-- VBIT.or. -/
def execVbitOr (d a b : BitVec 8) (s : State) : Out := s.vint d a (.m (mop b)) fun x y => (x ||| y).toNat
/-- VBIT.xor. -/
def execVbitXor (d a b : BitVec 8) (s : State) : Out := s.vint d a (.m (mop b)) fun x y => (x ^^^ y).toNat
/-- VBIT.andn. -/
def execVbitAndn (d a b : BitVec 8) (s : State) : Out := s.vint d a (.m (mop b)) fun x y => (x &&& ~~~y).toNat
/-- VSHF.shl. -/
def execVshfShl (d a b : BitVec 8) (s : State) : Out := s.vint d a (.m (mop b)) fun x y => (x <<< (y.toNat % 32)).toNat
/-- VSHF.shr. -/
def execVshfShr (d a b : BitVec 8) (s : State) : Out := s.vint d a (.m (mop b)) fun x y => (x >>> (y.toNat % 32)).toNat
/-- VSHF.sra. -/
def execVshfSra (d a b : BitVec 8) (s : State) : Out := s.vint d a (.m (mop b)) fun x y => (x.sshiftRight (y.toNat % 32)).toNat
/-- VIADD.sat. -/
def execViaddSat (d a b : BitVec 8) (s : State) : Out := s.vint d a (.m (mop b)) fun x y => wrapN (sat32 (x.toInt + y.toInt)) 32
/-- VISUB.sat. -/
def execVisubSat (d a b : BitVec 8) (s : State) : Out := s.vint d a (.m (mop b)) fun x y => wrapN (sat32 (x.toInt - y.toInt)) 32
/-- VIMAX.n. -/
def execVimaxN (d a b : BitVec 8) (s : State) : Out := s.vint d a (.m (mop b)) fun x y => (if y.toNat ≤ x.toNat then x else y).toNat
/-- VIMIN.n. -/
def execViminN (d a b : BitVec 8) (s : State) : Out := s.vint d a (.m (mop b)) fun x y => (if x.toNat ≤ y.toNat then x else y).toNat

end Sys2Proof.Machine
end

