-- ==== Sys2Proof/Machine/VectorMem.lean ====
section
/-! DEFINITION. Micro-orders on the tile's own slice and on stream records (R382, R387, R388, R400). -/

namespace Sys2Proof.Machine

/-- A plain reference to a byte of the tile's slice (R175): how a fault of the VS names it (log 34). -/
def State.sliceRef (s : State) (k o : Nat) : W64 := w64 (0xFE * 2 ^ 56 + s.plainName (sliceBase k + o))

/-- Slice offset of the tag byte of the element at offset o (R382). -/
def tagOffset (o : Nat) : Nat := 0x300000 + o / 4

/-- The fault of one lane's access of `len` bytes at offset o from base z, by the table of R382. -/
def State.sliceFault (s : State) (v : VsRun) (z o len : Nat) (tagged reads : Bool) : Option (Nat × W64) :=
  let k := s.focus
  if !v.slice then some (Cls.extent, s.sliceRef k o)
  else if z % len ≠ 0 then some (Cls.align, s.sliceRef k o)
  else if o + len > 2 ^ 22 ∨ (tagged ∧ 0x300000 ≤ o) then some (Cls.extent, s.sliceRef k o)
  else if reads ∧ (s.badSector (sliceBase k + o) len).isSome then some (Cls.uncorrectable, s.sliceRef k o)
  else if reads ∧ tagged ∧ (s.badSector (sliceBase k + tagOffset o) 1).isSome then some (Cls.uncorrectable, s.sliceRef k (tagOffset o))
  else none

/-- The trap of the lowest lane that fails. -/
def State.sliceTrap (s : State) (v : VsRun) (ls : List Nat) (z len step : Nat) (tagged reads : Bool) : Option TrapInfo :=
  ls.findSome? fun l =>
    (s.sliceFault v z (z + step * l) len tagged reads).map fun f => { cls := f.1, faddr := f.2, lane := l }

/-- VLD and VLD.t (R382). -/
def State.vload (s : State) (d : BitVec 8) (z : BitVec 4) (stride : Nat) (tagged : Bool) : Out :=
  s.microM [] [mop d] fun t v =>
    let o := (t.zGet z.toNat).val.toNat
    let ls := t.stepLanes v
    let base := sliceBase s.focus
    match s.sliceTrap v ls o 4 (4 * stride) tagged true with
    | some i => .trap i 0
    | none =>
      s.putLanes t v (mop d) (ls.map fun l =>
        let a := o + 4 * stride * l
        let x : W32 := BitVec.ofNat 32 (leNat (s.bytes (base + a) 4))
        let c := if tagged then (s.byte (base + tagOffset a)).toNat % 32 else 24
        (l, plainRes x.toNat (storeCount x c).toNat))

/-- VLD (R382). -/
def execVld (d : BitVec 8) (z : BitVec 4) (sc : BitVec 8) (s : State) : Out := s.vload d z sc.toNat false
/-- VLD.t (R382). -/
def execVldT (d : BitVec 8) (z : BitVec 4) (sc : BitVec 8) (s : State) : Out := s.vload d z sc.toNat true

/-- Bytes per lane of a width field; none where it is reserved (R388). -/
def laneBytes (w : Nat) : Option Nat :=
  match w with
  | 0 => some 4
  | 1 => some 2
  | 2 => some 1
  | _ => none

/-- Lanes' elements stored at offsets from z, in increasing lane order, each with its tag byte where `tagged` (R400). -/
def State.storeLanes (s : State) (xs : List VElem) (ls : List Nat) (z len step : Nat) (tagged : Bool) : State :=
  let base := sliceBase s.focus
  ls.foldl (fun s l =>
    let x := xs.getD l {}
    let o := z + step * l
    let s := s.writePlain (base + o) (leBytes len x.val.toNat)
    if tagged then s.writePlain (base + tagOffset o) (leBytes 1 x.tag.toNat) else s) s

/-- VST and VST.t (R400). -/
def State.vstore (s : State) (d : BitVec 8) (z : BitVec 4) (w : Nat) (stride : Nat) (tagged : Bool) : Out :=
  s.microM [mop d] [] fun t v =>
    match laneBytes w with
    | none => .illegal
    | some len =>
      let o := (t.zGet z.toNat).val.toNat
      let ls := t.stepLanes v
      match s.sliceTrap v ls o len (len * stride) tagged true with
      | some i => .trap i 0
      | none => .go (s.storeLanes (t.mRead (t.mref v (mop d))) ls o len (len * stride) tagged) 0

/-- VST (R400). -/
def execVst (d : BitVec 8) (z : BitVec 4) (w : BitVec 2) (sc : BitVec 6) (s : State) : Out := s.vstore d z w.toNat sc.toNat false
/-- VST.t (R400). -/
def execVstT (d : BitVec 8) (z : BitVec 4) (sc : BitVec 6) (s : State) : Out := s.vstore d z 0 sc.toNat true

/-- VPUSH (R388). -/
def execVpush (d : BitVec 8) (z : BitVec 4) (w : BitVec 2) (s : State) : Out :=
  s.microM [mop d] [] fun t v =>
    match laneBytes w.toNat with
    | none => .illegal
    | some len =>
      let o := (t.zGet z.toNat).val.toNat
      if !v.slice then .trap { cls := Cls.extent, faddr := s.sliceRef s.focus o } 0
      else if o % len ≠ 0 then .trap { cls := Cls.align, faddr := s.sliceRef s.focus o } 0
      else if o + 64 * len > 2 ^ 22 then .trap { cls := Cls.extent, faddr := s.sliceRef s.focus o } 0
      else
        let s := s.storeLanes (t.mRead (t.mref v (mop d))) (t.stepLanes v) o len len false
        .go (s.modTile s.focus fun t => t.zPut z.toNat { val := BitVec.ofNat 32 (o + 64 * len), tag := 0 }) 0

/-- A live record has the record as its index source (R169); once redefined it serves that one no longer (R404). -/
def Tile.feeds (t : Tile) (n : Nat) : Bool := t.streams.any fun (w : Nat × Stream) => w.2.live && !w.2.orphan && w.2.src = some n

/-- VPOP (R387). -/
def execVpop (d : BitVec 8) (w : BitVec 4) (b : BitVec 8) (s : State) : Out :=
  s.microM [] [mop d] fun t v =>
    let n := w.toNat
    let x := Tab.get {} t.streams n
    if !v.pops ∨ t.feeds n ∨ !x.live then .illegal
    else match x.queue with
      | .fault cls va :: _ => .trap { cls := cls, faddr := va, objk := 4, obj := n } 0
      | .lanes l fl :: r =>
        let u := { t with streams := Tab.put t.streams n { x with queue := r, popped := x.popped + 1, taken := 0 } }
        match s.putLanes u v (mop d) ((t.stepLanes v).map fun i => (i, (l.getD i {}).res)) with
        | .go s _ => .go s fl
        | r => r
      | [] => match v.wait with
        | some w => .hold s w
        | none => .hold s { on := .stream n, since := s.dcc (tileDie s.focus), bound := some (t.vsBound b), parked := false }

end Sys2Proof.Machine
end

