-- ==== Sys2Proof/Machine/Dispatch.lean ====
section
/-! DEFINITION. One arm per instruction: a direct call of its meaning, or its rejection by name. -/

namespace Sys2Proof.Machine

def exec (i : Instr) (s : State) : Host.Outcome State Fault Refusal :=
  match i with
  | .ill x => Sys2Proof.Machine.execIll x s
  | .add d a b => Sys2Proof.Machine.execAdd d a b s
  | .sub d a b => Sys2Proof.Machine.execSub d a b s
  | .mul d a b => Sys2Proof.Machine.execMul d a b s
  | .mulHi d a b => Sys2Proof.Machine.execMulHi d a b s
  | .mulHiN d a b => Sys2Proof.Machine.execMulHiN d a b s
  | .div d a b => Sys2Proof.Machine.execDiv d a b s
  | .divN d a b => Sys2Proof.Machine.execDivN d a b s
  | .rem d a b => Sys2Proof.Machine.execRem d a b s
  | .remN d a b => Sys2Proof.Machine.execRemN d a b s
  | .and d a b => Sys2Proof.Machine.execAnd d a b s
  | .or d a b => Sys2Proof.Machine.execOr d a b s
  | .xor d a b => Sys2Proof.Machine.execXor d a b s
  | .shl d a b => Sys2Proof.Machine.execShl d a b s
  | .shr d a b => Sys2Proof.Machine.execShr d a b s
  | .sra d a b => Sys2Proof.Machine.execSra d a b s
  | .min d a b => Sys2Proof.Machine.execMin d a b s
  | .minN d a b => Sys2Proof.Machine.execMinN d a b s
  | .max d a b => Sys2Proof.Machine.execMax d a b s
  | .maxN d a b => Sys2Proof.Machine.execMaxN d a b s
  | .slt d a b => Sys2Proof.Machine.execSlt d a b s
  | .sltN d a b => Sys2Proof.Machine.execSltN d a b s
  | .clz d a => Sys2Proof.Machine.execClz d a s
  | .popc d a => Sys2Proof.Machine.execPopc d a s
  | .sextB d a => Sys2Proof.Machine.execSextB d a s
  | .sextH d a => Sys2Proof.Machine.execSextH d a s
  | .sextW d a => Sys2Proof.Machine.execSextW d a s
  | .addSat d a b => Sys2Proof.Machine.execAddSat d a b s
  | .subSat d a b => Sys2Proof.Machine.execSubSat d a b s
  | .addImm d a i1 => Sys2Proof.Machine.execAddImm d a i1 s
  | .lih d i1 => Sys2Proof.Machine.execLih d i1 s
  | .pset c q a b => Sys2Proof.Machine.execPset c q a b s
  | .plogAnd d a b => Sys2Proof.Machine.execPlogAnd d a b s
  | .plogOr d a b => Sys2Proof.Machine.execPlogOr d a b s
  | .plogXor d a b => Sys2Proof.Machine.execPlogXor d a b s
  | .plogAndn d a b => Sys2Proof.Machine.execPlogAndn d a b s
  | .plogNot d a => Sys2Proof.Machine.execPlogNot d a s
  | .ld d b sc o z g i1 => Sys2Proof.Machine.execLd d b sc o z g i1 s
  | .st d b sc o z i1 => Sys2Proof.Machine.execSt d b sc o z i1 s
  | .fld d a i1 => Sys2Proof.Machine.execFld d a i1 s
  | .fldT d a i1 => Sys2Proof.Machine.execFldT d a i1 s
  | .fst d a i1 => Sys2Proof.Machine.execFst d a i1 s
  | .fstT d a i1 => Sys2Proof.Machine.execFstT d a i1 s
  | .br c a b o => Sys2Proof.Machine.execBr c a b o s
  | .bq n q o => Sys2Proof.Machine.execBq n q o s
  | .jal d i1 => Sys2Proof.Machine.execJal d i1 s
  | .jalr d a i1 => Sys2Proof.Machine.execJalr d a i1 s
  | .loop a o => Sys2Proof.Machine.execLoop a o s
  | .bsig a n o => Sys2Proof.Machine.execBsig a n o s
  | .grd q n c => Sys2Proof.Machine.execGrd q n c s
  | .pfx i1 => Sys2Proof.Machine.execPfx i1 s
  | .fadd d a b => Sys2Proof.Machine.execFadd d a b s
  | .fsub d a b => Sys2Proof.Machine.execFsub d a b s
  | .fmul d a b => Sys2Proof.Machine.execFmul d a b s
  | .fdiv d a b => Sys2Proof.Machine.execFdiv d a b s
  | .fsqrt d a => Sys2Proof.Machine.execFsqrt d a s
  | .fmax d a b => Sys2Proof.Machine.execFmax d a b s
  | .fmin d a b => Sys2Proof.Machine.execFmin d a b s
  | .fsgn d a b => Sys2Proof.Machine.execFsgn d a b s
  | .fsgnN d a b => Sys2Proof.Machine.execFsgnN d a b s
  | .fsgnX d a b => Sys2Proof.Machine.execFsgnX d a b s
  | .fmov d a => Sys2Proof.Machine.execFmov d a s
  | .fclass d a => Sys2Proof.Machine.execFclass d a s
  | .ffma d a b c => Sys2Proof.Machine.execFfma d a b c s
  | .fcmp c q a b => Sys2Proof.Machine.execFcmp c q a b s
  | .fcvt d a k r => Sys2Proof.Machine.execFcvt d a k r s
  | .fsigRead d a => Sys2Proof.Machine.execFsigRead d a s
  | .fsigSet d a => Sys2Proof.Machine.execFsigSet d a s
  | .fsigImm d i1 => Sys2Proof.Machine.execFsigImm d i1 s
  | .aadd d a b sc o z n => Sys2Proof.Machine.execAadd d a b sc o z n s
  | .alogAnd d a b sc o z n => Sys2Proof.Machine.execAlogAnd d a b sc o z n s
  | .alogOr d a b sc o z n => Sys2Proof.Machine.execAlogOr d a b sc o z n s
  | .alogXor d a b sc o z n => Sys2Proof.Machine.execAlogXor d a b sc o z n s
  | .amax d a b sc o z n => Sys2Proof.Machine.execAmax d a b sc o z n s
  | .amaxN d a b sc o z n => Sys2Proof.Machine.execAmaxN d a b sc o z n s
  | .amin d a b sc o z n => Sys2Proof.Machine.execAmin d a b sc o z n s
  | .aminN d a b sc o z n => Sys2Proof.Machine.execAminN d a b sc o z n s
  | .amaxf d a b sc o n => Sys2Proof.Machine.execAmaxf d a b sc o n s
  | .aminf d a b sc o n => Sys2Proof.Machine.execAminf d a b sc o n s
  | .aaddf d a b sc o n => Sys2Proof.Machine.execAaddf d a b sc o n s
  | .acas d a b sc o z => Sys2Proof.Machine.execAcas d a b sc o z s
  | .axch d a b sc o z n => Sys2Proof.Machine.execAxch d a b sc o z n s
  | .atq d a b => Sys2Proof.Machine.execAtq d a b s
  | .mark => Sys2Proof.Machine.execMark s
  | .fence sc => Sys2Proof.Machine.execFence sc s
  | .afence => Sys2Proof.Machine.execAfence s
  | .evsig a b => Sys2Proof.Machine.execEvsig a b s
  | .evsigR a => Sys2Proof.Machine.execEvsigR a s
  | .evwait a b => Sys2Proof.Machine.execEvwait a b s
  | .evpoll d a => Sys2Proof.Machine.execEvpoll d a s
  | .barinit a b => Sys2Proof.Machine.execBarinit a b s
  | .baradd a b => Sys2Proof.Machine.execBaradd a b s
  | .barwait d a i1 => Sys2Proof.Machine.execBarwait d a i1 s
  | .toksig t a i1 => Sys2Proof.Machine.execToksig t a i1 s
  | .tokwait t a i1 => Sys2Proof.Machine.execTokwait t a i1 s
  | .sqnew d a => Sys2Proof.Machine.execSqnew d a s
  | .sqres d a b => Sys2Proof.Machine.execSqres d a b s
  | .sqcom d a b => Sys2Proof.Machine.execSqcom d a b s
  | .sqlen d a => Sys2Proof.Machine.execSqlen d a s
  | .sqfork d a b => Sys2Proof.Machine.execSqfork d a b s
  | .sqdrop a => Sys2Proof.Machine.execSqdrop a s
  | .sqslot d a b => Sys2Proof.Machine.execSqslot d a b s
  | .sqseal a => Sys2Proof.Machine.execSqseal a s
  | .sqwait d a i1 => Sys2Proof.Machine.execSqwait d a i1 s
  | .vrun a g c x y => Sys2Proof.Machine.execVrun a g c x y s
  | .vbase a g c x y => Sys2Proof.Machine.execVbase a g c x y s
  | .vbaseL a g c x y => Sys2Proof.Machine.execVbaseL a g c x y s
  | .vhalt a g c x y => Sys2Proof.Machine.execVhalt a g c x y s
  | .vsend a g c x y => Sys2Proof.Machine.execVsend a g c x y s
  | .mldb a g c x y => Sys2Proof.Machine.execMldb a g c x y s
  | .mmul a g c x y => Sys2Proof.Machine.execMmul a g c x y s
  | .mdrain a g c x y => Sys2Proof.Machine.execMdrain a g c x y s
  | .mdrainS a g c x y => Sys2Proof.Machine.execMdrainS a g c x y s
  | .mclr a g c x y => Sys2Proof.Machine.execMclr a g c x y s
  | .mbase a g c x y => Sys2Proof.Machine.execMbase a g c x y s
  | .mshr a g c x y => Sys2Proof.Machine.execMshr a g c x y s
  | .wdef a g c x y => Sys2Proof.Machine.execWdef a g c x y s
  | .tmap d a i1 => Sys2Proof.Machine.execTmap d a i1 s
  | .tload a g c x y => Sys2Proof.Machine.execTload a g c x y s
  | .tstore a g c x y => Sys2Proof.Machine.execTstore a g c x y s
  | .tgath a g c x y => Sys2Proof.Machine.execTgath a g c x y s
  | .tscat a g c x y => Sys2Proof.Machine.execTscat a g c x y s
  | .xpat a g c x y => Sys2Proof.Machine.execXpat a g c x y s
  | .hexch a g c x y => Sys2Proof.Machine.execHexch a g c x y s
  | .layset a g c x y => Sys2Proof.Machine.execLayset a g c x y s
  | .laysetPass a g c x y => Sys2Proof.Machine.execLaysetPass a g c x y s
  | .layget d a f => Sys2Proof.Machine.execLayget d a f s
  | .reshard a g c x y => Sys2Proof.Machine.execReshard a g c x y s
  | .cred a g c x y => Sys2Proof.Machine.execCred a g c x y s
  | .cbcast a g c x y => Sys2Proof.Machine.execCbcast a g c x y s
  | .discard a b => Sys2Proof.Machine.execDiscard a b s
  | .pref a b => Sys2Proof.Machine.execPref a b s
  | .spawn d a b => Sys2Proof.Machine.execSpawn d a b s
  | .join d a b => Sys2Proof.Machine.execJoin d a b s
  | .exit => Sys2Proof.Machine.execExit s
  | .exitD => Sys2Proof.Machine.execExitD s
  | .yield => Sys2Proof.Machine.execYield s
  | .cancel d a => Sys2Proof.Machine.execCancel d a s
  | .cmpl d a b => Sys2Proof.Machine.execCmpl d a b s
  | .region m c sc => Sys2Proof.Machine.execRegion m c sc s
  | .segend a i1 => Sys2Proof.Machine.execSegend a i1 s
  | .nop => Sys2Proof.Machine.execNop s
  | .trap c => Sys2Proof.Machine.execTrap c s
  | .eret => Sys2Proof.Machine.execEret s
  | .ctlr d n => Sys2Proof.Machine.execCtlr d n s
  | .ctlw a n => Sys2Proof.Machine.execCtlw a n s
  | .bufphSwap a => Sys2Proof.Machine.execBufphSwap a s
  | .bufphClose a => Sys2Proof.Machine.execBufphClose a s
  | .tlbi a k => Sys2Proof.Machine.execTlbi a k s
  | .cyc d k => Sys2Proof.Machine.execCyc d k s
  | .vnop => Sys2Proof.Machine.execVnop s
  | .vadd d a b => Sys2Proof.Machine.execVadd d a b s
  | .vaddZ d a z => Sys2Proof.Machine.execVaddZ d a z s
  | .vsub d a b => Sys2Proof.Machine.execVsub d a b s
  | .vsubZ d a z => Sys2Proof.Machine.execVsubZ d a z s
  | .vmul d a b => Sys2Proof.Machine.execVmul d a b s
  | .vmulZ d a z => Sys2Proof.Machine.execVmulZ d a z s
  | .vfma d a b => Sys2Proof.Machine.execVfma d a b s
  | .vfmaZ d a z => Sys2Proof.Machine.execVfmaZ d a z s
  | .vfmaS d a b => Sys2Proof.Machine.execVfmaS d a b s
  | .vfmaSZ d a z => Sys2Proof.Machine.execVfmaSZ d a z s
  | .vdiv d a b => Sys2Proof.Machine.execVdiv d a b s
  | .vdivZ d a z => Sys2Proof.Machine.execVdivZ d a z s
  | .vmax d a b => Sys2Proof.Machine.execVmax d a b s
  | .vmaxZ d a z => Sys2Proof.Machine.execVmaxZ d a z s
  | .vmin d a b => Sys2Proof.Machine.execVmin d a b s
  | .vminZ d a z => Sys2Proof.Machine.execVminZ d a z s
  | .vsgn d a b => Sys2Proof.Machine.execVsgn d a b s
  | .vsgnZ d a z => Sys2Proof.Machine.execVsgnZ d a z s
  | .vrcp d a => Sys2Proof.Machine.execVrcp d a s
  | .vrsq d a => Sys2Proof.Machine.execVrsq d a s
  | .vsqrt d a => Sys2Proof.Machine.execVsqrt d a s
  | .vexp2 d a => Sys2Proof.Machine.execVexp2 d a s
  | .vlog2 d a => Sys2Proof.Machine.execVlog2 d a s
  | .vcmpEq k a b => Sys2Proof.Machine.execVcmpEq k a b s
  | .vcmpLt k a b => Sys2Proof.Machine.execVcmpLt k a b s
  | .vcmpLe k a b => Sys2Proof.Machine.execVcmpLe k a b s
  | .vcmpUn k a b => Sys2Proof.Machine.execVcmpUn k a b s
  | .vcmpZEq k a z => Sys2Proof.Machine.execVcmpZEq k a z s
  | .vcmpZLt k a z => Sys2Proof.Machine.execVcmpZLt k a z s
  | .vcmpZLe k a z => Sys2Proof.Machine.execVcmpZLe k a z s
  | .vcmpZUn k a z => Sys2Proof.Machine.execVcmpZUn k a z s
  | .vsel d a b => Sys2Proof.Machine.execVsel d a b s
  | .viadd d a b => Sys2Proof.Machine.execViadd d a b s
  | .viaddZ d a z => Sys2Proof.Machine.execViaddZ d a z s
  | .visub d a b => Sys2Proof.Machine.execVisub d a b s
  | .visubZ d a z => Sys2Proof.Machine.execVisubZ d a z s
  | .vimul d a b => Sys2Proof.Machine.execVimul d a b s
  | .vimulZ d a z => Sys2Proof.Machine.execVimulZ d a z s
  | .vimax d a b => Sys2Proof.Machine.execVimax d a b s
  | .vimaxZ d a z => Sys2Proof.Machine.execVimaxZ d a z s
  | .vimin d a b => Sys2Proof.Machine.execVimin d a b s
  | .viminZ d a z => Sys2Proof.Machine.execViminZ d a z s
  | .vbitAnd d a b => Sys2Proof.Machine.execVbitAnd d a b s
  | .vbitOr d a b => Sys2Proof.Machine.execVbitOr d a b s
  | .vbitXor d a b => Sys2Proof.Machine.execVbitXor d a b s
  | .vbitAndn d a b => Sys2Proof.Machine.execVbitAndn d a b s
  | .vshfShl d a b => Sys2Proof.Machine.execVshfShl d a b s
  | .vshfShr d a b => Sys2Proof.Machine.execVshfShr d a b s
  | .vshfSra d a b => Sys2Proof.Machine.execVshfSra d a b s
  | .viaddSat d a b => Sys2Proof.Machine.execViaddSat d a b s
  | .visubSat d a b => Sys2Proof.Machine.execVisubSat d a b s
  | .vimaxN d a b => Sys2Proof.Machine.execVimaxN d a b s
  | .viminN d a b => Sys2Proof.Machine.execViminN d a b s
  | .vcvt d a r k => Sys2Proof.Machine.execVcvt d a r k s
  | .vqnt d a e m f => Sys2Proof.Machine.execVqnt d a e m f s
  | .vrsum z a => Sys2Proof.Machine.execVrsum z a s
  | .vrmax z a => Sys2Proof.Machine.execVrmax z a s
  | .vrmin z a => Sys2Proof.Machine.execVrmin z a s
  | .vmov d a => Sys2Proof.Machine.execVmov d a s
  | .vrot d a n => Sys2Proof.Machine.execVrot d a n s
  | .vbcast d z => Sys2Proof.Machine.execVbcast d z s
  | .vld d z sc => Sys2Proof.Machine.execVld d z sc s
  | .vst d z w sc => Sys2Proof.Machine.execVst d z w sc s
  | .vldT d z sc => Sys2Proof.Machine.execVldT d z sc s
  | .vstT d z sc => Sys2Proof.Machine.execVstT d z sc s
  | .vpop d w b => Sys2Proof.Machine.execVpop d w b s
  | .vpush d z w => Sys2Proof.Machine.execVpush d z w s
  | .vsacc d n q y m sc => Sys2Proof.Machine.execVsacc d n q y m sc s
  | .vsaccN d n q y m x sc => Sys2Proof.Machine.execVsaccN d n q y m x sc s
  | .vaccr d n q y f => Sys2Proof.Machine.execVaccr d n q y f s
  | .vsigq k a n => Sys2Proof.Machine.execVsigq k a n s
  | .vsigs d a => Sys2Proof.Machine.execVsigs d a s
  | .vsigr d a => Sys2Proof.Machine.execVsigr d a s
  | .vloop n => Sys2Proof.Machine.execVloop n s
  | .vend => Sys2Proof.Machine.execVend s
  | .vflag z => Sys2Proof.Machine.execVflag z s
  | .vflagNew z => Sys2Proof.Machine.execVflagNew z s
  | .vwait t n b => Sys2Proof.Machine.execVwait t n b s
  | .vidx i1 n => Sys2Proof.Machine.execVidx i1 n s
  | .vidxAdd i1 n => Sys2Proof.Machine.execVidxAdd i1 n s
  | .vkset k a b => Sys2Proof.Machine.execVkset k a b s
  | .vzmovLane z a l => Sys2Proof.Machine.execVzmovLane z a l s
  | .vzmovZ z y => Sys2Proof.Machine.execVzmovZ z y s
  | .registerWrite w => Sys2Proof.Machine.execRegisterWrite w s
  | .launchNotify pkg fid slot value => Sys2Proof.Machine.execLaunchNotify pkg fid slot value s
  | .launchStampReread pkg fid slot => Sys2Proof.Machine.execLaunchStampReread pkg fid slot s
  | .launchUnitRegister job launch => Sys2Proof.Machine.execLaunchUnitRegister job launch s
  | .cqCtlWrite pkg fid value => Sys2Proof.Machine.execCqCtlWrite pkg fid value s
  | .cqHeadWrite pkg fid value => Sys2Proof.Machine.execCqHeadWrite pkg fid value s
  | .firmwarePreempt tile => Sys2Proof.Machine.execFirmwarePreempt tile s
  | .dispatch die => Sys2Proof.Machine.execDispatch die s
  | .agingSweep die => Sys2Proof.Machine.execAgingSweep die s
  | .translationComplete die idx => Sys2Proof.Machine.execTranslationComplete die idx s
  | .forcedSave tile => Sys2Proof.Machine.execForcedSave tile s
  | .contextFrameFree tile => Sys2Proof.Machine.execContextFrameFree tile s
  | .cancelLimitExpiry tile => Sys2Proof.Machine.execCancelLimitExpiry tile s
  | .eventWaitRepresent die idx => Sys2Proof.Machine.execEventWaitRepresent die idx s
  | .pendingSignalApply die => Sys2Proof.Machine.execPendingSignalApply die s
  | .commandStart tile queue n => Sys2Proof.Machine.execCommandStart tile queue n s
  | .commandComplete tile pos => Sys2Proof.Machine.execCommandComplete tile pos s
  | .schedMiss tile => Sys2Proof.Machine.execSchedMiss tile s
  | .waitBound tile who => Sys2Proof.Machine.execWaitBound tile who s
  | .handlerEntry tile => Sys2Proof.Machine.execHandlerEntry tile s
  | .lateLegFault tile pos cls faddr => Sys2Proof.Machine.execLateLegFault tile pos cls faddr s
  | .streamFillEntry tile rec => Sys2Proof.Machine.execStreamFillEntry tile rec s
  | .mmulChunkCommit tile => Sys2Proof.Machine.execMmulChunkCommit tile s
  | .cimGateIdle tile set => Sys2Proof.Machine.execCimGateIdle tile set s
  | .cimWakeEnd tile set => Sys2Proof.Machine.execCimWakeEnd tile set s
  | .loggedRequestAtHome src dst => Sys2Proof.Machine.execLoggedRequestAtHome src dst s
  | .remoteResponse id poisoned => Sys2Proof.Machine.execRemoteResponse id poisoned s
  | .requestDeadline id => Sys2Proof.Machine.execRequestDeadline id s
  | .scrubRead die sector correctable => Sys2Proof.Machine.execScrubRead die sector correctable s
  | .scrubWriteback die sector => Sys2Proof.Machine.execScrubWriteback die sector s
  | .pteChange job va entry => Sys2Proof.Machine.execPteChange job va entry s
  | .revocationReceive id tile => Sys2Proof.Machine.execRevocationReceive id tile s
  | .revocationAck id tile => Sys2Proof.Machine.execRevocationAck id tile s
  | .revocationComplete id => Sys2Proof.Machine.execRevocationComplete id s
  | .migrationComplete job va target => Sys2Proof.Machine.execMigrationComplete job va target s
  | .grantNarrowing id => Sys2Proof.Machine.execGrantNarrowing id s
  | .narrowingAck id => Sys2Proof.Machine.execNarrowingAck id s
  | .seqHomeRetry id => Sys2Proof.Machine.execSeqHomeRetry id s
  | .seqHomeRefuse id => Sys2Proof.Machine.execSeqHomeRefuse id s
  | .flitRetransmitRequest die port flit => Sys2Proof.Machine.execFlitRetransmitRequest die port flit s
  | .linkDown die port => Sys2Proof.Machine.execLinkDown die port s
  | .timeSyncExchange die lead => Sys2Proof.Machine.execTimeSyncExchange die lead s
  | .timeReferenceFail die => Sys2Proof.Machine.execTimeReferenceFail die s
  | .timeReferenceReturn die => Sys2Proof.Machine.execTimeReferenceReturn die s
  | .hubWatchdogExpiry die => Sys2Proof.Machine.execHubWatchdogExpiry die s
  | .packageLinksDown pkg => Sys2Proof.Machine.execPackageLinksDown pkg s
  | .lossNotice die member => Sys2Proof.Machine.execLossNotice die member s
  | .slabArrival id => Sys2Proof.Machine.execSlabArrival id s
  | .laysetDistribute id => Sys2Proof.Machine.execLaysetDistribute id s
  | .laysetInstall id => Sys2Proof.Machine.execLaysetInstall id s
  | .reshardPassTime die job => Sys2Proof.Machine.execReshardPassTime die job s
  | .reshardReady id => Sys2Proof.Machine.execReshardReady id s
  | .reshardSlackExpiry die job => Sys2Proof.Machine.execReshardSlackExpiry die job s
  | .reshardAbort id => Sys2Proof.Machine.execReshardAbort id s
  | .reshardPassEnd die job => Sys2Proof.Machine.execReshardPassEnd die job s
  | .reshardReport id => Sys2Proof.Machine.execReshardReport id s
  | .reshardCommit id => Sys2Proof.Machine.execReshardCommit id s
  | .reshardLocalMove die job => Sys2Proof.Machine.execReshardLocalMove die job s
  | .collectivePartialArrival id => Sys2Proof.Machine.execCollectivePartialArrival id s
  | .collectiveForward die job cid => Sys2Proof.Machine.execCollectiveForward die job cid s
  | .collectiveRootFinish die job cid => Sys2Proof.Machine.execCollectiveRootFinish die job cid s
  | .collectiveResultArrival id => Sys2Proof.Machine.execCollectiveResultArrival id s
  | .collectiveSlotTimeout die job cid => Sys2Proof.Machine.execCollectiveSlotTimeout die job cid s
  | .cbcastDeadline die job cid => Sys2Proof.Machine.execCbcastDeadline die job cid s
  | .flrInitiate pkg fid => Sys2Proof.Machine.execFlrInitiate pkg fid s
  | .flrDrainDone pkg fid => Sys2Proof.Machine.execFlrDrainDone pkg fid s
  | .packageReset pkg slotA slotB field => Sys2Proof.Machine.execPackageReset pkg slotA slotB field s
  | .firmwareUpdate pkg image root => Sys2Proof.Machine.execFirmwareUpdate pkg image root s
  | .svnCommit pkg svn => Sys2Proof.Machine.execSvnCommit pkg svn s
  | .getVersion pkg fid => Sys2Proof.Machine.execGetVersion pkg fid s
  | .getCapabilities pkg fid => Sys2Proof.Machine.execGetCapabilities pkg fid s
  | .negotiateAlgorithms pkg fid offered => Sys2Proof.Machine.execNegotiateAlgorithms pkg fid offered s
  | .getDigests pkg fid => Sys2Proof.Machine.execGetDigests pkg fid s
  | .getCertificate pkg fid => Sys2Proof.Machine.execGetCertificate pkg fid s
  | .challenge pkg fid nonce => Sys2Proof.Machine.execChallenge pkg fid nonce s
  | .getMeasurements pkg fid index => Sys2Proof.Machine.execGetMeasurements pkg fid index s
  | .spdmUnsupported pkg fid code => Sys2Proof.Machine.execSpdmUnsupported pkg fid code s
  | .droopStretch die stretch => Sys2Proof.Machine.execDroopStretch die stretch s
  | .powerWindow pkg avg stretch => Sys2Proof.Machine.execPowerWindow pkg avg stretch s
  | .thermalHalfRate die temp => Sys2Proof.Machine.execThermalHalfRate die temp s
  | .thermalRecover die temp => Sys2Proof.Machine.execThermalRecover die temp s
  | .thermalShutdown die temp => Sys2Proof.Machine.execThermalShutdown die temp s
  | .remoteAccessAtHome src dst => Sys2Proof.Machine.execRemoteAccessAtHome src dst s
  | .dieFailure what => Sys2Proof.Machine.execDieFailure what s
  | .poisonedWindowWrite pkg fid offset => Sys2Proof.Machine.execPoisonedWindowWrite pkg fid offset s
  | .jobClose job => Sys2Proof.Machine.execJobClose job s
  | .jobCancel job => Sys2Proof.Machine.execJobCancel job s

end Sys2Proof.Machine
end

