-- ==== Sys2Proof/WellFormed.lean ====
section
/-! DEFINITION. The values a field of a control word or micro-order must not hold, beyond the fixed bits of its row
(04_formats_assembly.md, R82, R91, R93, R94). A word that breaks one of these checks is no instruction. Conditions
that rest on register contents, or that an entry of the reference calls a check at issue, are in the meanings. -/

namespace Sys2Proof

/-- R82: ord 11 is reserved, ord 00 wants scope 0, a load takes no release. -/
def wfLoadOrd (s : BitVec 3) (o : BitVec 2) : Bool := (o = 0 && s = 0) || o = 1

/-- R82: ord 11 is reserved, ord 00 wants scope 0, a store takes no acquire. -/
def wfStoreOrd (s : BitVec 3) (o : BitVec 2) : Bool := (o = 0 && s = 0) || o = 2

/-- R82: ord 11 is reserved and ord 00 wants scope 0. -/
def wfAtomicOrd (s : BitVec 3) (o : BitVec 2) : Bool := (o = 0 && s = 0) || o = 1 || o = 2

/-- R82, R190: the no-return form has d zero and takes no acquire. -/
def wfNr (d : Nat) (o : BitVec 2) (n : BitVec 1) : Bool := n = 0 || (d = 0 && o ≠ 1)

/-- R91: gt is zero when ge is 0, ct is zero when ce is 0. -/
def wfQ (g c : BitVec 6) (x y : BitVec 1) : Bool := (x = 1 || g = 0) && (y = 1 || c = 0)

/-- R93: the conditions of BR and PSET. -/
def wfCond (c : BitVec 3) : Bool := c.toNat < 6

/-- R94, R82: kinds 0 to 11, rounding 000 to 100, and bit 5 zero where the field names an f register. -/
def wfFcvt (d a : BitVec 6) (k : BitVec 4) (r : BitVec 3) : Bool :=
  let dF := k.toNat ∈ [0, 1, 6, 7, 8, 9]
  let aF := k.toNat ∈ [2, 3, 4, 5, 6, 7, 10, 11]
  k.toNat < 12 && r.toNat < 5 && (!dF || d.toNat < 32) && (!aF || a.toNat < 32)

/-- The static checks of every instruction. A CTLW that names BUFPH is BUFPH_SWAP or BUFPH_CLOSE (R267). -/
def wellFormed (i : Instr) : Bool :=
  match i with
  | .ld _ _ s o z g _ => wfLoadOrd s o && (z ≠ 3 || g = 1)
  | .st _ _ s o _ _ => wfStoreOrd s o
  | .br c _ _ _ => wfCond c
  | .pset c _ _ _ => wfCond c
  | .fcmp c _ _ _ => c.toNat < 4
  | .fcvt d a k r => wfFcvt d a k r
  | .aadd d _ _ s o _ n | .alogAnd d _ _ s o _ n | .alogOr d _ _ s o _ n | .alogXor d _ _ s o _ n
  | .amax d _ _ s o _ n | .amaxN d _ _ s o _ n | .amin d _ _ s o _ n | .aminN d _ _ s o _ n
  | .axch d _ _ s o _ n => wfAtomicOrd s o && wfNr d.toNat o n
  | .amaxf d _ _ s o n | .aminf d _ _ s o n | .aaddf d _ _ s o n => wfAtomicOrd s o && wfNr d.toNat o n
  | .acas _ _ _ s o _ => wfAtomicOrd s o
  | .vrun _ g c x y | .vbase _ g c x y | .vbaseL _ g c x y | .vhalt _ g c x y | .vsend _ g c x y
  | .mldb _ g c x y | .mmul _ g c x y | .mdrain _ g c x y | .mdrainS _ g c x y | .mclr _ g c x y
  | .mbase _ g c x y | .mshr _ g c x y | .wdef _ g c x y | .tload _ g c x y | .tstore _ g c x y
  | .tgath _ g c x y | .tscat _ g c x y | .xpat _ g c x y | .hexch _ g c x y | .layset _ g c x y
  | .laysetPass _ g c x y | .reshard _ g c x y | .cred _ g c x y | .cbcast _ g c x y => wfQ g c x y
  | .ctlw _ n => n ≠ 0x63
  | .cyc _ k => k.toNat < 2
  | _ => true

end Sys2Proof
end

