-- ==== Sys2Proof/Decode.lean ====
section
/-! DEFINITION. The decoders of the two instruction streams and their encoder (04_formats_assembly.md, R81, R92 to
R97, R101; the opcode table). Every encoding that is no instruction is rejected by name (R95, R102): the step that
meets it traps ILLEGAL_OP. A word of one stream can also be a word of the other; which decoder reads it is decided
by who fetches it. -/

namespace Sys2Proof

/-- Why a word is no instruction (R95, R102). -/
inductive DecodeErr where
  /-- no row of the opcode map holds the word: an unassigned opcode or selector, or a reserved field not zero -/
  | unassigned
  /-- a field holds a value that R82, R93, R94 or the instruction's entry does not list -/
  | operand
  deriving DecidableEq, Repr

/-! ## Control words -/

/-- Opcode 0x00. -/
def ct00 (w : W32) : Option Instr :=
  some (.ill (w.extractLsb' 0 25))

/-- Opcode 0x01. -/
def ct01 (w : W32) : Option Instr :=
  if w.extractLsb' 0 7 = 0x0#7 then
    some (.add (w.extractLsb' 19 6) (w.extractLsb' 13 6) (w.extractLsb' 7 6))
  else if w.extractLsb' 0 7 = 0x1#7 then
    some (.sub (w.extractLsb' 19 6) (w.extractLsb' 13 6) (w.extractLsb' 7 6))
  else if w.extractLsb' 0 7 = 0x2#7 then
    some (.mul (w.extractLsb' 19 6) (w.extractLsb' 13 6) (w.extractLsb' 7 6))
  else if w.extractLsb' 0 7 = 0x3#7 then
    some (.mulHi (w.extractLsb' 19 6) (w.extractLsb' 13 6) (w.extractLsb' 7 6))
  else if w.extractLsb' 0 7 = 0x4#7 then
    some (.mulHiN (w.extractLsb' 19 6) (w.extractLsb' 13 6) (w.extractLsb' 7 6))
  else if w.extractLsb' 0 7 = 0x5#7 then
    some (.div (w.extractLsb' 19 6) (w.extractLsb' 13 6) (w.extractLsb' 7 6))
  else if w.extractLsb' 0 7 = 0x6#7 then
    some (.divN (w.extractLsb' 19 6) (w.extractLsb' 13 6) (w.extractLsb' 7 6))
  else if w.extractLsb' 0 7 = 0x7#7 then
    some (.rem (w.extractLsb' 19 6) (w.extractLsb' 13 6) (w.extractLsb' 7 6))
  else if w.extractLsb' 0 7 = 0x8#7 then
    some (.remN (w.extractLsb' 19 6) (w.extractLsb' 13 6) (w.extractLsb' 7 6))
  else if w.extractLsb' 0 7 = 0x9#7 then
    some (.and (w.extractLsb' 19 6) (w.extractLsb' 13 6) (w.extractLsb' 7 6))
  else if w.extractLsb' 0 7 = 0xA#7 then
    some (.or (w.extractLsb' 19 6) (w.extractLsb' 13 6) (w.extractLsb' 7 6))
  else if w.extractLsb' 0 7 = 0xB#7 then
    some (.xor (w.extractLsb' 19 6) (w.extractLsb' 13 6) (w.extractLsb' 7 6))
  else if w.extractLsb' 0 7 = 0xC#7 then
    some (.shl (w.extractLsb' 19 6) (w.extractLsb' 13 6) (w.extractLsb' 7 6))
  else if w.extractLsb' 0 7 = 0xD#7 then
    some (.shr (w.extractLsb' 19 6) (w.extractLsb' 13 6) (w.extractLsb' 7 6))
  else if w.extractLsb' 0 7 = 0xE#7 then
    some (.sra (w.extractLsb' 19 6) (w.extractLsb' 13 6) (w.extractLsb' 7 6))
  else if w.extractLsb' 0 7 = 0xF#7 then
    some (.min (w.extractLsb' 19 6) (w.extractLsb' 13 6) (w.extractLsb' 7 6))
  else if w.extractLsb' 0 7 = 0x10#7 then
    some (.minN (w.extractLsb' 19 6) (w.extractLsb' 13 6) (w.extractLsb' 7 6))
  else if w.extractLsb' 0 7 = 0x11#7 then
    some (.max (w.extractLsb' 19 6) (w.extractLsb' 13 6) (w.extractLsb' 7 6))
  else if w.extractLsb' 0 7 = 0x12#7 then
    some (.maxN (w.extractLsb' 19 6) (w.extractLsb' 13 6) (w.extractLsb' 7 6))
  else if w.extractLsb' 0 7 = 0x13#7 then
    some (.slt (w.extractLsb' 19 6) (w.extractLsb' 13 6) (w.extractLsb' 7 6))
  else if w.extractLsb' 0 7 = 0x14#7 then
    some (.sltN (w.extractLsb' 19 6) (w.extractLsb' 13 6) (w.extractLsb' 7 6))
  else if w.extractLsb' 0 13 = 0x15#13 then
    some (.clz (w.extractLsb' 19 6) (w.extractLsb' 13 6))
  else if w.extractLsb' 0 13 = 0x16#13 then
    some (.popc (w.extractLsb' 19 6) (w.extractLsb' 13 6))
  else if w.extractLsb' 0 13 = 0x17#13 then
    some (.sextB (w.extractLsb' 19 6) (w.extractLsb' 13 6))
  else if w.extractLsb' 0 13 = 0x18#13 then
    some (.sextH (w.extractLsb' 19 6) (w.extractLsb' 13 6))
  else if w.extractLsb' 0 13 = 0x19#13 then
    some (.sextW (w.extractLsb' 19 6) (w.extractLsb' 13 6))
  else if w.extractLsb' 0 7 = 0x1A#7 then
    some (.addSat (w.extractLsb' 19 6) (w.extractLsb' 13 6) (w.extractLsb' 7 6))
  else if w.extractLsb' 0 7 = 0x1B#7 then
    some (.subSat (w.extractLsb' 19 6) (w.extractLsb' 13 6) (w.extractLsb' 7 6))
  else none

/-- Opcode 0x02. -/
def ct02 (w : W32) : Option Instr :=
  some (.addImm (w.extractLsb' 19 6) (w.extractLsb' 13 6) (w.extractLsb' 0 13))

/-- Opcode 0x03. -/
def ct03 (w : W32) : Option Instr :=
  some (.lih (w.extractLsb' 19 6) (w.extractLsb' 0 19))

/-- Opcode 0x04. -/
def ct04 (w : W32) : Option Instr :=
  if w.extractLsb' 0 7 = 0x0#7 then
    some (.pset (w.extractLsb' 22 3) (w.extractLsb' 19 3) (w.extractLsb' 13 6) (w.extractLsb' 7 6))
  else none

/-- Opcode 0x05. -/
def ct05 (w : W32) : Option Instr :=
  if w.extractLsb' 22 3 = 0x0#3 ∧ w.extractLsb' 16 3 = 0x0#3 ∧ w.extractLsb' 10 3 = 0x0#3 ∧ w.extractLsb' 0 7 = 0x0#7 then
    some (.plogAnd (w.extractLsb' 19 3) (w.extractLsb' 13 3) (w.extractLsb' 7 3))
  else if w.extractLsb' 22 3 = 0x0#3 ∧ w.extractLsb' 16 3 = 0x0#3 ∧ w.extractLsb' 10 3 = 0x0#3 ∧ w.extractLsb' 0 7 = 0x1#7 then
    some (.plogOr (w.extractLsb' 19 3) (w.extractLsb' 13 3) (w.extractLsb' 7 3))
  else if w.extractLsb' 22 3 = 0x0#3 ∧ w.extractLsb' 16 3 = 0x0#3 ∧ w.extractLsb' 10 3 = 0x0#3 ∧ w.extractLsb' 0 7 = 0x2#7 then
    some (.plogXor (w.extractLsb' 19 3) (w.extractLsb' 13 3) (w.extractLsb' 7 3))
  else if w.extractLsb' 22 3 = 0x0#3 ∧ w.extractLsb' 16 3 = 0x0#3 ∧ w.extractLsb' 10 3 = 0x0#3 ∧ w.extractLsb' 0 7 = 0x3#7 then
    some (.plogAndn (w.extractLsb' 19 3) (w.extractLsb' 13 3) (w.extractLsb' 7 3))
  else if w.extractLsb' 22 3 = 0x0#3 ∧ w.extractLsb' 16 3 = 0x0#3 ∧ w.extractLsb' 0 13 = 0x4#13 then
    some (.plogNot (w.extractLsb' 19 3) (w.extractLsb' 13 3))
  else none

/-- Opcode 0x10. -/
def ct10 (w : W32) : Option Instr :=
  some (.ld (w.extractLsb' 19 6) (w.extractLsb' 13 6) (w.extractLsb' 10 3) (w.extractLsb' 8 2) (w.extractLsb' 6 2) (w.extractLsb' 5 1) (w.extractLsb' 0 5))

/-- Opcode 0x11. -/
def ct11 (w : W32) : Option Instr :=
  if w.extractLsb' 5 1 = 0x0#1 then
    some (.st (w.extractLsb' 19 6) (w.extractLsb' 13 6) (w.extractLsb' 10 3) (w.extractLsb' 8 2) (w.extractLsb' 6 2) (w.extractLsb' 0 5))
  else none

/-- Opcode 0x14. -/
def ct14 (w : W32) : Option Instr :=
  if w.extractLsb' 24 1 = 0x0#1 then
    some (.fld (w.extractLsb' 19 5) (w.extractLsb' 13 6) (w.extractLsb' 0 13))
  else none

/-- Opcode 0x15. -/
def ct15 (w : W32) : Option Instr :=
  if w.extractLsb' 24 1 = 0x0#1 then
    some (.fldT (w.extractLsb' 19 5) (w.extractLsb' 13 6) (w.extractLsb' 0 13))
  else none

/-- Opcode 0x16. -/
def ct16 (w : W32) : Option Instr :=
  if w.extractLsb' 24 1 = 0x0#1 then
    some (.fst (w.extractLsb' 19 5) (w.extractLsb' 13 6) (w.extractLsb' 0 13))
  else none

/-- Opcode 0x17. -/
def ct17 (w : W32) : Option Instr :=
  if w.extractLsb' 24 1 = 0x0#1 then
    some (.fstT (w.extractLsb' 19 5) (w.extractLsb' 13 6) (w.extractLsb' 0 13))
  else none

/-- Opcode 0x18. -/
def ct18 (w : W32) : Option Instr :=
  some (.br (w.extractLsb' 22 3) (w.extractLsb' 16 6) (w.extractLsb' 10 6) (w.extractLsb' 0 10))

/-- Opcode 0x19. -/
def ct19 (w : W32) : Option Instr :=
  some (.bq (w.extractLsb' 24 1) (w.extractLsb' 21 3) (w.extractLsb' 0 21))

/-- Opcode 0x1A. -/
def ct1A (w : W32) : Option Instr :=
  some (.jal (w.extractLsb' 19 6) (w.extractLsb' 0 19))

/-- Opcode 0x1B. -/
def ct1B (w : W32) : Option Instr :=
  some (.jalr (w.extractLsb' 19 6) (w.extractLsb' 13 6) (w.extractLsb' 0 13))

/-- Opcode 0x1C. -/
def ct1C (w : W32) : Option Instr :=
  if w.extractLsb' 22 3 = 0x0#3 ∧ w.extractLsb' 10 6 = 0x0#6 then
    some (.loop (w.extractLsb' 16 6) (w.extractLsb' 0 10))
  else none

/-- Opcode 0x1D. -/
def ct1D (w : W32) : Option Instr :=
  if w.extractLsb' 21 4 = 0x0#4 ∧ w.extractLsb' 15 1 = 0x0#1 then
    some (.bsig (w.extractLsb' 16 5) (w.extractLsb' 10 5) (w.extractLsb' 0 10))
  else none

/-- Opcode 0x1E. -/
def ct1E (w : W32) : Option Instr :=
  if w.extractLsb' 0 18 = 0x0#18 then
    some (.grd (w.extractLsb' 22 3) (w.extractLsb' 21 1) (w.extractLsb' 18 3))
  else none

/-- Opcode 0x1F. -/
def ct1F (w : W32) : Option Instr :=
  some (.pfx (w.extractLsb' 0 25))

/-- Opcode 0x20. -/
def ct20 (w : W32) : Option Instr :=
  if w.extractLsb' 24 1 = 0x0#1 ∧ w.extractLsb' 18 1 = 0x0#1 ∧ w.extractLsb' 12 1 = 0x0#1 ∧ w.extractLsb' 0 7 = 0x0#7 then
    some (.fadd (w.extractLsb' 19 5) (w.extractLsb' 13 5) (w.extractLsb' 7 5))
  else if w.extractLsb' 24 1 = 0x0#1 ∧ w.extractLsb' 18 1 = 0x0#1 ∧ w.extractLsb' 12 1 = 0x0#1 ∧ w.extractLsb' 0 7 = 0x1#7 then
    some (.fsub (w.extractLsb' 19 5) (w.extractLsb' 13 5) (w.extractLsb' 7 5))
  else if w.extractLsb' 24 1 = 0x0#1 ∧ w.extractLsb' 18 1 = 0x0#1 ∧ w.extractLsb' 12 1 = 0x0#1 ∧ w.extractLsb' 0 7 = 0x2#7 then
    some (.fmul (w.extractLsb' 19 5) (w.extractLsb' 13 5) (w.extractLsb' 7 5))
  else if w.extractLsb' 24 1 = 0x0#1 ∧ w.extractLsb' 18 1 = 0x0#1 ∧ w.extractLsb' 12 1 = 0x0#1 ∧ w.extractLsb' 0 7 = 0x3#7 then
    some (.fdiv (w.extractLsb' 19 5) (w.extractLsb' 13 5) (w.extractLsb' 7 5))
  else if w.extractLsb' 24 1 = 0x0#1 ∧ w.extractLsb' 18 1 = 0x0#1 ∧ w.extractLsb' 0 13 = 0x4#13 then
    some (.fsqrt (w.extractLsb' 19 5) (w.extractLsb' 13 5))
  else if w.extractLsb' 24 1 = 0x0#1 ∧ w.extractLsb' 18 1 = 0x0#1 ∧ w.extractLsb' 12 1 = 0x0#1 ∧ w.extractLsb' 0 7 = 0x5#7 then
    some (.fmax (w.extractLsb' 19 5) (w.extractLsb' 13 5) (w.extractLsb' 7 5))
  else if w.extractLsb' 24 1 = 0x0#1 ∧ w.extractLsb' 18 1 = 0x0#1 ∧ w.extractLsb' 12 1 = 0x0#1 ∧ w.extractLsb' 0 7 = 0x6#7 then
    some (.fmin (w.extractLsb' 19 5) (w.extractLsb' 13 5) (w.extractLsb' 7 5))
  else if w.extractLsb' 24 1 = 0x0#1 ∧ w.extractLsb' 18 1 = 0x0#1 ∧ w.extractLsb' 12 1 = 0x0#1 ∧ w.extractLsb' 0 7 = 0x7#7 then
    some (.fsgn (w.extractLsb' 19 5) (w.extractLsb' 13 5) (w.extractLsb' 7 5))
  else if w.extractLsb' 24 1 = 0x0#1 ∧ w.extractLsb' 18 1 = 0x0#1 ∧ w.extractLsb' 12 1 = 0x0#1 ∧ w.extractLsb' 0 7 = 0x8#7 then
    some (.fsgnN (w.extractLsb' 19 5) (w.extractLsb' 13 5) (w.extractLsb' 7 5))
  else if w.extractLsb' 24 1 = 0x0#1 ∧ w.extractLsb' 18 1 = 0x0#1 ∧ w.extractLsb' 12 1 = 0x0#1 ∧ w.extractLsb' 0 7 = 0x9#7 then
    some (.fsgnX (w.extractLsb' 19 5) (w.extractLsb' 13 5) (w.extractLsb' 7 5))
  else if w.extractLsb' 24 1 = 0x0#1 ∧ w.extractLsb' 18 1 = 0x0#1 ∧ w.extractLsb' 0 13 = 0xA#13 then
    some (.fmov (w.extractLsb' 19 5) (w.extractLsb' 13 5))
  else if w.extractLsb' 18 1 = 0x0#1 ∧ w.extractLsb' 0 13 = 0xB#13 then
    some (.fclass (w.extractLsb' 19 6) (w.extractLsb' 13 5))
  else none

/-- Opcode 0x21. -/
def ct21 (w : W32) : Option Instr :=
  if w.extractLsb' 24 1 = 0x0#1 ∧ w.extractLsb' 18 1 = 0x0#1 ∧ w.extractLsb' 12 1 = 0x0#1 ∧ w.extractLsb' 5 2 = 0x0#2 then
    some (.ffma (w.extractLsb' 19 5) (w.extractLsb' 13 5) (w.extractLsb' 7 5) (w.extractLsb' 0 5))
  else none

/-- Opcode 0x22. -/
def ct22 (w : W32) : Option Instr :=
  if w.extractLsb' 18 1 = 0x0#1 ∧ w.extractLsb' 12 1 = 0x0#1 ∧ w.extractLsb' 0 7 = 0x0#7 then
    some (.fcmp (w.extractLsb' 22 3) (w.extractLsb' 19 3) (w.extractLsb' 13 5) (w.extractLsb' 7 5))
  else none

/-- Opcode 0x23. -/
def ct23 (w : W32) : Option Instr :=
  if w.extractLsb' 7 6 = 0x0#6 then
    some (.fcvt (w.extractLsb' 19 6) (w.extractLsb' 13 6) (w.extractLsb' 3 4) (w.extractLsb' 0 3))
  else none

/-- Opcode 0x24. -/
def ct24 (w : W32) : Option Instr :=
  if w.extractLsb' 18 1 = 0x0#1 ∧ w.extractLsb' 0 13 = 0x0#13 then
    some (.fsigRead (w.extractLsb' 19 6) (w.extractLsb' 13 5))
  else if w.extractLsb' 24 1 = 0x0#1 ∧ w.extractLsb' 0 13 = 0x1#13 then
    some (.fsigSet (w.extractLsb' 19 5) (w.extractLsb' 13 6))
  else none

/-- Opcode 0x25. -/
def ct25 (w : W32) : Option Instr :=
  if w.extractLsb' 24 1 = 0x0#1 ∧ w.extractLsb' 5 14 = 0x0#14 then
    some (.fsigImm (w.extractLsb' 19 5) (w.extractLsb' 0 5))
  else none

/-- Opcode 0x30. -/
def ct30 (w : W32) : Option Instr :=
  some (.aadd (w.extractLsb' 19 6) (w.extractLsb' 13 6) (w.extractLsb' 7 6) (w.extractLsb' 4 3) (w.extractLsb' 2 2) (w.extractLsb' 1 1) (w.extractLsb' 0 1))

/-- Opcode 0x31. -/
def ct31 (w : W32) : Option Instr :=
  some (.alogAnd (w.extractLsb' 19 6) (w.extractLsb' 13 6) (w.extractLsb' 7 6) (w.extractLsb' 4 3) (w.extractLsb' 2 2) (w.extractLsb' 1 1) (w.extractLsb' 0 1))

/-- Opcode 0x32. -/
def ct32 (w : W32) : Option Instr :=
  some (.alogOr (w.extractLsb' 19 6) (w.extractLsb' 13 6) (w.extractLsb' 7 6) (w.extractLsb' 4 3) (w.extractLsb' 2 2) (w.extractLsb' 1 1) (w.extractLsb' 0 1))

/-- Opcode 0x33. -/
def ct33 (w : W32) : Option Instr :=
  some (.alogXor (w.extractLsb' 19 6) (w.extractLsb' 13 6) (w.extractLsb' 7 6) (w.extractLsb' 4 3) (w.extractLsb' 2 2) (w.extractLsb' 1 1) (w.extractLsb' 0 1))

/-- Opcode 0x34. -/
def ct34 (w : W32) : Option Instr :=
  some (.amax (w.extractLsb' 19 6) (w.extractLsb' 13 6) (w.extractLsb' 7 6) (w.extractLsb' 4 3) (w.extractLsb' 2 2) (w.extractLsb' 1 1) (w.extractLsb' 0 1))

/-- Opcode 0x35. -/
def ct35 (w : W32) : Option Instr :=
  some (.amaxN (w.extractLsb' 19 6) (w.extractLsb' 13 6) (w.extractLsb' 7 6) (w.extractLsb' 4 3) (w.extractLsb' 2 2) (w.extractLsb' 1 1) (w.extractLsb' 0 1))

/-- Opcode 0x36. -/
def ct36 (w : W32) : Option Instr :=
  some (.amin (w.extractLsb' 19 6) (w.extractLsb' 13 6) (w.extractLsb' 7 6) (w.extractLsb' 4 3) (w.extractLsb' 2 2) (w.extractLsb' 1 1) (w.extractLsb' 0 1))

/-- Opcode 0x37. -/
def ct37 (w : W32) : Option Instr :=
  some (.aminN (w.extractLsb' 19 6) (w.extractLsb' 13 6) (w.extractLsb' 7 6) (w.extractLsb' 4 3) (w.extractLsb' 2 2) (w.extractLsb' 1 1) (w.extractLsb' 0 1))

/-- Opcode 0x38. -/
def ct38 (w : W32) : Option Instr :=
  if w.extractLsb' 24 1 = 0x0#1 ∧ w.extractLsb' 12 1 = 0x0#1 ∧ w.extractLsb' 1 1 = 0x0#1 then
    some (.amaxf (w.extractLsb' 19 5) (w.extractLsb' 13 6) (w.extractLsb' 7 5) (w.extractLsb' 4 3) (w.extractLsb' 2 2) (w.extractLsb' 0 1))
  else none

/-- Opcode 0x39. -/
def ct39 (w : W32) : Option Instr :=
  if w.extractLsb' 24 1 = 0x0#1 ∧ w.extractLsb' 12 1 = 0x0#1 ∧ w.extractLsb' 1 1 = 0x0#1 then
    some (.aminf (w.extractLsb' 19 5) (w.extractLsb' 13 6) (w.extractLsb' 7 5) (w.extractLsb' 4 3) (w.extractLsb' 2 2) (w.extractLsb' 0 1))
  else none

/-- Opcode 0x3A. -/
def ct3A (w : W32) : Option Instr :=
  if w.extractLsb' 24 1 = 0x0#1 ∧ w.extractLsb' 12 1 = 0x0#1 ∧ w.extractLsb' 1 1 = 0x0#1 then
    some (.aaddf (w.extractLsb' 19 5) (w.extractLsb' 13 6) (w.extractLsb' 7 5) (w.extractLsb' 4 3) (w.extractLsb' 2 2) (w.extractLsb' 0 1))
  else none

/-- Opcode 0x3B. -/
def ct3B (w : W32) : Option Instr :=
  if w.extractLsb' 0 1 = 0x0#1 then
    some (.acas (w.extractLsb' 19 6) (w.extractLsb' 13 6) (w.extractLsb' 7 6) (w.extractLsb' 4 3) (w.extractLsb' 2 2) (w.extractLsb' 1 1))
  else none

/-- Opcode 0x3C. -/
def ct3C (w : W32) : Option Instr :=
  some (.axch (w.extractLsb' 19 6) (w.extractLsb' 13 6) (w.extractLsb' 7 6) (w.extractLsb' 4 3) (w.extractLsb' 2 2) (w.extractLsb' 1 1) (w.extractLsb' 0 1))

/-- Opcode 0x3D. -/
def ct3D (w : W32) : Option Instr :=
  if w.extractLsb' 0 7 = 0x0#7 then
    some (.atq (w.extractLsb' 19 6) (w.extractLsb' 13 6) (w.extractLsb' 7 6))
  else none

/-- Opcode 0x40. -/
def ct40 (w : W32) : Option Instr :=
  if w.extractLsb' 0 25 = 0x0#25 then
    some (.mark)
  else if w.extractLsb' 3 22 = 0x1#22 then
    some (.fence (w.extractLsb' 0 3))
  else if w.extractLsb' 0 25 = 0x10#25 then
    some (.afence)
  else none

/-- Opcode 0x41. -/
def ct41 (w : W32) : Option Instr :=
  if w.extractLsb' 19 6 = 0x0#6 ∧ w.extractLsb' 0 7 = 0x0#7 then
    some (.evsig (w.extractLsb' 13 6) (w.extractLsb' 7 6))
  else if w.extractLsb' 19 6 = 0x0#6 ∧ w.extractLsb' 0 13 = 0x1#13 then
    some (.evsigR (w.extractLsb' 13 6))
  else none

/-- Opcode 0x42. -/
def ct42 (w : W32) : Option Instr :=
  if w.extractLsb' 19 6 = 0x0#6 ∧ w.extractLsb' 0 7 = 0x0#7 then
    some (.evwait (w.extractLsb' 13 6) (w.extractLsb' 7 6))
  else none

/-- Opcode 0x43. -/
def ct43 (w : W32) : Option Instr :=
  if w.extractLsb' 0 13 = 0x0#13 then
    some (.evpoll (w.extractLsb' 19 6) (w.extractLsb' 13 6))
  else none

/-- Opcode 0x44. -/
def ct44 (w : W32) : Option Instr :=
  if w.extractLsb' 19 6 = 0x0#6 ∧ w.extractLsb' 0 7 = 0x0#7 then
    some (.barinit (w.extractLsb' 13 6) (w.extractLsb' 7 6))
  else none

/-- Opcode 0x45. -/
def ct45 (w : W32) : Option Instr :=
  if w.extractLsb' 19 6 = 0x0#6 ∧ w.extractLsb' 0 7 = 0x0#7 then
    some (.baradd (w.extractLsb' 13 6) (w.extractLsb' 7 6))
  else none

/-- Opcode 0x46. -/
def ct46 (w : W32) : Option Instr :=
  some (.barwait (w.extractLsb' 19 6) (w.extractLsb' 13 6) (w.extractLsb' 0 13))

/-- Opcode 0x47. -/
def ct47 (w : W32) : Option Instr :=
  some (.toksig (w.extractLsb' 19 6) (w.extractLsb' 13 6) (w.extractLsb' 0 13))

/-- Opcode 0x48. -/
def ct48 (w : W32) : Option Instr :=
  some (.tokwait (w.extractLsb' 19 6) (w.extractLsb' 13 6) (w.extractLsb' 0 13))

/-- Opcode 0x49. -/
def ct49 (w : W32) : Option Instr :=
  if w.extractLsb' 0 13 = 0x0#13 then
    some (.sqnew (w.extractLsb' 19 6) (w.extractLsb' 13 6))
  else if w.extractLsb' 0 7 = 0x1#7 then
    some (.sqres (w.extractLsb' 19 6) (w.extractLsb' 13 6) (w.extractLsb' 7 6))
  else if w.extractLsb' 0 7 = 0x2#7 then
    some (.sqcom (w.extractLsb' 19 6) (w.extractLsb' 13 6) (w.extractLsb' 7 6))
  else if w.extractLsb' 0 13 = 0x3#13 then
    some (.sqlen (w.extractLsb' 19 6) (w.extractLsb' 13 6))
  else if w.extractLsb' 0 7 = 0x4#7 then
    some (.sqfork (w.extractLsb' 19 6) (w.extractLsb' 13 6) (w.extractLsb' 7 6))
  else if w.extractLsb' 19 6 = 0x0#6 ∧ w.extractLsb' 0 13 = 0x5#13 then
    some (.sqdrop (w.extractLsb' 13 6))
  else if w.extractLsb' 0 7 = 0x6#7 then
    some (.sqslot (w.extractLsb' 19 6) (w.extractLsb' 13 6) (w.extractLsb' 7 6))
  else if w.extractLsb' 19 6 = 0x0#6 ∧ w.extractLsb' 0 13 = 0x7#13 then
    some (.sqseal (w.extractLsb' 13 6))
  else none

/-- Opcode 0x4A. -/
def ct4A (w : W32) : Option Instr :=
  some (.sqwait (w.extractLsb' 19 6) (w.extractLsb' 13 6) (w.extractLsb' 0 13))

/-- Opcode 0x50. -/
def ct50 (w : W32) : Option Instr :=
  if w.extractLsb' 22 3 = 0x0#3 ∧ w.extractLsb' 0 2 = 0x0#2 then
    some (.vrun (w.extractLsb' 16 6) (w.extractLsb' 10 6) (w.extractLsb' 4 6) (w.extractLsb' 3 1) (w.extractLsb' 2 1))
  else none

/-- Opcode 0x51. -/
def ct51 (w : W32) : Option Instr :=
  if w.extractLsb' 22 3 = 0x0#3 ∧ w.extractLsb' 0 2 = 0x0#2 then
    some (.vbase (w.extractLsb' 16 6) (w.extractLsb' 10 6) (w.extractLsb' 4 6) (w.extractLsb' 3 1) (w.extractLsb' 2 1))
  else if w.extractLsb' 22 3 = 0x1#3 ∧ w.extractLsb' 0 2 = 0x0#2 then
    some (.vbaseL (w.extractLsb' 16 6) (w.extractLsb' 10 6) (w.extractLsb' 4 6) (w.extractLsb' 3 1) (w.extractLsb' 2 1))
  else none

/-- Opcode 0x52. -/
def ct52 (w : W32) : Option Instr :=
  if w.extractLsb' 22 3 = 0x0#3 ∧ w.extractLsb' 0 2 = 0x0#2 then
    some (.vhalt (w.extractLsb' 16 6) (w.extractLsb' 10 6) (w.extractLsb' 4 6) (w.extractLsb' 3 1) (w.extractLsb' 2 1))
  else none

/-- Opcode 0x53. -/
def ct53 (w : W32) : Option Instr :=
  if w.extractLsb' 22 3 = 0x0#3 ∧ w.extractLsb' 0 2 = 0x0#2 then
    some (.vsend (w.extractLsb' 16 6) (w.extractLsb' 10 6) (w.extractLsb' 4 6) (w.extractLsb' 3 1) (w.extractLsb' 2 1))
  else none

/-- Opcode 0x54. -/
def ct54 (w : W32) : Option Instr :=
  if w.extractLsb' 22 3 = 0x0#3 ∧ w.extractLsb' 0 2 = 0x0#2 then
    some (.mldb (w.extractLsb' 16 6) (w.extractLsb' 10 6) (w.extractLsb' 4 6) (w.extractLsb' 3 1) (w.extractLsb' 2 1))
  else none

/-- Opcode 0x55. -/
def ct55 (w : W32) : Option Instr :=
  if w.extractLsb' 22 3 = 0x0#3 ∧ w.extractLsb' 0 2 = 0x0#2 then
    some (.mmul (w.extractLsb' 16 6) (w.extractLsb' 10 6) (w.extractLsb' 4 6) (w.extractLsb' 3 1) (w.extractLsb' 2 1))
  else none

/-- Opcode 0x56. -/
def ct56 (w : W32) : Option Instr :=
  if w.extractLsb' 22 3 = 0x0#3 ∧ w.extractLsb' 0 2 = 0x0#2 then
    some (.mdrain (w.extractLsb' 16 6) (w.extractLsb' 10 6) (w.extractLsb' 4 6) (w.extractLsb' 3 1) (w.extractLsb' 2 1))
  else if w.extractLsb' 22 3 = 0x1#3 ∧ w.extractLsb' 0 2 = 0x0#2 then
    some (.mdrainS (w.extractLsb' 16 6) (w.extractLsb' 10 6) (w.extractLsb' 4 6) (w.extractLsb' 3 1) (w.extractLsb' 2 1))
  else none

/-- Opcode 0x57. -/
def ct57 (w : W32) : Option Instr :=
  if w.extractLsb' 22 3 = 0x0#3 ∧ w.extractLsb' 0 2 = 0x0#2 then
    some (.mclr (w.extractLsb' 16 6) (w.extractLsb' 10 6) (w.extractLsb' 4 6) (w.extractLsb' 3 1) (w.extractLsb' 2 1))
  else none

/-- Opcode 0x58. -/
def ct58 (w : W32) : Option Instr :=
  if w.extractLsb' 22 3 = 0x0#3 ∧ w.extractLsb' 0 2 = 0x0#2 then
    some (.mbase (w.extractLsb' 16 6) (w.extractLsb' 10 6) (w.extractLsb' 4 6) (w.extractLsb' 3 1) (w.extractLsb' 2 1))
  else none

/-- Opcode 0x59. -/
def ct59 (w : W32) : Option Instr :=
  if w.extractLsb' 22 3 = 0x0#3 ∧ w.extractLsb' 0 2 = 0x0#2 then
    some (.mshr (w.extractLsb' 16 6) (w.extractLsb' 10 6) (w.extractLsb' 4 6) (w.extractLsb' 3 1) (w.extractLsb' 2 1))
  else none

/-- Opcode 0x5A. -/
def ct5A (w : W32) : Option Instr :=
  if w.extractLsb' 22 3 = 0x0#3 ∧ w.extractLsb' 0 2 = 0x0#2 then
    some (.wdef (w.extractLsb' 16 6) (w.extractLsb' 10 6) (w.extractLsb' 4 6) (w.extractLsb' 3 1) (w.extractLsb' 2 1))
  else none

/-- Opcode 0x60. -/
def ct60 (w : W32) : Option Instr :=
  if w.extractLsb' 23 2 = 0x0#2 then
    some (.tmap (w.extractLsb' 19 4) (w.extractLsb' 13 6) (w.extractLsb' 0 13))
  else none

/-- Opcode 0x61. -/
def ct61 (w : W32) : Option Instr :=
  if w.extractLsb' 22 3 = 0x0#3 ∧ w.extractLsb' 0 2 = 0x0#2 then
    some (.tload (w.extractLsb' 16 6) (w.extractLsb' 10 6) (w.extractLsb' 4 6) (w.extractLsb' 3 1) (w.extractLsb' 2 1))
  else none

/-- Opcode 0x62. -/
def ct62 (w : W32) : Option Instr :=
  if w.extractLsb' 22 3 = 0x0#3 ∧ w.extractLsb' 0 2 = 0x0#2 then
    some (.tstore (w.extractLsb' 16 6) (w.extractLsb' 10 6) (w.extractLsb' 4 6) (w.extractLsb' 3 1) (w.extractLsb' 2 1))
  else none

/-- Opcode 0x63. -/
def ct63 (w : W32) : Option Instr :=
  if w.extractLsb' 22 3 = 0x0#3 ∧ w.extractLsb' 0 2 = 0x0#2 then
    some (.tgath (w.extractLsb' 16 6) (w.extractLsb' 10 6) (w.extractLsb' 4 6) (w.extractLsb' 3 1) (w.extractLsb' 2 1))
  else none

/-- Opcode 0x64. -/
def ct64 (w : W32) : Option Instr :=
  if w.extractLsb' 22 3 = 0x0#3 ∧ w.extractLsb' 0 2 = 0x0#2 then
    some (.tscat (w.extractLsb' 16 6) (w.extractLsb' 10 6) (w.extractLsb' 4 6) (w.extractLsb' 3 1) (w.extractLsb' 2 1))
  else none

/-- Opcode 0x65. -/
def ct65 (w : W32) : Option Instr :=
  if w.extractLsb' 22 3 = 0x0#3 ∧ w.extractLsb' 0 2 = 0x0#2 then
    some (.xpat (w.extractLsb' 16 6) (w.extractLsb' 10 6) (w.extractLsb' 4 6) (w.extractLsb' 3 1) (w.extractLsb' 2 1))
  else none

/-- Opcode 0x66. -/
def ct66 (w : W32) : Option Instr :=
  if w.extractLsb' 22 3 = 0x0#3 ∧ w.extractLsb' 0 2 = 0x0#2 then
    some (.hexch (w.extractLsb' 16 6) (w.extractLsb' 10 6) (w.extractLsb' 4 6) (w.extractLsb' 3 1) (w.extractLsb' 2 1))
  else none

/-- Opcode 0x67. -/
def ct67 (w : W32) : Option Instr :=
  if w.extractLsb' 22 3 = 0x0#3 ∧ w.extractLsb' 0 2 = 0x0#2 then
    some (.layset (w.extractLsb' 16 6) (w.extractLsb' 10 6) (w.extractLsb' 4 6) (w.extractLsb' 3 1) (w.extractLsb' 2 1))
  else if w.extractLsb' 22 3 = 0x1#3 ∧ w.extractLsb' 0 2 = 0x0#2 then
    some (.laysetPass (w.extractLsb' 16 6) (w.extractLsb' 10 6) (w.extractLsb' 4 6) (w.extractLsb' 3 1) (w.extractLsb' 2 1))
  else none

/-- Opcode 0x68. -/
def ct68 (w : W32) : Option Instr :=
  if w.extractLsb' 7 6 = 0x0#6 then
    some (.layget (w.extractLsb' 19 6) (w.extractLsb' 13 6) (w.extractLsb' 0 7))
  else none

/-- Opcode 0x69. -/
def ct69 (w : W32) : Option Instr :=
  if w.extractLsb' 22 3 = 0x0#3 ∧ w.extractLsb' 0 2 = 0x0#2 then
    some (.reshard (w.extractLsb' 16 6) (w.extractLsb' 10 6) (w.extractLsb' 4 6) (w.extractLsb' 3 1) (w.extractLsb' 2 1))
  else none

/-- Opcode 0x6A. -/
def ct6A (w : W32) : Option Instr :=
  if w.extractLsb' 22 3 = 0x0#3 ∧ w.extractLsb' 0 2 = 0x0#2 then
    some (.cred (w.extractLsb' 16 6) (w.extractLsb' 10 6) (w.extractLsb' 4 6) (w.extractLsb' 3 1) (w.extractLsb' 2 1))
  else none

/-- Opcode 0x6B. -/
def ct6B (w : W32) : Option Instr :=
  if w.extractLsb' 22 3 = 0x0#3 ∧ w.extractLsb' 0 2 = 0x0#2 then
    some (.cbcast (w.extractLsb' 16 6) (w.extractLsb' 10 6) (w.extractLsb' 4 6) (w.extractLsb' 3 1) (w.extractLsb' 2 1))
  else none

/-- Opcode 0x70. -/
def ct70 (w : W32) : Option Instr :=
  if w.extractLsb' 19 6 = 0x0#6 ∧ w.extractLsb' 0 7 = 0x0#7 then
    some (.discard (w.extractLsb' 13 6) (w.extractLsb' 7 6))
  else none

/-- Opcode 0x71. -/
def ct71 (w : W32) : Option Instr :=
  if w.extractLsb' 19 6 = 0x0#6 ∧ w.extractLsb' 0 7 = 0x0#7 then
    some (.pref (w.extractLsb' 13 6) (w.extractLsb' 7 6))
  else none

/-- Opcode 0x72. -/
def ct72 (w : W32) : Option Instr :=
  if w.extractLsb' 0 7 = 0x0#7 then
    some (.spawn (w.extractLsb' 19 6) (w.extractLsb' 13 6) (w.extractLsb' 7 6))
  else none

/-- Opcode 0x73. -/
def ct73 (w : W32) : Option Instr :=
  if w.extractLsb' 0 7 = 0x0#7 then
    some (.join (w.extractLsb' 19 6) (w.extractLsb' 13 6) (w.extractLsb' 7 6))
  else none

/-- Opcode 0x74. -/
def ct74 (w : W32) : Option Instr :=
  if w.extractLsb' 0 25 = 0x0#25 then
    some (.exit)
  else if w.extractLsb' 0 25 = 0x1#25 then
    some (.exitD)
  else none

/-- Opcode 0x75. -/
def ct75 (w : W32) : Option Instr :=
  if w.extractLsb' 0 25 = 0x0#25 then
    some (.yield)
  else none

/-- Opcode 0x76. -/
def ct76 (w : W32) : Option Instr :=
  if w.extractLsb' 0 13 = 0x0#13 then
    some (.cancel (w.extractLsb' 19 6) (w.extractLsb' 13 6))
  else none

/-- Opcode 0x77. -/
def ct77 (w : W32) : Option Instr :=
  if w.extractLsb' 0 7 = 0x0#7 then
    some (.cmpl (w.extractLsb' 19 6) (w.extractLsb' 13 6) (w.extractLsb' 7 6))
  else none

/-- Opcode 0x78. -/
def ct78 (w : W32) : Option Instr :=
  if w.extractLsb' 21 4 = 0x0#4 ∧ w.extractLsb' 13 6 = 0x0#6 then
    some (.region (w.extractLsb' 19 2) (w.extractLsb' 12 1) (w.extractLsb' 0 12))
  else none

/-- Opcode 0x79. -/
def ct79 (w : W32) : Option Instr :=
  if w.extractLsb' 19 6 = 0x0#6 then
    some (.segend (w.extractLsb' 13 6) (w.extractLsb' 0 13))
  else none

/-- Opcode 0x7F. -/
def ct7F (w : W32) : Option Instr :=
  if w.extractLsb' 19 6 = 0x4#6 ∧ w.extractLsb' 0 13 = 0x63#13 then
    some (.bufphSwap (w.extractLsb' 13 6))
  else if w.extractLsb' 0 25 = 0x0#25 then
    some (.nop)
  else if w.extractLsb' 16 9 = 0x8#9 then
    some (.trap (w.extractLsb' 0 16))
  else if w.extractLsb' 0 25 = 0x100000#25 then
    some (.eret)
  else if w.extractLsb' 19 6 = 0x3#6 then
    some (.ctlr (w.extractLsb' 13 6) (w.extractLsb' 0 13))
  else if w.extractLsb' 19 6 = 0x4#6 then
    some (.ctlw (w.extractLsb' 13 6) (w.extractLsb' 0 13))
  else if w.extractLsb' 19 6 = 0x5#6 ∧ w.extractLsb' 0 10 = 0x0#10 then
    some (.tlbi (w.extractLsb' 13 6) (w.extractLsb' 10 3))
  else if w.extractLsb' 19 6 = 0x6#6 then
    some (.cyc (w.extractLsb' 13 6) (w.extractLsb' 0 13))
  else none

/-- The row of the opcode map that a word belongs to, whatever its operands. -/
def ctRow (w : W32) : Option Instr :=
  match (w.extractLsb' 25 7).toNat with
  | 0x00 => ct00 w
  | 0x01 => ct01 w
  | 0x02 => ct02 w
  | 0x03 => ct03 w
  | 0x04 => ct04 w
  | 0x05 => ct05 w
  | 0x10 => ct10 w
  | 0x11 => ct11 w
  | 0x14 => ct14 w
  | 0x15 => ct15 w
  | 0x16 => ct16 w
  | 0x17 => ct17 w
  | 0x18 => ct18 w
  | 0x19 => ct19 w
  | 0x1A => ct1A w
  | 0x1B => ct1B w
  | 0x1C => ct1C w
  | 0x1D => ct1D w
  | 0x1E => ct1E w
  | 0x1F => ct1F w
  | 0x20 => ct20 w
  | 0x21 => ct21 w
  | 0x22 => ct22 w
  | 0x23 => ct23 w
  | 0x24 => ct24 w
  | 0x25 => ct25 w
  | 0x30 => ct30 w
  | 0x31 => ct31 w
  | 0x32 => ct32 w
  | 0x33 => ct33 w
  | 0x34 => ct34 w
  | 0x35 => ct35 w
  | 0x36 => ct36 w
  | 0x37 => ct37 w
  | 0x38 => ct38 w
  | 0x39 => ct39 w
  | 0x3A => ct3A w
  | 0x3B => ct3B w
  | 0x3C => ct3C w
  | 0x3D => ct3D w
  | 0x40 => ct40 w
  | 0x41 => ct41 w
  | 0x42 => ct42 w
  | 0x43 => ct43 w
  | 0x44 => ct44 w
  | 0x45 => ct45 w
  | 0x46 => ct46 w
  | 0x47 => ct47 w
  | 0x48 => ct48 w
  | 0x49 => ct49 w
  | 0x4A => ct4A w
  | 0x50 => ct50 w
  | 0x51 => ct51 w
  | 0x52 => ct52 w
  | 0x53 => ct53 w
  | 0x54 => ct54 w
  | 0x55 => ct55 w
  | 0x56 => ct56 w
  | 0x57 => ct57 w
  | 0x58 => ct58 w
  | 0x59 => ct59 w
  | 0x5A => ct5A w
  | 0x60 => ct60 w
  | 0x61 => ct61 w
  | 0x62 => ct62 w
  | 0x63 => ct63 w
  | 0x64 => ct64 w
  | 0x65 => ct65 w
  | 0x66 => ct66 w
  | 0x67 => ct67 w
  | 0x68 => ct68 w
  | 0x69 => ct69 w
  | 0x6A => ct6A w
  | 0x6B => ct6B w
  | 0x70 => ct70 w
  | 0x71 => ct71 w
  | 0x72 => ct72 w
  | 0x73 => ct73 w
  | 0x74 => ct74 w
  | 0x75 => ct75 w
  | 0x76 => ct76 w
  | 0x77 => ct77 w
  | 0x78 => ct78 w
  | 0x79 => ct79 w
  | 0x7F => ct7F w
  | _ => none

/-- The control thread's decoder (R93). -/
def decodeCt (w : W32) : Except DecodeErr Instr :=
  match ctRow w with
  | none => .error .unassigned
  | some i => if wellFormed i then .ok i else .error .operand

/-! ## Micro-orders -/

/-- Opcode 0x01. -/
def vs01 (w : W32) : Option Instr :=
  if w.extractLsb' 0 24 = 0x0#24 then
    some (.vnop)
  else none

/-- Opcode 0x10. -/
def vs10 (w : W32) : Option Instr :=
  some (.vadd (w.extractLsb' 16 8) (w.extractLsb' 8 8) (w.extractLsb' 0 8))

/-- Opcode 0x11. -/
def vs11 (w : W32) : Option Instr :=
  if w.extractLsb' 4 4 = 0x0#4 then
    some (.vaddZ (w.extractLsb' 16 8) (w.extractLsb' 8 8) (w.extractLsb' 0 4))
  else none

/-- Opcode 0x12. -/
def vs12 (w : W32) : Option Instr :=
  some (.vsub (w.extractLsb' 16 8) (w.extractLsb' 8 8) (w.extractLsb' 0 8))

/-- Opcode 0x13. -/
def vs13 (w : W32) : Option Instr :=
  if w.extractLsb' 4 4 = 0x0#4 then
    some (.vsubZ (w.extractLsb' 16 8) (w.extractLsb' 8 8) (w.extractLsb' 0 4))
  else none

/-- Opcode 0x14. -/
def vs14 (w : W32) : Option Instr :=
  some (.vmul (w.extractLsb' 16 8) (w.extractLsb' 8 8) (w.extractLsb' 0 8))

/-- Opcode 0x15. -/
def vs15 (w : W32) : Option Instr :=
  if w.extractLsb' 4 4 = 0x0#4 then
    some (.vmulZ (w.extractLsb' 16 8) (w.extractLsb' 8 8) (w.extractLsb' 0 4))
  else none

/-- Opcode 0x16. -/
def vs16 (w : W32) : Option Instr :=
  some (.vfma (w.extractLsb' 16 8) (w.extractLsb' 8 8) (w.extractLsb' 0 8))

/-- Opcode 0x17. -/
def vs17 (w : W32) : Option Instr :=
  if w.extractLsb' 4 4 = 0x0#4 then
    some (.vfmaZ (w.extractLsb' 16 8) (w.extractLsb' 8 8) (w.extractLsb' 0 4))
  else none

/-- Opcode 0x18. -/
def vs18 (w : W32) : Option Instr :=
  some (.vfmaS (w.extractLsb' 16 8) (w.extractLsb' 8 8) (w.extractLsb' 0 8))

/-- Opcode 0x19. -/
def vs19 (w : W32) : Option Instr :=
  if w.extractLsb' 4 4 = 0x0#4 then
    some (.vfmaSZ (w.extractLsb' 16 8) (w.extractLsb' 8 8) (w.extractLsb' 0 4))
  else none

/-- Opcode 0x1A. -/
def vs1A (w : W32) : Option Instr :=
  some (.vdiv (w.extractLsb' 16 8) (w.extractLsb' 8 8) (w.extractLsb' 0 8))

/-- Opcode 0x1B. -/
def vs1B (w : W32) : Option Instr :=
  if w.extractLsb' 4 4 = 0x0#4 then
    some (.vdivZ (w.extractLsb' 16 8) (w.extractLsb' 8 8) (w.extractLsb' 0 4))
  else none

/-- Opcode 0x1C. -/
def vs1C (w : W32) : Option Instr :=
  some (.vmax (w.extractLsb' 16 8) (w.extractLsb' 8 8) (w.extractLsb' 0 8))

/-- Opcode 0x1D. -/
def vs1D (w : W32) : Option Instr :=
  if w.extractLsb' 4 4 = 0x0#4 then
    some (.vmaxZ (w.extractLsb' 16 8) (w.extractLsb' 8 8) (w.extractLsb' 0 4))
  else none

/-- Opcode 0x1E. -/
def vs1E (w : W32) : Option Instr :=
  some (.vmin (w.extractLsb' 16 8) (w.extractLsb' 8 8) (w.extractLsb' 0 8))

/-- Opcode 0x1F. -/
def vs1F (w : W32) : Option Instr :=
  if w.extractLsb' 4 4 = 0x0#4 then
    some (.vminZ (w.extractLsb' 16 8) (w.extractLsb' 8 8) (w.extractLsb' 0 4))
  else none

/-- Opcode 0x20. -/
def vs20 (w : W32) : Option Instr :=
  some (.vsgn (w.extractLsb' 16 8) (w.extractLsb' 8 8) (w.extractLsb' 0 8))

/-- Opcode 0x21. -/
def vs21 (w : W32) : Option Instr :=
  if w.extractLsb' 4 4 = 0x0#4 then
    some (.vsgnZ (w.extractLsb' 16 8) (w.extractLsb' 8 8) (w.extractLsb' 0 4))
  else none

/-- Opcode 0x28. -/
def vs28 (w : W32) : Option Instr :=
  if w.extractLsb' 0 8 = 0x0#8 then
    some (.vrcp (w.extractLsb' 16 8) (w.extractLsb' 8 8))
  else none

/-- Opcode 0x29. -/
def vs29 (w : W32) : Option Instr :=
  if w.extractLsb' 0 8 = 0x0#8 then
    some (.vrsq (w.extractLsb' 16 8) (w.extractLsb' 8 8))
  else none

/-- Opcode 0x2A. -/
def vs2A (w : W32) : Option Instr :=
  if w.extractLsb' 0 8 = 0x0#8 then
    some (.vsqrt (w.extractLsb' 16 8) (w.extractLsb' 8 8))
  else none

/-- Opcode 0x2B. -/
def vs2B (w : W32) : Option Instr :=
  if w.extractLsb' 0 8 = 0x0#8 then
    some (.vexp2 (w.extractLsb' 16 8) (w.extractLsb' 8 8))
  else none

/-- Opcode 0x2C. -/
def vs2C (w : W32) : Option Instr :=
  if w.extractLsb' 0 8 = 0x0#8 then
    some (.vlog2 (w.extractLsb' 16 8) (w.extractLsb' 8 8))
  else none

/-- Opcode 0x30. -/
def vs30 (w : W32) : Option Instr :=
  if w.extractLsb' 23 1 = 0x0#1 ∧ w.extractLsb' 16 4 = 0x0#4 then
    some (.vcmpEq (w.extractLsb' 20 3) (w.extractLsb' 8 8) (w.extractLsb' 0 8))
  else none

/-- Opcode 0x31. -/
def vs31 (w : W32) : Option Instr :=
  if w.extractLsb' 23 1 = 0x0#1 ∧ w.extractLsb' 16 4 = 0x0#4 then
    some (.vcmpLt (w.extractLsb' 20 3) (w.extractLsb' 8 8) (w.extractLsb' 0 8))
  else none

/-- Opcode 0x32. -/
def vs32 (w : W32) : Option Instr :=
  if w.extractLsb' 23 1 = 0x0#1 ∧ w.extractLsb' 16 4 = 0x0#4 then
    some (.vcmpLe (w.extractLsb' 20 3) (w.extractLsb' 8 8) (w.extractLsb' 0 8))
  else none

/-- Opcode 0x33. -/
def vs33 (w : W32) : Option Instr :=
  if w.extractLsb' 23 1 = 0x0#1 ∧ w.extractLsb' 16 4 = 0x0#4 then
    some (.vcmpUn (w.extractLsb' 20 3) (w.extractLsb' 8 8) (w.extractLsb' 0 8))
  else none

/-- Opcode 0x34. -/
def vs34 (w : W32) : Option Instr :=
  if w.extractLsb' 23 1 = 0x0#1 ∧ w.extractLsb' 16 4 = 0x0#4 ∧ w.extractLsb' 4 4 = 0x0#4 then
    some (.vcmpZEq (w.extractLsb' 20 3) (w.extractLsb' 8 8) (w.extractLsb' 0 4))
  else none

/-- Opcode 0x35. -/
def vs35 (w : W32) : Option Instr :=
  if w.extractLsb' 23 1 = 0x0#1 ∧ w.extractLsb' 16 4 = 0x0#4 ∧ w.extractLsb' 4 4 = 0x0#4 then
    some (.vcmpZLt (w.extractLsb' 20 3) (w.extractLsb' 8 8) (w.extractLsb' 0 4))
  else none

/-- Opcode 0x36. -/
def vs36 (w : W32) : Option Instr :=
  if w.extractLsb' 23 1 = 0x0#1 ∧ w.extractLsb' 16 4 = 0x0#4 ∧ w.extractLsb' 4 4 = 0x0#4 then
    some (.vcmpZLe (w.extractLsb' 20 3) (w.extractLsb' 8 8) (w.extractLsb' 0 4))
  else none

/-- Opcode 0x37. -/
def vs37 (w : W32) : Option Instr :=
  if w.extractLsb' 23 1 = 0x0#1 ∧ w.extractLsb' 16 4 = 0x0#4 ∧ w.extractLsb' 4 4 = 0x0#4 then
    some (.vcmpZUn (w.extractLsb' 20 3) (w.extractLsb' 8 8) (w.extractLsb' 0 4))
  else none

/-- Opcode 0x38. -/
def vs38 (w : W32) : Option Instr :=
  some (.vsel (w.extractLsb' 16 8) (w.extractLsb' 8 8) (w.extractLsb' 0 8))

/-- Opcode 0x40. -/
def vs40 (w : W32) : Option Instr :=
  some (.viadd (w.extractLsb' 16 8) (w.extractLsb' 8 8) (w.extractLsb' 0 8))

/-- Opcode 0x41. -/
def vs41 (w : W32) : Option Instr :=
  if w.extractLsb' 4 4 = 0x0#4 then
    some (.viaddZ (w.extractLsb' 16 8) (w.extractLsb' 8 8) (w.extractLsb' 0 4))
  else none

/-- Opcode 0x42. -/
def vs42 (w : W32) : Option Instr :=
  some (.visub (w.extractLsb' 16 8) (w.extractLsb' 8 8) (w.extractLsb' 0 8))

/-- Opcode 0x43. -/
def vs43 (w : W32) : Option Instr :=
  if w.extractLsb' 4 4 = 0x0#4 then
    some (.visubZ (w.extractLsb' 16 8) (w.extractLsb' 8 8) (w.extractLsb' 0 4))
  else none

/-- Opcode 0x44. -/
def vs44 (w : W32) : Option Instr :=
  some (.vimul (w.extractLsb' 16 8) (w.extractLsb' 8 8) (w.extractLsb' 0 8))

/-- Opcode 0x45. -/
def vs45 (w : W32) : Option Instr :=
  if w.extractLsb' 4 4 = 0x0#4 then
    some (.vimulZ (w.extractLsb' 16 8) (w.extractLsb' 8 8) (w.extractLsb' 0 4))
  else none

/-- Opcode 0x46. -/
def vs46 (w : W32) : Option Instr :=
  some (.vimax (w.extractLsb' 16 8) (w.extractLsb' 8 8) (w.extractLsb' 0 8))

/-- Opcode 0x47. -/
def vs47 (w : W32) : Option Instr :=
  if w.extractLsb' 4 4 = 0x0#4 then
    some (.vimaxZ (w.extractLsb' 16 8) (w.extractLsb' 8 8) (w.extractLsb' 0 4))
  else none

/-- Opcode 0x48. -/
def vs48 (w : W32) : Option Instr :=
  some (.vimin (w.extractLsb' 16 8) (w.extractLsb' 8 8) (w.extractLsb' 0 8))

/-- Opcode 0x49. -/
def vs49 (w : W32) : Option Instr :=
  if w.extractLsb' 4 4 = 0x0#4 then
    some (.viminZ (w.extractLsb' 16 8) (w.extractLsb' 8 8) (w.extractLsb' 0 4))
  else none

/-- Opcode 0x4A. -/
def vs4A (w : W32) : Option Instr :=
  some (.vbitAnd (w.extractLsb' 16 8) (w.extractLsb' 8 8) (w.extractLsb' 0 8))

/-- Opcode 0x4B. -/
def vs4B (w : W32) : Option Instr :=
  some (.vbitOr (w.extractLsb' 16 8) (w.extractLsb' 8 8) (w.extractLsb' 0 8))

/-- Opcode 0x4C. -/
def vs4C (w : W32) : Option Instr :=
  some (.vbitXor (w.extractLsb' 16 8) (w.extractLsb' 8 8) (w.extractLsb' 0 8))

/-- Opcode 0x4D. -/
def vs4D (w : W32) : Option Instr :=
  some (.vbitAndn (w.extractLsb' 16 8) (w.extractLsb' 8 8) (w.extractLsb' 0 8))

/-- Opcode 0x4E. -/
def vs4E (w : W32) : Option Instr :=
  some (.vshfShl (w.extractLsb' 16 8) (w.extractLsb' 8 8) (w.extractLsb' 0 8))

/-- Opcode 0x4F. -/
def vs4F (w : W32) : Option Instr :=
  some (.vshfShr (w.extractLsb' 16 8) (w.extractLsb' 8 8) (w.extractLsb' 0 8))

/-- Opcode 0x50. -/
def vs50 (w : W32) : Option Instr :=
  some (.vshfSra (w.extractLsb' 16 8) (w.extractLsb' 8 8) (w.extractLsb' 0 8))

/-- Opcode 0x51. -/
def vs51 (w : W32) : Option Instr :=
  some (.viaddSat (w.extractLsb' 16 8) (w.extractLsb' 8 8) (w.extractLsb' 0 8))

/-- Opcode 0x52. -/
def vs52 (w : W32) : Option Instr :=
  some (.visubSat (w.extractLsb' 16 8) (w.extractLsb' 8 8) (w.extractLsb' 0 8))

/-- Opcode 0x53. -/
def vs53 (w : W32) : Option Instr :=
  some (.vimaxN (w.extractLsb' 16 8) (w.extractLsb' 8 8) (w.extractLsb' 0 8))

/-- Opcode 0x54. -/
def vs54 (w : W32) : Option Instr :=
  some (.viminN (w.extractLsb' 16 8) (w.extractLsb' 8 8) (w.extractLsb' 0 8))

/-- Opcode 0x58. -/
def vs58 (w : W32) : Option Instr :=
  if w.extractLsb' 7 1 = 0x0#1 then
    some (.vcvt (w.extractLsb' 16 8) (w.extractLsb' 8 8) (w.extractLsb' 4 3) (w.extractLsb' 0 4))
  else none

/-- Opcode 0x59. -/
def vs59 (w : W32) : Option Instr :=
  if w.extractLsb' 3 1 = 0x0#1 then
    some (.vqnt (w.extractLsb' 16 8) (w.extractLsb' 8 8) (w.extractLsb' 4 4) (w.extractLsb' 2 1) (w.extractLsb' 0 2))
  else none

/-- Opcode 0x60. -/
def vs60 (w : W32) : Option Instr :=
  if w.extractLsb' 16 4 = 0x0#4 ∧ w.extractLsb' 0 8 = 0x0#8 then
    some (.vrsum (w.extractLsb' 20 4) (w.extractLsb' 8 8))
  else none

/-- Opcode 0x61. -/
def vs61 (w : W32) : Option Instr :=
  if w.extractLsb' 16 4 = 0x0#4 ∧ w.extractLsb' 0 8 = 0x0#8 then
    some (.vrmax (w.extractLsb' 20 4) (w.extractLsb' 8 8))
  else none

/-- Opcode 0x62. -/
def vs62 (w : W32) : Option Instr :=
  if w.extractLsb' 16 4 = 0x0#4 ∧ w.extractLsb' 0 8 = 0x0#8 then
    some (.vrmin (w.extractLsb' 20 4) (w.extractLsb' 8 8))
  else none

/-- Opcode 0x68. -/
def vs68 (w : W32) : Option Instr :=
  if w.extractLsb' 0 8 = 0x0#8 then
    some (.vmov (w.extractLsb' 16 8) (w.extractLsb' 8 8))
  else none

/-- Opcode 0x69. -/
def vs69 (w : W32) : Option Instr :=
  if w.extractLsb' 6 2 = 0x0#2 then
    some (.vrot (w.extractLsb' 16 8) (w.extractLsb' 8 8) (w.extractLsb' 0 6))
  else none

/-- Opcode 0x6A. -/
def vs6A (w : W32) : Option Instr :=
  if w.extractLsb' 4 12 = 0x0#12 then
    some (.vbcast (w.extractLsb' 16 8) (w.extractLsb' 0 4))
  else none

/-- Opcode 0x70. -/
def vs70 (w : W32) : Option Instr :=
  if w.extractLsb' 12 4 = 0x0#4 then
    some (.vld (w.extractLsb' 16 8) (w.extractLsb' 8 4) (w.extractLsb' 0 8))
  else none

/-- Opcode 0x71. -/
def vs71 (w : W32) : Option Instr :=
  if w.extractLsb' 12 4 = 0x0#4 then
    some (.vst (w.extractLsb' 16 8) (w.extractLsb' 8 4) (w.extractLsb' 6 2) (w.extractLsb' 0 6))
  else none

/-- Opcode 0x72. -/
def vs72 (w : W32) : Option Instr :=
  if w.extractLsb' 12 4 = 0x0#4 then
    some (.vldT (w.extractLsb' 16 8) (w.extractLsb' 8 4) (w.extractLsb' 0 8))
  else none

/-- Opcode 0x73. -/
def vs73 (w : W32) : Option Instr :=
  if w.extractLsb' 12 4 = 0x0#4 ∧ w.extractLsb' 6 2 = 0x0#2 then
    some (.vstT (w.extractLsb' 16 8) (w.extractLsb' 8 4) (w.extractLsb' 0 6))
  else none

/-- Opcode 0x74. -/
def vs74 (w : W32) : Option Instr :=
  if w.extractLsb' 12 4 = 0x0#4 then
    some (.vpop (w.extractLsb' 16 8) (w.extractLsb' 8 4) (w.extractLsb' 0 8))
  else none

/-- Opcode 0x75. -/
def vs75 (w : W32) : Option Instr :=
  if w.extractLsb' 12 4 = 0x0#4 ∧ w.extractLsb' 0 6 = 0x0#6 then
    some (.vpush (w.extractLsb' 16 8) (w.extractLsb' 8 4) (w.extractLsb' 6 2))
  else none

/-- Opcode 0x78. -/
def vs78 (w : W32) : Option Instr :=
  if w.extractLsb' 14 2 = 0x0#2 ∧ w.extractLsb' 7 1 = 0x0#1 ∧ w.extractLsb' 4 2 = 0x0#2 then
    some (.vsacc (w.extractLsb' 16 8) (w.extractLsb' 12 2) (w.extractLsb' 10 2) (w.extractLsb' 8 2) (w.extractLsb' 6 1) (w.extractLsb' 0 4))
  else if w.extractLsb' 14 2 = 0x0#2 ∧ w.extractLsb' 7 1 = 0x1#1 then
    some (.vsaccN (w.extractLsb' 16 8) (w.extractLsb' 12 2) (w.extractLsb' 10 2) (w.extractLsb' 8 2) (w.extractLsb' 6 1) (w.extractLsb' 4 2) (w.extractLsb' 0 4))
  else none

/-- Opcode 0x79. -/
def vs79 (w : W32) : Option Instr :=
  if w.extractLsb' 14 2 = 0x0#2 then
    some (.vaccr (w.extractLsb' 16 8) (w.extractLsb' 12 2) (w.extractLsb' 10 2) (w.extractLsb' 8 2) (w.extractLsb' 0 8))
  else none

/-- Opcode 0x7C. -/
def vs7C (w : W32) : Option Instr :=
  if w.extractLsb' 23 1 = 0x0#1 ∧ w.extractLsb' 16 4 = 0x0#4 ∧ w.extractLsb' 5 3 = 0x0#3 then
    some (.vsigq (w.extractLsb' 20 3) (w.extractLsb' 8 8) (w.extractLsb' 0 5))
  else none

/-- Opcode 0x7D. -/
def vs7D (w : W32) : Option Instr :=
  if w.extractLsb' 0 8 = 0x0#8 then
    some (.vsigs (w.extractLsb' 16 8) (w.extractLsb' 8 8))
  else none

/-- Opcode 0x7E. -/
def vs7E (w : W32) : Option Instr :=
  if w.extractLsb' 0 8 = 0x0#8 then
    some (.vsigr (w.extractLsb' 16 8) (w.extractLsb' 8 8))
  else none

/-- Opcode 0x80. -/
def vs80 (w : W32) : Option Instr :=
  if w.extractLsb' 16 8 = 0x0#8 then
    some (.vloop (w.extractLsb' 0 16))
  else none

/-- Opcode 0x81. -/
def vs81 (w : W32) : Option Instr :=
  if w.extractLsb' 0 24 = 0x0#24 then
    some (.vend)
  else none

/-- Opcode 0x82. -/
def vs82 (w : W32) : Option Instr :=
  if w.extractLsb' 20 4 = 0x0#4 ∧ w.extractLsb' 0 16 = 0x0#16 then
    some (.vflag (w.extractLsb' 16 4))
  else if w.extractLsb' 20 4 = 0x0#4 ∧ w.extractLsb' 0 16 = 0x1#16 then
    some (.vflagNew (w.extractLsb' 16 4))
  else none

/-- Opcode 0x83. -/
def vs83 (w : W32) : Option Instr :=
  if w.extractLsb' 22 2 = 0x0#2 then
    some (.vwait (w.extractLsb' 16 6) (w.extractLsb' 8 8) (w.extractLsb' 0 8))
  else none

/-- Opcode 0x84. -/
def vs84 (w : W32) : Option Instr :=
  if w.extractLsb' 19 5 = 0x0#5 then
    some (.vidx (w.extractLsb' 16 3) (w.extractLsb' 0 16))
  else if w.extractLsb' 19 5 = 0x8#5 then
    some (.vidxAdd (w.extractLsb' 16 3) (w.extractLsb' 0 16))
  else none

/-- Opcode 0x85. -/
def vs85 (w : W32) : Option Instr :=
  if w.extractLsb' 23 1 = 0x0#1 ∧ w.extractLsb' 16 4 = 0x0#4 then
    some (.vkset (w.extractLsb' 20 3) (w.extractLsb' 8 8) (w.extractLsb' 0 8))
  else none

/-- Opcode 0x86. -/
def vs86 (w : W32) : Option Instr :=
  if w.extractLsb' 20 4 = 0x0#4 ∧ w.extractLsb' 6 2 = 0x0#2 then
    some (.vzmovLane (w.extractLsb' 16 4) (w.extractLsb' 8 8) (w.extractLsb' 0 6))
  else if w.extractLsb' 20 4 = 0x0#4 ∧ w.extractLsb' 12 4 = 0x0#4 ∧ w.extractLsb' 0 8 = 0x40#8 then
    some (.vzmovZ (w.extractLsb' 16 4) (w.extractLsb' 8 4))
  else none

/-- The row of the opcode map that a word belongs to, whatever its operands. -/
def vsRow (w : W32) : Option Instr :=
  match (w.extractLsb' 24 8).toNat with
  | 0x01 => vs01 w
  | 0x10 => vs10 w
  | 0x11 => vs11 w
  | 0x12 => vs12 w
  | 0x13 => vs13 w
  | 0x14 => vs14 w
  | 0x15 => vs15 w
  | 0x16 => vs16 w
  | 0x17 => vs17 w
  | 0x18 => vs18 w
  | 0x19 => vs19 w
  | 0x1A => vs1A w
  | 0x1B => vs1B w
  | 0x1C => vs1C w
  | 0x1D => vs1D w
  | 0x1E => vs1E w
  | 0x1F => vs1F w
  | 0x20 => vs20 w
  | 0x21 => vs21 w
  | 0x28 => vs28 w
  | 0x29 => vs29 w
  | 0x2A => vs2A w
  | 0x2B => vs2B w
  | 0x2C => vs2C w
  | 0x30 => vs30 w
  | 0x31 => vs31 w
  | 0x32 => vs32 w
  | 0x33 => vs33 w
  | 0x34 => vs34 w
  | 0x35 => vs35 w
  | 0x36 => vs36 w
  | 0x37 => vs37 w
  | 0x38 => vs38 w
  | 0x40 => vs40 w
  | 0x41 => vs41 w
  | 0x42 => vs42 w
  | 0x43 => vs43 w
  | 0x44 => vs44 w
  | 0x45 => vs45 w
  | 0x46 => vs46 w
  | 0x47 => vs47 w
  | 0x48 => vs48 w
  | 0x49 => vs49 w
  | 0x4A => vs4A w
  | 0x4B => vs4B w
  | 0x4C => vs4C w
  | 0x4D => vs4D w
  | 0x4E => vs4E w
  | 0x4F => vs4F w
  | 0x50 => vs50 w
  | 0x51 => vs51 w
  | 0x52 => vs52 w
  | 0x53 => vs53 w
  | 0x54 => vs54 w
  | 0x58 => vs58 w
  | 0x59 => vs59 w
  | 0x60 => vs60 w
  | 0x61 => vs61 w
  | 0x62 => vs62 w
  | 0x68 => vs68 w
  | 0x69 => vs69 w
  | 0x6A => vs6A w
  | 0x70 => vs70 w
  | 0x71 => vs71 w
  | 0x72 => vs72 w
  | 0x73 => vs73 w
  | 0x74 => vs74 w
  | 0x75 => vs75 w
  | 0x78 => vs78 w
  | 0x79 => vs79 w
  | 0x7C => vs7C w
  | 0x7D => vs7D w
  | 0x7E => vs7E w
  | 0x80 => vs80 w
  | 0x81 => vs81 w
  | 0x82 => vs82 w
  | 0x83 => vs83 w
  | 0x84 => vs84 w
  | 0x85 => vs85 w
  | 0x86 => vs86 w
  | _ => none

/-- The vector sequencer's decoder (R101). -/
def decodeVs (w : W32) : Except DecodeErr Instr :=
  match vsRow w with
  | none => .error .unassigned
  | some i => if wellFormed i then .ok i else .error .operand

/-! ## The encoder -/

/-- The word of an instruction; an event has none. BUFPH_SWAP and BUFPH_CLOSE are the words of CTLW to control
register 0x063, told apart by bit 24 of the register they write (R267): the decoder reads them as BUFPH_SWAP, and
the step that runs the word turns it into BUFPH_CLOSE where the bit is clear. -/
def encode (i : Instr) : Option W32 :=
  match i with
  | .ill x => some (BitVec.ofNat 32 (x.toNat))
  | .add d a b => some (BitVec.ofNat 32 (0x02000000 + d.toNat * 0x80000 + a.toNat * 0x2000 + b.toNat * 0x80))
  | .sub d a b => some (BitVec.ofNat 32 (0x02000001 + d.toNat * 0x80000 + a.toNat * 0x2000 + b.toNat * 0x80))
  | .mul d a b => some (BitVec.ofNat 32 (0x02000002 + d.toNat * 0x80000 + a.toNat * 0x2000 + b.toNat * 0x80))
  | .mulHi d a b => some (BitVec.ofNat 32 (0x02000003 + d.toNat * 0x80000 + a.toNat * 0x2000 + b.toNat * 0x80))
  | .mulHiN d a b => some (BitVec.ofNat 32 (0x02000004 + d.toNat * 0x80000 + a.toNat * 0x2000 + b.toNat * 0x80))
  | .div d a b => some (BitVec.ofNat 32 (0x02000005 + d.toNat * 0x80000 + a.toNat * 0x2000 + b.toNat * 0x80))
  | .divN d a b => some (BitVec.ofNat 32 (0x02000006 + d.toNat * 0x80000 + a.toNat * 0x2000 + b.toNat * 0x80))
  | .rem d a b => some (BitVec.ofNat 32 (0x02000007 + d.toNat * 0x80000 + a.toNat * 0x2000 + b.toNat * 0x80))
  | .remN d a b => some (BitVec.ofNat 32 (0x02000008 + d.toNat * 0x80000 + a.toNat * 0x2000 + b.toNat * 0x80))
  | .and d a b => some (BitVec.ofNat 32 (0x02000009 + d.toNat * 0x80000 + a.toNat * 0x2000 + b.toNat * 0x80))
  | .or d a b => some (BitVec.ofNat 32 (0x0200000A + d.toNat * 0x80000 + a.toNat * 0x2000 + b.toNat * 0x80))
  | .xor d a b => some (BitVec.ofNat 32 (0x0200000B + d.toNat * 0x80000 + a.toNat * 0x2000 + b.toNat * 0x80))
  | .shl d a b => some (BitVec.ofNat 32 (0x0200000C + d.toNat * 0x80000 + a.toNat * 0x2000 + b.toNat * 0x80))
  | .shr d a b => some (BitVec.ofNat 32 (0x0200000D + d.toNat * 0x80000 + a.toNat * 0x2000 + b.toNat * 0x80))
  | .sra d a b => some (BitVec.ofNat 32 (0x0200000E + d.toNat * 0x80000 + a.toNat * 0x2000 + b.toNat * 0x80))
  | .min d a b => some (BitVec.ofNat 32 (0x0200000F + d.toNat * 0x80000 + a.toNat * 0x2000 + b.toNat * 0x80))
  | .minN d a b => some (BitVec.ofNat 32 (0x02000010 + d.toNat * 0x80000 + a.toNat * 0x2000 + b.toNat * 0x80))
  | .max d a b => some (BitVec.ofNat 32 (0x02000011 + d.toNat * 0x80000 + a.toNat * 0x2000 + b.toNat * 0x80))
  | .maxN d a b => some (BitVec.ofNat 32 (0x02000012 + d.toNat * 0x80000 + a.toNat * 0x2000 + b.toNat * 0x80))
  | .slt d a b => some (BitVec.ofNat 32 (0x02000013 + d.toNat * 0x80000 + a.toNat * 0x2000 + b.toNat * 0x80))
  | .sltN d a b => some (BitVec.ofNat 32 (0x02000014 + d.toNat * 0x80000 + a.toNat * 0x2000 + b.toNat * 0x80))
  | .clz d a => some (BitVec.ofNat 32 (0x02000015 + d.toNat * 0x80000 + a.toNat * 0x2000))
  | .popc d a => some (BitVec.ofNat 32 (0x02000016 + d.toNat * 0x80000 + a.toNat * 0x2000))
  | .sextB d a => some (BitVec.ofNat 32 (0x02000017 + d.toNat * 0x80000 + a.toNat * 0x2000))
  | .sextH d a => some (BitVec.ofNat 32 (0x02000018 + d.toNat * 0x80000 + a.toNat * 0x2000))
  | .sextW d a => some (BitVec.ofNat 32 (0x02000019 + d.toNat * 0x80000 + a.toNat * 0x2000))
  | .addSat d a b => some (BitVec.ofNat 32 (0x0200001A + d.toNat * 0x80000 + a.toNat * 0x2000 + b.toNat * 0x80))
  | .subSat d a b => some (BitVec.ofNat 32 (0x0200001B + d.toNat * 0x80000 + a.toNat * 0x2000 + b.toNat * 0x80))
  | .addImm d a i => some (BitVec.ofNat 32 (0x04000000 + d.toNat * 0x80000 + a.toNat * 0x2000 + i.toNat))
  | .lih d i => some (BitVec.ofNat 32 (0x06000000 + d.toNat * 0x80000 + i.toNat))
  | .pset c q a b => some (BitVec.ofNat 32 (0x08000000 + c.toNat * 0x400000 + q.toNat * 0x80000 + a.toNat * 0x2000 + b.toNat * 0x80))
  | .plogAnd d a b => some (BitVec.ofNat 32 (0x0A000000 + d.toNat * 0x80000 + a.toNat * 0x2000 + b.toNat * 0x80))
  | .plogOr d a b => some (BitVec.ofNat 32 (0x0A000001 + d.toNat * 0x80000 + a.toNat * 0x2000 + b.toNat * 0x80))
  | .plogXor d a b => some (BitVec.ofNat 32 (0x0A000002 + d.toNat * 0x80000 + a.toNat * 0x2000 + b.toNat * 0x80))
  | .plogAndn d a b => some (BitVec.ofNat 32 (0x0A000003 + d.toNat * 0x80000 + a.toNat * 0x2000 + b.toNat * 0x80))
  | .plogNot d a => some (BitVec.ofNat 32 (0x0A000004 + d.toNat * 0x80000 + a.toNat * 0x2000))
  | .ld d b s o z g i => some (BitVec.ofNat 32 (0x20000000 + d.toNat * 0x80000 + b.toNat * 0x2000 + s.toNat * 0x400 + o.toNat * 0x100 + z.toNat * 0x40 + g.toNat * 0x20 + i.toNat))
  | .st d b s o z i => some (BitVec.ofNat 32 (0x22000000 + d.toNat * 0x80000 + b.toNat * 0x2000 + s.toNat * 0x400 + o.toNat * 0x100 + z.toNat * 0x40 + i.toNat))
  | .fld d a i => some (BitVec.ofNat 32 (0x28000000 + d.toNat * 0x80000 + a.toNat * 0x2000 + i.toNat))
  | .fldT d a i => some (BitVec.ofNat 32 (0x2A000000 + d.toNat * 0x80000 + a.toNat * 0x2000 + i.toNat))
  | .fst d a i => some (BitVec.ofNat 32 (0x2C000000 + d.toNat * 0x80000 + a.toNat * 0x2000 + i.toNat))
  | .fstT d a i => some (BitVec.ofNat 32 (0x2E000000 + d.toNat * 0x80000 + a.toNat * 0x2000 + i.toNat))
  | .br c a b o => some (BitVec.ofNat 32 (0x30000000 + c.toNat * 0x400000 + a.toNat * 0x10000 + b.toNat * 0x400 + o.toNat))
  | .bq n q o => some (BitVec.ofNat 32 (0x32000000 + n.toNat * 0x1000000 + q.toNat * 0x200000 + o.toNat))
  | .jal d i => some (BitVec.ofNat 32 (0x34000000 + d.toNat * 0x80000 + i.toNat))
  | .jalr d a i => some (BitVec.ofNat 32 (0x36000000 + d.toNat * 0x80000 + a.toNat * 0x2000 + i.toNat))
  | .loop a o => some (BitVec.ofNat 32 (0x38000000 + a.toNat * 0x10000 + o.toNat))
  | .bsig a n o => some (BitVec.ofNat 32 (0x3A000000 + a.toNat * 0x10000 + n.toNat * 0x400 + o.toNat))
  | .grd q n c => some (BitVec.ofNat 32 (0x3C000000 + q.toNat * 0x400000 + n.toNat * 0x200000 + c.toNat * 0x40000))
  | .pfx i => some (BitVec.ofNat 32 (0x3E000000 + i.toNat))
  | .fadd d a b => some (BitVec.ofNat 32 (0x40000000 + d.toNat * 0x80000 + a.toNat * 0x2000 + b.toNat * 0x80))
  | .fsub d a b => some (BitVec.ofNat 32 (0x40000001 + d.toNat * 0x80000 + a.toNat * 0x2000 + b.toNat * 0x80))
  | .fmul d a b => some (BitVec.ofNat 32 (0x40000002 + d.toNat * 0x80000 + a.toNat * 0x2000 + b.toNat * 0x80))
  | .fdiv d a b => some (BitVec.ofNat 32 (0x40000003 + d.toNat * 0x80000 + a.toNat * 0x2000 + b.toNat * 0x80))
  | .fsqrt d a => some (BitVec.ofNat 32 (0x40000004 + d.toNat * 0x80000 + a.toNat * 0x2000))
  | .fmax d a b => some (BitVec.ofNat 32 (0x40000005 + d.toNat * 0x80000 + a.toNat * 0x2000 + b.toNat * 0x80))
  | .fmin d a b => some (BitVec.ofNat 32 (0x40000006 + d.toNat * 0x80000 + a.toNat * 0x2000 + b.toNat * 0x80))
  | .fsgn d a b => some (BitVec.ofNat 32 (0x40000007 + d.toNat * 0x80000 + a.toNat * 0x2000 + b.toNat * 0x80))
  | .fsgnN d a b => some (BitVec.ofNat 32 (0x40000008 + d.toNat * 0x80000 + a.toNat * 0x2000 + b.toNat * 0x80))
  | .fsgnX d a b => some (BitVec.ofNat 32 (0x40000009 + d.toNat * 0x80000 + a.toNat * 0x2000 + b.toNat * 0x80))
  | .fmov d a => some (BitVec.ofNat 32 (0x4000000A + d.toNat * 0x80000 + a.toNat * 0x2000))
  | .fclass d a => some (BitVec.ofNat 32 (0x4000000B + d.toNat * 0x80000 + a.toNat * 0x2000))
  | .ffma d a b c => some (BitVec.ofNat 32 (0x42000000 + d.toNat * 0x80000 + a.toNat * 0x2000 + b.toNat * 0x80 + c.toNat))
  | .fcmp c q a b => some (BitVec.ofNat 32 (0x44000000 + c.toNat * 0x400000 + q.toNat * 0x80000 + a.toNat * 0x2000 + b.toNat * 0x80))
  | .fcvt d a k r => some (BitVec.ofNat 32 (0x46000000 + d.toNat * 0x80000 + a.toNat * 0x2000 + k.toNat * 0x8 + r.toNat))
  | .fsigRead d a => some (BitVec.ofNat 32 (0x48000000 + d.toNat * 0x80000 + a.toNat * 0x2000))
  | .fsigSet d a => some (BitVec.ofNat 32 (0x48000001 + d.toNat * 0x80000 + a.toNat * 0x2000))
  | .fsigImm d i => some (BitVec.ofNat 32 (0x4A000000 + d.toNat * 0x80000 + i.toNat))
  | .aadd d a b s o z n => some (BitVec.ofNat 32 (0x60000000 + d.toNat * 0x80000 + a.toNat * 0x2000 + b.toNat * 0x80 + s.toNat * 0x10 + o.toNat * 0x4 + z.toNat * 0x2 + n.toNat))
  | .alogAnd d a b s o z n => some (BitVec.ofNat 32 (0x62000000 + d.toNat * 0x80000 + a.toNat * 0x2000 + b.toNat * 0x80 + s.toNat * 0x10 + o.toNat * 0x4 + z.toNat * 0x2 + n.toNat))
  | .alogOr d a b s o z n => some (BitVec.ofNat 32 (0x64000000 + d.toNat * 0x80000 + a.toNat * 0x2000 + b.toNat * 0x80 + s.toNat * 0x10 + o.toNat * 0x4 + z.toNat * 0x2 + n.toNat))
  | .alogXor d a b s o z n => some (BitVec.ofNat 32 (0x66000000 + d.toNat * 0x80000 + a.toNat * 0x2000 + b.toNat * 0x80 + s.toNat * 0x10 + o.toNat * 0x4 + z.toNat * 0x2 + n.toNat))
  | .amax d a b s o z n => some (BitVec.ofNat 32 (0x68000000 + d.toNat * 0x80000 + a.toNat * 0x2000 + b.toNat * 0x80 + s.toNat * 0x10 + o.toNat * 0x4 + z.toNat * 0x2 + n.toNat))
  | .amaxN d a b s o z n => some (BitVec.ofNat 32 (0x6A000000 + d.toNat * 0x80000 + a.toNat * 0x2000 + b.toNat * 0x80 + s.toNat * 0x10 + o.toNat * 0x4 + z.toNat * 0x2 + n.toNat))
  | .amin d a b s o z n => some (BitVec.ofNat 32 (0x6C000000 + d.toNat * 0x80000 + a.toNat * 0x2000 + b.toNat * 0x80 + s.toNat * 0x10 + o.toNat * 0x4 + z.toNat * 0x2 + n.toNat))
  | .aminN d a b s o z n => some (BitVec.ofNat 32 (0x6E000000 + d.toNat * 0x80000 + a.toNat * 0x2000 + b.toNat * 0x80 + s.toNat * 0x10 + o.toNat * 0x4 + z.toNat * 0x2 + n.toNat))
  | .amaxf d a b s o n => some (BitVec.ofNat 32 (0x70000000 + d.toNat * 0x80000 + a.toNat * 0x2000 + b.toNat * 0x80 + s.toNat * 0x10 + o.toNat * 0x4 + n.toNat))
  | .aminf d a b s o n => some (BitVec.ofNat 32 (0x72000000 + d.toNat * 0x80000 + a.toNat * 0x2000 + b.toNat * 0x80 + s.toNat * 0x10 + o.toNat * 0x4 + n.toNat))
  | .aaddf d a b s o n => some (BitVec.ofNat 32 (0x74000000 + d.toNat * 0x80000 + a.toNat * 0x2000 + b.toNat * 0x80 + s.toNat * 0x10 + o.toNat * 0x4 + n.toNat))
  | .acas d a b s o z => some (BitVec.ofNat 32 (0x76000000 + d.toNat * 0x80000 + a.toNat * 0x2000 + b.toNat * 0x80 + s.toNat * 0x10 + o.toNat * 0x4 + z.toNat * 0x2))
  | .axch d a b s o z n => some (BitVec.ofNat 32 (0x78000000 + d.toNat * 0x80000 + a.toNat * 0x2000 + b.toNat * 0x80 + s.toNat * 0x10 + o.toNat * 0x4 + z.toNat * 0x2 + n.toNat))
  | .atq d a b => some (BitVec.ofNat 32 (0x7A000000 + d.toNat * 0x80000 + a.toNat * 0x2000 + b.toNat * 0x80))
  | .mark => some (BitVec.ofNat 32 (0x80000000))
  | .fence s => some (BitVec.ofNat 32 (0x80000008 + s.toNat))
  | .afence => some (BitVec.ofNat 32 (0x80000010))
  | .evsig a b => some (BitVec.ofNat 32 (0x82000000 + a.toNat * 0x2000 + b.toNat * 0x80))
  | .evsigR a => some (BitVec.ofNat 32 (0x82000001 + a.toNat * 0x2000))
  | .evwait a b => some (BitVec.ofNat 32 (0x84000000 + a.toNat * 0x2000 + b.toNat * 0x80))
  | .evpoll d a => some (BitVec.ofNat 32 (0x86000000 + d.toNat * 0x80000 + a.toNat * 0x2000))
  | .barinit a b => some (BitVec.ofNat 32 (0x88000000 + a.toNat * 0x2000 + b.toNat * 0x80))
  | .baradd a b => some (BitVec.ofNat 32 (0x8A000000 + a.toNat * 0x2000 + b.toNat * 0x80))
  | .barwait d a i => some (BitVec.ofNat 32 (0x8C000000 + d.toNat * 0x80000 + a.toNat * 0x2000 + i.toNat))
  | .toksig t a i => some (BitVec.ofNat 32 (0x8E000000 + t.toNat * 0x80000 + a.toNat * 0x2000 + i.toNat))
  | .tokwait t a i => some (BitVec.ofNat 32 (0x90000000 + t.toNat * 0x80000 + a.toNat * 0x2000 + i.toNat))
  | .sqnew d a => some (BitVec.ofNat 32 (0x92000000 + d.toNat * 0x80000 + a.toNat * 0x2000))
  | .sqres d a b => some (BitVec.ofNat 32 (0x92000001 + d.toNat * 0x80000 + a.toNat * 0x2000 + b.toNat * 0x80))
  | .sqcom d a b => some (BitVec.ofNat 32 (0x92000002 + d.toNat * 0x80000 + a.toNat * 0x2000 + b.toNat * 0x80))
  | .sqlen d a => some (BitVec.ofNat 32 (0x92000003 + d.toNat * 0x80000 + a.toNat * 0x2000))
  | .sqfork d a b => some (BitVec.ofNat 32 (0x92000004 + d.toNat * 0x80000 + a.toNat * 0x2000 + b.toNat * 0x80))
  | .sqdrop a => some (BitVec.ofNat 32 (0x92000005 + a.toNat * 0x2000))
  | .sqslot d a b => some (BitVec.ofNat 32 (0x92000006 + d.toNat * 0x80000 + a.toNat * 0x2000 + b.toNat * 0x80))
  | .sqseal a => some (BitVec.ofNat 32 (0x92000007 + a.toNat * 0x2000))
  | .sqwait d a i => some (BitVec.ofNat 32 (0x94000000 + d.toNat * 0x80000 + a.toNat * 0x2000 + i.toNat))
  | .vrun a g c x y => some (BitVec.ofNat 32 (0xA0000000 + a.toNat * 0x10000 + g.toNat * 0x400 + c.toNat * 0x10 + x.toNat * 0x8 + y.toNat * 0x4))
  | .vbase a g c x y => some (BitVec.ofNat 32 (0xA2000000 + a.toNat * 0x10000 + g.toNat * 0x400 + c.toNat * 0x10 + x.toNat * 0x8 + y.toNat * 0x4))
  | .vbaseL a g c x y => some (BitVec.ofNat 32 (0xA2400000 + a.toNat * 0x10000 + g.toNat * 0x400 + c.toNat * 0x10 + x.toNat * 0x8 + y.toNat * 0x4))
  | .vhalt a g c x y => some (BitVec.ofNat 32 (0xA4000000 + a.toNat * 0x10000 + g.toNat * 0x400 + c.toNat * 0x10 + x.toNat * 0x8 + y.toNat * 0x4))
  | .vsend a g c x y => some (BitVec.ofNat 32 (0xA6000000 + a.toNat * 0x10000 + g.toNat * 0x400 + c.toNat * 0x10 + x.toNat * 0x8 + y.toNat * 0x4))
  | .mldb a g c x y => some (BitVec.ofNat 32 (0xA8000000 + a.toNat * 0x10000 + g.toNat * 0x400 + c.toNat * 0x10 + x.toNat * 0x8 + y.toNat * 0x4))
  | .mmul a g c x y => some (BitVec.ofNat 32 (0xAA000000 + a.toNat * 0x10000 + g.toNat * 0x400 + c.toNat * 0x10 + x.toNat * 0x8 + y.toNat * 0x4))
  | .mdrain a g c x y => some (BitVec.ofNat 32 (0xAC000000 + a.toNat * 0x10000 + g.toNat * 0x400 + c.toNat * 0x10 + x.toNat * 0x8 + y.toNat * 0x4))
  | .mdrainS a g c x y => some (BitVec.ofNat 32 (0xAC400000 + a.toNat * 0x10000 + g.toNat * 0x400 + c.toNat * 0x10 + x.toNat * 0x8 + y.toNat * 0x4))
  | .mclr a g c x y => some (BitVec.ofNat 32 (0xAE000000 + a.toNat * 0x10000 + g.toNat * 0x400 + c.toNat * 0x10 + x.toNat * 0x8 + y.toNat * 0x4))
  | .mbase a g c x y => some (BitVec.ofNat 32 (0xB0000000 + a.toNat * 0x10000 + g.toNat * 0x400 + c.toNat * 0x10 + x.toNat * 0x8 + y.toNat * 0x4))
  | .mshr a g c x y => some (BitVec.ofNat 32 (0xB2000000 + a.toNat * 0x10000 + g.toNat * 0x400 + c.toNat * 0x10 + x.toNat * 0x8 + y.toNat * 0x4))
  | .wdef a g c x y => some (BitVec.ofNat 32 (0xB4000000 + a.toNat * 0x10000 + g.toNat * 0x400 + c.toNat * 0x10 + x.toNat * 0x8 + y.toNat * 0x4))
  | .tmap d a i => some (BitVec.ofNat 32 (0xC0000000 + d.toNat * 0x80000 + a.toNat * 0x2000 + i.toNat))
  | .tload a g c x y => some (BitVec.ofNat 32 (0xC2000000 + a.toNat * 0x10000 + g.toNat * 0x400 + c.toNat * 0x10 + x.toNat * 0x8 + y.toNat * 0x4))
  | .tstore a g c x y => some (BitVec.ofNat 32 (0xC4000000 + a.toNat * 0x10000 + g.toNat * 0x400 + c.toNat * 0x10 + x.toNat * 0x8 + y.toNat * 0x4))
  | .tgath a g c x y => some (BitVec.ofNat 32 (0xC6000000 + a.toNat * 0x10000 + g.toNat * 0x400 + c.toNat * 0x10 + x.toNat * 0x8 + y.toNat * 0x4))
  | .tscat a g c x y => some (BitVec.ofNat 32 (0xC8000000 + a.toNat * 0x10000 + g.toNat * 0x400 + c.toNat * 0x10 + x.toNat * 0x8 + y.toNat * 0x4))
  | .xpat a g c x y => some (BitVec.ofNat 32 (0xCA000000 + a.toNat * 0x10000 + g.toNat * 0x400 + c.toNat * 0x10 + x.toNat * 0x8 + y.toNat * 0x4))
  | .hexch a g c x y => some (BitVec.ofNat 32 (0xCC000000 + a.toNat * 0x10000 + g.toNat * 0x400 + c.toNat * 0x10 + x.toNat * 0x8 + y.toNat * 0x4))
  | .layset a g c x y => some (BitVec.ofNat 32 (0xCE000000 + a.toNat * 0x10000 + g.toNat * 0x400 + c.toNat * 0x10 + x.toNat * 0x8 + y.toNat * 0x4))
  | .laysetPass a g c x y => some (BitVec.ofNat 32 (0xCE400000 + a.toNat * 0x10000 + g.toNat * 0x400 + c.toNat * 0x10 + x.toNat * 0x8 + y.toNat * 0x4))
  | .layget d a f => some (BitVec.ofNat 32 (0xD0000000 + d.toNat * 0x80000 + a.toNat * 0x2000 + f.toNat))
  | .reshard a g c x y => some (BitVec.ofNat 32 (0xD2000000 + a.toNat * 0x10000 + g.toNat * 0x400 + c.toNat * 0x10 + x.toNat * 0x8 + y.toNat * 0x4))
  | .cred a g c x y => some (BitVec.ofNat 32 (0xD4000000 + a.toNat * 0x10000 + g.toNat * 0x400 + c.toNat * 0x10 + x.toNat * 0x8 + y.toNat * 0x4))
  | .cbcast a g c x y => some (BitVec.ofNat 32 (0xD6000000 + a.toNat * 0x10000 + g.toNat * 0x400 + c.toNat * 0x10 + x.toNat * 0x8 + y.toNat * 0x4))
  | .discard a b => some (BitVec.ofNat 32 (0xE0000000 + a.toNat * 0x2000 + b.toNat * 0x80))
  | .pref a b => some (BitVec.ofNat 32 (0xE2000000 + a.toNat * 0x2000 + b.toNat * 0x80))
  | .spawn d a b => some (BitVec.ofNat 32 (0xE4000000 + d.toNat * 0x80000 + a.toNat * 0x2000 + b.toNat * 0x80))
  | .join d a b => some (BitVec.ofNat 32 (0xE6000000 + d.toNat * 0x80000 + a.toNat * 0x2000 + b.toNat * 0x80))
  | .exit => some (BitVec.ofNat 32 (0xE8000000))
  | .exitD => some (BitVec.ofNat 32 (0xE8000001))
  | .yield => some (BitVec.ofNat 32 (0xEA000000))
  | .cancel d a => some (BitVec.ofNat 32 (0xEC000000 + d.toNat * 0x80000 + a.toNat * 0x2000))
  | .cmpl d a b => some (BitVec.ofNat 32 (0xEE000000 + d.toNat * 0x80000 + a.toNat * 0x2000 + b.toNat * 0x80))
  | .region m c s => some (BitVec.ofNat 32 (0xF0000000 + m.toNat * 0x80000 + c.toNat * 0x1000 + s.toNat))
  | .segend a i => some (BitVec.ofNat 32 (0xF2000000 + a.toNat * 0x2000 + i.toNat))
  | .nop => some (BitVec.ofNat 32 (0xFE000000))
  | .trap c => some (BitVec.ofNat 32 (0xFE080000 + c.toNat))
  | .eret => some (BitVec.ofNat 32 (0xFE100000))
  | .ctlr d n => some (BitVec.ofNat 32 (0xFE180000 + d.toNat * 0x2000 + n.toNat))
  | .ctlw a n => some (BitVec.ofNat 32 (0xFE200000 + a.toNat * 0x2000 + n.toNat))
  | .bufphSwap a => some (BitVec.ofNat 32 (0xFE200063 + a.toNat * 0x2000))
  | .bufphClose a => some (BitVec.ofNat 32 (0xFE200063 + a.toNat * 0x2000))
  | .tlbi a k => some (BitVec.ofNat 32 (0xFE280000 + a.toNat * 0x2000 + k.toNat * 0x400))
  | .cyc d k => some (BitVec.ofNat 32 (0xFE300000 + d.toNat * 0x2000 + k.toNat))
  | .vnop => some (BitVec.ofNat 32 (0x01000000))
  | .vadd d a b => some (BitVec.ofNat 32 (0x10000000 + d.toNat * 0x10000 + a.toNat * 0x100 + b.toNat))
  | .vaddZ d a z => some (BitVec.ofNat 32 (0x11000000 + d.toNat * 0x10000 + a.toNat * 0x100 + z.toNat))
  | .vsub d a b => some (BitVec.ofNat 32 (0x12000000 + d.toNat * 0x10000 + a.toNat * 0x100 + b.toNat))
  | .vsubZ d a z => some (BitVec.ofNat 32 (0x13000000 + d.toNat * 0x10000 + a.toNat * 0x100 + z.toNat))
  | .vmul d a b => some (BitVec.ofNat 32 (0x14000000 + d.toNat * 0x10000 + a.toNat * 0x100 + b.toNat))
  | .vmulZ d a z => some (BitVec.ofNat 32 (0x15000000 + d.toNat * 0x10000 + a.toNat * 0x100 + z.toNat))
  | .vfma d a b => some (BitVec.ofNat 32 (0x16000000 + d.toNat * 0x10000 + a.toNat * 0x100 + b.toNat))
  | .vfmaZ d a z => some (BitVec.ofNat 32 (0x17000000 + d.toNat * 0x10000 + a.toNat * 0x100 + z.toNat))
  | .vfmaS d a b => some (BitVec.ofNat 32 (0x18000000 + d.toNat * 0x10000 + a.toNat * 0x100 + b.toNat))
  | .vfmaSZ d a z => some (BitVec.ofNat 32 (0x19000000 + d.toNat * 0x10000 + a.toNat * 0x100 + z.toNat))
  | .vdiv d a b => some (BitVec.ofNat 32 (0x1A000000 + d.toNat * 0x10000 + a.toNat * 0x100 + b.toNat))
  | .vdivZ d a z => some (BitVec.ofNat 32 (0x1B000000 + d.toNat * 0x10000 + a.toNat * 0x100 + z.toNat))
  | .vmax d a b => some (BitVec.ofNat 32 (0x1C000000 + d.toNat * 0x10000 + a.toNat * 0x100 + b.toNat))
  | .vmaxZ d a z => some (BitVec.ofNat 32 (0x1D000000 + d.toNat * 0x10000 + a.toNat * 0x100 + z.toNat))
  | .vmin d a b => some (BitVec.ofNat 32 (0x1E000000 + d.toNat * 0x10000 + a.toNat * 0x100 + b.toNat))
  | .vminZ d a z => some (BitVec.ofNat 32 (0x1F000000 + d.toNat * 0x10000 + a.toNat * 0x100 + z.toNat))
  | .vsgn d a b => some (BitVec.ofNat 32 (0x20000000 + d.toNat * 0x10000 + a.toNat * 0x100 + b.toNat))
  | .vsgnZ d a z => some (BitVec.ofNat 32 (0x21000000 + d.toNat * 0x10000 + a.toNat * 0x100 + z.toNat))
  | .vrcp d a => some (BitVec.ofNat 32 (0x28000000 + d.toNat * 0x10000 + a.toNat * 0x100))
  | .vrsq d a => some (BitVec.ofNat 32 (0x29000000 + d.toNat * 0x10000 + a.toNat * 0x100))
  | .vsqrt d a => some (BitVec.ofNat 32 (0x2A000000 + d.toNat * 0x10000 + a.toNat * 0x100))
  | .vexp2 d a => some (BitVec.ofNat 32 (0x2B000000 + d.toNat * 0x10000 + a.toNat * 0x100))
  | .vlog2 d a => some (BitVec.ofNat 32 (0x2C000000 + d.toNat * 0x10000 + a.toNat * 0x100))
  | .vcmpEq k a b => some (BitVec.ofNat 32 (0x30000000 + k.toNat * 0x100000 + a.toNat * 0x100 + b.toNat))
  | .vcmpLt k a b => some (BitVec.ofNat 32 (0x31000000 + k.toNat * 0x100000 + a.toNat * 0x100 + b.toNat))
  | .vcmpLe k a b => some (BitVec.ofNat 32 (0x32000000 + k.toNat * 0x100000 + a.toNat * 0x100 + b.toNat))
  | .vcmpUn k a b => some (BitVec.ofNat 32 (0x33000000 + k.toNat * 0x100000 + a.toNat * 0x100 + b.toNat))
  | .vcmpZEq k a z => some (BitVec.ofNat 32 (0x34000000 + k.toNat * 0x100000 + a.toNat * 0x100 + z.toNat))
  | .vcmpZLt k a z => some (BitVec.ofNat 32 (0x35000000 + k.toNat * 0x100000 + a.toNat * 0x100 + z.toNat))
  | .vcmpZLe k a z => some (BitVec.ofNat 32 (0x36000000 + k.toNat * 0x100000 + a.toNat * 0x100 + z.toNat))
  | .vcmpZUn k a z => some (BitVec.ofNat 32 (0x37000000 + k.toNat * 0x100000 + a.toNat * 0x100 + z.toNat))
  | .vsel d a b => some (BitVec.ofNat 32 (0x38000000 + d.toNat * 0x10000 + a.toNat * 0x100 + b.toNat))
  | .viadd d a b => some (BitVec.ofNat 32 (0x40000000 + d.toNat * 0x10000 + a.toNat * 0x100 + b.toNat))
  | .viaddZ d a z => some (BitVec.ofNat 32 (0x41000000 + d.toNat * 0x10000 + a.toNat * 0x100 + z.toNat))
  | .visub d a b => some (BitVec.ofNat 32 (0x42000000 + d.toNat * 0x10000 + a.toNat * 0x100 + b.toNat))
  | .visubZ d a z => some (BitVec.ofNat 32 (0x43000000 + d.toNat * 0x10000 + a.toNat * 0x100 + z.toNat))
  | .vimul d a b => some (BitVec.ofNat 32 (0x44000000 + d.toNat * 0x10000 + a.toNat * 0x100 + b.toNat))
  | .vimulZ d a z => some (BitVec.ofNat 32 (0x45000000 + d.toNat * 0x10000 + a.toNat * 0x100 + z.toNat))
  | .vimax d a b => some (BitVec.ofNat 32 (0x46000000 + d.toNat * 0x10000 + a.toNat * 0x100 + b.toNat))
  | .vimaxZ d a z => some (BitVec.ofNat 32 (0x47000000 + d.toNat * 0x10000 + a.toNat * 0x100 + z.toNat))
  | .vimin d a b => some (BitVec.ofNat 32 (0x48000000 + d.toNat * 0x10000 + a.toNat * 0x100 + b.toNat))
  | .viminZ d a z => some (BitVec.ofNat 32 (0x49000000 + d.toNat * 0x10000 + a.toNat * 0x100 + z.toNat))
  | .vbitAnd d a b => some (BitVec.ofNat 32 (0x4A000000 + d.toNat * 0x10000 + a.toNat * 0x100 + b.toNat))
  | .vbitOr d a b => some (BitVec.ofNat 32 (0x4B000000 + d.toNat * 0x10000 + a.toNat * 0x100 + b.toNat))
  | .vbitXor d a b => some (BitVec.ofNat 32 (0x4C000000 + d.toNat * 0x10000 + a.toNat * 0x100 + b.toNat))
  | .vbitAndn d a b => some (BitVec.ofNat 32 (0x4D000000 + d.toNat * 0x10000 + a.toNat * 0x100 + b.toNat))
  | .vshfShl d a b => some (BitVec.ofNat 32 (0x4E000000 + d.toNat * 0x10000 + a.toNat * 0x100 + b.toNat))
  | .vshfShr d a b => some (BitVec.ofNat 32 (0x4F000000 + d.toNat * 0x10000 + a.toNat * 0x100 + b.toNat))
  | .vshfSra d a b => some (BitVec.ofNat 32 (0x50000000 + d.toNat * 0x10000 + a.toNat * 0x100 + b.toNat))
  | .viaddSat d a b => some (BitVec.ofNat 32 (0x51000000 + d.toNat * 0x10000 + a.toNat * 0x100 + b.toNat))
  | .visubSat d a b => some (BitVec.ofNat 32 (0x52000000 + d.toNat * 0x10000 + a.toNat * 0x100 + b.toNat))
  | .vimaxN d a b => some (BitVec.ofNat 32 (0x53000000 + d.toNat * 0x10000 + a.toNat * 0x100 + b.toNat))
  | .viminN d a b => some (BitVec.ofNat 32 (0x54000000 + d.toNat * 0x10000 + a.toNat * 0x100 + b.toNat))
  | .vcvt d a r k => some (BitVec.ofNat 32 (0x58000000 + d.toNat * 0x10000 + a.toNat * 0x100 + r.toNat * 0x10 + k.toNat))
  | .vqnt d a e m f => some (BitVec.ofNat 32 (0x59000000 + d.toNat * 0x10000 + a.toNat * 0x100 + e.toNat * 0x10 + m.toNat * 0x4 + f.toNat))
  | .vrsum z a => some (BitVec.ofNat 32 (0x60000000 + z.toNat * 0x100000 + a.toNat * 0x100))
  | .vrmax z a => some (BitVec.ofNat 32 (0x61000000 + z.toNat * 0x100000 + a.toNat * 0x100))
  | .vrmin z a => some (BitVec.ofNat 32 (0x62000000 + z.toNat * 0x100000 + a.toNat * 0x100))
  | .vmov d a => some (BitVec.ofNat 32 (0x68000000 + d.toNat * 0x10000 + a.toNat * 0x100))
  | .vrot d a n => some (BitVec.ofNat 32 (0x69000000 + d.toNat * 0x10000 + a.toNat * 0x100 + n.toNat))
  | .vbcast d z => some (BitVec.ofNat 32 (0x6A000000 + d.toNat * 0x10000 + z.toNat))
  | .vld d z s => some (BitVec.ofNat 32 (0x70000000 + d.toNat * 0x10000 + z.toNat * 0x100 + s.toNat))
  | .vst d z w s => some (BitVec.ofNat 32 (0x71000000 + d.toNat * 0x10000 + z.toNat * 0x100 + w.toNat * 0x40 + s.toNat))
  | .vldT d z s => some (BitVec.ofNat 32 (0x72000000 + d.toNat * 0x10000 + z.toNat * 0x100 + s.toNat))
  | .vstT d z s => some (BitVec.ofNat 32 (0x73000000 + d.toNat * 0x10000 + z.toNat * 0x100 + s.toNat))
  | .vpop d w b => some (BitVec.ofNat 32 (0x74000000 + d.toNat * 0x10000 + w.toNat * 0x100 + b.toNat))
  | .vpush d z w => some (BitVec.ofNat 32 (0x75000000 + d.toNat * 0x10000 + z.toNat * 0x100 + w.toNat * 0x40))
  | .vsacc d n q y m s => some (BitVec.ofNat 32 (0x78000000 + d.toNat * 0x10000 + n.toNat * 0x1000 + q.toNat * 0x400 + y.toNat * 0x100 + m.toNat * 0x40 + s.toNat))
  | .vsaccN d n q y m x s => some (BitVec.ofNat 32 (0x78000080 + d.toNat * 0x10000 + n.toNat * 0x1000 + q.toNat * 0x400 + y.toNat * 0x100 + m.toNat * 0x40 + x.toNat * 0x10 + s.toNat))
  | .vaccr d n q y f => some (BitVec.ofNat 32 (0x79000000 + d.toNat * 0x10000 + n.toNat * 0x1000 + q.toNat * 0x400 + y.toNat * 0x100 + f.toNat))
  | .vsigq k a n => some (BitVec.ofNat 32 (0x7C000000 + k.toNat * 0x100000 + a.toNat * 0x100 + n.toNat))
  | .vsigs d a => some (BitVec.ofNat 32 (0x7D000000 + d.toNat * 0x10000 + a.toNat * 0x100))
  | .vsigr d a => some (BitVec.ofNat 32 (0x7E000000 + d.toNat * 0x10000 + a.toNat * 0x100))
  | .vloop n => some (BitVec.ofNat 32 (0x80000000 + n.toNat))
  | .vend => some (BitVec.ofNat 32 (0x81000000))
  | .vflag z => some (BitVec.ofNat 32 (0x82000000 + z.toNat * 0x10000))
  | .vflagNew z => some (BitVec.ofNat 32 (0x82000001 + z.toNat * 0x10000))
  | .vwait t n b => some (BitVec.ofNat 32 (0x83000000 + t.toNat * 0x10000 + n.toNat * 0x100 + b.toNat))
  | .vidx i n => some (BitVec.ofNat 32 (0x84000000 + i.toNat * 0x10000 + n.toNat))
  | .vidxAdd i n => some (BitVec.ofNat 32 (0x84400000 + i.toNat * 0x10000 + n.toNat))
  | .vkset k a b => some (BitVec.ofNat 32 (0x85000000 + k.toNat * 0x100000 + a.toNat * 0x100 + b.toNat))
  | .vzmovLane z a l => some (BitVec.ofNat 32 (0x86000000 + z.toNat * 0x10000 + a.toNat * 0x100 + l.toNat))
  | .vzmovZ z y => some (BitVec.ofNat 32 (0x86000040 + z.toNat * 0x10000 + y.toNat * 0x100))
  | .registerWrite _ => none
  | .launchNotify _ _ _ _ => none
  | .launchStampReread _ _ _ => none
  | .launchUnitRegister _ _ => none
  | .cqCtlWrite _ _ _ => none
  | .cqHeadWrite _ _ _ => none
  | .firmwarePreempt _ => none
  | .dispatch _ => none
  | .agingSweep _ => none
  | .translationComplete _ _ => none
  | .forcedSave _ => none
  | .contextFrameFree _ => none
  | .cancelLimitExpiry _ => none
  | .eventWaitRepresent _ _ => none
  | .pendingSignalApply _ => none
  | .commandStart _ _ _ => none
  | .commandComplete _ _ => none
  | .schedMiss _ => none
  | .waitBound _ _ => none
  | .handlerEntry _ => none
  | .lateLegFault _ _ _ _ => none
  | .streamFillEntry _ _ => none
  | .mmulChunkCommit _ => none
  | .cimGateIdle _ _ => none
  | .cimWakeEnd _ _ => none
  | .loggedRequestAtHome _ _ => none
  | .remoteResponse _ _ => none
  | .requestDeadline _ => none
  | .scrubRead _ _ _ => none
  | .scrubWriteback _ _ => none
  | .pteChange _ _ _ => none
  | .revocationReceive _ _ => none
  | .revocationAck _ _ => none
  | .revocationComplete _ => none
  | .migrationComplete _ _ _ => none
  | .grantNarrowing _ => none
  | .narrowingAck _ => none
  | .seqHomeRetry _ => none
  | .seqHomeRefuse _ => none
  | .flitRetransmitRequest _ _ _ => none
  | .linkDown _ _ => none
  | .timeSyncExchange _ _ => none
  | .timeReferenceFail _ => none
  | .timeReferenceReturn _ => none
  | .hubWatchdogExpiry _ => none
  | .packageLinksDown _ => none
  | .lossNotice _ _ => none
  | .slabArrival _ => none
  | .laysetDistribute _ => none
  | .laysetInstall _ => none
  | .reshardPassTime _ _ => none
  | .reshardReady _ => none
  | .reshardSlackExpiry _ _ => none
  | .reshardAbort _ => none
  | .reshardPassEnd _ _ => none
  | .reshardReport _ => none
  | .reshardCommit _ => none
  | .reshardLocalMove _ _ => none
  | .collectivePartialArrival _ => none
  | .collectiveForward _ _ _ => none
  | .collectiveRootFinish _ _ _ => none
  | .collectiveResultArrival _ => none
  | .collectiveSlotTimeout _ _ _ => none
  | .cbcastDeadline _ _ _ => none
  | .flrInitiate _ _ => none
  | .flrDrainDone _ _ => none
  | .packageReset _ _ _ _ => none
  | .firmwareUpdate _ _ _ => none
  | .svnCommit _ _ => none
  | .getVersion _ _ => none
  | .getCapabilities _ _ => none
  | .negotiateAlgorithms _ _ _ => none
  | .getDigests _ _ => none
  | .getCertificate _ _ => none
  | .challenge _ _ _ => none
  | .getMeasurements _ _ _ => none
  | .spdmUnsupported _ _ _ => none
  | .droopStretch _ _ => none
  | .powerWindow _ _ _ => none
  | .thermalHalfRate _ _ => none
  | .thermalRecover _ _ => none
  | .thermalShutdown _ _ => none
  | .remoteAccessAtHome _ _ => none
  | .dieFailure _ => none
  | .poisonedWindowWrite _ _ _ => none
  | .jobClose _ => none
  | .jobCancel _ => none

/-! ## The table's numbering -/

/-- The instruction that the decoders read from a word of the opcode table: the control thread's reading where the
word is a control word with an assigned opcode, else the vector sequencer's, else ILL (R93, R324). -/
def decodeTableWord (nbits w : Nat) : Option Instr :=
  if nbits = 32 then
    let b : W32 := BitVec.ofNat 32 w
    match decodeCt b, decodeVs b with
    | .ok (.ill x), .ok i => if x = 0 then some (.ill x) else some i
    | .ok i, _ => some i
    | .error _, .ok i => some i
    | .error _, .error _ => none
  else none

end Sys2Proof
end

