-- ==== Sys2Proof/Machine/Fetch.lean ====
section
/-! DEFINITION. What the control thread does before a word's own effect: fetch, clause guards, prefixes and decoding
(04_formats_assembly.md, R80, R84 to R90), and what it waits for or takes first. -/

namespace Sys2Proof.Machine

/-- The outcome of fetching the next control word of a tile. -/
inductive Fetched where
  /-- the CT does not move in this state -/
  | idle
  /-- the state after a skip, a stall or a fault in place of a word -/
  | done (s : State)
  /-- an instruction to run, in the state its meaning starts from -/
  | run (i : Instr) (s : State)
  deriving Repr

/-- Formats whose immediate a PFX widens (R85). -/
def takesPfx (i : Instr) : Bool :=
  match i with
  | .addImm .. | .lih .. | .ld .. | .st .. | .fld .. | .fldT .. | .fst .. | .fstT .. | .br .. | .bq .. | .jal .. | .jalr ..
  | .loop .. | .bsig .. | .fsigImm .. | .barwait .. | .toksig .. | .tokwait .. | .sqwait .. | .tmap .. | .region .. | .segend .. => true
  | _ => false

/-- Words that must not be executed as governed words (R88). -/
def neverGoverned (i : Instr) : Bool :=
  match i with
  | .grd .. | .yield | .exit | .exitD | .eret | .evwait .. | .segend .. => true
  | _ => false
/-- Words that may be executed as governed words in the last position only (R88). -/
def lastGoverned (i : Instr) : Bool :=
  match i with
  | .br .. | .bq .. | .jal .. | .jalr .. | .loop .. | .bsig .. => true
  | _ => false

/-- REM and PV of a CLAUSE value (R89). -/
def clauseRem (c : BitVec 5) : Nat := fld c 0 4
def clausePv (c : BitVec 5) : Bool := bit c 4

/-- The CTLW word to BUFPH closes phases where bit 24 of its source is clear (R267). -/
def refineBufph (t : Tile) (i : Instr) : Instr :=
  match i with
  | .bufphSwap a => if bit (t.gReg a.toNat) 24 then .bufphSwap a else .bufphClose a
  | i => i

/-- A cancel request whose limit is 0 takes effect at once (R30, R42). -/
def State.cancelNow (s : State) (k : Nat) : Bool :=
  (s.tile k).cancelAt.isSome && fld (s.die (tileDie k)).preemptLimit 0 32 = 0

/-- The next word of tile k: what is met before it, its fetch, its clause, its prefix and its decoding. -/
def State.fetch (s : State) (k : Nat) : Fetched :=
  let t := s.tile k
  let dcc := s.dcc (tileDie k)
  let parked := match t.wait with
    | some w => w.parked
    | none => false
  if !t.isRunning || parked || dcc < t.stallUntil then .idle
  else if t.pfx.isNone && s.cancelNow k then .done (s.takeCut k .cancel t.order t.pc t.clause)
  else match (if t.pfx.isNone && !t.inh then t.reports.find? fun r => r.leg else none) with
    | some r => .done ((s.modTile k fun t => { t with reports := t.reports.erase r }).raiseReport k r)
    | none =>
      if t.journal.length ≥ Config.journalSize then .done (s.stallIssue k .journal)
      else match s.fetchWord k t.pc with
        | .error (cls, va) => .done (s.fault k cls va)
        | .ok w =>
          let rem := clauseRem t.clause
          if 0 < rem ∧ !clausePv t.clause then
            .done (s.setTile k { t with pc := t.pc + 4, clause := clauseStep t.clause, order := t.order + 1, wait := none })
          else
            match decodeCt w with
            | .error _ => .done (s.illegal k)
            | .ok i =>
              if (t.pfx.isSome && !takesPfx i) || (0 < rem && neverGoverned i) || (1 < rem && lastGoverned i) then
                .done (s.illegal k)
              else .run (refineBufph t i) { s.setTile k { t with word := w } with focus := k }

end Sys2Proof.Machine
end

