-- ==== Sys2Proof/Machine/Schedule.lean ====
section
/-! DEFINITION. Whose turn it is, and what a turn finds before an instruction's own effect: the schedule (log 2), the word
that the control thread fetches, the step that the vector sequencer reaches, the entry that a store queue performs. -/

namespace Sys2Proof.Machine

/-! ## What a turn finds -/

/-- A tile on a lost die does not move (R246). -/
def State.stopped (s : State) (k : Nat) : Bool := tileDie k ∈ s.lost

/-- The control thread's turn. -/
def State.ctTurn (s : State) (k : Nat) : Fetched := if s.stopped k then .idle else s.fetch k

/-- The vector sequencer's turn: the next step that runs in the pass, or the end of the pass (R70). A table that has ended,
or that VHALT has stopped, does not move. -/
def State.vsTurn (s : State) (k : Nat) : Fetched :=
  let t := s.tile k
  match t.vs with
  | none => .idle
  | some v =>
    if s.stopped k || v.done || (v.halt && !v.granted) then .idle
    else
      let i := t.seekStep v (v.steps - v.upc) v.upc
      if v.steps ≤ i then
        match v.goTo i v.levels 0 with
        | some w => .done (s.setTile k { t with vs := some { w with moved := v.moved } })
        | none => .done (s.vsTrap k { v with upc := v.steps - 1 } { cls := Cls.illegalOp } 0)
      else
        let v := { v with upc := i }
        match decodeVs (t.stepWord v i) with
        | .error _ => .done (s.vsTrap k v { cls := Cls.illegalOp } 0)
        | .ok ins => .run ins { s.setTile k { t with vs := some v } with focus := k }

/-- The turn of a store queue. -/
def State.storeTurn (s : State) (k n : Nat) : Fetched := if s.stopped k then .idle else .done (s.performStore k n)

/-- The turn of a fetch buffer. -/
def State.prefetchTurn (s : State) (k va : Nat) : Fetched := if s.stopped k || !(s.tile k).isRunning then .idle else .done (s.prefetch k va)

/-- The die where an event happens, for those that name one tile or one die. -/
def eventHome (i : Instr) : Option Nat :=
  match i with
  | .firmwarePreempt k | .forcedSave k | .contextFrameFree k | .cancelLimitExpiry k | .commandStart k _ _ | .commandComplete k _
  | .schedMiss k | .waitBound k _ | .handlerEntry k | .lateLegFault k _ _ _ | .streamFillEntry k _ | .mmulChunkCommit k
  | .cimGateIdle k _ | .cimWakeEnd k _ => some (tileDie k)
  | .dispatch d | .agingSweep d | .translationComplete d _ | .eventWaitRepresent d _ | .pendingSignalApply d | .reshardPassTime d _
  | .reshardSlackExpiry d _ | .reshardPassEnd d _ | .reshardLocalMove d _ | .collectiveForward d _ _ | .collectiveRootFinish d _ _
  | .collectiveSlotTimeout d _ _ | .cbcastDeadline d _ _ | .scrubRead d _ _ | .scrubWriteback d _ => some d
  | _ => none

/-- What the turn of an event finds: the event, unless its die is lost. `none` where the schedule names a word. -/
def State.eventTurn (s : State) (i : Instr) : Option Fetched :=
  if (encode i).isSome then none
  else match eventHome i with
    | some d => some (if d ∈ s.lost then .idle else .run i s)
    | none => some (.run i s)

/-- What a turn finds. -/
def State.turnOf (s : State) (w : Who) : Option Fetched :=
  match w with
  | .ct k => some (s.ctTurn k)
  | .vs k => some (s.vsTurn k)
  | .store k n => some (s.storeTurn k n)
  | .prefetch k va => some (s.prefetchTurn k va)
  | .ev i => s.eventTurn i

/-- After a word or a micro-order of a tile: its journal commits, the heads of its queues have their times, and CHK is
applied (R59, R74). -/
def State.afterTurn (s : State) (w : Who) : State :=
  match w with
  | .ct k | .vs k => s.afterStep k
  | .store _ _ | .prefetch _ _ | .ev _ => s

/-! ## The schedule of its own (log 2)

Where no schedule is given, the machine moves what can move, in rotation. An own move is one turn of a tile, or one event,
named by its operands: the same meaning as the event's arm. -/

/-- A move of the machine's own. -/
inductive Move where
  /-- a turn of a schedule, or a tile's -/
  | turn (w : Who)
  | commandStart (k : Nat) (q : Nat) (n : Nat)
  | commandComplete (k : Nat) (pos : Nat)
  | mmulChunkCommit (k : Nat)
  | lateLegFault (k : Nat) (pos : Nat) (cls : BitVec 8) (faddr : BitVec 64)
  | streamFillEntry (k : Nat) (rec : Nat)
  | handlerEntry (k : Nat)
  | schedMiss (k : Nat)
  | waitBound (k : Nat) (who : Nat)
  | cancelLimitExpiry (k : Nat)
  | forcedSave (k : Nat)
  | cimWakeEnd (k : Nat) (set : Nat)
  | cimGateIdle (k : Nat) (set : Nat)
  | dispatch (d : Nat)
  | agingSweep (d : Nat)
  | translationComplete (d : Nat) (i : Nat)
  | eventWaitRepresent (d : Nat) (i : Nat)
  | pendingSignalApply (d : Nat)
  | reshardPassTime (d : Nat) (j : Nat)
  | reshardPassEnd (d : Nat) (j : Nat)
  | reshardLocalMove (d : Nat) (j : Nat)
  | reshardSlackExpiry (d : Nat) (j : Nat)
  | collectiveForward (d : Nat) (j : Nat) (c : Nat)
  | collectiveRootFinish (d : Nat) (j : Nat) (c : Nat)
  | collectiveSlotTimeout (d : Nat) (j : Nat) (c : Nat)
  | cbcastDeadline (d : Nat) (j : Nat) (c : Nat)
  | slabArrival (i : Nat)
  | laysetDistribute (i : Nat)
  | laysetInstall (i : Nat)
  | reshardReady (i : Nat)
  | reshardReport (i : Nat)
  | reshardCommit (i : Nat)
  | reshardAbort (i : Nat)
  | collectivePartialArrival (i : Nat)
  | collectiveResultArrival (i : Nat)
  | grantNarrowing (i : Nat)
  | narrowingAck (i : Nat)
  | loggedRequestAtHome (a : Nat) (b : Nat)
  | remoteAccessAtHome (a : Nat) (b : Nat)
  | remoteResponse (i : Nat) (p : Bool)
  | requestDeadline (i : Nat)
  | seqHomeRetry (i : Nat)
  | seqHomeRefuse (i : Nat)
  | revocationReceive (i : Nat) (k : Nat)
  | revocationAck (i : Nat) (k : Nat)
  | revocationComplete (i : Nat)
  | launchUnitRegister (j : Nat) (l : Nat)
  | launchStampReread (p : Nat) (f : Nat) (x : Nat)
  | flrDrainDone (p : Nat) (f : Nat)
  deriving DecidableEq, Repr

/-- What a move of its own does, where it is an event: the event's meaning. -/
def Move.act (m : Move) (s : State) : Host.Outcome State Fault Refusal :=
  match m with
  | .turn _ => .next s
  | .commandStart k q n => Sys2Proof.Machine.execCommandStart k q n s
  | .commandComplete k pos => Sys2Proof.Machine.execCommandComplete k pos s
  | .mmulChunkCommit k => Sys2Proof.Machine.execMmulChunkCommit k s
  | .lateLegFault k pos cls faddr => Sys2Proof.Machine.execLateLegFault k pos cls faddr s
  | .streamFillEntry k rec => Sys2Proof.Machine.execStreamFillEntry k rec s
  | .handlerEntry k => Sys2Proof.Machine.execHandlerEntry k s
  | .schedMiss k => Sys2Proof.Machine.execSchedMiss k s
  | .waitBound k who => Sys2Proof.Machine.execWaitBound k who s
  | .cancelLimitExpiry k => Sys2Proof.Machine.execCancelLimitExpiry k s
  | .forcedSave k => Sys2Proof.Machine.execForcedSave k s
  | .cimWakeEnd k set => Sys2Proof.Machine.execCimWakeEnd k set s
  | .cimGateIdle k set => Sys2Proof.Machine.execCimGateIdle k set s
  | .dispatch d => Sys2Proof.Machine.execDispatch d s
  | .agingSweep d => Sys2Proof.Machine.execAgingSweep d s
  | .translationComplete d i => Sys2Proof.Machine.execTranslationComplete d i s
  | .eventWaitRepresent d i => Sys2Proof.Machine.execEventWaitRepresent d i s
  | .pendingSignalApply d => Sys2Proof.Machine.execPendingSignalApply d s
  | .reshardPassTime d j => Sys2Proof.Machine.execReshardPassTime d j s
  | .reshardPassEnd d j => Sys2Proof.Machine.execReshardPassEnd d j s
  | .reshardLocalMove d j => Sys2Proof.Machine.execReshardLocalMove d j s
  | .reshardSlackExpiry d j => Sys2Proof.Machine.execReshardSlackExpiry d j s
  | .collectiveForward d j c => Sys2Proof.Machine.execCollectiveForward d j c s
  | .collectiveRootFinish d j c => Sys2Proof.Machine.execCollectiveRootFinish d j c s
  | .collectiveSlotTimeout d j c => Sys2Proof.Machine.execCollectiveSlotTimeout d j c s
  | .cbcastDeadline d j c => Sys2Proof.Machine.execCbcastDeadline d j c s
  | .slabArrival i => Sys2Proof.Machine.execSlabArrival i s
  | .laysetDistribute i => Sys2Proof.Machine.execLaysetDistribute i s
  | .laysetInstall i => Sys2Proof.Machine.execLaysetInstall i s
  | .reshardReady i => Sys2Proof.Machine.execReshardReady i s
  | .reshardReport i => Sys2Proof.Machine.execReshardReport i s
  | .reshardCommit i => Sys2Proof.Machine.execReshardCommit i s
  | .reshardAbort i => Sys2Proof.Machine.execReshardAbort i s
  | .collectivePartialArrival i => Sys2Proof.Machine.execCollectivePartialArrival i s
  | .collectiveResultArrival i => Sys2Proof.Machine.execCollectiveResultArrival i s
  | .grantNarrowing i => Sys2Proof.Machine.execGrantNarrowing i s
  | .narrowingAck i => Sys2Proof.Machine.execNarrowingAck i s
  | .loggedRequestAtHome a b => Sys2Proof.Machine.execLoggedRequestAtHome a b s
  | .remoteAccessAtHome a b => Sys2Proof.Machine.execRemoteAccessAtHome a b s
  | .remoteResponse i p => Sys2Proof.Machine.execRemoteResponse i p s
  | .requestDeadline i => Sys2Proof.Machine.execRequestDeadline i s
  | .seqHomeRetry i => Sys2Proof.Machine.execSeqHomeRetry i s
  | .seqHomeRefuse i => Sys2Proof.Machine.execSeqHomeRefuse i s
  | .revocationReceive i k => Sys2Proof.Machine.execRevocationReceive i k s
  | .revocationAck i k => Sys2Proof.Machine.execRevocationAck i k s
  | .revocationComplete i => Sys2Proof.Machine.execRevocationComplete i s
  | .launchUnitRegister j l => Sys2Proof.Machine.execLaunchUnitRegister j l s
  | .launchStampReread p f x => Sys2Proof.Machine.execLaunchStampReread p f x s
  | .flrDrainDone p f => Sys2Proof.Machine.execFlrDrainDone p f s

/-- Turns that a tile could take. -/
def tileTurns (k : Nat) (t : Tile) : List Move :=
  let heads (n : Nat) (q : List Cmd) : List Move := match q with
    | c :: _ => [Move.commandStart k n c.seq.toNat]
    | [] => []
  (if t.isRunning then [.turn (.ct k)] else [])
  ++ (match t.vs with
    | some v => [.turn (.vs k), Move.commandComplete k v.cmd.pos]
    | none => [])
  ++ (if t.storeQ.isEmpty then [] else [.turn (.store k 0)])
  ++ heads 0 t.vq ++ heads 1 t.mq ++ heads 2 t.cq
  ++ t.started.flatMap (fun c => (if c.kind == CmdKind.mmul then [Move.mmulChunkCommit k] else []) ++ [Move.commandComplete k c.pos]
       ++ (match c.legFault with
         | some f => [Move.lateLegFault k c.pos (BitVec.ofNat 8 f.1) f.2]
         | none => []))
  ++ t.streams.map (fun (w : Nat × Stream) => Move.streamFillEntry k w.1)
  ++ (if t.isIdle then [] else [Move.handlerEntry k, Move.schedMiss k, Move.waitBound k 0, Move.waitBound k 1, Move.waitBound k 2
       , Move.waitBound k 3, Move.waitBound k 4, Move.cancelLimitExpiry k, Move.forcedSave k, Move.cimWakeEnd k 0, Move.cimWakeEnd k 1, Move.cimGateIdle k 0, Move.cimGateIdle k 1])

/-- Turns that a die could take. -/
def dieTurns (d : Nat) (x : Die) : List Move :=
  (if x.queues.isEmpty then [] else [Move.dispatch d, Move.agingSweep d])
  ++ (x.aside.map fun (p : Nat × Parked) => Move.translationComplete d p.1)
  ++ (x.fwParked.map fun (p : Nat × Parked) => Move.eventWaitRepresent d p.1)
  ++ (if x.pending.isEmpty then [] else [Move.pendingSignalApply d])
  ++ (x.jobs.flatMap fun (j : Nat × JobDie) => if j.2.reshard.isSome then
        [Move.reshardPassTime d j.1, Move.reshardPassEnd d j.1, Move.reshardLocalMove d j.1, Move.reshardSlackExpiry d j.1] else [])
  ++ (x.colls.flatMap fun (c : Nat × CollSlot) =>
        [Move.collectiveForward d (c.1 / 65536) (c.1 % 65536), Move.collectiveRootFinish d (c.1 / 65536) (c.1 % 65536)
        , Move.collectiveSlotTimeout d (c.1 / 65536) (c.1 % 65536), Move.cbcastDeadline d (c.1 / 65536) (c.1 % 65536)])

/-- The arrival of a message. -/
def Msg.arrival (id : Nat) (m : Msg) : Move :=
  match m with
  | .slab .. => .slabArrival id
  | .layImage .. | .passImage .. => .laysetDistribute id
  | .layInstall .. | .passInstall .. => .laysetInstall id
  | .ready .. => .reshardReady id
  | .report .. => .reshardReport id
  | .commit .. => .reshardCommit id
  | .abort .. => .reshardAbort id
  | .part .. => .collectivePartialArrival id
  | .result .. => .collectiveResultArrival id
  | .narrow .. => .grantNarrowing id
  | .narrowAck .. => .narrowingAck id

/-- Turns that a request could take. -/
def reqTurns (id : Nat) (r : Request) : List Move :=
  [Move.loggedRequestAtHome r.src r.dst, Move.remoteAccessAtHome r.src r.dst, Move.remoteResponse id false, Move.requestDeadline id
  , Move.seqHomeRetry id, Move.seqHomeRefuse id]

/-- Turns that the machine could take where no schedule is given. -/
def State.candidates (s : State) : List Move :=
  (s.tiles.flatMap fun (t : Nat × Tile) => if s.stopped t.1 then [] else tileTurns t.1 t.2)
  ++ (s.dies.flatMap fun (d : Nat × Die) => if d.1 ∈ s.lost then [] else dieTurns d.1 d.2)
  ++ (s.msgs.map fun (m : Nat × Msg) => m.2.arrival m.1) ++ (s.reqs.flatMap fun (r : Nat × Request) => reqTurns r.1 r.2)
  ++ (s.revs.flatMap fun (r : Nat × Revocation) =>
        (r.2.unsent.map fun k => Move.revocationReceive r.1 k) ++ (r.2.waiting.map fun k => Move.revocationAck r.1 k)
        ++ [Move.revocationComplete r.1])
  ++ (s.jobs.flatMap fun (j : Nat × Job) => j.2.launches.map fun l => Move.launchUnitRegister j.1 l.launch)
  ++ (s.pkgs.flatMap fun (p : Nat × Pkg) => p.2.funcs.flatMap fun (f : Nat × Func) =>
        (f.2.slots.map fun (x : Nat × Slot) => Move.launchStampReread p.1 f.1 x.1) ++ (if f.2.flrb then [Move.flrDrainDone p.1 f.1] else []))

/-- The move that comes where no schedule is given: the candidates in rotation; the control thread of the tile in focus
where there is none. -/
def State.ownMove (s : State) : Move := s.candidates.getD (s.cycles % s.candidates.length) (.turn (.ct s.focus))

/-- A control word follows its PFX at once (R84): no other turn comes between. -/
def State.midWord (s : State) : Bool :=
  s.cur.pfx.isSome && s.cur.isRunning && s.cur.wait.isNone && !s.stopped s.focus

/-- Time passes. -/
def State.elapse (s : State) (cycles ns : Nat) : State := { s with cycles := s.cycles + cycles, ns := s.ns + ns }

/-- Who moves now, and the state in which it moves. -/
def State.takeTurn (s : State) : Move × State :=
  if s.midWord then (.turn (.ct s.focus), s)
  else match s.turns with
    | [] => (s.ownMove, s.elapse 1 1)
    | t :: r => (.turn t.who, { s.elapse t.cycles t.ns with turns := r })

/-! ## Placing a word to be run next -/

/-- The bytes of a word lie at the control thread's pc in the tile in focus, and its turn comes next. -/
def State.placeCt (s : State) (w : Nat) : State :=
  let k := s.focus
  let t := s.tile k
  let pc : Nat := if t.pc.toNat % 4 = 0 ∧ t.pc.toNat < 2 ^ 48 then t.pc.toNat else 0
  let home := mkPlain (tileDie k) 0 0
  let e : Extent := { vbase := pc / 65536 * 65536, plain := home, len := 65536, r := true, w := true, x := true, tagged := false, fallow := false }
  let t := { t with status := .running, pc := w64 pc, pfx := none, clause := 0, wait := none, reports := [], journal := [], cancelAt := none
                    stallUntil := 0, pins := e :: t.pins, fbuf := [] }
  { (s.setTile k t).putBytes (home + pc % 65536) (leBytes 4 w) with turns := [{ who := .ct k }] }

/-- The word is the one body step of a table that runs on the tile in focus, and the table's turn comes next. -/
def State.placeVs (s : State) (w : Nat) : State :=
  let k := s.focus
  let t := s.tile k
  let c : Cmd := { kind := .vrun, seq := 0, atag := t.pc, pos := t.order, clause := t.clause, p1 := BitVec.allOnes 64, fpc := t.fpc }
  let v : VsRun := { cmd := c, body := 0, tagOff := 0, steps := 1, ns := 1, rot := false, bank := false, n := 1 }
  let t := { t with status := .running, pfx := none, vs := some v, steps := Tab.set 0 t.steps 0 (BitVec.ofNat 32 w), tags := Tab.set 0 t.tags 0 0 }
  { s.setTile k t with turns := [{ who := .vs k }] }

end Sys2Proof.Machine
end

