-- ==== Sys2Proof/Machine/Step.lean ====
section
/-! DEFINITION. One step of the machine, and the placing of a word that the next step runs. -/

namespace Sys2Proof.Machine

/-- What follows an instruction's own effect in a turn. -/
def finishTurn (w : Who) (o : Host.Outcome State Fault Refusal) : Host.Outcome State Fault Refusal :=
  match o with
  | .next s => .next (s.afterTurn w)
  | .fault f => .fault f
  | .refused r => .refused r

/-- What a turn of w does in the state u: the instruction that it finds is run. -/
def State.runTurn (u : State) (w : Who) : Host.Outcome State Fault Refusal :=
  match u.turnOf w with
  | none => .fault .badTurn
  | some .idle => .next u
  | some (.done v) => .next (v.afterTurn w)
  | some (.run i v) => finishTurn w (exec i v)

/-- One step: time passes, and the next move comes. -/
def step (s : State) : Host.Outcome State Fault Refusal :=
  match s.takeTurn with
  | (.turn w, u) => u.runTurn w
  | (m, u) => m.act u

/-- The instruction whose table bits are w stored where the next step fetches, and its turn next (log 17). -/
def State.withFetchWord (s : State) (nbits w : Nat) : State :=
  match decodeTableWord nbits w, decodeVs (BitVec.ofNat 32 w) with
  | some i, .ok j => if i = j then s.placeVs w else s.placeCt w
  | _, _ => s.placeCt w

end Sys2Proof.Machine
end

