-- ==== Sys2Proof/Safety.lean ====
section
/-! DEFINITION. What the claims speak of: runs that do not stop, the invariants of the state, and the frames of the
instructions (what each leaves as it was). -/

namespace Sys2Proof.Machine

/-! ## Runs that do not stop -/

/-- A step from s neither faults nor refuses. -/
def State.goesOn (s : State) : Prop := ∃ t, step s = .next t

/-! ## Invariants -/

/-- The two memories are in canonical form: keys strictly rising, no byte listed that reads as an unlisted one. -/
def State.memoryOk (s : State) : Prop := Memory.wf s.mem = true ∧ Memory.wf s.hostMem = true

/-! ## Frames of a control word -/

/-- Only the tile in focus may differ. Every byte of memory reads as before, and so does everything else outside it. -/
def OnlyTile (s t : State) : Prop := t = s.setTile s.focus t.cur ∧ ∀ p, t.byte p = s.byte p

/-- Of a tile, only the CT's registers, its place in the program, its journal and its segment may differ: the vector,
matrix and stream state, the queues, the tokens, the control registers but FPC and CLAUSE, and the unit's own record are
as before. -/
def OnlyCt (a b : Tile) : Prop :=
  b = { a with g := b.g, f := b.f, q := b.q, d := b.d, fpc := b.fpc, pc := b.pc, pfx := b.pfx, clause := b.clause
               order := b.order, wait := b.wait, journal := b.journal, seg := b.seg, stampRef := b.stampRef
               refPending := b.refPending }

/-- The word ended: CLAUSE counted down (R89), no prefix and no wait is left, the program order advanced. -/
def Ended (a b : Tile) : Prop := b.clause = clauseStep a.clause ∧ b.pfx = none ∧ b.wait = none ∧ b.order = a.order + 1

/-- A word of the tile in focus ended at `pc` with no effect beyond the CT's own registers. -/
def CtWord (s t : State) (pc : W64) : Prop :=
  OnlyTile s t ∧ OnlyCt s.cur t.cur ∧ Ended s.cur t.cur ∧ t.cur.pc = pc

/-- Every g register but the one written, and g0, is as before; g0 reads 0 (R6). -/
def GSet (a b : Tile) (d : Nat) (v : W64) : Prop := ∀ n, b.gReg n = if n = d ∧ d ≠ 0 then v else a.gReg n
/-- Every q register but the one written, and q0, is as before; q0 reads 1 (R6). -/
def QSet (a b : Tile) (d : Nat) (v : Bool) : Prop := ∀ n, n < 8 → b.qReg n = if n = d ∧ d ≠ 0 then v else a.qReg n
/-- Every f register but the one written is as before. -/
def FSet (a b : Tile) (d : Nat) (v : FReg) : Prop := ∀ n, b.fReg n = if n = d then v else a.fReg n

def GSame (a b : Tile) : Prop := ∀ n, b.gReg n = a.gReg n
def QSame (a b : Tile) : Prop := b.q = a.q
def FSame (a b : Tile) : Prop := ∀ n, b.fReg n = a.fReg n
def DSame (a b : Tile) : Prop := ∀ n, b.dReg n = a.dReg n

/-- The word wrote v to g[d] and nothing else: the flags, the other registers and memory are as before. -/
def WroteG (s t : State) (d : Nat) (v : W64) : Prop :=
  CtWord s t (s.cur.pc + 4) ∧ GSet s.cur t.cur d v ∧ FSame s.cur t.cur ∧ QSame s.cur t.cur ∧ DSame s.cur t.cur
  ∧ t.cur.fpc = s.cur.fpc

/-- The word wrote v to q[d] and nothing else. -/
def WroteQ (s t : State) (d : Nat) (v : Bool) : Prop :=
  CtWord s t (s.cur.pc + 4) ∧ QSet s.cur t.cur d v ∧ GSame s.cur t.cur ∧ FSame s.cur t.cur ∧ DSame s.cur t.cur
  ∧ t.cur.fpc = s.cur.fpc

/-- The word wrote v to f[d] and nothing else. -/
def WroteF (s t : State) (d : Nat) (v : FReg) : Prop :=
  CtWord s t (s.cur.pc + 4) ∧ FSet s.cur t.cur d v ∧ GSame s.cur t.cur ∧ QSame s.cur t.cur ∧ DSame s.cur t.cur
  ∧ t.cur.fpc = s.cur.fpc

/-- No register was written. -/
def NoRegs (a b : Tile) : Prop := GSame a b ∧ FSame a b ∧ QSame a b ∧ DSame a b ∧ b.fpc = a.fpc

/-- The word went on at `pc` and wrote no register. -/
def WentTo (s t : State) (pc : W64) : Prop := CtWord s t pc ∧ NoRegs s.cur t.cur

/-! ## Objects of a die -/

def Waiter.thr : Waiter → Nat
  | .unit _ n | .launch _ n => n

/-- An event's entry. -/
def State.eventAt (s : State) (d key : Nat) : Event := Tab.get {} (s.die d).events key
/-- A counting barrier. -/
def State.barAt (s : State) (d b : Nat) : Barrier := Tab.get {} (s.die d).bars b
/-- The descriptor that a handle names at its home die. -/
def State.seqAt (s : State) (home : Nat) (h : W64) : Seqn := Tab.get {} (s.die home).seqs (seqIndex h)

end Sys2Proof.Machine
end

