-- ==== Sys2Proof/Certificates/Slice0/Obligations.lean ====
section
/-! DEFINITION. The statements: one `def Obligations.<Name> : Prop` per obligation, after the predicates it is written with.
Each docstring names the rules of spec/ it rests on. -/

open Sys2Proof Sys2Proof.Machine

/-! ## Integer, predicate and branch words -/

/-- The value that an integer word gives g[d] (R285, R286, R297, R306, R334, R336, R405), from the g registers read and
the immediate. -/
def intResult (s : State) : Instr → Option (Nat × W64)
  | .add d a b => some (d.toNat, BitVec.ofNat 64 ((s.g a).toNat + (s.g b).toNat))
  | .sub d a b => some (d.toNat, BitVec.ofInt 64 ((s.g a).toInt - (s.g b).toInt))
  | .mul d a b => some (d.toNat, BitVec.ofNat 64 ((s.g a).toNat * (s.g b).toNat))
  | .mulHi d a b => some (d.toNat, BitVec.ofInt 64 ((s.g a).toInt * (s.g b).toInt / 2 ^ 64))
  | .mulHiN d a b => some (d.toNat, BitVec.ofNat 64 ((s.g a).toNat * (s.g b).toNat / 2 ^ 64))
  | .div d a b => some (d.toNat, if (s.g b).toNat = 0 then BitVec.allOnes 64 else BitVec.ofInt 64 ((s.g a).toInt.tdiv (s.g b).toInt))
  | .divN d a b => some (d.toNat, if (s.g b).toNat = 0 then BitVec.allOnes 64 else BitVec.ofNat 64 ((s.g a).toNat / (s.g b).toNat))
  | .rem d a b => some (d.toNat, if (s.g b).toNat = 0 then s.g a else BitVec.ofInt 64 ((s.g a).toInt.tmod (s.g b).toInt))
  | .remN d a b => some (d.toNat, if (s.g b).toNat = 0 then s.g a else BitVec.ofNat 64 ((s.g a).toNat % (s.g b).toNat))
  | .and d a b => some (d.toNat, s.g a &&& s.g b)
  | .or d a b => some (d.toNat, s.g a ||| s.g b)
  | .xor d a b => some (d.toNat, s.g a ^^^ s.g b)
  | .shl d a b => some (d.toNat, BitVec.ofNat 64 ((s.g a).toNat * 2 ^ ((s.g b).toNat % 64)))
  | .shr d a b => some (d.toNat, BitVec.ofNat 64 ((s.g a).toNat / 2 ^ ((s.g b).toNat % 64)))
  | .sra d a b => some (d.toNat, BitVec.ofInt 64 ((s.g a).toInt / 2 ^ ((s.g b).toNat % 64)))
  | .min d a b => some (d.toNat, BitVec.ofInt 64 (Min.min (s.g a).toInt (s.g b).toInt))
  | .minN d a b => some (d.toNat, BitVec.ofNat 64 (Min.min (s.g a).toNat (s.g b).toNat))
  | .max d a b => some (d.toNat, BitVec.ofInt 64 (Max.max (s.g a).toInt (s.g b).toInt))
  | .maxN d a b => some (d.toNat, BitVec.ofNat 64 (Max.max (s.g a).toNat (s.g b).toNat))
  | .slt d a b => some (d.toNat, if (s.g a).toInt < (s.g b).toInt then 1 else 0)
  | .sltN d a b => some (d.toNat, if (s.g a).toNat < (s.g b).toNat then 1 else 0)
  | .clz d a => some (d.toNat, BitVec.ofNat 64 (clz64 (s.g a)))
  | .popc d a => some (d.toNat, BitVec.ofNat 64 ((List.range 64).countP fun i => (s.g a).getLsbD i))
  | .sextB d a => some (d.toNat, BitVec.ofInt 64 (sextN (s.g a).toNat 8))
  | .sextH d a => some (d.toNat, BitVec.ofInt 64 (sextN (s.g a).toNat 16))
  | .sextW d a => some (d.toNat, BitVec.ofInt 64 (sextN (s.g a).toNat 32))
  | .addSat d a b => some (d.toNat, BitVec.ofInt 64 (Max.max (-2 ^ 63) (Min.min (2 ^ 63 - 1) ((s.g a).toInt + (s.g b).toInt))))
  | .subSat d a b => some (d.toNat, BitVec.ofInt 64 (Max.max (-2 ^ 63) (Min.min (2 ^ 63 - 1) ((s.g a).toInt - (s.g b).toInt))))
  | .addImm d a i => some (d.toNat, s.g a + s.cur.imm i)
  | .lih d i => some (d.toNat, s.cur.imm i * 8192)
  | _ => none

/-- R285, R286, R297, R306, R334, R336, R405, R6: every integer word ends with its result in g[d] (g0 discards it), PC at
the next word, and no other register, flag or byte of memory changed. -/
def integerResults : Prop :=
  ∀ (i : Instr) (s : State) (d : Nat) (v : W64), intResult s i = some (d, v) →
    ∃ t, exec i s = .next t ∧ WroteG s t d v

/-- R297: the count of zero bits above the most significant one bit, 64 for zero. -/
def leadingZeros : Prop :=
  ∀ v : W64, clz64 v ≤ 64 ∧ (∀ i, i < 64 → 64 - clz64 v ≤ i → v.getLsbD i = false)
    ∧ (v ≠ 0 → clz64 v < 64 ∧ v.getLsbD (63 - clz64 v) = true)

/-- R286, R297, R306, R334, R405: the words of AND, CLZ, DIV, DIV.n, LIH and XOR; CLZ has a zero b. -/
def integerEncodings : Prop :=
  (∀ (d : BitVec 6) (i : BitVec 19), decodeCt (0x03#7 ++ d ++ i) = .ok (.lih d i))
  ∧ ∀ d a b : BitVec 6,
    let word (fn : BitVec 7) : W32 := 0x01#7 ++ d ++ a ++ b ++ fn
    decodeCt (word 0x09) = .ok (.and d a b) ∧ decodeCt (word 0x0B) = .ok (.xor d a b)
    ∧ decodeCt (word 0x05) = .ok (.div d a b) ∧ decodeCt (word 0x06) = .ok (.divN d a b)
    ∧ (if b = 0 then decodeCt (word 0x15) = .ok (.clz d a) else decodeCt (word 0x15) = .error .unassigned)

/-- R285, R286, R297, R306, R334, R336, R405, R6: the results of the integer words, what the count of leading zeros is, and
some of the words. -/
def Obligations.IntegerWords : Prop := integerResults ∧ leadingZeros ∧ integerEncodings


/-- The value that a predicate word gives q[d] (R348, R350). -/
def predResult (s : State) : Instr → Option (Nat × Bool)
  | .pset c q a b => some (q.toNat, condHolds c (s.g a) (s.g b))
  | .plogAnd d a b => some (d.toNat, s.cur.qReg a.toNat && s.cur.qReg b.toNat)
  | .plogOr d a b => some (d.toNat, s.cur.qReg a.toNat || s.cur.qReg b.toNat)
  | .plogXor d a b => some (d.toNat, s.cur.qReg a.toNat ^^ s.cur.qReg b.toNat)
  | .plogAndn d a b => some (d.toNat, s.cur.qReg a.toNat && !s.cur.qReg b.toNat)
  | .plogNot d a => some (d.toNat, !s.cur.qReg a.toNat)
  | _ => none

/-- R348, R350, R6: PSET and PLOG write q[d] (q0 discards the write) and nothing else. -/
def predicateResults : Prop :=
  ∀ (i : Instr) (s : State) (d : Nat) (v : Bool), predResult s i = some (d, v) →
    ∃ t, exec i s = .next t ∧ WroteQ s t d v

/-- R348, R350: the words of PLOG and PSET; every other fn of PLOG, a q field past 7, a b that PLOG.not does not have, and
a condition 11x of PSET are ILLEGAL_OP. -/
def predicateEncodings : Prop :=
  (∀ d a b : BitVec 3,
    let word (fn : BitVec 7) : W32 := 0x05#7 ++ 0#3 ++ d ++ 0#3 ++ a ++ 0#3 ++ b ++ fn
    decodeCt (word 0) = .ok (.plogAnd d a b) ∧ decodeCt (word 1) = .ok (.plogOr d a b) ∧ decodeCt (word 2) = .ok (.plogXor d a b)
    ∧ decodeCt (word 3) = .ok (.plogAndn d a b) ∧ (b = 0 → decodeCt (word 4) = .ok (.plogNot d a)))
  ∧ (∀ (d a b : BitVec 6) (fn : BitVec 7),
    (4 < fn.toNat ∨ 7 < d.toNat ∨ 7 < a.toNat ∨ 7 < b.toNat ∨ (fn = 4 ∧ b ≠ 0)) → ∃ e, decodeCt (0x05#7 ++ d ++ a ++ b ++ fn) = .error e)
  ∧ (∀ (c q : BitVec 3) (a b : BitVec 6),
    if c.toNat < 6 then decodeCt (0x04#7 ++ c ++ q ++ a ++ b ++ 0#7) = .ok (.pset c q a b)
    else ∃ e, decodeCt (0x04#7 ++ c ++ q ++ a ++ b ++ 0#7) = .error e)

/-- R348, R350, R6: what PSET and PLOG do, and their words. -/
def Obligations.PredicateWords : Prop := predicateResults ∧ predicateEncodings

/-- Where a branch word goes on (R83, R290 to R292): to the word's address plus 4 times its offset where taken. -/
def branchTarget (s : State) : Instr → Option W64
  | .br c a b o => some (if condHolds c (s.g a) (s.g b) then s.cur.pc + 4 * s.cur.imm o else s.cur.pc + 4)
  | .bq n q o => some (if (s.cur.qReg q.toNat ^^ decide (n = 1)) then s.cur.pc + 4 * s.cur.imm o else s.cur.pc + 4)
  | .bsig a n o => some (if (s.cur.fReg a.toNat).cnt.toNat < n.toNat then s.cur.pc + 4 * s.cur.imm o else s.cur.pc + 4)
  | _ => none

/-- R290, R291, R292: BR, BQ and BSIG change only the PC, taken or not. -/
def branchTargets : Prop :=
  ∀ (i : Instr) (s : State) (pc : W64), branchTarget s i = some pc → ∃ t, exec i s = .next t ∧ WentTo s t pc

/-- R291: what the six conditions of BR and PSET compare. -/
def branchConditions : Prop :=
  ∀ a b : W64, condHolds 0 a b = decide (a.toNat = b.toNat) ∧ condHolds 1 a b = decide (a.toNat ≠ b.toNat)
    ∧ condHolds 2 a b = decide (a.toInt < b.toInt) ∧ condHolds 3 a b = decide (b.toInt ≤ a.toInt)
    ∧ condHolds 4 a b = decide (a.toNat < b.toNat) ∧ condHolds 5 a b = decide (b.toNat ≤ a.toNat)

/-- R291: the word of BR; a condition 11x is ILLEGAL_OP. -/
def branchEncodings : Prop :=
  ∀ (c : BitVec 3) (a b : BitVec 6) (o : BitVec 10),
    if c.toNat < 6 then decodeCt (0x18#7 ++ c ++ a ++ b ++ o) = .ok (.br c a b o) else ∃ e, decodeCt (0x18#7 ++ c ++ a ++ b ++ o) = .error e

/-- R290 to R292: where the branches go, what their conditions compare, and the word of BR. -/
def Obligations.BranchWords : Prop := branchTargets ∧ branchConditions ∧ branchEncodings


/-- R325, R326, R335: JAL and JALR give g[d] the address of the next word and go to their target (a JALR target that is
no multiple of 4 faults ALIGN and writes nothing); LOOP counts g[a] down and branches while it is not zero. -/
def jumpResults : Prop :=
  ∀ s : State,
    (∀ d i, ∃ t, exec (.jal d i) s = .next t ∧ CtWord s t (s.cur.pc + 4 * s.cur.imm i) ∧ GSet s.cur t.cur d.toNat (s.cur.pc + 4)
      ∧ FSame s.cur t.cur ∧ QSame s.cur t.cur ∧ DSame s.cur t.cur ∧ t.cur.fpc = s.cur.fpc)
    ∧ (∀ d a i, (s.g a + s.cur.imm i).toNat % 4 = 0 → ∃ t, exec (.jalr d a i) s = .next t
      ∧ CtWord s t (s.g a + s.cur.imm i) ∧ GSet s.cur t.cur d.toNat (s.cur.pc + 4)
      ∧ FSame s.cur t.cur ∧ QSame s.cur t.cur ∧ DSame s.cur t.cur ∧ t.cur.fpc = s.cur.fpc)
    ∧ (∀ d a i, (s.g a + s.cur.imm i).toNat % 4 ≠ 0 →
      exec (.jalr d a i) s = .next (s.fault s.focus Cls.align (s.g a + s.cur.imm i)))
    ∧ (∀ a o, ∃ t, exec (.loop a o) s = .next t
      ∧ CtWord s t (if s.g a = 0 ∨ s.g a = 1 then s.cur.pc + 4 else s.cur.pc + 4 * s.cur.imm o)
      ∧ GSet s.cur t.cur a.toNat (if s.g a = 0 then 0 else s.g a - 1)
      ∧ FSame s.cur t.cur ∧ QSame s.cur t.cur ∧ DSame s.cur t.cur ∧ t.cur.fpc = s.cur.fpc)

/-- R325, R326, R335: the words of JAL, JALR and LOOP, whose cond and b are zero. -/
def jumpEncodings : Prop :=
  (∀ (d : BitVec 6) (i : BitVec 19), decodeCt (0x1A#7 ++ d ++ i) = .ok (.jal d i))
  ∧ (∀ (d a : BitVec 6) (i : BitVec 13), decodeCt (0x1B#7 ++ d ++ a ++ i) = .ok (.jalr d a i))
  ∧ (∀ (c : BitVec 3) (a b : BitVec 6) (o : BitVec 10),
    if c = 0 ∧ b = 0 then decodeCt (0x1C#7 ++ c ++ a ++ b ++ o) = .ok (.loop a o) else ∃ e, decodeCt (0x1C#7 ++ c ++ a ++ b ++ o) = .error e)

/-- R325, R326, R335: what the jumps and LOOP do, and their words. -/
def Obligations.JumpWords : Prop := jumpResults ∧ jumpEncodings

/-! ## Scalar floating point -/

/-- The rounded result of a floating-point word (R314, R318, R319): its f register and the result with its flags. -/
def floatResult (s : State) : Instr → Option (Nat × FRes)
  | .fadd d a b => some (d.toNat, fpAdd .f32 s.rm (s.f a).fv (s.f a).c (s.f b).fv (s.f b).c)
  | .fsub d a b => some (d.toNat, fpAdd .f32 s.rm (s.f a).fv (s.f a).c (s.f b).fv.neg (s.f b).c)
  | .fmul d a b => some (d.toNat, fpMul .f32 s.rm (s.f a).fv (s.f a).c (s.f b).fv (s.f b).c)
  | .fdiv d a b => some (d.toNat, fpDiv .f32 s.rm (s.f a).fv (s.f a).c (s.f b).fv (s.f b).c)
  | .fsqrt d a => some (d.toNat, fpSqrt .f32 s.rm (s.f a).fv (s.f a).c)
  | .fmax d a b => some (d.toNat, fpMinMax .f32 true (s.f a).val.toNat (s.f a).c (s.f b).val.toNat (s.f b).c)
  | .fmin d a b => some (d.toNat, fpMinMax .f32 false (s.f a).val.toNat (s.f a).c (s.f b).val.toNat (s.f b).c)
  | .ffma d a b c => some (d.toNat, fpFma .f32 s.rm (s.f a).fv (s.f a).c (s.f b).fv (s.f b).c (s.f c).fv (s.f c).c)
  | .fcvt d a k r =>
    let rm := if r = 0 then s.rm else rmOf (r.toNat - 1)
    let x := s.cur.fReg a.toNat
    match k.toNat with
    | 0 => some (d.toNat, fpFromInt .f32 rm (s.g a).toInt)
    | 1 => some (d.toNat, fpFromInt .f32 rm (s.g a).toNat)
    | 6 => some (d.toNat, narrowHeld .f16 rm x.val.toNat x.c)
    | 7 => some (d.toNat, narrowHeld .bf16 rm x.val.toNat x.c)
    | 8 => some (d.toNat, widenHeld .f16 ((s.g a).toNat % 65536))
    | 9 => some (d.toNat, widenHeld .bf16 ((s.g a).toNat % 65536))
    | _ => none
  | _ => none

/-- FPC takes the flags at once, or, where the CT runs ahead of its engines, at the word's commit from the journal (R79). -/
def FlagsJoin (s t : State) (fl : Nat) : Prop :=
  if s.cur.ahead then t.cur.fpc = s.cur.fpc ∧ ∃ e ∈ t.cur.journal, e.pos = s.cur.order ∧ e.flags = fl
  else t.cur.fpc = s.cur.fpc ||| BitVec.ofNat 64 fl

/-- R314, R315, R318, R319, R126, R134: a floating-point word whose flags raise no trap writes its rounded result and its
count to f[d], ORs its flags into FPC, and changes no other register and no memory. -/
def floatResults : Prop :=
  ∀ (i : Instr) (s : State) (d : Nat) (r : FRes), floatResult s i = some (d, r) →
    flagTrap s.cur.fpc (r.allFlags s.cur.fpc) = none →
    ∃ t, exec i s = .next t ∧ CtWord s t (s.cur.pc + 4)
      ∧ FSet s.cur t.cur d { val := BitVec.ofNat 32 r.bits, cnt := BitVec.ofNat 5 r.cnt }
      ∧ GSame s.cur t.cur ∧ QSame s.cur t.cur ∧ DSame s.cur t.cur ∧ FlagsJoin s t (r.allFlags s.cur.fpc)

/-- R126, R134: a floating-point word whose flags raise a trap sets the flags, writes no result, and takes the fault
(FP_TRAP where an enabled IEEE flag is among them, else SIGLOSS) at the word. -/
def floatTraps : Prop :=
  ∀ (i : Instr) (s : State) (d : Nat) (r : FRes) (cls : Nat), floatResult s i = some (d, r) →
    flagTrap s.cur.fpc (r.allFlags s.cur.fpc) = some cls →
    (cls = if (r.allFlags s.cur.fpc % 32) &&& fld s.cur.fpc 8 5 ≠ 0 then Cls.fpTrap else Cls.sigloss)
    ∧ exec i s = .next ((s.modTile s.focus fun t =>
        { t with fpc := t.fpc ||| BitVec.ofNat 64 (r.allFlags s.cur.fpc) }).fault s.focus cls)

/-- R314, R315, R318, R319, R126, R134: a floating-point word without and with a trap. (Rests also on logs 22, 25,
the model's own readings.) -/
def Obligations.FloatWords : Prop := floatResults ∧ floatTraps


/-- A sign put on the magnitude of an f32. -/
def withSign (sign : BitVec 1) (v : W32) : W32 := (sign ++ v.setWidth 31 : BitVec 32)

/-- The copies of bits and counts (R314, R321, R131). -/
def moveResult (s : State) : Instr → Option (Nat × FReg)
  | .fsgn d a b => some (d.toNat, { val := withSign ((s.f b).val.extractLsb' 31 1) (s.f a).val, cnt := (s.f a).cnt })
  | .fsgnN d a b => some (d.toNat, { val := withSign (~~~(s.f b).val.extractLsb' 31 1) (s.f a).val, cnt := (s.f a).cnt })
  | .fsgnX d a b =>
    some (d.toNat, { val := withSign ((s.f a).val.extractLsb' 31 1 ^^^ (s.f b).val.extractLsb' 31 1) (s.f a).val, cnt := (s.f a).cnt })
  | .fmov d a => some (d.toNat, s.f a)
  | .fsigSet d a => some (d.toNat, { val := (s.f d).val, cnt := storeCount (s.f d).val ((s.g a).toNat % 32) })
  | .fsigImm d i => if s.cur.pfx.getD 0 = 0 then some (d.toNat, { val := (s.f d).val, cnt := storeCount (s.f d).val i.toNat }) else none
  | _ => none

/-- R314, R315, R321, R134: FSGN, FMOV and the sets of FSIG copy bits and counts, and set no flag. -/
def floatMoves : Prop :=
  ∀ (i : Instr) (s : State) (d : Nat) (v : FReg), moveResult s i = some (d, v) → ∃ t, exec i s = .next t ∧ WroteF s t d v

/-- R131: a count written to an infinity or a NaN is stored as 0; one of 25 to 30 written to a finite value as 24; any
other as it is. -/
def countWrites : Prop :=
  ∀ (v : W32) (c : Nat), c < 32 →
    storeCount v c = if fld v 23 8 = 255 then 0 else if 25 ≤ c ∧ c ≤ 30 then 24 else BitVec.ofNat 5 c

/-- R314, R315, R321, R131: the moves of bits and counts, and which count a write stores. -/
def Obligations.FloatMoves : Prop := floatMoves ∧ countWrites


/-- R316: the bit of an f32's class. -/
def classBit (v : W32) : Nat :=
  let neg := v.getLsbD 31
  if fld v 23 8 = 255 then (if fld v 0 23 = 0 then (if neg then 0 else 7) else if v.getLsbD 22 then 9 else 8)
  else if fld v 23 8 = 0 then (if fld v 0 23 = 0 then (if neg then 3 else 4) else if neg then 2 else 5)
  else if neg then 1 else 6

/-- The conversions that write g[d], by kind: the value and its flags (R318, R128). -/
def convResult (s : State) (a : BitVec 6) (r : BitVec 3) (kind : Nat) : Option (W64 × Nat) :=
  let x := s.cur.fReg a.toNat
  let rm := if r = 0 then s.rm else rmOf (r.toNat - 1)
  let int (lo hi : Int) : Option (W64 × Nat) := some (BitVec.ofInt 64 (fpToInt rm x.fv lo hi).1, (fpToInt rm x.fv lo hi).2)
  match kind with
  | 2 => int (-(2 ^ 63)) (2 ^ 63 - 1)
  | 3 => int 0 (2 ^ 64 - 1)
  | 4 => int (-(2 ^ 31)) (2 ^ 31 - 1)
  | 5 => int 0 (2 ^ 32 - 1)
  | 10 => some (BitVec.ofNat 64 (narrow .f16 rm x.val.toNat x.c).bits, (narrow .f16 rm x.val.toNat x.c).flags)
  | 11 => some (BitVec.ofNat 64 (narrow .bf16 rm x.val.toNat x.c).bits, (narrow .bf16 rm x.val.toNat x.c).flags)
  | _ => none

/-- The flags of a word are set, it writes nothing, and the trap that they raise is taken at the word (R126). -/
def FlagTraps (s : State) (i : Instr) (fl cls : Nat) : Prop :=
  (cls = if (fl % 32) &&& fld s.cur.fpc 8 5 ≠ 0 then Cls.fpTrap else Cls.sigloss)
  ∧ exec i s = .next ((s.modTile s.focus fun t => { t with fpc := t.fpc ||| BitVec.ofNat 64 fl }).fault s.focus cls)

/-- R128, R316, R321, R317, R318: FCLASS writes a class of one bit, with bit 10 for EXACT; FSIG reads the count; FCMP writes q[d]
and every FCVT to a g register g[d], each with its flags, where they raise no trap; where they do, it writes nothing and takes the
trap; a conversion to an integer gives a value of its range. -/
def Obligations.FloatReads : Prop :=
  ∀ s : State,
    (∀ d a, ∃ t, exec (.fclass d a) s = .next t
      ∧ WroteG s t d.toNat (BitVec.ofNat 64 (2 ^ classBit (s.f a).val + if (s.f a).cnt = 31 then 1024 else 0)))
    ∧ (∀ d a, ∃ t, exec (.fsigRead d a) s = .next t ∧ WroteG s t d.toNat ((s.f a).cnt.setWidth 64))
    ∧ (∀ c q a b, flagTrap s.cur.fpc (fpCmp c.toNat (s.f a).fv (s.f b).fv).2 = none →
      ∃ t, exec (.fcmp c q a b) s = .next t ∧ CtWord s t (s.cur.pc + 4)
        ∧ QSet s.cur t.cur q.toNat (fpCmp c.toNat (s.f a).fv (s.f b).fv).1
        ∧ GSame s.cur t.cur ∧ FSame s.cur t.cur ∧ DSame s.cur t.cur ∧ FlagsJoin s t (fpCmp c.toNat (s.f a).fv (s.f b).fv).2)
    ∧ (∀ c q a b cls, flagTrap s.cur.fpc (fpCmp c.toNat (s.f a).fv (s.f b).fv).2 = some cls →
      FlagTraps s (.fcmp c q a b) (fpCmp c.toNat (s.f a).fv (s.f b).fv).2 cls)
    ∧ (∀ (d a : BitVec 6) (k : BitVec 4) (r : BitVec 3) (v : W64) (fl : Nat), convResult s a r k.toNat = some (v, fl) →
      (flagTrap s.cur.fpc fl = none →
        ∃ t, exec (.fcvt d a k r) s = .next t ∧ CtWord s t (s.cur.pc + 4) ∧ GSet s.cur t.cur d.toNat v
          ∧ FSame s.cur t.cur ∧ QSame s.cur t.cur ∧ DSame s.cur t.cur ∧ FlagsJoin s t fl)
      ∧ ∀ cls, flagTrap s.cur.fpc fl = some cls → FlagTraps s (.fcvt d a k r) fl cls)
    ∧ ∀ (rm : RM) (v : FV) (lo hi : Int), lo ≤ 0 → 0 ≤ hi → lo ≤ (fpToInt rm v lo hi).1 ∧ (fpToInt rm v lo hi).1 ≤ hi

/-- R117, R124: rounding a value that f32 holds gives its own bits, raises nothing and loses nothing, in every mode. -/
def roundingExact : Prop :=
  ∀ (v : W32) (sg : Bool) (m : Nat) (e : Int) (rm : RM), unpack .f32 v.toNat = .fin sg m e → m ≠ 0 →
    roundQ .f32 rm sg m 1 e = { bits := v.toNat, flags := 0, rounded := false }

/-- R125: what an addition does with infinities and NaNs: a NaN operand gives the canonical NaN, invalid where it is
signalling; infinities of opposite signs give it with invalid; any other sum with an infinity is that infinity. -/
def sumOfSpecials : Prop :=
  ∀ (rm : RM) (a b : FV) (ca cb : Nat),
    (a.isNan ∨ b.isNan → (fpAdd .f32 rm a ca b cb).bits = 0x7FC00000 ∧ (fpAdd .f32 rm a ca b cb).cnt = 0
      ∧ ((fpAdd .f32 rm a ca b cb).flags = if a.sNan ∨ b.sNan then Flg.invalid else 0))
    ∧ (∀ sg, (fpAdd .f32 rm (.inf sg) ca (.inf (!sg)) cb).bits = 0x7FC00000
      ∧ (fpAdd .f32 rm (.inf sg) ca (.inf (!sg)) cb).flags = Flg.invalid)
    ∧ (∀ sg, (a = .inf sg ∧ b ≠ .inf (!sg) ∨ b = .inf sg ∧ a ≠ .inf (!sg)) → !a.isNan ∧ !b.isNan →
      (fpAdd .f32 rm a ca b cb).bits = Fmt.f32.inf sg ∧ (fpAdd .f32 rm a ca b cb).cnt = 0 ∧ (fpAdd .f32 rm a ca b cb).flags = 0)

/-- R117, R124, R125: rounding of exact values, and sums with infinities and NaNs. -/
def Obligations.FloatArithmetic : Prop := roundingExact ∧ sumOfSpecials

/-! ## Loads, stores, fences -/

/-- What an access of the CT meets at a device: an access below 4 bytes is misaligned there, one with a tag has no place
there (R176, R333). -/
def atDevice (len : Nat) (tagged : Bool) : Tier11 := if tagged then .refused else if len < 4 then .misaligned else .performed

/-- The bytes of a checked access lie in memory of the tile's own die from q on, and can be read, and no earlier store has
to leave its queue first (R181). -/
def ReadHere (s : State) (ea : W64) (len : Nat) (slots tagged : Bool) (dev : Tier11) (q : Nat) : Prop :=
  ∃ a, s.check s.focus ea len .r slots tagged dev = .ok a ∧ a.fallow = false ∧ plainDie a.plain = tileDie s.focus
    ∧ s.place (tileDie s.focus) a.plain len = .mem q ∧ s.badSector q len = none ∧ s.cur.marked a.plain = false

/-- What a load of the CT sees there: its own pending stores over memory (R180). -/
def seen (s : State) (ea : W64) (q len : Nat) : Nat := leNat (s.cur.forward ea (s.bytes q len))

/-- R332, R333, R180: a naturally aligned load of 1, 2, 4 or 8 bytes whose bytes lie on the tile's own die writes their
value, sign- or zero-extended, to g[d], and changes nothing else. -/
def integerLoads : Prop :=
  ∀ (s : State) (d b : BitVec 6) (sc : BitVec 3) (o z : BitVec 2) (g : BitVec 1) (i : BitVec 5) (q : Nat),
    let size := 2 ^ z.toNat
    let ea := s.g b + s.cur.imm i * BitVec.ofNat 64 size
    ea.toNat % size = 0 → ReadHere s ea size true false (atDevice size false) q →
    ∃ t, exec (.ld d b sc o z g i) s = .next t
      ∧ WroteG s t d.toNat (if g = 1 then BitVec.ofInt 64 (sextN (seen s ea q size) (8 * size)) else BitVec.ofNat 64 (seen s ea q size))

/-- R320, R131, R136, R137: FLD writes the 32 bits to f[d] with count 24, or 0 for an infinity or a NaN; FLD.t reads the
bits in one turn and the tag byte at TAGBASE + (va >> 2) in a later one, from whose bits [4:0] it takes the count. -/
def floatLoads : Prop :=
  ∀ (s : State) (d : BitVec 5) (a : BitVec 6) (i : BitVec 13),
    let ea := s.g a + s.cur.imm i
    let ta := s.tagAddr s.focus ea
    ea.toNat % 4 = 0 →
    (∀ q, ReadHere s ea 4 true false (atDevice 4 false) q → ∃ t, exec (.fld d a i) s = .next t
      ∧ WroteF s t d.toNat { val := BitVec.ofNat 32 (seen s ea q 4), cnt := storeCount (BitVec.ofNat 32 (seen s ea q 4)) 24 })
    ∧ (∀ q r, ReadHere s ea 4 false true (atDevice 4 true) q → ReadHere s ta 1 false false (atDevice 4 true) r →
      (s.cur.tagValue = none → ∃ t, exec (.fldT d a i) s = .next t ∧ OnlyTile s t ∧ NoRegs s.cur t.cur
        ∧ t.cur.pc = s.cur.instrPc ∧ t.cur.tagValue = some (BitVec.ofNat 32 (seen s ea q 4)))
      ∧ (∀ v, s.cur.tagValue = some v → ∃ t, exec (.fldT d a i) s = .next t
        ∧ WroteF s t d.toNat { val := v, cnt := storeCount v (seen s ta r 1 % 32) }))

/-- R320, R332, R333, R180, R131, R136, R137: the loads. -/
def Obligations.LoadWords : Prop := integerLoads ∧ floatLoads


/-- The tile's store queue and its journal may differ too. -/
def OnlyStores (a b : Tile) : Prop := OnlyCt { a with storeQ := b.storeQ } b

/-- A word of the CT ended with pending stores added, its registers and memory as before. -/
def Stored (s t : State) (es : List (W64 × List Byte)) : Prop :=
  OnlyTile s t ∧ OnlyStores s.cur t.cur ∧ Ended s.cur t.cur ∧ t.cur.pc = s.cur.pc + 4 ∧ NoRegs s.cur t.cur
  ∧ t.cur.pendingStores = s.cur.pendingStores ++ es

/-- The CT waits at its word, with every register and byte as it was. -/
def Waits (s t : State) : Prop :=
  OnlyTile s t ∧ (∃ w, t.cur.wait = some w) ∧ t.cur.pc = s.cur.pc ∧ NoRegs s.cur t.cur

/-- Room for n stores in the journal where the CT runs ahead, else in the store queue; and, for a release that does not
run ahead, no earlier store or report is outstanding (R59, R179, R183). -/
def StoreRoom (s : State) (n : Nat) (rel : Bool) : Prop :=
  if s.cur.ahead then s.cur.journal.length + n ≤ 128
  else s.cur.storeQ.length + n ≤ 32
    ∧ (rel = true → s.cur.storeQ = [] ∧ s.cur.posted = [] ∧ s.cur.reports = [])

/-- R357, R320, R59, R179: a store whose checks pass joins the CT's pending stores, in the journal or the store queue,
with its bytes at the address the word computes; memory itself changes when the store queue performs it. -/
def storesIssued : Prop :=
  ∀ s : State,
    (∀ (d b : BitVec 6) (sc : BitVec 3) (o z : BitVec 2) (i : BitVec 5) (a : Acc),
      let size := 2 ^ z.toNat
      let ea := s.g b + s.cur.imm i * BitVec.ofNat 64 size
      ea.toNat % size = 0 → s.storeCheck ea size true false (atDevice size false) = .ok a → a.fallow = false →
      ((plainTier a.plain ≠ 3 ∨ s.cur.ahead = false) → StoreRoom s 1 (o = 2) →
        ∃ t, exec (.st d b sc o z i) s = .next t ∧ Stored s t [(ea, leBytes size (s.g d).toNat)])
      ∧ (plainTier a.plain = 3 → s.cur.ahead = true → s.cur.pfx = none → ∃ t, exec (.st d b sc o z i) s = .next t ∧ Waits s t))
    ∧ (∀ (d : BitVec 5) (b : BitVec 6) (i : BitVec 13) (a : Acc),
      let ea := s.g b + s.cur.imm i
      ea.toNat % 4 = 0 → s.storeCheck ea 4 true false (atDevice 4 false) = .ok a → a.fallow = false → (plainTier a.plain ≠ 3 ∨ s.cur.ahead = false) →
      StoreRoom s 1 false →
      ∃ t, exec (.fst d b i) s = .next t ∧ Stored s t [(ea, leBytes 4 (s.f d).val.toNat)])
    ∧ (∀ (d : BitVec 5) (b : BitVec 6) (i : BitVec 13) (a x : Acc),
      let ea := s.g b + s.cur.imm i
      let ta := s.tagAddr s.focus ea
      ea.toNat % 4 = 0 → s.storeCheck ea 4 false true (atDevice 4 true) = .ok a → s.storeCheck ta 1 false false (atDevice 4 true) = .ok x →
      a.fallow = false → x.fallow = false → plainTier a.plain ≠ 3 → plainTier x.plain ≠ 3 → StoreRoom s 2 false →
      ∃ t, exec (.fstT d b i) s = .next t
        ∧ Stored s t [(ea, leBytes 4 (s.f d).val.toNat), (ta, leBytes 1 (s.f d).cnt.toNat)])

/-- R177, R179, R180: the store queue performs a store whose home is on the tile's die: its bytes are then in memory at
the address it was checked to, and every other byte is as before. -/
def storesPerformed : Prop :=
  ∀ (s : State) (k n q : Nat) (e : SEntry), (s.tile k).storeReady n = some e → e.amo = none →
    (s.tile k).status = .running → (s.tile k).journal = [] → (s.tile k).reports = [] →
    plainDie e.plain = tileDie k → tileDie k ∉ (s.die (tileDie k)).unreachable →
    s.place (tileDie k) e.plain e.bytes.length = .mem q → s.foreign (s.fidOf k) q = false → s.badSector q e.bytes.length = none →
    (∀ p, (s.performStore k n).byte p = if q ≤ p ∧ p < q + e.bytes.length then e.bytes.getD (p - q) 0 else s.byte p)
    ∧ ((s.performStore k n).tile k).storeQ = (s.tile k).storeQ.eraseIdx n

/-- R174, R176, R178: a store to the registers of the tile's own die leaves the queue with no byte of memory changed: the spec gives
those registers no contents. (The model's own reading: log 62.) -/
def deviceStores : Prop :=
  ∀ (s : State) (k n : Nat) (e : SEntry), (s.tile k).storeReady n = some e → e.amo = none →
    (s.tile k).status = .running → (s.tile k).journal = [] → (s.tile k).reports = [] →
    plainDie e.plain = tileDie k → tileDie k ∉ (s.die (tileDie k)).unreachable →
    s.place (tileDie k) e.plain e.bytes.length = .mmio →
    (s.performStore k n).mem = s.mem ∧ ((s.performStore k n).tile k).storeQ = (s.tile k).storeQ.eraseIdx n
      ∧ ((s.performStore k n).tile k).reports = []

/-- R176: a CT access that is not naturally aligned faults ALIGN at its address, before anything else is checked. -/
def misaligned : Prop :=
  ∀ s : State,
    (∀ (d b : BitVec 6) (sc : BitVec 3) (o z : BitVec 2) (g : BitVec 1) (i : BitVec 5),
      let ea := s.g b + s.cur.imm i * BitVec.ofNat 64 (2 ^ z.toNat)
      ea.toNat % 2 ^ z.toNat ≠ 0 → exec (.ld d b sc o z g i) s = .next (s.fault s.focus Cls.align ea)
        ∧ exec (.st d b sc o z i) s = .next (s.fault s.focus Cls.align ea))
    ∧ (∀ (d : BitVec 5) (b : BitVec 6) (i : BitVec 13),
      let ea := s.g b + s.cur.imm i
      ea.toNat % 4 ≠ 0 → exec (.fld d b i) s = .next (s.fault s.focus Cls.align ea)
        ∧ exec (.fst d b i) s = .next (s.fault s.focus Cls.align ea) ∧ exec (.fldT d b i) s = .next (s.fault s.focus Cls.align ea)
        ∧ exec (.fstT d b i) s = .next (s.fault s.focus Cls.align ea))

/-- R176, R177, R179, R180, R320, R357, R59: the stores, at the word and when the store queue performs them, and misaligned
accesses. (Rests also on log 62, the model's own reading.) -/
def Obligations.StoreWords : Prop := storesIssued ∧ storesPerformed ∧ deviceStores ∧ misaligned

/-- The CT does not run ahead, and no store, posted request or report of it is outstanding. -/
def Quiet (t : Tile) : Prop := t.ahead = false ∧ t.storeQ = [] ∧ t.posted = [] ∧ t.reports = []

/-- R181, R188: FENCE and AFENCE end, with no effect on any register or byte, once every earlier store and posted request
has been performed; while the store queue holds an entry they wait at the word. -/
def fences : Prop :=
  ∀ (s : State) (i : Instr), ((∃ sc, i = .fence sc) ∨ i = .afence) →
    (Quiet s.cur → ∃ t, exec i s = .next t ∧ WentTo s t (s.cur.pc + 4))
    ∧ (s.cur.journal = [] → s.cur.reports = [] → s.cur.storeQ ≠ [] → s.cur.pfx = none → ∃ t, exec i s = .next t ∧ Waits s t)

/-- R179, R181: MARK ends, with no effect on any register or byte, where every earlier store has committed, those to other dies
have their responses, and the store queue has room for the place it takes there; it does not wait for the stores to its own
die that are still queued. Any of those with another die as its home holds it at the word, and so does a full queue. -/
def marks : Prop :=
  ∀ s : State, s.cur.storesAhead = false → s.cur.reports = [] →
    (s.cur.posted = [] → (∀ e ∈ s.cur.storeQ, plainDie e.plain = tileDie s.focus) → s.cur.storeQ.length < 32 →
      ∃ t, exec .mark s = .next t ∧ OnlyTile s t ∧ OnlyCt { s.cur with markPos := t.cur.markPos } t.cur ∧ Ended s.cur t.cur
        ∧ t.cur.pc = s.cur.pc + 4 ∧ NoRegs s.cur t.cur ∧ t.cur.markPos = s.cur.order)
    ∧ ((32 ≤ s.cur.storeQ.length ∨ ∃ e ∈ s.cur.storeQ, plainDie e.plain ≠ tileDie s.focus) → s.cur.pfx = none → ∃ t, exec .mark s = .next t ∧ Waits s t)

/-- R181: after a MARK, a load of the own die waits while a store that stood before the MARK is queued for the path of its
address, unless pending stores of the CT give all its bytes. -/
def markedLoads : Prop :=
  ∀ (s : State) (d b : BitVec 6) (sc : BitVec 3) (o z : BitVec 2) (g : BitVec 1) (i : BitVec 5) (q : Nat) (a : Acc),
    let size := 2 ^ z.toNat
    let ea := s.g b + s.cur.imm i * BitVec.ofNat 64 size
    ea.toNat % size = 0 → s.check s.focus ea size .r true false (atDevice size false) = .ok a → a.fallow = false →
    plainDie a.plain = tileDie s.focus → s.place (tileDie s.focus) a.plain size = .mem q → s.cur.allForwarded ea size = false →
    (∃ e ∈ s.cur.storeQ, e.pos < s.cur.markPos ∧ pathOf e.plain = pathOf a.plain) → s.cur.pfx = none →
    ∃ t, exec (.ld d b sc o z g i) s = .next t ∧ Waits s t

/-- R181, R188: the fences, MARK, and the loads that a MARK holds back. (Rests also on logs 37 and 103,
the model's own readings.) -/
def Obligations.FenceWords : Prop := fences ∧ marks ∧ markedLoads

/-! ## Atomics -/

/-- Size in bytes, and the destination, address and operand registers, of an integer atomic in its returning form. -/
def atomicForm : Instr → Option (Nat × BitVec 6 × BitVec 6 × BitVec 6)
  | .aadd d a b _ _ z n | .alogAnd d a b _ _ z n | .alogOr d a b _ _ z n | .alogXor d a b _ _ z n | .amax d a b _ _ z n
  | .amaxN d a b _ _ z n | .amin d a b _ _ z n | .aminN d a b _ _ z n | .axch d a b _ _ z n =>
    if n = 0 then some (if z = 0 then 4 else 8, d, a, b) else none
  | .acas d a b _ _ z => some (if z = 0 then 4 else 8, d, a, b)
  | _ => none

/-- What an integer atomic writes over `old`, in n bits (R281). -/
def atomicNew (n : Nat) (old v cmp : Nat) : Instr → Option Nat
  | .aadd .. => some ((old + v) % 2 ^ n)
  | .alogAnd .. => some (old &&& v)
  | .alogOr .. => some (old ||| v)
  | .alogXor .. => some (old ^^^ v)
  | .amax .. => some (if sextN old n < sextN v n then v else old)
  | .amaxN .. => some (Max.max old v)
  | .amin .. => some (if sextN v n < sextN old n then v else old)
  | .aminN .. => some (Min.min old v)
  | .axch .. => some v
  | .acas .. => if old = cmp then some v else none
  | _ => none

/-- The unsigned maximum and minimum zero-extend the old value; every other form sign-extends it (R281). -/
def atomicOld (n old : Nat) : Instr → W64
  | .amaxN .. | .aminN .. => BitVec.ofNat 64 old
  | _ => BitVec.ofInt 64 (sextN old n)

/-- The CT can perform an atomic at q on its own die now: it does not run ahead, nothing of it is outstanding, the location
is its own, its die is up and the location's sector is good. -/
def AtomicHere (s : State) (ea : W64) (size q : Nat) : Prop :=
  Quiet s.cur ∧ s.cur.status = .running ∧ tileDie s.focus ∉ (s.die (tileDie s.focus)).unreachable
    ∧ ∃ a, s.atomicCheck ea size = .ok a ∧ a.fallow = false ∧ plainDie a.plain = tileDie s.focus
      ∧ s.place (tileDie s.focus) a.plain size = .mem q ∧ s.foreign (s.fidOf s.focus) q = false ∧ s.badSector q size = none

/-- The location holds the new value, if there is one, and every other byte is as before. -/
def Updated (s t : State) (q size : Nat) (new : Option Nat) : Prop :=
  ∀ p, t.byte p = match new with
    | some x => if q ≤ p ∧ p < q + size then BitVec.ofNat 8 (x / 2 ^ (8 * (p - q))) else s.byte p
    | none => s.byte p

/-- R280, R281, R189: a returning integer atomic whose location lies on the tile's die reads it and writes the new value
over it in one step, and g[d] receives the old value. -/
def integerAtomics : Prop :=
  ∀ (i : Instr) (s : State) (size q : Nat) (d a b : BitVec 6), wellFormed i = true → atomicForm i = some (size, d, a, b) →
    AtomicHere s (s.g a) size q →
    let old := leNat (s.bytes q size)
    ∃ t, exec i s = .next t ∧ t.cur.pc = s.cur.pc + 4
      ∧ Updated s t q size (atomicNew (8 * size) old ((s.g b).toNat % 2 ^ (8 * size)) ((s.g d).toNat % 2 ^ (8 * size)) i)
      ∧ GSet s.cur t.cur d.toNat (atomicOld (8 * size) old i) ∧ FSame s.cur t.cur ∧ QSame s.cur t.cur ∧ DSame s.cur t.cur
      ∧ t.cur.fpc = s.cur.fpc

/-- R284: the floating-point atomics in their returning form: the location takes the result and f[d] the old bits with
count 24 (0 for an infinity or a NaN), unless a flag traps; flags join FPC. -/
def floatAtomics : Prop :=
  ∀ (s : State) (d : BitVec 5) (a : BitVec 6) (b : BitVec 5) (sc : BitVec 3) (o : BitVec 2) (q : Nat),
    AtomicHere s (s.g a) 4 q →
    let old := leNat (s.bytes q 4)
    let x := s.cur.fReg b.toNat
    let done (i : Instr) (r : Nat) (fl : Nat) : Prop :=
      flagTrap s.cur.fpc fl = none → ∃ t, exec i s = .next t ∧ t.cur.pc = s.cur.pc + 4 ∧ Updated s t q 4 (some r)
        ∧ FSet s.cur t.cur d.toNat { val := BitVec.ofNat 32 old, cnt := storeCount (BitVec.ofNat 32 old) 24 }
        ∧ GSame s.cur t.cur ∧ QSame s.cur t.cur ∧ DSame s.cur t.cur ∧ t.cur.fpc = s.cur.fpc ||| BitVec.ofNat 64 fl
    let sum := fpAdd .f32 s.rm (unpack .f32 old) (if (unpack .f32 old).finite then 24 else 0) x.fv x.c
    done (.amaxf d a b sc o 0) (fpMinMax .f32 true old 24 x.val.toNat x.c).bits (fpMinMax .f32 true old 24 x.val.toNat x.c).flags
    ∧ done (.aminf d a b sc o 0) (fpMinMax .f32 false old 24 x.val.toNat x.c).bits (fpMinMax .f32 false old 24 x.val.toNat x.c).flags
    ∧ done (.aaddf d a b sc o 0) sum.bits (sum.allFlags s.cur.fpc)

/-- R280, R281, R284, R189: the atomics in their returning form. -/
def Obligations.ReturningAtomics : Prop := integerAtomics ∧ floatAtomics

/-- Operation code, size in bytes, address register, operand bits and operand count of a no-return atomic (R281, R284). -/
def noReturnForm (s : State) : Instr → Option (Nat × Nat × BitVec 6 × W64 × Nat)
  | .aadd d a b _ _ z n => if n = 1 then some (0, if z = 0 then 4 else 8, a, s.g b, (s.g d).toNat) else none
  | .alogAnd d a b _ _ z n => if n = 1 then some (1, if z = 0 then 4 else 8, a, s.g b, (s.g d).toNat) else none
  | .alogOr d a b _ _ z n => if n = 1 then some (2, if z = 0 then 4 else 8, a, s.g b, (s.g d).toNat) else none
  | .alogXor d a b _ _ z n => if n = 1 then some (3, if z = 0 then 4 else 8, a, s.g b, (s.g d).toNat) else none
  | .amax d a b _ _ z n => if n = 1 then some (4, if z = 0 then 4 else 8, a, s.g b, (s.g d).toNat) else none
  | .amaxN d a b _ _ z n => if n = 1 then some (5, if z = 0 then 4 else 8, a, s.g b, (s.g d).toNat) else none
  | .amin d a b _ _ z n => if n = 1 then some (6, if z = 0 then 4 else 8, a, s.g b, (s.g d).toNat) else none
  | .aminN d a b _ _ z n => if n = 1 then some (7, if z = 0 then 4 else 8, a, s.g b, (s.g d).toNat) else none
  | .axch d a b _ _ z n => if n = 1 then some (12, if z = 0 then 4 else 8, a, s.g b, (s.g d).toNat) else none
  | .amaxf _ a b _ _ n => if n = 1 then some (8, 4, a, (s.f b).val.setWidth 64, (s.f b).c) else none
  | .aminf _ a b _ _ n => if n = 1 then some (9, 4, a, (s.f b).val.setWidth 64, (s.f b).c) else none
  | .aaddf _ a b _ _ n => if n = 1 then some (10, 4, a, (s.f b).val.setWidth 64, (s.f b).c) else none
  | _ => none

/-- R280, R283, R284, R243: a no-return atomic joins the store queue with its operand, its tag and FPC as it stands, and
writes no register and no byte itself; one for another die waits at the word while its CT has 64 logged requests open. -/
def Obligations.NoReturnAtomics : Prop :=
  ∀ (i : Instr) (s : State) (op size : Nat) (a : BitVec 6) (v : W64) (c : Nat) (acc : Acc),
    noReturnForm s i = some (op, size, a, v, c) → Quiet s.cur → s.atomicCheck (s.g a) size = .ok acc → acc.fallow = false →
    (plainDie acc.plain = tileDie s.focus ∨ s.loggedOpen s.focus < 64 →
      ∃ t, exec i s = .next t ∧ OnlyTile s t ∧ t.cur.pc = s.cur.pc + 4 ∧ NoRegs s.cur t.cur
        ∧ t.cur.storeQ = [{ va := s.g a, plain := acc.plain, bytes := [], amo := some (op, size, v), tag := s.cur.atag
                            fpc := s.cur.fpc, cnt := c, pos := s.cur.order }])
    ∧ (plainDie acc.plain ≠ tileDie s.focus → 64 ≤ s.loggedOpen s.focus → s.cur.pfx = none → ∃ t, exec i s = .next t ∧ Waits s t)

/-- R245, R287: an ATQ whose location lies on the requester's own die answers LOCAL: g[d] is 0 and g[d+1] is 3. -/
def Obligations.QueryOutcome : Prop :=
  ∀ (s : State) (d a b : BitVec 6) (acc : Acc), d.toNat ≠ 0 → d.toNat % 2 = 0 → fld (s.g b) 16 48 = 0 →
    Quiet s.cur → s.cur.status = .running → tileDie s.focus ∉ (s.die (tileDie s.focus)).unreachable →
    s.atomicCheck (s.g a) 1 = .ok acc → plainDie acc.plain = tileDie s.focus →
    ∃ t, exec (.atq d a b) s = .next t ∧ t.cur.pc = s.cur.pc + 4
      ∧ (∀ n, t.cur.gReg n = if n = d.toNat then 0 else if n = d.toNat + 1 then 3 else s.cur.gReg n)
      ∧ FSame s.cur t.cur ∧ QSame s.cur t.cur ∧ DSame s.cur t.cur ∧ ∀ p, t.byte p = s.byte p

/-! ## Events, barriers, tokens -/

/-- The CT runs, has nothing outstanding, and reaches its own die. -/
def Here (s : State) : Prop :=
  Quiet s.cur ∧ s.cur.status = .running ∧ tileDie s.focus ∉ (s.die (tileDie s.focus)).unreachable

/-- A word of the tile in focus ended. -/
def WordOver (s t : State) : Prop := t.focus = s.focus ∧ t.cur.pc = s.cur.pc + 4 ∧ t.cur.pfx = none ∧ t.cur.wait = none
/-- A word of the tile in focus ended, and no byte of memory changed. -/
def WordEnds (s t : State) : Prop :=
  t.focus = s.focus ∧ t.cur.pc = s.cur.pc + 4 ∧ t.cur.pfx = none ∧ t.cur.wait = none ∧ ∀ p, t.byte p = s.byte p

/-- g[d] took v; no other register of the CT changed. -/
def TookG (s t : State) (d : Nat) (v : W64) : Prop :=
  GSet s.cur t.cur d v ∧ FSame s.cur t.cur ∧ QSame s.cur t.cur ∧ DSame s.cur t.cur ∧ t.cur.fpc = s.cur.fpc
/-- As `WordEnds`, and g[d] took v; no other register changed. -/
def EndsWith (s t : State) (d : Nat) (v : W64) : Prop := WordEnds s t ∧ TookG s t d v

/-- R46, R47, R309 to R311: on an event of the own die, EVSIG adds g[b] to the count (at most 0xFFFFFFFF) and the waiters it
meets leave; EVSIG.R makes the count zero; EVPOLL reads it; EVWAIT goes on where the count meets the threshold, and
otherwise parks the unit, with the address of the next word and g1 to g8, and frees its tile. (Rests also on log 61,
the model's own readings.) -/
def Obligations.EventWords : Prop :=
  ∀ (s : State) (a b d : BitVec 6),
    let sel := s.g a
    let die := tileDie s.focus
    let key := evKey (s.jobOf s.focus) (fld sel 0 16)
    let e := s.eventAt die key
    fld sel 19 45 = 0 → s.eventDie sel = die → die ∈ (s.job (s.jobOf s.focus)).dies → Here s →
    (fld (s.g b) 32 32 = 0 → (s.g b = 0 ∨ s.eventRoom die key) →
      let c := min (e.count + (s.g b).toNat) 0xFFFFFFFF
      ∃ t, exec (.evsig a b) s = .next t ∧ WordEnds s t ∧ NoRegs s.cur t.cur
        ∧ t.eventAt die key = { count := c, waiters := e.waiters.filter fun w => decide (c < w.thr) })
    ∧ (∃ t, exec (.evsigR a) s = .next t ∧ WordEnds s t ∧ NoRegs s.cur t.cur ∧ t.eventAt die key = { e with count := 0 })
    ∧ (∃ t, exec (.evpoll d a) s = .next t ∧ WroteG s t d.toNat (BitVec.ofNat 64 e.count))
    ∧ (s.cur.inh = false → s.cur.cancelAt = none → s.cur.vs = none → s.cur.started = [] → fld (s.g b) 32 32 = 0 →
      ((s.g b).toNat ≤ e.count → ∃ t, exec (.evwait a b) s = .next t ∧ WentTo s t (s.cur.pc + 4))
      ∧ (e.count < (s.g b).toNat → s.waiterRoom die key →
        ∃ t u, exec (.evwait a b) s = .next t ∧ t.cur.status = .idle
          ∧ t.eventAt die key = { e with waiters := e.waiters ++ [.unit u (s.g b).toNat] }
          ∧ u.cr.code = s.cur.pc + 4 ∧ u.cr.job = s.cur.entry.cr.job ∧ u.ext = (List.range 8).map fun i => s.cur.gReg (i + 1)))

/-- R223, R288, R289: on a barrier of the own die, BARINIT sets the count and BARADD raises it; the first waiter is served
as soon as the count meets it, by taking its number; BARWAIT takes its number at once where no waiter is before it and the
count meets it, and otherwise waits at the word. -/
def Obligations.BarrierWords : Prop :=
  ∀ (s : State) (a b d : BitVec 6) (i : BitVec 13),
    let die := tileDie s.focus
    let sel := s.g a
    let n := fld sel 0 8
    let x := s.barAt die n
    let m := (s.g d).toNat
    Here s → s.barOk die (s.jobOf s.focus) n →
    (fld sel 26 38 = 0 → fld sel 11 5 = 0 → s.barDie sel = some die → die ∈ (s.job (s.jobOf s.focus)).dies →
      ∀ init : Bool,
      let w : Instr := if init then .barinit a b else .baradd a b
      let v := if init then (s.g b).toNat else min (x.count + (s.g b).toNat) (2 ^ 64 - 1)
      (x.waiters = [] ∨ (∃ y r, x.waiters = y :: r ∧ v < y.n) →
        ∃ t, exec w s = .next t ∧ WordEnds s t ∧ NoRegs s.cur t.cur ∧ t.barAt die n = { x with count := v })
      ∧ (∀ y, x.waiters = [y] → y.n ≤ v → y.tile ≠ s.focus → (s.tile y.tile).status = .running →
        ∃ t, exec w s = .next t ∧ WordEnds s t ∧ NoRegs s.cur t.cur ∧ t.barAt die n = { count := v - y.n, waiters := [] }
          ∧ (t.tile y.tile).pc = (s.tile y.tile).pc + 4 ∧ (t.tile y.tile).wait = none))
    ∧ (fld sel 8 56 = 0 →
      (m = 0 → ∃ t, exec (.barwait d a i) s = .next t ∧ WentTo s t (s.cur.pc + 4))
      ∧ (0 < m → m ≤ x.count → x.waiters = [] →
        ∃ t, exec (.barwait d a i) s = .next t ∧ WordEnds s t ∧ NoRegs s.cur t.cur ∧ t.barAt die n = { count := x.count - m, waiters := [] })
      ∧ (x.count < m → x.waiters = [] →
        ∃ t w, exec (.barwait d a i) s = .next t ∧ t.cur.wait = some w ∧ w.on = .barrier n m
          ∧ w.bound = some (s.cur.bound (s.cur.immU i)) ∧ t.cur.pc = s.cur.pc ∧ NoRegs s.cur t.cur
          ∧ t.barAt die n = { count := x.count, waiters := [{ tile := s.focus, n := m }] }))

/-- Every token but one is as before. -/
def TokSet (a b : Tile) (n v : Nat) : Prop := ∀ m, b.token m = if m = n then v else a.token m

/-- R66, R67, R365, R366: TOKSIG adds g[a] + imm, the sum clamped, to a token that saturates at 0xFFFF, before what has been
taken from it in the same cycle, or, where the CT runs ahead, leaves the signal in the journal; TOKWAIT takes g[a] from a token that no one waits for and that holds as many,
else waits in the token's list; more than 0xFFFF is ILLEGAL_OP. -/
def Obligations.TokenWords : Prop :=
  ∀ (s : State) (n a : BitVec 6) (i : BitVec 13),
    let c := min ((s.g a).toNat + s.cur.immU i) 0xFFFF
    let m := (s.g a).toNat
    (Quiet s.cur → Tab.get [] s.cur.takers n.toNat = [] →
      let taken := s.cur.takenNow (s.dcc (tileDie s.focus)) n.toNat
      ∃ t, exec (.toksig n a i) s = .next t ∧ WordEnds s t ∧ NoRegs s.cur t.cur
        ∧ TokSet s.cur t.cur n.toNat (min (s.cur.token n.toNat + taken + c) 0xFFFF - taken))
    ∧ (s.cur.ahead = true → ∃ t e, exec (.toksig n a i) s = .next t ∧ WordEnds s t ∧ NoRegs s.cur t.cur
        ∧ t.cur.journal = s.cur.journal ++ [e] ∧ e.kind = .tok n.toNat c ∧ e.rel = true ∧ t.cur.tokens = s.cur.tokens)
    ∧ (0xFFFF < m → exec (.tokwait n a i) s = .next (s.fault s.focus Cls.illegalOp))
    ∧ (m ≤ 0xFFFF → s.cur.ahead = false →
      (m = 0 → ∃ t, exec (.tokwait n a i) s = .next t ∧ WentTo s t (s.cur.pc + 4))
      ∧ (0 < m → s.cur.canTake n.toNat m → ∃ t, exec (.tokwait n a i) s = .next t ∧ WordEnds s t ∧ NoRegs s.cur t.cur
          ∧ TokSet s.cur t.cur n.toNat (s.cur.token n.toNat - m))
      ∧ (0 < m → s.cur.canTake n.toNat m = false → ∃ t w, exec (.tokwait n a i) s = .next t ∧ t.cur.wait = some w
          ∧ w.on = .token n.toNat m ∧ w.bound = some (s.cur.bound (s.cur.immU i)) ∧ t.cur.pc = s.cur.pc
          ∧ Tab.get [] t.cur.takers n.toNat = Tab.get [] s.cur.takers n.toNat ++ [.ct m]))

/-! ## Sequences -/

/-- A handle of a live sequence whose home is the tile's own die, with no other request on it. -/
def SeqHere (s : State) (h : W64) (q : Seqn) : Prop :=
  Here s ∧ s.seqHome (diePkg (tileDie s.focus)) h = some (tileDie s.focus)
    ∧ s.seqOf (tileDie s.focus) h (s.jobOf s.focus) = some q ∧ ∀ p ∈ s.reqs, p.2.op.handle? ≠ some h

/-- R203, R204, R206, R355: on a sequence of the own die, SQLEN reads CL, with the seal in bit 63; SQWAIT returns the same
once CL has reached its number, or where the sequence is sealed and RC is below the number, and otherwise waits at the
word, bounded as its immediate says; SQSEAL seals and changes nothing else of the descriptor. -/
def Obligations.SequenceReads : Prop :=
  ∀ (s : State) (d a : BitVec 6) (i : BitVec 13) (q : Seqn),
    let h := s.g a
    let n := (s.g d).toNat
    let len : W64 := BitVec.ofNat 64 (q.cl + if q.sealed then 2 ^ 63 else 0)
    SeqHere s h q →
    (∃ t, exec (.sqlen d a) s = .next t ∧ WroteG s t d.toNat len)
    ∧ (n < 2 ^ 32 → (n ≤ q.cl ∨ (q.sealed = true ∧ q.rc < n)) →
        ∃ t, exec (.sqwait d a i) s = .next t ∧ WroteG s t d.toNat len)
    ∧ (n < 2 ^ 32 → q.cl < n → (q.sealed = false ∨ n ≤ q.rc) →
        ∃ t w, exec (.sqwait d a i) s = .next t ∧ t.cur.wait = some w ∧ w.on = .seqn h n
          ∧ w.bound = some (s.cur.bound (s.cur.immU i)) ∧ t.cur.pc = s.cur.pc ∧ NoRegs s.cur t.cur)
    ∧ (∃ t, exec (.sqseal a) s = .next t ∧ WordEnds s t ∧ NoRegs s.cur t.cur ∧ t.seqAt (tileDie s.focus) h = { q with sealed := true })

/-- R197: SQRES of n slots on a sequence of the own die that is not sealed and has the capacity returns RC and raises it by
n, with CL, the window and the seal as they were, where the pools of the block dies hold n blocks; with n = 0 it changes
nothing. Memory changes in the sequence's block table alone. A sealed sequence faults SEQ_CLOSED, one without the capacity
SEQ_WINDOW, and neither changes it. -/
def seqReserve : Prop :=
  ∀ (s : State) (d a b : BitVec 6) (q : Seqn),
    let h := s.g a
    let n := (s.g b).toNat
    SeqHere s h q → n < 2 ^ 32 →
    (q.sealed = false → q.rc + n ≤ q.cap →
      (∀ x, n ≤ (s.jobDie (blockDie (tileDie s.focus) q.blkDies x) q.job).pool.length) →
      ∃ t, exec (.sqres d a b) s = .next t ∧ WordOver s t ∧ TookG s t d.toNat (BitVec.ofNat 64 q.rc)
        ∧ t.seqAt (tileDie s.focus) h = { q with rc := q.rc + n }
        ∧ (∀ p, n = 0 ∨ p < q.bt ∨ q.bt + 8 * q.blocks ≤ p → t.byte p = s.byte p))
    ∧ (q.sealed = true →
      exec (.sqres d a b) s = .next ((s.modTile s.focus fun t => { t with wait := none }).fault s.focus Cls.seqClosed h))
    ∧ (q.sealed = false → q.cap < q.rc + n →
      exec (.sqres d a b) s = .next ((s.modTile s.focus fun t => { t with wait := none }).fault s.focus Cls.seqWindow h))

/-- R198, R203, R356: SQCOM on a sequence of the own die, none of whose slots a grant still covers, marks its slots and CL
passes every slot of the run that is marked then; RC and the seal stay. Of no slots, or of slots below CL alone, it changes
nothing. Slots past RC, or 4096 and more past CL, fault SEQ_WINDOW. -/
def seqCommit : Prop :=
  ∀ (s : State) (d a b : BitVec 6) (q : Seqn),
    let h := s.g a
    let n := (s.g d).toNat
    let start := (s.g b).toNat
    let marked (x : Nat) : Prop := x ∈ q.win ∨ (start ≤ x ∧ x < start + n)
    SeqHere s h q → n < 2 ^ 32 → start < 2 ^ 32 →
    (n = 0 → ∃ t, exec (.sqcom d a b) s = .next t ∧ WordEnds s t ∧ NoRegs s.cur t.cur ∧ t.seqAt (tileDie s.focus) h = q)
    ∧ (0 < n → start + n ≤ q.rc → start + n ≤ q.cl + 4096 → q.grants = [] → q.win.Pairwise (· < ·) → (∀ x ∈ q.win, q.cl ≤ x) →
      ∃ t, exec (.sqcom d a b) s = .next t ∧ WordEnds s t ∧ NoRegs s.cur t.cur
        ∧ (t.seqAt (tileDie s.focus) h).rc = q.rc ∧ (t.seqAt (tileDie s.focus) h).sealed = q.sealed ∧ q.cl ≤ (t.seqAt (tileDie s.focus) h).cl
        ∧ (∀ x, q.cl ≤ x → x < (t.seqAt (tileDie s.focus) h).cl → marked x) ∧ ¬marked (t.seqAt (tileDie s.focus) h).cl
        ∧ (∀ x, x ∈ (t.seqAt (tileDie s.focus) h).win ↔ (t.seqAt (tileDie s.focus) h).cl ≤ x ∧ marked x))
    ∧ (0 < n → (q.rc < start + n ∨ q.cl + 4096 < start + n) →
      exec (.sqcom d a b) s = .next ((s.modTile s.focus fun t => { t with wait := none }).fault s.focus Cls.seqWindow h))

/-- R208, R194: SQDROP of a sequence of the own die on which no grant is registered frees its descriptor, whose generation
has advanced by one, so that the handle names nothing any more; no byte changes. -/
def seqDrop : Prop :=
  ∀ (s : State) (a : BitVec 6) (q : Seqn),
    let h := s.g a
    SeqHere s h q → q.grants = [] →
    ∃ t, exec (.sqdrop a) s = .next t ∧ WordEnds s t ∧ NoRegs s.cur t.cur ∧ (t.seqAt (tileDie s.focus) h).live = false
      ∧ (t.seqAt (tileDie s.focus) h).gen = some (h.setWidth 16 + 1) ∧ t.seqOf (tileDie s.focus) h (s.jobOf s.focus) = none

/-- R194, R197, R198, R203, R208, R356: SQRES, SQCOM and SQDROP on a sequence of the own die. -/
def Obligations.SequenceWords : Prop := seqReserve ∧ seqCommit ∧ seqDrop

/-- R196, R205: SQNEW with a good creation record for the own die, which has a descriptor and room for the block table free,
makes an empty sequence in a descriptor that was free, with every entry of its block table invalid, and returns its handle;
memory changes in that table alone. -/
def seqNew : Prop :=
  ∀ (s : State) (d a : BitVec 6) (bs : List Byte) (bt : Nat),
    let die := tileDie s.focus
    let j := s.jobOf s.focus
    let cr := s.forward s.focus (s.g a) bs
    let cap := bytesAt cr 0 4
    let spb := 2 ^ (16 - bytesAt cr 4 1)
    let blocks := (cap + spb - 1) / spb
    Here s → (s.g a).toNat % 32 = 0 → s.readVa s.focus (s.g a) 32 = .ok bs → s.newSeqOk (diePkg die) j cr →
    s.pkgNamed (diePkg die) (bytesAt cr 6 2 / 8 % 1024) = some (diePkg die) → 8 * diePkg die + bytesAt cr 6 2 % 8 = die →
    ((s.die die).seqs.filter fun p => p.2.live).length < 16384 → s.tableRoom die (8 * blocks) = some bt →
    ∃ t i, exec (.sqnew d a) s = .next t ∧ WordOver s t ∧ (Tab.get {} (s.die die).seqs i).live = false
      ∧ TookG s t d.toNat (s.mkHandle die j i ((Tab.get {} (s.die die).seqs i).genOf die i))
      ∧ (let q : Seqn := Tab.get {} (t.die die).seqs i
        q.live = true ∧ q.job = j ∧ q.cap = cap ∧ q.slotLog2 = bytesAt cr 4 1 ∧ q.scope = bytesAt cr 5 1
          ∧ q.blkDies = BitVec.ofNat 8 (bytesAt cr 8 1) ∧ q.cl = 0 ∧ q.rc = 0 ∧ q.sealed = false ∧ q.win = [] ∧ q.grants = [] ∧ q.bt = bt)
      ∧ ∀ p, t.byte p = if bt ≤ p ∧ p < bt + 8 * blocks then 0 else s.byte p

/-- R207: SQFORK at a whole number of blocks of the committed prefix makes a sequence that holds that prefix, with the
parent's record, and returns its handle; the prefix's blocks stand in both tables, marked as shared. -/
def seqFork : Prop :=
  ∀ (s : State) (d a b : BitVec 6) (q : Seqn) (bt : Nat),
    let die := tileDie s.focus
    let h := s.g a
    let k := (s.g b).toNat
    let whole := k / q.spb
    SeqHere s h q → k < 2 ^ 32 → k ≤ q.cl → q.cl ≤ q.cap → k % q.spb = 0 →
    ((s.die die).seqs.filter fun p => p.2.live).length < 16384 → s.tableRoom die (8 * q.blocks) = some bt →
    (∀ n < whole, (Tab.get { target := 0, refs := 0 } (s.die (8 * diePkg die + (s.btEntry q n).die)).resolver
      (s.btEntry q n).block).refs ≠ 2 ^ 32 - 1) →
    ∃ t i, exec (.sqfork d a b) s = .next t ∧ WordOver s t ∧ (Tab.get {} (s.die die).seqs i).live = false
      ∧ TookG s t d.toNat (s.mkHandle die q.job i ((Tab.get {} (s.die die).seqs i).genOf die i))
      ∧ (let p : Seqn := Tab.get {} (t.die die).seqs i
        p.live = true ∧ p.job = q.job ∧ p.cap = q.cap ∧ p.slotLog2 = q.slotLog2 ∧ p.scope = q.scope ∧ p.blkDies = q.blkDies
          ∧ p.cl = k ∧ p.rc = k ∧ p.sealed = false ∧ p.bt = bt
          ∧ ∀ n < whole, t.btEntry p n = { s.btEntry q n with sh := true } ∧ t.btEntry q n = { s.btEntry q n with sh := true })

/-- R199: SQSLOT of a reserved slot, where the home's register has room, returns its address in a grant whose W range is the
part of the slot's block that is reserved and not committed. -/
def seqSlot : Prop :=
  ∀ (s : State) (d a b : BitVec 6) (q : Seqn),
    let die := tileDie s.focus
    let h := s.g a
    let n := (s.g b).toNat
    let blk := n / q.spb
    SeqHere s h q → n < 2 ^ 32 → n < q.rc → (s.die die).grantCount < 4096 →
    ∃ t num g, exec (.sqslot d a b) s = .next t
      ∧ EndsWith s t d.toNat (BitVec.ofNat 64 (0xFD * 2 ^ 56 + num * 2 ^ 53 + g.stamp.toNat * 2 ^ 16 + n % q.spb * 2 ^ q.slotLog2))
      ∧ Tab.find? t.cur.grants num = some g ∧ g.handle = h ∧ g.blk = blk
      ∧ g.wlo = q.startByte blk q.cl ∧ g.whi = q.endByte blk q.rc

/-- R196, R199, R205, R207: SQNEW, SQFORK and SQSLOT. (Rests also on logs 12, 64 and 76,
the model's own readings.) -/
def Obligations.SequenceMaking : Prop := seqNew ∧ seqFork ∧ seqSlot

/-! ## Engine commands -/

/-- The parameter word of a command: its kind, and the fields a, g, c, x, y of R60 and R61. -/
def issueForm : Instr → Option (CmdKind × BitVec 6 × BitVec 6 × BitVec 6 × BitVec 1 × BitVec 1)
  | .vrun a g c x y => some (.vrun, a, g, c, x, y)
  | .vbase a g c x y => some (.vbase, a, g, c, x, y)
  | .vbaseL a g c x y => some (.vbaseL, a, g, c, x, y)
  | .vhalt a g c x y => some (.vhalt, a, g, c, x, y)
  | .vsend a g c x y => some (.vsend, a, g, c, x, y)
  | .wdef a g c x y => some (.wdef, a, g, c, x, y)
  | .mldb a g c x y => some (.mldb, a, g, c, x, y)
  | .mmul a g c x y => some (.mmul, a, g, c, x, y)
  | .mdrain a g c x y => some (.mdrain, a, g, c, x, y)
  | .mdrainS a g c x y => some (.mdrainS, a, g, c, x, y)
  | .mclr a g c x y => some (.mclr, a, g, c, x, y)
  | .mbase a g c x y => some (.mbase, a, g, c, x, y)
  | .mshr a g c x y => some (.mshr, a, g, c, x, y)
  | .tload a g c x y => some (.tload, a, g, c, x, y)
  | .tstore a g c x y => some (.tstore, a, g, c, x, y)
  | .tgath a g c x y => some (.tgath, a, g, c, x, y)
  | .tscat a g c x y => some (.tscat, a, g, c, x, y)
  | .xpat a g c x y => some (.xpat, a, g, c, x, y)
  | .hexch a g c x y => some (.hexch, a, g, c, x, y)
  | .layset a g c x y => some (.layset, a, g, c, x, y)
  | .laysetPass a g c x y => some (.laysetPass, a, g, c, x, y)
  | .reshard a g c x y => some (.reshard, a, g, c, x, y)
  | .cred a g c x y => some (.cred, a, g, c, x, y)
  | .cbcast a g c x y => some (.cbcast, a, g, c, x, y)
  | _ => none

/-- The commands with a second parameter register (R61). -/
def paired (k : CmdKind) : Bool := k ∈ [CmdKind.vrun, .vbaseL, .vsend, .reshard, .cred, .cbcast]

/-- The first parameter register's bits below TIME outside the mask are zero. -/
def onlyBits (p0 : W64) (mask : Nat) : Prop := ∀ i, i < 51 → p0.getLsbD i = true → mask / 2 ^ i % 2 = 1

/-- What a copy asks of its two maps (R360). -/
def copyOk (s : State) (kind : CmdKind) (p0 : W64) : Prop :=
  let src := s.cur.dReg (fld p0 0 4)
  let dst := s.cur.dReg (fld p0 4 4)
  fld p0 8 43 = 0 ∧ src.reads ∧ dst.writes ∧ (src.idx = decide (kind = .tgath)) ∧ (dst.idx = decide (kind = .tscat))
  ∧ src.count = dst.count ∧ s.cur.copyWidth src = dst.bits
  ∧ s.ownSlice s.focus (if kind = .tload ∨ kind = .tgath then dst.base else src.base)

/-- The parameters that each command accepts: its reference entry's conditions on the registers, the maps and the image. -/
def paramsOk (s : State) (kind : CmdKind) (p0 p1 : W64) : Prop :=
  let m := s.cur.dReg (fld p0 0 4)
  let rows := fld p0 24 5 + 1
  match kind with
  | .vrun => fld p0 14 37 = 0 ∧ fld p1 42 22 = 0 ∧ (∀ e ∈ s.cur.owed, e.kind ≠ .vbase ∧ e.kind ≠ .vbaseL)
      ∧ headerOk (s.cur.header (s.cur.vbase.toNat + fld p0 0 14)) (s.cur.vbase.toNat + fld p0 0 14)
  | .vbase => fld p0 47 4 = 0 ∧ fld p0 32 15 = 0 ∧ fld p0 30 2 = 0
  | .vbaseL => fld p0 47 4 = 0 ∧ fld p0 30 2 = 0 ∧ fld p0 0 16 = 0 ∧ fld p1 48 16 = 0 ∧ fld p0 32 15 ≠ 0
      ∧ fld p0 16 14 + fld p0 32 15 ≤ 16384 ∧ fld p1 0 48 % 4 = 0
  | .vhalt => onlyBits p0 0
  | .vsend => fld p0 30 21 = 0 ∧ fld p0 20 3 = 0 ∧ fld p0 12 4 = 0 ∧ (fld p0 28 2 = 1 ∨ fld p0 28 2 = 2 → fld p0 23 5 = 0)
      ∧ (fld p0 28 2 ≠ 3 → fld p0 0 12 = 0) ∧ (fld p0 28 2 = 1 → fld p0 16 4 ≤ 7)
      ∧ (fld p0 28 2 = 2 → 1 ≤ fld p0 16 4 ∧ fld p0 16 4 ≤ 7)
  | .wdef => fld p0 13 38 = 0 ∧ (bit p0 8 = false → fld p0 9 4 = 0) ∧ m.reads ∧ (m.xpe ∨ m.format ∉ [7, 8, 12])
      ∧ (bit p0 8 → fld p0 9 4 < fld p0 4 4 ∧ m.idx = false)
  | .mbase => onlyBits p0 0
  | .mclr => onlyBits p0 (0x1F * 2 ^ 24 + 0x1F * 2 ^ 16 + 3 * 2 ^ 12) ∧ fld p0 16 5 + rows ≤ 32
  | .mshr => onlyBits p0 (0x7F * 2 ^ 32 + 0x1F * 2 ^ 24 + 0x1F * 2 ^ 16 + 3 * 2 ^ 12) ∧ fld p0 16 5 + rows ≤ 32 ∧ fld p0 32 7 ≤ 79
  | .mldb => onlyBits p0 (2 ^ 8 + 15) ∧ m.reads ∧ m.idx = false ∧ m.xpe = false ∧ m.format ∈ [0, 1, 12]
      ∧ m.count = if m.format = 0 then 262144 else 131072
  | .mmul => onlyBits p0 (0x1F * 2 ^ 24 + 3 * 2 ^ 12 + 2 ^ 8 + 2 ^ 7 + 15) ∧ m.reads ∧ m.idx = false ∧ m.xpe = false ∧ m.format ≤ 4
      ∧ (m.count = rows * (fld p0 7 1 + 1) * 512 ∨ m.count = rows * (fld p0 7 1 + 1) * 1024)
  | .mdrain => onlyBits p0 (0x1F * 2 ^ 24 + 0x1F * 2 ^ 16 + 3 * 2 ^ 12 + 15) ∧ fld p0 16 5 + rows ≤ 32 ∧ m.writes ∧ m.idx = false
      ∧ m.format ∈ [5, 7, 9] ∧ m.count = 256 * rows
  | .mdrainS => onlyBits p0 (0x1F * 2 ^ 24 + 0x1F * 2 ^ 16 + 3 * 2 ^ 12 + 15) ∧ fld p0 16 5 + rows ≤ 32 ∧ m.writes ∧ m.idx = false
      ∧ m.format = 8 ∧ m.count = rows
  | .tload | .tstore | .tgath | .tscat => copyOk s kind p0
  | .xpat => fld p0 0 48 % 64 = 0
      ∧ ∃ bs x, s.imageBytes s.focus (BitVec.ofNat 64 (fld p0 0 48)) 64 = .ok bs ∧ patternOf bs = some x
  | .hexch => fld p0 48 3 = 0 ∧ fld p0 0 48 % 32 = 0
  | .layset => fld p0 0 48 % 64 = 0
  | .laysetPass => fld p0 48 3 = 0 ∧ fld p0 0 48 % 16 = 0
  | .reshard => fld p0 7 44 = 0 ∧ bit p0 3 = false
  | .cred | .cbcast => fld p0 48 3 = 0 ∧ fld p1 48 16 = 0 ∧ fld p0 0 48 % 32 = 0 ∧ fld p1 0 48 % 16 = 0

/-- The queue of a command (R60). -/
def queueOf (k : CmdKind) : Queue :=
  if k ∈ [CmdKind.vrun, .vbase, .vbaseL, .vhalt, .vsend, .wdef] then .vq
  else if k ∈ [CmdKind.mldb, .mmul, .mdrain, .mdrainS, .mclr, .mbase, .mshr] then .mq else .cq

/-- What R61 puts into a queue's entry at issue. -/
def entryOf (c : Cmd) : CmdKind × BitVec 16 × W64 × Nat × Option Nat × Option Nat × W64 × W64 × W64 :=
  (c.kind, c.seq, c.atag, c.pos, c.gate, c.comp, c.p0, c.p1, c.fpc)

/-- R60, R61, R62, R127, R254: a word of an engine whose parameters are good and whose queue has room puts one command at
the tail of its queue, with the queue's next number, the word's address, its gate and completion tokens, its parameters
and FPC, and goes on; no register and no byte changes. A number that the queue has already started is skipped. -/
def issueQueues : Prop :=
  ∀ (i : Instr) (s : State) (kind : CmdKind) (a g c : BitVec 6) (x y : BitVec 1), issueForm i = some (kind, a, g, c, x, y) →
    let q := queueOf kind
    let num := s.cur.nextNum q
    let p0 := s.g a
    let p1 := if paired kind then s.cur.gReg (a.toNat + 1) else 0
    (paired kind → a.toNat % 2 = 0) →
    (s.cur.skips q num = false → paramsOk s kind p0 p1 → (s.cur.getQ q).length < 32 →
      s.cur.lateStall (s.dcc (tileDie s.focus)) = false → s.cur.issueHeld (tileDie s.focus) = false → (s.cur.mode ≠ 0 ∨ s.cur.chk = false) →
      ∃ t, exec i s = .next t ∧ WordEnds s t ∧ NoRegs s.cur t.cur ∧ t.cur.nextNum q = num + 1
        ∧ (t.cur.getQ q).map entryOf = (s.cur.getQ q).map entryOf ++
          [(kind, num, s.cur.instrPc, s.cur.order, if x = 1 then some g.toNat else none, if y = 1 then some c.toNat else none,
            p0, p1, s.cur.fpc)])
    ∧ (s.cur.skips q num = true →
      ∃ t, exec i s = .next t ∧ WordEnds s t ∧ NoRegs s.cur t.cur ∧ t.cur.nextNum q = num + 1 ∧ t.cur.getQ q = s.cur.getQ q)

/-- R61, R62: a pair of parameter registers starts at an even number, and a full queue holds the word back. -/
def issueHolds : Prop :=
  ∀ (i : Instr) (s : State) (kind : CmdKind) (a g c : BitVec 6) (x y : BitVec 1), issueForm i = some (kind, a, g, c, x, y) →
    let q := queueOf kind
    let p1 := if paired kind then s.cur.gReg (a.toNat + 1) else 0
    (paired kind = true → a.toNat % 2 = 1 → exec i s = .next (s.fault s.focus Cls.illegalOp))
    ∧ ((paired kind → a.toNat % 2 = 0) → s.cur.skips q (s.cur.nextNum q) = false → paramsOk s kind (s.g a) p1 →
      (s.cur.getQ q).length = 32 → s.cur.pfx = none →
      ∃ t w, exec i s = .next t ∧ t.cur.wait = some w ∧ w.on = .queue q ∧ t.cur.pc = s.cur.pc ∧ t.cur.getQ q = s.cur.getQ q
        ∧ NoRegs s.cur t.cur)

/-- R60 to R62, R127, R254: the words that put commands into the queues, and what holds them. (Rests also on log 26,
the model's own readings.) -/
def Obligations.IssueWords : Prop := issueQueues ∧ issueHolds


/-! ## Maps, layouts, translation -/

/-- The word has asked another die and waits for its answer (R215, R243). -/
def Asks (s t : State) (dst : Nat) (op : HomeOp) : Prop :=
  ∃ w id r, t.cur.wait = some w ∧ w.on = .response id ∧ Tab.find? t.reqs id = some r ∧ r.op = op ∧ r.src = tileDie s.focus
    ∧ r.dst = dst ∧ r.tile = s.focus ∧ t.cur.pc = s.cur.pc ∧ NoRegs s.cur t.cur

/-- A tensor map's d register and nothing else. -/
def WroteD (s t : State) (d : Nat) (v : TMap) : Prop :=
  CtWord s t (s.cur.pc + 4) ∧ (∀ n, t.cur.dReg n = if n = d then v else s.cur.dReg n) ∧ GSame s.cur t.cur ∧ FSame s.cur t.cur
  ∧ QSame s.cur t.cur ∧ t.cur.fpc = s.cur.fpc

/-- R364, R329, R349, R305, R242: TMAP writes the checked image to d[d], and asks another die for the next 8 bytes of an
image whose home that is; LAYGET reads a field of the die's own slot; PREF
changes no register and no byte; DISCARD of no byte goes on, and of a range that the unit may write makes the unit wait for
the revocation of the range. -/
def Obligations.MapWords : Prop :=
  ∀ (s : State) (a b : BitVec 6) (d : BitVec 6),
    (∀ (n : BitVec 4) (i : BitVec 13) bs m, let va := s.g a + s.cur.imm i
      va.toNat % 64 = 0 → s.imageBytes s.focus va 64 = .ok bs → checkImage bs = .ok m →
      ∃ t, exec (.tmap n a i) s = .next t ∧ WroteD s t n.toNat m)
    ∧ (∀ (n : BitVec 4) (i : BitVec 13) die p x bs, let va := s.g a + s.cur.imm i
      va.toNat % 64 = 0 → s.imageBytes s.focus va 64 = .error (.away die p x bs) → die ≠ tileDie s.focus →
      die ∉ (s.die (tileDie s.focus)).unreachable → ∃ t, exec (.tmap n a i) s = .next t ∧ Asks s t die (.load p 8))
    ∧ (s.cur.ahead = false → fld (s.g a) 3 61 = 0 →
      let l : LaySlot := Tab.get {} (s.jobRegs s.focus).slots (fld (s.g a) 0 3)
      (∃ t, exec (.layget d a 0) s = .next t
        ∧ WroteG s t d.toNat (BitVec.ofNat 64 (l.kind + l.fmt * 2 ^ 8 + l.ver.toNat * 2 ^ 16 + l.nown * 2 ^ 32)))
      ∧ (∃ t, exec (.layget d a 1) s = .next t ∧ WroteG s t d.toNat (BitVec.ofNat 64 (l.ext.getD 0 0 + l.ext.getD 1 0 * 2 ^ 32)))
      ∧ (∃ t, exec (.layget d a 2) s = .next t ∧ WroteG s t d.toNat (BitVec.ofNat 64 (l.ext.getD 2 0 + l.ext.getD 3 0 * 2 ^ 32)))
      ∧ (∃ t, exec (.layget d a 3) s = .next t ∧ WroteG s t d.toNat (BitVec.ofNat 64 (l.blk.getD 0 0 + l.blk.getD 1 0 * 2 ^ 32)))
      ∧ (∃ t, exec (.layget d a 4) s = .next t ∧ WroteG s t d.toNat (BitVec.ofNat 64 (l.blk.getD 2 0 + l.blk.getD 3 0 * 2 ^ 32)))
      ∧ (∃ t, exec (.layget d a 5) s = .next t ∧ WroteG s t d.toNat l.owner))
    ∧ (s.cur.ahead = false → ∃ t, exec (.pref a b) s = .next t ∧ WordEnds s t ∧ NoRegs s.cur t.cur)
    ∧ (Quiet s.cur → (s.g a).toNat % 65536 = 0 → s.g b = 0 → ∃ t, exec (.discard a b) s = .next t ∧ WentTo s t (s.cur.pc + 4))
    ∧ (Quiet s.cur → (s.g a).toNat % 65536 = 0 → (s.g b).toNat % 65536 = 0 → s.g b ≠ 0 →
      s.discardFails s.focus (s.g a).toNat (s.g b).toNat = none →
      ∃ t w id r, exec (.discard a b) s = .next t ∧ t.cur.wait = some w ∧ w.on = .discard id ∧ t.cur.pc = s.cur.pc
        ∧ Tab.find? t.revs id = some r ∧ r.vbase = (s.g a).toNat ∧ r.len = (s.g b).toNat ∧ r.discard = some s.focus)

/-! ## Work -/

/-- R31, R33, R36, R37: units 0 to n - 1 of a record have joined the tails of its level's queues on dies that its DIEMASK and the
job's placement admit, in unit order on each die, each with the record as it was given, its launch id and the time at which it
joined; nothing else has joined or left a queue. -/
def Registered (s t : State) (r : Rec) (launch n : Nat) : Prop :=
  ∃ place : Nat → Nat, (∀ i, i < n → place i ∈ s.maskDies (diePkg (tileDie s.focus)) r)
    ∧ ∀ x p, ∃ l, t.queueAt x p = s.queueAt x p ++ l
      ∧ l.map (fun e => e.index) = (if p = r.prio then (List.range n).filter fun i => decide (place i = x) else [])
      ∧ ∀ e ∈ l, e.die = x ∧ e.frame = none ∧ e.ext = []
        ∧ e.cr = { r with launch := launch, unit := e.cr.unit, enqt := BitVec.ofNat 32 (s.ptc x) }

/-- R31, R36 to R38, R354: SPAWN of a good template registers its units under a new launch id, closes the launch, and gives the id to
g[d]; no other register changes. The job's home die does it: another die is asked. -/
def spawnUnits : Prop :=
  ∀ (s : State) (d a b : BitVec 6) (r : Rec),
    let n := (s.g b).toNat
    let pkg := diePkg (tileDie s.focus)
    let launch := s.newLaunch r.job
    let home := s.homeDie r.job
    Here s → (s.g a).toNat % 64 = 0 → s.recordAt (s.g a) = .ok r → 1 ≤ n → n ≤ 65536 →
    n ≤ 8192 * (s.maskDies pkg { r with job := s.jobOf s.focus }).length → s.checkOwn r = .ok →
    (∀ u, home = tileDie s.focus → s.levelRoom r → registerAll pkg (tileDie s.focus) r launch n 0 (openLevel s.bump r 5 1 launch) = some u →
      let v := u.closeLaunch r.job launch
      ∃ t, exec (.spawn d a b) s = .next t ∧ (v.focus = s.focus → v.cur.status = .running → WroteG v t d.toNat (BitVec.ofNat 64 launch))
        ∧ (ancestorCancelled (openLevel s.bump r 5 1 launch) r.job 5 1 launch = false → Registered s t r launch n))
    ∧ (home ≠ tileDie s.focus → home ∉ (s.die (tileDie s.focus)).unreachable →
      ∃ t, exec (.spawn d a b) s = .next t ∧ Asks s t home (.spawn r n (tileDie s.focus)))

/-- R327: JOIN on a counter of the own die that holds 0 leaves it and gives 2; on one above 1 counts it down and gives 0;
on one that holds 1 makes it 0, registers the record as a SPAWN of one unit, and gives 1. -/
def joinCounter : Prop :=
  ∀ (s : State) (d a b : BitVec 6) (r : Rec) (acc : Acc) (q : Nat),
    let old := leNat (s.bytes q 8)
    Here s → (s.g a).toNat % 8 = 0 → (s.g b).toNat % 64 = 0 → s.recordAt (s.g b) = .ok r → s.checkOwn r = .ok →
    s.atomicCheck (s.g a) 8 = .ok acc → acc.fallow = false → plainDie acc.plain = tileDie s.focus →
    s.place (tileDie s.focus) acc.plain 8 = .mem q → s.foreign (s.fidOf s.focus) q = false → s.badSector q 8 = none →
    (old = 0 → ∃ t, exec (.join d a b) s = .next t ∧ WroteG s t d.toNat 2)
    ∧ (1 < old → ∃ t, exec (.join d a b) s = .next t ∧ t.cur.pc = s.cur.pc + 4 ∧ Updated s t q 8 (some (old - 1))
      ∧ TookG s t d.toNat 0)
    ∧ (∀ u l, old = 1 → s.homeDie r.job = tileDie s.focus → s.joinRoom s.focus r →
      (s.writeAtomic q (leBytes 8 0)).spawn (tileDie s.focus) r 1 = some (u, l) →
      ∃ t, exec (.join d a b) s = .next t ∧ (u.focus = s.focus → u.cur.status = .running → WroteG u t d.toNat 1)
        ∧ (ancestorCancelled (openLevel (s.writeAtomic q (leBytes 8 0)).bump r 5 1 l) r.job 5 1 l = false → Registered s t r l 1))
    ∧ (old = 1 → s.homeDie r.job ≠ tileDie s.focus → s.homeDie r.job ∉ (s.die (tileDie s.focus)).unreachable →
      ∃ t, exec (.join d a b) s = .next t ∧ Updated s t q 8 (some 0) ∧ Asks s t (s.homeDie r.job) (.spawn r 1 (tileDie s.focus)))

/-- R31, R36 to R38, R327, R354: SPAWN and JOIN. (Rests also on logs 29 and 64,
the model's own readings.) -/
def Obligations.SpawnJoin : Prop := spawnUnits ∧ joinCounter


/-- R28, R30, R55, R77, R313, R407: with nothing left to do, EXIT and EXIT.d free the tile, and EXIT with commands under way
leaves the tile draining; where the unit's completion event finds its table full, the tile is held until it has been
signalled. YIELD goes on where nothing asks for the tile, and otherwise saves the unit to the tail of its
ready queue, with the address of the next word and g1 to g8, and frees the tile. (Rests also on log 41,
the model's own readings.) -/
def Obligations.UnitEnds : Prop :=
  ∀ s : State, s.cur.cancelAt = none → s.cur.reports = [] → s.cur.journal = [] →
    (∀ i : Instr, (i = .exit ∨ i = .exitD) →
      (let r := s.cur.entry.cr
        let ed := 8 * diePkg (tileDie s.focus) + r.evDie
        Quiet s.cur → s.cur.vs = none → s.cur.started = [] → bit r.flags 1 = false →
        (bit r.flags 0 = false ∨ (ed = tileDie s.focus ∧ ed ∉ (s.die ed).unreachable ∧ s.signalRoom ed r.job r.event 1) →
          ∃ t, exec i s = .next t ∧ t.focus = s.focus ∧ t.cur.status = .idle)
        ∧ (bit r.flags 0 = true → ed = tileDie s.focus → ed ∉ (s.die ed).unreachable → s.signalRoom ed r.job r.event 1 = false →
          ∃ t n, exec i s = .next t ∧ t.focus = s.focus ∧ t.cur.status = .retiring n ∧ t.cur.entry = s.cur.entry))
      ∧ (s.cur.started ≠ [] → ∃ t, exec i s = .next t ∧ t.focus = s.focus ∧ t.cur.status = .draining ∧ NoRegs s.cur t.cur
        ∧ t.cur.started = s.cur.started ∧ (i = .exit → t.cur.vq = s.cur.vq ∧ t.cur.mq = s.cur.mq ∧ t.cur.cq = s.cur.cq)
        ∧ (i = .exitD → t.cur.vq = [] ∧ t.cur.mq = [] ∧ t.cur.cq = []) ∧ ∀ p, t.byte p = s.byte p))
    ∧ (s.cur.inh = false → Quiet s.cur →
      (s.cur.preemptAt = none → ∃ t, exec .yield s = .next t ∧ WentTo s t (s.cur.pc + 4))
      ∧ (s.cur.preemptAt ≠ none → s.cur.vs = none → s.cur.started = [] →
        let l := s.cur.entry.cr.prio
        let d := tileDie s.focus
        ∃ t e, exec .yield s = .next t ∧ t.focus = s.focus ∧ t.cur.status = .idle
          ∧ Tab.get [] (t.die d).queues l = Tab.get [] (s.die d).queues l ++ [e]
          ∧ e.cr.code = s.cur.pc + 4 ∧ e.cr.job = s.cur.entry.cr.job ∧ e.ext = (List.range 8).map fun i => s.cur.gReg (i + 1)))

/-- R25, R293: a unit, queued or on a tile, is the one that a selector of level 0 names, or stands under the entry that one of a
higher level names. -/
def Under (s : State) (j lv id home : Nat) (e : Entry) : Prop :=
  e.cr.job = j ∧ (if lv = 0 then e.cr.unitId = id ∧ e.die = home else isUnder s j lv id 5 1 e.cr.launch = true)

/-- R30, R293: CANCEL with the home on the own die, where no unit waits for an event and none is past its EXIT: CANC is set in every
queued or set-aside record that it names, and nowhere else; a running unit that it names has a cancel request, at the time of its
first; the entry it names is cancelled; g[d] is 0, or, of a unit that is nowhere, 1. -/
def cancelMarks : Prop :=
  ∀ (s : State) (d a : BitVec 6) (lv id die : Nat),
    let j := s.jobOf s.focus
    let own := tileDie s.focus
    let home := if lv = 0 then 8 * diePkg own + die else s.homeDie j
    let marked (e e' : Entry) : Prop :=
      (Under s j lv id home e → e' = { e with cr := { e.cr with flags := e.cr.flags ||| 0x20 } }) ∧ (¬ Under s j lv id home e → e' = e)
    Here s → levelSel (s.g a) = some (lv, id, die) → lv < 4 → home = own → (2 ≤ lv → id ≠ 0) → (lv ≠ 0 → ∃ x, s.findLevel j lv id = some x) →
    (∀ c ∈ (s.job j).dies, (s.die c).events = [] ∧ (s.die c).fwParked = []
      ∧ ∀ k ∈ dieTiles c, (s.tile k).status = .idle ∨ (s.tile k).status = .running) →
    let found : Prop := lv ≠ 0 ∨ ∃ c ∈ (s.job j).dies, (∃ l ∈ (s.die c).queues, ∃ e ∈ l.2, Under s j lv id home e)
      ∨ (∃ x ∈ (s.die c).aside, Under s j lv id home x.2.entry)
      ∨ ∃ k ∈ dieTiles c, (s.tile k).status = .running ∧ Under s j lv id home (s.tile k).entry
    ∃ t, exec (.cancel d a) s = .next t ∧ t.focus = s.focus ∧ (found → GSet s.cur t.cur d.toNat 0) ∧ (¬ found → GSet s.cur t.cur d.toNat 1)
      ∧ (∀ x, lv ≠ 0 → s.findLevel j lv id = some x → t.findLevel j lv id = some { x with cancelled := true })
      ∧ ∀ c ∈ (s.job j).dies,
        (∀ p, List.Forall₂ marked (s.queueAt c p) (t.queueAt c p))
        ∧ (∀ i x, Tab.find? (s.die c).aside i = some x → x.launch = none →
            ∃ y, Tab.find? (t.die c).aside i = some y ∧ marked x.entry y.entry)
        ∧ ∀ k ∈ dieTiles c, (t.tile k).status = (s.tile k).status
          ∧ ((s.tile k).status = .running → Under s j lv id home (s.tile k).entry →
              (t.tile k).cancelAt = some ((s.tile k).cancelAt.getD (s.ptc c)))
          ∧ (¬ Under s j lv id home (s.tile k).entry → (t.tile k).cancelAt = (s.tile k).cancelAt)

/-- R293: CANCEL finds nothing where its job's home die is the own one and holds no entry of the level and id; g[d] is 1 and
nothing else changes. Where it finds the entry, the work under it is cancelled and g[d] is 0. A job's home on another die
is asked. -/
def cancels : Prop :=
  ∀ (s : State) (d a : BitVec 6) (lv id die : Nat),
    let j := s.jobOf s.focus
    let own := tileDie s.focus
    let home := if lv = 0 then 8 * diePkg own + die else s.homeDie j
    Here s → levelSel (s.g a) = some (lv, id, die) → lv < 4 →
    (home = own → 1 ≤ lv → s.findLevel j lv id = none → ∃ t, exec (.cancel d a) s = .next t ∧ WroteG s t d.toNat 1)
    ∧ (home = own →
      let u := (s.cancelWork j lv id home).1
      ∃ t, exec (.cancel d a) s = .next t
        ∧ (u.focus = s.focus → u.cur.status = .running → WroteG u t d.toNat (if (s.cancelWork j lv id home).2 then 0 else 1)))
    ∧ (home ≠ own → home ∉ (s.die own).unreachable → ∃ t, exec (.cancel d a) s = .next t ∧ Asks s t home (.cancel lv id))

/-- R298: CMPL of a graph or a phase whose job's home is the own die gives 1, and changes nothing else, where its entry is
closed; it closes an open entry, gives it its completion event, and gives 0; where there is no entry it signals the event
and gives 2. A job's home on another die is asked. -/
def completes : Prop :=
  ∀ (s : State) (d a b : BitVec 6) (lv id die : Nat),
    let j := s.jobOf s.focus
    let own := tileDie s.focus
    let home := s.homeDie j
    let ev := if bit (s.g b) 31 then some (8 * diePkg own + fld (s.g b) 16 3, fld (s.g b) 0 16) else none
    Here s → levelSel (s.g a) = some (lv, id, die) → 2 ≤ lv → lv < 4 → id ≠ 0 → fld (s.g b) 32 32 = 0 → fld (s.g b) 19 12 = 0 →
    (∀ e, home = own → s.findLevel j lv id = some e → e.closed = true → ∃ t, exec (.cmpl d a b) s = .next t ∧ WroteG s t d.toNat 1)
    ∧ (home = own → s.findLevel j lv id = none → ev = none → ∃ t, exec (.cmpl d a b) s = .next t ∧ WroteG s t d.toNat 2)
    ∧ (∀ e, home = own → s.findLevel j lv id = some e → e.closed = false →
      let u := levelCheck (s.modLevel j lv id fun e => { e with closed := true, event := ev }) j 5 lv id
      ∃ t, exec (.cmpl d a b) s = .next t ∧ (u.focus = s.focus → u.cur.status = .running → WroteG u t d.toNat 0))
    ∧ (∀ x, home = own → s.findLevel j lv id = none → ev = some x → x.1 ∉ s.lost → s.signalRoom x.1 j x.2 1 →
      let u := s.signal x.1 j x.2 1
      ∃ t, exec (.cmpl d a b) s = .next t ∧ (u.focus = s.focus → u.cur.status = .running → WroteG u t d.toNat 2))
    ∧ (home ≠ own → home ∉ (s.die own).unreachable → ∃ t, exec (.cmpl d a b) s = .next t ∧ Asks s t home (.cmpl lv id ev))

/-- R293, R298: a level of 4 traps PRIV, with the selector as the fault address; a selector with a reserved bit set, a level
above 4, a DIE at levels 1 to 3, or a unit id past 8,191 is ILLEGAL_OP. -/
def levelSelectors : Prop :=
  (∀ v : W64, (levelSel v = none ↔ fld v 27 37 ≠ 0 ∨ fld v 19 5 ≠ 0 ∨ 4 < fld v 16 3
      ∨ (1 ≤ fld v 16 3 ∧ fld v 16 3 ≤ 3 ∧ fld v 24 3 ≠ 0) ∨ (fld v 16 3 = 0 ∧ 8192 ≤ fld v 0 16))
    ∧ (levelSel v ≠ none → levelSel v = some (fld v 16 3, fld v 0 16, fld v 24 3)))
  ∧ ∀ (s : State) (d a b : BitVec 6), s.cur.ahead = false →
    (levelSel (s.g a) = none → exec (.cancel d a) s = .next (s.fault s.focus Cls.illegalOp)
      ∧ exec (.cmpl d a b) s = .next (s.fault s.focus Cls.illegalOp))
    ∧ (levelSel (s.g a) ≠ none → fld (s.g a) 16 3 = 4 → exec (.cancel d a) s = .next (s.fault s.focus Cls.priv (s.g a))
      ∧ exec (.cmpl d a b) s = .next (s.fault s.focus Cls.priv (s.g a)))

/-- R30, R293, R298: CANCEL and CMPL, and the selectors they refuse. (Rests also on logs 29, 30 and 65,
the model's own readings.) -/
def Obligations.CancelWords : Prop := cancels ∧ cancelMarks ∧ completes ∧ levelSelectors

/-! ## Regions, control registers, clauses -/

/-- R75, R264, R265, R351, R353, and the entry of NOP (16_reference_m_s.md): NOP goes on and changes nothing; REGION sets the mode, the slack and CHK, and opens a
segment where the mode is strict; SEGEND reads its entry as plain loads, from another die where its home is there, and, of a void segment, or of one whose
cycles and signature are as its entry says, opens the next segment, which is void from the start inside a handler. (Rests also on log 40,
the model's own readings.) -/
def Obligations.RegionWords : Prop :=
  ∀ s : State,
    (∃ t, exec .nop s = .next t ∧ WentTo s t (s.cur.pc + 4))
    ∧ (∀ (m : BitVec 2) (c : BitVec 1) (sl : BitVec 12), m ≠ 3 → (c = 1 → m = 0) → s.cur.pfx.getD 0 = 0 → s.cur.ahead = false →
      (m.toNat = s.cur.mode ∨ (s.cur.vs = none ∧ s.cur.started = [])) →
      ∃ t, exec (.region m c sl) s = .next t ∧ WordEnds s t ∧ NoRegs s.cur t.cur
        ∧ t.cur.regionState = BitVec.ofNat 64 (m.toNat + 4 * c.toNat + 65536 * sl.toNat)
        ∧ t.cur.stampRef = s.dcc (tileDie s.focus) ∧ t.cur.seg = if m = 2 then some { void := s.cur.inh } else none)
    ∧ (∀ (a : BitVec 6) (i : BitVec 13) (g : Segment), let ea := s.g a + s.cur.imm i
      s.cur.ahead = false → s.cur.mode = 2 → (s.cur.segIssue (s.dcc (tileDie s.focus))).seg = some g →
      (g.void = true ∨ (ea.toNat % 8 = 0 ∧ ∃ img, s.loadImage s.focus ea 24 true = .ok img ∧
        let n := s.dcc (tileDie s.focus) - g.start.getD (s.dcc (tileDie s.focus))
        let want := bytesAt img 0xC 4
        n ≤ want + s.cur.slack ∧ want ≤ n + s.cur.slack ∧ (~~~g.crc).toNat = bytesAt img 0x10 4)) →
      ∃ t, exec (.segend a i) s = .next t ∧ WordEnds s t ∧ NoRegs s.cur t.cur ∧ t.cur.seg = some { void := s.cur.inh })
    ∧ (∀ (a : BitVec 6) (i : BitVec 13) (g : Segment) (die p : Nat) (x : W64) (bs : List Byte), let ea := s.g a + s.cur.imm i
      s.cur.ahead = false → s.cur.mode = 2 → (s.cur.segIssue (s.dcc (tileDie s.focus))).seg = some g → g.void = false → ea.toNat % 8 = 0 →
      s.loadImage s.focus ea 24 true = .error (.away die p x bs) → die ≠ tileDie s.focus → die ∉ (s.die (tileDie s.focus)).unreachable →
      ∃ t, exec (.segend a i) s = .next t ∧ Asks s t die (.load p 8))

/-- R21, R22: the capability registers whose value is fixed. -/
def capValues : List (Nat × Nat) :=
  [(0x100, 8), (0x101, 1), (0x102, 8), (0x103, 32), (0x104, 0x1000000000), (0x105, 0x400000), (0x106, 512), (0x107, 48), (0x108, 16384)
  , (0x109, 256), (0x10A, 256), (0x10B, 8192), (0x10C, 256), (0x10D, 64), (0x10E, 32), (0x10F, 32), (0x110, 1024), (0x111, 0x2800000004)]

/-- What CTLR reads, by the register's number (R21 to R24, R75, R76, R89, R123, R257, R266, R301). -/
def ctlReads (s : State) (n : Nat) (v : W64) : Prop :=
  let d := tileDie s.focus
  let x := s.die d
  let j := s.jobDie d (s.jobOf s.focus)
  (∀ c ∈ capValues, n = c.1 → v = BitVec.ofNat 64 c.2)
  ∧ (n = 0x112 → fld v 0 5 = s.focus % 32 ∧ fld v 5 3 = 0 ∧ fld v 8 3 = d % 8 ∧ fld v 11 5 = 0
      ∧ (s.pkgName (d / 8) < 1024 → fld v 16 48 = s.pkgName (d / 8)))
  ∧ (n = 0x113 → let p := s.pkg (d / 8)
      fld v 0 3 = p.px % 8 ∧ fld v 3 5 = 0 ∧ fld v 8 3 = p.py % 8 ∧ fld v 11 5 = 0 ∧ fld v 16 4 = p.pz % 16 ∧ fld v 20 44 = 0)
  ∧ (n = 0x20 → v = s.cur.fpc) ∧ (n = 0x60 → v = s.cur.regionState) ∧ (n = 0x61 → v = s.cur.waitCap) ∧ (n = 0x63 → v = s.cur.bufph)
  ∧ (n = 0x62 → v.toNat = if s.cur.clause.toNat % 16 ≤ 1 then 0 else s.cur.clause.toNat - 1)
  ∧ (n = 0x64 → v.getLsbD 0 = s.cur.inh ∧ v.getLsbD 1 = s.cur.phase.isSome ∧ fld v 2 62 = 0)
  ∧ (n = 0x30 → v = j.trapVec) ∧ (n = 0x31 → v = j.trapArea) ∧ (n = 0x32 → v = j.dmap) ∧ (n = 0x81 → v = j.barRange) ∧ (n = 0x83 → v = j.layArea)
  ∧ (n = 0x40 → v = x.ageLimit) ∧ (n = 0x41 → v = x.preemptLimit) ∧ (n = 0x43 → v = x.evovfBase) ∧ (n = 0x44 → v = x.evovfSize)
  ∧ (n = 0x70 → v = x.cimGate) ∧ (n = 0x80 → v = x.reqTimeout)
  ∧ ((n < 0x20 ∨ (0x21 < n ∧ n < 0x30) ∨ (0x32 < n ∧ n < 0x40) ∨ (0x44 < n ∧ n < 0x60) ∨ (0x64 < n ∧ n < 0x70) ∨ (0x70 < n ∧ n < 0x80)
      ∨ (0x83 < n ∧ n < 0x90) ∨ (0x90 < n ∧ n < 0x100) ∨ 0x113 < n) → v = 0)

/-- R21 to R24, R301 to R304, R266, R267, R363: CTLR reads its register, a fixed value, the tile's place, or zero where the number
names none; CTLW of FPC, WAIT_CAP and BUFPH writes their writable bits,
of a register that a unit only reads traps PRIV, of any other number is ILLEGAL_OP; BUFPH with EN opens a phase that holds
g1 to g8, q and the next word's address, and without it closes one; CYC reads the die's counters; TLBI traps PRIV. -/
def Obligations.ControlWords : Prop :=
  ∀ (s : State) (a d : BitVec 6) (n : BitVec 13),
    let v := s.g a
    let k := s.focus
    let swapped (i : Instr) : Prop := bufphOk v → s.cur.vs = none → s.cur.started = [] →
      ∃ t p, exec i s = .next t ∧ WordEnds s t ∧ NoRegs s.cur t.cur ∧ t.cur.bufph = v &&& 0x033FFFFF#64 ∧ t.cur.phase = some p
        ∧ p.g = (List.range 8).map (fun i => s.cur.gReg (i + 1)) ∧ p.q = s.cur.q ∧ p.pc = s.cur.pc + 4 ∧ p.taken = false
    let closed (i : Instr) : Prop :=
      ∃ t, exec i s = .next t ∧ WordEnds s t ∧ NoRegs s.cur t.cur ∧ t.cur.bufph = v &&& 0x033FFFFF#64 ∧ t.cur.phase = none
    s.cur.ahead = false →
    (∃ t v, exec (.ctlr d n) s = .next t ∧ WroteG s t d.toNat v ∧ ctlReads s n.toNat v)
    ∧ (n = 0x20 → ∃ t, exec (.ctlw a n) s = .next t ∧ WordEnds s t ∧ t.cur.fpc = v &&& 0x00FF1F3F#64
        ∧ GSame s.cur t.cur ∧ FSame s.cur t.cur ∧ QSame s.cur t.cur ∧ DSame s.cur t.cur)
    ∧ (n = 0x61 → ∃ t, exec (.ctlw a n) s = .next t ∧ WordEnds s t ∧ NoRegs s.cur t.cur ∧ t.cur.waitCap = v &&& 0x0FFFFFFFFFFFFFFF#64)
    ∧ (bit v 24 → (n = 0x63 → swapped (.ctlw a n)) ∧ swapped (.bufphSwap a) ∧ swapped (.bufphClose a))
    ∧ (bit v 24 = false → (n = 0x63 → closed (.ctlw a n)) ∧ closed (.bufphSwap a) ∧ closed (.bufphClose a))
    ∧ (n.toNat ∈ [0x21, 0x30, 0x31, 0x32, 0x40, 0x41, 0x42, 0x43, 0x44, 0x70, 0x80, 0x81, 0x83, 0x90] →
      exec (.ctlw a n) s = .next (s.fault k Cls.priv))
    ∧ (n.toNat ∉ [0x20, 0x21, 0x30, 0x31, 0x32, 0x40, 0x41, 0x42, 0x43, 0x44, 0x61, 0x63, 0x70, 0x80, 0x81, 0x83, 0x90] →
      exec (.ctlw a n) s = .next (s.fault k Cls.illegalOp))
    ∧ (∃ t, exec (.cyc d 0) s = .next t ∧ WroteG s t d.toNat (BitVec.ofNat 64 (s.dcc (tileDie k))))
    ∧ (∃ t, exec (.cyc d 1) s = .next t ∧ WroteG s t d.toNat (BitVec.ofNat 64 (s.ptc (tileDie k))))
    ∧ (1 < n.toNat → exec (.cyc d n) s = .next (s.fault k Cls.illegalOp))
    ∧ (∀ c : BitVec 3, exec (.tlbi a c) s = .next (s.fault k (if c.toNat < 3 then Cls.priv else Cls.illegalOp)))

/-- R87, R89, R88, R84, R85: GRD opens a clause of c + 1 words that run where q XOR n is 1; PFX holds its immediate for the
next word and is no word of its own. -/
def Obligations.ClauseWords : Prop :=
  ∀ s : State,
    (∀ (q : BitVec 3) (n : BitVec 1) (c : BitVec 3) (w : W32), s.fetchWord s.focus (s.cur.pc + 4 * BitVec.ofNat 64 (c.toNat + 1)) = .ok w →
      (fld w 25 7 ≠ 0x1F → ∃ t, exec (.grd q n c) s = .next t ∧ WordEnds s t ∧ NoRegs s.cur t.cur
        ∧ t.cur.clause = BitVec.ofNat 5 ((if (s.cur.qReg q.toNat ^^ decide (n = 1)) then 16 else 0) + c.toNat + 1))
      ∧ (fld w 25 7 = 0x1F → exec (.grd q n c) s = .next (s.fault s.focus Cls.illegalOp)))
    ∧ (∀ i : BitVec 25, ∃ t, exec (.pfx i) s = .next t ∧ OnlyTile s t
      ∧ t.cur = { s.cur with pfx := some i, pc := s.cur.pc + 4, fetchClause := s.cur.clause, clause := clauseStep s.cur.clause })

/-! ## Taking an exception and returning from it -/

/-- Nothing holds the unit's cut: no command, no journal entry, no request or barrier that it waits for. -/
def CutReady (s : State) : Prop :=
  s.cur.ahead = false ∧ s.cur.status = .running ∧ s.cur.vs = none ∧ s.cur.started = [] ∧ s.cur.wait = none
  ∧ (∀ b ∈ (s.die (tileDie s.focus)).bars, ∀ w ∈ b.2.waiters, w.tile ≠ s.focus) ∧ (∀ r ∈ s.reqs, r.2.tile ≠ s.focus)

/-- The unit's trap record lies at q of the own die, and its handler can be fetched. -/
def HandlerReady (s : State) (q : Nat) : Prop :=
  s.handlerVa s.focus ≠ 0 ∧ (∃ x, s.check s.focus (s.handlerVa s.focus) 4 .x = .ok x)
  ∧ ∃ a, s.check s.focus (s.recordVa s.focus) 128 .w = .ok a ∧ a.fallow = false ∧ s.place (tileDie s.focus) a.plain 128 = .mem q

/-- The number that each queue gives its next command again after a cut at `pos` in program order (R254). -/
def nextAt (t : Tile) (pos : Nat) : Queue → BitVec 16
  | .vq => nextOf t .vq pos t.nextV
  | .mq => nextOf t .mq pos t.nextM
  | .cq => nextOf t .cq pos t.nextC

/-- The handler was entered: what R255 and R257 say, `cl` being the clause at the address that the record gives and `next` the
numbers of NEXT. -/
def Entered (s t : State) (q cls : Nat) (faddr pc : W64) (cl : BitVec 5) (next : Queue → BitVec 16) : Prop :=
  t.focus = s.focus ∧ t.cur.pc = s.handlerVa s.focus ∧ t.cur.inh = true ∧ t.cur.clause = 0 ∧ t.cur.status = .running
  ∧ (∀ n, t.cur.gReg n = match n with
      | 1 => s.recordVa s.focus
      | 2 => BitVec.ofNat 64 cls
      | 3 => faddr
      | 4 => pc
      | n => s.cur.gReg n)
  ∧ FSame s.cur t.cur ∧ QSame s.cur t.cur ∧ DSame s.cur t.cur ∧ t.cur.fpc = s.cur.fpc
  ∧ leNat (t.bytes q 8) = pc.toNat ∧ leNat (t.bytes (q + 8) 8) = faddr.toNat ∧ t.byte (q + 16) = BitVec.ofNat 8 cls
  ∧ leNat (t.bytes (q + 0x28) 8) = cl.toNat ∧ (∀ i, i < 4 → leNat (t.bytes (q + 0x60 + 8 * i) 8) = (s.cur.gReg (i + 1)).toNat)
  ∧ leNat (t.bytes (q + 0x18) 2) = (s.cur.lsNum .vq).toNat ∧ leNat (t.bytes (q + 0x1A) 2) = (s.cur.lsNum .mq).toNat
  ∧ leNat (t.bytes (q + 0x1C) 2) = (s.cur.lsNum .cq).toNat
  ∧ leNat (t.bytes (q + 0x20) 2) = (next .vq).toNat ∧ leNat (t.bytes (q + 0x22) 2) = (next .mq).toNat
  ∧ leNat (t.bytes (q + 0x24) 2) = (next .cq).toNat
  ∧ (∀ p, p < q ∨ q + 128 ≤ p → t.byte p = s.byte p)

/-- R252, R254 to R257: a fault of the word in hand, with nothing to wait for, writes the trap record with the word's
address, the fault address and the class, its clause, g1 to g4 as they stood, LS and NEXT, puts the record's address, the class, the fault address and the word's address
into g1 to g4, closes the clause, sets INH, and goes on at the handler; no other register and no other byte changes. -/
def handlerEntry : Prop :=
  ∀ (s : State) (q cls : Nat) (faddr : W64), cls < 256 → cls ≠ 0 → cls ≠ Cls.uncorrectable → CutReady s → s.cur.inh = false → HandlerReady s q →
    Entered s (s.fault s.focus cls faddr) q cls faddr s.cur.instrPc s.cur.instrClause (nextAt s.cur s.cur.order)

/-- R258, R270: a fault while INH is set, or one for which there is no handler, kills the unit and gives a damage entry of
kind 1 with class DOUBLE_FAULT; its tile is free at once where it has no join and no completion event left to perform. -/
def doubleFault : Prop :=
  ∀ (s : State) (cls : Nat) (faddr : W64), cls ≠ 0 → cls ≠ Cls.uncorrectable → CutReady s → Quiet s.cur →
    (s.cur.inh = true ∨ s.handlerVa s.focus = 0) →
    let t := s.fault s.focus cls faddr
    (bit s.cur.entry.cr.flags 0 = false → bit s.cur.entry.cr.flags 1 = false → t.cur.status = .idle)
    ∧ ∃ e r, (t.die (tileDie s.focus)).damage = (s.die (tileDie s.focus)).damage ++ e :: r ∧ e.kind = 1 ∧ e.cls = Cls.doubleFault

/-- R252, R255 to R258: what a fault of a unit does. (Rests also on logs 56, 60,
the model's own readings.) -/
def Obligations.FaultEntry : Prop := handlerEntry ∧ doubleFault


/-- R95, R367, R257, R9: an illegal word, and TRAP, take their exception: ILLEGAL_OP at the word itself, SOFTWARE with the
code as fault address and the next word's address. -/
def Obligations.TrapWords : Prop :=
  ∀ (s : State) (q : Nat), CutReady s → s.cur.inh = false → HandlerReady s q →
    (∀ x : BitVec 25, ∃ t, exec (.ill x) s = .next t ∧ Entered s t q 0x01 0 s.cur.instrPc s.cur.instrClause (nextAt s.cur s.cur.order))
    ∧ (∀ c : BitVec 16, ∃ t, exec (.trap c) s = .next t ∧ Entered s t q 0x1A (c.setWidth 64) (s.cur.pc + 4) (clauseStep s.cur.clause)
        (nextAt s.cur (s.cur.order + 1)))
    ∧ (∀ (a : BitVec 6) (c : BitVec 3), c.toNat < 3 → ∃ t, exec (.tlbi a c) s = .next t
      ∧ Entered s t q 0x16 0 s.cur.instrPc s.cur.instrClause (nextAt s.cur s.cur.order))

/-- R259, R256: ERET outside a handler is ILLEGAL_OP; in one, with no cut command, it takes PC, CLAUSE and g1 to g4 from the
trap record and clears INH; no other register and no byte changes. (Rests also on logs 28, 42,
the model's own readings.) -/
def Obligations.ReturnWord : Prop :=
  ∀ (s : State), 
    (s.cur.inh = false → exec .eret s = .next (s.fault s.focus Cls.illegalOp))
    ∧ (∀ bs es, s.cur.inh = true → s.cur.handlerDone → s.cur.cutV = none → s.cur.cutM = none → s.cur.cutC = none →
      s.cur.cancelAt = none → s.readRecord s.focus = some bs → recWord bs 0x28 8 < 32 → recWord bs 0x28 8 % 16 ≤ 8 →
      s.retranslate s.focus = .ok es →
      ∃ t, exec .eret s = .next t ∧ t.focus = s.focus ∧ t.cur.pc = BitVec.ofNat 64 (recWord bs 0 8) ∧ t.cur.inh = false
        ∧ t.cur.clause = BitVec.ofNat 5 (recWord bs 0x28 8) ∧ t.cur.exts = es ∧ t.cur.status = s.cur.status
        ∧ (∀ n, t.cur.gReg n = match n with
            | 1 => BitVec.ofNat 64 (recWord bs 0x60 8)
            | 2 => BitVec.ofNat 64 (recWord bs 0x68 8)
            | 3 => BitVec.ofNat 64 (recWord bs 0x70 8)
            | 4 => BitVec.ofNat 64 (recWord bs 0x78 8)
            | n => s.cur.gReg n)
        ∧ FSame s.cur t.cur ∧ QSame s.cur t.cur ∧ DSame s.cur t.cur ∧ t.cur.fpc = s.cur.fpc ∧ ∀ p, t.byte p = s.byte p)

/-! ## Micro-orders -/

/-- The running table, at a step after which it does not end a pass with a loop level open. -/
def TableAt (s : State) (v : VsRun) : Prop := s.cur.vs = some v ∧ (v.upc + 1 < v.steps ∨ v.levels = [])

/-- The step ended with its flags added to the table's, and the next one follows, or the next pass (R69 to R72). Nothing
outside the tile changed, and of the tile no scalar register. -/
def Stepped (s t : State) (v : VsRun) (fl : Nat) : Prop :=
  t.focus = s.focus ∧ (∀ k, k ≠ s.focus → t.tile k = s.tile k)
  ∧ (∃ w, t.cur.vs = some w ∧ w.flags = v.flags ||| fl ∧ w.levels = v.levels ∧ w.moved = true
      ∧ (if v.upc + 1 < v.steps then w.upc = v.upc + 1 ∧ w.pass = v.pass else w.upc = 0 ∧ w.pass = v.pass + 1))
  ∧ NoRegs s.cur t.cur ∧ t.cur.pc = s.cur.pc

/-- The lanes of an operand hold f, and every other matrix element is as before. -/
def LanesSet (a b : Tile) (r : MRef) (ls : List Nat) (f : Nat → VElem) : Prop :=
  (∀ l ∈ ls, b.mGet r l = f l)
  ∧ ∀ n, (∀ l ∈ ls, mKey r.reg r.dir r.idx l ≠ n) → Tab.get ({} : VElem) b.m n = Tab.get ({} : VElem) a.m n

/-- The lanes that a step writes hold f in operand d; nothing else of the tile but the table's own state changed, and no
byte of memory. -/
def SetsLanes (s t : State) (v : VsRun) (d : BitVec 8) (ls : List Nat) (f : Nat → FRes) : Prop :=
  let fs := laneFlags v.cmd.fpc (ls.map fun l => (l, f l))
  Stepped s t v (orFlags fs) ∧ LanesSet s.cur t.cur (s.cur.mref v (mop d)) ls (fun l => (f l).elem)
  ∧ t.cur = { s.cur with m := t.cur.m, vs := t.cur.vs } ∧ ∀ p, t.byte p = s.byte p

/-- A micro-order that computes lane by lane: its destination, the m operands that it reads, its lanes, and the result of
lane l with count and flags (R370, R375, R376, R379, R385, R390, R373, R397, R399). -/
def laneForm (s : State) (v : VsRun) : Instr → Option (BitVec 8 × List MOp × List Nat × (Nat → FRes)) :=
  let t := s.cur
  let rm := fpcRm v.cmd.fpc
  let ls := t.stepLanes v
  let x (o : BitVec 8) (l : Nat) : VElem := t.mGet (t.mref v (mop o)) l
  let z (n : BitVec 4) (_l : Nat) : VElem := t.zGet n.toNat
  let two (d a : BitVec 8) (rd : List MOp) (y : Nat → VElem) (f : VElem → VElem → FRes) :=
    some (d, mop a :: rd, ls, fun l => f (x a l) (y l))
  let fma (d a : BitVec 8) (rd : List MOp) (y : Nat → VElem) (neg : Bool) :=
    some (d, mop a :: (rd ++ [mop d]), ls, fun l =>
      fpFma .f32 rm (if neg then (x a l).fv.neg else (x a l).fv) (x a l).c (y l).fv (y l).c (x d l).fv (x d l).c)
  let add (p q : VElem) : FRes := fpAdd .f32 rm p.fv p.c q.fv q.c
  let sub (p q : VElem) : FRes := fpAdd .f32 rm p.fv p.c q.fv.neg q.c
  let mul (p q : VElem) : FRes := fpMul .f32 rm p.fv p.c q.fv q.c
  let div (p q : VElem) : FRes := fpDiv .f32 rm p.fv p.c q.fv q.c
  let mx (b : Bool) (p q : VElem) : FRes := fpMinMax .f32 b p.val.toNat p.c q.val.toNat q.c
  let sgn (p q : VElem) : FRes := plainRes (p.val.toNat % 2 ^ 31 + q.val.toNat / 2 ^ 31 * 2 ^ 31) p.c
  let int (f : W32 → W32 → W32) (p q : VElem) : FRes := plainRes (f p.val q.val).toNat 0
  let one (d a : BitVec 8) (f : VElem → FRes) := some (d, [mop a], ls, fun l => f (x a l))
  let sat (n : Int) : W32 := BitVec.ofInt 32 (max (-2 ^ 31) (min (2 ^ 31 - 1) n))
  fun i => match i with
  | .vadd d a b => two d a [mop b] (x b) add
  | .vaddZ d a y => two d a [] (z y) add
  | .vsub d a b => two d a [mop b] (x b) sub
  | .vsubZ d a y => two d a [] (z y) sub
  | .vmul d a b => two d a [mop b] (x b) mul
  | .vmulZ d a y => two d a [] (z y) mul
  | .vdiv d a b => two d a [mop b] (x b) div
  | .vdivZ d a y => two d a [] (z y) div
  | .vmax d a b => two d a [mop b] (x b) (mx true)
  | .vmaxZ d a y => two d a [] (z y) (mx true)
  | .vmin d a b => two d a [mop b] (x b) (mx false)
  | .vminZ d a y => two d a [] (z y) (mx false)
  | .vsgn d a b => two d a [mop b] (x b) sgn
  | .vsgnZ d a y => two d a [] (z y) sgn
  | .vfma d a b => fma d a [mop b] (x b) false
  | .vfmaZ d a y => fma d a [] (z y) false
  | .vfmaS d a b => fma d a [mop b] (x b) true
  | .vfmaSZ d a y => fma d a [] (z y) true
  | .vrcp d a => one d a fun p => fpRcp .f32 rm p.fv p.c
  | .vrsq d a => one d a fun p => zeroCount .f32 p.c (fpRsq .f32 rm p.fv p.c)
  | .vsqrt d a => one d a fun p => fpSqrt .f32 rm p.fv p.c
  | .vexp2 d a => one d a fun p => fpExp2 .f32 rm p.fv p.c (Config.exp2ZeroCount p.val p.c).toNat
  | .vlog2 d a => one d a fun p => fpLog2 .f32 rm p.fv p.c
  | .vcvt d a r k => if r.toNat < 5 ∧ k.toNat < 11 then one d a fun p => (vConvert k.toNat (cvtRm r.toNat rm) p).getD (plainRes 0 0) else none
  | .viadd d a b => two d a [mop b] (x b) (int fun p q => p + q)
  | .viaddZ d a y => two d a [] (z y) (int fun p q => p + q)
  | .visub d a b => two d a [mop b] (x b) (int fun p q => p - q)
  | .visubZ d a y => two d a [] (z y) (int fun p q => p - q)
  | .vimul d a b => two d a [mop b] (x b) (int fun p q => p * q)
  | .vimulZ d a y => two d a [] (z y) (int fun p q => p * q)
  | .vimax d a b => two d a [mop b] (x b) (int fun p q => BitVec.ofInt 32 (max p.toInt q.toInt))
  | .vimaxZ d a y => two d a [] (z y) (int fun p q => BitVec.ofInt 32 (max p.toInt q.toInt))
  | .vimin d a b => two d a [mop b] (x b) (int fun p q => BitVec.ofInt 32 (min p.toInt q.toInt))
  | .viminZ d a y => two d a [] (z y) (int fun p q => BitVec.ofInt 32 (min p.toInt q.toInt))
  | .vimaxN d a b => two d a [mop b] (x b) (int fun p q => BitVec.ofNat 32 (max p.toNat q.toNat))
  | .viminN d a b => two d a [mop b] (x b) (int fun p q => BitVec.ofNat 32 (min p.toNat q.toNat))
  | .viaddSat d a b => two d a [mop b] (x b) (int fun p q => sat (p.toInt + q.toInt))
  | .visubSat d a b => two d a [mop b] (x b) (int fun p q => sat (p.toInt - q.toInt))
  | .vbitAnd d a b => two d a [mop b] (x b) (int fun p q => p &&& q)
  | .vbitOr d a b => two d a [mop b] (x b) (int fun p q => p ||| q)
  | .vbitXor d a b => two d a [mop b] (x b) (int fun p q => p ^^^ q)
  | .vbitAndn d a b => two d a [mop b] (x b) (int fun p q => p &&& ~~~q)
  | .vshfShl d a b => two d a [mop b] (x b) (int fun p q => BitVec.ofNat 32 (p.toNat * 2 ^ (q.toNat % 32)))
  | .vshfShr d a b => two d a [mop b] (x b) (int fun p q => BitVec.ofNat 32 (p.toNat / 2 ^ (q.toNat % 32)))
  | .vshfSra d a b => two d a [mop b] (x b) (int fun p q => BitVec.ofInt 32 (p.toInt / 2 ^ (q.toNat % 32)))
  | .vmov d a => one d a fun p => plainRes p.val.toNat p.c
  | .vsigr d a => one d a fun p => plainRes p.c 0
  | .vrot d a n => some (d, [mop a], ls, fun l => plainRes (x a ((l + n.toNat) % 64)).val.toNat (x a ((l + n.toNat) % 64)).c)
  | .vbcast d y => some (d, [], ls, fun l => plainRes (z y l).val.toNat (z y l).c)
  | .vsel d a b => some (d, [mop a, mop b], List.range 64, fun l =>
      let p := if bit (t.kGet (t.stepTag v v.upc % 4)) l then x a l else x b l
      plainRes p.val.toNat p.c)
  | .vsigs d a => some (d, [mop a, mop d], ls, fun l =>
      plainRes (x d l).val.toNat (storeCount (x d l).val ((x a l).val.toNat % 32)).toNat)
  | _ => none

/-- R65, R98, R100, R126, R369, R370: a lane-wise micro-order whose operands lie in its footprint and whose lanes raise no
trap reads every operand first, writes each masked lane's result and count, ORs the lanes' flags into the table's, and
changes nothing else; one outside its footprint is ILLEGAL_OP at the step, with no effect. -/
def Obligations.VectorLanes : Prop :=
  ∀ (i : Instr) (s : State) (v : VsRun) (d : BitVec 8) (rd : List MOp) (ls : List Nat) (f : Nat → FRes),
    s.cur.vs = some v → laneForm s v i = some (d, rd, ls, f) →
    (rd.all v.mayRead && v.mayWrite (mop d) → (v.upc + 1 < v.steps ∨ v.levels = []) →
      laneTrap v.cmd.fpc (laneFlags v.cmd.fpc (ls.map fun l => (l, f l))) = none →
      ∃ t, exec i s = .next t ∧ SetsLanes s t v d ls f)
    ∧ ((rd.all v.mayRead && v.mayWrite (mop d)) = false → exec i s = .next (s.vsTrap s.focus v { cls := Cls.illegalOp } 0))

/-- The lanes of a k register take f; k0 stays all ones (R6). -/
def KSet (a b : Tile) (k : Nat) (ls : List Nat) (f : Nat → Bool) : Prop :=
  ∀ n l, l < 64 → bit (b.kGet n) l = if n = k ∧ k ≠ 0 ∧ l ∈ ls then f l else bit (a.kGet n) l

/-- What a micro-order that writes a k register gives it: k, the m operands read, the bit and the flags of lane l. -/
def testForm (s : State) (v : VsRun) : Instr → Option (Nat × List MOp × (Nat → Bool × Nat)) :=
  let t := s.cur
  let x (o : BitVec 8) (l : Nat) : VElem := t.mGet (t.mref v (mop o)) l
  let z (n : BitVec 4) : VElem := t.zGet n.toNat
  let cmp (c : Nat) (k : BitVec 3) (a b : BitVec 8) := some (k.toNat, [mop a, mop b], fun l => fpCmp c (x a l).fv (x b l).fv)
  let cmpZ (c : Nat) (k : BitVec 3) (a : BitVec 8) (y : BitVec 4) := some (k.toNat, [mop a], fun l => fpCmp c (x a l).fv (z y).fv)
  fun i => match i with
  | .vcmpEq k a b => cmp 0 k a b
  | .vcmpLt k a b => cmp 1 k a b
  | .vcmpLe k a b => cmp 2 k a b
  | .vcmpUn k a b => cmp 3 k a b
  | .vcmpZEq k a y => cmpZ 0 k a y
  | .vcmpZLt k a y => cmpZ 1 k a y
  | .vcmpZLe k a y => cmpZ 2 k a y
  | .vcmpZUn k a y => cmpZ 3 k a y
  | .vsigq k a n => some (k.toNat, [mop a], fun l => (decide ((x a l).c < n.toNat), 0))
  | .vkset k a b =>
    let lim := min (t.zGet (fld a 0 4)).val.toNat 64
    let p (l : Nat) : Bool := bit (t.kGet (fld a 4 3)) l
    let q (l : Nat) : Bool := bit (t.kGet (fld a 0 3)) l
    if b = 0 ∧ fld a 4 4 = 0 then some (k.toNat, [], fun l => (decide (l < lim), 0))
    else if b = 1 ∧ fld a 4 4 = 0 then some (k.toNat, [], fun l => (decide (lim ≤ l), 0))
    else if bit a 7 ∨ bit a 3 then none
    else if b = 2 then some (k.toNat, [], fun l => (p l && q l, 0))
    else if b = 3 then some (k.toNat, [], fun l => (p l || q l, 0))
    else if b = 4 then some (k.toNat, [], fun l => (p l && !q l, 0))
    else if b = 5 then some (k.toNat, [], fun l => (p l ^^ q l, 0)) else none
  | _ => none

/-- R374, R381, R399: the micro-orders that write a k register set the masked lanes' bits and no other, and k0 stays all
ones; a comparison's flags join the table's where none traps. -/
def Obligations.VectorTests : Prop :=
  ∀ (i : Instr) (s : State) (v : VsRun) (k : Nat) (rd : List MOp) (f : Nat → Bool × Nat),
    TableAt s v → testForm s v i = some (k, rd, f) → rd.all v.mayRead →
    let fs := (s.cur.stepLanes v).map fun l => (l, (f l).2)
    laneTrap v.cmd.fpc fs = none →
    ∃ t, exec i s = .next t ∧ Stepped s t v (orFlags fs) ∧ KSet s.cur t.cur k (s.cur.stepLanes v) (fun l => (f l).1)
      ∧ t.cur = { s.cur with k := t.cur.k, vs := t.cur.vs } ∧ ∀ p, t.byte p = s.byte p

/-- One z register takes e, tag and all. -/
def ZSet (a b : Tile) (z : Nat) (e : VElem) : Prop := ∀ n, b.zGet n = if n = z then e else a.zGet n

/-- What a micro-order that writes a z register gives it: z, the m operands read, the element, its flags (R402, R377, R391,
R130). -/
def scalarForm (s : State) (v : VsRun) : Instr → Option (Nat × List MOp × VElem × Nat) :=
  let t := s.cur
  let x (o : BitVec 8) (l : Nat) : VElem := t.mGet (t.mref v (mop o)) l
  let rm := fpcRm v.cmd.fpc
  let red (z : BitVec 4) (a : BitVec 8) (fill : VElem) (f : VElem → VElem → FRes) :=
    let r := reduceTree f 6 ((List.range 64).map fun l => if l ∈ t.stepLanes v then x a l else fill) 0
    some (z.toNat, [mop a], r.1.elem, ({ r.1 with flags := r.2 } : FRes).allFlags v.cmd.fpc)
  let nan : VElem := { val := 0x7FC00000#32, tag := 0 }
  fun i => match i with
  | .vzmovLane z a l => some (z.toNat, [mop a], x a l.toNat, 0)
  | .vzmovZ z y => some (z.toNat, [], t.zGet y.toNat, 0)
  | .vrsum z a => red z a { val := 0, tag := 31 } fun p q => fpAdd .f32 rm p.fv p.c q.fv q.c
  | .vrmax z a => red z a nan fun p q => fpMinMax .f32 true p.val.toNat p.c q.val.toNat q.c
  | .vrmin z a => red z a nan fun p q => fpMinMax .f32 false p.val.toNat p.c q.val.toNat q.c
  | .vflag z => some (z.toNat, [], { val := BitVec.ofNat 32 (v.flags % 64), tag := 0 }, 0)
  | .vflagNew z => some (z.toNat, [], { val := BitVec.ofNat 32 (v.flagNew % 64), tag := 0 }, 0)
  | _ => none

/-- R402, R391, R377, R380: VZMOV, the reductions and VFLAG write one z register (VFLAG and VFLAG.new start the new flags
again); VIDX writes an index register and VIDX.add adds to it, modulo 65536. -/
def Obligations.VectorScalars : Prop :=
  ∀ (s : State) (v : VsRun), TableAt s v →
    (∀ (i : Instr) (z : Nat) (rd : List MOp) (e : VElem) (fl : Nat), scalarForm s v i = some (z, rd, e, fl) → rd.all v.mayRead →
      flagTrap v.cmd.fpc fl = none →
      ∃ t, exec i s = .next t ∧ Stepped s t v fl ∧ ZSet s.cur t.cur z e ∧ t.cur = { s.cur with z := t.cur.z, vs := t.cur.vs }
        ∧ ((∃ y, i = .vflag y ∨ i = .vflagNew y) → ∃ w, t.cur.vs = some w ∧ w.flagNew = 0) ∧ ∀ p, t.byte p = s.byte p)
    ∧ (∀ (i : BitVec 3) (n : BitVec 16),
      (∃ t, exec (.vidx i n) s = .next t ∧ Stepped s t v 0 ∧ t.cur = { s.cur with ix := t.cur.ix, vs := t.cur.vs }
        ∧ (∀ j, Tab.get 0 t.cur.ix j = if j = i.toNat then n else Tab.get 0 s.cur.ix j) ∧ ∀ p, t.byte p = s.byte p)
      ∧ (∃ t, exec (.vidxAdd i n) s = .next t ∧ Stepped s t v 0 ∧ t.cur = { s.cur with ix := t.cur.ix, vs := t.cur.vs }
        ∧ (∀ j, Tab.get 0 t.cur.ix j = if j = i.toNat then Tab.get 0 s.cur.ix j + n else Tab.get 0 s.cur.ix j)
        ∧ ∀ p, t.byte p = s.byte p))

/-- The table goes on from a step with its loop levels, and nothing else of the tile changed. -/
def JumpedTo (s t : State) (v : VsRun) (upc : Nat) (levels : List VLevel) : Prop :=
  ∃ w, t.cur.vs = some w ∧ w.upc = upc ∧ w.pass = v.pass ∧ w.levels = levels ∧ w.flags = v.flags
    ∧ t.cur = { s.cur with vs := t.cur.vs } ∧ ∀ p, t.byte p = s.byte p

/-- R386, R383, R401, R67: VNOP does nothing; VLOOP opens a level with its count, or goes past the matching VEND where the
count is zero; VEND goes back to the level's first step while its count is above one, else closes it; VWAIT takes its
tokens at once, or waits in the token's list. (Rests also on log 58,
the model's own readings.) -/
def Obligations.VectorControl : Prop :=
  ∀ (s : State) (v : VsRun), s.cur.vs = some v →
    ((v.upc + 1 < v.steps ∨ v.levels = []) → ∃ t, exec .vnop s = .next t ∧ Stepped s t v 0
      ∧ t.cur = { s.cur with vs := t.cur.vs } ∧ ∀ p, t.byte p = s.byte p)
    ∧ (∀ n : BitVec 16, s.cur.stepTag v v.upc = 0 → v.levels.length < 4 →
      (n ≠ 0 → v.upc + 1 < v.steps → ∃ t, exec (.vloop n) s = .next t
        ∧ JumpedTo s t v (v.upc + 1) (v.levels ++ [{ count := n.toNat, start := v.upc + 1 }]))
      ∧ (n = 0 → ∀ i, s.cur.matchEnd v (v.steps - (v.upc + 1)) (v.upc + 1) 0 = some i → i < v.steps →
        ∃ t, exec (.vloop n) s = .next t ∧ JumpedTo s t v i v.levels))
    ∧ (∀ (l : VLevel) (r : List VLevel), s.cur.stepTag v v.upc = 0 → v.levels = r ++ [l] →
      (l.count ≤ 1 → v.upc + 1 < v.steps → ∃ t, exec .vend s = .next t ∧ JumpedTo s t v (v.upc + 1) r)
      ∧ (1 < l.count → l.start < v.steps →
        ∃ t, exec .vend s = .next t ∧ JumpedTo s t v l.start (r ++ [{ count := l.count - 1, start := l.start }])))
    ∧ (∀ (tok : BitVec 6) (n b : BitVec 8), (v.upc + 1 < v.steps ∨ v.levels = []) → v.wait = none →
      (n = 0 ∨ v.granted = true → ∃ t, exec (.vwait tok n b) s = .next t ∧ Stepped s t v 0)
      ∧ (n ≠ 0 → v.granted = false → s.cur.canTake tok.toNat n.toNat = true →
        ∃ t, exec (.vwait tok n b) s = .next t ∧ Stepped s t v 0 ∧ TokSet s.cur t.cur tok.toNat (s.cur.token tok.toNat - n.toNat))
      ∧ (n ≠ 0 → v.granted = false → s.cur.canTake tok.toNat n.toNat = false →
        ∃ t w x, exec (.vwait tok n b) s = .next t ∧ t.cur.vs = some w ∧ w.upc = v.upc ∧ w.wait = some x
          ∧ x.on = .token tok.toNat n.toNat ∧ x.bound = some (if b = 0 then capDeflt s.cur.waitCap else 256 * b.toNat)
          ∧ Tab.get [] t.cur.takers tok.toNat = Tab.get [] s.cur.takers tok.toNat ++ [.vs n.toNat]))

/-- The bytes of each lane's access lie in the slice, and can be read where they are (R382). -/
def SliceOk (s : State) (v : VsRun) (o len step : Nat) (tagged reads : Bool) : Prop :=
  v.slice = true ∧ o % len = 0 ∧ ∀ l ∈ s.cur.stepLanes v, o + step * l + len ≤ 2 ^ 22 ∧ (tagged = true → o + step * l < 0x300000)
    ∧ (reads = true → s.badSector (sliceBase s.focus + (o + step * l)) len = none
      ∧ (tagged = true → s.badSector (sliceBase s.focus + tagOffset (o + step * l)) 1 = none))

/-- Each lane's bytes, and its tag byte where there is one, hold the lane's element; every other byte is as before. -/
def LanesStored (s t : State) (v : VsRun) (d : BitVec 8) (o len step : Nat) (tagged : Bool) : Prop :=
  let base := sliceBase s.focus
  let x (l : Nat) : VElem := s.cur.mGet (s.cur.mref v (mop d)) l
  (len ≤ step → ∀ l ∈ s.cur.stepLanes v,
    (∀ j, j < len → t.byte (base + (o + step * l) + j) = BitVec.ofNat 8 ((x l).val.toNat / 2 ^ (8 * j)))
    ∧ (tagged = true → t.byte (base + tagOffset (o + step * l)) = (x l).tag.setWidth 8))
  ∧ ∀ p, (∀ l ∈ s.cur.stepLanes v, ¬ (base + (o + step * l) ≤ p ∧ p < base + (o + step * l) + len)
      ∧ (tagged = true → p ≠ base + tagOffset (o + step * l))) → t.byte p = s.byte p

/-- R382, R400, R388, R387: VLD reads each masked lane's four bytes at the offset in z plus stride times lane, with count 24
or the count of its tag byte; VST and VPUSH store the lanes' low bytes, VST stopping at a sector that cannot be corrected as VLD does, and VPUSH advances z by 64 lanes; VPOP takes the head
entry of its record's queue. (Rests also on logs 34, 57,
the model's own readings.) -/
def Obligations.VectorMemory : Prop :=
  ∀ (s : State) (v : VsRun) (d : BitVec 8) (z : BitVec 4), TableAt s v →
    let o := (s.cur.zGet z.toNat).val.toNat
    let base := sliceBase s.focus
    let w (a : Nat) : W32 := BitVec.ofNat 32 (leNat (s.bytes (base + a) 4))
    (∀ (sc : BitVec 8) (tg : Bool), SliceOk s v o 4 (4 * sc.toNat) tg true → v.mayWrite (mop d) →
      let f (l : Nat) : FRes :=
        let a := o + 4 * sc.toNat * l
        plainRes (w a).toNat (storeCount (w a) (if tg then (s.byte (base + tagOffset a)).toNat % 32 else 24)).toNat
      ∃ t, exec (if tg then .vldT d z sc else .vld d z sc) s = .next t ∧ SetsLanes s t v d (s.cur.stepLanes v) f)
    ∧ (∀ (n : BitVec 2) (sc : BitVec 6), n ≠ 3 → v.mayRead (mop d) →
      let len := 4 / 2 ^ n.toNat
      SliceOk s v o len (len * sc.toNat) false true →
      ∃ t, exec (.vst d z n sc) s = .next t ∧ Stepped s t v 0 ∧ LanesStored s t v d o len (len * sc.toNat) false
        ∧ t.cur = { s.cur with swz := t.cur.swz, vs := t.cur.vs })
    ∧ (∀ (n : BitVec 2) (sc : BitVec 6) (l : Nat) (rest : List Nat), n ≠ 3 → v.mayRead (mop d) → v.slice = true →
      let len := 4 / 2 ^ n.toNat
      let a := o + len * sc.toNat * l
      o % len = 0 → s.cur.stepLanes v = l :: rest → a + len ≤ 2 ^ 22 → (s.badSector (base + a) len).isSome = true →
      exec (.vst d z n sc) s = .next (s.vsTrap s.focus v { cls := Cls.uncorrectable, faddr := s.sliceRef s.focus a, lane := l } 0))
    ∧ (∀ sc : BitVec 6, v.mayRead (mop d) → SliceOk s v o 4 (4 * sc.toNat) true true →
      ∃ t, exec (.vstT d z sc) s = .next t ∧ Stepped s t v 0 ∧ LanesStored s t v d o 4 (4 * sc.toNat) true
        ∧ t.cur = { s.cur with swz := t.cur.swz, vs := t.cur.vs })
    ∧ (∀ n : BitVec 2, n ≠ 3 → v.mayRead (mop d) →
      let len := 4 / 2 ^ n.toNat
      v.slice = true → o % len = 0 → o + 64 * len ≤ 2 ^ 22 →
      ∃ t, exec (.vpush d z n) s = .next t ∧ Stepped s t v 0 ∧ LanesStored s t v d o len len false
        ∧ ZSet s.cur t.cur z.toNat { val := BitVec.ofNat 32 (o + 64 * len), tag := 0 }
        ∧ t.cur = { s.cur with swz := t.cur.swz, z := t.cur.z, vs := t.cur.vs })
    ∧ (∀ (n : BitVec 4) (b : BitVec 8) (x : Stream) (l : List VElem) (fl : Nat) (r : List StreamEntry), v.pops = true → v.mayWrite (mop d) →
      s.cur.feeds n.toNat = false → Tab.get {} s.cur.streams n.toNat = x → x.live → x.queue = .lanes l fl :: r →
      ∃ t, exec (.vpop d n b) s = .next t ∧ Stepped s t v fl
        ∧ LanesSet s.cur t.cur (s.cur.mref v (mop d)) (s.cur.stepLanes v) (fun i => l.getD i {})
        ∧ Tab.get {} t.cur.streams n.toNat = { x with queue := r, popped := x.popped + 1, taken := 0 } ∧ ∀ p, t.byte p = s.byte p)

/-- R368, R396, R389, R139: VACCR writes a part of each accumulator element, or the rows' status words; VSACC writes the
scaled element plus the old lane, over 1 or over the element that its second index names: in a row without a flag, the plain
form gives the bits of the one rounding of element times scale plus lane; a row with INV gives the canonical NaN; a
denominator 0 divides by zero. -/
def Obligations.VectorAccumulators : Prop :=
  ∀ (s : State) (v : VsRun) (d : BitVec 8) (n q y : BitVec 2), TableAt s v → v.mayWrite (mop d) →
    let t := s.cur
    let ls := t.stepLanes v
    let ix := t.ixOf v y.toNat
    let old (l : Nat) : VElem := t.mGet (t.mref v (mop d)) l
    (∀ f : BitVec 8, v.mayReadAcc n.toNat → f.toNat < 4 → ix / 32 % 2 = 0 →
      ∃ u, exec (.vaccr d n q y f) s = .next u
        ∧ SetsLanes s u v d ls (fun l => plainRes (accPart f.toNat (t.accVal n.toNat (ix % 32) (64 * q.toNat + l))) 0))
    ∧ (v.mayReadAcc n.toNat → ∃ u, exec (.vaccr d n 0 0 4) s = .next u
        ∧ SetsLanes s u v d ls (fun l => plainRes (if l < 32 then (t.row n.toNat l).word else 0) 0))
    ∧ (∀ (m : BitVec 1) (sr : BitVec 4) (x : Option (BitVec 2)),
      let so : MOp := { mop d with reg := sr.toNat }
      let f (l : Nat) : FRes := scaleLane (fpcRm v.cmd.fpc)
        { v := t.accVal n.toNat (ix % 32) (64 * q.toNat + l)
          den := match x with
            | some i => t.accVal n.toNat (ix % 32) (t.ixOf v i.toNat % 256)
            | none => 1
          s := if m = 1 then t.mGet (t.mref v so) l else t.zGet sr.toNat, y := old l, row := t.row n.toNat (ix % 32) }
      v.mayReadAcc n.toNat → ix / 32 % 2 = 0 → v.mayRead (mop d) → (m = 1 → v.mayRead so) →
      laneTrap v.cmd.fpc (laneFlags v.cmd.fpc (ls.map fun l => (l, f l))) = none →
      (∃ u, exec (match x with
        | some i => .vsaccN d n q y m i sr
        | none => .vsacc d n q y m sr) s = .next u ∧ SetsLanes s u v d ls f)
      ∧ ∀ l, let e := t.accVal n.toNat (ix % 32) (64 * q.toNat + l)
        let sc : FV := (if m = 1 then t.mGet (t.mref v so) l else t.zGet sr.toNat).fv
        let row := t.row n.toNat (ix % 32)
        let den : Int := match x with
          | some i => t.accVal n.toNat (ix % 32) (t.ixOf v i.toNat % 256)
          | none => 1
        (row.inv = true → (f l).bits = 0x7FC00000 ∧ (f l).cnt = 0 ∧ (f l).flags = Flg.invalid)
        ∧ (row.inv = false → den = 0 → e = 0 → (f l).bits = 0x7FC00000 ∧ (f l).cnt = 0 ∧ (f l).flags.testBit 4 = true)
        ∧ (row.inv = false → den = 0 → e ≠ 0 → (f l).cnt = 0 ∧ ((f l).flags &&& Flg.divZero) ≠ 0
          ∧ (sc.isNan = false → sc.isZero = false → (old l).fv.isNan = false → (∀ b, (old l).fv ≠ .inf b) →
            (f l).bits = Fmt.f32.inf (decide (e < 0) != sc.sign)))
        ∧ (row.inv = false → x = none →
          (f l).bits = (fpFma .f32 (fpcRm v.cmd.fpc) (.fin (decide (e < 0)) e.natAbs 0) exact sc exact (old l).fv exact).bits)
        ∧ (row.inv = false → row.ovf = true → ((f l).flags &&& (Flg.overflow + Flg.inexact)) = Flg.overflow + Flg.inexact))

/-- R389, R139, R101: VQNT writes each masked lane's element times 2^(w − 1 − e), rounded to the format's integers and clamped, and
the row's floor F: 0 where every written lane is a NaN, else the smaller of w − 1 and the count of the lane of largest
magnitude that is no NaN, the lowest on ties; the merge form keeps the smaller of F and the old floor. A destination of
another direction than .r is ILLEGAL_OP. (The exponent's bounds rest also on log 59, the model's own reading.) -/
def Obligations.VectorQuantise : Prop :=
  ∀ (s : State) (v : VsRun) (d : BitVec 8), TableAt s v →
    let t := s.cur
    let ls := t.stepLanes v
    (∀ (a : BitVec 8) (e : BitVec 4) (m : BitVec 1) (g : BitVec 2),
      let x (l : Nat) : VElem := t.mGet (t.mref v (mop a)) l
      let w := (qntRange g.toNat).2.2
      let f (l : Nat) : FRes :=
        let r := fpToInt (fpcRm v.cmd.fpc) ((x l).fv.scale ((w : Int) - 1 - (t.zGet e.toNat).val.toInt)) (qntRange g.toNat).1 (qntRange g.toNat).2.1
        intRes (wrapN r.1 32) r.2
      let j := (t.mref v (mop d)).idx % 32
      (mop d).dir = 0 → v.mayWrite (mop d) → v.mayRead (mop a) → laneTrap v.cmd.fpc (laneFlags v.cmd.fpc (ls.map fun l => (l, f l))) = none →
      ∃ u, exec (.vqnt d a e m g) s = .next u
        ∧ Stepped s u v (orFlags (laneFlags v.cmd.fpc (ls.map fun l => (l, f l))))
        ∧ LanesSet t u.cur (t.mref v (mop d)) ls (fun l => (f l).elem)
        ∧ (∀ i, i ≠ j → Tab.get 255 u.cur.afloor i = Tab.get 255 t.afloor i)
        ∧ (∃ F, (Tab.get 255 u.cur.afloor j).toNat = (if m = 1 then min (Tab.get 255 t.afloor j).toNat F else F)
          ∧ ((∀ l ∈ ls, (x l).fv.isNan = true) → F = 0)
          ∧ ∀ l ∈ ls, (x l).fv.isNan = false →
            (∀ i ∈ ls, (x i).fv.isNan = false →
              if i < l then (x i).val.toNat % 2 ^ 31 < (x l).val.toNat % 2 ^ 31 else (x i).val.toNat % 2 ^ 31 ≤ (x l).val.toNat % 2 ^ 31) →
            F = min (x l).c (w - 1))
        ∧ u.cur = { t with m := u.cur.m, afloor := u.cur.afloor, vs := u.cur.vs } ∧ ∀ p, u.byte p = s.byte p)
    ∧ (∀ (a : BitVec 8) (e : BitVec 4) (m : BitVec 1) (g : BitVec 2), (mop d).dir ≠ 0 →
      exec (.vqnt d a e m g) s = .next (s.vsTrap s.focus v { cls := Cls.illegalOp } 0))

/-! ## Writes from outside: registers, launches, completion queues -/

/-- Nothing but one die changed. -/
def OnlyDie (s t : State) (d : Nat) : Prop := t = s.setDie d (t.die d)
/-- Nothing but one package changed. -/
def OnlyPkg (s t : State) (p : Nat) : Prop := t = s.setPkg p (t.pkg p)
/-- Nothing but one function of a package changed. -/
def OnlyFunc (s t : State) (p f : Nat) : Prop := t = s.modFunc p f fun _ => t.func p f

/-- R15, R23, R24, R35, R42, R44, R147, R195, R205, R223, R234, R235, R237, R239, R248 to R250, R256, R269, R272, R274, R278,
R426: a register write by the agent whose register it is, once boot has started that agent, stores the fields that the register
has; reserved fields stay zero; nothing else changes. Of a quota, only pending pre-emptions follow. A write by another agent,
a value past the register's limit, a quad or an ASID that another function holds, coordinates that another member has, and a
number or coordinates while a job holds a tile of the package, change nothing. A job's placement gives it its dies, in ascending
order; bytes written into device memory are there; a page that another function takes reads zero. The management cores read and
write memory that is no tenant's, and read a function's register block; TLBI of a page takes it out of the cache; a report that a
range is not mapped is kept with the record that asked for it. (Rests also on logs 79, 89 and 109, the model's own readings.) -/
def Obligations.RegisterWrites : Prop :=
  ∀ (s : State) (d j p f n x y z : Nat) (v : W64) (bs : List Byte) (e : AsidEntry) (pl : JobPlacement),
    let write (w : RegWrite) (P : State → Prop) : Prop :=
      (s.pkg w.package).runs w.agent = true → ∃ t, exec (.registerWrite { agent := w.agent, reg := w }) s = .next t ∧ P t
    let nothing (w : RegWrite) : Prop := write w fun t => t = s
    (∀ (w : RegWrite) (a : Agent), a ≠ w.agent ∨ (s.pkg w.package).runs a = false → exec (.registerWrite { agent := a, reg := w }) s = .next s)
    ∧ ((RegWrite.functionWord p f n v).agent = .rootMonitor ∧ (RegWrite.asid d n e).agent = .rootMonitor
      ∧ (RegWrite.coords p n x y z).agent = .rootMonitor ∧ (RegWrite.pageOwner n f).agent = .rootMonitor
      ∧ (∀ r, (RegWrite.dieReg d r v).agent = .fieldFirmware ∧ (∀ r, (RegWrite.jobReg d j r v).agent = .fieldFirmware))
      ∧ (RegWrite.mgmtWrite n bs).agent = .fieldFirmware ∧ (RegWrite.mgmtRead n x).agent = .fieldFirmware
      ∧ (RegWrite.unmapped d n).agent = .fieldFirmware ∧ (∀ i, (RegWrite.tlbi d i v).agent = .rootMonitor)
      ∧ (RegWrite.powerCap p v).agent = .fieldFirmware ∧ (RegWrite.cqBase p f v).agent = .host ∧ (RegWrite.windowBytes p f n bs).agent = .host)
    ∧ (∀ r, write (.dieReg d r v) fun t => OnlyDie s t d ∧ t.die d = match r with
      | .ageLimit => { s.die d with ageLimit := v &&& 0x7FFFFFFF#64 }
      | .preemptLimit => { s.die d with preemptLimit := v &&& 0xFFFFFFFF#64 }
      | .evovfBase => { s.die d with evovfBase := v &&& 0xFFFFFFFFFFFFFFC0#64 }
      | .evovfSize => { s.die d with evovfSize := v &&& 0xFFFFFFFF#64 }
      | .cimGate => { s.die d with cimGate := v &&& 0xFFFF#64 }
      | .reqTimeout => { s.die d with reqTimeout := v &&& 0xFFFFFFFF#64 })
    ∧ (∀ r, write (.jobReg d j r v) fun t => t.mem = s.mem ∧ (∀ a, a ≠ d → t.die a = s.die a)
        ∧ (∀ k, t.tile k = { s.tile k with preemptAt := (t.tile k).preemptAt })
        ∧ t.jobDie d j = match r with
          | .trapVec => { s.jobDie d j with trapVec := v &&& 0x0000FFFFFFFFFFFC#64 }
          | .trapArea => { s.jobDie d j with trapArea := v &&& 0x0000FFFFFFFFF000#64 }
          | .dmap => { s.jobDie d j with dmap := v &&& 0x00FFFFFFFFFFF000#64 }
          | .barRange => { s.jobDie d j with barRange := v &&& 0xFFFF#64 }
          | .layArea => { s.jobDie d j with layArea := v &&& 0xFFFFFFFF#64 }
          | .tileQuota => { s.jobDie d j with quota := v.toNat % 64 })
    ∧ write (.powerCap p v) (fun t => OnlyPkg s t p ∧ (t.pkg p).pwrCap = min 3600 (max 1200 (v.toNat / 65536 % 65536)))
    ∧ (f < 16 → (s.shares p f fun x => x.quads &&& v ≠ 0) = false →
      write (.functionWord p f 0 v) fun t => OnlyFunc s t p f ∧ t.func p f = { s.func p f with quads := v })
    ∧ (f < 16 → (s.shares p f fun x => asidsMeet x.asidWord v) = false →
      write (.functionWord p f 1 v) fun t => OnlyFunc s t p f ∧ t.func p f = { s.func p f with asidWord := v &&& 0x1FFFF#64 })
    ∧ (f < 16 → write (.functionWord p f 2 v) fun t => OnlyFunc s t p f
        ∧ t.func p f = { s.func p f with en := v.getLsbD 0 && !(s.pkg p).recovery })
    ∧ ((∃ g x, g ≠ f ∧ (g, x) ∈ (s.pkg p).funcs ∧ x.quads &&& v ≠ 0) → nothing (.functionWord p f 0 v))
    ∧ (f < 16 → (s.pkg p).recovery = false → write (.cqBase p f v) fun t => OnlyFunc s t p f ∧ t.func p f = { s.func p f with cqBase := v &&& 0xFFFFFFFFFFFFF000#64 })
    ∧ (f < 16 → (s.pkg p).recovery = false → n + bs.length ≤ 0x8000 → write (.windowBytes p f n bs) fun t => OnlyFunc s t p f
        ∧ ∀ i, Tab.get 0 (t.func p f).window i = if n ≤ i ∧ i < n + bs.length then bs.getD (i - n) 0 else Tab.get 0 (s.func p f).window i)
    ∧ (0x8000 < n + bs.length ∨ 16 ≤ f ∨ (s.pkg p).recovery = true → nothing (.windowBytes p f n bs))
    ∧ ((s.pkg p).recovery = true → nothing (.cqBase p f v))
    ∧ (16 ≤ f → nothing (.functionWord p f n v) ∧ nothing (.cqBase p f v) ∧ nothing (.pageOwner n f))
    ∧ (s.place (plainDie n) n bs.length = .mem n →
      write (.deviceBytes n bs) fun t => ∀ a, t.byte a = if n ≤ a ∧ a < n + bs.length then bs.getD (a - n) 0 else s.byte a)
    ∧ (n < 256 → e.fid < 16 →
      write (.asid d n e) fun t => OnlyDie s t d ∧ Tab.find? (t.die d).asids n = some e ∧ ∀ c ∈ (t.die d).cache, c.asid ≠ n)
    ∧ (256 ≤ n ∨ 16 ≤ e.fid → nothing (.asid d n e))
    ∧ (pl.job < 65536 → pl.fid < 16 → pl.asid < 256 →
      write (.place pl) fun t => t.job pl.job = { placed := true, fid := pl.fid, asid := pl.asid, dies := (t.job pl.job).dies }
        ∧ (t.job pl.job).dies.Pairwise (· < ·) ∧ (∀ k, k ∈ (t.job pl.job).dies ↔ k ∈ pl.dies)
        ∧ ∀ k ∈ pl.dies, (t.jobDie k pl.job).frames = pl.frames ∧ (t.jobDie k pl.job).saved = [] ∧ (t.jobDie k pl.job).unitsUsed = [])
    ∧ write (.resolver d n x) (fun t => OnlyDie s t d ∧ (Tab.get { target := 0, refs := 0 } (t.die d).resolver n).target = x)
    ∧ write (.pool d j [n, x]) (fun t => OnlyDie s t d ∧ (t.jobDie d j).pool = (s.jobDie d j).pool ++ [n, x])
    ∧ write (.ring d n x) (fun t => OnlyDie s t d ∧ Tab.get 0 (t.die d).rings n = x)
    ∧ write (.seqArea d n x) (fun t => OnlyDie s t d ∧ (t.die d).btBase = n ∧ (t.die d).btLen = x)
    ∧ (f < 16 → write (.pageOwner n f) fun t => Tab.find? t.owners n = some f
        ∧ ∀ a, t.byte a = if Tab.find? s.owners n ≠ some f ∧ n * 2 ^ 21 ≤ a ∧ a < (n + 1) * 2 ^ 21 then 0 else s.byte a)
    ∧ (∀ q : Parked, ∀ va, Tab.find? (s.die d).aside n = some q →
      (q.asked = some va → write (.unmapped d n) fun t => OnlyDie s t d ∧ Tab.find? (t.die d).aside n
        = some { q with asked := none, entry := { q.entry with reported := va :: q.entry.reported } })
      ∧ (q.asked = none → nothing (.unmapped d n)))
    ∧ (∀ q, s.place (plainDie n) n bs.length = .mem q →
      let tenant := s.foreign Config.managementFid q = true ∨ s.tenantSlice q = true
      (¬tenant → write (.mgmtWrite n bs) fun t => ∀ a, t.byte a = if q ≤ a ∧ a < q + bs.length then bs.getD (a - q) 0 else s.byte a)
      ∧ (tenant → nothing (.mgmtWrite n bs)))
    ∧ (let reply (P : Option (List Byte)) : Prop := write (.mgmtRead n x) fun t => OnlyPkg s t (plainDie n / 8)
          ∧ t.pkg (plainDie n / 8) = { s.pkg (plainDie n / 8) with mgmtReply := P }
      (∀ q, s.place (plainDie n) n x = .mem q →
        (s.foreign Config.managementFid q = false → s.tenantSlice q = false → reply (some (s.bytes q x)))
        ∧ (s.foreign Config.managementFid q = true ∨ s.tenantSlice q = true → reply none))
      ∧ (∀ off b c, s.place (plainDie n) n x = .hub off → hubPlace (hubOff off) = .block b c → reply (some (s.hubBytes (plainDie n / 8) off x))))
    ∧ write (.tlbi d 0 v) (fun t => OnlyDie s t d ∧ (t.die d).cache =
        (s.die d).cache.filter fun c => !(c.asid = v.toNat / 2 ^ 56 && c.page = v.toNat % 2 ^ 48 / 65536))
    ∧ write (.tlbi d 1 v) (fun t => OnlyDie s t d ∧ (t.die d).cache = (s.die d).cache.filter fun c => c.asid ≠ v.toNat % 256)
    ∧ write (.tlbi d 2 v) (fun t => OnlyDie s t d ∧ (t.die d).cache = [])
    ∧ (p < 1024 → write (.timeMaster p) fun t => t = { s with timeMaster := p })
    ∧ (p < 1024 → n < 1024 → x < 8 → y < 8 → z < 16 → s.pkgIdle p = true →
      (∀ q ∈ s.pkgs, q.1 ≠ p → q.2.member = true → (q.2.px, q.2.py, q.2.pz) ≠ (x, y, z)) → (n = p ∨ (s.pkg n).member = false) →
      write (.coords p n x y z) fun t => (t.pkg n).px = x ∧ (t.pkg n).py = y ∧ (t.pkg n).pz = z ∧ (t.pkg n).member = true
        ∧ (n = p → OnlyPkg s t p))
    ∧ (1024 ≤ n ∨ 8 ≤ x ∨ 8 ≤ y ∨ 16 ≤ z ∨ s.pkgIdle p = false
        ∨ (∃ q ∈ s.pkgs, q.1 ≠ p ∧ q.2.member = true ∧ (q.2.px, q.2.py, q.2.pz) = (x, y, z)) → nothing (.coords p n x y z))
    ∧ (x ≤ 8 → y ≤ 8 → z ≤ 16 → write (.grid x y z) fun t => t = { s with npx := x, npy := y, npz := z })

def slotOf (s : State) (p f n : Nat) : Slot := Tab.get {} (s.func p f).slots n

/-- The record in a slot passes the checks of R33, R38 and R50, and the level table has room for its launch. -/
def slotOk (s : State) (p f n : Nat) : Prop :=
  let bs := (s.func p f).slotBytes n
  let r := Rec.ofBytes bs
  s.checkRec p r ((s.job r.job).placed && decide ((s.job r.job).fid = f)) = .ok ∧ bytesAt bs 0x42 2 = 0 ∧ bytesAt bs 0x46 2 < 4
  ∧ bytesAt bs 0x50 44 = 0 ∧ bytesAt bs 0x40 2 + 1 ≤ 8192 * (s.maskDies p r).length ∧ s.levelRoom r = true

/-- The launch in a slot was accepted (R51 step 3): the slot may be rewritten, and the job has one more launch to register. -/
def Accepted (s t : State) (p f n : Nat) (v : W32) : Prop :=
  let bs := (s.func p f).slotBytes n
  let r := Rec.ofBytes bs
  slotOf t p f n = { stamp := some v }
  ∧ ∃ l, (t.job r.job).launches = (s.job r.job).launches ++ [l] ∧ l.pkg = p ∧ l.fid = f ∧ l.slot = n ∧ l.tmpl = r ∧ l.next = 0
    ∧ l.count = bytesAt bs 0x40 2 + 1 ∧ l.cqtag = BitVec.ofNat 32 (bytesAt bs 0x4C 4)

/-- The launch was refused as torn (R51, R52): BUSY is clear, status bit 1 is set, and an entry with the subcode is held or
written. -/
def Torn (s t : State) (p f n sub : Nat) : Prop :=
  (slotOf t p f n).busy = false ∧ (slotOf t p f n).torn = true ∧ (slotOf t p f n).notify = none
  ∧ ((s.func p f).cqCtl.getLsbD 17 = false →
    ∃ e, (t.func p f).held = (s.func p f).held ++ [e] ∧ e.status = 0x19 ∧ e.sub = sub ∧ e.slot = n
      ∧ e.cqtag = BitVec.ofNat 32 (bytesAt ((s.func p f).slotBytes n) 0x4C 4) ∧ e.done = 0 ∧ e.canc = 0)

/-- R38, R49 to R52, R272, R273: a notify is dropped, refused, compared or accepted; re-reads follow until the stamp matches or 64
have failed; an accepted launch registers its units one by one, each queued at its level on the die it is placed on; CQ_CTL
and CQ_HEAD take their fields, a held entry being written once the queue has room; a poisoned write is logged and changes
nothing else (R271). (Rests also on log 64,
the model's own readings.) -/
def Obligations.LaunchWindow : Prop :=
  ∀ (s : State) (p f n : Nat) (v : W32) (c : W64),
    let x := s.func p f
    let sl := slotOf s p f n
    let stamp := BitVec.ofNat 32 (bytesAt (x.slotBytes n) 0x7C 4)
    ((s.pkg p).recovery = false → f < 16 → n < 256 → (x.en = false ∨ x.flrb = true ∨ sl.busy = true) →
      ∃ t, exec (.launchNotify p f n v) s = .next t ∧ OnlyFunc s t p f ∧ slotOf t p f n = { sl with torn := true })
    ∧ ((s.pkg p).recovery = true ∨ 16 ≤ f ∨ 256 ≤ n → exec (.launchNotify p f n v) s = .next s)
    ∧ ((s.pkg p).recovery = false → f < 16 → n < 256 → x.en = true → x.flrb = false → sl.busy = false →
      (sl.stamp = some v → ∃ t, exec (.launchNotify p f n v) s = .next t ∧ Torn s t p f n 2)
      ∧ (sl.stamp ≠ some v → stamp ≠ v →
        ∃ t, exec (.launchNotify p f n v) s = .next t ∧ OnlyFunc s t p f ∧ slotOf t p f n = { sl with busy := true, notify := some (v, 63) })
      ∧ (sl.stamp ≠ some v → stamp = v → slotOk s p f n → ∃ t, exec (.launchNotify p f n v) s = .next t ∧ Accepted s t p f n v))
    ∧ (∀ m, sl.notify = some (v, m) → x.flrb = false →
      (stamp ≠ v → 0 < m →
        ∃ t, exec (.launchStampReread p f n) s = .next t ∧ OnlyFunc s t p f ∧ slotOf t p f n = { sl with notify := some (v, m - 1) })
      ∧ (stamp ≠ v → m = 0 → ∃ t, exec (.launchStampReread p f n) s = .next t ∧ Torn s t p f n 1)
      ∧ (stamp = v → slotOk s p f n → ∃ t, exec (.launchStampReread p f n) s = .next t ∧ Accepted s t p f n v))
    ∧ (∀ l d, (s.job l.tmpl.job).launches.find? (fun y => y.launch = l.launch && !y.waiting && !(s.func y.pkg y.fid).flrb) = some l →
      s.placeDie l.pkg none l.tmpl = some d → ancestorCancelled s l.tmpl.job 5 1 l.launch = false → s.queueFull d l.tmpl.prio = false → l.next + 1 < l.count →
      ∃ t e, exec (.launchUnitRegister l.tmpl.job l.launch) s = .next t
        ∧ t.queueAt d l.tmpl.prio = s.queueAt d l.tmpl.prio ++ [e] ∧ e.index = l.next ∧ e.die = d ∧ e.cr.launch = l.launch
        ∧ e.cr.code = l.tmpl.code ∧ e.cr.job = l.tmpl.job ∧ e.cr.enqt = BitVec.ofNat 32 (s.ptc d)
        ∧ (t.job l.tmpl.job).launches =
            (s.job l.tmpl.job).launches.map fun y => if y.launch = l.launch then { y with next := l.next + 1, told := false } else y)
    ∧ ((16 ≤ f ∨ (s.pkg p).recovery = true) → exec (.cqCtlWrite p f c) s = .next s ∧ exec (.cqHeadWrite p f v) s = .next s)
    ∧ (let w := c &&& 0xE001F#64
      let lg := w.toNat % 32
      let rises := w.getLsbD 17 && !x.cqCtl.getLsbD 17
      (w.getLsbD 17 = true → (lg < 6 ∨ 16 < lg) → ∃ t, exec (.cqCtlWrite p f c) s = .next t ∧ t = s)
      ∧ (f < 16 → (s.pkg p).recovery = false → (w.getLsbD 17 = true → 6 ≤ lg ∧ lg ≤ 16) →
        (x.held = [] → ∃ t, exec (.cqCtlWrite p f c) s = .next t ∧ OnlyFunc s t p f
          ∧ t.func p f = { x with cqCtl := w, cqN := if rises then 0 else x.cqN })
        ∧ (∀ e, rises = true → x.held = [e] → x.cqHead = 0 →
          ∃ t, exec (.cqCtlWrite p f c) s = .next t ∧ (t.func p f).held = [] ∧ (t.func p f).cqN = 1
            ∧ (t.func p f).msix = w.toNat / 262144 % 4 :: x.msix
            ∧ (List.range 32).map (fun i => t.hostByte ((x.cqBase.toNat / 4096 % 2 ^ 52) * 4096 + i)) = e.bytes 0 lg)))
    ∧ (f < 16 → (s.pkg p).recovery = false → x.held = [] → ∃ t, exec (.cqHeadWrite p f v) s = .next t ∧ OnlyFunc s t p f ∧ t.func p f = { x with cqHead := v })
    ∧ (16 ≤ f → exec (.poisonedWindowWrite p f n) s = .next s)
    ∧ (f < 16 → ∃ t, exec (.poisonedWindowWrite p f n) s = .next t ∧ OnlyPkg s t p ∧ t.pkg p = { s.pkg p with aer := (s.pkg p).aer ++ [(f, n)] })

/-! ## Reset, boot, attestation -/

/-- R250, R251, R419: a function-level reset sets FLRB, takes every tile of the function's quads out of its program at a cut
and discards what has not started; once the drain is over it frees the tiles and zeroes their CT, VS and MU registers, both CIM sets, the tags, the A-floor array and the
slice, returns the window's registers to
their reset values, keeps the slots' bytes and the HBM's, and clears FLRB. A drain that is not over changes nothing. (Rests also on log 54,
the model's own readings.) -/
def Obligations.FunctionReset : Prop :=
  ∀ (s : State) (p f : Nat),
    ((16 ≤ f ∨ (s.func p f).flrb = true) → exec (.flrInitiate p f) s = .next s)
    ∧ ((s.func p f).flrb = false → f < 16 → (∀ d, ∀ b ∈ (s.die d).bars, b.2.waiters = []) →
      ∃ t, exec (.flrInitiate p f) s = .next t ∧ (t.func p f).flrb = true
        ∧ ∀ k ∈ s.quadTiles p f, (s.tile k).status = .running ∨ (s.tile k).status = .draining →
          (t.tile k).status = .cutting .flr ∧ (t.tile k).vq = [] ∧ (t.tile k).mq = [] ∧ (t.tile k).cq = [])
    ∧ ((s.func p f).flrb = true → s.flrDrained p f = true →
      ∃ t, exec (.flrDrainDone p f) s = .next t
        ∧ t.func p f = { s.func p f with flrb := false, cqBase := 0, cqCtl := 0, cqHead := 0, cqN := 0, held := [], slots := [] }
        ∧ (∀ k ∈ s.quadTiles p f, (t.tile k).status = .idle
          ∧ (∀ n, (t.tile k).gReg n = 0 ∧ (t.tile k).fReg n = {} ∧ (t.tile k).dReg n = {} ∧ (t.tile k).token n = 0)
          ∧ (∀ n, Tab.get {} (t.tile k).m n = {} ∧ (t.tile k).zGet n = {} ∧ (n ≠ 0 → (t.tile k).kGet n = 0) ∧ Tab.get 0 (t.tile k).ix n = 0
            ∧ Tab.get 0 (t.tile k).tags n = 0 ∧ Tab.get 0 (t.tile k).b n = 0)
          ∧ (∀ a r n, (t.tile k).accVal a r n = 0) ∧ (∀ a r, a < 4 → r < 32 → (t.tile k).row a r = { floor := 0 })
          ∧ (∀ r, r < 32 → (t.tile k).floorAt r = 0)
          ∧ (t.tile k).swz = [] ∧ (t.tile k).fpc = 0 ∧ (∀ a, sliceBase k ≤ a → a < sliceBase k + 2 ^ 22 → t.byte a = 0))
        ∧ (∀ a, plainTier a = 0 → t.byte a = s.byte a)
        ∧ (∀ r ∈ t.reqs, ¬ (r.2.fid = f ∧ diePkg r.2.src = p)))
    ∧ ((s.func p f).flrb = true → s.flrDrained p f = false → ∃ t, exec (.flrDrainDone p f) s = .next t ∧ t = s)

/-- R273, R275, R276: at a package reset with nothing yet in flash, the ROM takes slot A, or slot B where A is refused; the
package is in recovery where both are, or where the field firmware is; the tiles come up with their registers zero. A header is 128 bytes: MAGIC,
SVN, LEN, DIGEST, SIG_R and reserved bytes; an image is refused for its signature, its digest, its SVN or a reserved byte.
The boot status is the last step that succeeded, and the dies come up only where the root monitor runs. An update is written to the inactive slot and leaves the
running measurements; the fused minimum rises only to the running image's SVN. (Rests also on logs 8, 52, 53, 88,
the model's own readings.) -/
def Obligations.BootAndUpdate : Prop :=
  (∀ (i : FwImage) (n : Nat),
    let field (o len : Nat) : Nat := leNat ((i.bytes.drop o).take len)
    let body := (i.bytes.drop 0xB0).take (field 8 8)
    i.accepted n = true ↔ field 0 4 = 0x47494D49 ∧ body.length = field 8 8
      ∧ Config.signatureHolds (i.bytes.take 0x40) (field 0x40 48) (field 0x80 48) = true ∧ Config.sha384 body = field 0x10 48
      ∧ n ≤ field 4 4 ∧ field 0x70 16 = 0)
  ∧ ∀ (s : State) (p svn : Nat) (a b f : FwImage) (k : Nat) (root : Bool),
    let x := s.pkg p
    let ok (i : FwImage) : Prop := i.accepted x.fusedSvn = true
    (x.slotA = none → x.slotB = none → x.fieldA = none → x.fieldB = none → x.rootFirstB = false → x.fieldFirstB = false →
      ∃ t, exec (.packageReset p a b f) s = .next t
        ∧ (ok a → ok f → (t.pkg p).recovery = false ∧ (t.pkg p).rootActiveB = false ∧ (t.pkg p).meas1 = a.digest
          ∧ (t.pkg p).meas2 = f.digest ∧ (t.pkg p).runningSvn = a.svn)
        ∧ (¬ ok a → ok b → ok f → (t.pkg p).recovery = false ∧ (t.pkg p).rootActiveB = true ∧ (t.pkg p).meas1 = b.digest
          ∧ (t.pkg p).meas2 = f.digest ∧ (t.pkg p).runningSvn = b.svn)
        ∧ ((¬ ok a ∧ ¬ ok b) ∨ ¬ ok f → (t.pkg p).recovery = true)
        ∧ (t.pkg p).bootStatus = (if ¬ ok a ∧ ¬ ok b then 0 else if ¬ ok f then 3 else 5)
        ∧ (∀ e, diePkg e = p → (t.die e).powered = decide (ok a ∨ ok b))
        ∧ (diePkg (tileDie k) = p → (t.tile k).status = .idle ∧ (∀ n, (t.tile k).gReg n = 0) ∧ (t.tile k).fpc = 0)
        ∧ (∀ q, t.byte q = s.byte q))
    ∧ (∃ t, exec (.firmwareUpdate p a root) s = .next t ∧ OnlyPkg s t p ∧ (t.pkg p).meas1 = x.meas1 ∧ (t.pkg p).meas2 = x.meas2
        ∧ (¬ ok a → t.pkg p = x)
        ∧ (ok a → match root with
          | true => (if x.rootActiveB then (t.pkg p).slotA else (t.pkg p).slotB) = some a ∧ (t.pkg p).rootFirstB = !x.rootActiveB
          | false => (if x.fieldActiveB then (t.pkg p).fieldA else (t.pkg p).fieldB) = some a ∧ (t.pkg p).fieldFirstB = !x.fieldActiveB))
    ∧ (∃ t, exec (.svnCommit p svn) s = .next t ∧ OnlyPkg s t p
        ∧ (t.pkg p).fusedSvn = if svn = x.runningSvn ∧ x.fusedSvn < svn then svn else x.fusedSvn)

/-- R273, R277: every request on a function's mailbox has its answer at once: the seven supported ones as the rule gives, a
measurement by its index, any other unsupported. Every request during the function's reset waits for its end. In recovery the PF's
mailbox alone answers, and there are 16 functions. (Rests also on log 51,
the model's own readings.) -/
def Obligations.Attestation : Prop :=
  ∀ (s : State) (p f : Nat) (n : Nat),
    let requests : List (Instr × Nat × Nat) := [(.getVersion p f, 0, 0), (.getCapabilities p f, 1, 0), (.negotiateAlgorithms p f n, 2, n),
      (.getDigests p f, 3, 0), (.getCertificate p f, 4, 0), (.challenge p f n, 5, n), (.getMeasurements p f n, 6, n), (.spdmUnsupported p f n, 7 + n, 0)]
    let open_ := f < 16 ∧ ((s.pkg p).recovery = false ∨ f = 0)
    let answers (i : Instr) (P : SpdmAnswer → Prop) : Prop :=
      ∃ t a, exec i s = .next t ∧ (t.pkg p).spdm = (s.pkg p).spdm ++ [(f, a)] ∧ P a ∧ t.func p f = s.func p f
    (¬open_ → ∀ r ∈ requests, exec r.1 s = .next s)
    ∧ (open_ → (s.func p f).flrb = false →
      answers (.getVersion p f) (fun a => a.ok = true) ∧ answers (.getCapabilities p f) (fun a => a.ok = true)
      ∧ answers (.negotiateAlgorithms p f n) (fun a => a.ok = decide (n % 2 = 1))
      ∧ answers (.getDigests p f) (fun a => a.ok = true) ∧ answers (.getCertificate p f) (fun a => a.ok = true)
      ∧ answers (.challenge p f n) (fun a => a.ok = true ∧ a.words.head? = some n)
      ∧ answers (.getMeasurements p f 1) (fun a => a.ok = true ∧ a.words.head? = some (s.pkg p).meas1)
      ∧ answers (.getMeasurements p f 2) (fun a => a.ok = true ∧ a.words.head? = some (s.pkg p).meas2)
      ∧ answers (.getMeasurements p f 3) (fun a => a.ok = true
          ∧ a.words.take 3 = [(s.pkg p).fusedSvn, (s.capReg (256 * p) 0).toNat, (s.capReg (256 * p) 1).toNat])
      ∧ answers (.getMeasurements p f 4) (fun a => a.ok = true
          ∧ a.words.take 3 = [(s.func p f).quads.toNat, ((s.func p f).asidWord &&& 0x1FFFF#64).toNat, if (s.func p f).en then 1 else 0])
      ∧ (n = 0 ∨ 4 < n → answers (.getMeasurements p f n) (fun a => a.ok = false))
      ∧ answers (.spdmUnsupported p f n) (fun a => a.ok = false))
    ∧ (open_ → (s.func p f).flrb = true → ∀ r ∈ requests,
      ∃ t, exec r.1 s = .next t ∧ OnlyPkg s t p ∧ t.pkg p = { s.pkg p with spdmWait := (s.pkg p).spdmWait ++ [(f, r.2)] })

/-! ## Clocks, power, heat and the scrubber -/

/-- R18, R192, R270, R278, R279, R345: a die's clock goes on from where it stands when its period changes; a junction past 105 °C
halves its rate, below 100 °C restores it, past 115 °C ends the die, by whichever event it is reported; a power window ends
1 ms or more after the package's start, with an average no higher than a cap held in its last 1 ms, which it records, and spreads its stretch over the dies that run units. The scrubber's write-back is dropped where the sector's version has moved; a sector
that cannot be corrected gives a damage entry of kind 2, one of a weight set is marked bad for the MMUL that reads it. No byte of memory changes. (Rests also on logs 24, 33, 90, 94,
the model's own readings.) -/
def Obligations.ClocksAndScrub : Prop :=
  ∀ (s : State) (d p n m : Nat),
    let quiet (i : Instr) (P : State → Prop) : Prop := ∃ t, exec i s = .next t ∧ t.mem = s.mem ∧ t.tiles = s.tiles ∧ P t
    let key := mkPlain d 0 (256 * n) / 256
    let heat (i : Instr) : Prop := quiet i fun t =>
      (t.die d).half = (decide (105 < n) || ((s.die d).half && decide (100 ≤ n))) ∧ (t.die d).temp = n ∧ t.dcc d = s.dcc d
      ∧ (105 < n → (s.die d).stretch = 0 → (s.die d).power = 0 → ∀ c, (t.elapse c 0).dcc d = s.dcc d + c * 256 / 512)
      ∧ (115 < n → (t.die d).powered = false ∧ d ∈ t.lost) ∧ (n ≤ 115 → (t.die d).powered = (s.die d).powered ∧ t.lost = s.lost)
    quiet (.droopStretch d n) (fun t => (t.die d).stretch = n ∧ t.dcc d = s.dcc d)
    ∧ (s.capHigh p < n ∨ s.hubPtc p < (s.pkg p).pwrAt + 1000000 → exec (.powerWindow p n m) s = .next s)
    ∧ (n ≤ s.capHigh p → (s.pkg p).pwrAt + 1000000 ≤ s.hubPtc p →
      quiet (.powerWindow p n m) fun t => (t.pkg p).pwrAvg = min n 65535 ∧ (t.pkg p).pwrStr = min m 255
        ∧ ∀ e ∈ pkgDies p, t.dcc e = s.dcc e ∧ (t.die e).power = if s.runsUnits e then min m 255 else 0)
    ∧ heat (.thermalHalfRate d n) ∧ heat (.thermalRecover d n) ∧ heat (.thermalShutdown d n)
    ∧ (n < 2 ^ 15 →
      exec (.scrubRead d (2 ^ 32 + 2 ^ 19 + n) true) s = .next s
      ∧ ∃ t, exec (.scrubRead d (2 ^ 32 + 2 ^ 19 + n) false) s = .next t ∧ n % 1024 ∈ (t.tile (32 * d + n / 1024)).badB ∧ t.mem = s.mem)
    ∧ (n < 2 ^ 32 + 2 ^ 19 →
      quiet (.scrubRead d n true) (fun t => Tab.find? (t.die d).scrubs key = some (Tab.get 0 (s.die d).versions key))
      ∧ (∃ t e, exec (.scrubRead d n false) s = .next t ∧ (t.die d).damage = (s.die d).damage ++ [e] ∧ e.kind = 2 ∧ e.cls = 0x13
        ∧ e.plain = s.plainName (256 * key) ∧ e.len = 256 ∧ key ∈ (t.die d).badSectors))
    ∧ (∀ v, Tab.find? (s.die d).scrubs key = some v →
      quiet (.scrubWriteback d n) fun t => Tab.find? (t.die d).scrubs key =
        if v = Tab.get 0 (s.die d).versions key then none else some (Tab.get 0 (s.die d).versions key))

/-! ## The scheduler and the field firmware -/

/-- A tile runs with nothing under way, so that a cut at its next word is taken at once. -/
def AtRest (s : State) (k : Nat) : Prop :=
  let t := s.tile k
  Quiet t ∧ t.status = .running ∧ t.vs = none ∧ t.started = [] ∧ t.wait = none ∧ t.pfx = none ∧ t.takers = []
  ∧ ∀ b ∈ (s.die (tileDie k)).bars, ∀ w ∈ b.2.waiters, w.tile ≠ k

/-- The unit of tile k was saved whole into frame n (R56): its registers are there, its record waits at the tail of its level,
marked to resume on this tile, and the tile is free. -/
def SavedWhole (s t : State) (k n : Nat) : Prop :=
  let d := tileDie k
  let a := s.tile k
  (t.tile k).status = .idle
  ∧ (∃ v, Tab.find? (t.jobDie d (s.jobOf k)).saved n = some v ∧ v.trap = none ∧ v.tile.g = a.g ∧ v.tile.f = a.f ∧ v.tile.q = a.q
    ∧ v.tile.d = a.d ∧ v.tile.pc = a.pc ∧ v.tile.clause = a.clause ∧ v.tile.fpc = a.fpc ∧ v.tile.tokens = a.tokens
    ∧ v.tile.m = a.m ∧ v.tile.z = a.z ∧ v.tile.acc = a.acc)
  ∧ ∃ e, t.queueAt d a.entry.cr.prio = s.queueAt d a.entry.cr.prio ++ [e] ∧ e.frame = some n ∧ e.cr.code = a.entry.cr.code
    ∧ e.cr.flags = a.entry.cr.flags ||| (if a.cancelAt.isSome then 0x2C else 0xC)
    ∧ e.cr.tileMask = BitVec.ofNat 32 (2 ^ tileNum k) ∧ e.cr.dieMask = BitVec.ofNat 8 (2 ^ dieNum d)

/-- A queued record could be popped now: a tile of the die admits it, its job being below its quota, or it is a cancelled one that
may be discarded. `k` is the tile that it takes. -/
def Dispatchable (s : State) (d : Nat) (e : Entry) (k : Nat) : Prop :=
  k ∈ dieTiles d ∧ (s.tile k).isIdle = true ∧ s.admits e.cr k = true ∧ s.held d e.cr.job < s.quota d e.cr.job
  ∧ (s.func (diePkg d) (s.job e.cr.job).fid).flrb = false ∧ (e.cr.isCanc = true → s.discardable d e = true)

/-- R39: a pop takes, of the levels in the order in which the die lists them, the last that holds a dispatchable record, the oldest
such record there, and a tile that the record admits; the levels are listed by rising priority; no pop is made only where no record
is dispatchable. -/
def popRule : Prop :=
  ∀ (s : State) (d : Nat),
    (∀ p e k, s.popChoice d = some (p, e, k) → Dispatchable s d e k
      ∧ ∃ below above older younger, (s.die d).queues = below ++ (p, older ++ e :: younger) :: above
        ∧ (∀ x ∈ older, ∀ n, ¬ Dispatchable s d x n) ∧ (∀ l ∈ above, ∀ x ∈ l.2, ∀ n, ¬ Dispatchable s d x n)
        ∧ (((s.die d).queues.map Prod.fst).Pairwise (· < ·) → (∀ l ∈ above, p < l.1) ∧ s.queueAt d p = older ++ e :: younger))
    ∧ (s.popChoice d = none → ∀ l ∈ (s.die d).queues, ∀ x ∈ l.2, ∀ n, ¬ Dispatchable s d x n)
    ∧ (((s.die d).queues.map Prod.fst).Pairwise (· < ·) →
      (∀ p l, (((s.setQueueAt d p l).die d).queues.map Prod.fst).Pairwise (· < ·)))

/-- The records that age, in one visit to a level of `l` records: those due leave it and join level `q`, raised, oldest first. -/
def agedPart (s : State) (d : Nat) (l : List Entry) (q : Nat) : List Entry :=
  (l.filter fun e => s.agedNow d e.cr && decide (min (e.cr.prio + 16) 255 = q)).map Entry.raised

/-- R40: an aging sweep of a die without cancelled records raises each record that is due by 16 levels, at most to 255, sets AGED,
and puts it at the tail of its new level, and every other record keeps its place: with the levels of the records' own priorities,
level q holds what of it is not due, and then what is raised into it, highest level and oldest record first. -/
def agingRule : Prop :=
  ∀ (s : State) (d : Nat), ((s.die d).queues.map Prod.fst).Pairwise (· < ·) →
    (∀ l ∈ (s.die d).queues, l.2.Nodup ∧ l.1 ≤ 255 ∧ ∀ e ∈ l.2, e.cr.isCanc = false ∧ e.cr.prio = l.1) →
    ∃ t, exec (.agingSweep d) s = .next t ∧ ∀ q, q ≤ 255 →
      t.queueAt d q = ((s.queueAt d q).filter fun e => !s.agedNow d e.cr)
        ++ (s.die d).queues.reverse.flatMap fun l => agedPart s d l.2 q

/-- R30, R34, R39, R40, R44, R54, R56: a pop starts the oldest dispatchable record of the highest level on the tile, with the
registers of R34 and no byte of memory changed; a page in migration sets the record aside, and so does one
that is not mapped, which the field firmware is asked to supply; it comes back at the head of its level once its footprint is
there, or the firmware has reported the page; aging raises a record by 16; a pre-emption becomes pending with its time; past its limit the unit is saved into a free
frame, or the firmware is told once that there is none; past its limit a cancel ends the unit, counted cancelled. (Rests also on logs 10, 39, 77, 81,
the model's own readings.) -/
def Obligations.Scheduling : Prop :=
  popRule ∧ agingRule ∧ ∀ (s : State) (d k i : Nat) (e : Entry),
    (∀ p, s.popChoice d = some (p, e, k) → (∀ x ∈ s.queueAt d p, s.agedNow d x.cr = false) → e.cr.isCanc = false → e.frame = none →
      tileDie k = d →
      (∀ es, s.translate d (s.job e.cr.job).asid e.cr = .ok es → bit e.cr.flags 2 = false →
        ∃ t, exec (.dispatch d) s = .next t ∧ t.queueAt d p = (s.queueAt d p).erase e ∧ (t.tile k).status = .running
          ∧ (t.tile k).entry = { e with reported := [] } ∧ (t.tile k).pc = e.cr.code ∧ (t.tile k).exts = es ∧ (t.tile k).clause = 0 ∧ (t.tile k).fpc = 0
          ∧ (∀ n, (t.tile k).gReg n = match n with
              | 1 => e.cr.state
              | 2 => BitVec.ofNat 64 e.index
              | 3 => e.cr.frame
              | _ => 0)
          ∧ (∀ n, (t.tile k).fReg n = {} ∧ (t.tile k).token n = 0 ∧ (t.tile k).qReg (n + 1) = false)
          ∧ ∀ a, t.byte a = s.byte a)
      ∧ (∀ va, s.translate d (s.job e.cr.job).asid e.cr = .migrating va →
        ∃ t, exec (.dispatch d) s = .next t ∧ t.queueAt d p = (s.queueAt d p).erase e
          ∧ (∀ n, ∃ b, t.tile n = { s.tile n with preemptAt := b }) ∧ Tab.find? (t.die d).aside s.nextId = some { entry := e })
      ∧ (∀ va, s.translate d (s.job e.cr.job).asid e.cr = .unmapped va → va ∉ e.reported →
        ∃ t, exec (.dispatch d) s = .next t ∧ t.queueAt d p = (s.queueAt d p).erase e
          ∧ (∀ n, ∃ b, t.tile n = { s.tile n with preemptAt := b }) ∧ Tab.find? (t.die d).aside s.nextId = some { entry := e, asked := some va }
          ∧ (t.die d).mailbox = (s.die d).mailbox ++ [{ kind := 3, job := e.cr.job, what := va }]))
    ∧ ((s.die d).queues = [(e.cr.prio, [e])] → e.cr.prio ≤ 255 → e.cr.isCanc = false → s.agedNow d e.cr = true →
      ∃ t, exec (.agingSweep d) s = .next t
        ∧ t.queueAt d (min (e.cr.prio + 16) 255) =
            [{ e with cr := { e.cr with prio := min (e.cr.prio + 16) 255, flags := e.cr.flags ||| 0x10 } }])
    ∧ (∀ x, Tab.find? (s.die d).aside i = some x → x.entry.cr.isCanc = false →
      let foot := s.translate d (s.job x.entry.cr.job).asid x.entry.cr
      ((∃ es, foot = .ok es) ∨ (∃ va, foot = .fault va ∨ (foot = .unmapped va ∧ va ∈ x.entry.reported)) →
        ∃ t, exec (.translationComplete d i) s = .next t ∧ Tab.find? (t.die d).aside i = none
          ∧ t.queueAt d x.entry.cr.prio = x.entry :: s.queueAt d x.entry.cr.prio)
      ∧ (∀ va, foot = .migrating va ∨ (foot = .unmapped va ∧ va ∉ x.entry.reported ∧ x.asked = some va) →
        exec (.translationComplete d i) s = .next s))
    ∧ ((s.tile k).status = .running →
      ∃ t, exec (.firmwarePreempt k) s = .next t
        ∧ t = s.setTile k { s.tile k with preemptAt := some ((s.tile k).preemptAt.getD (s.ptc (tileDie k))) })
    ∧ (∀ b, AtRest s k → (s.tile k).preemptAt = some b →
      let lim := fld (s.die (tileDie k)).preemptLimit 0 32
      (lim = 0 ∨ s.ptc (tileDie k) < b + lim → exec (.forcedSave k) s = .next s)
      ∧ (lim ≠ 0 → b + lim ≤ s.ptc (tileDie k) →
        (0 < s.framesFree (tileDie k) (s.jobOf k) →
          ∀ w, (w = Instr.forcedSave k ∨ (w = .contextFrameFree k ∧ (s.tile k).saveAsked = true)) →
          ∃ t n, exec w s = .next t ∧ Tab.find? (s.jobDie (tileDie k) (s.jobOf k)).saved n = none ∧ SavedWhole s t k n)
        ∧ (s.framesFree (tileDie k) (s.jobOf k) = 0 → (s.tile k).saveAsked = false →
          ∃ t, exec (.forcedSave k) s = .next t ∧ t.tile k = { s.tile k with saveAsked := true }
            ∧ (t.die (tileDie k)).mailbox = (s.die (tileDie k)).mailbox ++ [{ kind := 0, job := s.jobOf k }])))
    ∧ (∀ b x, AtRest s k → (s.tile k).cancelAt = some b → b + fld (s.die (tileDie k)).preemptLimit 0 32 ≤ s.ptc (tileDie k) →
      let r := (s.tile k).entry.cr
      let home := s.homeDie r.job
      bit r.flags 0 = false → bit r.flags 1 = false →
      (home = tileDie k → s.findLevel r.job 1 r.launch = some x → 1 < x.count →
        ∃ t, exec (.cancelLimitExpiry k) s = .next t ∧ (t.tile k).status = .idle
          ∧ t.findLevel r.job 1 r.launch = some { x with count := x.count - 1, canc := x.canc + 1 })
      ∧ (home ≠ tileDie k → home ∉ (s.die (tileDie k)).unreachable →
        ∃ t n w, exec (.cancelLimitExpiry k) s = .next t ∧ (t.tile k).status = .idle ∧ Tab.find? t.reqs n = some w
          ∧ w.op = .count r true ∧ w.src = tileDie k ∧ w.dst = home))

/-- R25, R30, R46 to R48: a wait presented again ends where its count is met and joins the list where it is not; a held signal is
added to its event once there is room, and the waiters it meets leave; a closed job with nothing outstanding ends, and one with
work outstanding ends later; a cancelled job cancels its units. (Rests also on log 61,
the model's own readings.) -/
def Obligations.FirmwareWork : Prop :=
  ∀ (s : State) (d i j : Nat),
    (∀ x, Tab.find? (s.die d).fwParked i = some x → x.launch = none → x.entry.cr.isCanc = false →
      let e := s.eventAt d x.event
      (x.thr ≤ e.count → ∃ t y, exec (.eventWaitRepresent d i) s = .next t ∧ Tab.find? (t.die d).fwParked i = none
        ∧ t.queueAt x.entry.die x.entry.cr.prio = s.queueAt x.entry.die x.entry.cr.prio ++ [y] ∧ y.cr.code = x.entry.cr.code
        ∧ y.ext = x.entry.ext)
      ∧ (e.count < x.thr → s.waiterRoom d x.event →
        ∃ t, exec (.eventWaitRepresent d i) s = .next t ∧ Tab.find? (t.die d).fwParked i = none
          ∧ t.eventAt d x.event = { e with waiters := e.waiters ++ [.unit x.entry x.thr] })
      ∧ (e.count < x.thr → s.waiterRoom d x.event = false → exec (.eventWaitRepresent d i) s = .next s))
    ∧ (∀ g r, (s.die d).pending = g :: r → (∀ q ∈ s.reqs, q.2.kept = false) →
      (∀ x ∈ s.dies, ∀ y ∈ x.2.levels, y.closed = true → y.count ≠ 0) →
      let key := evKey g.job g.name
      let e := s.eventAt d key
      let c := min (e.count + g.n) 0xFFFFFFFF
      (s.eventRoom d key → ∃ t, exec (.pendingSignalApply d) s = .next t ∧ (t.die d).pending = r
        ∧ t.eventAt d key = { count := c, waiters := e.waiters.filter fun w => decide (c < w.thr) })
      ∧ (s.eventRoom d key = false → exec (.pendingSignalApply d) s = .next s))
    ∧ ((s.job j).placed = true →
      ((s.findLevel j 4 j = none ∨ ∃ x, s.findLevel j 4 j = some x ∧ x.count = 0 ∧ x.event = none) →
        ∃ t, exec (.jobClose j) s = .next t ∧ (t.job j).placed = false ∧ (t.job j).dies = (s.job j).dies)
      ∧ (∀ x, s.findLevel j 4 j = some x → x.count ≠ 0 →
        ∃ t, exec (.jobClose j) s = .next t ∧ t.job j = { s.job j with closed := true }
          ∧ t.findLevel j 4 j = some { x with closed := true })
      ∧ (∀ x, s.findLevel j 4 j = some x → (∀ y ∈ (s.die (s.homeDie j)).levels, y.job = j → y.level ≠ 2 ∧ y.level ≠ 3) →
        (∀ c ∈ (s.job j).dies, (s.die c).events = [] ∧ ∀ k ∈ dieTiles c, (s.tile k).status = .idle ∨ (s.tile k).status = .running) →
        ∃ t, exec (.jobCancel j) s = .next t ∧ (t.job j).cancelled = true ∧ t.findLevel j 4 j = some { x with cancelled := true }
          ∧ ∀ c ∈ (s.job j).dies, ∀ k ∈ dieTiles c, (s.tile k).status = .running → s.jobOf k = j →
              isUnder s j 4 j 5 1 (s.tile k).entry.cr.launch = true → (t.tile k).cancelAt.isSome = true))

/-! ## The engines of a tile -/

/-- Nothing of the tile's journal, of its reports, or of CHK comes between two steps of its engines. -/
def EngineQuiet (t : Tile) : Prop := t.journal = [] ∧ t.reports = [] ∧ t.status = .running ∧ t.chk = false

/-- The queue that a COMMAND_START names by number. -/
def queueNo (n : Nat) : Queue := if n = 0 then .vq else if n = 1 then .mq else .cq

/-- R61, R62, R66, R67, R72, R254, R341, R372, R398: the oldest command of a queue, with no edge left and its gate token there,
takes the token, leaves the queue and starts, and LS is its number; a token that is not there is waited for in the token's list.
VBASE and VSEND have their effect; a VRUN starts its table at body step 0; a command complete leaves the started ones, joins its
flags to FPC and signals its completion token, the signal counting before what has been taken in the same cycle; MCLR clears its rows in 4 + r cycles. (Rests also on logs 47, 68,
the model's own readings.) -/
def Obligations.CommandSteps : Prop :=
  ∀ (s : State) (k qn pos : Nat) (c : Cmd) (rest : List Cmd),
    let t := s.tile k
    let q := queueNo qn
    let dcc := s.dcc (tileDie k)
    EngineQuiet t →
    (t.getQ q = c :: rest → Queue.slotOf c.kind = q → t.unresolved c = false → c.time = 0 → c.unstamped = false → c.gateTaken = false →
      c.gateSince = none →
      let started (u : State) : Prop := (u.tile k).lsNum q = c.seq ∧ ((u.tile k).getQ q).map (fun x => x.pos) = rest.map (fun x => x.pos)
        ∧ (∀ n, (u.tile k).token n = if c.gate = some n then t.token n - 1 else t.token n)
      let joins (u : State) : Prop := ∃ x, (u.tile k).started = t.started ++ [x] ∧ x.kind = c.kind ∧ x.pos = c.pos ∧ x.seq = c.seq ∧ x.startedAt = dcc
      let run (P : State → Prop) : Prop := ∃ u, exec (.commandStart k qn c.seq.toNat) s = .next u ∧ started u ∧ P u
      (c.gate = none ∨ (∃ n, c.gate = some n ∧ t.canTake n 1 = true)) →
        ((c.kind = .mclr ∨ c.kind = .mshr ∨ c.kind = .vbaseL) → run joins)
        ∧ (c.kind = .vbase → run fun u => joins u ∧ (u.tile k).vbase = BitVec.ofNat 14 (c.p0.toNat / 65536)
            ∧ ∀ i, Tab.get {} (u.tile k).m i = if c.p0.toNat % 65536 / 2 ^ (i / 4096) % 2 = 0 then Tab.get {} t.m i else {})
        ∧ (c.kind = .vsend → fld c.p0 28 2 = 0 → run fun u => joins u
            ∧ (u.tile k).zGet (fld c.p0 16 4) = { val := c.p1.setWidth 32, tag := storeCount (c.p1.setWidth 32) (fld c.p0 23 5) })
        ∧ (c.kind = .vrun → t.vs = none → run fun u => ∃ v, (u.tile k).vs = some v ∧ v.cmd.pos = c.pos ∧ v.upc = 0 ∧ v.pass = 0
            ∧ v.body = t.vbase.toNat + fld c.p0 0 14 + 2 ∧ v.levels = []))
    ∧ (∀ n, t.getQ q = c :: rest → t.unresolved c = false → c.time = 0 → c.gate = some n → c.gateTaken = false → c.gateSince = none →
        t.canTake n 1 = false → c.sets = [] →
      ∃ u, exec (.commandStart k qn c.seq.toNat) s = .next u ∧ Tab.get [] (u.tile k).takers n = Tab.get [] t.takers n ++ [.gate c.pos]
        ∧ (u.tile k).token n = t.token n ∧ (u.tile k).started = t.started ∧ ((u.tile k).getQ q).map (fun x => x.pos) = c.pos :: rest.map fun x => x.pos)
    ∧ ((t.getQ q = c :: rest → t.unresolved c = true → c.sets = [] → exec (.commandStart k qn c.seq.toNat) s = .next s)
    ∧ (t.started.find? (fun x => x.pos = pos) = some c → (t.vs.map fun v => v.cmd.pos) ≠ some pos → c.late = false → c.legs = 0 →
      let ends (u : State) : Prop := (u.tile k).started = t.started.filter (fun x => x.pos ≠ c.pos) ∧ (u.tile k).fpc = t.fpc ||| BitVec.ofNat 64 c.flags
        ∧ ∀ n, c.comp = some n → Tab.get [] t.takers n = [] →
          (u.tile k).token n = min (t.token n + t.takenNow dcc n + 1) 0xFFFF - t.takenNow dcc n
      ((c.kind = .vbase ∨ c.kind = .vsend ∨ c.kind = .wdef ∨ c.kind = .xpat) → ∃ u, exec (.commandComplete k pos) s = .next u ∧ ends u)
      ∧ (c.kind = .mclr →
        (dcc < c.startedAt + 4 + rowsOf c.p0 → exec (.commandComplete k pos) s = .next s)
        ∧ (c.startedAt + 4 + rowsOf c.p0 ≤ dcc → ∃ u, exec (.commandComplete k pos) s = .next u ∧ ends u
          ∧ ∀ r, row0Of c.p0 ≤ r → r < row0Of c.p0 + rowsOf c.p0 →
              (u.tile k).row (accOf c.p0) r = {} ∧ ∀ n, n < 256 → (u.tile k).accVal (accOf c.p0) r n = 0))))
    ∧ (∀ v, t.vs = some v → v.cmd.pos = pos →
      (v.done = true → ∃ u, exec (.commandComplete k pos) s = .next u ∧ (u.tile k).vs = none
        ∧ (u.tile k).fpc = t.fpc ||| BitVec.ofNat 64 v.flags
        ∧ ∀ n, v.cmd.comp = some n → Tab.get [] t.takers n = [] →
          (u.tile k).token n = min (t.token n + t.takenNow dcc n + 1) 0xFFFF - t.takenNow dcc n)
      ∧ (v.done = false → v.halt = false → exec (.commandComplete k pos) s = .next s))

/-- R143, R147, R148, R168 to R170, R262: a chunk of an MMUL commits, for every row and column, the accumulator plus the exact sum of
products, held between -(2^79 - 1) and 2^79 - 1 with OVF where it was held, and INV and FLOOR as the rule gives, or, where a sector
of its weight set is bad, ends its MMUL with UNCORRECTABLE (R345); a stream record's
next entry takes 64 elements in order, +0 with tag 31 past the last, or is marked with the fault of the first that cannot be
read; an idle set is gated, its weights unchanged; a wake ends; the fault of a late leg is reported to its unit, a
HEXCH whose faces have all failed being complete with it (R323). (Rests also on logs 94 and 108, the model's own readings.) -/
def Obligations.EngineEvents : Prop :=
  ∀ (s : State) (k i rc pos : Nat) (c : Cmd),
    let t := s.tile k
    let dcc := s.dcc (tileDie k)
    (∀ A : Nat → Nat → Int, t.started.find? (fun x => x.kind == CmdKind.mmul && decide (x.chunk < x.chunks)) = some c →
      c.startedAt + (c.chunk - c.elem + 1) * t.chunkCycles c + 12 ≤ dcc →
      let set := if c.chunk = 0 then setOf c.p0 else 1 - setOf c.p0
      let ka := kRows (t.bCode (setOf c.p0))
      let a := accOf c.p0
      kRows (t.bCode set) = ka →
      (∀ j, j < rowsOf c.p0 → ∀ n, n < ka → s.aElem k c.m0 ((j * c.chunks + c.chunk) * ka + n) = .ok (A j n)
        ∧ s.aSwizzle k c.m0 ((j * c.chunks + c.chunk) * ka + n) = none) → (∀ e ∈ t.exts, e.revoked = false) →
      (t.setBad set = true → exec (.mmulChunkCommit k) s = .next (s.endCmd k c { cls := Cls.uncorrectable, src := 2, inSet := true }))
      ∧ (t.setBad set = false → ∃ u, exec (.mmulChunkCommit k) s = .next u ∧ (u.tile k).b = t.b ∧ (u.tile k).token = t.token
        ∧ (∀ j, j < rowsOf c.p0 →
          let sum (n : Nat) : Int := t.accVal a j n + ((List.range ka).map fun r => A j r * (t.weightRow set r).getD n 0).sum
          (∀ n, n < 256 → (u.tile k).accVal a j n = max (-(2 ^ 79 - 1)) (min (2 ^ 79 - 1) (sum n)))
          ∧ ((u.tile k).row a j).ovf = ((t.row a j).ovf || (List.range 256).any fun n => decide (sum n < -(2 ^ 79 - 1) ∨ 2 ^ 79 - 1 < sum n))
          ∧ ((u.tile k).row a j).inv = ((t.row a j).inv || t.setReserved set) ∧ ((u.tile k).row a j).floor = min (t.row a j).floor (t.floorAt j))
        ∧ (∀ b j n, b < 4 → j < 32 → n < 256 → (b ≠ a ∨ rowsOf c.p0 ≤ j) → (u.tile k).accVal b j n = t.accVal b j n)
        ∧ ∃ x ∈ (u.tile k).started, x.pos = c.pos ∧ x.chunk = c.chunk + 1))
    ∧ (let w := Tab.get {} t.streams rc
      t.isIdle = false → w.defined = true → w.stopped = false → w.src = none → w.map.xpe = false → 64 * w.next < w.map.count → w.queue.length < 32 →
      (∀ e : Nat → Elem, (∀ l, l < 64 → 64 * w.next + l < w.map.count → s.streamElem k w (64 * w.next + l) none = .ok (e l)) →
        ∃ u ls fl, exec (.streamFillEntry k rc) s = .next u
          ∧ Tab.get {} (u.tile k).streams rc = { w with queue := w.queue ++ [.lanes ls fl], next := w.next + 1 } ∧ ls.length = 64
          ∧ ∀ l, l < 64 → ls.getD l {} = if 64 * w.next + l < w.map.count then streamLane w.map.format (e l) else { val := 0, tag := 31 })
      ∧ (∀ l cls va, l < 64 → 64 * w.next + l < w.map.count → s.streamElem k w (64 * w.next + l) none = .error (cls, va) →
        (∀ n, n < l → ∃ e, s.streamElem k w (64 * w.next + n) none = .ok e) →
        ∃ u, exec (.streamFillEntry k rc) s = .next u
          ∧ Tab.get {} (u.tile k).streams rc = { w with queue := w.queue ++ [.fault cls va], stopped := true }))
    ∧ (let x := t.cim i
      let lim := fld (s.die (tileDie k)).cimGate 0 16
      (x.gated = false → x.wakeEnd = none → t.setBusy i = false → lim ≠ 0 → x.idleSince + lim < dcc →
        ∃ u, exec (.cimGateIdle k i) s = .next u ∧ (u.tile k).cim i = { x with gated := true } ∧ (u.tile k).b = t.b ∧ u.mem = s.mem)
      ∧ ((t.setBusy i = true ∨ lim = 0 ∨ dcc ≤ x.idleSince + lim) → exec (.cimGateIdle k i) s = .next s)
      ∧ (∀ e, x.wakeEnd = some e →
        (e ≤ dcc → ∃ u, exec (.cimWakeEnd k i) s = .next u ∧ (u.tile k).cim i = { gated := false, idleSince := dcc, wakeEnd := none })
        ∧ (dcc < e → exec (.cimWakeEnd k i) s = .next s)))
    ∧ (∀ (cls : BitVec 8) (va : W64), EngineQuiet t → t.started.find? (fun x => x.pos = pos) = some c → c.late = true → c.legs = 0 →
      c.legFault = some (cls.toNat, va) →
      ∃ u, exec (.lateLegFault k pos cls va) s = .next u ∧ (u.tile k).started = t.started.filter (fun x => x.pos ≠ pos)
        ∧ (u.tile k).reports = [{ cls := cls.toNat, addr := va, leg := true, src := if c.kind.legged then 5 else 3,
                                    ctag := c.atag, seq := c.seq.toNat }]
        ∧ (c.allFailed = true → (u.tile k).fpc = t.fpc ||| BitVec.ofNat 64 c.flags
          ∧ ∀ n, c.comp = some n → Tab.get [] t.takers n = [] →
            (u.tile k).token n = min (t.token n + t.takenNow dcc n + 1) 0xFFFF - t.takenNow dcc n))

/-- A cut of the tile in focus is taken at once: nothing is started, and no one waits for anything. -/
def CutNow (s : State) : Prop :=
  s.cur.status = .running ∧ s.cur.vs = none ∧ s.cur.started = [] ∧ s.cur.journal = [] ∧ s.cur.inh = false ∧ s.cur.pfx = none
  ∧ s.cur.awaiting = false ∧ s.cur.storeQ = []
  ∧ (∀ b ∈ (s.die (tileDie s.focus)).bars, ∀ w ∈ b.2.waiters, w.tile ≠ s.focus) ∧ (∀ r ∈ s.reqs, r.2.tile ≠ s.focus)

/-- R74, R76, R255, R257: the handler is entered with SCHED_MISS at the word of a stamped command that is late beyond S in a strict
region, with WAIT_BOUND at a word whose wait on a token has passed its bound, the record naming the token; with the fault in hand
once nothing holds the cut. (Rests also on log 20,
the model's own readings.) -/
def Obligations.LateWaits : Prop :=
  ∀ (s : State) (q : Nat) (c : Cmd) (w : Wait) (n m b : Nat) (i : TrapInfo), HandlerReady s q →
    let dcc := s.dcc (tileDie s.focus)
    (CutNow s → s.cur.vq = [] → s.cur.cq = [] → s.cur.mq = [c] → c.gateTaken = false → s.cur.missed dcc c = true →
      ∃ t, exec (.schedMiss s.focus) s = .next t ∧ Entered s t q 0x07 0 c.atag c.clause (nextAt s.cur c.pos) ∧ t.cur.mq = [])
    ∧ (CutNow s → s.cur.vq = [] → s.cur.cq = [] → s.cur.mq = [] → s.cur.wait = some w → w.on = .token n m → n < 256 → w.bound = some b →
      (w.since + b < dcc → ∃ t, exec (.waitBound s.focus 0) s = .next t ∧ Entered s t q 0x09 0 s.cur.pc s.cur.clause (nextAt s.cur s.cur.order) ∧ t.cur.wait = none
        ∧ t.byte (q + 18) = 1 ∧ t.byte (q + 19) = BitVec.ofNat 8 n)
      ∧ (dcc ≤ w.since + b → exec (.waitBound s.focus 0) s = .next s))
    ∧ (s.cur.status = .cutting (.trap i) →
      (s.cur.holding = false → ∃ t, exec (.handlerEntry s.focus) s = .next t ∧ Entered s t q i.cls i.faddr i.pc i.clause fun
        | .vq => i.next.getD 0 0
        | .mq => i.next.getD 1 0
        | .cq => i.next.getD 2 0)
      ∧ (s.cur.holding = true → exec (.handlerEntry s.focus) s = .next s))

/-! ## Requests at their homes, and grants -/

/-- The oldest request from src to dst stands before its home, a route leads there, nothing sent before it is still on its way,
and its requester still waits for it. -/
def AtDoor (s : State) (src dst id : Nat) (r : Request) : Prop :=
  s.oldestReq src dst = some (id, r) ∧ Tab.find? s.reqs id = some r ∧ dst ∉ s.lost ∧ r.expired = false ∧ r.sink ≠ .counted
  ∧ s.linked src dst = true ∧ s.lsFirst src dst id = true

/-- The answer of a request can reach its requester: a route leads there, and nothing sent before it is still on its way. -/
def Returns (s : State) (r : Request) : Prop := s.linked r.dst r.src = true ∧ s.lsFirst r.dst r.src r.ansNo = true

/-- The request has its answer. -/
def Answered (t : State) (id : Nat) (r : Request) (a : Answer) : Prop :=
  ∃ x, Tab.find? t.reqs id = some x ∧ x.answer = some a ∧ x.tile = r.tile ∧ x.op = r.op ∧ x.sink = r.sink

/-- What the requester's log at the home says of the request (R244). -/
def Logged (t : State) (r : Request) (state : Nat) (v : W64) : Prop :=
  ∃ l, Tab.find? (t.die r.dst).logs r.tile = some l
    ∧ Tab.get {} l.entries (r.tag.toNat % 64) = { tag := r.tag, state := state, opc := r.opc, job := r.job, result := v }

/-- The requester has a log at the home, in which no outcome of the request has been entered: its entry is as it was. -/
def LogUsed (s t : State) (r : Request) : Prop :=
  ∃ l, Tab.find? (t.die r.dst).logs r.tile = some l
    ∧ ∀ n, Tab.get {} l.entries n = match Tab.find? (s.die r.dst).logs r.tile with
      | some k => Tab.get {} k.entries n
      | none => {}

/-- What the atomic with operation code `op` writes over `old`, in n bits (R281); 13 is the decrement of a JOIN (R327). -/
def codeNew (n old v cmp op : Nat) : Option Nat :=
  match op with
  | 0 => some ((old + v) % 2 ^ n)
  | 1 => some (old &&& v)
  | 2 => some (old ||| v)
  | 3 => some (old ^^^ v)
  | 4 => some (if sextN old n < sextN v n then v else old)
  | 5 => some (Max.max old v)
  | 6 => some (if sextN v n < sextN old n then v else old)
  | 7 => some (Min.min old v)
  | 11 => if old = cmp then some v else none
  | 12 => some v
  | 13 => if old = 0 then none else some (old - 1)
  | _ => none

/-- The result of a floating-point atomic, and the flags that it raises (R284). -/
def codeFloat (op old v cnt : Nat) (fpc : W64) : Nat × Nat :=
  let sum := fpAdd .f32 (fpcRm fpc) (unpack .f32 old) (if (unpack .f32 old).finite then 24 else 0) (unpack .f32 v) cnt
  match op with
  | 8 => ((fpMinMax .f32 true old 24 v cnt).bits, (fpMinMax .f32 true old 24 v cnt).flags)
  | 9 => ((fpMinMax .f32 false old 24 v cnt).bits, (fpMinMax .f32 false old 24 v cnt).flags)
  | _ => (sum.bits, sum.allFlags fpc)

/-- R177, R244, R281, R284, R327: a logged atomic whose location its home reaches is performed there and answered with the old value,
which its requester's log keeps as applied; too near its deadline, or named in an ATQ before, it is refused without effect, and the log
says so. One that the home faults, or whose flags trap, changes no byte and leaves no outcome in the log. (The last is the model's
own reading: log 102.) -/
def loggedAtHome : Prop :=
  ∀ (s : State) (src dst id p q op size : Nat) (r : Request) (v cmp fpc : W64),
    AtDoor s src dst id r → r.logged = true → r.op = .amo op p size v cmp fpc → s.atqRefused r = false →
    let old := leNat (s.bytes q size)
    let n := 8 * size
    let intOp : Bool := decide (op < 8 ∨ (10 < op ∧ op < 14))
    let isFloat : Bool := decide (8 ≤ op ∧ op ≤ 10 ∧ size = 4)
    let x := codeFloat op old (v.toNat % 2 ^ 32) cmp.toNat fpc
    let answers (a : Answer) (P : State → Prop) : Prop := ∃ t, exec (.loggedRequestAtHome src dst) s = .next t ∧ Answered t id r a ∧ P t
    (s.ptc dst + 2 * Config.podNs < r.deadline →
      (s.place r.dst p size = .mem q → s.foreign r.fid q = false → s.badSector q size = none →
        (intOp = true → (size = 4 ∨ size = 8) → answers (.value (BitVec.ofNat 64 old) 0) fun t =>
            Updated s t q size (codeNew n old (v.toNat % 2 ^ n) (cmp.toNat % 2 ^ n) op) ∧ Logged t r 1 (BitVec.ofNat 64 old))
        ∧ (isFloat = true → flagTrap fpc x.2 = none → answers (.value (BitVec.ofNat 64 old) x.2) fun t =>
            Updated s t q 4 (some x.1) ∧ Logged t r 1 (BitVec.ofNat 64 old))
        ∧ (isFloat = true → (flagTrap fpc x.2).isSome = true → answers (.value (BitVec.ofNat 64 old) x.2) fun t =>
            t.mem = s.mem ∧ LogUsed s t r))
      ∧ (s.place r.dst p size = .bad → answers (.fault Cls.extent r.addr) fun t => t.mem = s.mem ∧ LogUsed s t r))
    ∧ (r.deadline ≤ s.ptc dst + 2 * Config.podNs → answers .refused fun t => t.mem = s.mem ∧ Logged t r 2 0)

/-- R197, R244, R245: a logged SQRES at its home reserves its slots and is logged as applied with the first of them; of a sealed
sequence it is answered SEQ_CLOSED, which leaves no outcome. -/
def reservedAtHome : Prop :=
  ∀ (s : State) (src dst id n : Nat) (r : Request) (h : W64) (x : Seqn),
    AtDoor s src dst id r → r.logged = true → r.op = .sqRes h n → n < 2 ^ 32 → s.atqRefused r = false →
    s.ptc dst + 2 * Config.podNs < r.deadline → s.seqOf r.dst h r.job = some x → s.seqBusy id h = false →
    let seqn (t : State) : Seqn := Tab.get {} (t.die r.dst).seqs (seqIndex h)
    (x.sealed = false → x.rc + n ≤ x.cap → (∀ b, n ≤ (s.jobDie (blockDie r.dst x.blkDies b) x.job).pool.length) →
      ∃ t, exec (.loggedRequestAtHome src dst) s = .next t ∧ Answered t id r (.value (BitVec.ofNat 64 x.rc) 0)
        ∧ Logged t r 1 (BitVec.ofNat 64 x.rc) ∧ seqn t = { x with rc := x.rc + n })
    ∧ (x.sealed = true → ∃ t, exec (.loggedRequestAtHome src dst) s = .next t ∧ Answered t id r (.fault Cls.seqClosed h)
        ∧ LogUsed s t r ∧ seqn t = x ∧ t.mem = s.mem)

/-- R245: a response that reaches its requester in time ends the word: an integer goes to its g register, extended as the word says,
and a float to its f register with count 24, 0 for an infinity or a NaN; flags that do not trap join FPC. A response that comes at its
deadline or later does nothing. -/
def responses : Prop :=
  ∀ (s : State) (id fl : Nat) (r : Request) (v : W64),
    Tab.find? s.reqs id = some r → r.answer = some (.value v fl) → r.dead = false → r.lost = false → Returns s r →
    (s.tile r.tile).status = .running → flagTrap (s.tile r.tile).fpc fl = none →
    let t0 := s.tile r.tile
    let ends (P : Tile → Prop) : Prop := ∃ t, exec (.remoteResponse id false) s = .next t ∧ (t.tile r.tile).wait = none
      ∧ (t.tile r.tile).pc = t0.pc + 4 ∧ (t0.ahead = false → (t.tile r.tile).fpc = t0.fpc ||| BitVec.ofNat 64 fl)
      ∧ Tab.find? t.reqs id = none ∧ t.mem = s.mem
      ∧ P (t.tile r.tile)
    (s.ptc r.src < r.deadline →
      (∀ d size sign, r.sink = .g d size sign →
        let x := v.toNat % 2 ^ (8 * size)
        ends fun t => GSet t0 t d (if sign then BitVec.ofInt 64 (sextN x (8 * size)) else BitVec.ofNat 64 x) ∧ FSame t0 t)
      ∧ (∀ d, r.sink = .f d none →
        ends fun t => FSet t0 t d { val := v.setWidth 32, cnt := storeCount (v.setWidth 32) 24 } ∧ GSame t0 t)
      ∧ (r.sink = .discardValue → ends fun t => GSame t0 t ∧ FSame t0 t))
    ∧ (r.deadline ≤ s.ptc r.src → r.sink.undated = false → exec (.remoteResponse id false) s = .next s)

/-- R177, R243 to R245, R281, R284, R425: a plain load or store at its home reads or writes its bytes and is answered; a logged atomic
or SQRES is performed and its result logged, or refused without effect; a response writes its register and ends its word; a deadline that passes reports TIMEOUT; a wait kept at its home is answered once it is met, and one for room is refused at the
end of its time, or once ATQ has called it refused. (Rests also on logs 102 and 111, the model's own readings.) -/
def Obligations.HomeEvents : Prop :=
  loggedAtHome ∧ reservedAtHome ∧ responses ∧ ∀ (s : State) (src dst id p q n : Nat) (r : Request) (bs : List Byte),
    (AtDoor s src dst id r → r.logged = false → s.foreign r.fid q = false →
      (r.op = .load p n → s.place r.dst p n = .mem q → s.badSector q n = none →
        ∃ t, exec (.remoteAccessAtHome src dst) s = .next t ∧ Answered t id r (.value (BitVec.ofNat 64 (leNat (s.bytes q n))) 0) ∧ t.mem = s.mem)
      ∧ (r.op = .store p bs → s.place r.dst p bs.length = .mem q → s.badSector q bs.length = none →
        ∃ t, exec (.remoteAccessAtHome src dst) s = .next t ∧ Answered t id r (.value 0 0)
          ∧ ∀ a, t.byte a = if q ≤ a ∧ a < q + bs.length then bs.getD (a - q) 0 else s.byte a))
    ∧ (Tab.find? s.reqs id = some r → r.sink = .posted → r.src ≠ r.dst → r.expired = false → r.logged = false →
      (r.deadline ≤ s.ptc r.src → r.kept = false → EngineQuiet (s.tile r.tile) → (∃ x ∈ (s.tile r.tile).posted, x.id = id) →
        ∃ t, exec (.requestDeadline id) s = .next t ∧ (t.tile r.tile).reports = [{ cls := 0x11, addr := r.addr }]
          ∧ (t.tile r.tile).posted = (s.tile r.tile).posted.filter fun x => x.id ≠ id)
      ∧ (s.ptc r.src < r.deadline → exec (.requestDeadline id) s = .next s))
    ∧ (∀ h k x, Tab.find? s.reqs id = some r → r.op = .sqWait h k → r.kept = true → r.acks = [] → r.answer = none → r.src ≠ r.dst → r.dst ∉ s.lost →
      r.expired = false → r.logged = false → s.seqOf r.dst h r.job = some x → s.seqBusy id h = false → k < 2 ^ 32 →
      ((k ≤ x.cl ∨ (x.sealed = true ∧ x.rc < k)) →
        ∃ t, exec (.seqHomeRetry id) s = .next t ∧ Answered t id r (.value (BitVec.ofNat 64 (x.cl + if x.sealed then 2 ^ 63 else 0)) 0))
      ∧ (x.cl < k → (x.sealed = true → k ≤ x.rc) → ∃ t, exec (.seqHomeRetry id) s = .next t ∧ Tab.find? t.reqs id = some r))
    ∧ (∀ h, Tab.find? s.reqs id = some r → r.op = .sqRes h n → r.kept = true → r.acks = [] → r.src ≠ r.dst → r.expired = false →
      ((r.deadline ≤ s.ptc r.dst + 2 * Config.podNs ∨ (r.logged = true ∧ s.atqRefused r = true)) →
        (∃ t, exec (.seqHomeRefuse id) s = .next t ∧ Answered t id r .refused ∧ t.mem = s.mem ∧ (r.logged = true → Logged t r 2 0))
        ∧ (r.dst ∉ s.lost → r.answer = none → ∃ t, exec (.seqHomeRetry id) s = .next t ∧ Answered t id r .refused ∧ t.mem = s.mem))
      ∧ (s.ptc r.dst + 2 * Config.podNs < r.deadline → (r.logged = true → s.atqRefused r = false) → exec (.seqHomeRefuse id) s = .next s))

/-- R201, R202, R238 to R241, R249, R305: a narrowing raises the start of its grant, or ends the grant, and is acknowledged; the
acknowledgement counts once no store through the grant is left, and the last one lets CL advance and answers the commit. A leaf
that the root monitor changes is what a walk finds from then on, and every tile of the job that holds an extent over the page is to
be told; a tile marks its extents, acknowledges once nothing of its own is open over them, and the change is complete when all have;
a DISCARD that waits for it ends. A page that has been migrated is the copy at its new place. (Rests also on log 15,
the model's own readings.) -/
def Obligations.TranslationEvents : Prop :=
  ∀ (s : State) (id die sq k num unit wlo req j va : Nat) (entry : W64),
    (∀ drop g h b, Tab.find? s.msgs id = some (.narrow die sq k num unit wlo req drop h b) → id < s.nextId →
      s.linked die (tileDie k) = true → (die = tileDie k ∨ s.lsFirst die (tileDie k) id = true) →
      s.runsUnit k (Tab.get ({} : Seqn) (s.die die).seqs sq).job unit = true → Tab.find? (s.tile k).grants num = some g →
      ∃ t, exec (.grantNarrowing id) s = .next t ∧ Tab.find? t.msgs id = none
        ∧ Tab.find? (t.tile k).grants num = (if g.handle ≠ h ∨ g.blk ≠ b then some g else if drop then none else some { g with wlo := max g.wlo wlo })
        ∧ Tab.find? t.msgs s.nextId = some (.narrowAck die sq k num unit id req))
    ∧ (∀ nid h a n r, Tab.find? s.msgs id = some (.narrowAck die sq k num unit nid req) → Tab.find? s.reqs req = some r → r.acks = [nid] →
      r.op = .sqCom h a n → r.expired = false → r.logged = false → r.src ≠ r.dst → (∀ x ∈ s.reqs, x.1 ≠ req → x.2.kept = false) →
      s.linked (tileDie k) die = true → (die = tileDie k ∨ s.lsFirst (tileDie k) die s.nextId = true) →
      let q := Tab.get ({} : Seqn) (s.die die).seqs sq
      let held := s.storeOpen k unit num || if s.runsUnit k q.job unit then (s.tile k).storesThrough num
        else (s.jobDie (tileDie k) q.job).saved.any fun v => v.2.key = k && v.2.tile.entry.cr.unitId = unit && v.2.tile.storesThrough num
      (held = false →
        ∃ t, exec (.narrowingAck id) s = .next t ∧ Answered t req r (.value 0 0) ∧ Tab.find? t.msgs id = none
          ∧ (Tab.get ({} : Seqn) (t.die die).seqs sq).cl = runEnd q.win q.cl)
      ∧ (held = true → exec (.narrowingAck id) s = .next s))
    ∧ (let refused := (s.pinnedPage j va = true ∧ s.leafWord (s.homeDie j) (s.job j).asid va ≠ 0) ∨ 2 ^ 48 ≤ va ∨ (s.job j).placed = false
        ∨ (entry.getLsbD 0 = true ∧ s.foreign (s.job j).fid (s.plainIn (diePkg (s.homeDie j)) (entry.toNat / 256 % 2 ^ 47 * 256)) = true)
      let asid := (s.job j).asid
      let table (d : Nat) : Option Nat :=
        let a := Tab.get { root := 0, fid := 0, job := 0, tagBase := 0, live := false } (s.die d).asids asid
        if a.live then leafSlot s (diePkg d) va 4 (s.plainIn (diePkg d) a.root) else none
      (refused → exec (.pteChange j va entry) s = .next s)
      ∧ (¬ refused →
        ((∀ d ∈ (s.job j).dies, table d = none) →
          ∃ t, exec (.pteChange j va entry) s = .next t ∧ t.mem = s.mem
            ∧ (∀ d ∈ (s.job j).dies, t.walk d asid va =
                let p := s.plainIn (diePkg d) (entry.toNat / 65536 % 2 ^ 39 * 65536)
                if entry.getLsbD 0 = true ∧ entry.toNat / 2 ^ 55 = 0 ∧ entry.toNat / 256 % 256 = 0 ∧ leafDecodes s (diePkg d) p 65536 = true then
                  .page (va / 65536 * 65536) p 65536 (entry.toNat % 256) else .unmapped)
            ∧ ∃ r, Tab.find? t.revs s.nextId = some r ∧ r.job = j ∧ r.vbase = va / 65536 * 65536 ∧ r.len = 65536
              ∧ r.waiting = s.holders j (va / 65536 * 65536) 65536 none ∧ r.unsent = r.waiting)
        ∧ (∀ d p, (s.job j).dies = [d] → table d = some p →
          ∃ t, exec (.pteChange j va entry) s = .next t ∧ leNat (t.bytes p 8) = entry.toNat
            ∧ ∀ a, (a < p ∨ p + 8 ≤ a) → t.byte a = s.byte a)))
    ∧ (∀ r, Tab.find? s.revs id = some r →
      (k ∈ r.unsent → s.jobOf k = r.job →
        ∃ t, exec (.revocationReceive id k) s = .next t
          ∧ (t.tile k).exts = (s.tile k).exts.map (fun e =>
              if e.vbase < r.vbase + r.len && r.vbase < e.vbase + e.len then { e with revoked := true } else e)
          ∧ Tab.find? t.revs id = some { r with unsent := r.unsent.filter (· ≠ k) })
      ∧ (k ∈ r.waiting → k ∉ r.unsent → s.jobOf k = r.job →
        (s.accessOpen k r.vbase r.len = false → s.reqOpen k r.job r.vbase r.len = false → s.legsOpen k r.job = false →
          ∃ t, exec (.revocationAck id k) s = .next t ∧ Tab.find? t.revs id = some { r with waiting := r.waiting.filter (· ≠ k) } ∧ t.tiles = s.tiles)
        ∧ ((s.accessOpen k r.vbase r.len = true ∨ s.reqOpen k r.job r.vbase r.len = true ∨ s.legsOpen k r.job = true) → exec (.revocationAck id k) s = .next s))
      ∧ (r.todo = [] → r.waiting = [] → r.discard = none → ∃ t, exec (.revocationComplete id) s = .next t ∧ Tab.find? t.revs id = none ∧ t.tiles = s.tiles)
      ∧ (∀ w, r.todo = [] → r.waiting = [] → r.discard = some k → (s.tile k).wait = some w → w.on = .discard id → (s.tile k).status = .running →
        ∃ t, exec (.revocationComplete id) s = .next t ∧ Tab.find? t.revs id = none ∧ (t.tile k).wait = none
          ∧ (t.tile k).pc = (s.tile k).pc + 4 ∧ GSame (s.tile k) (t.tile k))
      ∧ (r.todo = [] → r.waiting ≠ [] → exec (.revocationComplete id) s = .next s)
      ∧ (r.todo ≠ [] → ∃ t r', exec (.revocationComplete id) s = .next t ∧ Tab.find? t.revs id = some r' ∧ t.tiles = s.tiles
        ∧ r'.todo = r.todo.filter fun a => s.leafWord (s.homeDie r.job) (s.job r.job).asid a / 128 % 2 = 1))
    ∧ (∀ target p q,
      let asid := (s.job j).asid
      let e := s.leafWord (s.homeDie j) asid va
      e / 128 % 2 = 1 → e % 2 = 1 → target % 65536 = 0 → target < 2 ^ 55 → s.revs = [] →
      let home := s.homeDie j
      let here (d a : Nat) : Nat := s.plainIn (diePkg d) a
      leafDecodes s (diePkg home) (here home target) 65536 = true → s.foreign (s.job j).fid (here home target) = false →
      (∀ d ∈ (s.job j).dies, leafDecodes s (diePkg d) (here d target) 65536 = true) →
      s.resolve home (here home (e / 65536 * 65536)) 65536 = some p → s.resolve home (here home target) 65536 = some q →
      (∀ d ∈ (s.job j).dies, (Tab.get { root := 0, fid := 0, job := 0, tagBase := 0, live := false } (s.die d).asids asid).live = true →
        leafSlot (s.writePlain q (s.bytes p 65536)) (diePkg d) va 4
          (here d (Tab.get { root := 0, fid := 0, job := 0, tagBase := 0, live := false } (s.die d).asids asid).root) = none) →
      ∃ t, exec (.migrationComplete j va target) s = .next t ∧ (∀ i, i < 65536 → t.byte (q + i) = s.byte (p + i))
        ∧ (∀ a, (a < q ∨ q + 65536 ≤ a) → t.byte a = s.byte a)
        ∧ ∀ d ∈ (s.job j).dies, t.walk d asid va = .page (va / 65536 * 65536) (here d target) 65536 (e % 256 - 128))

/-! ## Links, time, and the loss of a member -/

/-- How often a flit of a port's channel has been sent once more. -/
def flitTriesOf (s : State) (d port ch num : Nat) : Nat := Tab.get 0 (s.die d).retrans (4096 * (8 * port + ch) + num)

/-- A lead goes from one value to another in so many nanoseconds at the most (R234; the rate is log 9's). -/
def slewTime (a b : Nat) : Nat := ((a - b) + (b - a)) * Nat.max 1 Config.slewPeriod

/-- R213, R215, R216, R234, R236, R246, R248: the retransmissions of a flit are counted on its port and channel; a link with 16 of them
goes down, at both its ends, and one that has not failed does not; a die's time is slewed to its hub's and a hub's to the pod master's,
never stepping; it stops where its reference fails, with its ports degraded, and goes on from the reference when it returns; a die
that has had no reply for 2 ms, a package all of whose links have been down for as long, a die that fails and a package whose hub does
are lost; a die that learns of a loss marks the grants of sequences homed there. (Rests also on logs 9, 50, 55, 86,
the model's own readings.) -/
def Obligations.NetworkEvents : Prop :=
  ∀ (s : State) (d port ch num n m p : Nat),
    (port < 7 → ch < 5 → num < 4096 → Tab.get 0 (s.die d).linkState port ≠ 2 →
      ∃ t, exec (.flitRetransmitRequest d port { channel := ch, num := num }) s = .next t ∧ OnlyDie s t d
        ∧ flitTriesOf t d port ch num = flitTriesOf s d port ch num + 1)
    ∧ ((7 ≤ port ∨ 5 ≤ ch ∨ 4096 ≤ num ∨ Tab.get 0 (s.die d).linkState port = 2) → exec (.flitRetransmitRequest d port { channel := ch, num := num }) s = .next s)
    ∧ (ch < 5 → Tab.get 0 (s.die d).linkState port ≠ 2 → num < 4096 → 16 ≤ flitTriesOf s d port ch num →
      (port = 6 → ∃ t, exec (.linkDown d port) s = .next t ∧ Tab.get 0 (t.die d).linkState port = 2 ∧ t.mem = s.mem ∧ t.tiles = s.tiles)
      ∧ (∀ e, port < 6 → s.neighbour d port = some e →
        ∃ t, exec (.linkDown d port) s = .next t ∧ Tab.get 0 (t.die d).linkState port = 2 ∧ Tab.get 0 (t.die e).linkState (Nat.xor port 1) = 2
          ∧ t.mem = s.mem ∧ t.tiles = s.tiles))
    ∧ ((s.linkFails d port = false ∨ Tab.get 0 (s.die d).linkState port = 2) → exec (.linkDown d port) s = .next s)
    ∧ ((s.die d).ptcStop = none → (s.die d).lastSync + 65536 ≤ s.ptc d → d ∉ s.lost → Tab.get 0 (s.die d).linkState 6 ≠ 2 →
      ∃ t, exec (.timeSyncExchange d (.die n)) s = .next t ∧ t.ptc d = s.ptc d
        ∧ (∀ c i, slewTime (t.die d).ptcFrom (min n Config.pkgNs) ≤ i →
            (t.elapse c i).ptc d = max (s.ptc d) ((t.elapse c i).hubPtc (diePkg d) + min n Config.pkgNs))
        ∧ Tab.get 0 (t.pkg (diePkg d)).syncReply (dieNum d) = s.hubPtc (diePkg d) ∧ (t.die d).lastSync = s.ptc d)
    ∧ (diePkg d ≠ s.timeMaster → s.peers s.timeMaster (diePkg d) = true → (s.route (8 * s.timeMaster) (8 * diePkg d)).isSome = true →
      ∃ t, exec (.timeSyncExchange d (.hub n)) s = .next t ∧ OnlyPkg s t (diePkg d)
        ∧ t.hubPtc (diePkg d) = s.hubPtc (diePkg d)
        ∧ ∀ c i, slewTime (t.pkg (diePkg d)).hubFrom (min n (Config.podNs - Config.pkgNs)) ≤ i →
            (t.elapse c i).hubPtc (diePkg d) = max (s.hubPtc (diePkg d)) (s.ns + i + min n (Config.podNs - Config.pkgNs)))
    ∧ (diePkg d = s.timeMaster → exec (.timeSyncExchange d (.hub n)) s = .next s)
    ∧ ((s.die d).ptcStop = none → ∃ t, exec (.timeReferenceFail d) s = .next t ∧ (∀ c i, (t.elapse c i).ptc d = s.ptc d)
        ∧ ∀ i, i < 7 → Tab.get 0 (t.die d).linkState i = if Tab.get 0 (s.die d).linkState i = 0 then 1 else Tab.get 0 (s.die d).linkState i)
    ∧ (∀ v, (s.die d).ptcStop = some v → d ∉ s.lost → s.reqs = [] → (s.die d).colls = [] → (s.die d).jobs = [] → (s.die d).queues = [] →
      (∀ k ∈ dieTiles d, (s.tile k).preemptAt = none ∧ (s.tile k).cancelAt = none) →
      ∃ t, exec (.timeReferenceReturn d) s = .next t
        ∧ t.ptc d = max v (s.hubPtc (diePkg d) + (s.die d).ptcOff)
        ∧ ∀ i, Tab.get 0 (t.die d).linkState i ≠ 1)
    ∧ (let last := Tab.get 0 (s.pkg (diePkg d)).syncReply (dieNum d)
      (last + 2000000 ≤ s.hubPtc (diePkg d) → ∃ t, exec (.hubWatchdogExpiry d) s = .next t ∧ d ∈ t.lost ∧ t.mem = s.mem)
      ∧ (s.hubPtc (diePkg d) < last + 2000000 → exec (.hubWatchdogExpiry d) s = .next s))
    ∧ (∀ b, (s.pkg p).linksDownAt = some b →
      (s.pkgCut p = true → b + 2000000 ≤ s.hubPtc s.timeMaster → ∃ t, exec (.packageLinksDown p) s = .next t ∧ ∀ i, i < 8 → 8 * p + i ∈ t.lost)
      ∧ ((s.pkgCut p = false ∨ s.hubPtc s.timeMaster < b + 2000000) → exec (.packageLinksDown p) s = .next s))
    ∧ (∃ t, exec (.dieFailure (.die d)) s = .next t ∧ d ∈ t.lost ∧ (∀ e ∈ s.lost, e ∈ t.lost) ∧ t.mem = s.mem)
    ∧ (∃ t, exec (.dieFailure (.hub p)) s = .next t ∧ (∀ i, i < 8 → 8 * p + i ∈ t.lost) ∧ (∀ e ∈ s.lost, e ∈ t.lost) ∧ t.mem = s.mem)
    ∧ (m ∈ s.lost → m ∉ (s.die d).lost → d ∉ s.lost → (∀ r ∈ s.reqs, ¬ (r.2.src = d ∧ r.2.dst = m)) →
      (∀ r ∈ s.reqs, r.2.src = m → r.2.dst = d → ∀ cr c, r.2.op ≠ .count cr c) → s.msgs = [] → (s.die m).seqs = [] →
      (∀ j ∈ s.jobs, ¬ (j.2.placed = true ∧ m ∈ j.2.dies ∧ d ∈ j.2.dies)) →
      ∃ t, exec (.lossNotice d m) s = .next t ∧ m ∈ (t.die d).lost ∧ t.mem = s.mem
        ∧ ∀ k ∈ dieTiles d, ∀ g ∈ (t.tile k).grants, s.seqHome (diePkg d) g.2.handle = some m → g.2.lost = true)
    ∧ ((m ∉ s.lost ∨ m ∈ (s.die d).lost ∨ d ∈ s.lost) → exec (.lossNotice d m) s = .next s)

/-! ## The torus: halo exchange, layouts, resharding, collectives -/

/-- A leg of the command at `pos` of tile k ended, with the fault given if it met one; the first fault stands. -/
def LegEnded (s t : State) (k pos : Nat) (f : Option (Nat × W64)) : Prop :=
  ∀ c ∈ (s.tile k).started, c.pos = pos →
    ∃ x ∈ (t.tile k).started, x.pos = pos ∧ x.kind = c.kind ∧ x.legs = c.legs - 1 ∧ x.legFault = c.legFault.or f

/-- A message is on its way. -/
def Posted (t : State) (m : Msg) : Prop := ∃ id, Tab.find? t.msgs id = some m

/-- R216 to R220, R222 to R224, R249: once a route leads from where it was sent, a slab writes its elements at its die, counts its bytes in the barrier, and ends a leg, with EXTENT from the first element on whose page is another function's; a barrier the
job does not have ends the leg with PRIV and writes nothing; the home sends an image to every die of the placement, or, where one has
no room, ends the LAYSET with EXTENT and tells that die's firmware; a die installs a layout, and a pass table at once or after its
RESHARD. -/
def Obligations.TorusEvents : Prop :=
  ∀ (s : State) (id tile pos die bar job f idx bits code slot p q v : Nat) (es : List (Option Nat × Option Nat × Nat))
    (flt : Option (Nat × W64)) (img : LaySlot) (ps : List Pass), id < s.nextId → (Tab.keys s.msgs).Nodup → ((s.tile tile).started.any fun c => c.pos = pos) = true →
    (Tab.find? s.msgs id = some (.slab tile pos die bar job f idx bits code es flt) → s.linked (tileDie tile) die = true →
      (die ∈ s.lost → exec (.slabArrival id) s = .next s)
      ∧ (die ∉ s.lost → s.barOk die job bar = false →
        ∃ t, exec (.slabArrival id) s = .next t ∧ LegEnded s t tile pos (some (0x16, BitVec.ofNat 64 bar)) ∧ t.mem = s.mem ∧ t.barAt die bar = s.barAt die bar)
      ∧ (die ∉ s.lost → s.barOk die job bar = true → (s.barAt die bar).waiters = [] →
        (∀ e rest, es = e :: rest → s.putRefused die f e = true →
          ∃ t, exec (.slabArrival id) s = .next t ∧ LegEnded s t tile pos (some (Cls.extent, 0)) ∧ t.mem = s.mem)
        ∧ ((∀ e ∈ es, s.putRefused die f e = false) → ∃ t, exec (.slabArrival id) s = .next t ∧ LegEnded s t tile pos flt ∧ Tab.find? t.msgs id = none
          ∧ t.barAt die bar = { count := min ((s.barAt die bar).count + es.length * bits / 8) (2 ^ 64 - 1), waiters := [] }
          ∧ (es = [(some p, none, v)] → 8 ≤ bits → s.resolve die p (bits / 8) = some q →
            ∀ a, t.byte a = if q ≤ a ∧ a < q + bits / 8 then BitVec.ofNat 8 (v / 2 ^ (8 * (a - q))) else s.byte a))))
    ∧ (let dies := (s.job job).dies
      s.oldestImage id job = true → (∀ d ∈ dies, d ∉ s.lost) →
      (∀ h addr, Tab.find? s.msgs id = some (.layImage tile pos h job slot addr img) → s.linked (tileDie tile) h = true →
        ((img.kind = 0 ∨ ∀ d ∈ dies, s.layUsed d job + img.nown ≤ fld (s.jobDie d job).layArea 0 32) →
          ∃ t, exec (.laysetDistribute id) s = .next t ∧ (∀ d ∈ dies, Posted t (.layInstall tile pos d job slot img))
            ∧ ∃ x ∈ (t.tile tile).started, x.pos = pos ∧ x.legs = dies.length)
        ∧ (img.kind ≠ 0 → ∀ d ∈ dies, fld (s.jobDie d job).layArea 0 32 < s.layUsed d job + img.nown →
          ∃ t, exec (.laysetDistribute id) s = .next t ∧ ({ kind := 0x02, job := job, what := slot } : Notice) ∈ (t.die d).mailbox
            ∧ LegEnded s t tile pos (some (0x02, addr))))
      ∧ (∀ h, Tab.find? s.msgs id = some (.passImage tile pos h job ps) → s.linked (tileDie tile) h = true →
        ∃ t, exec (.laysetDistribute id) s = .next t ∧ (∀ d ∈ dies, Posted t (.passInstall tile pos d job ps))
          ∧ ∃ x ∈ (t.tile tile).started, x.pos = pos ∧ x.legs = dies.length))
    ∧ (s.oldestInstall id die job = true → s.linked (s.homeDie job) die = true →
      (Tab.find? s.msgs id = some (.layInstall tile pos die job slot img) →
        ∃ t, exec (.laysetInstall id) s = .next t ∧ Tab.find? (t.jobDie die job).slots slot = some img ∧ LegEnded s t tile pos none)
      ∧ (Tab.find? s.msgs id = some (.passInstall tile pos die job ps) →
        ((s.jobDie die job).reshard = none → ∃ t, exec (.laysetInstall id) s = .next t ∧ (t.jobDie die job).passes = some ps ∧ LegEnded s t tile pos none)
        ∧ ((s.jobDie die job).reshard.isSome = true → ∃ t, exec (.laysetInstall id) s = .next t ∧ (t.jobDie die job).passes = (s.jobDie die job).passes
          ∧ (t.jobDie die job).passNext = (s.jobDie die job).passNext ++ [(ps, tile, pos)])))

/-- The RESHARD of a job on a die has ended in an abort (R227). -/
def Aborted (s t : State) (die job : Nat) (r : Reshard) (cls : Nat) (faddr : W64) : Prop :=
  (t.jobDie die job).reshard = none ∧ (t.jobDie die job).lastT0 = some (r.t0, faddr)
  ∧ ∀ c ∈ (s.tile r.tile).started, c.pos = r.pos → ∃ x ∈ (t.tile r.tile).started, x.pos = r.pos ∧ x.legs = 0 ∧ x.legFault = some (cls, faddr)

/-- The RESHARD has committed: both slots' versions have advanced (R226). -/
def Committed (s t : State) (die job : Nat) (r : Reshard) : Prop :=
  (t.jobDie die job).reshard = none
  ∧ (r.s ≠ r.t → (Tab.get {} (t.jobDie die job).slots r.s).ver = (Tab.get {} (s.jobDie die job).slots r.s).ver + 1
    ∧ (Tab.get {} (t.jobDie die job).slots r.t).ver = (Tab.get {} (s.jobDie die job).slots r.t).ver + 1)

/-- R225 to R227, R352: at T0 + OFF of a pass a die sends READY to its partner; at the end of its slack it aborts on every rank with
RESHARD_LATE, and so does a pass whose time has come while the one before it has not ended; a READY of other parameters aborts with ILLEGAL_OP, at the die's own time for the pass or after; a pass ends once both READYs are in, both directions moved once; the
last pass is reported, and with every report in rank 0 sends the commit, which advances both versions; an abort that arrives ends the
RESHARD; a page of another function in a run aborts with EXTENT; with one die the move and the commit are local. (Rests also on logs 45, 87,
the model's own readings.) -/
def Obligations.ReshardEvents : Prop :=
  ∀ (s : State) (die job id frm : Nat) (r : Reshard), (s.jobDie die job).reshard = some r →
    let dies := (s.job job).dies
    let addr := reshardAddr r.pass r.rank
    (∀ p, s.curPass die job r = some p → 2 ≤ dies.length →
      let due := r.t0 + p.off
      let b := s.partner job r p
      (r.sent = false → due ≤ s.ptc die → s.ptc die ≤ due + p.slack → r.readyFrom b = some false →
        ∃ t, exec (.reshardPassTime die job) s = .next t ∧ Aborted s t die job r 0x01 addr)
      ∧ (r.sent = false → due ≤ s.ptc die → s.ptc die ≤ due + p.slack → r.readyFrom b ≠ some false →
        ∃ t, exec (.reshardPassTime die job) s = .next t ∧ Tab.find? t.msgs s.nextId = some (.ready job die b r.pass r.s r.t r.t0)
          ∧ (t.jobDie die job).reshard = some { r with sent := true })
      ∧ (s.ptc die < due → s.passMet job r p = false → exec (.reshardPassTime die job) s = .next s)
      ∧ (r.sent = false → due + p.slack < s.ptc die → ∃ t, exec (.reshardPassTime die job) s = .next t ∧ Aborted s t die job r 0x18 addr)
      ∧ (due + p.slack ≤ s.ptc die → (r.sent = false ∨ r.readyFrom b = none) →
        ∃ t, exec (.reshardSlackExpiry die job) s = .next t ∧ Aborted s t die job r 0x18 addr
          ∧ ∀ d ∈ dies, d ≠ die → d ∉ s.lost → Posted t (.abort job die d r.t0 0x18 addr))
      ∧ (s.ptc die < due + p.slack → s.passMet job r p = false → exec (.reshardSlackExpiry die job) s = .next s)
      ∧ (s.passMet job r p = true → ∀ i ∈ [Instr.reshardPassTime die job, .reshardSlackExpiry die job],
          let q := { r with pass := r.pass + 1 }
          let late := reshardAddr q.pass r.rank
          (s.curPass die job q = none → exec i s = .next s)
          ∧ ∀ p', s.curPass die job q = some p' →
            let due' := r.t0 + p'.off
            let bad := q.readyFrom (s.partner job q p') = some false
            (s.ptc die < due' → exec i s = .next s)
            ∧ (due' ≤ s.ptc die → bad → ∃ t, exec i s = .next t ∧ Aborted s t die job r 0x01 late)
            ∧ (due' + p'.slack ≤ s.ptc die → ¬bad → ∃ t, exec i s = .next t ∧ Aborted s t die job r 0x18 late)
            ∧ (due' ≤ s.ptc die → s.ptc die < due' + p'.slack → ¬bad → exec i s = .next s))
      ∧ (∀ sl tl, Tab.find? s.msgs id = some (.ready job b die r.pass sl tl r.t0) → s.linked b die = true → ((s.jobDie die job).lastT0.map fun l => l.1) ≠ some r.t0 →
        ((r.sent = false ∨ (sl = r.s ∧ tl = r.t ∧ s.ptc die ≤ due + p.slack)) →
          ∃ t, exec (.reshardReady id) s = .next t ∧ Tab.find? t.msgs id = none
            ∧ (t.jobDie die job).reshard = some { r with readys := r.readys ++ [(b, r.pass, sl, tl, r.t0)] })
        ∧ (r.sent = true → (sl ≠ r.s ∨ tl ≠ r.t) → ∃ t, exec (.reshardReady id) s = .next t ∧ Aborted s t die job r 0x01 addr)
        ∧ (r.sent = true → sl = r.s → tl = r.t → due + p.slack < s.ptc die →
          ∃ t, exec (.reshardReady id) s = .next t ∧ Aborted s t die job r 0x18 addr))
      ∧ (∀ x, r.sent = true → r.moved = false → r.readyFrom b = some true → b ≠ die → (s.jobDie b job).reshard = some x → x.t0 = r.t0 →
        x.pass = r.pass → x.sent = true → x.readyFrom die = some true →
        s.runsBad die job r.s r.t = false → s.runsBad b job r.s r.t = false → s.linked die b = true →
        ∃ t, exec (.reshardPassEnd die job) s = .next t ∧ (t.jobDie die job).reshard = some { r with pass := r.pass + 1, sent := false, moved := false, localDone := true }
          ∧ (t.jobDie b job).reshard = some { x with moved := true }
          ∧ (r.pass + 1 = ((s.jobDie die job).passes.getD []).length → Posted t (.report job die (s.homeDie job) r.t0)))
      ∧ (r.sent = true → s.runsBad die job r.s r.t = true → ∃ t, exec (.reshardPassEnd die job) s = .next t ∧ Aborted s t die job r 0x02 addr)
      ∧ (r.sent = false → exec (.reshardPassEnd die job) s = .next s))
    ∧ (∀ t0 cls faddr, Tab.find? s.msgs id = some (.abort job frm die t0 cls faddr) → s.linked frm die = true → (t0 = r.t0 ∨ (s.jobDie die job).lastAbort ≠ some t0) →
      ∃ t, exec (.reshardAbort id) s = .next t ∧ Aborted s t die job r cls faddr)
    ∧ (Tab.find? s.msgs id = some (.report job frm die r.t0) → s.linked frm die = true → id < s.nextId → ((s.jobDie die job).lastT0.map fun l => l.1) ≠ some r.t0 →
      ∃ t x, exec (.reshardReport id) s = .next t ∧ (t.jobDie die job).reshard = some x ∧ frm ∈ x.reports
        ∧ ((∀ d ∈ dies, d = frm ∨ d ∈ r.reports) → ∀ d ∈ dies, Posted t (.commit job d r.t0)))
    ∧ (Tab.find? s.msgs id = some (.commit job die r.t0) → s.linked (s.homeDie job) die = true → s.oldestInstall id die job = true →
      ∃ t, exec (.reshardCommit id) s = .next t ∧ Committed s t die job r)
    ∧ (dies.length = 1 →
      (r.t0 ≤ s.ptc die → s.runsBad die job r.s r.t = true → ∃ t, exec (.reshardLocalMove die job) s = .next t ∧ Aborted s t die job r 0x02 addr)
      ∧ (r.t0 ≤ s.ptc die → s.runsBad die job r.s r.t = false → ∃ t, exec (.reshardLocalMove die job) s = .next t ∧ Committed s t die job r
        ∧ t.mem = (s.moveElems (Tab.get {} (s.jobDie die job).slots r.s) (Tab.get {} (s.jobDie die job).slots r.t) die die).mem)
      ∧ (s.ptc die < r.t0 → exec (.reshardLocalMove die job) s = .next s))

/-- The local command of a slot has ended with a status record at the start of its buffer, and the slot is free (R232, R233). -/
def RecordGiven (s t : State) (die key q : Nat) (l : CollLocal) (bs : List Byte) : Prop :=
  t.coll die key = none ∧ (∀ a, t.byte a = if q ≤ a ∧ a < q + bs.length then bs.getD (a - q) 0 else s.byte a)
  ∧ ∀ c ∈ (s.tile l.tile).started, c.pos = l.pos → ∃ x ∈ (t.tile l.tile).started, x.pos = l.pos ∧ x.legs = 0

/-- R229, R231 to R233, R296, R299: a partial in time enters its slot, opening it where a slot is free; a duplicate, or one past its
deadline, is dropped; a die folds its inputs in order and sends the result up its port once they are all there or its time has come; the
root finishes and sends the result down; a result in time gives the local command its record and frees the slot; a slot that gets none is freed
50,000 ns after its deadline, LOST; a member's broadcast that has not come by its deadline is INCOMPLETE, and a root that still
gathers then is DONE. (Rests also on log 46,
the model's own readings.) -/
def Obligations.CollectiveEvents : Prop :=
  ∀ (s : State) (die job cid id : Nat),
    let key := collKey job cid
    (∀ frm port b p, Tab.find? s.msgs id = some (.part job cid frm die port b p) → s.linked frm die = true →
      (s.ptc die ≤ p.deadline → die ∉ s.lost → s.coll die key = none → (s.die die).colls.length < 64 → (key, p.deadline) ∉ (s.die die).collsGone →
        ∃ t, exec (.collectivePartialArrival id) s = .next t ∧ Tab.find? t.msgs id = none
          ∧ t.coll die key = some { box := b, deadline := p.deadline, inputs := [(port + 1, p)] })
      ∧ (∀ c, s.ptc die ≤ p.deadline → die ∉ s.lost → s.coll die key = some c → c.state = .gather → Tab.find? c.inputs (port + 1) = none →
        ∃ t x, exec (.collectivePartialArrival id) s = .next t ∧ t.coll die key = some x ∧ Tab.find? x.inputs (port + 1) = some p
          ∧ ∀ n, n ≠ port + 1 → Tab.find? x.inputs n = Tab.find? c.inputs n)
      ∧ ((p.deadline < s.ptc die ∨ ∃ c, s.coll die key = some c ∧ (c.state ≠ .gather ∨ (Tab.find? c.inputs (port + 1)).isSome = true)) →
        ∃ t, exec (.collectivePartialArrival id) s = .next t ∧ Tab.find? t.msgs id = none ∧ t.dies = s.dies))
    ∧ (∀ c p, s.coll die key = some c → c.folded = some p →
      (∀ o n, s.outPort c.box die = some o → s.neighbour die o = some n → p.bcast = false →
        (c.state = .gather → (s.expComplete die c = true ∨ c.deadline ≤ s.ptc die + 100 * s.hops c.box die) →
          ∃ t, exec (.collectiveForward die job cid) s = .next t ∧ t.coll die key = some { c with state := .sent }
            ∧ Posted t (.part job cid die n (Nat.xor o 1) c.box p))
        ∧ (s.expComplete die c = false → s.ptc die + 100 * s.hops c.box die < c.deadline → exec (.collectiveForward die job cid) s = .next s))
      ∧ (s.outPort c.box die = none →
        (c.state = .gather → (s.expComplete die c = true ∨ c.deadline ≤ s.ptc die) →
          (c.loc = none → ∃ t, exec (.collectiveRootFinish die job cid) s = .next t
            ∧ t.coll die key = some { c with state := .done, result := some p } ∧ ∀ x ∈ s.childPorts c.box die, Posted t (.result job cid die x.2 c.box p))
          ∧ (∀ l a q, c.loc = some l → l.buf = some a → s.resolve die a (delivery c.box l p).1.length = some q →
            ∃ t, exec (.collectiveRootFinish die job cid) s = .next t ∧ RecordGiven s t die key q l (delivery c.box l p).1))
        ∧ (s.expComplete die c = false → s.ptc die < c.deadline → exec (.collectiveRootFinish die job cid) s = .next s)))
    ∧ (∀ frm b p c l a q, Tab.find? s.msgs id = some (.result job cid frm die b p) → s.linked frm die = true → die ∉ s.lost → s.coll die key = some c → c.state ≠ .done → c.loc = some l →
      l.buf = some a →
      (s.ptc die < c.deadline + 50000 → (p.bcast = true → s.ptc die ≤ c.deadline) → s.resolve die a (delivery c.box l p).1.length = some q →
        ∃ t, exec (.collectiveResultArrival id) s = .next t ∧ RecordGiven s t die key q l (delivery c.box l p).1)
      ∧ (l.op = 6 → c.deadline < s.ptc die → (p.bcast = true ∨ c.deadline + 50000 ≤ s.ptc die) → s.resolve die a 16 = some q →
        ∃ t, exec (.collectiveResultArrival id) s = .next t ∧ RecordGiven s t die key q l (leBytes 16 1))
      ∧ (c.deadline + 50000 ≤ s.ptc die → l.op ≠ 6 → (c.state ≠ .gather ∨ s.outPort c.box die ≠ none ∨ c.folded = none) →
        s.resolve die a 16 = some q →
        ∃ t, exec (.collectiveResultArrival id) s = .next t ∧ RecordGiven s t die key q l (leBytes 16 4)))
    ∧ (∀ c, s.coll die key = some c →
      (c.deadline + 50000 ≤ s.ptc die →
        let out (P : State → Prop) : Prop := ∃ t, exec (.collectiveSlotTimeout die job cid) s = .next t ∧ P t
        let gathers := c.state = .gather ∧ s.outPort c.box die = none
        (c.loc = none →
          ((¬gathers ∨ c.folded = none) → out fun t => t.coll die key = none ∧ t.mem = s.mem)
          ∧ (∀ p, gathers → c.folded = some p → out fun t => t.coll die key = some { c with state := .done, result := some p }))
        ∧ (∀ l a q, c.loc = some l → l.buf = some a →
          (s.resolve die a 16 = some q →
            (l.op ≠ 6 → (¬gathers ∨ c.folded = none) → out fun t => RecordGiven s t die key q l (leBytes 16 4))
            ∧ (l.op = 6 → out fun t => RecordGiven s t die key q l (leBytes 16 1)))
          ∧ (∀ p, l.op ≠ 6 → gathers → c.folded = some p → s.resolve die a (delivery c.box l p).1.length = some q →
            out fun t => RecordGiven s t die key q l (delivery c.box l p).1)))
      ∧ (s.ptc die < c.deadline + 50000 → exec (.collectiveSlotTimeout die job cid) s = .next s)
      ∧ (∀ l a q, c.loc = some l → l.op = 6 → l.buf = some a → s.resolve die a 16 = some q →
        (c.deadline < s.ptc die → ∃ t, exec (.cbcastDeadline die job cid) s = .next t ∧ RecordGiven s t die key q l (leBytes 16 1))
        ∧ (s.ptc die ≤ c.deadline → exec (.cbcastDeadline die job cid) s = .next s)))

/-! ## Words, steps, reset -/

/-- R81, R91, R93, R94, R101: words of each format, written from their fields. -/
def Obligations.DecodeWords : Prop :=
  decodeCt (0x01#7 ++ 3#6 ++ 1#6 ++ 2#6 ++ 0#7) = .ok (.add 3 1 2)
  ∧ decodeCt (0x02#7 ++ 5#6 ++ 4#6 ++ 0x1FFF#13) = .ok (.addImm 5 4 0x1FFF)
  ∧ decodeCt (0x10#7 ++ 7#6 ++ 8#6 ++ 0#3 ++ 0#2 ++ 3#2 ++ 1#1 ++ 2#5) = .ok (.ld 7 8 0 0 3 1 2)
  ∧ decodeCt (0x18#7 ++ 1#3 ++ 2#6 ++ 3#6 ++ 0x3FF#10) = .ok (.br 1 2 3 0x3FF)
  ∧ decodeCt (0x19#7 ++ 1#1 ++ 4#3 ++ 6#21) = .ok (.bq 1 4 6)
  ∧ decodeCt (0x20#7 ++ 3#6 ++ 1#6 ++ 2#6 ++ 0#7) = .ok (.fadd 3 1 2)
  ∧ decodeCt (0x30#7 ++ 9#6 ++ 8#6 ++ 7#6 ++ 2#3 ++ 1#2 ++ 1#1 ++ 0#1) = .ok (.aadd 9 8 7 2 1 1 0)
  ∧ decodeCt (0x1F#7 ++ 5#25) = .ok (.pfx 5) ∧ decodeCt (0x1E#7 ++ 3#3 ++ 1#1 ++ 4#3 ++ 0#18) = .ok (.grd 3 1 4)
  ∧ decodeCt (0x55#7 ++ 0#3 ++ 10#6 ++ 4#6 ++ 5#6 ++ 1#1 ++ 1#1 ++ 0#2) = .ok (.mmul 10 4 5 1 1)
  ∧ decodeCt (0x7F#7 ++ 1#6 ++ 0#3 ++ 0x1234#16) = .ok (.trap 0x1234)
  ∧ decodeVs (0x10#8 ++ 1#8 ++ 2#8 ++ 3#8) = .ok (.vadd 1 2 3) ∧ decodeVs (0x80#8 ++ 0#8 ++ 9#16) = .ok (.vloop 9)
  ∧ decodeCt (0x01#7 ++ 3#6 ++ 1#6 ++ 2#6 ++ 0x1C#7) = .error .unassigned
  ∧ decodeCt (0x55#7 ++ 0#3 ++ 10#6 ++ 4#6 ++ 0#6 ++ 0#1 ++ 0#1 ++ 0#2) = .error .operand

/-- The instructions of the vector sequencer. -/
def microOrder : Instr → Bool
  | .vnop | .vadd .. | .vaddZ .. | .vsub .. | .vsubZ .. | .vmul .. | .vmulZ .. | .vfma .. | .vfmaZ .. | .vfmaS ..
  | .vfmaSZ .. | .vdiv .. | .vdivZ .. | .vmax .. | .vmaxZ .. | .vmin .. | .vminZ .. | .vsgn .. | .vsgnZ .. | .vrcp ..
  | .vrsq .. | .vsqrt .. | .vexp2 .. | .vlog2 .. | .vcmpEq .. | .vcmpLt .. | .vcmpLe .. | .vcmpUn .. | .vcmpZEq ..
  | .vcmpZLt .. | .vcmpZLe .. | .vcmpZUn .. | .vsel .. | .viadd .. | .viaddZ .. | .visub .. | .visubZ .. | .vimul ..
  | .vimulZ .. | .vimax .. | .vimaxZ .. | .vimin .. | .viminZ .. | .vbitAnd .. | .vbitOr .. | .vbitXor .. | .vbitAndn ..
  | .vshfShl .. | .vshfShr .. | .vshfSra .. | .viaddSat .. | .visubSat .. | .vimaxN .. | .viminN .. | .vcvt .. | .vqnt ..
  | .vrsum .. | .vrmax .. | .vrmin .. | .vmov .. | .vrot .. | .vbcast .. | .vld .. | .vst .. | .vldT .. | .vstT ..
  | .vpop .. | .vpush .. | .vsacc .. | .vsaccN .. | .vaccr .. | .vsigq .. | .vsigs .. | .vsigr .. | .vloop .. | .vend
  | .vflag .. | .vflagNew .. | .vwait .. | .vidx .. | .vidxAdd .. | .vkset .. | .vzmovLane .. | .vzmovZ .. => true
  | _ => false

/-- R80, R81, R93, R97, R101: the decoder of its stream reads the word of every well-formed instruction as that instruction, with
every operand at every value; only the word of BUFPH_CLOSE is read as BUFPH_SWAP, whose register tells them apart (R267). -/
def Obligations.WordsRoundTrip : Prop :=
  ∀ (i : Instr) (w : W32), wellFormed i = true → encode i = some w →
    (microOrder i = true → decodeVs w = .ok i)
    ∧ (microOrder i = false → decodeCt w = .ok (match i with
        | .bufphClose a => .bufphSwap a
        | i => i))

/-- What a turn runs in place of its word: nothing has stopped the tile, nothing is taken first, and the word at the pc, in the
fetch buffer or else in memory, can be fetched and is not skipped by a clause. -/
def FetchReady (s : State) (k : Nat) (w : W32) : Prop :=
  let t := s.tile k
  tileDie k ∉ s.lost ∧ t.status = .running ∧ (∀ x, t.wait = some x → x.parked = false) ∧ t.stallUntil ≤ s.dcc (tileDie k)
  ∧ (t.pfx = none → s.cancelNow k = false ∧ (t.inh = true ∨ ∀ r ∈ t.reports, r.leg = false)) ∧ t.journal.length < Config.journalSize
  ∧ (clauseRem t.clause = 0 ∨ clausePv t.clause = true) ∧ t.pc.toNat % 4 = 0
  ∧ ∃ a, s.check k t.pc 4 .x = .ok a ∧ match t.fbuf.find? fun x => x.1 = t.pc.toNat with
    | some x => w = x.2
    | none => ∃ q, s.resolve (tileDie k) a.plain 4 = some q ∧ s.badSector q 4 = none ∧ w = BitVec.ofNat 32 (leNat (s.bytes q 4))

/-- R59, R70, R80, R84, R89, R187, R267: a turn of the control thread runs the instruction that the word at its pc decodes to, on that tile,
with what follows every word; a word that no row of the table has, or that its place forbids, is ILLEGAL_OP; a word follows its PFX at
once; a turn of the vector sequencer runs the step its table has reached; an event's turn is the event; a fetch buffer takes a word that memory
holds, and keeps 64. The schedule itself is the model's own (log 2), and so is when a buffer takes a word (log 92). -/
def Obligations.StepRuns : Prop :=
  ∀ (s : State) (k c n : Nat) (rest : List Turn) (w : W32) (i : Instr),
    let u : State := { s.elapse c n with turns := rest }
    let bad (t : Tile) : Prop := (t.pfx.isSome = true ∧ takesPfx i = false) ∨ (0 < clauseRem t.clause ∧ neverGoverned i = true)
      ∨ (1 < clauseRem t.clause ∧ lastGoverned i = true)
    (s.midWord = false → s.turns = { who := .ct k, cycles := c, ns := n } :: rest → FetchReady u k w →
      (decodeCt w = .ok i → ¬ bad (u.tile k) →
        step s = finishTurn (.ct k) (exec (refineBufph (u.tile k) i) { u.setTile k { u.tile k with word := w } with focus := k }))
      ∧ (decodeCt w = .ok i → bad (u.tile k) → step s = .next ((u.fault k 0x01).afterTurn (.ct k)))
      ∧ (∀ e, decodeCt w = .error e → step s = .next ((u.fault k 0x01).afterTurn (.ct k))))
    ∧ (s.midWord = true → FetchReady s s.focus w → decodeCt w = .ok i → ¬ bad s.cur →
      step s = finishTurn (.ct s.focus) (exec (refineBufph s.cur i) { s.setTile s.focus { s.cur with word := w } with focus := s.focus }))
    ∧ (∀ v, s.midWord = false → s.turns = { who := .vs k, cycles := c, ns := n } :: rest → tileDie k ∉ s.lost → (u.tile k).vs = some v →
      v.done = false → v.halt = false → (u.tile k).seekStep v (v.steps - v.upc) v.upc = v.upc → v.upc < v.steps →
      decodeVs ((u.tile k).stepWord v v.upc) = .ok i →
      step s = finishTurn (.vs k) (exec i { u.setTile k { u.tile k with vs := some v } with focus := k }))
    ∧ (∀ va a q, s.midWord = false → s.turns = { who := .prefetch k va, cycles := c, ns := n } :: rest → tileDie k ∉ s.lost →
      (u.tile k).status = .running → va % 4 = 0 → u.check k (BitVec.ofNat 64 va) 4 .x = .ok a → u.resolve (tileDie k) a.plain 4 = some q →
      u.badSector q 4 = none →
      step s = .next (u.setTile k { u.tile k with
        fbuf := ((va, BitVec.ofNat 32 (leNat (s.bytes q 4))) :: (u.tile k).fbuf.filter fun x => x.1 ≠ va).take 64 }))
    ∧ (s.midWord = false → s.turns = { who := .ev i, cycles := c, ns := n } :: rest → encode i = none →
      (∀ d, eventHome i = some d → d ∉ s.lost) → ∃ o, exec i u = o ∧ step s = finishTurn (.ev i) o)

/-- R3: every step leaves memory, and the host's memory, in their one form: addresses strictly rising, and nothing listed that reads
as a byte never written. -/
def Obligations.MemoryKept : Prop := ∀ s t : State, s.memoryOk → step s = .next t → t.memoryOk

/-- R6, R11, R15, R17, R42, R76, R147, R235, R248, R272, R278: what reset leaves, by the values that the rules give. Values that the
rules do not give are the model's choice (logs 5, 13, 14) and not stated here. -/
def Obligations.ResetState : Prop :=
  State.reset.memoryOk
  ∧ (∀ k, (State.reset.tile k).status = .idle ∧ (State.reset.tile k).gReg 0 = 0 ∧ (State.reset.tile k).qReg 0 = true
    ∧ (State.reset.tile k).kGet 0 = BitVec.allOnes 64 ∧ (State.reset.tile k).waitCap = 0x03FFF03FFF03FFF#64)
  ∧ (∀ d, State.reset.dcc d = 0 ∧ State.reset.ptc d = 0 ∧ (State.reset.die d).ageLimit = 1000000 ∧ (State.reset.die d).preemptLimit = 50000
    ∧ (State.reset.die d).evovfBase = 0 ∧ (State.reset.die d).evovfSize = 0 ∧ (State.reset.die d).cimGate = 256
    ∧ (State.reset.die d).reqTimeout = 100000 ∧ ∀ j, (State.reset.jobDie d j).quota = 0)
  ∧ (∀ p f, (State.reset.func p f).quads = 0 ∧ (State.reset.func p f).asidWord = 0 ∧ (State.reset.func p f).en = false
    ∧ (State.reset.func p f).flrb = false ∧ (State.reset.func p f).cqBase = 0 ∧ (State.reset.func p f).cqCtl = 0 ∧ (State.reset.func p f).cqHead = 0)
  ∧ (∀ p, (State.reset.pkg p).pwrCap = 3600 ∧ (State.reset.pkg p).pwrAvg = 0 ∧ (State.reset.pkg p).pwrTemp = 0 ∧ (State.reset.pkg p).pwrStr = 0)
  ∧ State.reset.dieCoord 5 = (1, 0, 1) ∧ State.reset.lost = []
end

