-- ==== Sys2Proof/Laws/State.lean ====
section
/-! SUPPORT. What each update of the state and of a tile leaves of each field: one lemma per field per update. -/

namespace Sys2Proof.Machine

/-! ## Updates of the state -/

@[simp] theorem State.setTile_turns (s : State) (k : Nat) (t : Tile) : (s.setTile k t).turns = s.turns := rfl
@[simp] theorem State.setTile_focus (s : State) (k : Nat) (t : Tile) : (s.setTile k t).focus = s.focus := rfl
@[simp] theorem State.setTile_fresh (s : State) (k : Nat) (t : Tile) : (s.setTile k t).fresh = s.fresh := rfl
@[simp] theorem State.setTile_nextId (s : State) (k : Nat) (t : Tile) : (s.setTile k t).nextId = s.nextId := rfl
@[simp] theorem State.setTile_cycles (s : State) (k : Nat) (t : Tile) : (s.setTile k t).cycles = s.cycles := rfl
@[simp] theorem State.setTile_ns (s : State) (k : Nat) (t : Tile) : (s.setTile k t).ns = s.ns := rfl
@[simp] theorem State.setTile_npx (s : State) (k : Nat) (t : Tile) : (s.setTile k t).npx = s.npx := rfl
@[simp] theorem State.setTile_npy (s : State) (k : Nat) (t : Tile) : (s.setTile k t).npy = s.npy := rfl
@[simp] theorem State.setTile_npz (s : State) (k : Nat) (t : Tile) : (s.setTile k t).npz = s.npz := rfl
@[simp] theorem State.setTile_lost (s : State) (k : Nat) (t : Tile) : (s.setTile k t).lost = s.lost := rfl
@[simp] theorem State.setTile_pkgs (s : State) (k : Nat) (t : Tile) : (s.setTile k t).pkgs = s.pkgs := rfl
@[simp] theorem State.setTile_dies (s : State) (k : Nat) (t : Tile) : (s.setTile k t).dies = s.dies := rfl
@[simp] theorem State.setTile_tiles (s : State) (k : Nat) (t : Tile) : (s.setTile k t).tiles = Tab.put s.tiles k t := rfl
@[simp] theorem State.setTile_jobs (s : State) (k : Nat) (t : Tile) : (s.setTile k t).jobs = s.jobs := rfl
@[simp] theorem State.setTile_mem (s : State) (k : Nat) (t : Tile) : (s.setTile k t).mem = s.mem := rfl
@[simp] theorem State.setTile_hostMem (s : State) (k : Nat) (t : Tile) : (s.setTile k t).hostMem = s.hostMem := rfl
@[simp] theorem State.setTile_owners (s : State) (k : Nat) (t : Tile) : (s.setTile k t).owners = s.owners := rfl
@[simp] theorem State.setTile_reqs (s : State) (k : Nat) (t : Tile) : (s.setTile k t).reqs = s.reqs := rfl
@[simp] theorem State.setTile_msgs (s : State) (k : Nat) (t : Tile) : (s.setTile k t).msgs = s.msgs := rfl
@[simp] theorem State.setTile_sentAt (s : State) (k : Nat) (t : Tile) : (s.setTile k t).sentAt = s.sentAt := rfl
@[simp] theorem State.setTile_timeMaster (s : State) (k : Nat) (t : Tile) : (s.setTile k t).timeMaster = s.timeMaster := rfl
@[simp] theorem State.setTile_revs (s : State) (k : Nat) (t : Tile) : (s.setTile k t).revs = s.revs := rfl

@[simp] theorem State.modTile_turns (s : State) (k : Nat) (f : Tile → Tile) : (s.modTile k f).turns = s.turns := rfl
@[simp] theorem State.modTile_focus (s : State) (k : Nat) (f : Tile → Tile) : (s.modTile k f).focus = s.focus := rfl
@[simp] theorem State.modTile_fresh (s : State) (k : Nat) (f : Tile → Tile) : (s.modTile k f).fresh = s.fresh := rfl
@[simp] theorem State.modTile_nextId (s : State) (k : Nat) (f : Tile → Tile) : (s.modTile k f).nextId = s.nextId := rfl
@[simp] theorem State.modTile_cycles (s : State) (k : Nat) (f : Tile → Tile) : (s.modTile k f).cycles = s.cycles := rfl
@[simp] theorem State.modTile_ns (s : State) (k : Nat) (f : Tile → Tile) : (s.modTile k f).ns = s.ns := rfl
@[simp] theorem State.modTile_npx (s : State) (k : Nat) (f : Tile → Tile) : (s.modTile k f).npx = s.npx := rfl
@[simp] theorem State.modTile_npy (s : State) (k : Nat) (f : Tile → Tile) : (s.modTile k f).npy = s.npy := rfl
@[simp] theorem State.modTile_npz (s : State) (k : Nat) (f : Tile → Tile) : (s.modTile k f).npz = s.npz := rfl
@[simp] theorem State.modTile_lost (s : State) (k : Nat) (f : Tile → Tile) : (s.modTile k f).lost = s.lost := rfl
@[simp] theorem State.modTile_pkgs (s : State) (k : Nat) (f : Tile → Tile) : (s.modTile k f).pkgs = s.pkgs := rfl
@[simp] theorem State.modTile_dies (s : State) (k : Nat) (f : Tile → Tile) : (s.modTile k f).dies = s.dies := rfl
@[simp] theorem State.modTile_tiles (s : State) (k : Nat) (f : Tile → Tile) : (s.modTile k f).tiles = Tab.put s.tiles k (f (s.tile k)) := rfl
@[simp] theorem State.modTile_jobs (s : State) (k : Nat) (f : Tile → Tile) : (s.modTile k f).jobs = s.jobs := rfl
@[simp] theorem State.modTile_mem (s : State) (k : Nat) (f : Tile → Tile) : (s.modTile k f).mem = s.mem := rfl
@[simp] theorem State.modTile_hostMem (s : State) (k : Nat) (f : Tile → Tile) : (s.modTile k f).hostMem = s.hostMem := rfl
@[simp] theorem State.modTile_owners (s : State) (k : Nat) (f : Tile → Tile) : (s.modTile k f).owners = s.owners := rfl
@[simp] theorem State.modTile_reqs (s : State) (k : Nat) (f : Tile → Tile) : (s.modTile k f).reqs = s.reqs := rfl
@[simp] theorem State.modTile_msgs (s : State) (k : Nat) (f : Tile → Tile) : (s.modTile k f).msgs = s.msgs := rfl
@[simp] theorem State.modTile_sentAt (s : State) (k : Nat) (f : Tile → Tile) : (s.modTile k f).sentAt = s.sentAt := rfl
@[simp] theorem State.modTile_timeMaster (s : State) (k : Nat) (f : Tile → Tile) : (s.modTile k f).timeMaster = s.timeMaster := rfl
@[simp] theorem State.modTile_revs (s : State) (k : Nat) (f : Tile → Tile) : (s.modTile k f).revs = s.revs := rfl

@[simp] theorem State.setDie_turns (s : State) (d : Nat) (x : Die) : (s.setDie d x).turns = s.turns := rfl
@[simp] theorem State.setDie_focus (s : State) (d : Nat) (x : Die) : (s.setDie d x).focus = s.focus := rfl
@[simp] theorem State.setDie_fresh (s : State) (d : Nat) (x : Die) : (s.setDie d x).fresh = s.fresh := rfl
@[simp] theorem State.setDie_nextId (s : State) (d : Nat) (x : Die) : (s.setDie d x).nextId = s.nextId := rfl
@[simp] theorem State.setDie_cycles (s : State) (d : Nat) (x : Die) : (s.setDie d x).cycles = s.cycles := rfl
@[simp] theorem State.setDie_ns (s : State) (d : Nat) (x : Die) : (s.setDie d x).ns = s.ns := rfl
@[simp] theorem State.setDie_npx (s : State) (d : Nat) (x : Die) : (s.setDie d x).npx = s.npx := rfl
@[simp] theorem State.setDie_npy (s : State) (d : Nat) (x : Die) : (s.setDie d x).npy = s.npy := rfl
@[simp] theorem State.setDie_npz (s : State) (d : Nat) (x : Die) : (s.setDie d x).npz = s.npz := rfl
@[simp] theorem State.setDie_lost (s : State) (d : Nat) (x : Die) : (s.setDie d x).lost = s.lost := rfl
@[simp] theorem State.setDie_pkgs (s : State) (d : Nat) (x : Die) : (s.setDie d x).pkgs = s.pkgs := rfl
@[simp] theorem State.setDie_dies (s : State) (d : Nat) (x : Die) : (s.setDie d x).dies = Tab.put s.dies d x := rfl
@[simp] theorem State.setDie_tiles (s : State) (d : Nat) (x : Die) : (s.setDie d x).tiles = s.tiles := rfl
@[simp] theorem State.setDie_jobs (s : State) (d : Nat) (x : Die) : (s.setDie d x).jobs = s.jobs := rfl
@[simp] theorem State.setDie_mem (s : State) (d : Nat) (x : Die) : (s.setDie d x).mem = s.mem := rfl
@[simp] theorem State.setDie_hostMem (s : State) (d : Nat) (x : Die) : (s.setDie d x).hostMem = s.hostMem := rfl
@[simp] theorem State.setDie_owners (s : State) (d : Nat) (x : Die) : (s.setDie d x).owners = s.owners := rfl
@[simp] theorem State.setDie_reqs (s : State) (d : Nat) (x : Die) : (s.setDie d x).reqs = s.reqs := rfl
@[simp] theorem State.setDie_msgs (s : State) (d : Nat) (x : Die) : (s.setDie d x).msgs = s.msgs := rfl
@[simp] theorem State.setDie_sentAt (s : State) (d : Nat) (x : Die) : (s.setDie d x).sentAt = s.sentAt := rfl
@[simp] theorem State.setDie_timeMaster (s : State) (d : Nat) (x : Die) : (s.setDie d x).timeMaster = s.timeMaster := rfl
@[simp] theorem State.setDie_revs (s : State) (d : Nat) (x : Die) : (s.setDie d x).revs = s.revs := rfl

@[simp] theorem State.modDie_turns (s : State) (d : Nat) (f : Die → Die) : (s.modDie d f).turns = s.turns := rfl
@[simp] theorem State.modDie_focus (s : State) (d : Nat) (f : Die → Die) : (s.modDie d f).focus = s.focus := rfl
@[simp] theorem State.modDie_fresh (s : State) (d : Nat) (f : Die → Die) : (s.modDie d f).fresh = s.fresh := rfl
@[simp] theorem State.modDie_nextId (s : State) (d : Nat) (f : Die → Die) : (s.modDie d f).nextId = s.nextId := rfl
@[simp] theorem State.modDie_cycles (s : State) (d : Nat) (f : Die → Die) : (s.modDie d f).cycles = s.cycles := rfl
@[simp] theorem State.modDie_ns (s : State) (d : Nat) (f : Die → Die) : (s.modDie d f).ns = s.ns := rfl
@[simp] theorem State.modDie_npx (s : State) (d : Nat) (f : Die → Die) : (s.modDie d f).npx = s.npx := rfl
@[simp] theorem State.modDie_npy (s : State) (d : Nat) (f : Die → Die) : (s.modDie d f).npy = s.npy := rfl
@[simp] theorem State.modDie_npz (s : State) (d : Nat) (f : Die → Die) : (s.modDie d f).npz = s.npz := rfl
@[simp] theorem State.modDie_lost (s : State) (d : Nat) (f : Die → Die) : (s.modDie d f).lost = s.lost := rfl
@[simp] theorem State.modDie_pkgs (s : State) (d : Nat) (f : Die → Die) : (s.modDie d f).pkgs = s.pkgs := rfl
@[simp] theorem State.modDie_dies (s : State) (d : Nat) (f : Die → Die) : (s.modDie d f).dies = Tab.put s.dies d (f (s.die d)) := rfl
@[simp] theorem State.modDie_tiles (s : State) (d : Nat) (f : Die → Die) : (s.modDie d f).tiles = s.tiles := rfl
@[simp] theorem State.modDie_jobs (s : State) (d : Nat) (f : Die → Die) : (s.modDie d f).jobs = s.jobs := rfl
@[simp] theorem State.modDie_mem (s : State) (d : Nat) (f : Die → Die) : (s.modDie d f).mem = s.mem := rfl
@[simp] theorem State.modDie_hostMem (s : State) (d : Nat) (f : Die → Die) : (s.modDie d f).hostMem = s.hostMem := rfl
@[simp] theorem State.modDie_owners (s : State) (d : Nat) (f : Die → Die) : (s.modDie d f).owners = s.owners := rfl
@[simp] theorem State.modDie_reqs (s : State) (d : Nat) (f : Die → Die) : (s.modDie d f).reqs = s.reqs := rfl
@[simp] theorem State.modDie_msgs (s : State) (d : Nat) (f : Die → Die) : (s.modDie d f).msgs = s.msgs := rfl
@[simp] theorem State.modDie_sentAt (s : State) (d : Nat) (f : Die → Die) : (s.modDie d f).sentAt = s.sentAt := rfl
@[simp] theorem State.modDie_timeMaster (s : State) (d : Nat) (f : Die → Die) : (s.modDie d f).timeMaster = s.timeMaster := rfl
@[simp] theorem State.modDie_revs (s : State) (d : Nat) (f : Die → Die) : (s.modDie d f).revs = s.revs := rfl

@[simp] theorem State.setPkg_turns (s : State) (p : Nat) (x : Pkg) : (s.setPkg p x).turns = s.turns := rfl
@[simp] theorem State.setPkg_focus (s : State) (p : Nat) (x : Pkg) : (s.setPkg p x).focus = s.focus := rfl
@[simp] theorem State.setPkg_fresh (s : State) (p : Nat) (x : Pkg) : (s.setPkg p x).fresh = s.fresh := rfl
@[simp] theorem State.setPkg_nextId (s : State) (p : Nat) (x : Pkg) : (s.setPkg p x).nextId = s.nextId := rfl
@[simp] theorem State.setPkg_cycles (s : State) (p : Nat) (x : Pkg) : (s.setPkg p x).cycles = s.cycles := rfl
@[simp] theorem State.setPkg_ns (s : State) (p : Nat) (x : Pkg) : (s.setPkg p x).ns = s.ns := rfl
@[simp] theorem State.setPkg_npx (s : State) (p : Nat) (x : Pkg) : (s.setPkg p x).npx = s.npx := rfl
@[simp] theorem State.setPkg_npy (s : State) (p : Nat) (x : Pkg) : (s.setPkg p x).npy = s.npy := rfl
@[simp] theorem State.setPkg_npz (s : State) (p : Nat) (x : Pkg) : (s.setPkg p x).npz = s.npz := rfl
@[simp] theorem State.setPkg_lost (s : State) (p : Nat) (x : Pkg) : (s.setPkg p x).lost = s.lost := rfl
@[simp] theorem State.setPkg_pkgs (s : State) (p : Nat) (x : Pkg) : (s.setPkg p x).pkgs = Tab.put s.pkgs p x := rfl
@[simp] theorem State.setPkg_dies (s : State) (p : Nat) (x : Pkg) : (s.setPkg p x).dies = s.dies := rfl
@[simp] theorem State.setPkg_tiles (s : State) (p : Nat) (x : Pkg) : (s.setPkg p x).tiles = s.tiles := rfl
@[simp] theorem State.setPkg_jobs (s : State) (p : Nat) (x : Pkg) : (s.setPkg p x).jobs = s.jobs := rfl
@[simp] theorem State.setPkg_mem (s : State) (p : Nat) (x : Pkg) : (s.setPkg p x).mem = s.mem := rfl
@[simp] theorem State.setPkg_hostMem (s : State) (p : Nat) (x : Pkg) : (s.setPkg p x).hostMem = s.hostMem := rfl
@[simp] theorem State.setPkg_owners (s : State) (p : Nat) (x : Pkg) : (s.setPkg p x).owners = s.owners := rfl
@[simp] theorem State.setPkg_reqs (s : State) (p : Nat) (x : Pkg) : (s.setPkg p x).reqs = s.reqs := rfl
@[simp] theorem State.setPkg_msgs (s : State) (p : Nat) (x : Pkg) : (s.setPkg p x).msgs = s.msgs := rfl
@[simp] theorem State.setPkg_sentAt (s : State) (p : Nat) (x : Pkg) : (s.setPkg p x).sentAt = s.sentAt := rfl
@[simp] theorem State.setPkg_timeMaster (s : State) (p : Nat) (x : Pkg) : (s.setPkg p x).timeMaster = s.timeMaster := rfl
@[simp] theorem State.setPkg_revs (s : State) (p : Nat) (x : Pkg) : (s.setPkg p x).revs = s.revs := rfl

@[simp] theorem State.modPkg_turns (s : State) (p : Nat) (f : Pkg → Pkg) : (s.modPkg p f).turns = s.turns := rfl
@[simp] theorem State.modPkg_focus (s : State) (p : Nat) (f : Pkg → Pkg) : (s.modPkg p f).focus = s.focus := rfl
@[simp] theorem State.modPkg_fresh (s : State) (p : Nat) (f : Pkg → Pkg) : (s.modPkg p f).fresh = s.fresh := rfl
@[simp] theorem State.modPkg_nextId (s : State) (p : Nat) (f : Pkg → Pkg) : (s.modPkg p f).nextId = s.nextId := rfl
@[simp] theorem State.modPkg_cycles (s : State) (p : Nat) (f : Pkg → Pkg) : (s.modPkg p f).cycles = s.cycles := rfl
@[simp] theorem State.modPkg_ns (s : State) (p : Nat) (f : Pkg → Pkg) : (s.modPkg p f).ns = s.ns := rfl
@[simp] theorem State.modPkg_npx (s : State) (p : Nat) (f : Pkg → Pkg) : (s.modPkg p f).npx = s.npx := rfl
@[simp] theorem State.modPkg_npy (s : State) (p : Nat) (f : Pkg → Pkg) : (s.modPkg p f).npy = s.npy := rfl
@[simp] theorem State.modPkg_npz (s : State) (p : Nat) (f : Pkg → Pkg) : (s.modPkg p f).npz = s.npz := rfl
@[simp] theorem State.modPkg_lost (s : State) (p : Nat) (f : Pkg → Pkg) : (s.modPkg p f).lost = s.lost := rfl
@[simp] theorem State.modPkg_pkgs (s : State) (p : Nat) (f : Pkg → Pkg) : (s.modPkg p f).pkgs = Tab.put s.pkgs p (f (s.pkg p)) := rfl
@[simp] theorem State.modPkg_dies (s : State) (p : Nat) (f : Pkg → Pkg) : (s.modPkg p f).dies = s.dies := rfl
@[simp] theorem State.modPkg_tiles (s : State) (p : Nat) (f : Pkg → Pkg) : (s.modPkg p f).tiles = s.tiles := rfl
@[simp] theorem State.modPkg_jobs (s : State) (p : Nat) (f : Pkg → Pkg) : (s.modPkg p f).jobs = s.jobs := rfl
@[simp] theorem State.modPkg_mem (s : State) (p : Nat) (f : Pkg → Pkg) : (s.modPkg p f).mem = s.mem := rfl
@[simp] theorem State.modPkg_hostMem (s : State) (p : Nat) (f : Pkg → Pkg) : (s.modPkg p f).hostMem = s.hostMem := rfl
@[simp] theorem State.modPkg_owners (s : State) (p : Nat) (f : Pkg → Pkg) : (s.modPkg p f).owners = s.owners := rfl
@[simp] theorem State.modPkg_reqs (s : State) (p : Nat) (f : Pkg → Pkg) : (s.modPkg p f).reqs = s.reqs := rfl
@[simp] theorem State.modPkg_msgs (s : State) (p : Nat) (f : Pkg → Pkg) : (s.modPkg p f).msgs = s.msgs := rfl
@[simp] theorem State.modPkg_sentAt (s : State) (p : Nat) (f : Pkg → Pkg) : (s.modPkg p f).sentAt = s.sentAt := rfl
@[simp] theorem State.modPkg_timeMaster (s : State) (p : Nat) (f : Pkg → Pkg) : (s.modPkg p f).timeMaster = s.timeMaster := rfl
@[simp] theorem State.modPkg_revs (s : State) (p : Nat) (f : Pkg → Pkg) : (s.modPkg p f).revs = s.revs := rfl

@[simp] theorem State.setJob_turns (s : State) (j : Nat) (x : Job) : (s.setJob j x).turns = s.turns := rfl
@[simp] theorem State.setJob_focus (s : State) (j : Nat) (x : Job) : (s.setJob j x).focus = s.focus := rfl
@[simp] theorem State.setJob_fresh (s : State) (j : Nat) (x : Job) : (s.setJob j x).fresh = s.fresh := rfl
@[simp] theorem State.setJob_nextId (s : State) (j : Nat) (x : Job) : (s.setJob j x).nextId = s.nextId := rfl
@[simp] theorem State.setJob_cycles (s : State) (j : Nat) (x : Job) : (s.setJob j x).cycles = s.cycles := rfl
@[simp] theorem State.setJob_ns (s : State) (j : Nat) (x : Job) : (s.setJob j x).ns = s.ns := rfl
@[simp] theorem State.setJob_npx (s : State) (j : Nat) (x : Job) : (s.setJob j x).npx = s.npx := rfl
@[simp] theorem State.setJob_npy (s : State) (j : Nat) (x : Job) : (s.setJob j x).npy = s.npy := rfl
@[simp] theorem State.setJob_npz (s : State) (j : Nat) (x : Job) : (s.setJob j x).npz = s.npz := rfl
@[simp] theorem State.setJob_lost (s : State) (j : Nat) (x : Job) : (s.setJob j x).lost = s.lost := rfl
@[simp] theorem State.setJob_pkgs (s : State) (j : Nat) (x : Job) : (s.setJob j x).pkgs = s.pkgs := rfl
@[simp] theorem State.setJob_dies (s : State) (j : Nat) (x : Job) : (s.setJob j x).dies = s.dies := rfl
@[simp] theorem State.setJob_tiles (s : State) (j : Nat) (x : Job) : (s.setJob j x).tiles = s.tiles := rfl
@[simp] theorem State.setJob_jobs (s : State) (j : Nat) (x : Job) : (s.setJob j x).jobs = Tab.put s.jobs j x := rfl
@[simp] theorem State.setJob_mem (s : State) (j : Nat) (x : Job) : (s.setJob j x).mem = s.mem := rfl
@[simp] theorem State.setJob_hostMem (s : State) (j : Nat) (x : Job) : (s.setJob j x).hostMem = s.hostMem := rfl
@[simp] theorem State.setJob_owners (s : State) (j : Nat) (x : Job) : (s.setJob j x).owners = s.owners := rfl
@[simp] theorem State.setJob_reqs (s : State) (j : Nat) (x : Job) : (s.setJob j x).reqs = s.reqs := rfl
@[simp] theorem State.setJob_msgs (s : State) (j : Nat) (x : Job) : (s.setJob j x).msgs = s.msgs := rfl
@[simp] theorem State.setJob_sentAt (s : State) (j : Nat) (x : Job) : (s.setJob j x).sentAt = s.sentAt := rfl
@[simp] theorem State.setJob_timeMaster (s : State) (j : Nat) (x : Job) : (s.setJob j x).timeMaster = s.timeMaster := rfl
@[simp] theorem State.setJob_revs (s : State) (j : Nat) (x : Job) : (s.setJob j x).revs = s.revs := rfl

@[simp] theorem State.bump_turns (s : State) : (s.bump).turns = s.turns := rfl
@[simp] theorem State.bump_focus (s : State) : (s.bump).focus = s.focus := rfl
@[simp] theorem State.bump_fresh (s : State) : (s.bump).fresh = s.fresh + 1 := rfl
@[simp] theorem State.bump_nextId (s : State) : (s.bump).nextId = s.nextId := rfl
@[simp] theorem State.bump_cycles (s : State) : (s.bump).cycles = s.cycles := rfl
@[simp] theorem State.bump_ns (s : State) : (s.bump).ns = s.ns := rfl
@[simp] theorem State.bump_npx (s : State) : (s.bump).npx = s.npx := rfl
@[simp] theorem State.bump_npy (s : State) : (s.bump).npy = s.npy := rfl
@[simp] theorem State.bump_npz (s : State) : (s.bump).npz = s.npz := rfl
@[simp] theorem State.bump_lost (s : State) : (s.bump).lost = s.lost := rfl
@[simp] theorem State.bump_pkgs (s : State) : (s.bump).pkgs = s.pkgs := rfl
@[simp] theorem State.bump_dies (s : State) : (s.bump).dies = s.dies := rfl
@[simp] theorem State.bump_tiles (s : State) : (s.bump).tiles = s.tiles := rfl
@[simp] theorem State.bump_jobs (s : State) : (s.bump).jobs = s.jobs := rfl
@[simp] theorem State.bump_mem (s : State) : (s.bump).mem = s.mem := rfl
@[simp] theorem State.bump_hostMem (s : State) : (s.bump).hostMem = s.hostMem := rfl
@[simp] theorem State.bump_owners (s : State) : (s.bump).owners = s.owners := rfl
@[simp] theorem State.bump_reqs (s : State) : (s.bump).reqs = s.reqs := rfl
@[simp] theorem State.bump_msgs (s : State) : (s.bump).msgs = s.msgs := rfl
@[simp] theorem State.bump_sentAt (s : State) : (s.bump).sentAt = s.sentAt := rfl
@[simp] theorem State.bump_timeMaster (s : State) : (s.bump).timeMaster = s.timeMaster := rfl
@[simp] theorem State.bump_revs (s : State) : (s.bump).revs = s.revs := rfl

@[simp] theorem State.putByte_turns (s : State) (p : Nat) (b : Byte) : (s.putByte p b).turns = s.turns := rfl
@[simp] theorem State.putByte_focus (s : State) (p : Nat) (b : Byte) : (s.putByte p b).focus = s.focus := rfl
@[simp] theorem State.putByte_fresh (s : State) (p : Nat) (b : Byte) : (s.putByte p b).fresh = s.fresh := rfl
@[simp] theorem State.putByte_nextId (s : State) (p : Nat) (b : Byte) : (s.putByte p b).nextId = s.nextId := rfl
@[simp] theorem State.putByte_cycles (s : State) (p : Nat) (b : Byte) : (s.putByte p b).cycles = s.cycles := rfl
@[simp] theorem State.putByte_ns (s : State) (p : Nat) (b : Byte) : (s.putByte p b).ns = s.ns := rfl
@[simp] theorem State.putByte_npx (s : State) (p : Nat) (b : Byte) : (s.putByte p b).npx = s.npx := rfl
@[simp] theorem State.putByte_npy (s : State) (p : Nat) (b : Byte) : (s.putByte p b).npy = s.npy := rfl
@[simp] theorem State.putByte_npz (s : State) (p : Nat) (b : Byte) : (s.putByte p b).npz = s.npz := rfl
@[simp] theorem State.putByte_lost (s : State) (p : Nat) (b : Byte) : (s.putByte p b).lost = s.lost := rfl
@[simp] theorem State.putByte_pkgs (s : State) (p : Nat) (b : Byte) : (s.putByte p b).pkgs = s.pkgs := rfl
@[simp] theorem State.putByte_dies (s : State) (p : Nat) (b : Byte) : (s.putByte p b).dies = s.dies := rfl
@[simp] theorem State.putByte_tiles (s : State) (p : Nat) (b : Byte) : (s.putByte p b).tiles = s.tiles := rfl
@[simp] theorem State.putByte_jobs (s : State) (p : Nat) (b : Byte) : (s.putByte p b).jobs = s.jobs := rfl
@[simp] theorem State.putByte_mem (s : State) (p : Nat) (b : Byte) : (s.putByte p b).mem = Tab.set 0 s.mem p b := rfl
@[simp] theorem State.putByte_hostMem (s : State) (p : Nat) (b : Byte) : (s.putByte p b).hostMem = s.hostMem := rfl
@[simp] theorem State.putByte_owners (s : State) (p : Nat) (b : Byte) : (s.putByte p b).owners = s.owners := rfl
@[simp] theorem State.putByte_reqs (s : State) (p : Nat) (b : Byte) : (s.putByte p b).reqs = s.reqs := rfl
@[simp] theorem State.putByte_msgs (s : State) (p : Nat) (b : Byte) : (s.putByte p b).msgs = s.msgs := rfl
@[simp] theorem State.putByte_sentAt (s : State) (p : Nat) (b : Byte) : (s.putByte p b).sentAt = s.sentAt := rfl
@[simp] theorem State.putByte_timeMaster (s : State) (p : Nat) (b : Byte) : (s.putByte p b).timeMaster = s.timeMaster := rfl
@[simp] theorem State.putByte_revs (s : State) (p : Nat) (b : Byte) : (s.putByte p b).revs = s.revs := rfl

@[simp] theorem State.modJobDie_turns (s : State) (d j : Nat) (h : JobDie → JobDie) : (s.modJobDie d j h).turns = s.turns := rfl
@[simp] theorem State.modJobDie_focus (s : State) (d j : Nat) (h : JobDie → JobDie) : (s.modJobDie d j h).focus = s.focus := rfl
@[simp] theorem State.modJobDie_fresh (s : State) (d j : Nat) (h : JobDie → JobDie) : (s.modJobDie d j h).fresh = s.fresh := rfl
@[simp] theorem State.modJobDie_nextId (s : State) (d j : Nat) (h : JobDie → JobDie) : (s.modJobDie d j h).nextId = s.nextId := rfl
@[simp] theorem State.modJobDie_cycles (s : State) (d j : Nat) (h : JobDie → JobDie) : (s.modJobDie d j h).cycles = s.cycles := rfl
@[simp] theorem State.modJobDie_ns (s : State) (d j : Nat) (h : JobDie → JobDie) : (s.modJobDie d j h).ns = s.ns := rfl
@[simp] theorem State.modJobDie_npx (s : State) (d j : Nat) (h : JobDie → JobDie) : (s.modJobDie d j h).npx = s.npx := rfl
@[simp] theorem State.modJobDie_npy (s : State) (d j : Nat) (h : JobDie → JobDie) : (s.modJobDie d j h).npy = s.npy := rfl
@[simp] theorem State.modJobDie_npz (s : State) (d j : Nat) (h : JobDie → JobDie) : (s.modJobDie d j h).npz = s.npz := rfl
@[simp] theorem State.modJobDie_lost (s : State) (d j : Nat) (h : JobDie → JobDie) : (s.modJobDie d j h).lost = s.lost := rfl
@[simp] theorem State.modJobDie_pkgs (s : State) (d j : Nat) (h : JobDie → JobDie) : (s.modJobDie d j h).pkgs = s.pkgs := rfl
@[simp] theorem State.modJobDie_tiles (s : State) (d j : Nat) (h : JobDie → JobDie) : (s.modJobDie d j h).tiles = s.tiles := rfl
@[simp] theorem State.modJobDie_jobs (s : State) (d j : Nat) (h : JobDie → JobDie) : (s.modJobDie d j h).jobs = s.jobs := rfl
@[simp] theorem State.modJobDie_mem (s : State) (d j : Nat) (h : JobDie → JobDie) : (s.modJobDie d j h).mem = s.mem := rfl
@[simp] theorem State.modJobDie_hostMem (s : State) (d j : Nat) (h : JobDie → JobDie) : (s.modJobDie d j h).hostMem = s.hostMem := rfl
@[simp] theorem State.modJobDie_owners (s : State) (d j : Nat) (h : JobDie → JobDie) : (s.modJobDie d j h).owners = s.owners := rfl
@[simp] theorem State.modJobDie_reqs (s : State) (d j : Nat) (h : JobDie → JobDie) : (s.modJobDie d j h).reqs = s.reqs := rfl
@[simp] theorem State.modJobDie_msgs (s : State) (d j : Nat) (h : JobDie → JobDie) : (s.modJobDie d j h).msgs = s.msgs := rfl
@[simp] theorem State.modJobDie_sentAt (s : State) (d j : Nat) (h : JobDie → JobDie) : (s.modJobDie d j h).sentAt = s.sentAt := rfl
@[simp] theorem State.modJobDie_timeMaster (s : State) (d j : Nat) (h : JobDie → JobDie) : (s.modJobDie d j h).timeMaster = s.timeMaster := rfl
@[simp] theorem State.modJobDie_revs (s : State) (d j : Nat) (h : JobDie → JobDie) : (s.modJobDie d j h).revs = s.revs := rfl
@[simp] theorem State.modFunc_turns (s : State) (p x : Nat) (h : Func → Func) : (s.modFunc p x h).turns = s.turns := rfl
@[simp] theorem State.modFunc_focus (s : State) (p x : Nat) (h : Func → Func) : (s.modFunc p x h).focus = s.focus := rfl
@[simp] theorem State.modFunc_fresh (s : State) (p x : Nat) (h : Func → Func) : (s.modFunc p x h).fresh = s.fresh := rfl
@[simp] theorem State.modFunc_nextId (s : State) (p x : Nat) (h : Func → Func) : (s.modFunc p x h).nextId = s.nextId := rfl
@[simp] theorem State.modFunc_cycles (s : State) (p x : Nat) (h : Func → Func) : (s.modFunc p x h).cycles = s.cycles := rfl
@[simp] theorem State.modFunc_ns (s : State) (p x : Nat) (h : Func → Func) : (s.modFunc p x h).ns = s.ns := rfl
@[simp] theorem State.modFunc_npx (s : State) (p x : Nat) (h : Func → Func) : (s.modFunc p x h).npx = s.npx := rfl
@[simp] theorem State.modFunc_npy (s : State) (p x : Nat) (h : Func → Func) : (s.modFunc p x h).npy = s.npy := rfl
@[simp] theorem State.modFunc_npz (s : State) (p x : Nat) (h : Func → Func) : (s.modFunc p x h).npz = s.npz := rfl
@[simp] theorem State.modFunc_lost (s : State) (p x : Nat) (h : Func → Func) : (s.modFunc p x h).lost = s.lost := rfl
@[simp] theorem State.modFunc_dies (s : State) (p x : Nat) (h : Func → Func) : (s.modFunc p x h).dies = s.dies := rfl
@[simp] theorem State.modFunc_tiles (s : State) (p x : Nat) (h : Func → Func) : (s.modFunc p x h).tiles = s.tiles := rfl
@[simp] theorem State.modFunc_jobs (s : State) (p x : Nat) (h : Func → Func) : (s.modFunc p x h).jobs = s.jobs := rfl
@[simp] theorem State.modFunc_mem (s : State) (p x : Nat) (h : Func → Func) : (s.modFunc p x h).mem = s.mem := rfl
@[simp] theorem State.modFunc_hostMem (s : State) (p x : Nat) (h : Func → Func) : (s.modFunc p x h).hostMem = s.hostMem := rfl
@[simp] theorem State.modFunc_owners (s : State) (p x : Nat) (h : Func → Func) : (s.modFunc p x h).owners = s.owners := rfl
@[simp] theorem State.modFunc_reqs (s : State) (p x : Nat) (h : Func → Func) : (s.modFunc p x h).reqs = s.reqs := rfl
@[simp] theorem State.modFunc_msgs (s : State) (p x : Nat) (h : Func → Func) : (s.modFunc p x h).msgs = s.msgs := rfl
@[simp] theorem State.modFunc_sentAt (s : State) (p x : Nat) (h : Func → Func) : (s.modFunc p x h).sentAt = s.sentAt := rfl
@[simp] theorem State.modFunc_timeMaster (s : State) (p x : Nat) (h : Func → Func) : (s.modFunc p x h).timeMaster = s.timeMaster := rfl
@[simp] theorem State.modFunc_revs (s : State) (p x : Nat) (h : Func → Func) : (s.modFunc p x h).revs = s.revs := rfl

/-! ## A word ends -/

@[simp] theorem Tile.retireTo_status (t : Tile) (pc : W64) (dcc : Nat) : (t.retireTo pc dcc).status = t.status := rfl
@[simp] theorem Tile.retireTo_entry (t : Tile) (pc : W64) (dcc : Nat) : (t.retireTo pc dcc).entry = t.entry := rfl
@[simp] theorem Tile.retireTo_asid (t : Tile) (pc : W64) (dcc : Nat) : (t.retireTo pc dcc).asid = t.asid := rfl
@[simp] theorem Tile.retireTo_cancelAt (t : Tile) (pc : W64) (dcc : Nat) : (t.retireTo pc dcc).cancelAt = t.cancelAt := rfl
@[simp] theorem Tile.retireTo_preemptAt (t : Tile) (pc : W64) (dcc : Nat) : (t.retireTo pc dcc).preemptAt = t.preemptAt := rfl
@[simp] theorem Tile.retireTo_saveAsked (t : Tile) (pc : W64) (dcc : Nat) : (t.retireTo pc dcc).saveAsked = t.saveAsked := rfl
@[simp] theorem Tile.retireTo_cancelled (t : Tile) (pc : W64) (dcc : Nat) : (t.retireTo pc dcc).cancelled = t.cancelled := rfl
@[simp] theorem Tile.retireTo_g (t : Tile) (pc : W64) (dcc : Nat) : (t.retireTo pc dcc).g = t.g := rfl
@[simp] theorem Tile.retireTo_f (t : Tile) (pc : W64) (dcc : Nat) : (t.retireTo pc dcc).f = t.f := rfl
@[simp] theorem Tile.retireTo_q (t : Tile) (pc : W64) (dcc : Nat) : (t.retireTo pc dcc).q = t.q := rfl
@[simp] theorem Tile.retireTo_d (t : Tile) (pc : W64) (dcc : Nat) : (t.retireTo pc dcc).d = t.d := rfl
@[simp] theorem Tile.retireTo_pc (t : Tile) (pc : W64) (dcc : Nat) : (t.retireTo pc dcc).pc = pc := rfl
@[simp] theorem Tile.retireTo_pfx (t : Tile) (pc : W64) (dcc : Nat) : (t.retireTo pc dcc).pfx = none := rfl
@[simp] theorem Tile.retireTo_clause (t : Tile) (pc : W64) (dcc : Nat) : (t.retireTo pc dcc).clause = clauseStep t.clause := rfl
@[simp] theorem Tile.retireTo_fetchClause (t : Tile) (pc : W64) (dcc : Nat) : (t.retireTo pc dcc).fetchClause = t.fetchClause := rfl
@[simp] theorem Tile.retireTo_fbuf (t : Tile) (pc : W64) (dcc : Nat) : (t.retireTo pc dcc).fbuf = t.fbuf := rfl
@[simp] theorem Tile.retireTo_word (t : Tile) (pc : W64) (dcc : Nat) : (t.retireTo pc dcc).word = t.word := rfl
@[simp] theorem Tile.retireTo_fpc (t : Tile) (pc : W64) (dcc : Nat) : (t.retireTo pc dcc).fpc = t.fpc := rfl
@[simp] theorem Tile.retireTo_waitCap (t : Tile) (pc : W64) (dcc : Nat) : (t.retireTo pc dcc).waitCap = t.waitCap := rfl
@[simp] theorem Tile.retireTo_regionState (t : Tile) (pc : W64) (dcc : Nat) : (t.retireTo pc dcc).regionState = t.regionState := rfl
@[simp] theorem Tile.retireTo_bufph (t : Tile) (pc : W64) (dcc : Nat) : (t.retireTo pc dcc).bufph = t.bufph := rfl
@[simp] theorem Tile.retireTo_inh (t : Tile) (pc : W64) (dcc : Nat) : (t.retireTo pc dcc).inh = t.inh := rfl
@[simp] theorem Tile.retireTo_handlerPos (t : Tile) (pc : W64) (dcc : Nat) : (t.retireTo pc dcc).handlerPos = t.handlerPos := rfl
@[simp] theorem Tile.retireTo_handlerLs (t : Tile) (pc : W64) (dcc : Nat) : (t.retireTo pc dcc).handlerLs = t.handlerLs := rfl
@[simp] theorem Tile.retireTo_handlerNext (t : Tile) (pc : W64) (dcc : Nat) : (t.retireTo pc dcc).handlerNext = t.handlerNext := rfl
@[simp] theorem Tile.retireTo_phase (t : Tile) (pc : W64) (dcc : Nat) : (t.retireTo pc dcc).phase = t.phase := rfl
@[simp] theorem Tile.retireTo_loads (t : Tile) (pc : W64) (dcc : Nat) : (t.retireTo pc dcc).loads = t.loads := rfl
@[simp] theorem Tile.retireTo_order (t : Tile) (pc : W64) (dcc : Nat) : (t.retireTo pc dcc).order = t.order + 1 := rfl
@[simp] theorem Tile.retireTo_journal (t : Tile) (pc : W64) (dcc : Nat) : (t.retireTo pc dcc).journal = t.journal := rfl
@[simp] theorem Tile.retireTo_storeQ (t : Tile) (pc : W64) (dcc : Nat) : (t.retireTo pc dcc).storeQ = t.storeQ := rfl
@[simp] theorem Tile.retireTo_markPos (t : Tile) (pc : W64) (dcc : Nat) : (t.retireTo pc dcc).markPos = t.markPos := rfl
@[simp] theorem Tile.retireTo_posted (t : Tile) (pc : W64) (dcc : Nat) : (t.retireTo pc dcc).posted = t.posted := rfl
@[simp] theorem Tile.retireTo_reports (t : Tile) (pc : W64) (dcc : Nat) : (t.retireTo pc dcc).reports = t.reports := rfl
@[simp] theorem Tile.retireTo_wait (t : Tile) (pc : W64) (dcc : Nat) : (t.retireTo pc dcc).wait = none := rfl
@[simp] theorem Tile.retireTo_atag (t : Tile) (pc : W64) (dcc : Nat) : (t.retireTo pc dcc).atag = t.atag := rfl
@[simp] theorem Tile.retireTo_grantCtr (t : Tile) (pc : W64) (dcc : Nat) : (t.retireTo pc dcc).grantCtr = t.grantCtr := rfl
@[simp] theorem Tile.retireTo_grantAge (t : Tile) (pc : W64) (dcc : Nat) : (t.retireTo pc dcc).grantAge = t.grantAge := rfl
@[simp] theorem Tile.retireTo_grants (t : Tile) (pc : W64) (dcc : Nat) : (t.retireTo pc dcc).grants = t.grants := rfl
@[simp] theorem Tile.retireTo_tokens (t : Tile) (pc : W64) (dcc : Nat) : (t.retireTo pc dcc).tokens = t.tokens := rfl
@[simp] theorem Tile.retireTo_takers (t : Tile) (pc : W64) (dcc : Nat) : (t.retireTo pc dcc).takers = t.takers := rfl
@[simp] theorem Tile.retireTo_took (t : Tile) (pc : W64) (dcc : Nat) : (t.retireTo pc dcc).took = t.took := rfl
@[simp] theorem Tile.retireTo_vq (t : Tile) (pc : W64) (dcc : Nat) : (t.retireTo pc dcc).vq = t.vq := rfl
@[simp] theorem Tile.retireTo_mq (t : Tile) (pc : W64) (dcc : Nat) : (t.retireTo pc dcc).mq = t.mq := rfl
@[simp] theorem Tile.retireTo_cq (t : Tile) (pc : W64) (dcc : Nat) : (t.retireTo pc dcc).cq = t.cq := rfl
@[simp] theorem Tile.retireTo_nextV (t : Tile) (pc : W64) (dcc : Nat) : (t.retireTo pc dcc).nextV = t.nextV := rfl
@[simp] theorem Tile.retireTo_nextM (t : Tile) (pc : W64) (dcc : Nat) : (t.retireTo pc dcc).nextM = t.nextM := rfl
@[simp] theorem Tile.retireTo_nextC (t : Tile) (pc : W64) (dcc : Nat) : (t.retireTo pc dcc).nextC = t.nextC := rfl
@[simp] theorem Tile.retireTo_lsV (t : Tile) (pc : W64) (dcc : Nat) : (t.retireTo pc dcc).lsV = t.lsV := rfl
@[simp] theorem Tile.retireTo_lsM (t : Tile) (pc : W64) (dcc : Nat) : (t.retireTo pc dcc).lsM = t.lsM := rfl
@[simp] theorem Tile.retireTo_lsC (t : Tile) (pc : W64) (dcc : Nat) : (t.retireTo pc dcc).lsC = t.lsC := rfl
@[simp] theorem Tile.retireTo_started (t : Tile) (pc : W64) (dcc : Nat) : (t.retireTo pc dcc).started = t.started := rfl
@[simp] theorem Tile.retireTo_hist (t : Tile) (pc : W64) (dcc : Nat) : (t.retireTo pc dcc).hist = t.hist := rfl
@[simp] theorem Tile.retireTo_cutM (t : Tile) (pc : W64) (dcc : Nat) : (t.retireTo pc dcc).cutM = t.cutM := rfl
@[simp] theorem Tile.retireTo_cutC (t : Tile) (pc : W64) (dcc : Nat) : (t.retireTo pc dcc).cutC = t.cutC := rfl
@[simp] theorem Tile.retireTo_vs (t : Tile) (pc : W64) (dcc : Nat) : (t.retireTo pc dcc).vs = t.vs := rfl
@[simp] theorem Tile.retireTo_cutV (t : Tile) (pc : W64) (dcc : Nat) : (t.retireTo pc dcc).cutV = t.cutV := rfl
@[simp] theorem Tile.retireTo_exts (t : Tile) (pc : W64) (dcc : Nat) : (t.retireTo pc dcc).exts = t.exts := rfl
@[simp] theorem Tile.retireTo_pins (t : Tile) (pc : W64) (dcc : Nat) : (t.retireTo pc dcc).pins = t.pins := rfl
@[simp] theorem Tile.retireTo_stampRef (t : Tile) (pc : W64) (dcc : Nat) : (t.retireTo pc dcc).stampRef = if t.refPending then dcc else t.stampRef := rfl
@[simp] theorem Tile.retireTo_refPending (t : Tile) (pc : W64) (dcc : Nat) : (t.retireTo pc dcc).refPending = false := rfl
@[simp] theorem Tile.retireTo_mbaseAt (t : Tile) (pc : W64) (dcc : Nat) : (t.retireTo pc dcc).mbaseAt = t.mbaseAt := rfl
@[simp] theorem Tile.retireTo_refPos (t : Tile) (pc : W64) (dcc : Nat) : (t.retireTo pc dcc).refPos = t.refPos := rfl
@[simp] theorem Tile.retireTo_stallUntil (t : Tile) (pc : W64) (dcc : Nat) : (t.retireTo pc dcc).stallUntil = t.stallUntil := rfl
@[simp] theorem Tile.retireTo_m (t : Tile) (pc : W64) (dcc : Nat) : (t.retireTo pc dcc).m = t.m := rfl
@[simp] theorem Tile.retireTo_z (t : Tile) (pc : W64) (dcc : Nat) : (t.retireTo pc dcc).z = t.z := rfl
@[simp] theorem Tile.retireTo_ix (t : Tile) (pc : W64) (dcc : Nat) : (t.retireTo pc dcc).ix = t.ix := rfl
@[simp] theorem Tile.retireTo_k (t : Tile) (pc : W64) (dcc : Nat) : (t.retireTo pc dcc).k = t.k := rfl
@[simp] theorem Tile.retireTo_steps (t : Tile) (pc : W64) (dcc : Nat) : (t.retireTo pc dcc).steps = t.steps := rfl
@[simp] theorem Tile.retireTo_tags (t : Tile) (pc : W64) (dcc : Nat) : (t.retireTo pc dcc).tags = t.tags := rfl
@[simp] theorem Tile.retireTo_vbase (t : Tile) (pc : W64) (dcc : Nat) : (t.retireTo pc dcc).vbase = t.vbase := rfl
@[simp] theorem Tile.retireTo_b (t : Tile) (pc : W64) (dcc : Nat) : (t.retireTo pc dcc).b = t.b := rfl
@[simp] theorem Tile.retireTo_badB (t : Tile) (pc : W64) (dcc : Nat) : (t.retireTo pc dcc).badB = t.badB := rfl
@[simp] theorem Tile.retireTo_bfmt0 (t : Tile) (pc : W64) (dcc : Nat) : (t.retireTo pc dcc).bfmt0 = t.bfmt0 := rfl
@[simp] theorem Tile.retireTo_bfmt1 (t : Tile) (pc : W64) (dcc : Nat) : (t.retireTo pc dcc).bfmt1 = t.bfmt1 := rfl
@[simp] theorem Tile.retireTo_bmap0 (t : Tile) (pc : W64) (dcc : Nat) : (t.retireTo pc dcc).bmap0 = t.bmap0 := rfl
@[simp] theorem Tile.retireTo_bmap1 (t : Tile) (pc : W64) (dcc : Nat) : (t.retireTo pc dcc).bmap1 = t.bmap1 := rfl
@[simp] theorem Tile.retireTo_cim0 (t : Tile) (pc : W64) (dcc : Nat) : (t.retireTo pc dcc).cim0 = t.cim0 := rfl
@[simp] theorem Tile.retireTo_cim1 (t : Tile) (pc : W64) (dcc : Nat) : (t.retireTo pc dcc).cim1 = t.cim1 := rfl
@[simp] theorem Tile.retireTo_acc (t : Tile) (pc : W64) (dcc : Nat) : (t.retireTo pc dcc).acc = t.acc := rfl
@[simp] theorem Tile.retireTo_rows (t : Tile) (pc : W64) (dcc : Nat) : (t.retireTo pc dcc).rows = t.rows := rfl
@[simp] theorem Tile.retireTo_afloor (t : Tile) (pc : W64) (dcc : Nat) : (t.retireTo pc dcc).afloor = t.afloor := rfl
@[simp] theorem Tile.retireTo_streams (t : Tile) (pc : W64) (dcc : Nat) : (t.retireTo pc dcc).streams = t.streams := rfl
@[simp] theorem Tile.retireTo_pats (t : Tile) (pc : W64) (dcc : Nat) : (t.retireTo pc dcc).pats = t.pats := rfl
@[simp] theorem Tile.retireTo_swz (t : Tile) (pc : W64) (dcc : Nat) : (t.retireTo pc dcc).swz = t.swz := rfl

/-! ## Register writes -/

@[simp] theorem Tile.putF_status (t : Tile) (n : Nat) (v : FReg) : (t.putF n v).status = t.status := rfl
@[simp] theorem Tile.putF_entry (t : Tile) (n : Nat) (v : FReg) : (t.putF n v).entry = t.entry := rfl
@[simp] theorem Tile.putF_asid (t : Tile) (n : Nat) (v : FReg) : (t.putF n v).asid = t.asid := rfl
@[simp] theorem Tile.putF_cancelAt (t : Tile) (n : Nat) (v : FReg) : (t.putF n v).cancelAt = t.cancelAt := rfl
@[simp] theorem Tile.putF_preemptAt (t : Tile) (n : Nat) (v : FReg) : (t.putF n v).preemptAt = t.preemptAt := rfl
@[simp] theorem Tile.putF_saveAsked (t : Tile) (n : Nat) (v : FReg) : (t.putF n v).saveAsked = t.saveAsked := rfl
@[simp] theorem Tile.putF_cancelled (t : Tile) (n : Nat) (v : FReg) : (t.putF n v).cancelled = t.cancelled := rfl
@[simp] theorem Tile.putF_g (t : Tile) (n : Nat) (v : FReg) : (t.putF n v).g = t.g := rfl
@[simp] theorem Tile.putF_q (t : Tile) (n : Nat) (v : FReg) : (t.putF n v).q = t.q := rfl
@[simp] theorem Tile.putF_d (t : Tile) (n : Nat) (v : FReg) : (t.putF n v).d = t.d := rfl
@[simp] theorem Tile.putF_pc (t : Tile) (n : Nat) (v : FReg) : (t.putF n v).pc = t.pc := rfl
@[simp] theorem Tile.putF_pfx (t : Tile) (n : Nat) (v : FReg) : (t.putF n v).pfx = t.pfx := rfl
@[simp] theorem Tile.putF_clause (t : Tile) (n : Nat) (v : FReg) : (t.putF n v).clause = t.clause := rfl
@[simp] theorem Tile.putF_fetchClause (t : Tile) (n : Nat) (v : FReg) : (t.putF n v).fetchClause = t.fetchClause := rfl
@[simp] theorem Tile.putF_fbuf (t : Tile) (n : Nat) (v : FReg) : (t.putF n v).fbuf = t.fbuf := rfl
@[simp] theorem Tile.putF_word (t : Tile) (n : Nat) (v : FReg) : (t.putF n v).word = t.word := rfl
@[simp] theorem Tile.putF_fpc (t : Tile) (n : Nat) (v : FReg) : (t.putF n v).fpc = t.fpc := rfl
@[simp] theorem Tile.putF_waitCap (t : Tile) (n : Nat) (v : FReg) : (t.putF n v).waitCap = t.waitCap := rfl
@[simp] theorem Tile.putF_regionState (t : Tile) (n : Nat) (v : FReg) : (t.putF n v).regionState = t.regionState := rfl
@[simp] theorem Tile.putF_bufph (t : Tile) (n : Nat) (v : FReg) : (t.putF n v).bufph = t.bufph := rfl
@[simp] theorem Tile.putF_inh (t : Tile) (n : Nat) (v : FReg) : (t.putF n v).inh = t.inh := rfl
@[simp] theorem Tile.putF_handlerPos (t : Tile) (n : Nat) (v : FReg) : (t.putF n v).handlerPos = t.handlerPos := rfl
@[simp] theorem Tile.putF_handlerLs (t : Tile) (n : Nat) (v : FReg) : (t.putF n v).handlerLs = t.handlerLs := rfl
@[simp] theorem Tile.putF_handlerNext (t : Tile) (n : Nat) (v : FReg) : (t.putF n v).handlerNext = t.handlerNext := rfl
@[simp] theorem Tile.putF_phase (t : Tile) (n : Nat) (v : FReg) : (t.putF n v).phase = t.phase := rfl
@[simp] theorem Tile.putF_loads (t : Tile) (n : Nat) (v : FReg) : (t.putF n v).loads = t.loads := rfl
@[simp] theorem Tile.putF_order (t : Tile) (n : Nat) (v : FReg) : (t.putF n v).order = t.order := rfl
@[simp] theorem Tile.putF_journal (t : Tile) (n : Nat) (v : FReg) : (t.putF n v).journal = t.journal := rfl
@[simp] theorem Tile.putF_storeQ (t : Tile) (n : Nat) (v : FReg) : (t.putF n v).storeQ = t.storeQ := rfl
@[simp] theorem Tile.putF_markPos (t : Tile) (n : Nat) (v : FReg) : (t.putF n v).markPos = t.markPos := rfl
@[simp] theorem Tile.putF_posted (t : Tile) (n : Nat) (v : FReg) : (t.putF n v).posted = t.posted := rfl
@[simp] theorem Tile.putF_reports (t : Tile) (n : Nat) (v : FReg) : (t.putF n v).reports = t.reports := rfl
@[simp] theorem Tile.putF_wait (t : Tile) (n : Nat) (v : FReg) : (t.putF n v).wait = t.wait := rfl
@[simp] theorem Tile.putF_atag (t : Tile) (n : Nat) (v : FReg) : (t.putF n v).atag = t.atag := rfl
@[simp] theorem Tile.putF_grantCtr (t : Tile) (n : Nat) (v : FReg) : (t.putF n v).grantCtr = t.grantCtr := rfl
@[simp] theorem Tile.putF_grantAge (t : Tile) (n : Nat) (v : FReg) : (t.putF n v).grantAge = t.grantAge := rfl
@[simp] theorem Tile.putF_grants (t : Tile) (n : Nat) (v : FReg) : (t.putF n v).grants = t.grants := rfl
@[simp] theorem Tile.putF_tokens (t : Tile) (n : Nat) (v : FReg) : (t.putF n v).tokens = t.tokens := rfl
@[simp] theorem Tile.putF_takers (t : Tile) (n : Nat) (v : FReg) : (t.putF n v).takers = t.takers := rfl
@[simp] theorem Tile.putF_took (t : Tile) (n : Nat) (v : FReg) : (t.putF n v).took = t.took := rfl
@[simp] theorem Tile.putF_vq (t : Tile) (n : Nat) (v : FReg) : (t.putF n v).vq = t.vq := rfl
@[simp] theorem Tile.putF_mq (t : Tile) (n : Nat) (v : FReg) : (t.putF n v).mq = t.mq := rfl
@[simp] theorem Tile.putF_cq (t : Tile) (n : Nat) (v : FReg) : (t.putF n v).cq = t.cq := rfl
@[simp] theorem Tile.putF_nextV (t : Tile) (n : Nat) (v : FReg) : (t.putF n v).nextV = t.nextV := rfl
@[simp] theorem Tile.putF_nextM (t : Tile) (n : Nat) (v : FReg) : (t.putF n v).nextM = t.nextM := rfl
@[simp] theorem Tile.putF_nextC (t : Tile) (n : Nat) (v : FReg) : (t.putF n v).nextC = t.nextC := rfl
@[simp] theorem Tile.putF_lsV (t : Tile) (n : Nat) (v : FReg) : (t.putF n v).lsV = t.lsV := rfl
@[simp] theorem Tile.putF_lsM (t : Tile) (n : Nat) (v : FReg) : (t.putF n v).lsM = t.lsM := rfl
@[simp] theorem Tile.putF_lsC (t : Tile) (n : Nat) (v : FReg) : (t.putF n v).lsC = t.lsC := rfl
@[simp] theorem Tile.putF_started (t : Tile) (n : Nat) (v : FReg) : (t.putF n v).started = t.started := rfl
@[simp] theorem Tile.putF_hist (t : Tile) (n : Nat) (v : FReg) : (t.putF n v).hist = t.hist := rfl
@[simp] theorem Tile.putF_cutM (t : Tile) (n : Nat) (v : FReg) : (t.putF n v).cutM = t.cutM := rfl
@[simp] theorem Tile.putF_cutC (t : Tile) (n : Nat) (v : FReg) : (t.putF n v).cutC = t.cutC := rfl
@[simp] theorem Tile.putF_vs (t : Tile) (n : Nat) (v : FReg) : (t.putF n v).vs = t.vs := rfl
@[simp] theorem Tile.putF_cutV (t : Tile) (n : Nat) (v : FReg) : (t.putF n v).cutV = t.cutV := rfl
@[simp] theorem Tile.putF_exts (t : Tile) (n : Nat) (v : FReg) : (t.putF n v).exts = t.exts := rfl
@[simp] theorem Tile.putF_pins (t : Tile) (n : Nat) (v : FReg) : (t.putF n v).pins = t.pins := rfl
@[simp] theorem Tile.putF_stampRef (t : Tile) (n : Nat) (v : FReg) : (t.putF n v).stampRef = t.stampRef := rfl
@[simp] theorem Tile.putF_refPending (t : Tile) (n : Nat) (v : FReg) : (t.putF n v).refPending = t.refPending := rfl
@[simp] theorem Tile.putF_mbaseAt (t : Tile) (n : Nat) (v : FReg) : (t.putF n v).mbaseAt = t.mbaseAt := rfl
@[simp] theorem Tile.putF_refPos (t : Tile) (n : Nat) (v : FReg) : (t.putF n v).refPos = t.refPos := rfl
@[simp] theorem Tile.putF_stallUntil (t : Tile) (n : Nat) (v : FReg) : (t.putF n v).stallUntil = t.stallUntil := rfl
@[simp] theorem Tile.putF_m (t : Tile) (n : Nat) (v : FReg) : (t.putF n v).m = t.m := rfl
@[simp] theorem Tile.putF_z (t : Tile) (n : Nat) (v : FReg) : (t.putF n v).z = t.z := rfl
@[simp] theorem Tile.putF_ix (t : Tile) (n : Nat) (v : FReg) : (t.putF n v).ix = t.ix := rfl
@[simp] theorem Tile.putF_k (t : Tile) (n : Nat) (v : FReg) : (t.putF n v).k = t.k := rfl
@[simp] theorem Tile.putF_steps (t : Tile) (n : Nat) (v : FReg) : (t.putF n v).steps = t.steps := rfl
@[simp] theorem Tile.putF_tags (t : Tile) (n : Nat) (v : FReg) : (t.putF n v).tags = t.tags := rfl
@[simp] theorem Tile.putF_vbase (t : Tile) (n : Nat) (v : FReg) : (t.putF n v).vbase = t.vbase := rfl
@[simp] theorem Tile.putF_b (t : Tile) (n : Nat) (v : FReg) : (t.putF n v).b = t.b := rfl
@[simp] theorem Tile.putF_badB (t : Tile) (n : Nat) (v : FReg) : (t.putF n v).badB = t.badB := rfl
@[simp] theorem Tile.putF_bfmt0 (t : Tile) (n : Nat) (v : FReg) : (t.putF n v).bfmt0 = t.bfmt0 := rfl
@[simp] theorem Tile.putF_bfmt1 (t : Tile) (n : Nat) (v : FReg) : (t.putF n v).bfmt1 = t.bfmt1 := rfl
@[simp] theorem Tile.putF_bmap0 (t : Tile) (n : Nat) (v : FReg) : (t.putF n v).bmap0 = t.bmap0 := rfl
@[simp] theorem Tile.putF_bmap1 (t : Tile) (n : Nat) (v : FReg) : (t.putF n v).bmap1 = t.bmap1 := rfl
@[simp] theorem Tile.putF_cim0 (t : Tile) (n : Nat) (v : FReg) : (t.putF n v).cim0 = t.cim0 := rfl
@[simp] theorem Tile.putF_cim1 (t : Tile) (n : Nat) (v : FReg) : (t.putF n v).cim1 = t.cim1 := rfl
@[simp] theorem Tile.putF_acc (t : Tile) (n : Nat) (v : FReg) : (t.putF n v).acc = t.acc := rfl
@[simp] theorem Tile.putF_rows (t : Tile) (n : Nat) (v : FReg) : (t.putF n v).rows = t.rows := rfl
@[simp] theorem Tile.putF_afloor (t : Tile) (n : Nat) (v : FReg) : (t.putF n v).afloor = t.afloor := rfl
@[simp] theorem Tile.putF_streams (t : Tile) (n : Nat) (v : FReg) : (t.putF n v).streams = t.streams := rfl
@[simp] theorem Tile.putF_pats (t : Tile) (n : Nat) (v : FReg) : (t.putF n v).pats = t.pats := rfl
@[simp] theorem Tile.putF_swz (t : Tile) (n : Nat) (v : FReg) : (t.putF n v).swz = t.swz := rfl
@[simp] theorem Tile.putF_seg (t : Tile) (n : Nat) (v : FReg) : (t.putF n v).seg = t.seg := rfl
@[simp] theorem Tile.putD_status (t : Tile) (n : Nat) (v : TMap) : (t.putD n v).status = t.status := rfl
@[simp] theorem Tile.putD_entry (t : Tile) (n : Nat) (v : TMap) : (t.putD n v).entry = t.entry := rfl
@[simp] theorem Tile.putD_asid (t : Tile) (n : Nat) (v : TMap) : (t.putD n v).asid = t.asid := rfl
@[simp] theorem Tile.putD_cancelAt (t : Tile) (n : Nat) (v : TMap) : (t.putD n v).cancelAt = t.cancelAt := rfl
@[simp] theorem Tile.putD_preemptAt (t : Tile) (n : Nat) (v : TMap) : (t.putD n v).preemptAt = t.preemptAt := rfl
@[simp] theorem Tile.putD_saveAsked (t : Tile) (n : Nat) (v : TMap) : (t.putD n v).saveAsked = t.saveAsked := rfl
@[simp] theorem Tile.putD_cancelled (t : Tile) (n : Nat) (v : TMap) : (t.putD n v).cancelled = t.cancelled := rfl
@[simp] theorem Tile.putD_g (t : Tile) (n : Nat) (v : TMap) : (t.putD n v).g = t.g := rfl
@[simp] theorem Tile.putD_f (t : Tile) (n : Nat) (v : TMap) : (t.putD n v).f = t.f := rfl
@[simp] theorem Tile.putD_q (t : Tile) (n : Nat) (v : TMap) : (t.putD n v).q = t.q := rfl
@[simp] theorem Tile.putD_pc (t : Tile) (n : Nat) (v : TMap) : (t.putD n v).pc = t.pc := rfl
@[simp] theorem Tile.putD_pfx (t : Tile) (n : Nat) (v : TMap) : (t.putD n v).pfx = t.pfx := rfl
@[simp] theorem Tile.putD_clause (t : Tile) (n : Nat) (v : TMap) : (t.putD n v).clause = t.clause := rfl
@[simp] theorem Tile.putD_fetchClause (t : Tile) (n : Nat) (v : TMap) : (t.putD n v).fetchClause = t.fetchClause := rfl
@[simp] theorem Tile.putD_fbuf (t : Tile) (n : Nat) (v : TMap) : (t.putD n v).fbuf = t.fbuf := rfl
@[simp] theorem Tile.putD_word (t : Tile) (n : Nat) (v : TMap) : (t.putD n v).word = t.word := rfl
@[simp] theorem Tile.putD_fpc (t : Tile) (n : Nat) (v : TMap) : (t.putD n v).fpc = t.fpc := rfl
@[simp] theorem Tile.putD_waitCap (t : Tile) (n : Nat) (v : TMap) : (t.putD n v).waitCap = t.waitCap := rfl
@[simp] theorem Tile.putD_regionState (t : Tile) (n : Nat) (v : TMap) : (t.putD n v).regionState = t.regionState := rfl
@[simp] theorem Tile.putD_bufph (t : Tile) (n : Nat) (v : TMap) : (t.putD n v).bufph = t.bufph := rfl
@[simp] theorem Tile.putD_inh (t : Tile) (n : Nat) (v : TMap) : (t.putD n v).inh = t.inh := rfl
@[simp] theorem Tile.putD_handlerPos (t : Tile) (n : Nat) (v : TMap) : (t.putD n v).handlerPos = t.handlerPos := rfl
@[simp] theorem Tile.putD_handlerLs (t : Tile) (n : Nat) (v : TMap) : (t.putD n v).handlerLs = t.handlerLs := rfl
@[simp] theorem Tile.putD_handlerNext (t : Tile) (n : Nat) (v : TMap) : (t.putD n v).handlerNext = t.handlerNext := rfl
@[simp] theorem Tile.putD_phase (t : Tile) (n : Nat) (v : TMap) : (t.putD n v).phase = t.phase := rfl
@[simp] theorem Tile.putD_loads (t : Tile) (n : Nat) (v : TMap) : (t.putD n v).loads = t.loads := rfl
@[simp] theorem Tile.putD_order (t : Tile) (n : Nat) (v : TMap) : (t.putD n v).order = t.order := rfl
@[simp] theorem Tile.putD_journal (t : Tile) (n : Nat) (v : TMap) : (t.putD n v).journal = t.journal := rfl
@[simp] theorem Tile.putD_storeQ (t : Tile) (n : Nat) (v : TMap) : (t.putD n v).storeQ = t.storeQ := rfl
@[simp] theorem Tile.putD_markPos (t : Tile) (n : Nat) (v : TMap) : (t.putD n v).markPos = t.markPos := rfl
@[simp] theorem Tile.putD_posted (t : Tile) (n : Nat) (v : TMap) : (t.putD n v).posted = t.posted := rfl
@[simp] theorem Tile.putD_reports (t : Tile) (n : Nat) (v : TMap) : (t.putD n v).reports = t.reports := rfl
@[simp] theorem Tile.putD_wait (t : Tile) (n : Nat) (v : TMap) : (t.putD n v).wait = t.wait := rfl
@[simp] theorem Tile.putD_atag (t : Tile) (n : Nat) (v : TMap) : (t.putD n v).atag = t.atag := rfl
@[simp] theorem Tile.putD_grantCtr (t : Tile) (n : Nat) (v : TMap) : (t.putD n v).grantCtr = t.grantCtr := rfl
@[simp] theorem Tile.putD_grantAge (t : Tile) (n : Nat) (v : TMap) : (t.putD n v).grantAge = t.grantAge := rfl
@[simp] theorem Tile.putD_grants (t : Tile) (n : Nat) (v : TMap) : (t.putD n v).grants = t.grants := rfl
@[simp] theorem Tile.putD_tokens (t : Tile) (n : Nat) (v : TMap) : (t.putD n v).tokens = t.tokens := rfl
@[simp] theorem Tile.putD_takers (t : Tile) (n : Nat) (v : TMap) : (t.putD n v).takers = t.takers := rfl
@[simp] theorem Tile.putD_took (t : Tile) (n : Nat) (v : TMap) : (t.putD n v).took = t.took := rfl
@[simp] theorem Tile.putD_vq (t : Tile) (n : Nat) (v : TMap) : (t.putD n v).vq = t.vq := rfl
@[simp] theorem Tile.putD_mq (t : Tile) (n : Nat) (v : TMap) : (t.putD n v).mq = t.mq := rfl
@[simp] theorem Tile.putD_cq (t : Tile) (n : Nat) (v : TMap) : (t.putD n v).cq = t.cq := rfl
@[simp] theorem Tile.putD_nextV (t : Tile) (n : Nat) (v : TMap) : (t.putD n v).nextV = t.nextV := rfl
@[simp] theorem Tile.putD_nextM (t : Tile) (n : Nat) (v : TMap) : (t.putD n v).nextM = t.nextM := rfl
@[simp] theorem Tile.putD_nextC (t : Tile) (n : Nat) (v : TMap) : (t.putD n v).nextC = t.nextC := rfl
@[simp] theorem Tile.putD_lsV (t : Tile) (n : Nat) (v : TMap) : (t.putD n v).lsV = t.lsV := rfl
@[simp] theorem Tile.putD_lsM (t : Tile) (n : Nat) (v : TMap) : (t.putD n v).lsM = t.lsM := rfl
@[simp] theorem Tile.putD_lsC (t : Tile) (n : Nat) (v : TMap) : (t.putD n v).lsC = t.lsC := rfl
@[simp] theorem Tile.putD_started (t : Tile) (n : Nat) (v : TMap) : (t.putD n v).started = t.started := rfl
@[simp] theorem Tile.putD_hist (t : Tile) (n : Nat) (v : TMap) : (t.putD n v).hist = t.hist := rfl
@[simp] theorem Tile.putD_cutM (t : Tile) (n : Nat) (v : TMap) : (t.putD n v).cutM = t.cutM := rfl
@[simp] theorem Tile.putD_cutC (t : Tile) (n : Nat) (v : TMap) : (t.putD n v).cutC = t.cutC := rfl
@[simp] theorem Tile.putD_vs (t : Tile) (n : Nat) (v : TMap) : (t.putD n v).vs = t.vs := rfl
@[simp] theorem Tile.putD_cutV (t : Tile) (n : Nat) (v : TMap) : (t.putD n v).cutV = t.cutV := rfl
@[simp] theorem Tile.putD_exts (t : Tile) (n : Nat) (v : TMap) : (t.putD n v).exts = t.exts := rfl
@[simp] theorem Tile.putD_pins (t : Tile) (n : Nat) (v : TMap) : (t.putD n v).pins = t.pins := rfl
@[simp] theorem Tile.putD_stampRef (t : Tile) (n : Nat) (v : TMap) : (t.putD n v).stampRef = t.stampRef := rfl
@[simp] theorem Tile.putD_refPending (t : Tile) (n : Nat) (v : TMap) : (t.putD n v).refPending = t.refPending := rfl
@[simp] theorem Tile.putD_mbaseAt (t : Tile) (n : Nat) (v : TMap) : (t.putD n v).mbaseAt = t.mbaseAt := rfl
@[simp] theorem Tile.putD_refPos (t : Tile) (n : Nat) (v : TMap) : (t.putD n v).refPos = t.refPos := rfl
@[simp] theorem Tile.putD_stallUntil (t : Tile) (n : Nat) (v : TMap) : (t.putD n v).stallUntil = t.stallUntil := rfl
@[simp] theorem Tile.putD_m (t : Tile) (n : Nat) (v : TMap) : (t.putD n v).m = t.m := rfl
@[simp] theorem Tile.putD_z (t : Tile) (n : Nat) (v : TMap) : (t.putD n v).z = t.z := rfl
@[simp] theorem Tile.putD_ix (t : Tile) (n : Nat) (v : TMap) : (t.putD n v).ix = t.ix := rfl
@[simp] theorem Tile.putD_k (t : Tile) (n : Nat) (v : TMap) : (t.putD n v).k = t.k := rfl
@[simp] theorem Tile.putD_steps (t : Tile) (n : Nat) (v : TMap) : (t.putD n v).steps = t.steps := rfl
@[simp] theorem Tile.putD_tags (t : Tile) (n : Nat) (v : TMap) : (t.putD n v).tags = t.tags := rfl
@[simp] theorem Tile.putD_vbase (t : Tile) (n : Nat) (v : TMap) : (t.putD n v).vbase = t.vbase := rfl
@[simp] theorem Tile.putD_b (t : Tile) (n : Nat) (v : TMap) : (t.putD n v).b = t.b := rfl
@[simp] theorem Tile.putD_badB (t : Tile) (n : Nat) (v : TMap) : (t.putD n v).badB = t.badB := rfl
@[simp] theorem Tile.putD_bfmt0 (t : Tile) (n : Nat) (v : TMap) : (t.putD n v).bfmt0 = t.bfmt0 := rfl
@[simp] theorem Tile.putD_bfmt1 (t : Tile) (n : Nat) (v : TMap) : (t.putD n v).bfmt1 = t.bfmt1 := rfl
@[simp] theorem Tile.putD_bmap0 (t : Tile) (n : Nat) (v : TMap) : (t.putD n v).bmap0 = t.bmap0 := rfl
@[simp] theorem Tile.putD_bmap1 (t : Tile) (n : Nat) (v : TMap) : (t.putD n v).bmap1 = t.bmap1 := rfl
@[simp] theorem Tile.putD_cim0 (t : Tile) (n : Nat) (v : TMap) : (t.putD n v).cim0 = t.cim0 := rfl
@[simp] theorem Tile.putD_cim1 (t : Tile) (n : Nat) (v : TMap) : (t.putD n v).cim1 = t.cim1 := rfl
@[simp] theorem Tile.putD_acc (t : Tile) (n : Nat) (v : TMap) : (t.putD n v).acc = t.acc := rfl
@[simp] theorem Tile.putD_rows (t : Tile) (n : Nat) (v : TMap) : (t.putD n v).rows = t.rows := rfl
@[simp] theorem Tile.putD_afloor (t : Tile) (n : Nat) (v : TMap) : (t.putD n v).afloor = t.afloor := rfl
@[simp] theorem Tile.putD_streams (t : Tile) (n : Nat) (v : TMap) : (t.putD n v).streams = t.streams := rfl
@[simp] theorem Tile.putD_pats (t : Tile) (n : Nat) (v : TMap) : (t.putD n v).pats = t.pats := rfl
@[simp] theorem Tile.putD_swz (t : Tile) (n : Nat) (v : TMap) : (t.putD n v).swz = t.swz := rfl
@[simp] theorem Tile.putD_seg (t : Tile) (n : Nat) (v : TMap) : (t.putD n v).seg = t.seg := rfl
@[simp] theorem Tile.putG_status (t : Tile) (n : Nat) (v : W64) : (t.putG n v).status = t.status := by unfold Tile.putG; split <;> rfl
@[simp] theorem Tile.putG_entry (t : Tile) (n : Nat) (v : W64) : (t.putG n v).entry = t.entry := by unfold Tile.putG; split <;> rfl
@[simp] theorem Tile.putG_asid (t : Tile) (n : Nat) (v : W64) : (t.putG n v).asid = t.asid := by unfold Tile.putG; split <;> rfl
@[simp] theorem Tile.putG_cancelAt (t : Tile) (n : Nat) (v : W64) : (t.putG n v).cancelAt = t.cancelAt := by unfold Tile.putG; split <;> rfl
@[simp] theorem Tile.putG_preemptAt (t : Tile) (n : Nat) (v : W64) : (t.putG n v).preemptAt = t.preemptAt := by unfold Tile.putG; split <;> rfl
@[simp] theorem Tile.putG_saveAsked (t : Tile) (n : Nat) (v : W64) : (t.putG n v).saveAsked = t.saveAsked := by unfold Tile.putG; split <;> rfl
@[simp] theorem Tile.putG_cancelled (t : Tile) (n : Nat) (v : W64) : (t.putG n v).cancelled = t.cancelled := by unfold Tile.putG; split <;> rfl
@[simp] theorem Tile.putG_f (t : Tile) (n : Nat) (v : W64) : (t.putG n v).f = t.f := by unfold Tile.putG; split <;> rfl
@[simp] theorem Tile.putG_q (t : Tile) (n : Nat) (v : W64) : (t.putG n v).q = t.q := by unfold Tile.putG; split <;> rfl
@[simp] theorem Tile.putG_d (t : Tile) (n : Nat) (v : W64) : (t.putG n v).d = t.d := by unfold Tile.putG; split <;> rfl
@[simp] theorem Tile.putG_pc (t : Tile) (n : Nat) (v : W64) : (t.putG n v).pc = t.pc := by unfold Tile.putG; split <;> rfl
@[simp] theorem Tile.putG_pfx (t : Tile) (n : Nat) (v : W64) : (t.putG n v).pfx = t.pfx := by unfold Tile.putG; split <;> rfl
@[simp] theorem Tile.putG_clause (t : Tile) (n : Nat) (v : W64) : (t.putG n v).clause = t.clause := by unfold Tile.putG; split <;> rfl
@[simp] theorem Tile.putG_fetchClause (t : Tile) (n : Nat) (v : W64) : (t.putG n v).fetchClause = t.fetchClause := by unfold Tile.putG; split <;> rfl
@[simp] theorem Tile.putG_fbuf (t : Tile) (n : Nat) (v : W64) : (t.putG n v).fbuf = t.fbuf := by unfold Tile.putG; split <;> rfl
@[simp] theorem Tile.putG_word (t : Tile) (n : Nat) (v : W64) : (t.putG n v).word = t.word := by unfold Tile.putG; split <;> rfl
@[simp] theorem Tile.putG_fpc (t : Tile) (n : Nat) (v : W64) : (t.putG n v).fpc = t.fpc := by unfold Tile.putG; split <;> rfl
@[simp] theorem Tile.putG_waitCap (t : Tile) (n : Nat) (v : W64) : (t.putG n v).waitCap = t.waitCap := by unfold Tile.putG; split <;> rfl
@[simp] theorem Tile.putG_regionState (t : Tile) (n : Nat) (v : W64) : (t.putG n v).regionState = t.regionState := by unfold Tile.putG; split <;> rfl
@[simp] theorem Tile.putG_bufph (t : Tile) (n : Nat) (v : W64) : (t.putG n v).bufph = t.bufph := by unfold Tile.putG; split <;> rfl
@[simp] theorem Tile.putG_inh (t : Tile) (n : Nat) (v : W64) : (t.putG n v).inh = t.inh := by unfold Tile.putG; split <;> rfl
@[simp] theorem Tile.putG_handlerPos (t : Tile) (n : Nat) (v : W64) : (t.putG n v).handlerPos = t.handlerPos := by unfold Tile.putG; split <;> rfl
@[simp] theorem Tile.putG_handlerLs (t : Tile) (n : Nat) (v : W64) : (t.putG n v).handlerLs = t.handlerLs := by unfold Tile.putG; split <;> rfl
@[simp] theorem Tile.putG_handlerNext (t : Tile) (n : Nat) (v : W64) : (t.putG n v).handlerNext = t.handlerNext := by unfold Tile.putG; split <;> rfl
@[simp] theorem Tile.putG_phase (t : Tile) (n : Nat) (v : W64) : (t.putG n v).phase = t.phase := by unfold Tile.putG; split <;> rfl
@[simp] theorem Tile.putG_loads (t : Tile) (n : Nat) (v : W64) : (t.putG n v).loads = t.loads := by unfold Tile.putG; split <;> rfl
@[simp] theorem Tile.putG_order (t : Tile) (n : Nat) (v : W64) : (t.putG n v).order = t.order := by unfold Tile.putG; split <;> rfl
@[simp] theorem Tile.putG_journal (t : Tile) (n : Nat) (v : W64) : (t.putG n v).journal = t.journal := by unfold Tile.putG; split <;> rfl
@[simp] theorem Tile.putG_storeQ (t : Tile) (n : Nat) (v : W64) : (t.putG n v).storeQ = t.storeQ := by unfold Tile.putG; split <;> rfl
@[simp] theorem Tile.putG_markPos (t : Tile) (n : Nat) (v : W64) : (t.putG n v).markPos = t.markPos := by unfold Tile.putG; split <;> rfl
@[simp] theorem Tile.putG_posted (t : Tile) (n : Nat) (v : W64) : (t.putG n v).posted = t.posted := by unfold Tile.putG; split <;> rfl
@[simp] theorem Tile.putG_reports (t : Tile) (n : Nat) (v : W64) : (t.putG n v).reports = t.reports := by unfold Tile.putG; split <;> rfl
@[simp] theorem Tile.putG_wait (t : Tile) (n : Nat) (v : W64) : (t.putG n v).wait = t.wait := by unfold Tile.putG; split <;> rfl
@[simp] theorem Tile.putG_atag (t : Tile) (n : Nat) (v : W64) : (t.putG n v).atag = t.atag := by unfold Tile.putG; split <;> rfl
@[simp] theorem Tile.putG_grantCtr (t : Tile) (n : Nat) (v : W64) : (t.putG n v).grantCtr = t.grantCtr := by unfold Tile.putG; split <;> rfl
@[simp] theorem Tile.putG_grantAge (t : Tile) (n : Nat) (v : W64) : (t.putG n v).grantAge = t.grantAge := by unfold Tile.putG; split <;> rfl
@[simp] theorem Tile.putG_grants (t : Tile) (n : Nat) (v : W64) : (t.putG n v).grants = t.grants := by unfold Tile.putG; split <;> rfl
@[simp] theorem Tile.putG_tokens (t : Tile) (n : Nat) (v : W64) : (t.putG n v).tokens = t.tokens := by unfold Tile.putG; split <;> rfl
@[simp] theorem Tile.putG_takers (t : Tile) (n : Nat) (v : W64) : (t.putG n v).takers = t.takers := by unfold Tile.putG; split <;> rfl
@[simp] theorem Tile.putG_took (t : Tile) (n : Nat) (v : W64) : (t.putG n v).took = t.took := by unfold Tile.putG; split <;> rfl
@[simp] theorem Tile.putG_vq (t : Tile) (n : Nat) (v : W64) : (t.putG n v).vq = t.vq := by unfold Tile.putG; split <;> rfl
@[simp] theorem Tile.putG_mq (t : Tile) (n : Nat) (v : W64) : (t.putG n v).mq = t.mq := by unfold Tile.putG; split <;> rfl
@[simp] theorem Tile.putG_cq (t : Tile) (n : Nat) (v : W64) : (t.putG n v).cq = t.cq := by unfold Tile.putG; split <;> rfl
@[simp] theorem Tile.putG_nextV (t : Tile) (n : Nat) (v : W64) : (t.putG n v).nextV = t.nextV := by unfold Tile.putG; split <;> rfl
@[simp] theorem Tile.putG_nextM (t : Tile) (n : Nat) (v : W64) : (t.putG n v).nextM = t.nextM := by unfold Tile.putG; split <;> rfl
@[simp] theorem Tile.putG_nextC (t : Tile) (n : Nat) (v : W64) : (t.putG n v).nextC = t.nextC := by unfold Tile.putG; split <;> rfl
@[simp] theorem Tile.putG_lsV (t : Tile) (n : Nat) (v : W64) : (t.putG n v).lsV = t.lsV := by unfold Tile.putG; split <;> rfl
@[simp] theorem Tile.putG_lsM (t : Tile) (n : Nat) (v : W64) : (t.putG n v).lsM = t.lsM := by unfold Tile.putG; split <;> rfl
@[simp] theorem Tile.putG_lsC (t : Tile) (n : Nat) (v : W64) : (t.putG n v).lsC = t.lsC := by unfold Tile.putG; split <;> rfl
@[simp] theorem Tile.putG_started (t : Tile) (n : Nat) (v : W64) : (t.putG n v).started = t.started := by unfold Tile.putG; split <;> rfl
@[simp] theorem Tile.putG_hist (t : Tile) (n : Nat) (v : W64) : (t.putG n v).hist = t.hist := by unfold Tile.putG; split <;> rfl
@[simp] theorem Tile.putG_cutM (t : Tile) (n : Nat) (v : W64) : (t.putG n v).cutM = t.cutM := by unfold Tile.putG; split <;> rfl
@[simp] theorem Tile.putG_cutC (t : Tile) (n : Nat) (v : W64) : (t.putG n v).cutC = t.cutC := by unfold Tile.putG; split <;> rfl
@[simp] theorem Tile.putG_vs (t : Tile) (n : Nat) (v : W64) : (t.putG n v).vs = t.vs := by unfold Tile.putG; split <;> rfl
@[simp] theorem Tile.putG_cutV (t : Tile) (n : Nat) (v : W64) : (t.putG n v).cutV = t.cutV := by unfold Tile.putG; split <;> rfl
@[simp] theorem Tile.putG_exts (t : Tile) (n : Nat) (v : W64) : (t.putG n v).exts = t.exts := by unfold Tile.putG; split <;> rfl
@[simp] theorem Tile.putG_pins (t : Tile) (n : Nat) (v : W64) : (t.putG n v).pins = t.pins := by unfold Tile.putG; split <;> rfl
@[simp] theorem Tile.putG_stampRef (t : Tile) (n : Nat) (v : W64) : (t.putG n v).stampRef = t.stampRef := by unfold Tile.putG; split <;> rfl
@[simp] theorem Tile.putG_refPending (t : Tile) (n : Nat) (v : W64) : (t.putG n v).refPending = t.refPending := by unfold Tile.putG; split <;> rfl
@[simp] theorem Tile.putG_mbaseAt (t : Tile) (n : Nat) (v : W64) : (t.putG n v).mbaseAt = t.mbaseAt := by unfold Tile.putG; split <;> rfl
@[simp] theorem Tile.putG_refPos (t : Tile) (n : Nat) (v : W64) : (t.putG n v).refPos = t.refPos := by unfold Tile.putG; split <;> rfl
@[simp] theorem Tile.putG_stallUntil (t : Tile) (n : Nat) (v : W64) : (t.putG n v).stallUntil = t.stallUntil := by unfold Tile.putG; split <;> rfl
@[simp] theorem Tile.putG_m (t : Tile) (n : Nat) (v : W64) : (t.putG n v).m = t.m := by unfold Tile.putG; split <;> rfl
@[simp] theorem Tile.putG_z (t : Tile) (n : Nat) (v : W64) : (t.putG n v).z = t.z := by unfold Tile.putG; split <;> rfl
@[simp] theorem Tile.putG_ix (t : Tile) (n : Nat) (v : W64) : (t.putG n v).ix = t.ix := by unfold Tile.putG; split <;> rfl
@[simp] theorem Tile.putG_k (t : Tile) (n : Nat) (v : W64) : (t.putG n v).k = t.k := by unfold Tile.putG; split <;> rfl
@[simp] theorem Tile.putG_steps (t : Tile) (n : Nat) (v : W64) : (t.putG n v).steps = t.steps := by unfold Tile.putG; split <;> rfl
@[simp] theorem Tile.putG_tags (t : Tile) (n : Nat) (v : W64) : (t.putG n v).tags = t.tags := by unfold Tile.putG; split <;> rfl
@[simp] theorem Tile.putG_vbase (t : Tile) (n : Nat) (v : W64) : (t.putG n v).vbase = t.vbase := by unfold Tile.putG; split <;> rfl
@[simp] theorem Tile.putG_b (t : Tile) (n : Nat) (v : W64) : (t.putG n v).b = t.b := by unfold Tile.putG; split <;> rfl
@[simp] theorem Tile.putG_badB (t : Tile) (n : Nat) (v : W64) : (t.putG n v).badB = t.badB := by unfold Tile.putG; split <;> rfl
@[simp] theorem Tile.putG_bfmt0 (t : Tile) (n : Nat) (v : W64) : (t.putG n v).bfmt0 = t.bfmt0 := by unfold Tile.putG; split <;> rfl
@[simp] theorem Tile.putG_bfmt1 (t : Tile) (n : Nat) (v : W64) : (t.putG n v).bfmt1 = t.bfmt1 := by unfold Tile.putG; split <;> rfl
@[simp] theorem Tile.putG_bmap0 (t : Tile) (n : Nat) (v : W64) : (t.putG n v).bmap0 = t.bmap0 := by unfold Tile.putG; split <;> rfl
@[simp] theorem Tile.putG_bmap1 (t : Tile) (n : Nat) (v : W64) : (t.putG n v).bmap1 = t.bmap1 := by unfold Tile.putG; split <;> rfl
@[simp] theorem Tile.putG_cim0 (t : Tile) (n : Nat) (v : W64) : (t.putG n v).cim0 = t.cim0 := by unfold Tile.putG; split <;> rfl
@[simp] theorem Tile.putG_cim1 (t : Tile) (n : Nat) (v : W64) : (t.putG n v).cim1 = t.cim1 := by unfold Tile.putG; split <;> rfl
@[simp] theorem Tile.putG_acc (t : Tile) (n : Nat) (v : W64) : (t.putG n v).acc = t.acc := by unfold Tile.putG; split <;> rfl
@[simp] theorem Tile.putG_rows (t : Tile) (n : Nat) (v : W64) : (t.putG n v).rows = t.rows := by unfold Tile.putG; split <;> rfl
@[simp] theorem Tile.putG_afloor (t : Tile) (n : Nat) (v : W64) : (t.putG n v).afloor = t.afloor := by unfold Tile.putG; split <;> rfl
@[simp] theorem Tile.putG_streams (t : Tile) (n : Nat) (v : W64) : (t.putG n v).streams = t.streams := by unfold Tile.putG; split <;> rfl
@[simp] theorem Tile.putG_pats (t : Tile) (n : Nat) (v : W64) : (t.putG n v).pats = t.pats := by unfold Tile.putG; split <;> rfl
@[simp] theorem Tile.putG_swz (t : Tile) (n : Nat) (v : W64) : (t.putG n v).swz = t.swz := by unfold Tile.putG; split <;> rfl
@[simp] theorem Tile.putG_seg (t : Tile) (n : Nat) (v : W64) : (t.putG n v).seg = t.seg := by unfold Tile.putG; split <;> rfl
@[simp] theorem Tile.putQ_status (t : Tile) (n : Nat) (v : Bool) : (t.putQ n v).status = t.status := by unfold Tile.putQ; split <;> rfl
@[simp] theorem Tile.putQ_entry (t : Tile) (n : Nat) (v : Bool) : (t.putQ n v).entry = t.entry := by unfold Tile.putQ; split <;> rfl
@[simp] theorem Tile.putQ_asid (t : Tile) (n : Nat) (v : Bool) : (t.putQ n v).asid = t.asid := by unfold Tile.putQ; split <;> rfl
@[simp] theorem Tile.putQ_cancelAt (t : Tile) (n : Nat) (v : Bool) : (t.putQ n v).cancelAt = t.cancelAt := by unfold Tile.putQ; split <;> rfl
@[simp] theorem Tile.putQ_preemptAt (t : Tile) (n : Nat) (v : Bool) : (t.putQ n v).preemptAt = t.preemptAt := by unfold Tile.putQ; split <;> rfl
@[simp] theorem Tile.putQ_saveAsked (t : Tile) (n : Nat) (v : Bool) : (t.putQ n v).saveAsked = t.saveAsked := by unfold Tile.putQ; split <;> rfl
@[simp] theorem Tile.putQ_cancelled (t : Tile) (n : Nat) (v : Bool) : (t.putQ n v).cancelled = t.cancelled := by unfold Tile.putQ; split <;> rfl
@[simp] theorem Tile.putQ_g (t : Tile) (n : Nat) (v : Bool) : (t.putQ n v).g = t.g := by unfold Tile.putQ; split <;> rfl
@[simp] theorem Tile.putQ_f (t : Tile) (n : Nat) (v : Bool) : (t.putQ n v).f = t.f := by unfold Tile.putQ; split <;> rfl
@[simp] theorem Tile.putQ_d (t : Tile) (n : Nat) (v : Bool) : (t.putQ n v).d = t.d := by unfold Tile.putQ; split <;> rfl
@[simp] theorem Tile.putQ_pc (t : Tile) (n : Nat) (v : Bool) : (t.putQ n v).pc = t.pc := by unfold Tile.putQ; split <;> rfl
@[simp] theorem Tile.putQ_pfx (t : Tile) (n : Nat) (v : Bool) : (t.putQ n v).pfx = t.pfx := by unfold Tile.putQ; split <;> rfl
@[simp] theorem Tile.putQ_clause (t : Tile) (n : Nat) (v : Bool) : (t.putQ n v).clause = t.clause := by unfold Tile.putQ; split <;> rfl
@[simp] theorem Tile.putQ_fetchClause (t : Tile) (n : Nat) (v : Bool) : (t.putQ n v).fetchClause = t.fetchClause := by unfold Tile.putQ; split <;> rfl
@[simp] theorem Tile.putQ_fbuf (t : Tile) (n : Nat) (v : Bool) : (t.putQ n v).fbuf = t.fbuf := by unfold Tile.putQ; split <;> rfl
@[simp] theorem Tile.putQ_word (t : Tile) (n : Nat) (v : Bool) : (t.putQ n v).word = t.word := by unfold Tile.putQ; split <;> rfl
@[simp] theorem Tile.putQ_fpc (t : Tile) (n : Nat) (v : Bool) : (t.putQ n v).fpc = t.fpc := by unfold Tile.putQ; split <;> rfl
@[simp] theorem Tile.putQ_waitCap (t : Tile) (n : Nat) (v : Bool) : (t.putQ n v).waitCap = t.waitCap := by unfold Tile.putQ; split <;> rfl
@[simp] theorem Tile.putQ_regionState (t : Tile) (n : Nat) (v : Bool) : (t.putQ n v).regionState = t.regionState := by unfold Tile.putQ; split <;> rfl
@[simp] theorem Tile.putQ_bufph (t : Tile) (n : Nat) (v : Bool) : (t.putQ n v).bufph = t.bufph := by unfold Tile.putQ; split <;> rfl
@[simp] theorem Tile.putQ_inh (t : Tile) (n : Nat) (v : Bool) : (t.putQ n v).inh = t.inh := by unfold Tile.putQ; split <;> rfl
@[simp] theorem Tile.putQ_handlerPos (t : Tile) (n : Nat) (v : Bool) : (t.putQ n v).handlerPos = t.handlerPos := by unfold Tile.putQ; split <;> rfl
@[simp] theorem Tile.putQ_handlerLs (t : Tile) (n : Nat) (v : Bool) : (t.putQ n v).handlerLs = t.handlerLs := by unfold Tile.putQ; split <;> rfl
@[simp] theorem Tile.putQ_handlerNext (t : Tile) (n : Nat) (v : Bool) : (t.putQ n v).handlerNext = t.handlerNext := by unfold Tile.putQ; split <;> rfl
@[simp] theorem Tile.putQ_phase (t : Tile) (n : Nat) (v : Bool) : (t.putQ n v).phase = t.phase := by unfold Tile.putQ; split <;> rfl
@[simp] theorem Tile.putQ_loads (t : Tile) (n : Nat) (v : Bool) : (t.putQ n v).loads = t.loads := by unfold Tile.putQ; split <;> rfl
@[simp] theorem Tile.putQ_order (t : Tile) (n : Nat) (v : Bool) : (t.putQ n v).order = t.order := by unfold Tile.putQ; split <;> rfl
@[simp] theorem Tile.putQ_journal (t : Tile) (n : Nat) (v : Bool) : (t.putQ n v).journal = t.journal := by unfold Tile.putQ; split <;> rfl
@[simp] theorem Tile.putQ_storeQ (t : Tile) (n : Nat) (v : Bool) : (t.putQ n v).storeQ = t.storeQ := by unfold Tile.putQ; split <;> rfl
@[simp] theorem Tile.putQ_markPos (t : Tile) (n : Nat) (v : Bool) : (t.putQ n v).markPos = t.markPos := by unfold Tile.putQ; split <;> rfl
@[simp] theorem Tile.putQ_posted (t : Tile) (n : Nat) (v : Bool) : (t.putQ n v).posted = t.posted := by unfold Tile.putQ; split <;> rfl
@[simp] theorem Tile.putQ_reports (t : Tile) (n : Nat) (v : Bool) : (t.putQ n v).reports = t.reports := by unfold Tile.putQ; split <;> rfl
@[simp] theorem Tile.putQ_wait (t : Tile) (n : Nat) (v : Bool) : (t.putQ n v).wait = t.wait := by unfold Tile.putQ; split <;> rfl
@[simp] theorem Tile.putQ_atag (t : Tile) (n : Nat) (v : Bool) : (t.putQ n v).atag = t.atag := by unfold Tile.putQ; split <;> rfl
@[simp] theorem Tile.putQ_grantCtr (t : Tile) (n : Nat) (v : Bool) : (t.putQ n v).grantCtr = t.grantCtr := by unfold Tile.putQ; split <;> rfl
@[simp] theorem Tile.putQ_grantAge (t : Tile) (n : Nat) (v : Bool) : (t.putQ n v).grantAge = t.grantAge := by unfold Tile.putQ; split <;> rfl
@[simp] theorem Tile.putQ_grants (t : Tile) (n : Nat) (v : Bool) : (t.putQ n v).grants = t.grants := by unfold Tile.putQ; split <;> rfl
@[simp] theorem Tile.putQ_tokens (t : Tile) (n : Nat) (v : Bool) : (t.putQ n v).tokens = t.tokens := by unfold Tile.putQ; split <;> rfl
@[simp] theorem Tile.putQ_takers (t : Tile) (n : Nat) (v : Bool) : (t.putQ n v).takers = t.takers := by unfold Tile.putQ; split <;> rfl
@[simp] theorem Tile.putQ_took (t : Tile) (n : Nat) (v : Bool) : (t.putQ n v).took = t.took := by unfold Tile.putQ; split <;> rfl
@[simp] theorem Tile.putQ_vq (t : Tile) (n : Nat) (v : Bool) : (t.putQ n v).vq = t.vq := by unfold Tile.putQ; split <;> rfl
@[simp] theorem Tile.putQ_mq (t : Tile) (n : Nat) (v : Bool) : (t.putQ n v).mq = t.mq := by unfold Tile.putQ; split <;> rfl
@[simp] theorem Tile.putQ_cq (t : Tile) (n : Nat) (v : Bool) : (t.putQ n v).cq = t.cq := by unfold Tile.putQ; split <;> rfl
@[simp] theorem Tile.putQ_nextV (t : Tile) (n : Nat) (v : Bool) : (t.putQ n v).nextV = t.nextV := by unfold Tile.putQ; split <;> rfl
@[simp] theorem Tile.putQ_nextM (t : Tile) (n : Nat) (v : Bool) : (t.putQ n v).nextM = t.nextM := by unfold Tile.putQ; split <;> rfl
@[simp] theorem Tile.putQ_nextC (t : Tile) (n : Nat) (v : Bool) : (t.putQ n v).nextC = t.nextC := by unfold Tile.putQ; split <;> rfl
@[simp] theorem Tile.putQ_lsV (t : Tile) (n : Nat) (v : Bool) : (t.putQ n v).lsV = t.lsV := by unfold Tile.putQ; split <;> rfl
@[simp] theorem Tile.putQ_lsM (t : Tile) (n : Nat) (v : Bool) : (t.putQ n v).lsM = t.lsM := by unfold Tile.putQ; split <;> rfl
@[simp] theorem Tile.putQ_lsC (t : Tile) (n : Nat) (v : Bool) : (t.putQ n v).lsC = t.lsC := by unfold Tile.putQ; split <;> rfl
@[simp] theorem Tile.putQ_started (t : Tile) (n : Nat) (v : Bool) : (t.putQ n v).started = t.started := by unfold Tile.putQ; split <;> rfl
@[simp] theorem Tile.putQ_hist (t : Tile) (n : Nat) (v : Bool) : (t.putQ n v).hist = t.hist := by unfold Tile.putQ; split <;> rfl
@[simp] theorem Tile.putQ_cutM (t : Tile) (n : Nat) (v : Bool) : (t.putQ n v).cutM = t.cutM := by unfold Tile.putQ; split <;> rfl
@[simp] theorem Tile.putQ_cutC (t : Tile) (n : Nat) (v : Bool) : (t.putQ n v).cutC = t.cutC := by unfold Tile.putQ; split <;> rfl
@[simp] theorem Tile.putQ_vs (t : Tile) (n : Nat) (v : Bool) : (t.putQ n v).vs = t.vs := by unfold Tile.putQ; split <;> rfl
@[simp] theorem Tile.putQ_cutV (t : Tile) (n : Nat) (v : Bool) : (t.putQ n v).cutV = t.cutV := by unfold Tile.putQ; split <;> rfl
@[simp] theorem Tile.putQ_exts (t : Tile) (n : Nat) (v : Bool) : (t.putQ n v).exts = t.exts := by unfold Tile.putQ; split <;> rfl
@[simp] theorem Tile.putQ_pins (t : Tile) (n : Nat) (v : Bool) : (t.putQ n v).pins = t.pins := by unfold Tile.putQ; split <;> rfl
@[simp] theorem Tile.putQ_stampRef (t : Tile) (n : Nat) (v : Bool) : (t.putQ n v).stampRef = t.stampRef := by unfold Tile.putQ; split <;> rfl
@[simp] theorem Tile.putQ_refPending (t : Tile) (n : Nat) (v : Bool) : (t.putQ n v).refPending = t.refPending := by unfold Tile.putQ; split <;> rfl
@[simp] theorem Tile.putQ_mbaseAt (t : Tile) (n : Nat) (v : Bool) : (t.putQ n v).mbaseAt = t.mbaseAt := by unfold Tile.putQ; split <;> rfl
@[simp] theorem Tile.putQ_refPos (t : Tile) (n : Nat) (v : Bool) : (t.putQ n v).refPos = t.refPos := by unfold Tile.putQ; split <;> rfl
@[simp] theorem Tile.putQ_stallUntil (t : Tile) (n : Nat) (v : Bool) : (t.putQ n v).stallUntil = t.stallUntil := by unfold Tile.putQ; split <;> rfl
@[simp] theorem Tile.putQ_m (t : Tile) (n : Nat) (v : Bool) : (t.putQ n v).m = t.m := by unfold Tile.putQ; split <;> rfl
@[simp] theorem Tile.putQ_z (t : Tile) (n : Nat) (v : Bool) : (t.putQ n v).z = t.z := by unfold Tile.putQ; split <;> rfl
@[simp] theorem Tile.putQ_ix (t : Tile) (n : Nat) (v : Bool) : (t.putQ n v).ix = t.ix := by unfold Tile.putQ; split <;> rfl
@[simp] theorem Tile.putQ_k (t : Tile) (n : Nat) (v : Bool) : (t.putQ n v).k = t.k := by unfold Tile.putQ; split <;> rfl
@[simp] theorem Tile.putQ_steps (t : Tile) (n : Nat) (v : Bool) : (t.putQ n v).steps = t.steps := by unfold Tile.putQ; split <;> rfl
@[simp] theorem Tile.putQ_tags (t : Tile) (n : Nat) (v : Bool) : (t.putQ n v).tags = t.tags := by unfold Tile.putQ; split <;> rfl
@[simp] theorem Tile.putQ_vbase (t : Tile) (n : Nat) (v : Bool) : (t.putQ n v).vbase = t.vbase := by unfold Tile.putQ; split <;> rfl
@[simp] theorem Tile.putQ_b (t : Tile) (n : Nat) (v : Bool) : (t.putQ n v).b = t.b := by unfold Tile.putQ; split <;> rfl
@[simp] theorem Tile.putQ_badB (t : Tile) (n : Nat) (v : Bool) : (t.putQ n v).badB = t.badB := by unfold Tile.putQ; split <;> rfl
@[simp] theorem Tile.putQ_bfmt0 (t : Tile) (n : Nat) (v : Bool) : (t.putQ n v).bfmt0 = t.bfmt0 := by unfold Tile.putQ; split <;> rfl
@[simp] theorem Tile.putQ_bfmt1 (t : Tile) (n : Nat) (v : Bool) : (t.putQ n v).bfmt1 = t.bfmt1 := by unfold Tile.putQ; split <;> rfl
@[simp] theorem Tile.putQ_bmap0 (t : Tile) (n : Nat) (v : Bool) : (t.putQ n v).bmap0 = t.bmap0 := by unfold Tile.putQ; split <;> rfl
@[simp] theorem Tile.putQ_bmap1 (t : Tile) (n : Nat) (v : Bool) : (t.putQ n v).bmap1 = t.bmap1 := by unfold Tile.putQ; split <;> rfl
@[simp] theorem Tile.putQ_cim0 (t : Tile) (n : Nat) (v : Bool) : (t.putQ n v).cim0 = t.cim0 := by unfold Tile.putQ; split <;> rfl
@[simp] theorem Tile.putQ_cim1 (t : Tile) (n : Nat) (v : Bool) : (t.putQ n v).cim1 = t.cim1 := by unfold Tile.putQ; split <;> rfl
@[simp] theorem Tile.putQ_acc (t : Tile) (n : Nat) (v : Bool) : (t.putQ n v).acc = t.acc := by unfold Tile.putQ; split <;> rfl
@[simp] theorem Tile.putQ_rows (t : Tile) (n : Nat) (v : Bool) : (t.putQ n v).rows = t.rows := by unfold Tile.putQ; split <;> rfl
@[simp] theorem Tile.putQ_afloor (t : Tile) (n : Nat) (v : Bool) : (t.putQ n v).afloor = t.afloor := by unfold Tile.putQ; split <;> rfl
@[simp] theorem Tile.putQ_streams (t : Tile) (n : Nat) (v : Bool) : (t.putQ n v).streams = t.streams := by unfold Tile.putQ; split <;> rfl
@[simp] theorem Tile.putQ_pats (t : Tile) (n : Nat) (v : Bool) : (t.putQ n v).pats = t.pats := by unfold Tile.putQ; split <;> rfl
@[simp] theorem Tile.putQ_swz (t : Tile) (n : Nat) (v : Bool) : (t.putQ n v).swz = t.swz := by unfold Tile.putQ; split <;> rfl
@[simp] theorem Tile.putQ_seg (t : Tile) (n : Nat) (v : Bool) : (t.putQ n v).seg = t.seg := by unfold Tile.putQ; split <;> rfl
@[simp] theorem Tile.log_status (t : Tile) (k : JKind) (x : Nat) : (t.log k x).status = t.status := by unfold Tile.log; split <;> rfl
@[simp] theorem Tile.log_entry (t : Tile) (k : JKind) (x : Nat) : (t.log k x).entry = t.entry := by unfold Tile.log; split <;> rfl
@[simp] theorem Tile.log_asid (t : Tile) (k : JKind) (x : Nat) : (t.log k x).asid = t.asid := by unfold Tile.log; split <;> rfl
@[simp] theorem Tile.log_cancelAt (t : Tile) (k : JKind) (x : Nat) : (t.log k x).cancelAt = t.cancelAt := by unfold Tile.log; split <;> rfl
@[simp] theorem Tile.log_preemptAt (t : Tile) (k : JKind) (x : Nat) : (t.log k x).preemptAt = t.preemptAt := by unfold Tile.log; split <;> rfl
@[simp] theorem Tile.log_saveAsked (t : Tile) (k : JKind) (x : Nat) : (t.log k x).saveAsked = t.saveAsked := by unfold Tile.log; split <;> rfl
@[simp] theorem Tile.log_cancelled (t : Tile) (k : JKind) (x : Nat) : (t.log k x).cancelled = t.cancelled := by unfold Tile.log; split <;> rfl
@[simp] theorem Tile.log_g (t : Tile) (k : JKind) (x : Nat) : (t.log k x).g = t.g := by unfold Tile.log; split <;> rfl
@[simp] theorem Tile.log_f (t : Tile) (k : JKind) (x : Nat) : (t.log k x).f = t.f := by unfold Tile.log; split <;> rfl
@[simp] theorem Tile.log_q (t : Tile) (k : JKind) (x : Nat) : (t.log k x).q = t.q := by unfold Tile.log; split <;> rfl
@[simp] theorem Tile.log_d (t : Tile) (k : JKind) (x : Nat) : (t.log k x).d = t.d := by unfold Tile.log; split <;> rfl
@[simp] theorem Tile.log_pc (t : Tile) (k : JKind) (x : Nat) : (t.log k x).pc = t.pc := by unfold Tile.log; split <;> rfl
@[simp] theorem Tile.log_pfx (t : Tile) (k : JKind) (x : Nat) : (t.log k x).pfx = t.pfx := by unfold Tile.log; split <;> rfl
@[simp] theorem Tile.log_clause (t : Tile) (k : JKind) (x : Nat) : (t.log k x).clause = t.clause := by unfold Tile.log; split <;> rfl
@[simp] theorem Tile.log_fetchClause (t : Tile) (k : JKind) (x : Nat) : (t.log k x).fetchClause = t.fetchClause := by unfold Tile.log; split <;> rfl
@[simp] theorem Tile.log_fbuf (t : Tile) (k : JKind) (x : Nat) : (t.log k x).fbuf = t.fbuf := by unfold Tile.log; split <;> rfl
@[simp] theorem Tile.log_word (t : Tile) (k : JKind) (x : Nat) : (t.log k x).word = t.word := by unfold Tile.log; split <;> rfl
@[simp] theorem Tile.log_waitCap (t : Tile) (k : JKind) (x : Nat) : (t.log k x).waitCap = t.waitCap := by unfold Tile.log; split <;> rfl
@[simp] theorem Tile.log_regionState (t : Tile) (k : JKind) (x : Nat) : (t.log k x).regionState = t.regionState := by unfold Tile.log; split <;> rfl
@[simp] theorem Tile.log_bufph (t : Tile) (k : JKind) (x : Nat) : (t.log k x).bufph = t.bufph := by unfold Tile.log; split <;> rfl
@[simp] theorem Tile.log_inh (t : Tile) (k : JKind) (x : Nat) : (t.log k x).inh = t.inh := by unfold Tile.log; split <;> rfl
@[simp] theorem Tile.log_handlerPos (t : Tile) (k : JKind) (x : Nat) : (t.log k x).handlerPos = t.handlerPos := by unfold Tile.log; split <;> rfl
@[simp] theorem Tile.log_handlerLs (t : Tile) (k : JKind) (x : Nat) : (t.log k x).handlerLs = t.handlerLs := by unfold Tile.log; split <;> rfl
@[simp] theorem Tile.log_handlerNext (t : Tile) (k : JKind) (x : Nat) : (t.log k x).handlerNext = t.handlerNext := by unfold Tile.log; split <;> rfl
@[simp] theorem Tile.log_phase (t : Tile) (k : JKind) (x : Nat) : (t.log k x).phase = t.phase := by unfold Tile.log; split <;> rfl
@[simp] theorem Tile.log_loads (t : Tile) (k : JKind) (x : Nat) : (t.log k x).loads = t.loads := by unfold Tile.log; split <;> rfl
@[simp] theorem Tile.log_order (t : Tile) (k : JKind) (x : Nat) : (t.log k x).order = t.order := by unfold Tile.log; split <;> rfl
@[simp] theorem Tile.log_storeQ (t : Tile) (k : JKind) (x : Nat) : (t.log k x).storeQ = t.storeQ := by unfold Tile.log; split <;> rfl
@[simp] theorem Tile.log_markPos (t : Tile) (k : JKind) (x : Nat) : (t.log k x).markPos = t.markPos := by unfold Tile.log; split <;> rfl
@[simp] theorem Tile.log_posted (t : Tile) (k : JKind) (x : Nat) : (t.log k x).posted = t.posted := by unfold Tile.log; split <;> rfl
@[simp] theorem Tile.log_reports (t : Tile) (k : JKind) (x : Nat) : (t.log k x).reports = t.reports := by unfold Tile.log; split <;> rfl
@[simp] theorem Tile.log_wait (t : Tile) (k : JKind) (x : Nat) : (t.log k x).wait = t.wait := by unfold Tile.log; split <;> rfl
@[simp] theorem Tile.log_atag (t : Tile) (k : JKind) (x : Nat) : (t.log k x).atag = t.atag := by unfold Tile.log; split <;> rfl
@[simp] theorem Tile.log_grantCtr (t : Tile) (k : JKind) (x : Nat) : (t.log k x).grantCtr = t.grantCtr := by unfold Tile.log; split <;> rfl
@[simp] theorem Tile.log_grantAge (t : Tile) (k : JKind) (x : Nat) : (t.log k x).grantAge = t.grantAge := by unfold Tile.log; split <;> rfl
@[simp] theorem Tile.log_grants (t : Tile) (k : JKind) (x : Nat) : (t.log k x).grants = t.grants := by unfold Tile.log; split <;> rfl
@[simp] theorem Tile.log_tokens (t : Tile) (k : JKind) (x : Nat) : (t.log k x).tokens = t.tokens := by unfold Tile.log; split <;> rfl
@[simp] theorem Tile.log_takers (t : Tile) (k : JKind) (x : Nat) : (t.log k x).takers = t.takers := by unfold Tile.log; split <;> rfl
@[simp] theorem Tile.log_took (t : Tile) (k : JKind) (x : Nat) : (t.log k x).took = t.took := by unfold Tile.log; split <;> rfl
@[simp] theorem Tile.log_vq (t : Tile) (k : JKind) (x : Nat) : (t.log k x).vq = t.vq := by unfold Tile.log; split <;> rfl
@[simp] theorem Tile.log_mq (t : Tile) (k : JKind) (x : Nat) : (t.log k x).mq = t.mq := by unfold Tile.log; split <;> rfl
@[simp] theorem Tile.log_cq (t : Tile) (k : JKind) (x : Nat) : (t.log k x).cq = t.cq := by unfold Tile.log; split <;> rfl
@[simp] theorem Tile.log_nextV (t : Tile) (k : JKind) (x : Nat) : (t.log k x).nextV = t.nextV := by unfold Tile.log; split <;> rfl
@[simp] theorem Tile.log_nextM (t : Tile) (k : JKind) (x : Nat) : (t.log k x).nextM = t.nextM := by unfold Tile.log; split <;> rfl
@[simp] theorem Tile.log_nextC (t : Tile) (k : JKind) (x : Nat) : (t.log k x).nextC = t.nextC := by unfold Tile.log; split <;> rfl
@[simp] theorem Tile.log_lsV (t : Tile) (k : JKind) (x : Nat) : (t.log k x).lsV = t.lsV := by unfold Tile.log; split <;> rfl
@[simp] theorem Tile.log_lsM (t : Tile) (k : JKind) (x : Nat) : (t.log k x).lsM = t.lsM := by unfold Tile.log; split <;> rfl
@[simp] theorem Tile.log_lsC (t : Tile) (k : JKind) (x : Nat) : (t.log k x).lsC = t.lsC := by unfold Tile.log; split <;> rfl
@[simp] theorem Tile.log_started (t : Tile) (k : JKind) (x : Nat) : (t.log k x).started = t.started := by unfold Tile.log; split <;> rfl
@[simp] theorem Tile.log_hist (t : Tile) (k : JKind) (x : Nat) : (t.log k x).hist = t.hist := by unfold Tile.log; split <;> rfl
@[simp] theorem Tile.log_cutM (t : Tile) (k : JKind) (x : Nat) : (t.log k x).cutM = t.cutM := by unfold Tile.log; split <;> rfl
@[simp] theorem Tile.log_cutC (t : Tile) (k : JKind) (x : Nat) : (t.log k x).cutC = t.cutC := by unfold Tile.log; split <;> rfl
@[simp] theorem Tile.log_vs (t : Tile) (k : JKind) (x : Nat) : (t.log k x).vs = t.vs := by unfold Tile.log; split <;> rfl
@[simp] theorem Tile.log_cutV (t : Tile) (k : JKind) (x : Nat) : (t.log k x).cutV = t.cutV := by unfold Tile.log; split <;> rfl
@[simp] theorem Tile.log_exts (t : Tile) (k : JKind) (x : Nat) : (t.log k x).exts = t.exts := by unfold Tile.log; split <;> rfl
@[simp] theorem Tile.log_pins (t : Tile) (k : JKind) (x : Nat) : (t.log k x).pins = t.pins := by unfold Tile.log; split <;> rfl
@[simp] theorem Tile.log_stampRef (t : Tile) (k : JKind) (x : Nat) : (t.log k x).stampRef = t.stampRef := by unfold Tile.log; split <;> rfl
@[simp] theorem Tile.log_refPending (t : Tile) (k : JKind) (x : Nat) : (t.log k x).refPending = t.refPending := by unfold Tile.log; split <;> rfl
@[simp] theorem Tile.log_mbaseAt (t : Tile) (k : JKind) (x : Nat) : (t.log k x).mbaseAt = t.mbaseAt := by unfold Tile.log; split <;> rfl
@[simp] theorem Tile.log_refPos (t : Tile) (k : JKind) (x : Nat) : (t.log k x).refPos = t.refPos := by unfold Tile.log; split <;> rfl
@[simp] theorem Tile.log_stallUntil (t : Tile) (k : JKind) (x : Nat) : (t.log k x).stallUntil = t.stallUntil := by unfold Tile.log; split <;> rfl
@[simp] theorem Tile.log_m (t : Tile) (k : JKind) (x : Nat) : (t.log k x).m = t.m := by unfold Tile.log; split <;> rfl
@[simp] theorem Tile.log_z (t : Tile) (k : JKind) (x : Nat) : (t.log k x).z = t.z := by unfold Tile.log; split <;> rfl
@[simp] theorem Tile.log_ix (t : Tile) (k : JKind) (x : Nat) : (t.log k x).ix = t.ix := by unfold Tile.log; split <;> rfl
@[simp] theorem Tile.log_k (t : Tile) (k : JKind) (x : Nat) : (t.log k x).k = t.k := by unfold Tile.log; split <;> rfl
@[simp] theorem Tile.log_steps (t : Tile) (k : JKind) (x : Nat) : (t.log k x).steps = t.steps := by unfold Tile.log; split <;> rfl
@[simp] theorem Tile.log_tags (t : Tile) (k : JKind) (x : Nat) : (t.log k x).tags = t.tags := by unfold Tile.log; split <;> rfl
@[simp] theorem Tile.log_vbase (t : Tile) (k : JKind) (x : Nat) : (t.log k x).vbase = t.vbase := by unfold Tile.log; split <;> rfl
@[simp] theorem Tile.log_b (t : Tile) (k : JKind) (x : Nat) : (t.log k x).b = t.b := by unfold Tile.log; split <;> rfl
@[simp] theorem Tile.log_badB (t : Tile) (k : JKind) (x : Nat) : (t.log k x).badB = t.badB := by unfold Tile.log; split <;> rfl
@[simp] theorem Tile.log_bfmt0 (t : Tile) (k : JKind) (x : Nat) : (t.log k x).bfmt0 = t.bfmt0 := by unfold Tile.log; split <;> rfl
@[simp] theorem Tile.log_bfmt1 (t : Tile) (k : JKind) (x : Nat) : (t.log k x).bfmt1 = t.bfmt1 := by unfold Tile.log; split <;> rfl
@[simp] theorem Tile.log_bmap0 (t : Tile) (k : JKind) (x : Nat) : (t.log k x).bmap0 = t.bmap0 := by unfold Tile.log; split <;> rfl
@[simp] theorem Tile.log_bmap1 (t : Tile) (k : JKind) (x : Nat) : (t.log k x).bmap1 = t.bmap1 := by unfold Tile.log; split <;> rfl
@[simp] theorem Tile.log_cim0 (t : Tile) (k : JKind) (x : Nat) : (t.log k x).cim0 = t.cim0 := by unfold Tile.log; split <;> rfl
@[simp] theorem Tile.log_cim1 (t : Tile) (k : JKind) (x : Nat) : (t.log k x).cim1 = t.cim1 := by unfold Tile.log; split <;> rfl
@[simp] theorem Tile.log_acc (t : Tile) (k : JKind) (x : Nat) : (t.log k x).acc = t.acc := by unfold Tile.log; split <;> rfl
@[simp] theorem Tile.log_rows (t : Tile) (k : JKind) (x : Nat) : (t.log k x).rows = t.rows := by unfold Tile.log; split <;> rfl
@[simp] theorem Tile.log_afloor (t : Tile) (k : JKind) (x : Nat) : (t.log k x).afloor = t.afloor := by unfold Tile.log; split <;> rfl
@[simp] theorem Tile.log_streams (t : Tile) (k : JKind) (x : Nat) : (t.log k x).streams = t.streams := by unfold Tile.log; split <;> rfl
@[simp] theorem Tile.log_pats (t : Tile) (k : JKind) (x : Nat) : (t.log k x).pats = t.pats := by unfold Tile.log; split <;> rfl
@[simp] theorem Tile.log_swz (t : Tile) (k : JKind) (x : Nat) : (t.log k x).swz = t.swz := by unfold Tile.log; split <;> rfl
@[simp] theorem Tile.log_seg (t : Tile) (k : JKind) (x : Nat) : (t.log k x).seg = t.seg := by unfold Tile.log; split <;> rfl

end Sys2Proof.Machine
end

