-- ==== Sys2Proof/Laws/Tab.lean ====
section
/-! SUPPORT. Sparse tables: a read after a write, and the canonical form that every write keeps. -/

namespace Sys2Proof.Machine

variable {α : Type}

theorem Tab.find_erase (t : Tab α) (k i : Nat) : Tab.find? (Tab.erase t k) i = if i = k then none else Tab.find? t i := by
  induction t with
  | nil => simp [Tab.erase, Tab.find?]
  | cons p r ih =>
    obtain ⟨k', v⟩ := p
    unfold Tab.erase at ih ⊢
    by_cases h : k' = k
    · subst h
      simp only [List.filter_cons, bne_self_eq_false, Bool.false_eq_true, if_false, ih, Tab.find?]
      by_cases hi : i = k'
      · simp [hi]
      · simp [hi, Ne.symm hi]
    · simp only [List.filter_cons, bne_iff_ne, ne_eq, h, not_false_eq_true, if_true, Tab.find?, ih]
      by_cases hi : k' = i
      · subst hi; simp [h]
      · simp [hi]

theorem Tab.find_insert (t : Tab α) (k i : Nat) (v : α) (h : Tab.find? t k = none) :
    Tab.find? (Tab.insert t k v) i = if i = k then some v else Tab.find? t i := by
  induction t with
  | nil =>
    by_cases hi : i = k
    · simp [Tab.insert, Tab.find?, hi]
    · simp [Tab.insert, Tab.find?, hi, Ne.symm hi]
  | cons p r ih =>
    obtain ⟨k', w⟩ := p
    by_cases hk : k' = k
    · simp [Tab.find?, hk] at h
    · simp only [Tab.find?, if_neg hk] at h
      unfold Tab.insert
      split
      · by_cases hi : i = k
        · simp [Tab.find?, hi]
        · simp [Tab.find?, hi, Ne.symm hi]
      · simp only [Tab.find?, ih h]
        by_cases hi : k' = i
        · subst hi; simp [hk]
        · simp [hi]

theorem Tab.find_put (t : Tab α) (k i : Nat) (v : α) :
    Tab.find? (Tab.put t k v) i = if i = k then some v else Tab.find? t i := by
  unfold Tab.put
  rw [Tab.find_insert _ _ _ _ (by simp [Tab.find_erase]), Tab.find_erase]
  by_cases h : i = k <;> simp [h]

/-- A read after a put: the new value at its key, the old one elsewhere. -/
theorem Tab.get_put (d : α) (t : Tab α) (k i : Nat) (v : α) : Tab.get d (Tab.put t k v) i = if i = k then v else Tab.get d t i := by
  unfold Tab.get
  rw [Tab.find_put]
  split <;> rfl

@[simp] theorem Tab.get_put_self (d : α) (t : Tab α) (k : Nat) (v : α) : Tab.get d (Tab.put t k v) k = v := by
  simp [Tab.get_put]

theorem Tab.get_put_ne (d : α) (t : Tab α) {k i : Nat} (v : α) (h : i ≠ k) : Tab.get d (Tab.put t k v) i = Tab.get d t i := by
  simp [Tab.get_put, h]

/-- A read after a set: the new value at its key, the old one elsewhere. -/
theorem Tab.get_set [DecidableEq α] (d : α) (t : Tab α) (k i : Nat) (v : α) :
    Tab.get d (Tab.set d t k v) i = if i = k then v else Tab.get d t i := by
  unfold Tab.set
  split
  · next h =>
    unfold Tab.get
    rw [Tab.find_erase]
    split
    · simp [h]
    · rfl
  · exact Tab.get_put d t k i v

@[simp] theorem Tab.get_set_self [DecidableEq α] (d : α) (t : Tab α) (k : Nat) (v : α) : Tab.get d (Tab.set d t k v) k = v := by
  simp [Tab.get_set]

theorem Tab.get_set_ne [DecidableEq α] (d : α) (t : Tab α) {k i : Nat} (v : α) (h : i ≠ k) :
    Tab.get d (Tab.set d t k v) i = Tab.get d t i := by simp [Tab.get_set, h]

@[simp] theorem Tab.get_nil (d : α) (k : Nat) : Tab.get d [] k = d := rfl

/-! ## The canonical form -/

theorem Tab.wf_iff [DecidableEq α] (d : α) (t : Tab α) :
    Tab.wf d t = true ↔ (t.Pairwise fun a b => a.1 < b.1) ∧ ∀ p ∈ t, p.2 ≠ d := by
  induction t with
  | nil => simp [Tab.wf]
  | cons p r ih =>
    obtain ⟨k, v⟩ := p
    cases r with
    | nil => simp [Tab.wf]
    | cons q r =>
      obtain ⟨k', v'⟩ := q
      simp only [Tab.wf, Bool.and_eq_true, decide_eq_true_eq, ih]
      constructor
      · rintro ⟨⟨hv, hk⟩, hp, hd⟩
        refine ⟨List.pairwise_cons.2 ⟨?_, hp⟩, ?_⟩
        · intro b hb
          rcases List.mem_cons.1 hb with rfl | hb
          · exact hk
          · exact Nat.lt_trans hk (List.rel_of_pairwise_cons hp hb)
        · intro p hp'
          rcases List.mem_cons.1 hp' with rfl | h
          · exact hv
          · exact hd p h
      · rintro ⟨hp, hd⟩
        have h := List.pairwise_cons.1 hp
        exact ⟨⟨hd (k, v) (by simp), h.1 (k', v') (by simp)⟩, h.2, fun p hp' => hd p (List.mem_cons_of_mem _ hp')⟩

theorem Tab.wf_nil [DecidableEq α] (d : α) : Tab.wf d ([] : Tab α) = true := rfl

/-- Any filtering keeps the form. -/
theorem Tab.wf_filter [DecidableEq α] (d : α) (t : Tab α) (f : Nat × α → Bool) (h : Tab.wf d t = true) :
    Tab.wf d (t.filter f) = true := by
  rw [Tab.wf_iff] at *
  exact ⟨h.1.filter f, fun p hp => h.2 p (List.mem_filter.1 hp).1⟩

theorem Tab.wf_erase [DecidableEq α] (d : α) (t : Tab α) (k : Nat) (h : Tab.wf d t = true) : Tab.wf d (Tab.erase t k) = true :=
  Tab.wf_filter d t _ h

theorem Tab.mem_insert (t : Tab α) (k : Nat) (v : α) (p : Nat × α) : p ∈ Tab.insert t k v → p = (k, v) ∨ p ∈ t := by
  induction t with
  | nil => simp [Tab.insert]
  | cons q r ih =>
    unfold Tab.insert
    split
    · simp
    · simp only [List.mem_cons]
      rintro (h | h)
      · exact .inr (.inl h)
      · exact (ih h).imp_right .inr

theorem Tab.pairwise_insert (t : Tab α) (k : Nat) (v : α) (h : t.Pairwise fun a b => a.1 < b.1) (hk : ∀ p ∈ t, p.1 ≠ k) :
    (Tab.insert t k v).Pairwise fun a b => a.1 < b.1 := by
  induction t with
  | nil => simp [Tab.insert]
  | cons q r ih =>
    have hq := List.pairwise_cons.1 h
    unfold Tab.insert
    split
    · next hlt =>
      refine List.pairwise_cons.2 ⟨?_, h⟩
      intro b hb
      rcases List.mem_cons.1 hb with rfl | hb
      · exact hlt
      · exact Nat.lt_trans hlt (hq.1 b hb)
    · next hlt =>
      refine List.pairwise_cons.2 ⟨?_, ih hq.2 fun p hp => hk p (List.mem_cons_of_mem _ hp)⟩
      intro b hb
      rcases Tab.mem_insert r k v b hb with rfl | hb
      · have := hk q (by simp); simp only; omega
      · exact hq.1 b hb

theorem Tab.wf_put [DecidableEq α] (d : α) (t : Tab α) (k : Nat) (v : α) (h : Tab.wf d t = true) (hv : v ≠ d) :
    Tab.wf d (Tab.put t k v) = true := by
  have he := Tab.wf_erase d t k h
  rw [Tab.wf_iff] at *
  refine ⟨Tab.pairwise_insert _ k v he.1 ?_, ?_⟩
  · intro p hp
    have := (List.mem_filter.1 hp).2
    simpa using this
  · intro p hp
    rcases Tab.mem_insert _ k v p hp with rfl | hp
    · exact hv
    · exact he.2 p hp

/-- A write keeps the canonical form: writing the default removes the entry. -/
theorem Tab.wf_set [DecidableEq α] (d : α) (t : Tab α) (k : Nat) (v : α) (h : Tab.wf d t = true) : Tab.wf d (Tab.set d t k v) = true := by
  unfold Tab.set
  split
  · exact Tab.wf_erase d t k h
  · next hv => exact Tab.wf_put d t k v h hv

end Sys2Proof.Machine
end

