-- ==== Sys2Proof/Laws/Registers.lean ====
section
/-! SUPPORT. What a word that writes one scalar register does, said once: the result in its register, everything else
as it was. -/

namespace Sys2Proof.Machine

/-! ## Reading the state after an update -/

theorem State.tile_setTile (s : State) (k j : Nat) (t : Tile) : (s.setTile k t).tile j = if j = k then t else s.tile j :=
  Tab.get_put ({} : Tile) s.tiles k j t
@[simp] theorem State.tile_setTile_self (s : State) (k : Nat) (t : Tile) : (s.setTile k t).tile k = t := by
  simp [State.tile_setTile]
theorem State.tile_modTile (s : State) (k j : Nat) (f : Tile → Tile) :
    (s.modTile k f).tile j = if j = k then f (s.tile k) else s.tile j := State.tile_setTile s k j _
@[simp] theorem State.tile_modTile_self (s : State) (k : Nat) (f : Tile → Tile) : (s.modTile k f).tile k = f (s.tile k) := by
  simp [State.tile_modTile]
theorem State.die_setDie (s : State) (d j : Nat) (x : Die) : (s.setDie d x).die j = if j = d then x else s.die j :=
  Tab.get_put ({} : Die) s.dies d j x
@[simp] theorem State.die_setDie_self (s : State) (d : Nat) (x : Die) : (s.setDie d x).die d = x := by simp [State.die_setDie]
@[simp] theorem State.die_modDie_self (s : State) (d : Nat) (f : Die → Die) : (s.modDie d f).die d = f (s.die d) :=
  State.die_setDie_self s d _
theorem State.pkg_setPkg (s : State) (p j : Nat) (x : Pkg) : (s.setPkg p x).pkg j = if j = p then x else s.pkg j :=
  Tab.get_put ({} : Pkg) s.pkgs p j x
@[simp] theorem State.pkg_setPkg_self (s : State) (p : Nat) (x : Pkg) : (s.setPkg p x).pkg p = x := by simp [State.pkg_setPkg]
@[simp] theorem State.pkg_modPkg_self (s : State) (p : Nat) (f : Pkg → Pkg) : (s.modPkg p f).pkg p = f (s.pkg p) :=
  State.pkg_setPkg_self s p _
theorem State.job_setJob (s : State) (j i : Nat) (x : Job) : (s.setJob j x).job i = if i = j then x else s.job i :=
  Tab.get_put ({} : Job) s.jobs j i x

@[simp] theorem State.die_setTile (s : State) (k d : Nat) (t : Tile) : (s.setTile k t).die d = s.die d := rfl
@[simp] theorem State.pkg_setTile (s : State) (k p : Nat) (t : Tile) : (s.setTile k t).pkg p = s.pkg p := rfl
@[simp] theorem State.job_setTile (s : State) (k j : Nat) (t : Tile) : (s.setTile k t).job j = s.job j := rfl
@[simp] theorem State.byte_setTile (s : State) (k p : Nat) (t : Tile) : (s.setTile k t).byte p = s.byte p := rfl
@[simp] theorem State.dcc_setTile (s : State) (k d : Nat) (t : Tile) : (s.setTile k t).dcc d = s.dcc d := rfl
@[simp] theorem State.ptc_setTile (s : State) (k d : Nat) (t : Tile) : (s.setTile k t).ptc d = s.ptc d := rfl
@[simp] theorem State.cur_setTile (s : State) (t : Tile) : (s.setTile s.focus t).cur = t := State.tile_setTile_self s s.focus t
@[simp] theorem State.cur_modTile (s : State) (f : Tile → Tile) : (s.modTile s.focus f).cur = f s.cur :=
  State.tile_modTile_self s s.focus f
theorem State.tile_focus (s : State) : s.tile s.focus = s.cur := rfl

/-! ## Flags and the journal -/

@[simp] theorem Tile.journalAdd_fpc (t : Tile) (k : JKind) (fl : Nat) (r : Bool) : (t.journalAdd k fl r).fpc = t.fpc := rfl

/-- A word whose flags are empty leaves FPC as it was, journalled or not. -/
@[simp] theorem Tile.log_fpc_zero (t : Tile) (k : JKind) : (t.log k 0).fpc = t.fpc := by
  unfold Tile.log
  split
  · rfl
  · simp

/-- Where the CT does not run ahead, a word's flags join FPC at once (R79). -/
theorem Tile.log_fpc (t : Tile) (k : JKind) (fl : Nat) (h : t.ahead = false) :
    (t.log k fl).fpc = t.fpc ||| BitVec.ofNat 64 fl := by simp [Tile.log, h]

/-- Where it does, they wait in the journal. -/
theorem Tile.log_fpc_ahead (t : Tile) (k : JKind) (fl : Nat) (h : t.ahead = true) : (t.log k fl).fpc = t.fpc := by
  simp [Tile.log, h]

theorem Tile.log_onlyCt (t : Tile) (k : JKind) (fl : Nat) : OnlyCt t (t.log k fl) := by
  unfold Tile.log
  split <;> rfl

/-! ## Registers after a write -/

theorem Tile.gReg_putG (t : Tile) (n i : Nat) (v : W64) : (t.putG n v).gReg i = if i = n ∧ n ≠ 0 then v else t.gReg i := by
  unfold Tile.putG Tile.gReg
  by_cases hn : n = 0
  · simp [hn]
  · by_cases hi : i = n
    · subst hi; simp [hn]
    · simp [hn, hi, Tab.get_set]

@[simp] theorem Tile.gReg_log (t : Tile) (k : JKind) (fl i : Nat) : (t.log k fl).gReg i = t.gReg i := by simp [Tile.gReg]
@[simp] theorem Tile.gReg_putQ (t : Tile) (n : Nat) (v : Bool) (i : Nat) : (t.putQ n v).gReg i = t.gReg i := by simp [Tile.gReg]
@[simp] theorem Tile.gReg_putF (t : Tile) (n : Nat) (v : FReg) (i : Nat) : (t.putF n v).gReg i = t.gReg i := rfl
@[simp] theorem Tile.gReg_putD (t : Tile) (n : Nat) (v : TMap) (i : Nat) : (t.putD n v).gReg i = t.gReg i := rfl

theorem Tile.fReg_putF (t : Tile) (n i : Nat) (v : FReg) : (t.putF n v).fReg i = if i = n then v else t.fReg i := by
  simp [Tile.putF, Tile.fReg, Tab.get_set]
@[simp] theorem Tile.fReg_log (t : Tile) (k : JKind) (fl i : Nat) : (t.log k fl).fReg i = t.fReg i := by simp [Tile.fReg]
@[simp] theorem Tile.fReg_putG (t : Tile) (n : Nat) (v : W64) (i : Nat) : (t.putG n v).fReg i = t.fReg i := by simp [Tile.fReg]
@[simp] theorem Tile.fReg_putQ (t : Tile) (n : Nat) (v : Bool) (i : Nat) : (t.putQ n v).fReg i = t.fReg i := by simp [Tile.fReg]
@[simp] theorem Tile.fReg_putD (t : Tile) (n : Nat) (v : TMap) (i : Nat) : (t.putD n v).fReg i = t.fReg i := rfl

theorem Tile.dReg_putD (t : Tile) (n i : Nat) (v : TMap) : (t.putD n v).dReg i = if i = n then v else t.dReg i := by
  simp [Tile.putD, Tile.dReg, Tab.get_set]
@[simp] theorem Tile.dReg_log (t : Tile) (k : JKind) (fl i : Nat) : (t.log k fl).dReg i = t.dReg i := by simp [Tile.dReg]
@[simp] theorem Tile.dReg_putG (t : Tile) (n : Nat) (v : W64) (i : Nat) : (t.putG n v).dReg i = t.dReg i := by simp [Tile.dReg]
@[simp] theorem Tile.dReg_putQ (t : Tile) (n : Nat) (v : Bool) (i : Nat) : (t.putQ n v).dReg i = t.dReg i := by simp [Tile.dReg]
@[simp] theorem Tile.dReg_putF (t : Tile) (n : Nat) (v : FReg) (i : Nat) : (t.putF n v).dReg i = t.dReg i := rfl

theorem Tile.qReg_putQ (t : Tile) (n i : Nat) (v : Bool) (hi : i < 8) :
    (t.putQ n v).qReg i = if i = n ∧ n ≠ 0 then v else t.qReg i := by
  unfold Tile.putQ Tile.qReg
  by_cases hn : n = 0
  · simp [hn]
  · by_cases h : i = n
    · subst h; cases v <;> simp [hn, hi]
    · have h' : ¬ (i < n) → ¬ (i - n = 0) := by omega
      by_cases hlt : i < n
      · cases v <;> simp [hn, h, hi, hlt]
      · cases v <;> simp [hn, h, hi, hlt, h' hlt]

/-! ## The end of a word -/

@[simp] theorem Tile.gReg_retireTo (t : Tile) (pc : W64) (c i : Nat) : (t.retireTo pc c).gReg i = t.gReg i := rfl
@[simp] theorem Tile.fReg_retireTo (t : Tile) (pc : W64) (c i : Nat) : (t.retireTo pc c).fReg i = t.fReg i := rfl
@[simp] theorem Tile.qReg_retireTo (t : Tile) (pc : W64) (c i : Nat) : (t.retireTo pc c).qReg i = t.qReg i := rfl
@[simp] theorem Tile.dReg_retireTo (t : Tile) (pc : W64) (c i : Nat) : (t.retireTo pc c).dReg i = t.dReg i := rfl

theorem State.retire_eq (s : State) (t : Tile) : s.retire t = s.retireTo t (t.pc + 4) := rfl
@[simp] theorem State.cur_retireTo (s : State) (t : Tile) (pc : W64) :
    (s.retireTo t pc).cur = t.retireTo pc (s.dcc (tileDie s.focus)) := State.cur_setTile s _

theorem onlyTile_setTile (s : State) (t : Tile) : OnlyTile s (s.setTile s.focus t) :=
  ⟨by rw [State.cur_setTile], fun _ => rfl⟩

/-- The end of a word whose tile differs from the one it began in by the CT's registers and its journal alone. -/
theorem State.retireTo_ctWord (s : State) (u : Tile) (pc : W64) (h : OnlyCt s.cur u) (hc : u.clause = s.cur.clause)
    (ho : u.order = s.cur.order) : CtWord s (s.retireTo u pc) pc := by
  refine ⟨onlyTile_setTile s _, ?_, ?_, ?_⟩
  · unfold OnlyCt at h ⊢
    rw [State.cur_retireTo]
    unfold Tile.retireTo Tile.segIssue
    rw [h]
  · rw [State.cur_retireTo]
    exact ⟨by simp [hc], rfl, rfl, by simp [ho]⟩
  · rw [State.cur_retireTo]; rfl

theorem Tile.writeG_onlyCt (t : Tile) (n : Nat) (v : W64) (fl : Nat) : OnlyCt t (t.writeG n v fl) := by
  unfold Tile.writeG Tile.putG Tile.log
  split <;> split <;> rfl
theorem Tile.writeQ_onlyCt (t : Tile) (n : Nat) (v : Bool) (fl : Nat) : OnlyCt t (t.writeQ n v fl) := by
  unfold Tile.writeQ Tile.putQ Tile.log
  split <;> split <;> rfl
theorem Tile.writeF_onlyCt (t : Tile) (n : Nat) (v : FReg) (fl : Nat) : OnlyCt t (t.writeF n v fl) := by
  unfold Tile.writeF Tile.putF Tile.log
  split <;> rfl
theorem Tile.writeD_onlyCt (t : Tile) (n : Nat) (v : TMap) : OnlyCt t (t.writeD n v) := by
  unfold Tile.writeD Tile.putD Tile.log
  split <;> rfl
theorem OnlyCt.rfl' (t : Tile) : OnlyCt t t := rfl

/-- A word that writes g[d] and raises no flag. -/
theorem State.wroteG (s : State) (d : Nat) (v : W64) (pc : W64) :
    CtWord s (s.retireTo (s.cur.writeG d v) pc) pc ∧ GSet s.cur (s.retireTo (s.cur.writeG d v) pc).cur d v
    ∧ FSame s.cur (s.retireTo (s.cur.writeG d v) pc).cur ∧ QSame s.cur (s.retireTo (s.cur.writeG d v) pc).cur
    ∧ DSame s.cur (s.retireTo (s.cur.writeG d v) pc).cur ∧ (s.retireTo (s.cur.writeG d v) pc).cur.fpc = s.cur.fpc := by
  refine ⟨s.retireTo_ctWord _ _ (s.cur.writeG_onlyCt d v 0) ?_ ?_, ?_, ?_, ?_, ?_, ?_⟩ <;>
    simp [Tile.writeG, GSet, FSame, QSame, DSame, Tile.gReg_putG]

/-- A word that writes g[d], raises no flag and goes on at the next word. -/
theorem State.setG_spec (s : State) (d : Nat) (v : W64) : ∃ t, s.setG d v = .next t ∧ WroteG s t d v :=
  ⟨_, rfl, by
    have h := s.wroteG d v (s.cur.pc + 4)
    have e : (s.cur.writeG d v).pc = s.cur.pc := by simp [Tile.writeG]
    rw [State.tile_focus, State.retire_eq, e]
    exact h⟩

/-- A word that writes q[d] and raises no flag. -/
theorem State.setQ_spec (s : State) (d : Nat) (v : Bool) : ∃ t, s.setQ d v = .next t ∧ WroteQ s t d v :=
  ⟨_, rfl, by
    have e : (s.cur.writeQ d v).pc = s.cur.pc := by simp [Tile.writeQ]
    rw [State.tile_focus, State.retire_eq, e]
    refine ⟨s.retireTo_ctWord _ _ (s.cur.writeQ_onlyCt d v 0) ?_ ?_, ?_, ?_, ?_, ?_, ?_⟩
    · simp [Tile.writeQ]
    · simp [Tile.writeQ]
    · intro n hn
      have hl : (s.cur.log (.q s.cur.q) 0).qReg n = s.cur.qReg n := by simp [Tile.qReg]
      simp [Tile.writeQ, Tile.qReg_putQ _ _ _ _ hn, hl]
    · intro n; simp [Tile.writeQ]
    · intro n; simp [Tile.writeQ]
    · intro n; simp [Tile.writeQ]
    · simp [Tile.writeQ]⟩

/-- A word that writes f[d] and raises no flag. -/
theorem State.wroteF (s : State) (d : Nat) (v : FReg) : WroteF s (s.retire (s.cur.writeF d v)) d v := by
  have e : (s.cur.writeF d v).pc = s.cur.pc := by simp [Tile.writeF]
  rw [State.retire_eq, e]
  refine ⟨s.retireTo_ctWord _ _ (s.cur.writeF_onlyCt d v 0) ?_ ?_, ?_, ?_, ?_, ?_, ?_⟩
  · simp [Tile.writeF]
  · simp [Tile.writeF]
  · intro n; simp [Tile.writeF, Tile.fReg_putF]
  · intro n; simp [Tile.writeF]
  · simp [QSame, Tile.writeF]
  · intro n; simp [Tile.writeF]
  · simp [Tile.writeF]

/-- A word that writes no register. -/
theorem State.wentTo (s : State) (pc : W64) : WentTo s (s.retireTo s.cur pc) pc := by
  refine ⟨s.retireTo_ctWord _ _ rfl rfl rfl, ?_, ?_, ?_, ?_, ?_⟩ <;> simp [GSame, FSame, QSame, DSame]

end Sys2Proof.Machine
end

