-- ==== Sys2Proof/Laws/Ops.lean ====
section
/-! SUPPORT. The shared operations of the CT: what each answers where nothing holds it. -/

namespace Sys2Proof.Machine

/-! ## Words that wait -/

theorem State.commitThen_now (s : State) (f : State → Out) (h : s.cur.ahead = false) : s.commitThen f = f s := by
  simp [State.commitThen, h]

/-- With nothing outstanding, a word that drains goes on at once. -/
theorem State.drained_now (s : State) (f : State → Out) (hq : s.cur.storeQ = []) (hp : s.cur.posted = []) (hr : s.cur.reports = []) :
    s.drained f = f s := by simp [State.drained, hq, hp, hr]

theorem State.releaseIf_now (s : State) (rel : Bool) (f : State → Out)
    (h : rel = true → s.cur.storeQ = [] ∧ s.cur.posted = [] ∧ s.cur.reports = []) : s.releaseIf rel f = f s := by
  cases rel
  · rfl
  · obtain ⟨a, b, c⟩ := h rfl
    exact s.drained_now f a b c

/-! ## Cuts and ends of units on a tile that runs -/

theorem State.endUnit_running (s : State) (k : Nat) (h : (s.tile k).status = .running) : s.endUnit k = s := by
  unfold State.endUnit
  simp only [h]
  split <;> rfl

theorem State.endCut_running (s : State) (k : Nat) (h : (s.tile k).status = .running) : s.endCut k = s := by
  unfold State.endCut
  simp only [h]
  exact s.endUnit_running k h

/-- A word of a running tile that another step ends: its effect, and the next word. -/
theorem State.finishWord_running (s : State) (k : Nat) (f : Tile → Tile)
    (hs : (f (s.tile k)).status = .running) (h : (s.tile k).status = .running) :
    s.finishWord k f = s.setTile k ((f (s.tile k)).retire (s.dcc (tileDie k))) := by
  unfold State.finishWord
  simp only [h]
  exact State.endCut_running _ _ (by simpa [Tile.retire] using hs)

theorem State.failWord_running (s : State) (k : Nat) (i : TrapInfo) (h : (s.tile k).status = .running) :
    s.failWord k i = (s.modTile k fun t => { t with wait := none }).raise k i := by
  unfold State.failWord
  simp [h]

/-! ## Bytes -/

theorem State.byte_putByte (s : State) (p q : Nat) (b : Byte) : (s.putByte p b).byte q = if q = p then b else s.byte q :=
  Tab.get_set 0 s.mem p q b

theorem State.byte_putBytes (bs : List Byte) : ∀ (s : State) (p q : Nat),
    (s.putBytes p bs).byte q = if p ≤ q ∧ q < p + bs.length then bs.getD (q - p) 0 else s.byte q := by
  induction bs with
  | nil => intro s p q; simp [State.putBytes]
  | cons b r ih =>
    intro s p q
    unfold State.putBytes
    rw [ih, State.byte_putByte]
    by_cases h1 : q = p
    · subst h1; simp
    · by_cases h2 : p + 1 ≤ q ∧ q < p + 1 + r.length
      · have h3 : p ≤ q ∧ q < p + (b :: r).length := by simp only [List.length_cons]; omega
        rw [if_pos h2, if_pos h3, show q - p = (q - (p + 1)) + 1 by omega]
        rfl
      · have h3 : ¬ (p ≤ q ∧ q < p + (b :: r).length) := by simp only [List.length_cons]; omega
        rw [if_neg h2, if_neg h3, if_neg h1]

@[simp] theorem State.byte_touchSectors (s : State) (p len q : Nat) : (s.touchSectors p len).byte q = s.byte q := by
  unfold State.touchSectors; split <;> rfl
@[simp] theorem State.byte_markSwizzle (s : State) (p len q : Nat) (c : BitVec 4) : (s.markSwizzle p len c).byte q = s.byte q := by
  unfold State.markSwizzle; split <;> rfl

/-- A program write puts its bytes at their addresses and leaves every other byte. -/
theorem State.byte_writePlain (s : State) (p q : Nat) (bs : List Byte) (c : BitVec 4) :
    (s.writePlain p bs c).byte q = if p ≤ q ∧ q < p + bs.length then bs.getD (q - p) 0 else s.byte q := by
  unfold State.writePlain
  rw [State.byte_markSwizzle, State.byte_touchSectors, State.byte_putBytes]

/-- What a program write leaves of a tile: all but its swizzle records. -/
theorem State.tile_writePlain (s : State) (p : Nat) (bs : List Byte) (c : BitVec 4) (k : Nat) :
    ∃ z, (s.writePlain p bs c).tile k = { s.tile k with swz := z } := by
  have h : ∀ (bs : List Byte) (s : State) (p : Nat), (s.putBytes p bs).tile k = s.tile k := by
    intro bs
    induction bs with
    | nil => intros; rfl
    | cons b r ih => intro s p; unfold State.putBytes; rw [ih]; rfl
  have h2 : ∀ (s : State) (p n : Nat), (s.touchSectors p n).tile k = s.tile k := by
    intro s p n; unfold State.touchSectors; split <;> rfl
  have e : ((s.putBytes p bs).touchSectors p bs.length).tile k = s.tile k := by rw [h2, h]
  unfold State.writePlain State.markSwizzle
  split
  · rw [State.tile_modTile]
    split
    · next hk =>
      subst hk
      generalize ((s.putBytes p bs).touchSectors p bs.length).tile (sliceTile p) = u at e ⊢
      subst e
      exact ⟨_, rfl⟩
    · exact ⟨_, e⟩
  · exact ⟨_, e⟩

/-! ## Canonical form of memory -/

theorem State.memoryOk_putByte (s : State) (p : Nat) (b : Byte) (h : s.memoryOk) : (s.putByte p b).memoryOk :=
  ⟨Tab.wf_set 0 s.mem p b h.1, h.2⟩

theorem State.memoryOk_putBytes (bs : List Byte) : ∀ (s : State) (p : Nat), s.memoryOk → (s.putBytes p bs).memoryOk := by
  induction bs with
  | nil => exact fun _ _ h => h
  | cons b r ih => exact fun s p h => ih _ _ (s.memoryOk_putByte p b h)

theorem State.memoryOk_putHost (bs : List Byte) : ∀ (s : State) (p : Nat), s.memoryOk → (s.putHost p bs).memoryOk := by
  induction bs with
  | nil => exact fun _ _ h => h
  | cons b r ih => exact fun s p h => ih _ _ ⟨h.1, Tab.wf_set 0 s.hostMem p b h.2⟩

theorem State.memoryOk_touchSectors (s : State) (p len : Nat) (h : s.memoryOk) : (s.touchSectors p len).memoryOk := by
  unfold State.touchSectors; split <;> exact h
theorem State.memoryOk_markSwizzle (s : State) (p len : Nat) (c : BitVec 4) (h : s.memoryOk) : (s.markSwizzle p len c).memoryOk := by
  unfold State.markSwizzle; split <;> exact h

/-- Every program write keeps the canonical form. -/
theorem State.memoryOk_writePlain (s : State) (p : Nat) (bs : List Byte) (c : BitVec 4) (h : s.memoryOk) :
    (s.writePlain p bs c).memoryOk :=
  State.memoryOk_markSwizzle _ _ _ _ (State.memoryOk_touchSectors _ _ _ (State.memoryOk_putBytes bs s p h))

theorem State.memoryOk_writeAcc (s : State) (k : Nat) (a : Acc) (bs : List Byte) (c : BitVec 4) (h : s.memoryOk) :
    (s.writeAcc k a bs c).memoryOk := by
  unfold State.writeAcc
  split
  · exact h
  · split
    · exact State.memoryOk_writePlain _ _ _ _ h
    · exact h

end Sys2Proof.Machine
end

