-- ==== Sys2Proof/Laws/Memory.lean ====
section
/-! SUPPORT. The canonical form of the two memories: reset has it, and every operation that writes memory keeps it. Memory is
written by `putByte`, `putHost`, `putSlice`, `zeroRange`, `putFrame` and `renumber` and by what calls them; the other updates of
the state leave it alone. -/

namespace Sys2Proof.Machine

theorem State.memoryOk_reset : State.reset.memoryOk := ⟨rfl, rfl⟩

/-- Whatever keeps both memories keeps their form. -/
theorem State.memoryOk_of_eq {s t : State} (h : s.memoryOk) (hm : t.mem = s.mem) (hh : t.hostMem = s.hostMem) : t.memoryOk := by
  unfold State.memoryOk at *
  rw [hm, hh]
  exact h

theorem Memory.wf_foldl_set (f : Nat → Nat) (sl : Tab Byte) : ∀ m : Tab Byte, Memory.wf m = true →
    Memory.wf (sl.foldl (fun m c => Tab.set 0 m (f c.1) c.2) m) = true := by
  induction sl with
  | nil => exact fun _ h => h
  | cons c r ih => exact fun m h => ih _ (Tab.wf_set 0 m _ _ h)

/-- A slice that takes saved contents. -/
theorem State.memoryOk_putSlice (s : State) (k : Nat) (sl : Tab Byte) (h : s.memoryOk) : (s.putSlice k sl).memoryOk :=
  ⟨Memory.wf_foldl_set _ _ _ (Tab.wf_filter 0 s.mem _ h.1), h.2⟩

/-- A range that is zeroed. -/
theorem State.memoryOk_zeroRange (s : State) (p len : Nat) (h : s.memoryOk) : (s.zeroRange p len).memoryOk :=
  ⟨Tab.wf_filter 0 s.mem _ h.1, h.2⟩

/-- Memory found under another package's number. -/
theorem State.memoryOk_renumber (s : State) (p n : Nat) (h : s.memoryOk) : (s.renumber p n).memoryOk :=
  ⟨Memory.wf_foldl_set (fun k => swapKey p n (k / 2 ^ 45) * 2 ^ 45 + k % 2 ^ 45) s.mem [] (Tab.wf_nil 0), h.2⟩

/-- A context frame that is written. -/
theorem State.memoryOk_putFrame (s : State) (base : Nat) (v : Saved) (h : s.memoryOk) : (s.putFrame base v).memoryOk := by
  have head : ∀ (l : List Nat) (s : State), s.memoryOk →
      (l.foldl (fun s i => if v.frameByte i = 0 then s else s.putByte (base + i) (v.frameByte i)) s).memoryOk := by
    intro l
    induction l with
    | nil => exact fun _ h => h
    | cons i r ih =>
      intro s h
      refine ih _ ?_
      show (if v.frameByte i = 0 then s else s.putByte (base + i) (v.frameByte i)).memoryOk
      split
      · exact h
      · exact s.memoryOk_putByte _ _ h
  have tail : ∀ (l : Tab Byte) (s : State), s.memoryOk →
      (l.foldl (fun s c => s.putByte (base + 0xF0000 + c.1) c.2) s).memoryOk := by
    intro l
    induction l with
    | nil => exact fun _ h => h
    | cons c r ih => exact fun s h => ih _ (s.memoryOk_putByte _ _ h)
  exact tail _ _ (head _ _ (s.memoryOk_zeroRange _ _ h))
theorem State.memoryOk_setFrame (s : State) (d j n : Nat) (v : Saved) (h : s.memoryOk) : (s.setFrame d j n v).memoryOk :=
  State.memoryOk_putFrame _ _ _ h

@[simp] theorem State.memoryOk_setTile (s : State) (k : Nat) (t : Tile) : (s.setTile k t).memoryOk ↔ s.memoryOk := Iff.rfl
@[simp] theorem State.memoryOk_modTile (s : State) (k : Nat) (f : Tile → Tile) : (s.modTile k f).memoryOk ↔ s.memoryOk := Iff.rfl
@[simp] theorem State.memoryOk_setDie (s : State) (d : Nat) (x : Die) : (s.setDie d x).memoryOk ↔ s.memoryOk := Iff.rfl
@[simp] theorem State.memoryOk_modDie (s : State) (d : Nat) (f : Die → Die) : (s.modDie d f).memoryOk ↔ s.memoryOk := Iff.rfl
@[simp] theorem State.memoryOk_setPkg (s : State) (p : Nat) (x : Pkg) : (s.setPkg p x).memoryOk ↔ s.memoryOk := Iff.rfl
@[simp] theorem State.memoryOk_modPkg (s : State) (p : Nat) (f : Pkg → Pkg) : (s.modPkg p f).memoryOk ↔ s.memoryOk := Iff.rfl
@[simp] theorem State.memoryOk_setJob (s : State) (j : Nat) (x : Job) : (s.setJob j x).memoryOk ↔ s.memoryOk := Iff.rfl

/-- A word of the control thread that touches only its own tile keeps the form. -/
theorem State.memoryOk_onlyTile {s t : State} (h : OnlyTile s t) (hs : s.memoryOk) : t.memoryOk := by
  rw [h.1]
  exact hs

/-! ## Reads after writes -/

/-- A word written in memory order reads back. -/
theorem State.bytes_writePlain (s : State) (p : Nat) (bs : List Byte) (c : BitVec 4) : (s.writePlain p bs c).bytes p bs.length = bs := by
  unfold State.bytes
  apply List.ext_getElem
  · simp
  · intro i h1 h2
    have hi : i < bs.length := by simpa using h1
    simp only [List.getElem_map, List.getElem_range, State.byte_writePlain]
    rw [if_pos ⟨by omega, by omega⟩]
    simp [List.getD_eq_getElem?_getD, hi]

/-- Bytes that no written byte overlaps read as before. -/
theorem State.bytes_writePlain_apart (s : State) (p q n : Nat) (bs : List Byte) (c : BitVec 4)
    (h : q + n ≤ p ∨ p + bs.length ≤ q) : (s.writePlain p bs c).bytes q n = s.bytes q n := by
  unfold State.bytes
  apply List.map_congr_left
  intro i hi
  have : i < n := List.mem_range.1 hi
  rw [State.byte_writePlain, if_neg (by omega)]

end Sys2Proof.Machine
end

