-- ==== Sys2Proof/Laws/Access.lean ====
section
/-! SUPPORT. Loads and fetches of the control thread whose bytes lie in memory of the tile's own die. -/

namespace Sys2Proof.Machine

/-- Bytes in memory of the own die are here. -/
theorem State.at_here (s : State) (d p len q : Nat) (h : s.place d p len = .mem q) (hd : plainDie p = d) : s.at d p len = .here := by
  simp [State.at, h, hd]

/-- Where every byte is a pending store's own, what memory holds does not matter (R180). -/
theorem Tile.forward_all (t : Tile) (ea : W64) (bs cs : List Byte) (hl : bs.length = cs.length)
    (h : t.allForwarded ea bs.length = true) : t.forward ea bs = t.forward ea cs := by
  unfold Tile.forward
  apply List.ext_getElem
  · simp [hl]
  · intro i h1 h2
    simp only [List.getElem_mapIdx]
    have hi : i < bs.length := by simpa using h1
    have := List.all_eq_true.1 h i (by simpa using hi)
    obtain ⟨b, hb⟩ := Option.isSome_iff_exists.1 this
    simp [hb]

/-- A checked, aligned load on the own die ends with the value that the CT sees, where no MARK holds it back. -/
theorem State.load_here (s : State) (ea : W64) (len q : Nat) (sink : Sink) (fin : State → Nat → Out) (a : Acc)
    (ha : ea.toNat % len = 0) (hc : s.check s.focus ea len .r true false (if len < 4 then .misaligned else .performed) = .ok a)
    (hf : a.fallow = false) (hm : s.cur.marked a.plain = false)
    (hd : plainDie a.plain = tileDie s.focus) (hp : s.place (tileDie s.focus) a.plain len = .mem q)
    (hb : s.badSector q len = none) : s.load ea len sink fin = fin s (leNat (s.cur.forward ea (s.bytes q len))) := by
  unfold State.load
  simp only [ha, ne_eq, not_true_eq_false, if_false, hc, hf, Bool.false_eq_true, s.at_here _ _ _ _ hp hd, hm, Bool.false_and]
  simp only [State.readHere, hf, Bool.false_eq_true, if_false, State.resolve, hp]
  by_cases hall : s.cur.allForwarded ea len = true
  · simp only [hall, if_true]
    rw [Tile.forward_all s.cur ea _ (s.bytes q len) (by simp [State.bytes]) (by simpa using hall)]
  · simp only [hall, if_false, Bool.false_eq_true, hb, Option.isSome_none, State.readAcc, hf, hp]

/-- An aligned word of a page that may be executed, and that the fetch buffer has not taken, is fetched as it stands in
memory. -/
theorem State.fetchWord_here (s : State) (k : Nat) (va : W64) (q : Nat) (a : Acc) (hn : (s.tile k).fbuf = []) (ha : va.toNat % 4 = 0)
    (hc : s.check k va 4 .x = .ok a) (hr : s.resolve (tileDie k) a.plain 4 = some q) (hb : s.badSector q 4 = none) :
    s.fetchWord k va = .ok (BitVec.ofNat 32 (leNat (s.bytes q 4))) := by
  simp [State.fetchWord, State.codeWord, hn, ha, hc, hr, hb]

/-- A tile that runs, with nothing to take first, runs the word it fetches. -/
theorem State.ctTurn_run (s : State) (k : Nat) (w : W32) (i : Instr) (hs : (s.tile k).status = .running)
    (hw : ∀ x, (s.tile k).wait = some x → x.parked = false) (ht : (s.tile k).stallUntil ≤ s.dcc (tileDie k))
    (hc : ((s.tile k).pfx.isNone && s.cancelNow k) = false)
    (hr : (if ((s.tile k).pfx.isNone && !(s.tile k).inh) = true then (s.tile k).reports.find? fun r => r.leg else none) = none)
    (hj : (s.tile k).journal.length < Config.journalSize) (hf : s.fetchWord k (s.tile k).pc = .ok w)
    (hp : clauseRem (s.tile k).clause = 0 ∨ clausePv (s.tile k).clause = true) (hd : decodeCt w = .ok i)
    (hb : ((s.tile k).pfx.isSome && !takesPfx i || 0 < clauseRem (s.tile k).clause && neverGoverned i
      || 1 < clauseRem (s.tile k).clause && lastGoverned i) = false) :
    s.fetch k = .run (refineBufph (s.tile k) i) { s.setTile k { s.tile k with word := w } with focus := k } := by
  have h1 : (s.tile k).isRunning = true := by simp [Tile.isRunning, hs]
  have h2 : ¬ (s.dcc (tileDie k) < (s.tile k).stallUntil) := by omega
  have h3 : ¬ ((s.tile k).journal.length ≥ Config.journalSize) := by omega
  have h4 : ¬ (0 < clauseRem (s.tile k).clause ∧ (!clausePv (s.tile k).clause) = true) := by rcases hp with h | h <;> simp [h]
  unfold State.fetch
  rcases hx : (s.tile k).wait with _ | x
  · simp only [hx, h1, h2, Bool.not_true, decide_false, Bool.or_self, Bool.false_eq_true, if_false, hc, hr, h3, hf, h4, hd, hb]
  · simp only [hx, h1, h2, hw x hx, Bool.not_true, decide_false, Bool.or_self, Bool.false_eq_true, if_false, hc, hr, h3, hf, h4, hd, hb]

end Sys2Proof.Machine
end

