-- ==== Sys2Proof/Laws/Home.lean ====
section
/-! SUPPORT. Requests whose home is the requester's own die: what asking, and the answer's delivery, come to. -/

namespace Sys2Proof.Machine

/-- A home on the own die that answers does so in the same step. -/
theorem State.ask_done (s : State) (k : Nat) (op : HomeOp) (sink : Sink) (addr : W64) (logged : Bool) (opc : Nat)
    (on : Nat → WaitOn) (bound : Option Nat) {u : State} {a : Answer} (hl : tileDie k ∉ (s.die (tileDie k)).unreachable)
    (h : s.atHome s.nextId (s.ownRequest k op sink addr opc) = (u, .done a)) :
    s.ask k (tileDie k) op sink addr logged opc on bound
      = (u.afterOp op).deliver k (s.ownRequest k op sink addr opc) a := by
  unfold State.ask State.askWith
  rw [if_neg hl, if_pos rfl]
  simp only [h]

/-- A home on the own die that keeps the request: the word waits, on room where the request is one that can want it. -/
theorem State.ask_kept (s : State) (k : Nat) (op : HomeOp) (sink : Sink) (addr : W64) (logged : Bool) (opc : Nat)
    (on : Nat → WaitOn) (bound : Option Nat) {u : State} {tell : Option Nat} (hl : tileDie k ∉ (s.die (tileDie k)).unreachable)
    (h : s.atHome s.nextId (s.ownRequest k op sink addr opc) = (u, .keep [] tell)) :
    s.ask k (tileDie k) op sink addr logged opc on bound
      = (({ u with nextId := max u.nextId (s.nextId + 1) } : State).keepReq s.nextId (s.ownRequest k op sink addr opc) [] tell
        |> fun v => v.stall k ((s.ownRequest k op sink addr opc).roomWait.getD (on s.nextId))
          (if (s.ownRequest k op sink addr opc).roomWait.isSome then some (capIssue (v.tile k).waitCap) else bound) true) := by
  unfold State.ask State.askWith
  rw [if_neg hl, if_pos rfl]
  simp only [h]
  rfl

/-- An answer ends the word, unless it is the value of a JOIN's counter. -/
theorem State.deliver_end (s : State) (k : Nat) (r : Request) (a : Answer) (h : ∀ d cr, r.sink ≠ .joinCount d cr) :
    s.deliver k r a = s.endWord k r a := by
  unfold State.deliver
  split
  · next d cr _ _ hs => exact absurd hs (h d cr)
  · rfl

@[simp] theorem flagTrap_zero (fpc : W64) : flagTrap fpc 0 = none := by simp [flagTrap]

/-- A value for g[d] ends the word of a running tile. -/
theorem State.deliver_g (s : State) (k d size : Nat) (sign : Bool) (r : Request) (v : W64) (fl : Nat) (hs : r.sink = .g d size sign)
    (h : (s.tile k).status = .running) (ht : flagTrap (s.tile k).fpc fl = none) :
    s.deliver k r (.value v fl) = s.setTile k (((s.tile k).writeG d
      (if sign then BitVec.ofInt 64 (sextN (v.toNat % 2 ^ (8 * size)) (8 * size)) else BitVec.ofNat 64 (v.toNat % 2 ^ (8 * size))) fl).retire
        (s.dcc (tileDie k))) := by
  rw [s.deliver_end k r _ (by simp [hs])]
  unfold State.endWord
  simp only [ht, hs]
  rw [State.finishWord_running _ _ _ _ h]
  · rfl
  · simp [Tile.writeG, h]

/-- A value for f[d] ends the word of a running tile. -/
theorem State.deliver_f (s : State) (k d : Nat) (r : Request) (v : W64) (fl : Nat) (hs : r.sink = .f d none)
    (h : (s.tile k).status = .running) (ht : flagTrap (s.tile k).fpc fl = none) :
    s.deliver k r (.value v fl) = s.setTile k (((s.tile k).writeF d
      { val := v.setWidth 32, cnt := storeCount (v.setWidth 32) 24 } fl).retire (s.dcc (tileDie k))) := by
  rw [s.deliver_end k r _ (by simp [hs])]
  unfold State.endWord
  simp only [ht, hs]
  rw [State.finishWord_running _ _ _ _ h]
  simp [Tile.writeF, h]

/-- An answer that the word only waits for ends it. -/
theorem State.deliver_none (s : State) (k : Nat) (r : Request) (v : W64) (hs : r.sink = .discardValue)
    (h : (s.tile k).status = .running) : s.deliver k r (.value v 0) = s.setTile k ((s.tile k).retire (s.dcc (tileDie k))) := by
  rw [s.deliver_end k r _ (by simp [hs])]
  unfold State.endWord
  simp only [flagTrap_zero, hs]
  rw [State.finishWord_running _ _ _ (by simpa using h) h]
  simp

/-- Nothing is kept at any home for a handle: its end answers no one. -/
theorem State.serveSeq_none (s : State) (h : W64) (hn : ∀ p ∈ s.reqs, p.2.op.handle? ≠ some h) : s.serveSeq h = s := by
  unfold State.serveSeq
  have : (s.reqs.filter fun p => p.2.kept && p.2.acks.isEmpty && p.2.answer.isNone && decide (p.2.op.handle? = some h)) = [] := by
    rw [List.filter_eq_nil_iff]
    intro p hp
    simp [hn p hp]
  rw [this]
  rfl

end Sys2Proof.Machine
end

