-- ==== Sys2Proof/Laws/Words.lean ====
section
/-! SUPPORT. Fields of a word made from a number: how a field is read back from the sum that an encoder writes. -/

namespace Sys2Proof

/-- The field of k bits at s of a word that holds n: the one whose value stands at that place in n. -/
theorem ext_ofNat (n s : Nat) {k : Nat} (v : BitVec k) (hs : n < 2 ^ 32) (h : n / 2 ^ s % 2 ^ k = v.toNat) :
    (BitVec.ofNat 32 n).extractLsb' s k = v := by
  apply BitVec.eq_of_toNat_eq
  rw [BitVec.extractLsb'_toNat, BitVec.toNat_ofNat, Nat.mod_eq_of_lt hs, Nat.shiftRight_eq_div_pow]
  exact h

/-- A decoder accepts only
well-formed instructions. -/
theorem decodeCt_wellFormed (w : W32) (i : Instr) (h : decodeCt w = .ok i) : wellFormed i = true := by
  unfold decodeCt at h
  split at h
  · cases h
  · split at h
    · next hw => cases h; exact hw
    · cases h

theorem decodeVs_wellFormed (w : W32) (i : Instr) (h : decodeVs w = .ok i) : wellFormed i = true := by
  unfold decodeVs at h
  split at h
  · cases h
  · split at h
    · next hw => cases h; exact hw
    · cases h

end Sys2Proof
end

