-- ==== Sys2Proof/Laws/Work.lean ====
section
/-! SUPPORT. What registering a unit leaves: queueing a record moves no unit and closes no level. -/

namespace Sys2Proof.Machine

/-- The tile in focus, the jobs, the level tables and what each tile is doing are as before. -/
def SameWork (s t : State) : Prop :=
  t.focus = s.focus ∧ t.jobs = s.jobs ∧ (∀ h, (t.die h).levels = (s.die h).levels) ∧ ∀ k, (t.tile k).status = (s.tile k).status

theorem SameWork.rfl {s : State} : SameWork s s := ⟨by rfl, by rfl, fun _ => by rfl, fun _ => by rfl⟩
theorem SameWork.trans {s t u : State} (h : SameWork s t) (g : SameWork t u) : SameWork s u :=
  ⟨g.1.trans h.1, g.2.1.trans h.2.1, fun d => (g.2.2.1 d).trans (h.2.2.1 d), fun k => (g.2.2.2 k).trans (h.2.2.2 k)⟩

theorem State.preemptFor_same (s : State) (d : Nat) (r : Rec) : SameWork s (s.preemptFor d r) := by
  have h : ∀ (l : List Nat) (s : State), SameWork s (l.foldl (fun s k => s.modTile k fun t => { t with preemptAt := some (s.ptc d) }) s) := by
    intro l
    induction l with
    | nil => exact fun s => .rfl
    | cons k l ih =>
      intro s
      refine SameWork.trans ⟨by rfl, by rfl, fun _ => by rfl, fun j => ?_⟩ (ih _)
      rw [State.tile_modTile]
      split
      · next h => rw [h]
      · rfl
  unfold State.preemptFor
  split
  · exact .rfl
  · exact h _ s

/-- A change of a die that keeps its level table. -/
theorem State.modDie_same (s : State) (d : Nat) (f : Die → Die) (h : (f (s.die d)).levels = (s.die d).levels) :
    SameWork s (s.modDie d f) := by
  refine ⟨by rfl, by rfl, fun e => ?_, fun _ => by rfl⟩
  unfold State.modDie
  rw [State.die_setDie]
  split
  · next he => rw [he]; exact h
  · rfl

theorem State.enqueue_same (s : State) (d : Nat) (e : Entry) (b : Bool) : SameWork s (s.enqueue d e b) := by
  unfold State.enqueue
  exact (s.modDie_same d _ (by rfl)).trans (State.preemptFor_same _ _ _)

/-! ## The launch that one unit opens -/

theorem homeDie_of_jobs {s t : State} (h : t.jobs = s.jobs) (j : Nat) : t.homeDie j = s.homeDie j := by
  simp [State.homeDie, State.job, h]

/-- State-wise what counts here: same focus, jobs and tiles, and the level table of the home die as given. -/
def Lv (s t : State) (j : Nat) (l : List LevelEntry) : Prop :=
  t.focus = s.focus ∧ t.jobs = s.jobs ∧ (∀ k, (t.tile k).status = (s.tile k).status) ∧ (t.die (s.homeDie j)).levels = l

theorem Lv.modLevel {s t : State} {j : Nat} {l : List LevelEntry} (h : Lv s t j l) (lv id : Nat) (f : LevelEntry → LevelEntry) :
    Lv s (t.modLevel j lv id f) j (l.map fun e => if e.job = j && e.level = lv && e.id = id then f e else e) := by
  obtain ⟨h1, h2, h3, h4⟩ := h
  refine ⟨h1, h2, h3, ?_⟩
  unfold State.modLevel
  rw [homeDie_of_jobs h2, State.die_modDie_self, h4]

theorem Lv.findLevel {s t : State} {j : Nat} {l : List LevelEntry} (h : Lv s t j l) (lv id : Nat) :
    t.findLevel j lv id = l.find? fun e => e.job = j && e.level = lv && e.id = id := by
  unfold State.findLevel
  rw [homeDie_of_jobs h.2.1, h.2.2.2]

theorem Lv.same {s t u : State} {j : Nat} {l : List LevelEntry} (h : Lv s t j l) (g : SameWork t u) : Lv s u j l :=
  ⟨g.1.trans h.1, g.2.1.trans h.2.1, fun k => (g.2.2.2 k).trans (h.2.2.1 k), (g.2.2.1 _).trans h.2.2.2⟩

theorem Lv.add {s t : State} {j : Nat} {l : List LevelEntry} (h : Lv s t j l) (e : LevelEntry) :
    Lv s (t.modDie (t.homeDie j) fun x => { x with levels := x.levels ++ [e] }) j (l ++ [e]) := by
  obtain ⟨h1, h2, h3, h4⟩ := h
  refine ⟨h1, h2, h3, ?_⟩
  rw [homeDie_of_jobs h2, State.die_modDie_self, h4]

theorem openLevel_fresh (s : State) (r : Rec) (id : Nat) (hl : (s.die (s.homeDie r.job)).levels = []) (hg : r.graph = 0) (hp : r.phase = 0) :
    Lv s (openLevel s r 5 1 id) r.job
      [{ job := r.job, level := 4, id := r.job, count := 1 }, { job := r.job, level := 1, id := id, parent := some (4, r.job) }] := by
  have h0 : Lv s s r.job [] := ⟨rfl, rfl, fun _ => rfl, hl⟩
  have e1 : parentOf r 1 = some (4, r.job) := by simp [parentOf, hg, hp]
  have e4 : parentOf r 4 = none := rfl
  have h4 : openLevel s r 4 4 r.job = s.modDie (s.homeDie r.job) fun x => { x with levels := x.levels ++ [{ job := r.job, level := 4, id := r.job, parent := none }] } := by
    unfold openLevel
    rw [h0.findLevel]
    rfl
  unfold openLevel
  rw [h0.findLevel]
  simp only [List.find?_nil, e1, h4]
  have := ((h0.add { job := r.job, level := 4, id := r.job, parent := none }).modLevel 4 r.job fun e => { e with count := e.count + 1 }).add
    { job := r.job, level := 1, id := id, parent := some (4, r.job) }
  simpa using this

/-- A unit registered in the one launch that is open is counted there. -/
theorem State.registerUnit_lv {s t v : State} {r : Rec} {id pkg i : Nat} {reg : Option Nat} (h1 : Lv s t r.job
      [{ job := r.job, level := 4, id := r.job, count := 1 }, { job := r.job, level := 1, id := id, parent := some (4, r.job) }])
    (h : t.registerUnit pkg reg r id i = some v) : Lv s v r.job
      [{ job := r.job, level := 4, id := r.job, count := 1 }, { job := r.job, level := 1, id := id, parent := some (4, r.job), count := 1 }] := by
  unfold State.registerUnit State.placeUnit at h
  cases hd : t.placeDie pkg reg r with
  | none =>
    have ha : ancestorCancelled t r.job 5 1 id = false := by
      unfold ancestorCancelled
      rw [h1.findLevel]
      simp
      unfold ancestorCancelled
      rw [h1.findLevel]
      simp
    simp [hd, ha] at h
  | some d =>
    simp only [hd] at h
    generalize pickFree (t.jobDie d r.job).unitsUsed Config.unitIds t.fresh = u at h
    have h2 : Lv s (t.bump.modJobDie d r.job fun x => { x with unitsUsed := u :: x.unitsUsed }) r.job _ :=
      (Lv.same h1 ⟨rfl, rfl, fun _ => rfl, fun _ => rfl⟩ : Lv s t.bump r.job _).same (State.modDie_same _ _ _ rfl)
    have h3 := h2.modLevel 1 id fun e => { e with count := e.count + 1 }
    generalize (t.bump.modJobDie d r.job fun x => { x with unitsUsed := u :: x.unitsUsed }).modLevel r.job 1 id (fun e => { e with count := e.count + 1 }) = w at h h3
    simp at h3
    have ha : ancestorCancelled w r.job 5 1 id = false := by
      unfold ancestorCancelled
      rw [h3.findLevel]
      simp
      unfold ancestorCancelled
      rw [h3.findLevel]
      simp
    simp only [ha, Bool.false_eq_true, if_false] at h
    split at h
    · simp at h
    · simp only [Option.some.injEq] at h
      subst h
      exact h3.same (State.enqueue_same _ _ _ _)

/-- A unit is registered where a die of the record has a free unit id and room in its queue. -/
theorem State.registerUnit_some {s : State} {pkg d : Nat} {reg : Option Nat} {r : Rec} (launch i : Nat) (h : s.placeDie pkg reg r = some d)
    (hq : s.queueFull d r.prio = false) : (s.registerUnit pkg reg r launch i).isSome = true := by
  unfold State.registerUnit State.placeUnit
  simp only [h, hq]
  split <;> rfl

/-- One unit of a record is spawned where the level table has room for its launch, and a die for it. -/
theorem State.spawn_some {s : State} {reg d : Nat} {r : Rec} (hl : s.levelRoom r = true)
    (h : (openLevel s.bump r 5 1 (s.newLaunch r.job)).placeDie (diePkg reg) (some reg) r = some d)
    (hq : (openLevel s.bump r 5 1 (s.newLaunch r.job)).queueFull d r.prio = false) : (s.spawn reg r 1).isSome = true := by
  have hu := State.registerUnit_some (s.newLaunch r.job) 0 h hq
  unfold State.spawn registerAll registerAll
  simp only [hl]
  cases hv : (openLevel s.bump r 5 1 (s.newLaunch r.job)).registerUnit (diePkg reg) (some reg) r (s.newLaunch r.job) 0 with
  | none => rw [hv] at hu; cases hu
  | some v => rfl

/-- With no level open, registering one unit leaves the tile in focus and what every tile is doing. -/
theorem State.spawn_fresh {s u : State} {reg l : Nat} {r : Rec} (hl : (s.die (s.homeDie r.job)).levels = []) (hg : r.graph = 0)
    (hp : r.phase = 0) (h : s.spawn reg r 1 = some (u, l)) : u.focus = s.focus ∧ ∀ j, (u.tile j).status = (s.tile j).status := by
  have h1 := openLevel_fresh s.bump r (s.newLaunch r.job) hl hg hp
  unfold State.spawn at h
  simp only at h
  split at h
  · simp at h
  · unfold registerAll registerAll at h
    split at h
    · next v hv =>
      simp only [Option.map_some, Option.some.injEq, Prod.mk.injEq] at h
      have h4 := (State.registerUnit_lv h1 hv).modLevel 1 (s.newLaunch r.job) fun e => { e with closed := true }
      simp at h4
      obtain ⟨h, -⟩ := h
      subst h
      unfold State.closeLaunch levelCheck
      rw [h4.findLevel]
      simp
      exact ⟨h4.1, h4.2.2.1⟩
    · simp at h

end Sys2Proof.Machine
end

