-- ==== Sys2Proof/Machine/Clo.lean ====
section
/-! DEFINITION. How a program comes into memory (04_formats_assembly.md, R105, R106, R108 to R116): the assembler's
splitting of immediates and its layout of words, and the loader's reading of a `.clo` container. The device itself parses
no container (R116), and no step of the machine calls this file; it is what stands between a program's source words and
the memory that the machine fetches from (log 69). -/

namespace Sys2Proof.Machine

/-! ## Immediates and layout (R106) -/

/-- The value `v` fits `n` bits in two's complement. -/
def fitsSigned (n : Nat) (v : Int) : Bool := decide (-(2 ^ (n - 1) : Nat) ≤ v ∧ v < (2 ^ (n - 1) : Nat))

/-- The value fits `n` bits as the entry of its instruction reads them: unsigned where it says so, else in two's complement
(R83). -/
def fits (u : Bool) (n : Nat) (v : Int) : Bool := if u then decide (0 ≤ v ∧ v < (2 ^ n : Nat)) else fitsSigned n v

/-- The word of a PFX. -/
def pfxWord (hi : BitVec 25) : W32 := BitVec.ofNat 32 (0x3E000000 + hi.toNat)

/-- How an immediate is written for an own field of `w` bits: the PFX's bits where it does not fit as R83 reads it, and the
own field; none where it does not fit even the widened field (R84, R106). -/
def splitImm (u : Bool) (w : Nat) (v : Int) : Option (Option (BitVec 25) × Nat) :=
  let own := (BitVec.ofInt 64 v).toNat % 2 ^ w
  if fits u w v then some (none, own)
  else if fits u (w + 25) v then some (some (BitVec.ofNat 25 ((BitVec.ofInt 64 v).toNat / 2 ^ w)), own)
  else none

/-- What the layout has yet to put into a source instruction's word. -/
inductive AsmImm where
  | none
  /-- an immediate, displacement or offset of `w` bits, in units of its field, at bit `at0`; `u` where its entry reads it as
  unsigned (R83) -/
  | value (w at0 : Nat) (v : Int) (u : Bool := false)
  /-- a branch of `w` offset bits to source instruction `n` -/
  | label (w at0 n : Nat)
  /-- a GRD over the next `n` source instructions; its count field is [20:18] -/
  | guard (n : Nat)
  deriving DecidableEq, Repr

/-- A source instruction: its word with that field zero, and the field. -/
structure AsmItem where
  word : W32
  imm : AsmImm := .none
  deriving DecidableEq, Repr

/-- The word index of source instruction `n`, where `ps` says which instructions have a PFX. -/
def asmIndex (ps : List Bool) (n : Nat) : Nat := ((ps.take n).map fun p => if p then 2 else 1).foldl (· + ·) 0
/-- The immediate of instruction `i`: a branch counts words from the branch word, after its PFX (R106). -/
def asmValue (ps : List Bool) (i : Nat) : AsmImm → Option (Nat × Nat × Int × Bool)
  | .none => .none
  | .value w a v u => some (w, a, v, u)
  | .label w a n => some (w, a, asmIndex ps n - (asmIndex ps i + if ps.getD i false then 1 else 0), false)
  | .guard n => some (64, 18, asmIndex ps (i + 1 + n) - asmIndex ps (i + 1) - 1, false)

/-- One round of the layout: an instruction whose immediate does not fit takes a PFX, and keeps it. -/
def asmRound (is : List AsmItem) (ps : List Bool) : List Bool :=
  is.zipIdx.map fun (x, i) => ps.getD i false || (match asmValue ps i x.imm with
    | some (w, _, v, u) => !fits u w v
    | none => false)
/-- The layout after rounds in which no more offset changes: each round but the last gives some instruction a PFX. -/
def asmLayout (is : List AsmItem) : Nat → List Bool → List Bool
  | 0, ps => ps
  | n + 1, ps => asmLayout is n (asmRound is ps)

/-- The words of one source instruction, or an error: an immediate that fits no form, and a GRD whose instructions come to
more than 8 words or to none (R105, R106). -/
def asmWords (ps : List Bool) (i : Nat) (x : AsmItem) : Option (List W32) :=
  match x.imm, asmValue ps i x.imm with
  | .guard n, some (_, a, v, _) => if 1 ≤ n ∧ 0 ≤ v ∧ v < 8 then some [x.word ||| BitVec.ofNat 32 (v.toNat * 2 ^ a)] else none
  | _, some (w, a, v, u) => do
      let (hi, own) ← splitImm u w v
      -- an immediate that came to fit after a later round keeps its PFX
      let hi := if ps.getD i false then some (hi.getD (BitVec.ofNat 25 ((BitVec.ofInt 64 v).toNat / 2 ^ w))) else hi
      some ((hi.map pfxWord).toList ++ [x.word ||| BitVec.ofNat 32 (own * 2 ^ a)])
  | _, none => some [x.word]

/-- The words of a kernel (R106). -/
def assemble (is : List AsmItem) : Option (List W32) := do
  let ps := asmLayout is is.length (is.map fun _ => false)
  let ws ← is.zipIdx.mapM fun (x, i) => asmWords ps i x
  some ws.flatten

/-- The wait bound of VPOP and VWAIT, from cycles (R105, R387); none above 65,280. -/
def waitBound (cycles : Nat) : Option (BitVec 8) := if cycles ≤ 65280 then some (BitVec.ofNat 8 ((cycles + 255) / 256)) else none

/-- A declared token: its number and its initial count. -/
structure AsmToken where
  id : Nat
  init : Nat
  deriving DecidableEq, Repr
/-- The token of the list's least number, and the rest. -/
def asmTokenInsert (x : AsmToken) : List AsmToken → List AsmToken
  | [] => [x]
  | y :: ys => if x.id ≤ y.id then x :: y :: ys else y :: asmTokenInsert x ys
/-- The TOKSIG words at a kernel's entry, in id order; none for a bad or repeated number, or an init above 0xFFFF
(R108). -/
def tokenPrologue (ts : List AsmToken) : Option (List AsmItem) :=
  let ts := ts.foldr asmTokenInsert []
  if ts.any (fun t => 63 < t.id ∨ 0xFFFF < t.init) ∨ !(ts.map (·.id)).Nodup then none
  else some ((ts.filter fun t => t.init ≠ 0).map fun t =>
    { word := BitVec.ofNat 32 (0x8E000000 + t.id * 0x80000), imm := .value 13 0 t.init true })

/-! ## The container (R109 to R116) -/

def crcByte (c : W32) (b : Byte) : W32 := crcBits 8 (c ^^^ b.setWidth 32)
/-- The CRC-32C of bytes. -/
def crc32c (bs : List Byte) : Nat := (~~~(bs.foldl crcByte 0xFFFFFFFF#32)).toNat

/-- Why a loader refuses a file (R116). -/
inductive CloErr where
  /-- the file ends before its header, its section table or a section does, or a count or a kind is outside its list -/
  | shape
  | magic
  | version
  | part
  /-- HCRC or an SCRC fails -/
  | crc
  /-- a reserved field is nonzero -/
  | reserved
  /-- a kind appears twice -/
  | twice
  | relocation
  /-- an address given for a section does not have its alignment (R110) -/
  | align
  deriving DecidableEq, Repr

/-- An entry of the section table (R110). -/
structure CloSect where
  kind : Nat
  align : Nat
  entSize : Nat
  crc : Nat
  bytes : List Byte
  deriving DecidableEq, Repr

/-- An entry of RELO (R114). -/
structure CloRelo where
  offset : Nat
  sym : Nat
  type : Nat
  sect : Nat
  deriving DecidableEq, Repr

/-- An entry of SYMS (R115). -/
structure CloSym where
  value : Nat
  kind : Nat
  sect : Nat
  deriving DecidableEq, Repr

/-- The entry size of a kind of section (R111). -/
def cloEntSize : Nat → Nat
  | 2 | 5 => 64
  | 3 => 8
  | 4 | 9 => 24
  | 8 => 16
  | _ => 0

def allZero (bs : List Byte) (off len : Nat) : Bool := bytesAt bs off len == 0

/-- The `n`th entry of the section table that stands at `off`. -/
def cloSect (f : List Byte) (off n : Nat) : Except CloErr CloSect :=
  let e := off + 32 * n
  let o := bytesAt f (e + 8) 8
  let z := bytesAt f (e + 16) 8
  if f.length < e + 32 ∨ f.length < o + z ∨ 9 < bytesAt f e 4 ∨ bytesAt f (e + 24) 4 ≠ cloEntSize (bytesAt f e 4) then .error .shape
  else .ok { kind := bytesAt f e 4, align := bytesAt f (e + 4) 4, entSize := bytesAt f (e + 24) 4, crc := bytesAt f (e + 28) 4
             bytes := (f.drop o).take z }

/-- The reserved fields of a section's entries are zero (R112 to R115). -/
def CloSect.reservedZero (c : CloSect) : Bool :=
  let n := c.bytes.length
  match c.kind with
  | 3 => (List.range (n / 8)).all fun i => allZero c.bytes (8 * i + 3) 1
  | 4 => (List.range (n / 24)).all fun i => allZero c.bytes (24 * i + 0x16) 2
  | 8 => (List.range (n / 16)).all fun i => allZero c.bytes (16 * i + 0xE) 2
  | 9 => (List.range (bytesAt c.bytes 0 8)).all fun i => allZero c.bytes (8 + 24 * i + 0xE) 2
  | _ => true

/-- The sections of a file whose header and checks hold (R109, R110, R116). -/
def cloSections (f : List Byte) : Except CloErr (List CloSect) := do
  if f.length < 64 then .error .shape
  if bytesAt f 0 4 ≠ 0x004F4C43 then .error .magic
  if bytesAt f 4 2 ≠ 1 then .error .version
  if bytesAt f 8 4 ≠ 0x0008 then .error .part
  if bytesAt f 0x18 4 ≠ crc32c (f.take 0x18 ++ [0, 0, 0, 0] ++ (f.drop 0x1C).take 36) then .error .crc
  if bytesAt f 0xC 4 / 4 ≠ 0 ∨ !allZero f 0x1C 36 then .error .reserved
  let n := bytesAt f 6 2
  let off := bytesAt f 0x10 8
  if n = 0 ∨ 10 < n ∨ off % 8 ≠ 0 then .error .shape
  let cs ← (List.range n).mapM (cloSect f off)
  if cs.any fun c => c.crc ≠ crc32c c.bytes then .error .crc
  if !(cs.map (·.kind)).Nodup then .error .twice
  if !cs.all CloSect.reservedZero then .error .reserved
  return cs

/-- The contents of the section of a kind. -/
def cloBytes (cs : List CloSect) (kind : Nat) : List Byte := ((cs.find? (·.kind == kind)).map (·.bytes)).getD []

def cloSym (cs : List CloSect) (n : Nat) : Option CloSym :=
  let bs := cloBytes cs 9
  let e := 8 + 24 * n
  if n < bytesAt bs 0 8 ∧ e + 24 ≤ bs.length then
    some { value := bytesAt bs e 8, kind := bytesAt bs (e + 0xC) 1, sect := bytesAt bs (e + 0xD) 1 }
  else none
def cloRelos (cs : List CloSect) : List CloRelo :=
  let bs := cloBytes cs 8
  (List.range (bs.length / 16)).map fun i =>
    { offset := bytesAt bs (16 * i) 8, sym := bytesAt bs (16 * i + 8) 4, type := bytesAt bs (16 * i + 0xC) 1, sect := bytesAt bs (16 * i + 0xD) 1 }

/-- The value of a symbol: a table's step or a token's number as they are, and else an address (R115). `va` gives where each
kind of section stands. -/
def CloSym.at0 (y : CloSym) (va : Nat → Nat) : Nat := if y.kind = 2 ∨ y.kind = 4 then y.value else va y.sect + y.value

/-- `bs` with the bytes at `off` replaced. -/
def patchBytes (bs : List Byte) (off : Nat) (new : List Byte) : List Byte := bs.take off ++ new ++ bs.drop (off + new.length)

/-- A PFX at `off` and the word after it take the value `v`, whose own field has `w` bits (R114 types 2 and 3). -/
def patchPair (bs : List Byte) (off w v : Nat) : Option (List Byte) :=
  let p := bytesAt bs off 4
  let x := bytesAt bs (off + 4) 4
  let s := (BitVec.ofNat 64 v).toInt
  if off % 4 = 0 ∧ off + 8 ≤ bs.length ∧ p / 2 ^ 25 = 0x1F ∧ fitsSigned (w + 25) s then
    some (patchBytes bs off (leBytes 4 (0x3E000000 + v / 2 ^ w % 2 ^ 25) ++ leBytes 4 (x / 2 ^ w * 2 ^ w + v % 2 ^ w)))
  else none
/-- The word at `off` takes the word offset `d` in its low `w` bits (R114 types 4 and 5). -/
def patchOffset (bs : List Byte) (off w : Nat) (d : Int) : Option (List Byte) :=
  let x := bytesAt bs off 4
  if off % 4 = 0 ∧ off + 4 ≤ bs.length ∧ d % 4 = 0 ∧ fitsSigned w (d / 4) then
    some (patchBytes bs off (leBytes 4 (x / 2 ^ w * 2 ^ w + (BitVec.ofInt 64 (d / 4)).toNat % 2 ^ w)))
  else none

/-- One relocation, applied to the sections. -/
def cloRelocate (va : Nat → Nat) (cs : List CloSect) (r : CloRelo) : Except CloErr (List CloSect) :=
  let bs := cloBytes cs r.sect
  let new : Option (List Byte) := do
    let y ← cloSym cs r.sym
    let v := y.at0 va
    let d : Int := v - (va r.sect + r.offset)
    match r.type with
    | 1 => if r.offset + 8 ≤ bs.length then some (patchBytes bs r.offset (leBytes 8 v)) else none
    | 2 => patchPair bs r.offset 13 v
    | 3 => patchPair bs r.offset 19 v
    | 4 => patchOffset bs r.offset 21 d
    | 5 => patchOffset bs r.offset 19 d
    | _ => none
  match new with
  | some b => .ok (cs.map fun c => if c.kind = r.sect then { c with bytes := b } else c)
  | none => .error .relocation

/-- The sections of a file as they are to be placed: read, checked and relocated. -/
def cloImage (f : List Byte) (va : Nat → Nat) : Except CloErr (List CloSect) := do
  let cs ← cloSections f
  (cloRelos cs).foldlM (cloRelocate va) cs

/-- The kinds of section that a loader places: CTL, VTAB, MAPS, SEGS, LAYS, PASS and DATA. -/
def cloPlaced (kind : Nat) : Bool := kind ∈ [0, 1, 2, 4, 5, 6, 7]

/-- A loader: the sections of a file go to the plain addresses that `plain` gives, relocated for the virtual addresses that
`va` gives; a file that is refused places nothing (R116). -/
def State.loadClo (s : State) (f : List Byte) (plain va : Nat → Nat) : Except CloErr State := do
  let cs ← cloImage f va
  if cs.any fun c => cloPlaced c.kind && (plain c.kind % 2 ^ c.align ≠ 0 || va c.kind % 2 ^ c.align ≠ 0) then .error .align
  return (cs.filter fun c => cloPlaced c.kind).foldl (fun s c => s.writePlain (plain c.kind) c.bytes) s

end Sys2Proof.Machine
end

