-- ==== Sys2Proof/Tests/Slice0.lean ====
section
/-! SUPPORT. The model's own tests: ill-formed terms, words written from the spec's encodings, and for each statement a
concrete state and operands that meet its hypotheses. -/

namespace Sys2Proof.Tests

open Sys2Proof Sys2Proof.Machine

/-! ## Ill-formed terms, one for each check of `wellFormed` -/

/-- R82: a load takes no release, ord 00 wants scope 0, a load of 8 bytes is not sign-extended into more. -/
theorem test_wf_loads : wellFormed (.ld 1 2 0 2 3 1 0) = false ∧ wellFormed (.ld 1 2 1 0 3 1 0) = false
    ∧ wellFormed (.ld 1 2 0 3 3 1 0) = false ∧ wellFormed (.ld 1 2 0 0 3 0 0) = false ∧ wellFormed (.ld 1 2 0 0 3 1 0) = true := by decide
/-- R82: a store takes no acquire. -/
theorem test_wf_stores : wellFormed (.st 1 2 0 1 3 0) = false ∧ wellFormed (.st 1 2 4 0 3 0) = false
    ∧ wellFormed (.st 1 2 4 2 3 0) = true := by decide
/-- R82, R190: an atomic has no ord 11, and its no-return form names no register and takes no acquire. -/
theorem test_wf_atomics : wellFormed (.aadd 1 2 3 0 3 0 0) = false ∧ wellFormed (.aadd 1 2 3 0 0 0 1) = false
    ∧ wellFormed (.axch 0 2 3 0 1 0 1) = false ∧ wellFormed (.amaxf 1 2 3 0 0 1) = false ∧ wellFormed (.acas 1 2 3 1 0 0) = false
    ∧ wellFormed (.aadd 0 2 3 0 2 0 1) = true := by decide
/-- R93: the conditions of BR and PSET are 0 to 5, those of FCMP 0 to 3. -/
theorem test_wf_conditions : wellFormed (.br 6 1 2 0) = false ∧ wellFormed (.pset 7 1 2 3) = false ∧ wellFormed (.fcmp 4 1 2 3) = false
    ∧ wellFormed (.br 5 1 2 0) = true := by decide
/-- R94: FCVT has kinds 0 to 11, roundings 0 to 4, and f registers below 32. -/
theorem test_wf_fcvt : wellFormed (.fcvt 1 2 12 0) = false ∧ wellFormed (.fcvt 1 2 0 5) = false ∧ wellFormed (.fcvt 32 2 0 0) = false
    ∧ wellFormed (.fcvt 1 32 2 0) = false ∧ wellFormed (.fcvt 31 63 0 4) = true := by decide
/-- R91: a gate or completion field is zero where its bit is. -/
theorem test_wf_tokens : wellFormed (.mmul 10 4 0 0 0) = false ∧ wellFormed (.cred 10 0 5 0 0) = false ∧ wellFormed (.vrun 10 4 5 1 1) = true := by
  decide
/-- R267, R302: CTLW to BUFPH is BUFPH_SWAP or BUFPH_CLOSE; CYC reads one of two counters. -/
theorem test_wf_registers : wellFormed (.ctlw 1 0x63) = false ∧ wellFormed (.cyc 1 2) = false ∧ wellFormed (.cyc 1 1) = true := by decide

/-! ## Words, written from spec/opcode_table.json -/

/-- The word is read as the instruction, and the instruction is written as the word. -/
def readsAs (dec : W32 → Except DecodeErr Instr) (w : W32) (i : Instr) : Bool := dec w = .ok i ∧ encode i = some w

/-- ILL to SHL. -/
theorem test_wordsA :
    readsAs decodeCt 0x0002B5C3#32 (.ill 177603)
    ∧ readsAs decodeCt 0x021CDB80#32 (.add 3 38 55)
    ∧ readsAs decodeCt 0x021CDB81#32 (.sub 3 38 55)
    ∧ readsAs decodeCt 0x021CDB82#32 (.mul 3 38 55)
    ∧ readsAs decodeCt 0x021CDB83#32 (.mulHi 3 38 55)
    ∧ readsAs decodeCt 0x021CDB84#32 (.mulHiN 3 38 55)
    ∧ readsAs decodeCt 0x021CDB85#32 (.div 3 38 55)
    ∧ readsAs decodeCt 0x021CDB86#32 (.divN 3 38 55)
    ∧ readsAs decodeCt 0x021CDB87#32 (.rem 3 38 55)
    ∧ readsAs decodeCt 0x021CDB88#32 (.remN 3 38 55)
    ∧ readsAs decodeCt 0x021CDB89#32 (.and 3 38 55)
    ∧ readsAs decodeCt 0x021CDB8A#32 (.or 3 38 55)
    ∧ readsAs decodeCt 0x021CDB8B#32 (.xor 3 38 55)
    ∧ readsAs decodeCt 0x021CDB8C#32 (.shl 3 38 55) := by decide

/-- SHR to ADD_SAT. -/
theorem test_wordsB :
    readsAs decodeCt 0x021CDB8D#32 (.shr 3 38 55)
    ∧ readsAs decodeCt 0x021CDB8E#32 (.sra 3 38 55)
    ∧ readsAs decodeCt 0x021CDB8F#32 (.min 3 38 55)
    ∧ readsAs decodeCt 0x021CDB90#32 (.minN 3 38 55)
    ∧ readsAs decodeCt 0x021CDB91#32 (.max 3 38 55)
    ∧ readsAs decodeCt 0x021CDB92#32 (.maxN 3 38 55)
    ∧ readsAs decodeCt 0x021CDB93#32 (.slt 3 38 55)
    ∧ readsAs decodeCt 0x021CDB94#32 (.sltN 3 38 55)
    ∧ readsAs decodeCt 0x021CC015#32 (.clz 3 38)
    ∧ readsAs decodeCt 0x021CC016#32 (.popc 3 38)
    ∧ readsAs decodeCt 0x021CC017#32 (.sextB 3 38)
    ∧ readsAs decodeCt 0x021CC018#32 (.sextH 3 38)
    ∧ readsAs decodeCt 0x021CC019#32 (.sextW 3 38)
    ∧ readsAs decodeCt 0x021CDB9A#32 (.addSat 3 38 55) := by decide

/-- SUB_SAT to FST. -/
theorem test_wordsC :
    readsAs decodeCt 0x021CDB9B#32 (.subSat 3 38 55)
    ∧ readsAs decodeCt 0x041CC937#32 (.addImm 3 38 2359)
    ∧ readsAs decodeCt 0x061ED1A6#32 (.lih 3 446886)
    ∧ readsAs decodeCt 0x0976EA80#32 (.pset 5 6 55 21)
    ∧ readsAs decodeCt 0x0A18C380#32 (.plogAnd 3 6 7)
    ∧ readsAs decodeCt 0x0A18C381#32 (.plogOr 3 6 7)
    ∧ readsAs decodeCt 0x0A18C382#32 (.plogXor 3 6 7)
    ∧ readsAs decodeCt 0x0A18C383#32 (.plogAndn 3 6 7)
    ∧ readsAs decodeCt 0x0A18C004#32 (.plogNot 3 6)
    ∧ readsAs decodeCt 0x201CC963#32 (.ld 3 38 2 1 1 1 3)
    ∧ readsAs decodeCt 0x221CCEDF#32 (.st 3 38 3 2 3 31)
    ∧ readsAs decodeCt 0x281CC937#32 (.fld 3 38 2359)
    ∧ readsAs decodeCt 0x2A1CC937#32 (.fldT 3 38 2359)
    ∧ readsAs decodeCt 0x2C1CC937#32 (.fst 3 38 2359) := by decide

/-- FST_T to FSQRT. -/
theorem test_wordsD :
    readsAs decodeCt 0x2E1CC937#32 (.fstT 3 38 2359)
    ∧ readsAs decodeCt 0x3166DD95#32 (.br 5 38 55 405)
    ∧ readsAs decodeCt 0x33C0E937#32 (.bq 1 6 59703)
    ∧ readsAs decodeCt 0x341ED1A6#32 (.jal 3 446886)
    ∧ readsAs decodeCt 0x361CC937#32 (.jalr 3 38 2359)
    ∧ readsAs decodeCt 0x380301A6#32 (.loop 3 422)
    ∧ readsAs decodeCt 0x3A031937#32 (.bsig 3 6 311)
    ∧ readsAs decodeCt 0x3CDC0000#32 (.grd 3 0 7)
    ∧ readsAs decodeCt 0x3E02B5C3#32 (.pfx 177603)
    ∧ readsAs decodeCt 0x4018CB80#32 (.fadd 3 6 23)
    ∧ readsAs decodeCt 0x4018CB81#32 (.fsub 3 6 23)
    ∧ readsAs decodeCt 0x4018CB82#32 (.fmul 3 6 23)
    ∧ readsAs decodeCt 0x4018CB83#32 (.fdiv 3 6 23)
    ∧ readsAs decodeCt 0x4018C004#32 (.fsqrt 3 6) := by decide

/-- FMAX to AADD. -/
theorem test_wordsE :
    readsAs decodeCt 0x4018CB85#32 (.fmax 3 6 23)
    ∧ readsAs decodeCt 0x4018CB86#32 (.fmin 3 6 23)
    ∧ readsAs decodeCt 0x4018CB87#32 (.fsgn 3 6 23)
    ∧ readsAs decodeCt 0x4018CB88#32 (.fsgnN 3 6 23)
    ∧ readsAs decodeCt 0x4018CB89#32 (.fsgnX 3 6 23)
    ∧ readsAs decodeCt 0x4018C00A#32 (.fmov 3 6)
    ∧ readsAs decodeCt 0x4018C00B#32 (.fclass 3 6)
    ∧ readsAs decodeCt 0x4218CB95#32 (.ffma 3 6 23 21)
    ∧ readsAs decodeCt 0x44F2EA80#32 (.fcmp 3 6 23 21)
    ∧ readsAs decodeCt 0x472AC01C#32 (.fcvt 37 22 3 4)
    ∧ readsAs decodeCt 0x4818C000#32 (.fsigRead 3 6)
    ∧ readsAs decodeCt 0x481CC001#32 (.fsigSet 3 38)
    ∧ readsAs decodeCt 0x4A180006#32 (.fsigImm 3 6)
    ∧ readsAs decodeCt 0x601CDBC6#32 (.aadd 3 38 55 4 1 1 0) := by decide

/-- ALOG_AND to MARK. -/
theorem test_wordsF :
    readsAs decodeCt 0x621CDBC6#32 (.alogAnd 3 38 55 4 1 1 0)
    ∧ readsAs decodeCt 0x641CDBC6#32 (.alogOr 3 38 55 4 1 1 0)
    ∧ readsAs decodeCt 0x661CDBC6#32 (.alogXor 3 38 55 4 1 1 0)
    ∧ readsAs decodeCt 0x681CDBC6#32 (.amax 3 38 55 4 1 1 0)
    ∧ readsAs decodeCt 0x6A1CDBC6#32 (.amaxN 3 38 55 4 1 1 0)
    ∧ readsAs decodeCt 0x6C1CDBC6#32 (.amin 3 38 55 4 1 1 0)
    ∧ readsAs decodeCt 0x6E1CDBC6#32 (.aminN 3 38 55 4 1 1 0)
    ∧ readsAs decodeCt 0x701CCBC4#32 (.amaxf 3 38 23 4 1 0)
    ∧ readsAs decodeCt 0x721CCBC4#32 (.aminf 3 38 23 4 1 0)
    ∧ readsAs decodeCt 0x741CCBC4#32 (.aaddf 3 38 23 4 1 0)
    ∧ readsAs decodeCt 0x761CDB9A#32 (.acas 3 38 55 1 2 1)
    ∧ readsAs decodeCt 0x781CDBC6#32 (.axch 3 38 55 4 1 1 0)
    ∧ readsAs decodeCt 0x7A1CDB80#32 (.atq 3 38 55)
    ∧ readsAs decodeCt 0x80000000#32 .mark := by decide

/-- FENCE to SQCOM. -/
theorem test_wordsG :
    readsAs decodeCt 0x8000000B#32 (.fence 3)
    ∧ readsAs decodeCt 0x80000010#32 .afence
    ∧ readsAs decodeCt 0x82007300#32 (.evsig 3 38)
    ∧ readsAs decodeCt 0x82006001#32 (.evsigR 3)
    ∧ readsAs decodeCt 0x84007300#32 (.evwait 3 38)
    ∧ readsAs decodeCt 0x861CC000#32 (.evpoll 3 38)
    ∧ readsAs decodeCt 0x88007300#32 (.barinit 3 38)
    ∧ readsAs decodeCt 0x8A007300#32 (.baradd 3 38)
    ∧ readsAs decodeCt 0x8C1CC937#32 (.barwait 3 38 2359)
    ∧ readsAs decodeCt 0x8E1CC937#32 (.toksig 3 38 2359)
    ∧ readsAs decodeCt 0x901CC937#32 (.tokwait 3 38 2359)
    ∧ readsAs decodeCt 0x921CC000#32 (.sqnew 3 38)
    ∧ readsAs decodeCt 0x921CDB81#32 (.sqres 3 38 55)
    ∧ readsAs decodeCt 0x921CDB82#32 (.sqcom 3 38 55) := by decide

/-- SQLEN to MDRAIN. -/
theorem test_wordsH :
    readsAs decodeCt 0x921CC003#32 (.sqlen 3 38)
    ∧ readsAs decodeCt 0x921CDB84#32 (.sqfork 3 38 55)
    ∧ readsAs decodeCt 0x92006005#32 (.sqdrop 3)
    ∧ readsAs decodeCt 0x921CDB86#32 (.sqslot 3 38 55)
    ∧ readsAs decodeCt 0x92006007#32 (.sqseal 3)
    ∧ readsAs decodeCt 0x941CC937#32 (.sqwait 3 38 2359)
    ∧ readsAs decodeCt 0xA0039B7C#32 (.vrun 3 38 55 1 1)
    ∧ readsAs decodeCt 0xA2039B7C#32 (.vbase 3 38 55 1 1)
    ∧ readsAs decodeCt 0xA2439B7C#32 (.vbaseL 3 38 55 1 1)
    ∧ readsAs decodeCt 0xA4039B7C#32 (.vhalt 3 38 55 1 1)
    ∧ readsAs decodeCt 0xA6039B7C#32 (.vsend 3 38 55 1 1)
    ∧ readsAs decodeCt 0xA8039B7C#32 (.mldb 3 38 55 1 1)
    ∧ readsAs decodeCt 0xAA039B7C#32 (.mmul 3 38 55 1 1)
    ∧ readsAs decodeCt 0xAC039B7C#32 (.mdrain 3 38 55 1 1) := by decide

/-- MDRAIN_S to LAYSET_PASS. -/
theorem test_wordsI :
    readsAs decodeCt 0xAC439B7C#32 (.mdrainS 3 38 55 1 1)
    ∧ readsAs decodeCt 0xAE039B7C#32 (.mclr 3 38 55 1 1)
    ∧ readsAs decodeCt 0xB0039B7C#32 (.mbase 3 38 55 1 1)
    ∧ readsAs decodeCt 0xB2039B7C#32 (.mshr 3 38 55 1 1)
    ∧ readsAs decodeCt 0xB4039B7C#32 (.wdef 3 38 55 1 1)
    ∧ readsAs decodeCt 0xC01CC937#32 (.tmap 3 38 2359)
    ∧ readsAs decodeCt 0xC2039B7C#32 (.tload 3 38 55 1 1)
    ∧ readsAs decodeCt 0xC4039B7C#32 (.tstore 3 38 55 1 1)
    ∧ readsAs decodeCt 0xC6039B7C#32 (.tgath 3 38 55 1 1)
    ∧ readsAs decodeCt 0xC8039B7C#32 (.tscat 3 38 55 1 1)
    ∧ readsAs decodeCt 0xCA039B7C#32 (.xpat 3 38 55 1 1)
    ∧ readsAs decodeCt 0xCC039B7C#32 (.hexch 3 38 55 1 1)
    ∧ readsAs decodeCt 0xCE039B7C#32 (.layset 3 38 55 1 1)
    ∧ readsAs decodeCt 0xCE439B7C#32 (.laysetPass 3 38 55 1 1) := by decide

/-- LAYGET to REGION. -/
theorem test_wordsJ :
    readsAs decodeCt 0xD01CC037#32 (.layget 3 38 55)
    ∧ readsAs decodeCt 0xD2039B7C#32 (.reshard 3 38 55 1 1)
    ∧ readsAs decodeCt 0xD4039B7C#32 (.cred 3 38 55 1 1)
    ∧ readsAs decodeCt 0xD6039B7C#32 (.cbcast 3 38 55 1 1)
    ∧ readsAs decodeCt 0xE0007300#32 (.discard 3 38)
    ∧ readsAs decodeCt 0xE2007300#32 (.pref 3 38)
    ∧ readsAs decodeCt 0xE41CDB80#32 (.spawn 3 38 55)
    ∧ readsAs decodeCt 0xE61CDB80#32 (.join 3 38 55)
    ∧ readsAs decodeCt 0xE8000000#32 .exit
    ∧ readsAs decodeCt 0xE8000001#32 .exitD
    ∧ readsAs decodeCt 0xEA000000#32 .yield
    ∧ readsAs decodeCt 0xEC1CC000#32 (.cancel 3 38)
    ∧ readsAs decodeCt 0xEE1CDB80#32 (.cmpl 3 38 55)
    ∧ readsAs decodeCt 0xF0180937#32 (.region 3 0 2359) := by decide

/-- SEGEND to CYC. -/
theorem test_wordsK :
    readsAs decodeCt 0xF20071A6#32 (.segend 3 4518)
    ∧ readsAs decodeCt 0xFE000000#32 .nop
    ∧ readsAs decodeCt 0xFE08B5C3#32 (.trap 46531)
    ∧ readsAs decodeCt 0xFE100000#32 .eret
    ∧ readsAs decodeCt 0xFE1871A6#32 (.ctlr 3 4518)
    ∧ readsAs decodeCt 0xFE206061#32 (.ctlw 3 97)
    ∧ readsAs decodeCt 0xFE206063#32 (.bufphSwap 3)
    ∧ readsAs decodeCt 0xFE287800#32 (.tlbi 3 6)
    ∧ readsAs decodeCt 0xFE306001#32 (.cyc 3 1) := by decide

/-- VNOP to VMAX. -/
theorem test_ordersA :
    readsAs decodeVs 0x01000000#32 .vnop
    ∧ readsAs decodeVs 0x10C3A637#32 (.vadd 195 166 55)
    ∧ readsAs decodeVs 0x11C3A607#32 (.vaddZ 195 166 7)
    ∧ readsAs decodeVs 0x12C3A637#32 (.vsub 195 166 55)
    ∧ readsAs decodeVs 0x13C3A607#32 (.vsubZ 195 166 7)
    ∧ readsAs decodeVs 0x14C3A637#32 (.vmul 195 166 55)
    ∧ readsAs decodeVs 0x15C3A607#32 (.vmulZ 195 166 7)
    ∧ readsAs decodeVs 0x16C3A637#32 (.vfma 195 166 55)
    ∧ readsAs decodeVs 0x17C3A607#32 (.vfmaZ 195 166 7)
    ∧ readsAs decodeVs 0x18C3A637#32 (.vfmaS 195 166 55)
    ∧ readsAs decodeVs 0x19C3A607#32 (.vfmaSZ 195 166 7)
    ∧ readsAs decodeVs 0x1AC3A637#32 (.vdiv 195 166 55)
    ∧ readsAs decodeVs 0x1BC3A607#32 (.vdivZ 195 166 7)
    ∧ readsAs decodeVs 0x1CC3A637#32 (.vmax 195 166 55) := by decide

/-- VMAX_Z to VCMP_UN. -/
theorem test_ordersB :
    readsAs decodeVs 0x1DC3A607#32 (.vmaxZ 195 166 7)
    ∧ readsAs decodeVs 0x1EC3A637#32 (.vmin 195 166 55)
    ∧ readsAs decodeVs 0x1FC3A607#32 (.vminZ 195 166 7)
    ∧ readsAs decodeVs 0x20C3A637#32 (.vsgn 195 166 55)
    ∧ readsAs decodeVs 0x21C3A607#32 (.vsgnZ 195 166 7)
    ∧ readsAs decodeVs 0x28C3A600#32 (.vrcp 195 166)
    ∧ readsAs decodeVs 0x29C3A600#32 (.vrsq 195 166)
    ∧ readsAs decodeVs 0x2AC3A600#32 (.vsqrt 195 166)
    ∧ readsAs decodeVs 0x2BC3A600#32 (.vexp2 195 166)
    ∧ readsAs decodeVs 0x2CC3A600#32 (.vlog2 195 166)
    ∧ readsAs decodeVs 0x3030A637#32 (.vcmpEq 3 166 55)
    ∧ readsAs decodeVs 0x3130A637#32 (.vcmpLt 3 166 55)
    ∧ readsAs decodeVs 0x3230A637#32 (.vcmpLe 3 166 55)
    ∧ readsAs decodeVs 0x3330A637#32 (.vcmpUn 3 166 55) := by decide

/-- VCMP_Z_EQ to VIMIN. -/
theorem test_ordersC :
    readsAs decodeVs 0x3430A607#32 (.vcmpZEq 3 166 7)
    ∧ readsAs decodeVs 0x3530A607#32 (.vcmpZLt 3 166 7)
    ∧ readsAs decodeVs 0x3630A607#32 (.vcmpZLe 3 166 7)
    ∧ readsAs decodeVs 0x3730A607#32 (.vcmpZUn 3 166 7)
    ∧ readsAs decodeVs 0x38C3A637#32 (.vsel 195 166 55)
    ∧ readsAs decodeVs 0x40C3A637#32 (.viadd 195 166 55)
    ∧ readsAs decodeVs 0x41C3A607#32 (.viaddZ 195 166 7)
    ∧ readsAs decodeVs 0x42C3A637#32 (.visub 195 166 55)
    ∧ readsAs decodeVs 0x43C3A607#32 (.visubZ 195 166 7)
    ∧ readsAs decodeVs 0x44C3A637#32 (.vimul 195 166 55)
    ∧ readsAs decodeVs 0x45C3A607#32 (.vimulZ 195 166 7)
    ∧ readsAs decodeVs 0x46C3A637#32 (.vimax 195 166 55)
    ∧ readsAs decodeVs 0x47C3A607#32 (.vimaxZ 195 166 7)
    ∧ readsAs decodeVs 0x48C3A637#32 (.vimin 195 166 55) := by decide

/-- VIMIN_Z to VQNT. -/
theorem test_ordersD :
    readsAs decodeVs 0x49C3A607#32 (.viminZ 195 166 7)
    ∧ readsAs decodeVs 0x4AC3A637#32 (.vbitAnd 195 166 55)
    ∧ readsAs decodeVs 0x4BC3A637#32 (.vbitOr 195 166 55)
    ∧ readsAs decodeVs 0x4CC3A637#32 (.vbitXor 195 166 55)
    ∧ readsAs decodeVs 0x4DC3A637#32 (.vbitAndn 195 166 55)
    ∧ readsAs decodeVs 0x4EC3A637#32 (.vshfShl 195 166 55)
    ∧ readsAs decodeVs 0x4FC3A637#32 (.vshfShr 195 166 55)
    ∧ readsAs decodeVs 0x50C3A637#32 (.vshfSra 195 166 55)
    ∧ readsAs decodeVs 0x51C3A637#32 (.viaddSat 195 166 55)
    ∧ readsAs decodeVs 0x52C3A637#32 (.visubSat 195 166 55)
    ∧ readsAs decodeVs 0x53C3A637#32 (.vimaxN 195 166 55)
    ∧ readsAs decodeVs 0x54C3A637#32 (.viminN 195 166 55)
    ∧ readsAs decodeVs 0x58C3A675#32 (.vcvt 195 166 7 5)
    ∧ readsAs decodeVs 0x59C3A676#32 (.vqnt 195 166 7 1 2) := by decide

/-- VRSUM to VSACC_N. -/
theorem test_ordersE :
    readsAs decodeVs 0x6030A600#32 (.vrsum 3 166)
    ∧ readsAs decodeVs 0x6130A600#32 (.vrmax 3 166)
    ∧ readsAs decodeVs 0x6230A600#32 (.vrmin 3 166)
    ∧ readsAs decodeVs 0x68C3A600#32 (.vmov 195 166)
    ∧ readsAs decodeVs 0x69C3A637#32 (.vrot 195 166 55)
    ∧ readsAs decodeVs 0x6AC30006#32 (.vbcast 195 6)
    ∧ readsAs decodeVs 0x70C30637#32 (.vld 195 6 55)
    ∧ readsAs decodeVs 0x71C306D5#32 (.vst 195 6 3 21)
    ∧ readsAs decodeVs 0x72C30637#32 (.vldT 195 6 55)
    ∧ readsAs decodeVs 0x73C30637#32 (.vstT 195 6 55)
    ∧ readsAs decodeVs 0x74C30637#32 (.vpop 195 6 55)
    ∧ readsAs decodeVs 0x75C306C0#32 (.vpush 195 6 3)
    ∧ readsAs decodeVs 0x78C32D0F#32 (.vsacc 195 2 3 1 0 15)
    ∧ readsAs decodeVs 0x78C32DB3#32 (.vsaccN 195 2 3 1 0 3 3) := by decide

/-- VACCR to VZMOV_Z. -/
theorem test_ordersF :
    readsAs decodeVs 0x79C32DAA#32 (.vaccr 195 2 3 1 170)
    ∧ readsAs decodeVs 0x7C30A617#32 (.vsigq 3 166 23)
    ∧ readsAs decodeVs 0x7DC3A600#32 (.vsigs 195 166)
    ∧ readsAs decodeVs 0x7EC3A600#32 (.vsigr 195 166)
    ∧ readsAs decodeVs 0x8000B5C3#32 (.vloop 46531)
    ∧ readsAs decodeVs 0x81000000#32 .vend
    ∧ readsAs decodeVs 0x82030000#32 (.vflag 3)
    ∧ readsAs decodeVs 0x82030001#32 (.vflagNew 3)
    ∧ readsAs decodeVs 0x8303A637#32 (.vwait 3 166 55)
    ∧ readsAs decodeVs 0x8403D1A6#32 (.vidx 3 53670)
    ∧ readsAs decodeVs 0x8443D1A6#32 (.vidxAdd 3 53670)
    ∧ readsAs decodeVs 0x8530A637#32 (.vkset 3 166 55)
    ∧ readsAs decodeVs 0x8603A637#32 (.vzmovLane 3 166 55)
    ∧ readsAs decodeVs 0x86030640#32 (.vzmovZ 3 6) := by decide

/-! ## A bench: one unit of job 1 on tile 0, with a page of its own die's HBM at its own address -/

def page : Extent := { vbase := 0, plain := 0, len := 65536, r := true, w := true, x := true, tagged := true, fallow := false }
def unit0 : Tile := { status := .running, exts := [page], entry := { cr := { job := 1 } } }
/-- The bench with tile 0 as given. -/
def on (t : Tile) : State := { State.reset with tiles := [(0, t)], jobs := [(1, { placed := true, dies := [0] })] }
def gs (l : List (Nat × W64)) : Tile := { unit0 with g := l }
def fs (l : List (Nat × FReg)) : Tile := { unit0 with f := l }

/-! ## Witnesses: integer, predicate, branch and floating-point words -/

theorem witness_integerResults :
    intResult (on (gs [(1, 5)])) (.div 3 1 2) = some (3, 0xFFFFFFFFFFFFFFFF#64)
    ∧ intResult (on (gs [(1, 0x8000000000000000#64), (2, -1)])) (.div 0 1 2) = some (0, 0x8000000000000000#64)
    ∧ intResult (on (gs [(1, 0x7FFFFFFFFFFFFFFF#64), (2, 1)])) (.addSat 3 1 2) = some (3, 0x7FFFFFFFFFFFFFFF#64)
    ∧ intResult (on (gs [(1, -1), (2, -1)])) (.mulHi 63 1 2) = some (63, 0)
    ∧ intResult (on (gs [(1, 1), (2, 127)])) (.shl 3 1 2) = some (3, 0x8000000000000000#64)
    ∧ intResult (on (gs [])) (.clz 3 1) = some (3, 64) := by decide
theorem witness_predicateWords :
    predResult (on (gs [(1, -1), (2, 1)])) (.pset 2 7 1 2) = some (7, true)
    ∧ predResult (on (gs [])) (.plogNot 0 0) = some (0, false) := by decide
theorem witness_branchTargets :
    branchTarget (on { gs [(1, -1), (2, 1)] with pc := 8 }) (.br 4 1 2 0x3FF) = some 12
    ∧ branchTarget (on { gs [] with pc := 8 }) (.bq 0 0 0x1FFFFF) = some 4
    ∧ branchTarget (on (gs [])) (.bsig 1 31 1) = some 4 := by decide
/-- R325: a target that is no multiple of 4. -/
theorem witness_jumpWords : ((on (gs [(1, 4)])).g (1 : BitVec 6) + unit0.imm (4 : BitVec 13)).toNat % 4 = 0
    ∧ ((on (gs [(1, 6)])).g (1 : BitVec 6) + unit0.imm (4 : BitVec 13)).toNat % 4 ≠ 0 := by decide

/-- 1.0 with count 24, and the largest finite value. -/
def one : FReg := { val := 0x3F800000#32, cnt := 24 }
def big : FReg := { val := 0x7F7FFFFF#32, cnt := 24 }
/-- What a floating-point word raises at the trap enables of the unit's FPC. -/
def trapOf (t : Tile) (i : Instr) : Option (Nat × FRes × Option Nat) :=
  (floatResult (on t) i).map fun r => (r.1, r.2, flagTrap t.fpc (r.2.allFlags t.fpc))
theorem witness_floatResults : (trapOf (fs [(1, one), (2, one)]) (.fadd 3 1 2)).map (fun r => (r.1, r.2.1.bits, r.2.2)) = some (3, 0x40000000, none) := by
  decide
/-- Overflow with its trap enabled (FPC bit 10): the sum of two largest values. -/
theorem witness_floatTraps : (trapOf { fs [(1, big)] with fpc := 0x400 } (.fadd 3 1 1)).map (fun r => r.2.2) = some (some Cls.fpTrap) := by decide
theorem witness_floatMoves : moveResult (on (fs [(1, one)])) (.fsgnN 2 1 1) = some (2, { val := 0xBF800000#32, cnt := 24 })
    ∧ moveResult (on (fs [(3, { val := 0x7F800000#32, cnt := 0 })])) (.fsigImm 3 31) = some (3, { val := 0x7F800000#32, cnt := 0 }) := by decide
/-- A signalling NaN, and the invalid trap enabled (FPC bit 12). -/
def sigNan : FReg := { val := 0x7F800001#32, cnt := 0 }
/-- FCMP and every kind of FCVT that writes a g register, with no trap and with one: f1 holds the signalling NaN, f2 is 1.0. -/
theorem witness_floatReads :
    flagTrap 0 (fpCmp 1 one.fv big.fv).2 = none ∧ flagTrap 0x1000 (fpCmp 1 one.fv sigNan.fv).2 = some Cls.fpTrap
    ∧ (∀ k ∈ [2, 3, 4, 5, 10, 11],
        (convResult (on { fs [(1, sigNan), (2, one)] with fpc := 0x1000 }) 1 0 k).map (fun r => flagTrap 0x1000 r.2) = some (some Cls.fpTrap)
        ∧ (convResult (on { fs [(1, sigNan), (2, one)] with fpc := 0x1000 }) 2 0 k).map (fun r => flagTrap 0x1000 r.2) = some none)
    ∧ (convResult (on (fs [(1, { val := 0xC0200000#32, cnt := 24 })])) 1 2 2).map (·.1) = some (-2)
    ∧ (convResult (on (fs [(1, one)])) 1 0 10).map (·.1) = some 0x3C00#64
    ∧ (convResult (on (fs [(1, one)])) 1 0 11).map (·.1) = some 0x3F80#64 := by decide
theorem witness_roundingExact : unpack .f32 (0x00000001#32).toNat = .fin false 1 (-149) ∧ unpack .f32 (0xFF7FFFFF#32).toNat = .fin true 0xFFFFFF 104 := by
  decide
theorem witness_sumOfSpecials : (FV.nan true).isNan = true ∧ FV.inf false ≠ .inf true ∧ (!(FV.inf false).isNan) = true := by decide

/-! ## Witnesses: loads, stores, fences, atomics -/

/-- The last 8 bytes of the page, and the byte after the first. -/
theorem witness_integerLoads : (0xFFF8#64).toNat % 8 = 0 ∧ ReadHere (on unit0) 0xFFF8#64 8 true false (atDevice 8 false) 0xFFF8
    ∧ ReadHere (on unit0) 1#64 1 true false (atDevice 1 false) 1 :=
  ⟨rfl, ⟨_, rfl, rfl, rfl, rfl, rfl, rfl⟩, ⟨_, rfl, rfl, rfl, rfl, rfl, rfl⟩⟩
/-- The value of FLD.t, and its tag byte, whose read comes with the value in hand. -/
def tagUnit : Tile := { unit0 with wait := some { on := .tagRead 0x3F800000#32, since := 0, bound := none, parked := false } }
theorem witness_floatLoads : (0xFFFC#64).toNat % 4 = 0 ∧ ReadHere (on unit0) 0xFFFC#64 4 true false (atDevice 4 false) 0xFFFC
    ∧ ReadHere (on unit0) 0xFFFC#64 4 false true (atDevice 4 true) 0xFFFC
    ∧ ReadHere (on unit0) ((on unit0).tagAddr 0 0xFFFC#64) 1 false false (atDevice 4 true) 0x3FFF ∧ unit0.tagValue = none
    ∧ ReadHere (on tagUnit) 0xFFFC#64 4 false true (atDevice 4 true) 0xFFFC
    ∧ ReadHere (on tagUnit) ((on tagUnit).tagAddr 0 0xFFFC#64) 1 false false (atDevice 4 true) 0x3FFF ∧ tagUnit.tagValue = some 0x3F800000#32 :=
  ⟨rfl, ⟨_, rfl, rfl, rfl, rfl, rfl, rfl⟩, ⟨_, rfl, rfl, rfl, rfl, rfl, rfl⟩, ⟨_, rfl, rfl, rfl, rfl, rfl, rfl⟩, rfl,
    ⟨_, rfl, rfl, rfl, rfl, rfl, rfl⟩, ⟨_, rfl, rfl, rfl, rfl, rfl, rfl⟩, rfl⟩

def sent : SEntry := { va := 16, plain := 16, bytes := [1, 2] }
def jent : JEntry := { pos := 0, kind := .none }
def cmd0 : Cmd := { kind := .vbase, seq := 0, atag := 0, pos := 0, clause := 0 }
set_option maxRecDepth 4000 in
theorem witness_storesIssued : (on unit0).storeCheck 0xFFF8#64 8 true false (atDevice 8 false) = .ok { plain := 0xFFF8 } ∧ plainTier 0xFFF8 ≠ 3
    ∧ (on unit0).storeCheck 0xFFFC#64 4 true false (atDevice 4 false) = .ok { plain := 0xFFFC }
    ∧ (on unit0).storeCheck 0xFFFC#64 4 false true (atDevice 4 true) = .ok { plain := 0xFFFC }
    ∧ (on unit0).storeCheck 0x3FFF#64 1 false false (atDevice 4 true) = .ok { plain := 0x3FFF } ∧ plainTier 0x3FFF ≠ 3
    ∧ StoreRoom (on { unit0 with storeQ := List.replicate 31 sent }) 1 false ∧ StoreRoom (on unit0) 1 true
    ∧ StoreRoom (on { unit0 with vq := [cmd0], journal := List.replicate 126 jent }) 2 true := by
  refine ⟨rfl, by decide, rfl, rfl, rfl, by decide, ?_, ?_, ?_⟩ <;> unfold StoreRoom <;> decide
theorem witness_storesPerformed :
    let s := on { unit0 with storeQ := [sent] }
    (s.tile 0).storeReady 0 = some sent ∧ sent.amo = none ∧ (s.tile 0).status = .running ∧ (s.tile 0).journal = [] ∧ (s.tile 0).reports = []
    ∧ plainDie sent.plain = tileDie 0 ∧ tileDie 0 ∉ (s.die (tileDie 0)).unreachable ∧ s.place (tileDie 0) sent.plain sent.bytes.length = .mem 16
    ∧ s.foreign (s.fidOf 0) 16 = false ∧ s.badSector 16 sent.bytes.length = none := by decide
/-- A queued store to a register word of the tile's own die. -/
def regStore : SEntry := { va := 16, plain := mkPlain 0 3 4096, bytes := [1, 2, 3, 4] }
theorem witness_deviceStores :
    let s := on { unit0 with storeQ := [regStore] }
    (s.tile 0).storeReady 0 = some regStore ∧ regStore.amo = none ∧ (s.tile 0).status = .running ∧ (s.tile 0).journal = []
    ∧ (s.tile 0).reports = [] ∧ plainDie regStore.plain = tileDie 0 ∧ tileDie 0 ∉ (s.die (tileDie 0)).unreachable
    ∧ s.place (tileDie 0) regStore.plain regStore.bytes.length = .mmio := by decide
theorem witness_misaligned : (0xFFFC#64).toNat % 2 ^ (3#2).toNat ≠ 0 ∧ (0xFFFE#64).toNat % 4 ≠ 0 := by decide
theorem witness_fenceWords : Quiet unit0 ∧ ({ unit0 with storeQ := [sent] } : Tile).ahead = false ∧ ({ unit0 with storeQ := [sent] } : Tile).storeQ ≠ [] := by
  refine ⟨⟨rfl, rfl, rfl, rfl⟩, rfl, by decide⟩
/-- A queued store of the own die and one for die 1; and a store before the MARK in the path of a load at byte 64. -/
def marked0 : Tile := { unit0 with storeQ := [sent], markPos := 1 }
theorem witness_marks :
    ({ unit0 with storeQ := [sent] } : Tile).storesAhead = false ∧ unit0.reports = [] ∧ unit0.posted = []
    ∧ ({ unit0 with storeQ := List.replicate 31 sent } : Tile).storeQ.length < 32
    ∧ 32 ≤ ({ unit0 with storeQ := List.replicate 32 sent } : Tile).storeQ.length
    ∧ (∀ e ∈ ({ unit0 with storeQ := [sent] } : Tile).storeQ, plainDie e.plain = tileDie 0)
    ∧ (∃ e ∈ ({ unit0 with storeQ := [{ sent with plain := mkPlain 1 0 0 }] } : Tile).storeQ, plainDie e.plain ≠ tileDie 0) :=
  ⟨rfl, rfl, rfl, by decide, by decide, by decide, ⟨_, List.mem_singleton.2 rfl, by decide⟩⟩
theorem witness_markedLoads :
    (64#64).toNat % 8 = 0 ∧ (on marked0).check 0 64 8 .r true false (atDevice 8 false) = .ok { plain := 64 } ∧ plainDie 64 = tileDie 0
    ∧ (on marked0).place 0 64 8 = .mem 64 ∧ marked0.allForwarded 64 8 = false
    ∧ (∃ e ∈ marked0.storeQ, e.pos < marked0.markPos ∧ pathOf e.plain = pathOf 64) ∧ marked0.pfx = none :=
  ⟨rfl, rfl, rfl, rfl, by decide, ⟨_, List.mem_singleton.2 rfl, by decide, by decide⟩, rfl⟩
theorem witness_integerAtomics : wellFormed (.acas 3 1 2 4 1 1) = true ∧ atomicForm (.acas 3 1 2 4 1 1) = some (8, 3, 1, 2)
    ∧ wellFormed (.axch 3 1 2 0 0 0 0) = true ∧ atomicForm (.axch 3 1 2 0 0 0 0) = some (4, 3, 1, 2)
    ∧ AtomicHere (on (gs [(1, 0xFFF8)])) 0xFFF8#64 8 0xFFF8 :=
  ⟨rfl, rfl, rfl, rfl, ⟨⟨rfl, rfl, rfl, rfl⟩, rfl, List.not_mem_nil, ⟨_, rfl, rfl, rfl, rfl, rfl, rfl⟩⟩⟩
theorem witness_floatAtomics : AtomicHere (on (fs [(1, one)])) 0xFFFC#64 4 0xFFFC ∧ flagTrap 0 (fpAdd .f32 .rne (unpack .f32 0) 24 one.fv one.c).flags = none :=
  ⟨⟨⟨rfl, rfl, rfl, rfl⟩, rfl, List.not_mem_nil, ⟨_, rfl, rfl, rfl, rfl, rfl, rfl⟩⟩, by decide⟩
/-- A logged request of tile 0 to die 1 without a response. -/
def openReq : Request :=
  { tile := 0, fid := 0, job := 1, src := 0, dst := 1, op := .amo 0 (mkPlain 1 0 8) 8 1 0 0, sink := .posted, addr := 8, deadline := 100, logged := true }
theorem witness_noReturnAtomics : noReturnForm (on (gs [(1, 8), (2, 3)])) (.aadd 0 1 2 3 0 1 1) = some (0, 8, 1, 3, 0)
    ∧ noReturnForm (on (gs [(1, 8)])) (.aaddf 0 1 2 3 0 1) = some (10, 4, 1, 0, 31)
    ∧ Quiet (gs [(1, 8), (2, 3)]) ∧ (on (gs [(1, 8), (2, 3)])).atomicCheck 8 8 = .ok { plain := 8 }
    ∧ plainDie 8 = tileDie 0 ∧ (let far : Tile := { gs [(1, 8), (2, 3)] with exts := [{ page with plain := mkPlain 1 0 0 }] }
      let s := { on far with reqs := (List.range 64).map fun i => (i, openReq) }
      64 ≤ s.loggedOpen 0 ∧ Quiet far ∧ s.atomicCheck 8 8 = .ok { plain := mkPlain 1 0 8 } ∧ plainDie (mkPlain 1 0 8) ≠ tileDie 0) :=
  ⟨by decide, by decide, ⟨rfl, rfl, rfl, rfl⟩, rfl, rfl, by decide, ⟨rfl, rfl, rfl, rfl⟩, by rfl, by decide⟩
theorem witness_queryOutcome : Quiet unit0 ∧ (on unit0).atomicCheck 0xFFFF#64 1 = .ok { plain := 0xFFFF } ∧ plainDie 0xFFFF = tileDie 0
    ∧ (62#6).toNat % 2 = 0 ∧ fld (0xFFFF#64) 16 48 = 0 := ⟨⟨rfl, rfl, rfl, rfl⟩, rfl, by decide⟩

/-! ## Witnesses: events, barriers, tokens, sequences -/

/-- The bench with die 0 as given. -/
def onDie (t : Tile) (d : Die) : State := { on t with dies := [(0, d)] }
def parked (n : Nat) : Waiter := .unit { cr := { job := 1 } } n

/-- Event 5 of die 0 counts to its limit and lets the waiter of 0xFFFFFFFF go; a wait for 7 is met by a count of 7, and one for 8
joins as the sixteenth waiter. -/
theorem witness_eventWords :
    let s := onDie (gs [(1, 5), (2, 0xFFFFFFFF)]) { events := [(0x10005, { count := 7, waiters := List.replicate 15 (parked 0xFFFFFFFF) })] }
    fld (s.g (1 : BitVec 6)) 19 45 = 0 ∧ s.eventDie (s.g (1 : BitVec 6)) = 0 ∧ 0 ∈ (s.job (s.jobOf s.focus)).dies ∧ Here s
    ∧ fld (s.g (2 : BitVec 6)) 32 32 = 0 ∧ s.eventRoom 0 (evKey 1 5) = true ∧ s.waiterRoom 0 (evKey 1 5) = true
    ∧ (s.eventAt 0 (evKey 1 5)).count < (s.g (2 : BitVec 6)).toNat
    ∧ (onDie (gs [(1, 5), (2, 7)]) { events := [(0x10005, { count := 7 })] }).eventAt 0 (evKey 1 5) = { count := 7 }
    ∧ s.cur.inh = false ∧ s.cur.cancelAt = none ∧ s.cur.vs = none ∧ s.cur.started = [] := by
  refine ⟨rfl, rfl, by decide, ⟨⟨rfl, rfl, rfl, rfl⟩, rfl, by decide⟩, by decide⟩

/-- Barrier 3 of die 0, the last of its job's range, with no waiter, with one that a larger count serves, and with the tile's own wait. -/
def barState (c : Nat) (w : List BarWaiter) : State :=
  { onDie unit0 { jobs := [(1, { barRange := 0x0103#64 })], bars := [(3, { count := c, waiters := w })] } with
    tiles := [(0, gs [(1, 3), (2, 9)]), (1, unit0)] }
theorem witness_barrierWords :
    Here (barState 8 []) ∧ Here (barState 9 []) ∧ Here (barState 8 [{ tile := 1, n := 9 }])
    ∧ (barState 8 []).barOk 0 1 3 = true ∧ (barState 9 []).barOk 0 1 3 = true ∧ (barState 8 [{ tile := 1, n := 9 }]).barOk 0 1 3 = true
    ∧ ((barState 8 []).barAt 0 3).waiters = [] ∧ ((barState 8 []).barAt 0 3).count < ((barState 8 []).g (2 : BitVec 6)).toNat
    ∧ ((barState 9 []).g (2 : BitVec 6)).toNat ≤ ((barState 9 []).barAt 0 3).count
    ∧ ((barState 8 [{ tile := 1, n := 9 }]).barAt 0 3).waiters = [{ tile := 1, n := 9 }] ∧ ((barState 8 []).tile 1).status = .running
    ∧ fld ((barState 8 []).g (1 : BitVec 6)) 26 38 = 0 ∧ fld ((barState 8 []).g (1 : BitVec 6)) 11 5 = 0 ∧ 0 ∈ ((barState 8 []).job 1).dies := by
  refine ⟨⟨⟨rfl, rfl, rfl, rfl⟩, rfl, by decide⟩, ⟨⟨rfl, rfl, rfl, rfl⟩, rfl, by decide⟩, ⟨⟨rfl, rfl, rfl, rfl⟩, rfl, by decide⟩, by decide⟩

theorem witness_tokenWords :
    Quiet (gs [(1, 0xFFFF)]) ∧ Tab.get [] (gs []).takers (63#6).toNat = [] ∧ ({ unit0 with vq := [cmd0] } : Tile).ahead = true
    ∧ 0xFFFF < ((on (gs [(1, 0x10000)])).g (1 : BitVec 6)).toNat ∧ (gs []).ahead = false
    ∧ ({ unit0 with tokens := [(63, 0xFFFF)] } : Tile).canTake 63 0xFFFF = true
    ∧ ({ unit0 with tokens := [(63, 0xFFFE)] } : Tile).canTake 63 0xFFFF = false := by
  refine ⟨⟨rfl, rfl, rfl, rfl⟩, by decide⟩

/-- A sequence of 8-byte slots: three reserved, the first committed, the third marked. Its block table lies at 4096. -/
def seq0 : Seqn := { live := true, gen := some 1, job := 1, cap := 4, cl := 1, rc := 3, win := [2], bt := 4096 }
def handle0 : W64 := 0x100000001#64
def seqDie0 : Die :=
  { seqs := [(0, seq0)], resolver := [(9, { target := 0x20000, refs := 1 })], jobs := [(1, { pool := [10, 11] })], btBase := 8192, btLen := 4096 }
def seqState (t : Tile) (d : Die) : State := { onDie t d with mem := [(64, 4), (68, 3), (4096, 9), (4103, 0x80)] }
theorem seqHere (s : State) (q : Seqn) (hq : Quiet s.cur) (hr : s.reqs = [])
    (h : (s.cur.status = .running ∧ tileDie s.focus ∉ (s.die (tileDie s.focus)).unreachable)
      ∧ s.seqHome (diePkg (tileDie s.focus)) handle0 = some (tileDie s.focus)
      ∧ s.seqOf (tileDie s.focus) handle0 (s.jobOf s.focus) = some q) : SeqHere s handle0 q :=
  ⟨⟨hq, h.1.1, h.1.2⟩, h.2.1, h.2.2, by rw [hr]; intro p hp; cases hp⟩
theorem witness_sequenceReads :
    let s := seqState (gs [(1, handle0), (2, 1), (3, 3)]) seqDie0
    let z := { seq0 with sealed := true }
    SeqHere s handle0 seq0 ∧ SeqHere (seqState (gs [(1, handle0)]) { seqDie0 with seqs := [(0, z)] }) handle0 z
    ∧ (s.g (2 : BitVec 6)).toNat ≤ seq0.cl ∧ seq0.cl < (s.g (3 : BitVec 6)).toNat ∧ (s.g (3 : BitVec 6)).toNat ≤ seq0.rc ∧ z.rc < 4 :=
  ⟨seqHere _ _ ⟨rfl, rfl, rfl, rfl⟩ rfl (by decide), seqHere _ _ ⟨rfl, rfl, rfl, rfl⟩ rfl (by decide), by decide⟩
/-- One slot more is there, and its block; two are not. Slots 1 and 2 are committed; slot 3 is not reserved. -/
theorem witness_sequenceWords :
    let s := seqState (gs [(1, handle0), (2, 1), (3, 3)]) seqDie0
    SeqHere s handle0 seq0 ∧ seq0.sealed = false ∧ seq0.rc + (s.g (2 : BitVec 6)).toNat ≤ seq0.cap
    ∧ (∀ x, (s.g (2 : BitVec 6)).toNat ≤ (s.jobDie (blockDie 0 seq0.blkDies x) seq0.job).pool.length)
    ∧ seq0.cap < seq0.rc + (s.g (3 : BitVec 6)).toNat
    ∧ 0 < (s.g (2 : BitVec 6)).toNat ∧ (s.g (2 : BitVec 6)).toNat + (s.g (2 : BitVec 6)).toNat ≤ seq0.rc
    ∧ seq0.grants = [] ∧ seq0.win.Pairwise (· < ·) ∧ (∀ x ∈ seq0.win, seq0.cl ≤ x) ∧ seq0.rc < (s.g (3 : BitVec 6)).toNat + (s.g (2 : BitVec 6)).toNat :=
  ⟨seqHere _ _ ⟨rfl, rfl, rfl, rfl⟩ rfl (by decide), by decide, by decide, fun _ => (by decide : 1 ≤ 2), by decide⟩
/-- A creation record for four 8-byte slots on die 0, a fork at the edge of the first of two committed blocks, and a slot of the
window. -/
theorem witness_sequenceMaking :
    let s := seqState (gs [(1, 64)]) seqDie0
    let q : Seqn := { seq0 with slotLog2 := 16, cl := 2, rc := 2, win := [] }
    let u := seqState (gs [(1, handle0), (2, 1)]) { seqDie0 with seqs := [(0, q)] }
    (∃ bs, s.readVa 0 64 32 = .ok bs ∧ s.newSeqOk 0 1 (s.forward 0 64 bs) = true ∧ bytesAt (s.forward 0 64 bs) 0 4 = 4) ∧ Here s
    ∧ ((s.die 0).seqs.filter fun p => p.2.live).length < 16384 ∧ s.tableRoom 0 8 = some 8192
    ∧ SeqHere u handle0 q ∧ 1 ≤ q.cl ∧ q.cl ≤ q.cap ∧ 1 % q.spb = 0 ∧ u.tableRoom 0 (8 * q.blocks) = some 8192
    ∧ (∀ n < 1 / q.spb, (Tab.get { target := 0, refs := 0 } (u.die (8 * diePkg 0 + (u.btEntry q n).die)).resolver (u.btEntry q n).block).refs ≠ 2 ^ 32 - 1)
    ∧ SeqHere (seqState (gs [(1, handle0), (2, 2)]) seqDie0) handle0 seq0 ∧ 2 < seq0.rc ∧ (s.die 0).grantCount < 4096 := by
  refine ⟨⟨_, rfl, by decide, by decide⟩, ⟨⟨rfl, rfl, rfl, rfl⟩, rfl, List.not_mem_nil⟩, by decide, by decide,
    seqHere _ _ ⟨rfl, rfl, rfl, rfl⟩ rfl (by decide), by decide, by decide, by decide, by decide, by decide,
    seqHere _ _ ⟨rfl, rfl, rfl, rfl⟩ rfl (by decide), by decide, by decide⟩

/-! ## Witnesses: the parameters of each engine command -/

/-- A map of n elements in one row, with the format and mode bits given. -/
def row (base : W64) (n : Nat) (fmt : W32) : TMap := { base := base, extC := BitVec.ofNat 32 n, extX := 1, extY := 1, extT := 1, strC := 1, fmt := fmt }
/-- The first address of tile 0's own slice. -/
def slice0 : W64 := 0xFE00010000000000#64
/-- A table of one step at step 0 of the table store, an extraction pattern at byte 64, and maps for the commands. -/
def cmdState : State :=
  { on { unit0 with
      steps := [(0, 1)], nextV := 0
      d := [(0, row 0 262144 0), (1, row 0 512 1), (2, row 0 256 0x100005#32), (3, row 0 1 0x100008#32), (4, row slice0 4 0x100005#32), (5, row 0 4 0x000005#32)
          , (6, row 0 4 0x008005#32), (7, row slice0 4 0x000005#32), (8, row 0 4 0x108005#32), (9, row 0 4 0x100005#32)] } with mem := [(64, 8), (65, 1)] }
theorem witness_issueVector :
    paramsOk cmdState .vrun 0 0 ∧ paramsOk cmdState .vbase 0x3FFFFFFF 0 ∧ paramsOk cmdState .vbaseL 0x13FFF0000#64 0xFFFC
    ∧ paramsOk cmdState .vhalt 0 0 ∧ paramsOk cmdState .vsend 0xF0000 0 ∧ paramsOk cmdState .vsend 0x10070000#64 0 ∧ paramsOk cmdState .vsend 0x20010000#64 0
    ∧ paramsOk cmdState .vsend 0x30000FFF#64 0 ∧ paramsOk cmdState .wdef 0x05 0 ∧ paramsOk cmdState .wdef 0x115 0 := by
  refine ⟨?_, ?_, ?_, ?_, ?_, ?_, ?_, ?_, ?_, ?_⟩ <;> simp only [paramsOk, onlyBits] <;> decide
theorem witness_issueMatrix :
    paramsOk cmdState .mbase 0 0 ∧ paramsOk cmdState .mclr 0x1F000000 0 ∧ paramsOk cmdState .mclr 0x1F3000 0 ∧ paramsOk cmdState .mshr 0x4F00000000#64 0
    ∧ paramsOk cmdState .mldb 0x100 0 ∧ paramsOk cmdState .mmul 0x1101 0 ∧ paramsOk cmdState .mdrain 0x1F0002 0 ∧ paramsOk cmdState .mdrainS 3 0 := by
  refine ⟨?_, ?_, ?_, ?_, ?_, ?_, ?_, ?_⟩ <;> simp only [paramsOk, onlyBits] <;> decide
theorem witness_issueStream :
    paramsOk cmdState .tload 0x45 0 ∧ paramsOk cmdState .tstore 0x97 0 ∧ paramsOk cmdState .tgath 0x46 0 ∧ paramsOk cmdState .tscat 0x87 0
    ∧ paramsOk cmdState .hexch 0xFFFFFFFFFFE0#64 0 ∧ paramsOk cmdState .layset 0xFFC0 0 ∧ paramsOk cmdState .laysetPass 0xFFF0 0
    ∧ paramsOk cmdState .reshard 0x77 0 ∧ paramsOk cmdState .cred 0xFFE0 0xFFF0 ∧ paramsOk cmdState .cbcast 0xFFE0 0 := by
  refine ⟨?_, ?_, ?_, ?_, ?_, ?_, ?_, ?_, ?_, ?_⟩ <;> simp only [paramsOk, copyOk] <;> decide
theorem witness_issuePattern : paramsOk cmdState .xpat 64 0 := ⟨by decide, _, _, rfl, rfl⟩
/-- A queue with 31 commands takes one more, and one with 32 holds the word; a number not above the last started one is skipped. -/
theorem witness_issueQueues :
    issueForm (.mldb 10 4 0 1 0) = some (.mldb, 10, 4, 0, 1, 0) ∧ (List.replicate 31 cmd0).length < 32 ∧ (List.replicate 32 cmd0).length = 32
    ∧ unit0.skips .mq (unit0.nextNum .mq) = false ∧ ({ unit0 with lsM := { since := [unit0.nextNum .mq] } } : Tile).skips .mq (unit0.nextNum .mq) = true
    ∧ unit0.chk = false ∧ unit0.lateStall 0 = false ∧ unit0.issueHeld 0 = false ∧ paired .cred = true ∧ (11#6).toNat % 2 = 1 := by decide

/-- A tensor-map image here, one on die 1, and a discard of one page. -/
theorem witness_mapWords :
    (∃ bs m, cmdState.imageBytes 0 128 64 = .ok bs ∧ checkImage bs = .ok m) ∧ fld (7#64) 3 61 = 0 ∧ Quiet unit0
    ∧ (let s := on { gs [(1, 0x10000)] with exts := [{ page with len := 0x20000 }] }
      Quiet s.cur ∧ (s.g (1 : BitVec 6)).toNat % 65536 = 0 ∧ s.g (1 : BitVec 6) ≠ 0 ∧ s.discardFails 0 0x10000 0x10000 = none)
    ∧ (let s := on { unit0 with exts := [{ page with plain := 2 ^ 42 }] }
      s.imageBytes 0 128 64 = .error (.away 1 (2 ^ 42 + 128) 128 []) ∧ 1 ∉ (s.die 0).unreachable) := by
  refine ⟨⟨_, _, rfl, rfl⟩, by decide, ⟨rfl, rfl, rfl, rfl⟩, ⟨⟨rfl, rfl, rfl, rfl⟩, by decide⟩, by decide⟩

/-! ## Witnesses: work -/

/-- A record of job 1 at byte 64 for tile 0 and its neighbours of die 0, in a function that owns quad 0 of die 0; the SPAWN takes one
unit, and the JOIN's counter at byte 8 holds `n`. -/
def workState (n : Byte) : State :=
  { onDie (gs [(1, 64), (2, 1), (3, 8)]) {} with
    mem := Tab.set 0 [(96, 1), (108, 0xF), (112, 1)] 8 n
    pkgs := [(0, { funcs := [(0, { quads := 0xFFFFFFFFFFFFFFFF#64, en := true })] })] }
def workRec : Rec := { job := 1, tileMask := 0xF, dieMask := 1 }
/-- The unit that `workState n` spawns is registered; the tile in focus runs on. -/
theorem work_spawns (s : State) (hr : s.levelRoom workRec = true) (hl : (s.die (s.homeDie 1)).levels = [])
    (hd : (openLevel s.bump workRec 5 1 (s.newLaunch 1)).placeDie 0 (some 0) workRec = some 0)
    (hq : (openLevel s.bump workRec 5 1 (s.newLaunch 1)).queueFull 0 0 = false) :
    ∃ u l, s.spawn 0 workRec 1 = some (u, l) ∧ u.focus = s.focus ∧ u.cur.status = s.cur.status := by
  have h := State.spawn_some (reg := 0) hr hd hq
  cases hu : s.spawn 0 workRec 1 with
  | none => rw [hu] at h; cases h
  | some x =>
    obtain ⟨h1, h2⟩ := State.spawn_fresh hl rfl rfl hu
    exact ⟨x.1, x.2, rfl, h1, by unfold State.cur; rw [h1, h2]⟩
/-- No entry above a launch that is the first of its job is cancelled. -/
theorem work_lives (s : State) (l : Nat) (hl : (s.die (s.homeDie 1)).levels = []) :
    ancestorCancelled (openLevel s.bump workRec 5 1 l) 1 5 1 l = false := by
  have h : Lv s.bump _ _ _ := openLevel_fresh s.bump workRec l hl rfl rfl
  have hf (lv id : Nat) : (openLevel s.bump workRec 5 1 l).findLevel 1 lv id = _ := h.findLevel lv id
  simp only [hf, ancestorCancelled]
  simp [workRec]
/-- The same work with the job's home on die 1. -/
def farWork (n : Byte) : State := { workState n with jobs := [(1, { placed := true, dies := [1, 0] })] }
theorem witness_spawnUnits :
    let s := workState 0
    Here s ∧ s.recordAt 64 = .ok workRec ∧ s.checkOwn workRec = .ok ∧ s.levelRoom workRec = true
    ∧ 1 ≤ 8192 * (s.maskDies 0 { workRec with job := s.jobOf s.focus }).length ∧ s.homeDie workRec.job = tileDie s.focus
    ∧ (∃ u l, s.spawn 0 workRec 1 = some (u, l) ∧ u.focus = s.focus ∧ u.cur.status = .running)
    ∧ (∀ l, ancestorCancelled (openLevel s.bump workRec 5 1 l) 1 5 1 l = false)
    ∧ Here (farWork 0) ∧ (farWork 0).recordAt 64 = .ok workRec ∧ (farWork 0).checkOwn workRec = .ok
    ∧ 1 ≤ 8192 * ((farWork 0).maskDies 0 { workRec with job := (farWork 0).jobOf 0 }).length ∧ (farWork 0).homeDie workRec.job = 1
    ∧ 1 ∉ ((farWork 0).die 0).unreachable :=
  ⟨⟨⟨rfl, rfl, rfl, rfl⟩, rfl, List.not_mem_nil⟩, by decide, by decide, by decide, by decide, by decide,
    work_spawns _ (by decide) (by decide) (by decide) (by decide), fun l => work_lives _ l (by decide), ⟨⟨rfl, rfl, rfl, rfl⟩, rfl, List.not_mem_nil⟩, by decide⟩
theorem witness_joinCounter :
    Here (workState 0) ∧ leNat ((workState 0).bytes 8 8) = 0 ∧ leNat ((workState 1).bytes 8 8) = 1 ∧ leNat ((workState 2).bytes 8 8) = 2
    ∧ (workState 1).atomicCheck 8 8 = .ok { plain := 8 } ∧ (workState 1).place 0 8 8 = .mem 8 ∧ (workState 1).foreign 0 8 = false
    ∧ (workState 1).badSector 8 8 = none ∧ (farWork 1).atomicCheck 8 8 = .ok { plain := 8 } ∧ leNat ((farWork 1).bytes 8 8) = 1
    ∧ (farWork 1).place 0 8 8 = .mem 8 ∧ (farWork 1).foreign 0 8 = false ∧ (farWork 1).badSector 8 8 = none :=
  ⟨⟨⟨rfl, rfl, rfl, rfl⟩, rfl, List.not_mem_nil⟩, by decide⟩
theorem witness_joinRegisters :
    (workState 1).joinRoom 0 workRec = true
    ∧ (∀ l, ancestorCancelled (openLevel ((workState 1).writeAtomic 8 (leBytes 8 0)).bump workRec 5 1 l) 1 5 1 l = false)
    ∧ ∃ u l, ((workState 1).writeAtomic 8 (leBytes 8 0)).spawn 0 workRec 1 = some (u, l) ∧ u.focus = (workState 1).focus ∧ u.cur.status = .running := by
  refine ⟨?_, fun l => work_lives _ l (by decide), work_spawns _ (by decide) (by decide) (by decide) (by decide)⟩
  obtain ⟨u, l, h, -⟩ := work_spawns (workState 1) (by decide) (by decide) (by decide) (by decide)
  unfold State.joinRoom
  rw [show tileDie 0 = 0 from rfl, h]
  rfl
theorem witness_unitEnds :
    unit0.cancelAt = none ∧ unit0.reports = [] ∧ unit0.journal = [] ∧ Quiet unit0 ∧ unit0.vs = none ∧ unit0.started = [] ∧ unit0.wait = none
    ∧ bit unit0.entry.cr.flags 1 = false ∧ ({ unit0 with started := [cmd0] } : Tile).started ≠ [] ∧ unit0.inh = false ∧ unit0.preemptAt = none
    ∧ ({ unit0 with preemptAt := some 0 } : Tile).preemptAt ≠ none :=
  ⟨rfl, rfl, rfl, ⟨rfl, rfl, rfl, rfl⟩, rfl, rfl, rfl, by decide⟩
/-- A table of as many events as it holds, none of them `key`, is full. -/
theorem eventRoom_full (t : Tile) (d : Die) (e : Event) (key n : Nat) (hk : key ≠ 0) (h : d.evovfSize = 0) (hn : n = Config.eventEntries) :
    (onDie t { d with events := List.replicate n (0, e) }).eventRoom 0 key = false := by
  have hf : ∀ n, Tab.find? (List.replicate n (0, e)) key = none := by
    intro n
    induction n with
    | zero => rfl
    | succ n ih =>
      rw [List.replicate_succ]
      unfold Tab.find?
      rw [if_neg (Ne.symm hk), ih]
  have hd : (onDie t { d with events := List.replicate n (0, e) }).die 0 = { d with events := List.replicate n (0, e) } := by
    unfold State.die onDie Tab.get Tab.find?
    rw [if_pos rfl, Option.getD_some]
  unfold State.eventRoom Die.blocksFree
  rw [hd, hf]
  simp [h, hn, fld]
/-- A unit whose completion event has its home on the own die, where there is room for it or none. -/
def endUnit : Tile := { unit0 with entry := { cr := { job := 1, flags := 1, event := 5 } } }
def fullDie : Die := { pending := List.replicate 64 { job := 1, name := 6, n := 1 } }
theorem witness_unitSignals :
    Quiet endUnit ∧ endUnit.vs = none ∧ endUnit.started = [] ∧ bit endUnit.entry.cr.flags 1 = false ∧ bit endUnit.entry.cr.flags 0 = true
    ∧ endUnit.entry.cr.evDie = 0 ∧ (onDie endUnit {}).signalRoom 0 1 5 1 = true ∧ 0 ∉ ((onDie endUnit {}).die 0).unreachable
    ∧ (onDie endUnit { fullDie with events := List.replicate Config.eventEntries (0, {}) }).signalRoom 0 1 5 1 = false := by
  refine ⟨⟨rfl, rfl, rfl, rfl⟩, rfl, rfl, by decide, by decide, by decide, by decide, by decide, ?_⟩
  unfold State.signalRoom
  rw [eventRoom_full endUnit fullDie {} _ _ (by decide) rfl rfl]
  rfl
/-- A level table that holds graph 7, open or closed, of a job at home on die 0, and the same word at a job with another home. -/
def levelState (l : List LevelEntry) : State := onDie (gs [(1, 0x20007), (2, 0x80000005)]) { levels := l }
def graph7 : LevelEntry := { job := 1, level := 2, id := 7, count := 1 }
def farLevel : State := { levelState [] with jobs := [(1, { placed := true, dies := [1, 0] })] }
set_option maxRecDepth 8000 in
theorem witness_cancels :
    levelSel 0x20007#64 = some (2, 7, 0) ∧ Here (levelState []) ∧ Here (levelState [graph7]) ∧ Here farLevel
    ∧ (levelState []).homeDie 1 = 0 ∧ (levelState []).findLevel 1 2 7 = none ∧ ((levelState [graph7]).cancelWork 1 2 7 0).2 = true
    ∧ ((levelState [graph7]).cancelWork 1 2 7 0).1.focus = 0 ∧ ((levelState [graph7]).cancelWork 1 2 7 0).1.cur.status = .running
    ∧ farLevel.homeDie 1 = 1 ∧ 1 ∉ (farLevel.die 0).unreachable :=
  ⟨by decide, ⟨⟨rfl, rfl, rfl, rfl⟩, rfl, List.not_mem_nil⟩, ⟨⟨rfl, rfl, rfl, rfl⟩, rfl, List.not_mem_nil⟩, ⟨⟨rfl, rfl, rfl, rfl⟩, rfl, List.not_mem_nil⟩,
    by decide⟩
/-- Two queued records, one of the launch 9 under graph 7, and one, unit 6, of no launch; tile 0 runs. -/
def record9 : Entry := { cr := { job := 1, launch := 9 } }
def record6 : Entry := { cr := { job := 1, unit := 6 } }
def markState (g : W64) : State :=
  onDie (gs [(1, g)]) { levels := [graph7, { job := 1, level := 1, id := 9, parent := some (2, 7) }], queues := [(0, [record9, record6])] }
set_option maxRecDepth 8000 in
theorem witness_cancelMarks :
    Here (markState 0x20007) ∧ Under (markState 0x20007) 1 2 7 0 record9 ∧ ¬ Under (markState 0x20007) 1 2 7 0 record6
    ∧ (markState 0x20007).findLevel 1 2 7 = some graph7 ∧ (markState 0x20007).homeDie 1 = 0 ∧ ((markState 0x20007).job 1).dies = [0]
    ∧ ((markState 0x20007).die 0).events = [] ∧ ((markState 0x20007).die 0).fwParked = []
    ∧ (∀ k ∈ dieTiles 0, ((markState 0x20007).tile k).status = .idle ∨ ((markState 0x20007).tile k).status = .running)
    ∧ levelSel 6#64 = some (0, 6, 0) ∧ Under (markState 6) 1 0 6 0 record6 ∧ ¬ Under (markState 6) 1 0 6 0 record9
    ∧ levelSel 5#64 = some (0, 5, 0) ∧ (∀ e ∈ [record9, record6, unit0.entry], ¬ Under (markState 5) 1 0 5 0 e) := by
  refine ⟨⟨⟨rfl, rfl, rfl, rfl⟩, rfl, List.not_mem_nil⟩, ?_⟩
  unfold Under
  decide
set_option maxRecDepth 8000 in
theorem witness_completes :
    let s := levelState [graph7]
    let u := levelCheck (s.modLevel 1 2 7 fun e => { e with closed := true, event := some (0, 5) }) 1 5 2 7
    let v := (levelState []).signal 0 1 5 1
    fld (0x80000005#64) 32 32 = 0 ∧ fld (0x80000005#64) 19 12 = 0 ∧ bit (0x80000005#64) 31 = true
    ∧ (levelState [{ graph7 with closed := true }]).findLevel 1 2 7 = some { graph7 with closed := true }
    ∧ s.findLevel 1 2 7 = some graph7 ∧ u.focus = 0 ∧ u.cur.status = .running
    ∧ 0 ∉ (levelState []).lost ∧ (levelState []).signalRoom 0 1 5 1 = true ∧ v.focus = 0 ∧ v.cur.status = .running := by decide
/-- Level 1 with reserved bit 27 set; level 1 with a DIE; level 5; level 4 with a DIE; the unit id 8191 of die 7, and the graph
0xFFFF. -/
theorem witness_levelSelectors :
    levelSel 0x8010000#64 = none ∧ levelSel 0x1010000#64 = none ∧ levelSel 0x50005#64 = none ∧ levelSel 0x1040005#64 = some (4, 5, 1)
    ∧ levelSel 0x7001FFF#64 = some (0, 8191, 7) ∧ levelSel 0x7002000#64 = none ∧ levelSel 0x2FFFF#64 = some (2, 0xFFFF, 0) := by decide

/-! ## Witnesses: regions, control registers, clauses, exceptions -/

/-- The bench with a handler at byte 0x100 and a trap area at byte 0x1000. -/
def trapState (t : Tile) : State := { onDie t { jobs := [(1, { trapVec := 0x100, trapArea := 0x1000 })] } with mem := [(0x28, 0x18)] }
theorem witness_regionWords :
    unit0.pfx.getD 0 = 0 ∧ unit0.ahead = false ∧ (1#2).toNat = unit0.mode ∧ unit0.vs = none ∧ unit0.started = []
    ∧ let t : Tile := { unit0 with regionState := 2, seg := some {} }
      t.mode = 2 ∧ t.ahead = false ∧ (t.segIssue 0).seg.isSome ∧ ({ t with seg := some { void := true } } : Tile).mode = 2 := by decide
/-- A segment entry at byte 64 that asks for no cycles and for the signature of the one SEGEND word in hand, here a word of zeros,
whose CRC-32C is 0x48674BC7. -/
def segState : State :=
  { on { unit0 with regionState := 2, seg := some {}, word := 0 } with mem := [(80, 0xC7), (81, 0x4B), (82, 0x67), (83, 0x48)] }
set_option maxRecDepth 4000 in
theorem witness_segmentEntry :
    (segState.cur.segIssue (segState.dcc 0)).seg = some { start := some 0, crc := 0xB798B438#32 }
    ∧ (∃ img, segState.loadImage 0 64 24 true = .ok img ∧ bytesAt img 0x10 4 = (~~~(0xB798B438#32)).toNat ∧ bytesAt img 0xC 4 = 0)
    ∧ (let s := on { segState.cur with exts := [{ page with plain := 2 ^ 42 }] }
      s.loadImage 0 64 24 true = .error (.away 1 (2 ^ 42 + 64) 64 []) ∧ 1 ∉ (s.die 0).unreachable) :=
  ⟨by decide, ⟨(List.range 24).map fun i => segState.byte (64 + i), by decide, by decide, by decide⟩, by decide⟩
theorem witness_controlWords :
    unit0.ahead = false ∧ (0x114#13).toNat ∉ 0x112 :: 0x113 :: capValues.map (·.1) ∧ (on unit0).pkgName 0 < 1024 ∧ bit (0x1010100#64) 24 = true ∧ bufphOk 0x1010100#64 = true ∧ bit (0#64) 24 = false ∧ (0x90#13).toNat ∈ [0x21, 0x30, 0x31, 0x32, 0x40, 0x41, 0x42, 0x43, 0x44, 0x70, 0x80, 0x81, 0x83, 0x90]
    ∧ (0x1FFF#13).toNat ∉ [0x20, 0x21, 0x30, 0x31, 0x32, 0x40, 0x41, 0x42, 0x43, 0x44, 0x61, 0x63, 0x70, 0x80, 0x81, 0x83, 0x90] := by decide
/-- The word after a clause of 8: not a prefix, and a prefix. -/
theorem witness_clauseWords :
    (on unit0).fetchWord 0 (0 + 4 * BitVec.ofNat 64 ((7#3).toNat + 1)) = .ok 0 ∧ fld (0#32) 25 7 ≠ 0x1F
    ∧ ({ on unit0 with mem := [(35, 0x3E)] } : State).fetchWord 0 32 = .ok 0x3E000000#32 ∧ fld (0x3E000000#32) 25 7 = 0x1F := by
  refine ⟨rfl, by decide, rfl, by decide⟩

theorem cutReady_trapState (t : Tile) (h : t.ahead = false ∧ t.status = .running ∧ t.vs = none ∧ t.started = [] ∧ t.wait = none) :
    CutReady (trapState t) := by
  refine ⟨h.1, h.2.1, h.2.2.1, h.2.2.2.1, h.2.2.2.2, ?_, ?_⟩
  · intro x hx
    simp [trapState, onDie, on, State.die, State.reset, Tab.get, Tab.find?, tileDie] at hx
  · intro x hx
    have : x ∈ ([] : List (Nat × Request)) := hx
    cases this
theorem witness_handlerEntry :
    CutReady (trapState unit0) ∧ (trapState unit0).cur.inh = false ∧ HandlerReady (trapState unit0) 0x1000
    ∧ (0x1E : Nat) ≠ 0 ∧ 0x1E ≠ Cls.uncorrectable :=
  ⟨cutReady_trapState _ ⟨rfl, rfl, rfl, rfl, rfl⟩, rfl, ⟨by decide, ⟨_, rfl⟩, _, rfl, rfl, rfl⟩, by decide, by decide⟩
theorem witness_doubleFault :
    let t : Tile := { unit0 with inh := true }
    CutReady (trapState t) ∧ Quiet t ∧ bit t.entry.cr.flags 1 = false ∧ (trapState t).cur.inh = true ∧ fld ((trapState t).jobRegs 0).dmap 48 8 = 0
    ∧ (on unit0).handlerVa 0 = 0 :=
  ⟨cutReady_trapState _ ⟨rfl, rfl, rfl, rfl, rfl⟩, ⟨rfl, rfl, rfl, rfl⟩, by decide, rfl, by decide, by decide⟩
/-- A return whose record (at byte 0x1000) holds the pc 8 and the open clause 0x18. -/
def returnState : State := { trapState { unit0 with inh := true } with mem := [(0x1000, 8), (0x1028, 0x18)] }
set_option maxRecDepth 8000 in
theorem witness_returnWord :
    returnState.cur.handlerDone = true ∧ returnState.cur.cutV = none ∧ returnState.cur.cutM = none ∧ returnState.cur.cutC = none
    ∧ returnState.cur.cancelAt = none ∧ (returnState.readRecord 0).map (fun bs => (recWord bs 0x28 8, recWord bs 0 8)) = some (0x18, 8)
    ∧ returnState.retranslate 0 = .ok [page] :=
  ⟨by decide, rfl, rfl, rfl, rfl, by decide, by decide⟩

/-! ## Witnesses: micro-orders -/

/-- A table of two steps whose command names every register, accumulator, the slice and the streams. -/
def run0 : VsRun := { cmd := { cmd0 with kind := .vrun, p1 := 0x3FFFFFFFFFF#64 }, body := 0, tagOff := 0, steps := 2, ns := 1, rot := false, bank := false, n := 1 }
def vsState (v : VsRun) : State :=
  on { unit0 with vs := some v, m := [(0, { val := 0x3F800000#32, tag := 24 })], steps := [(1, 0x81000000#32)]
                  streams := [(3, { defined := true, map := row 0 64 5, queue := [.lanes [{ val := 1, tag := 24 }] 0] })] }
def lastStep (v : VsRun) : VsRun := { v with upc := 1 }
set_option maxRecDepth 8000 in
theorem witness_vectorLanes :
    (laneForm (vsState run0) run0 (.vmul 0x10 0 0)).map (fun r => (r.1, r.2.1.all run0.mayRead, r.2.2.1.length, (r.2.2.2 0).bits, (r.2.2.2 63).bits))
      = some (0x10, true, 64, 0x3F800000, 0)
    ∧ run0.mayWrite (mop 0x10) = true ∧ (lastStep run0).upc + 1 = (lastStep run0).steps ∧ (lastStep run0).levels = []
    ∧ laneTrap 0 [(0, 0), (63, 0)] = none ∧ ({ run0 with cmd := cmd0 } : VsRun).mayWrite (mop 0x10) = false := by decide
theorem witness_vectorTests :
    TableAt (vsState run0) run0 ∧ TableAt (vsState (lastStep run0)) (lastStep run0)
    ∧ (testForm (vsState run0) run0 (.vsigq 7 0 24)).map (fun r => (r.1, r.2.1.all run0.mayRead, (r.2.2 0).1, (r.2.2 1).1)) = some (7, true, false, true)
    ∧ (testForm (vsState run0) run0 (.vkset 0 0x70 5)).map (fun r => (r.1, (r.2.2 63).1)) = some (0, true)
    ∧ laneTrap 0 [(0, 0)] = none := by
  refine ⟨⟨rfl, .inl (by decide)⟩, ⟨rfl, .inr rfl⟩, by decide, by decide, by decide⟩
set_option maxRecDepth 8000 in
theorem witness_vectorScalars :
    (scalarForm (vsState run0) run0 (.vzmovLane 15 0 63)).map (fun r => (r.1, r.2.1.all run0.mayRead, r.2.2)) = some (15, true, {}, 0)
    ∧ (scalarForm (vsState run0) run0 (.vrmax 1 0)).map (fun r => (r.1, r.2.1.all run0.mayRead, r.2.2.1.val, flagTrap 0 r.2.2.2))
      = some (1, true, 0x3F800000#32, none) := by decide
theorem witness_vectorControl :
    let s := vsState run0
    s.cur.vs = some run0 ∧ s.cur.stepTag run0 run0.upc = 0 ∧ run0.levels.length < 4 ∧ run0.upc + 1 < run0.steps
    ∧ s.cur.matchEnd { run0 with steps := 3 } 2 1 0 = some 2
    ∧ ({ run0 with levels := [{ count := 2, start := 1 }] } : VsRun).levels = [] ++ [{ count := 2, start := 1 }]
    ∧ run0.wait = none ∧ run0.granted = false ∧ s.cur.canTake 63 255 = false
    ∧ ({ s.cur with tokens := [(63, 255)] } : Tile).canTake 63 255 = true := by decide
/-- Offsets at the end of the slice: 64 lanes of 4 bytes end at 2^22, and a tagged access lies below its last quarter. -/
theorem witness_vectorMemory :
    let s := vsState run0
    run0.slice = true ∧ 0x3FFF00 % 4 = 0 ∧ 0x3FFF00 + 64 * 4 ≤ 2 ^ 22 ∧ (∀ l ∈ s.cur.stepLanes run0, 0x3FFF00 + 4 * l + 4 ≤ 2 ^ 22)
    ∧ (∀ l ∈ s.cur.stepLanes run0, 0x2FFF00 + 4 * l < 0x300000 ∧ s.badSector (sliceBase 0 + (0x2FFF00 + 4 * l)) 4 = none
      ∧ s.badSector (sliceBase 0 + tagOffset (0x2FFF00 + 4 * l)) 1 = none)
    ∧ run0.mayRead (mop 0) = true ∧ run0.pops = true ∧ s.cur.feeds 3 = false ∧ (Tab.get {} s.cur.streams 3).live = true
    ∧ (Tab.get {} s.cur.streams 3).queue = [.lanes [{ val := 1, tag := 24 }] 0] := by decide
/-- The same slice with a sector that cannot be corrected, which lane 0's store meets. -/
theorem witness_vectorStoreTraps :
    let s : State := { vsState run0 with dies := [(0, { badSectors := [sliceBase 0 / 256] })] }
    run0.mayRead (mop 0) = true ∧ run0.slice = true ∧ (∃ r, s.cur.stepLanes run0 = 0 :: r) ∧ (s.badSector (sliceBase 0 + 0) 4).isSome = true :=
  ⟨by decide, by decide, ⟨_, rfl⟩, by decide⟩
/-- With no trap enabled no lane's flags trap. -/
theorem noTraps (fs : List (Nat × Nat)) : laneTrap run0.cmd.fpc fs = none := by
  have h : ∀ n, flagTrap run0.cmd.fpc n = none := by
    intro n
    unfold flagTrap
    rw [show fld run0.cmd.fpc 8 5 = 0 from rfl, show bit run0.cmd.fpc 18 = false from rfl, Nat.and_zero]
    simp
  have f (c : Nat) : fs.find? (fun p => decide (flagTrap run0.cmd.fpc p.2 = some c)) = none :=
    List.find?_eq_none.2 fun x _ => by simp [h]
  unfold laneTrap
  rw [f, f]
  rfl
/-- Accumulator 3: row 0 with a value and none, row 1 with INV, row 2 with OVF. -/
def accState : State := on { (vsState run0).cur with acc := [(accKey 3 0 1, 5)], rows := [(97, { inv := true }), (98, { ovf := true })] }
theorem witness_vectorAccumulators :
    TableAt accState run0 ∧ (∀ fs, laneTrap run0.cmd.fpc fs = none)
    ∧ run0.mayReadAcc 3 = true ∧ run0.mayWrite (mop 0x80) = true ∧ run0.mayRead (mop 0x80) = true ∧ accState.cur.ixOf run0 0 / 32 % 2 = 0 ∧ (3#8).toNat < 4
    ∧ accState.cur.accVal 3 0 0 = 0 ∧ accState.cur.accVal 3 0 1 ≠ 0 ∧ (accState.cur.row 3 0).inv = false ∧ (accState.cur.row 3 1).inv = true
    ∧ (accState.cur.row 3 2).inv = false ∧ (accState.cur.row 3 2).ovf = true :=
  ⟨⟨rfl, .inl (by decide)⟩, noTraps, by decide⟩
/-- Register m0 holds 1.0 in lane 0 and zeros in the others; and a NaN. -/
theorem witness_vectorQuantise :
    TableAt (vsState run0) run0 ∧ (∀ fs, laneTrap run0.cmd.fpc fs = none) ∧ (mop 0x80).dir = 0 ∧ run0.mayWrite (mop 0x80) = true
    ∧ run0.mayRead (mop 0) = true ∧ 0 ∈ (vsState run0).cur.stepLanes run0 ∧ ((vsState run0).cur.mGet ((vsState run0).cur.mref run0 (mop 0)) 0).fv.isNan = false
    ∧ (∀ i ∈ (vsState run0).cur.stepLanes run0, i = 0 ∨ ((vsState run0).cur.mGet ((vsState run0).cur.mref run0 (mop 0)) i).val = 0)
    ∧ ({ val := 0x7FC00000#32 } : VElem).fv.isNan = true ∧ (mop 0x84).dir ≠ 0 :=
  ⟨⟨rfl, .inl (by decide)⟩, noTraps, by decide⟩

/-! ## Witnesses: writes from outside, launches, reset, clocks -/

/-- Function 1 of package 0 holds quad 0 and the ASIDs 8 to 15; package 1 stands at 2, 1, 3; a unit runs on tile 0. -/
def sharedState : State :=
  { on unit0 with pkgs := [(0, { funcs := [(1, { quads := 1, asidWord := 0x808 })], bootStatus := 3 }), (1, { member := true, px := 2, py := 1, pz := 3 })] }
set_option maxRecDepth 100000 in
theorem witness_registerWrites :
    (State.reset.pkg 0).runs .fieldFirmware = true ∧ (sharedState.pkg 0).runs .fieldFirmware = false ∧ (sharedState.pkg 0).runs .rootMonitor = true
    ∧ (sharedState.pkg 0).runs .host = true ∧ Agent.host ≠ .rootMonitor
    ∧ (sharedState.shares 0 15 fun x => x.quads &&& 2 ≠ 0) = false ∧ (sharedState.shares 0 15 fun x => asidsMeet x.asidWord 0x810) = false
    ∧ (∃ g x, g ≠ 0 ∧ (g, x) ∈ (sharedState.pkg 0).funcs ∧ x.quads &&& 1 ≠ 0) ∧ (sharedState.pkg 0).recovery = false
    ∧ 0x7FFC + [1, 2, 3, 4].length ≤ 0x8000 ∧ 0x8000 < 0x7FFD + [1, 2, 3, 4].length ∧ State.reset.place (plainDie 0xFFFFFFFFF) 0xFFFFFFFFF 1 = .mem 0xFFFFFFFFF
    ∧ sharedState.pkgIdle 0 = false ∧ sharedState.pkgIdle 1 = true ∧ (sharedState.pkg 1023).member = false
    ∧ (∀ q ∈ sharedState.pkgs, q.1 ≠ 1 → q.2.member = true → (q.2.px, q.2.py, q.2.pz) ≠ (7, 7, 15))
    ∧ (∃ q ∈ sharedState.pkgs, q.1 ≠ 0 ∧ q.2.member = true ∧ (q.2.px, q.2.py, q.2.pz) = (2, 1, 3))
    ∧ Tab.find? sharedState.owners 5 ≠ some 15 := by
  refine ⟨rfl, rfl, rfl, rfl, by decide, rfl, rfl, ⟨1, { quads := 1, asidWord := 0x808 }, by decide⟩, rfl, by decide, by decide, rfl, by decide, by decide, rfl, by decide,
    ⟨(1, { member := true, px := 2, py := 1, pz := 3 }), by decide⟩, by decide⟩

/-- A record set aside whose page the firmware is asked for, and one that waits for a migration; a page of function 1, and its quad. -/
def managedState : State :=
  { sharedState with owners := [(5, 1)], dies := [(0, { aside := [(1, { entry := unit0.entry, asked := some 0x10000 }), (2, { entry := unit0.entry })] })] }
set_option maxRecDepth 8000 in
theorem witness_managementWrites :
    (managedState.pkg 0).runs .rootMonitor = true ∧ (State.reset.pkg 0).runs .fieldFirmware = true
    ∧ Tab.find? (managedState.die 0).aside 1 = some { entry := unit0.entry, asked := some 0x10000 }
    ∧ Tab.find? (managedState.die 0).aside 2 = some { entry := unit0.entry }
    ∧ managedState.place 0 0 4 = .mem 0 ∧ managedState.foreign Config.managementFid 0 = false ∧ managedState.tenantSlice 0 = false
    ∧ managedState.place 0 (5 * 2 ^ 21) 4 = .mem (5 * 2 ^ 21) ∧ managedState.foreign Config.managementFid (5 * 2 ^ 21) = true
    ∧ managedState.place 0 (sliceBase 0) 4 = .mem (sliceBase 0) ∧ managedState.tenantSlice (sliceBase 0) = true
    ∧ managedState.place 0 (mkPlain 0 3 0xF000200040) 8 = .hub 0xF000200040 ∧ hubPlace (hubOff 0xF000200040) = .block 1 0
    ∧ ((managedState.setPkg 0 { recovery := true }).pkg 0).recovery = true := by decide

/-- Slot 255 of function 0 of package 0 holds one unit of job 1 with the stamp 7; the queue's one entry is held. -/
def slotBytes0 : Tab Byte := [(0x7FA0, 1), (0x7FAC, 1), (0x7FB0, 1), (0x7FFC, 7)]
def launchState (en flrb : Bool) (sl : Slot) (l : List HostLaunch) : State :=
  { State.reset with
    jobs := [(1, { placed := true, fid := 0, dies := [0], launches := l })]
    pkgs := [(0, { funcs := [(0, { quads := 0xFF, en := en, flrb := flrb, window := slotBytes0, slots := [(255, sl)] })] })] }
def launch0 : HostLaunch := { launch := 9, pkg := 0, fid := 0, slot := 255, tmpl := { job := 1, tileMask := 1, dieMask := 1 }, count := 2, cqtag := 0 }
set_option maxRecDepth 20000 in
theorem witness_launchNotify :
    ((launchState true false {} []).pkg 0).recovery = false ∧ ((State.reset.setPkg 0 { recovery := true }).pkg 0).recovery = true ∧ (∀ sl, ((launchState false false sl []).func 0 0).en = false) ∧ (slotOf (launchState true false { busy := true } []) 0 0 255).busy = true
    ∧ ((launchState true false {} []).func 0 0).en = true ∧ ((launchState true false {} []).func 0 0).flrb = false
    ∧ (slotOf (launchState true false {} []) 0 0 255).busy = false ∧ (slotOf (launchState true false { stamp := some 7 } []) 0 0 255).stamp = some 7
    ∧ bytesAt (((launchState true false {} []).func 0 0).slotBytes 255) 0x7C 4 = 7 := by
  refine ⟨rfl, rfl, fun _ => rfl, ?_⟩
  decide
set_option maxRecDepth 20000 in
theorem witness_launchAccepted : slotOk (launchState true false {} []) 0 0 255 := by
  unfold slotOk
  decide
theorem witness_launchReread :
    (slotOf (launchState true false { busy := true, notify := some (7, 63) } []) 0 0 255).notify = some (7, 63)
    ∧ (slotOf (launchState true false { busy := true, notify := some (8, 0) } []) 0 0 255).notify = some (8, 0) := by decide
theorem witness_launchUnits :
    let s := launchState true false {} [launch0]
    (s.job 1).launches.find? (fun y => y.launch = launch0.launch && !y.waiting && !(s.func y.pkg y.fid).flrb) = some launch0
    ∧ s.placeDie 0 none launch0.tmpl = some 0 ∧ ancestorCancelled s 1 5 1 9 = false ∧ s.queueFull 0 launch0.tmpl.prio = false ∧ launch0.next + 1 < launch0.count := by decide
/-- A queue size of 6 and of 16 may be enabled, and 5 and 17 may not. -/
theorem witness_queueSizes :
    ((0x20006#64) &&& 0xE001F#64).toNat % 32 = 6 ∧ ((0x20010#64) &&& 0xE001F#64).toNat % 32 = 16 ∧ ((0x20005#64) &&& 0xE001F#64).toNat % 32 < 6
    ∧ 16 < ((0x20011#64) &&& 0xE001F#64).toNat % 32 ∧ ((0x20011#64) &&& 0xE001F#64).getLsbD 17 = true := by decide
theorem witness_functionReset :
    ((launchState true false {} []).func 0 0).flrb = false ∧ (∀ d, ∀ b ∈ ((launchState true false {} []).die d).bars, b.2.waiters = [])
    ∧ ((launchState true true {} []).func 0 0).flrb = true ∧ (launchState true true {} []).flrDrained 0 0 = true
    ∧ ({ launchState true true {} [] with tiles := [(0, { unit0 with status := .cutting .flr, storeQ := [sent] })] } : State).flrDrained 0 0 = false := by
  refine ⟨rfl, ?_, rfl, by decide, by decide⟩
  intro d b hb
  simp [launchState, State.reset, State.die, Tab.get, Tab.find?] at hb
/-- Images of one byte of body: with no MAGIC, and with MAGIC and SVN 1. -/
def badImage : FwImage := { bytes := List.replicate 177 0 }
def image : FwImage := { bytes := [0x49, 0x4D, 0x49, 0x47, 1, 0, 0, 0, 1] ++ List.replicate 168 0 }
set_option maxRecDepth 20000 in
theorem witness_bootAndUpdate :
    (State.reset.pkg 0).slotA = none ∧ (State.reset.pkg 0).fieldB = none ∧ (State.reset.pkg 0).rootFirstB = false ∧ (State.reset.pkg 0).fieldFirstB = false
    ∧ badImage.accepted (State.reset.pkg 0).fusedSvn = false ∧ image.accepted 2 = false
    ∧ image.accepted 1 = (Config.signatureHolds (image.bytes.take 0x40) 0 0 && decide (Config.sha384 [0] = 0)) := by
  refine ⟨rfl, rfl, rfl, rfl, by decide, ?_, ?_⟩
  all_goals
    have h1 : image.magic = 0x47494D49 := by decide
    have h2 : image.body = [0] := by decide
    have h3 : image.len = 1 := by decide
    have h4 : image.sigR = 0 := by decide
    have h5 : image.sigS = 0 := by decide
    have h6 : image.digest = 0 := by decide
    have h7 : image.svn = 1 := by decide
    have h8 : image.reserved = 0 := by decide
    simp [FwImage.accepted, h1, h2, h3, h4, h5, h6, h7, h8]
theorem witness_attestation :
    (State.reset.pkg 0).recovery = false ∧ (State.reset.func 0 0).flrb = false ∧ ((launchState true true {} []).func 0 0).flrb = true := by decide
theorem witness_clocksAndScrub :
    1200 ≤ State.reset.capHigh 0 ∧ State.reset.capHigh 0 < 3601 ∧ State.reset.hubPtc 0 < (State.reset.pkg 0).pwrAt + 1000000
    ∧ (({ State.reset with ns := 1000000 } : State).pkg 0).pwrAt + 1000000 ≤ ({ State.reset with ns := 1000000 } : State).hubPtc 0 ∧
    (State.reset.die 0).stretch = 0 ∧ (State.reset.die 0).power = 0 ∧ (2 ^ 33 - 1 : Nat) < 2 ^ 33
    ∧ Tab.find? ({ scrubs := [(1, 5)] } : Die).scrubs (mkPlain 0 0 (256 * 1) / 256) = some 5 := by decide

/-! ## Witnesses: the scheduler, the firmware, the engines -/

/-- Die 0 with the entries given at level 0, and job 1 placed in a function that owns every quad. -/
def schedState (q : List Entry) (t : Tile) (d : Die) : State :=
  { onDie t { d with queues := if q = [] then [] else [(0, q)] } with
    pkgs := [(0, { funcs := [(0, { quads := 0xFFFFFFFFFFFFFFFF#64, en := true })] })] }
def entry0 : Entry := { cr := { job := 1, code := 0x40, state := 5, frame := 6, tileMask := 1, dieMask := 1 }, index := 3 }
set_option maxRecDepth 8000 in
theorem witness_dispatch :
    let s := schedState [entry0] {} {}
    s.popChoice 0 = some (0, entry0, 0) ∧ (∀ x ∈ s.queueAt 0 0, s.agedNow 0 x.cr = false) ∧ entry0.cr.isCanc = false ∧ entry0.frame = none
    ∧ tileDie 0 = 0 ∧ s.translate 0 (s.job entry0.cr.job).asid entry0.cr = .ok [] ∧ bit entry0.cr.flags 2 = false := by decide
/-- A record with one footprint entry whose page is being migrated; its list stands in a page of its own. -/
def migratingDie : Die :=
  { asids := [(0, { root := 0, fid := 0, job := 1, tagBase := 0, live := true })]
    cache := [{ asid := 0, page := 0, plain := 0, bits := 0x07 }, { asid := 0, page := 1, plain := 0x10000, bits := 0x87 }] }
def entry1 : Entry := { entry0 with cr := { entry0.cr with foot := 64, nfoot := 1 } }
set_option maxRecDepth 8000 in
theorem witness_dispatchMigrating :
    let s := { schedState [entry1] {} migratingDie with mem := [(66, 1), (72, 0), (74, 1), (76, 1)] }
    s.popChoice 0 = some (0, entry1, 0) ∧ s.translate 0 (s.job 1).asid entry1.cr = .migrating 0x10000 := by decide
/-- The same record where the page of its footprint is not mapped, set aside and not, reported and not. -/
def unmappedState (a : List (Nat × Parked)) : State :=
  { schedState [entry1] {} { migratingDie with cache := [{ asid := 0, page := 0, plain := 0, bits := 0x07 }], aside := a } with
    mem := [(66, 1), (72, 0), (74, 1), (76, 1)] }
set_option maxRecDepth 8000 in
theorem witness_dispatchUnmapped :
    let s := unmappedState []
    s.popChoice 0 = some (0, entry1, 0) ∧ s.translate 0 (s.job 1).asid entry1.cr = .unmapped 0x10000 ∧ (0x10000 : Nat) ∉ entry1.reported
    ∧ tileDie 0 = 0 ∧ entry1.cr.isCanc = false ∧ entry1.frame = none := by decide
set_option maxRecDepth 8000 in
theorem witness_translation :
    let told : Entry := { entry1 with reported := [0x10000] }
    let s := unmappedState [(1, { entry := entry1, asked := some 0x10000 }), (2, { entry := told, asked := some 0x10000 }), (3, { entry := entry0 })]
    Tab.find? (s.die 0).aside 1 = some { entry := entry1, asked := some 0x10000 } ∧ s.translate 0 (s.job 1).asid told.cr = .unmapped 0x10000
    ∧ (0x10000 : Nat) ∈ told.reported ∧ told.cr.isCanc = false ∧ s.translate 0 (s.job 1).asid entry0.cr = .ok []
    ∧ ({ schedState [] {} { migratingDie with aside := [(1, { entry := entry1 })] } with mem := [(66, 1), (72, 0), (74, 1), (76, 1)] } : State).translate 0 0 entry1.cr
      = .migrating 0x10000 := by decide
/-- A record that has waited for AGELIMIT, raised to the highest level. -/
theorem witness_aging :
    let s : State := { State.reset with ns := 5, dies := [(0, { ageLimit := 4, queues := [(255, [{ entry0 with cr := { entry0.cr with prio := 255 } }])] })] }
    s.agedNow 0 { entry0.cr with prio := 255 } = true ∧ (255 : Nat) ≤ 255 ∧ min (255 + 16) 255 = 255 := by decide
/-- Two levels, where a record that no tile admits stands before the one popped; and two levels of records due and not due to age. -/
def noTile : Entry := { entry0 with cr := { entry0.cr with tileMask := 0 } }
def high : Entry := { entry0 with cr := { entry0.cr with prio := 16 } }
def highNoTile : Entry := { high with cr := { high.cr with tileMask := 0 } }
def levels2 : State :=
  { schedState [] {} {} with dies := [(0, { queues := [(0, [entry0]), (16, [highNoTile, high])] })] }
set_option maxRecDepth 8000 in
theorem witness_popRule :
    levels2.popChoice 0 = some (16, high, 0) ∧ ((levels2.die 0).queues.map Prod.fst).Pairwise (· < ·)
    ∧ (schedState [noTile] {} {}).popChoice 0 = none := by decide
def late (n : Nat) (e : Entry) : Entry := { e with cr := { e.cr with enqt := 3 }, index := n }
def agingState : State :=
  { State.reset with ns := 5, dies := [(0, { ageLimit := 4, queues := [(0, [late 1 entry0, entry0]), (16, [high, late 2 high])] })] }
set_option maxRecDepth 8000 in
theorem witness_agingRule :
    ((agingState.die 0).queues.map Prod.fst).Pairwise (· < ·)
    ∧ (∀ l ∈ (agingState.die 0).queues, l.2.Nodup ∧ l.1 ≤ 255 ∧ ∀ e ∈ l.2, e.cr.isCanc = false ∧ e.cr.prio = l.1)
    ∧ agingState.agedNow 0 entry0.cr = true ∧ agingState.agedNow 0 (late 1 entry0).cr = false ∧ agingState.agedNow 0 high.cr = true := by decide
theorem atRest_on (t : Tile) (d : Die) (h : Quiet t ∧ t.status = .running ∧ t.vs = none ∧ t.started = [] ∧ t.wait = none ∧ t.pfx = none ∧ t.takers = [])
    (hd : d.bars = []) : AtRest (onDie t d) 0 := by
  refine ⟨h.1, h.2.1, h.2.2.1, h.2.2.2.1, h.2.2.2.2.1, h.2.2.2.2.2.1, h.2.2.2.2.2.2, ?_⟩
  intro b hb
  have : (onDie t d).die (tileDie 0) = d := by simp [onDie, on, State.reset, State.die, Tab.get, Tab.find?, tileDie]
  rw [this, hd] at hb
  cases hb
/-- A pre-emption at its limit, with a frame free and with none; a cancel at its limit. -/
theorem witness_forcedSave :
    AtRest (onDie { unit0 with preemptAt := some 0 } { jobs := [(1, { frames := 1 })] }) 0
    ∧ let s := { onDie { unit0 with preemptAt := some 0 } { jobs := [(1, { frames := 1 })] } with ns := 50000 }
      0 + fld (s.die 0).preemptLimit 0 32 ≤ s.ptc 0 ∧ s.framesFree 0 1 = 1 ∧ (onDie unit0 {}).framesFree 0 1 = 0
      ∧ (({ unit0 with saveAsked := true } : Tile).saveAsked = true ∧ unit0.saveAsked = false) ∧ fld ({ preemptLimit := 0 } : Die).preemptLimit 0 32 = 0
      ∧ (onDie { unit0 with preemptAt := some 0 } {}).ptc 0 < 0 + fld ((onDie unit0 {}).die 0).preemptLimit 0 32 :=
  ⟨atRest_on _ _ ⟨⟨rfl, rfl, rfl, rfl⟩, rfl, rfl, rfl, rfl, rfl, rfl⟩ rfl, by decide⟩
theorem witness_cancelLimit :
    AtRest (onDie { unit0 with cancelAt := some 0 } { levels := [{ job := 1, level := 1, id := 0, count := 2 }] }) 0
    ∧ (onDie unit0 { levels := [{ job := 1, level := 1, id := 0, count := 2 }] }).findLevel 1 1 0 = some { job := 1, level := 1, id := 0, count := 2 } :=
  ⟨atRest_on _ _ ⟨⟨rfl, rfl, rfl, rfl⟩, rfl, rfl, rfl, rfl, rfl, rfl⟩ rfl, by decide⟩
/-- The same with the job's home on die 1. -/
theorem witness_cancelLimitFar :
    let s := { onDie { unit0 with cancelAt := some 0 } {} with jobs := [(1, { placed := true, dies := [1, 0] })] }
    AtRest s 0 ∧ s.homeDie 1 = 1 ∧ 1 ∉ (s.die 0).unreachable ∧ 0 + fld ({ s with ns := 50000 }.die 0).preemptLimit 0 32 ≤ { s with ns := 50000 }.ptc 0 :=
  ⟨atRest_on { unit0 with cancelAt := some 0 } {} ⟨⟨rfl, rfl, rfl, rfl⟩, rfl, rfl, rfl, rfl, rfl, rfl⟩ rfl, by decide⟩

def parkedRec : Parked := { entry := entry0, event := evKey 1 5, thr := 3 }
theorem witness_firmwareWork :
    let s := schedState [] {} { fwParked := [(2, parkedRec)], events := [(evKey 1 5, { count := 3 })], pending := [{ job := 1, name := 5, n := 4 }] }
    Tab.find? (s.die 0).fwParked 2 = some parkedRec ∧ parkedRec.launch = none ∧ parkedRec.thr ≤ (s.eventAt 0 parkedRec.event).count
    ∧ ((schedState [] {} {}).eventAt 0 parkedRec.event).count < parkedRec.thr ∧ (schedState [] {} {}).waiterRoom 0 parkedRec.event = true
    ∧ (s.die 0).pending = { job := 1, name := 5, n := 4 } :: [] ∧ s.eventRoom 0 (evKey 1 5) = true ∧ (∀ q ∈ s.reqs, q.2.kept = false)
    ∧ (∀ x ∈ s.dies, ∀ y ∈ x.2.levels, y.closed = true → y.count ≠ 0) ∧ parkedRec.entry.cr.isCanc = false := by decide
def fullEvents : Die := { events := (List.range Config.eventEntries).map fun i => (i, { count := 1 }) }
set_option maxRecDepth 100000 in
theorem witness_firmwareFull :
    (onDie unit0 fullEvents).eventRoom 0 (evKey 1 5) = false ∧ (onDie unit0 fullEvents).waiterRoom 0 (evKey 1 5) = false := by decide
theorem witness_jobClose :
    let s (n : Nat) := schedState [] {} { levels := [{ job := 1, level := 4, id := 1, count := n }] }
    ((s 0).job 1).placed = true ∧ (s 0).findLevel 1 4 1 = some { job := 1, level := 4, id := 1, count := 0 }
    ∧ (s 1).findLevel 1 4 1 = some { job := 1, level := 4, id := 1, count := 1 } ∧ ((s 1).die 0).events = []
    ∧ (∀ k ∈ dieTiles 0, ((s 1).tile k).status = .idle ∨ ((s 1).tile k).status = .running) := by
  refine ⟨rfl, by decide, by decide, rfl, by decide⟩

def cmdOf (k : CmdKind) (p0 p1 : W64) : Cmd := { kind := k, seq := 0, atag := 0x40, pos := 4, clause := 0, p0 := p0, p1 := p1 }
theorem engineQuiet_unit0 : EngineQuiet unit0 := ⟨rfl, rfl, rfl, rfl⟩
/-- Each queue's head, a gate with its token and without, a dependence edge, and a completion with its token. -/
theorem witness_commandSteps :
    ({ unit0 with mq := [cmdOf .mclr 0x1F000000 0] } : Tile).getQ (queueNo 1) = [cmdOf .mclr 0x1F000000 0] ∧ Queue.slotOf .mclr = queueNo 1
    ∧ Queue.slotOf .vrun = queueNo 0 ∧ unit0.unresolved (cmdOf .mclr 0x1F000000 0) = false ∧ (cmdOf .mclr 0x1F000000 0).time = 0
    ∧ (cmdOf .mclr 0x1F000000 0).unstamped = false ∧ (cmdOf .mclr 0x1F000000 0).gateSince = none
    ∧ ({ unit0 with tokens := [(63, 1)] } : Tile).canTake 63 1 = true ∧ unit0.canTake 63 1 = false ∧ (cmdOf .vbase 0 0).sets = []
    ∧ ({ unit0 with started := [cmdOf .mldb 0 0], mq := [{ cmdOf .mmul 0 0 with pos := 5, preds := [4] }] } : Tile).unresolved { cmdOf .mmul 0 0 with pos := 5, preds := [4] } = true
    ∧ ({ unit0 with started := [cmdOf .mclr 0 0] } : Tile).started.find? (fun x => x.pos = 4) = some (cmdOf .mclr 0 0)
    ∧ fld (cmdOf .vsend 0x000F0000 0).p0 28 2 = 0 ∧ ({ run0 with done := true } : VsRun).done = true ∧ run0.done = false ∧ run0.halt = false := by decide
/-- A map whose strides are all 0 names one element over and over. -/
def still (base : W64) (n : Nat) (fmt : W32) : TMap := { row base n fmt with strC := 0 }
theorem elemAt_still (n i : Nat) : (still 0 n 1).elemAt i none = .ok { addr := 0, nib := none } := by
  simp [TMap.elemAt, still, row, TMap.coords, TMap.bits, TMap.bytes, TMap.format, fmtBits, fld, TMap.swizzle, TMap.swz, bit]
/-- A row of one chunk: A is one i8 element of the page over and over, and the weights were never written. -/
def mmul0 : Cmd := { cmdOf .mmul 0x100 0 with m0 := still 0 512 1 }
def chunkState : State := { onDie { unit0 with started := [mmul0] } {} with cycles := 2000 }
theorem witness_chunk :
    (chunkState.tile 0).started.find? (fun x => x.kind == CmdKind.mmul && decide (x.chunk < x.chunks)) = some mmul0
    ∧ mmul0.startedAt + (mmul0.chunk - mmul0.elem + 1) * (chunkState.tile 0).chunkCycles mmul0 + 12 ≤ chunkState.dcc 0
    ∧ kRows ((chunkState.tile 0).bCode (setOf mmul0.p0)) = kRows ((chunkState.tile 0).bCode (1 - setOf mmul0.p0)) ∧ rowsOf mmul0.p0 = 1
    ∧ (chunkState.tile 0).setBad (setOf mmul0.p0) = false
    ∧ ({ chunkState.tile 0 with badB := [setOf mmul0.p0 * 512] } : Tile).setBad (setOf mmul0.p0) = true := by decide
theorem read_still (n : Nat) : chunkState.readElemAt 0 (still 0 512 1) n none false = .ok 0 := by
  unfold State.readElemAt
  rw [elemAt_still]
  decide
theorem witness_chunkElements (n : Nat) : chunkState.aElem 0 mmul0.m0 n = .ok 0 := by
  unfold State.aElem
  rw [show mmul0.m0 = still 0 512 1 from rfl, read_still]
  decide
theorem witness_chunkSwizzle (n : Nat) : chunkState.aSwizzle 0 mmul0.m0 n = none ∧ ∀ e ∈ (chunkState.tile 0).exts, e.revoked = false := by
  refine ⟨?_, by decide⟩
  unfold State.aSwizzle
  rw [show mmul0.m0 = still 0 512 1 from rfl, elemAt_still]
  decide
/-- Record 2 has delivered one entry of 65 elements: its next entry holds the last one. A map below the page faults at once. -/
def streamState (m : TMap) : State := onDie { unit0 with streams := [(2, { defined := true, map := m, next := 1 })] } {}
theorem witness_streamFill :
    let w := Tab.get {} ((streamState (still 0 65 1)).tile 0).streams 2
    ((streamState (still 0 65 1)).tile 0).isIdle = false ∧ w.defined = true ∧ w.stopped = false ∧ w.src = none ∧ w.map.xpe = false
    ∧ 64 * w.next < w.map.count ∧ w.queue.length < 32 ∧ 64 * w.next + 0 < w.map.count ∧ ¬ (64 * w.next + 1 < w.map.count)
    ∧ (streamState (still 0 65 1)).streamElem 0 w 64 none = .ok { bits := 0 }
    ∧ (streamState (still 0x10000#64 65 1)).streamElem 0 { w with map := still 0x10000#64 65 1 } 64 none = .error (Cls.extent, 0x10000#64) := by decide
theorem witness_gating :
    let s := { onDie unit0 {} with cycles := 257 }
    ((s.tile 0).cim 1).gated = false ∧ ((s.tile 0).cim 1).wakeEnd = none ∧ (s.tile 0).setBusy 1 = false ∧ fld (s.die 0).cimGate 0 16 = 256
    ∧ ((s.tile 0).cim 1).idleSince + 256 < s.dcc 0 ∧ ({ s with cycles := 256 } : State).dcc 0 ≤ 0 + 256
    ∧ (({ unit0 with cim1 := { gated := true, wakeEnd := some 257 } } : Tile).cim 1).wakeEnd = some 257 := by decide
theorem witness_lateLeg :
    let c : Cmd := { cmdOf .cred 0 0 with late := true, legFault := some (0x11, 5) }
    EngineQuiet { unit0 with started := [c] } ∧ ({ unit0 with started := [c] } : Tile).started.find? (fun x => x.pos = 4) = some c ∧ c.legs = 0
    ∧ c.legFault = some ((0x11#8).toNat, 5) ∧ c.allFailed = false
    ∧ ({ cmdOf .hexch 0 0 with late := true, legFault := some (0x11, 5), faces := 1, failed := [3] } : Cmd).allFailed = true :=
  ⟨⟨rfl, rfl, rfl, rfl⟩, by decide⟩
theorem cutNow_trapState (t : Tile) (h : t.status = .running ∧ t.vs = none ∧ t.started = [] ∧ t.journal = [] ∧ t.inh = false ∧ t.pfx = none
    ∧ t.awaiting = false ∧ t.storeQ = []) : CutNow (trapState t) := by
  obtain ⟨h1, h2, h3, h4, h5, h6, h7, h8⟩ := h
  refine ⟨h1, h2, h3, h4, h5, h6, h7, h8, ?_, ?_⟩
  · intro x hx
    simp [trapState, onDie, on, State.die, State.reset, Tab.get, Tab.find?, tileDie] at hx
  · intro x hx
    have : x ∈ ([] : List (Nat × Request)) := hx
    cases this
/-- A command in strict mode with slack 0 whose stamp (TIME 1, at cycle 1) has gone by one cycle. -/
theorem witness_lateWaits :
    let c : Cmd := { cmdOf .mclr 0x8000000000000#64 0 with oldestAt := some 0 }
    let t : Tile := { unit0 with regionState := 2, mq := [c] }
    CutNow (trapState t) ∧ HandlerReady (trapState unit0) 0x1000 ∧ t.missed 1000000 c = true ∧ c.gateTaken = false
    ∧ let w : Wait := { on := .token 63 1, since := 5, bound := some 64, parked := true }
      CutNow (trapState { unit0 with wait := some w }) ∧ w.since + 64 < 70 ∧ ¬ (w.since + 64 < 69)
      ∧ ({ unit0 with status := .cutting (.trap { cls := 7 }) } : Tile).holding = false
      ∧ ({ unit0 with status := .cutting (.trap { cls := 7 }), started := [c] } : Tile).holding = true :=
  ⟨cutNow_trapState _ ⟨rfl, rfl, rfl, rfl, rfl, rfl, rfl, rfl⟩, ⟨by decide, ⟨_, rfl⟩, _, rfl, rfl, rfl⟩, by decide, rfl,
    cutNow_trapState _ ⟨rfl, rfl, rfl, rfl, rfl, rfl, rfl, rfl⟩, by decide, by decide, by decide, by decide⟩
set_option maxRecDepth 8000 in
/-- R404: a WDEF of record 0 takes away the index source of live record 1, whose next entry is marked with ILLEGAL_OP. -/
theorem test_wdefTakesSource :
    (match runWdef (onDie { unit0 with streams := [(0, { defined := true, map := still 0 65 1 }), (1, { defined := true, map := still 0 65 1, src := some 0 })] } {})
        0 { cmdOf .wdef 0 0 with m0 := still 0 65 1 } with
      | .ok s _ => decide ((Tab.get {} ((s.fillStream 0 1).tile 0).streams 1).queue = [.fault Cls.illegalOp 0])
      | _ => false) = true := by decide

/-! ## Witnesses: requests at their homes, translation, the network -/

/-- The bench with one request of tile 0 to die 1 of the same package, number 4. -/
def req0 : Request := { tile := 0, fid := 0, job := 1, src := 0, dst := 1, op := .load 0x40000000000 8, sink := .g 63 8 false, addr := 64, deadline := 900000, logged := false }
def reqState (r : Request) (d : Die) : State := { on unit0 with dies := [(1, d)], reqs := [(4, r)], nextId := 5 }
def amo0 : Request := { req0 with op := .amo 0 0x40000000000 8 (BitVec.allOnes 64) 0 0, logged := true }
theorem witness_homeAccess :
    AtDoor (reqState req0 {}) 0 1 4 req0 ∧ (reqState req0 {}).foreign 0 0x40000000000 = false
    ∧ (reqState req0 {}).place 1 0x40000000000 8 = .mem 0x40000000000 ∧ (reqState req0 {}).badSector 0x40000000000 8 = none
    ∧ AtDoor (reqState amo0 {}) 0 1 4 amo0 ∧ (reqState amo0 {}).atqRefused amo0 = false
    ∧ (reqState amo0 {}).ptc 1 + 2 * Config.podNs < amo0.deadline ∧ ({ amo0 with deadline := 0 } : Request).deadline ≤ (reqState amo0 {}).ptc 1 + 2 * Config.podNs := by
  refine ⟨⟨by decide, by decide, by decide, rfl, by decide, by decide, by decide⟩, by decide, by decide, by decide, ⟨by decide, by decide, by decide, rfl, by decide, by decide, by decide⟩, by decide⟩
/-- An AMAXF of a signalling NaN with FPC's invalid trap enabled and without, and an atomic past the end of die 1's HBM. -/
def maxf0 (fpc : W64) : Request := { amo0 with op := .amo 8 0x40000000000 4 0x7F800001 24 fpc }
def beyond0 : Request := { amo0 with op := .amo 0 0x4FFFFFFFFC 8 1 0 0 }
theorem witness_loggedForms :
    AtDoor (reqState (maxf0 0) {}) 0 1 4 (maxf0 0) ∧ AtDoor (reqState (maxf0 0x1000) {}) 0 1 4 (maxf0 0x1000) ∧ AtDoor (reqState beyond0 {}) 0 1 4 beyond0
    ∧ (reqState (maxf0 0) {}).place 1 0x40000000000 4 = .mem 0x40000000000 ∧ flagTrap 0 (codeFloat 8 0 0x7F800001 24 0).2 = none
    ∧ (flagTrap 0x1000 (codeFloat 8 0 0x7F800001 24 0x1000).2).isSome = true ∧ (reqState beyond0 {}).place 1 0x4FFFFFFFFC 8 = .bad := by
  refine ⟨⟨by decide, by decide, by decide, rfl, by decide, by decide, by decide⟩, ⟨by decide, by decide, by decide, rfl, by decide, by decide, by decide⟩,
    ⟨by decide, by decide, by decide, rfl, by decide, by decide, by decide⟩, by decide⟩
/-- A reservation at its home, of an open sequence with a block free, and of a sealed one. -/
def res0 : Request := { req0 with op := .sqRes handle0 1, logged := true }
theorem witness_reservedAtHome :
    let s (x : Seqn) := reqState res0 { seqDie0 with seqs := [(0, x)] }
    AtDoor (s seq0) 0 1 4 res0 ∧ (s seq0).atqRefused res0 = false ∧ (s seq0).ptc 1 + 2 * Config.podNs < res0.deadline
    ∧ (s seq0).seqOf 1 handle0 1 = some seq0 ∧ (s seq0).seqBusy 4 handle0 = false ∧ seq0.sealed = false ∧ seq0.rc + 1 ≤ seq0.cap
    ∧ (∀ b, 1 ≤ ((s seq0).jobDie (blockDie 1 seq0.blkDies b) seq0.job).pool.length)
    ∧ AtDoor (s { seq0 with sealed := true }) 0 1 4 res0 ∧ (s { seq0 with sealed := true }).seqOf 1 handle0 1 = some { seq0 with sealed := true } :=
  ⟨⟨by decide, by decide, by decide, rfl, by decide, by decide, by decide⟩, by decide, by decide, by decide, by decide, by decide, by decide,
    fun _ => (by decide : 1 ≤ 2), ⟨by decide, by decide, by decide, rfl, by decide, by decide, by decide⟩, by decide⟩
/-- A response on its way back, for each register, and for none. -/
def answered0 (k : Sink) : Request := { req0 with sink := k, answer := some (.value 0x3F800000 1), ansNo := 5 }
theorem witness_responses :
    ∀ k ∈ [Sink.g 63 8 false, .g 1 4 true, .f 31 none, .discardValue],
      let s := reqState (answered0 k) {}
      Tab.find? s.reqs 4 = some (answered0 k) ∧ Returns s (answered0 k) ∧ (s.tile 0).status = .running ∧ flagTrap (s.tile 0).fpc 1 = none
      ∧ s.ptc 0 < (answered0 k).deadline ∧ k.undated = false ∧ ({ s with ns := 900000 } : State).linked 1 0 = true
      ∧ ({ s with ns := 900000 } : State).lsFirst 1 0 5 = true ∧ (answered0 k).deadline ≤ ({ s with ns := 900000 } : State).ptc 0 := by
  unfold Returns
  decide
def posted0 : Request := { req0 with op := .store 0x40000000000 [7], sink := .posted, deadline := 5 }
theorem witness_homeAnswers :
    ((reqState req0 {}).tile 0).status = .running ∧ (reqState req0 {}).ptc 0 < req0.deadline
    ∧ posted0.deadline ≤ ({ reqState posted0 {} with ns := 5 } : State).ptc 0 ∧ EngineQuiet { unit0 with posted := [{ id := 4, addr := 64 }] }
    ∧ (∃ x ∈ ({ unit0 with posted := [{ id := 4, addr := 64 }] } : Tile).posted, x.id = 4) :=
  ⟨rfl, by decide, by decide, ⟨rfl, rfl, rfl, rfl⟩, _, List.mem_singleton_self _, rfl⟩
/-- A wait for a length at its home: for one that CL has reached, for one past the end of a sealed sequence, and for one to come. -/
def kept0 (k : Nat) : Request := { req0 with op := .sqWait handle0 k, kept := true }
theorem witness_homeWaits :
    let s := reqState (kept0 1) { seqDie0 with seqs := [(0, seq0)] }
    s.seqOf 1 handle0 1 = some seq0 ∧ s.seqBusy 4 handle0 = false ∧ (kept0 1).answer = none ∧ 1 ≤ seq0.cl ∧ seq0.cl < 2 ∧ seq0.sealed = false
    ∧ ({ seq0 with sealed := true } : Seqn).rc < 4 ∧ (0 : Nat) ≤ s.ptc 1 + 2 * Config.podNs ∧ s.ptc 1 + 2 * Config.podNs < (kept0 1).deadline := by decide
/-- A kept request for blocks whose time is over, one that ATQ has called refused, and one in time. -/
def room0 (d : Nat) : Request := { req0 with op := .sqRes handle0 1, kept := true, deadline := d, logged := true, tag := 3 }
theorem witness_homeRefusal :
    let s (n d : Nat) := reqState (room0 d) { logs := [(0, { first := 0, entries := [(3, { tag := 3, state := n, opc := 0, job := 1, result := 0 })] })] }
    (room0 5).deadline ≤ (s 0 5).ptc 1 + 2 * Config.podNs ∧ (s 2 900000).atqRefused (room0 900000) = true ∧ (s 0 900000).atqRefused (room0 900000) = false
    ∧ (s 0 900000).ptc 1 + 2 * Config.podNs < (room0 900000).deadline ∧ 1 ∉ (s 0 5).lost ∧ (room0 5).answer = none ∧ (room0 5).src ≠ (room0 5).dst := by decide

/-- Tile 0 holds grant 2 of its job's sequence; a narrowing of it is on its way, and then its acknowledgement. -/
def narrowState (m : Msg) (t : Tile) : State :=
  { on { t with grants := [(2, { handle := handle0, blk := 0, plain := 0, wlo := 8, whi := 65536, stamp := 0, age := 0 })] } with
    dies := [(0, seqDie0)], msgs := [(3, m)], nextId := 4, reqs := [(9, { req0 with src := 1, dst := 0, op := .sqCom handle0 1 1, kept := true, acks := [3] })] }
theorem witness_narrowing :
    let s := narrowState (.narrow 0 0 0 2 0 16 9 false handle0 0) unit0
    s.linked 0 (tileDie 0) = true ∧ s.linked (tileDie 0) 0 = true ∧ 0 = tileDie 0 ∧ s.runsUnit 0 1 0 = true ∧ (Tab.find? (s.tile 0).grants 2).isSome = true ∧ (3 : Nat) < s.nextId
    ∧ (∀ x ∈ s.reqs, x.1 ≠ 9 → x.2.kept = false) ∧ (s.tile 0).storesThrough 2 = false
    ∧ (((narrowState (.narrowAck 0 0 0 2 0 3 9) unit0).jobDie 0 1).saved.any fun v => v.2.key = 0 && v.2.tile.entry.cr.unitId = 0 && v.2.tile.storesThrough 2) = false
    ∧ ((narrowState (.narrowAck 0 0 0 2 0 3 9) { unit0 with storeQ := [{ sent with grant := some 2 }] }).tile 0).storesThrough 2 = true := by decide
/-- A translation table of four levels, at 0x10000, 0x20000, 0x30000 and 0x40000, with a leaf for page 0. -/
def tableState : State :=
  { onDie unit0 { asids := [(0, { root := 0x10000, fid := 0, job := 1, tagBase := 0, live := true })] } with
    mem := [(0x10000, 1), (0x10002, 2), (0x20000, 1), (0x20002, 3), (0x30000, 1), (0x30002, 4), (0x40000, 0x81), (0x40002, 5), (0x40008, 0x81), (0x4000A, 6)] }
set_option maxRecDepth 8000 in
theorem witness_pteChange :
    ¬ ((tableState.pinnedPage 1 0x10000 = true ∧ tableState.leafWord (tableState.homeDie 1) (tableState.job 1).asid 0x10000 ≠ 0) ∨ 2 ^ 48 ≤ 0x10000 ∨ (tableState.job 1).placed = false
      ∨ ((0x50081#64).getLsbD 0 = true ∧ tableState.foreign (tableState.job 1).fid ((0x50081#64).toNat / 256 % 2 ^ 47 * 256) = true))
    ∧ (tableState.job 1).dies = [0] ∧ leafSlot tableState 0 0x10000 4 0x10000 = some 0x40008
    ∧ tableState.pinnedPage 1 0 = true ∧ tableState.leafWord (tableState.homeDie 1) (tableState.job 1).asid 0 ≠ 0
    ∧ leafSlot (onDie unit0 migratingDie) 0 0 4 0 = none ∧ (onDie unit0 {}).leafWord ((onDie unit0 {}).homeDie 1) 0 0 = 0 := by decide
/-- A revocation of page 0 that tile 0 has not been told of, has been told of, and has acknowledged. -/
def rev0 : Revocation := { job := 1, vbase := 0, len := 65536, waiting := [0], unsent := [] }
theorem witness_revocation :
    0 ∈ ({ rev0 with unsent := [0] } : Revocation).unsent ∧ 0 ∈ rev0.waiting ∧ 0 ∉ rev0.unsent ∧ (on unit0).jobOf 0 = 1
    ∧ (on unit0).legsOpen 0 1 = false ∧ ({ on unit0 with msgs := [(3, .slab 0 4 0 3 1 0 0 16 0 [] none)] } : State).legsOpen 0 1 = true
    ∧ (on unit0).accessOpen 0 0 65536 = false ∧ (on unit0).reqOpen 0 1 0 65536 = false ∧ (reqState req0 {}).reqOpen 0 1 0 65536 = true ∧ (on { unit0 with storeQ := [sent] }).accessOpen 0 0 65536 = true
    ∧ ({ rev0 with waiting := [] } : Revocation).waiting = [] ∧ rev0.todo = [] ∧ rev0.discard = none ∧ ({ rev0 with todo := [0] } : Revocation).todo ≠ []
    ∧ ({ unit0 with wait := some { on := .discard 4, since := 0, bound := none, parked := true } } : Tile).wait
      = some { on := .discard 4, since := 0, bound := none, parked := true } := by decide
set_option maxRecDepth 8000 in
theorem witness_migration :
    let s := onDie unit0 { migratingDie with asids := [] }
    let e := s.leafWord (s.homeDie 1) (s.job 1).asid 0x10000
    e / 128 % 2 = 1 ∧ e % 2 = 1 ∧ 0x20000 % 65536 = 0 ∧ leafDecodes s 0 0x20000 65536 = true ∧ s.foreign (s.job 1).fid 0x20000 = false ∧ s.revs = []
    ∧ s.resolve (s.homeDie 1) (e / 65536 * 65536) 65536 = some 0x10000 ∧ s.resolve (s.homeDie 1) 0x20000 65536 = some 0x20000
    ∧ ∀ d, (Tab.get { root := 0, fid := 0, job := 0, tagBase := 0, live := false } (s.die d).asids (s.job 1).asid).live = false := by
  refine ⟨by decide, by decide, by decide, by decide, by decide, rfl, by decide, by decide, fun d => ?_⟩
  have : (onDie unit0 { migratingDie with asids := [] }).die d = if d = 0 then { migratingDie with asids := [] } else {} := by
    by_cases h : d = 0
    · subst h; rfl
    · have h' : ¬ 0 = d := fun e => h e.symm
      simp [onDie, on, State.die, State.reset, Tab.get, Tab.find?, h, h']
  simp only [this]
  split <;> rfl
/-- A healthy die of a package that stands alone, one whose port 6 has sent flit 5 again 16 times, one whose time reference has
failed, one whose links are all down, and a pod of two packages. -/
theorem witness_network :
    let stopped : State := { State.reset with dies := [(0, { ptcStop := some 7 })], ns := 2000000 }
    let cut : State := { State.reset with
      pkgs := [(0, { linksDownAt := some 0 })], ns := 2000000
      dies := (List.range 8).map fun d => (d, { linkState := (List.range 6).map fun p => (p, 2) }) }
    let worn : State := { State.reset with dies := [(0, { retrans := [(9, 15), (32773, 15), (200709, 16)] })] }
    let pod : State := { State.reset with pkgs := [(0, { member := true }), (1, { member := true, px := 1 })], npx := 2, npy := 1, npz := 1 }
    flitTriesOf worn 0 6 1 5 = 16 ∧ flitTriesOf worn 0 0 0 9 = 15 ∧ worn.linkFails 0 1 = false
    ∧ worn.neighbour 0 0 = some 1 ∧ State.reset.linkFails 0 6 = false
    ∧ diePkg 8 ≠ pod.timeMaster ∧ pod.peers pod.timeMaster (diePkg 8) = true ∧ (pod.route (8 * pod.timeMaster) (8 * diePkg 8)).isSome = true ∧ diePkg 0 = pod.timeMaster
    ∧ stopped.reqs = [] ∧ (stopped.die 0).colls = [] ∧ (stopped.die 0).jobs = [] ∧ (stopped.die 0).queues = [] ∧ 0 ∉ stopped.lost
    ∧ (∀ k ∈ dieTiles 0, (stopped.tile k).preemptAt = none ∧ (stopped.tile k).cancelAt = none)
    ∧ Tab.get 0 (stopped.pkg 0).syncReply 0 + 2000000 ≤ stopped.hubPtc 0 ∧ State.reset.hubPtc 0 < Tab.get 0 (State.reset.pkg 0).syncReply 0 + 2000000
    ∧ 0 + 2000000 ≤ cut.hubPtc cut.timeMaster ∧ Tab.get 0 (State.reset.die 0).linkState 6 ≠ 2 ∧ State.reset.neighbour 0 0 = some 1 ∧ (State.reset.die 0).ptcStop = none
    ∧ (State.reset.die 0).lastSync + 65536 ≤ ({ State.reset with ns := 65536 } : State).ns ∧ 0 ∉ State.reset.lost
    ∧ (stopped.die 0).ptcStop = some 7 ∧ Tab.get 0 (stopped.pkg 0).syncReply 0 + 2000000 ≤ stopped.ns
    ∧ (cut.pkg 0).linksDownAt = some 0 ∧ cut.pkgCut 0 = true ∧ 0 + 2000000 ≤ cut.ns ∧ ({ cut with dies := [] } : State).pkgCut 0 = false := by decide
theorem witness_lossNotice :
    let s := { onDie unit0 {} with lost := [5] }
    5 ∈ s.lost ∧ 5 ∉ (s.die 0).lost ∧ 0 ∉ s.lost ∧ s.reqs = [] ∧ s.msgs = [] ∧ (s.die 5).seqs = []
    ∧ (∀ j ∈ s.jobs, ¬ (j.2.placed = true ∧ 5 ∈ j.2.dies ∧ 0 ∈ j.2.dies)) := by decide

/-! ## Witnesses: the torus, resharding, collectives -/

/-- A HEXCH of tile 0 with two legs, and the messages given, in a job placed on dies 0 and 1. -/
def torusState (m : List (Nat × Msg)) (d : Die) : State :=
  { on { unit0 with started := [{ cmdOf .hexch 0 0 with legs := 2 }] } with
    dies := [(0, d)], jobs := [(1, { placed := true, dies := [0, 1] })], msgs := m, nextId := 9 }
def slab0 : Msg := .slab 0 4 0 3 1 0 0 16 0 [(some 0x1000, none, 0xABCD)] none
def barDie : Die := { jobs := [(1, { barRange := 0x0103#64 })], bars := [(3, { count := 7 })] }
def img0 : LaySlot := { kind := 1, fmt := 1, ext := [8], blk := [8], nown := 2, owners := [0, 0] }
theorem witness_torus :
    let s := torusState [(3, slab0)] barDie
    0 ∈ ({ s with lost := [0] } : State).lost ∧ 0 ∉ s.lost ∧ img0.kind ≠ 0 ∧
    (3 : Nat) < s.nextId ∧ (Tab.keys s.msgs).Nodup ∧ ((s.tile 0).started.any fun c => c.pos = 4) = true ∧ Tab.find? s.msgs 3 = some slab0
    ∧ s.barOk 0 1 3 = true ∧ (s.barAt 0 3).waiters = [] ∧ (torusState [] {}).barOk 0 1 3 = false ∧ s.resolve 0 0x1000 (16 / 8) = some 0x1000
    ∧ s.oldestImage 3 1 = true ∧ s.oldestInstall 3 0 1 = true ∧ (∀ d ∈ (s.job 1).dies, d ∉ s.lost)
    ∧ s.linked (tileDie 0) 0 = true ∧ s.linked (s.homeDie 1) 0 = true ∧ s.putRefused 0 0 (some 0x1000, none, 0xABCD) = false
    ∧ ({ s with owners := [(0, 1)] } : State).putRefused 0 0 (some 0x1000, none, 0xABCD) = true
    ∧ fld (s.jobDie 0 1).layArea 0 32 < s.layUsed 0 1 + img0.nown
    ∧ (torusState [] { jobs := [(1, { layArea := 2 })] }).layUsed 0 1 + img0.nown ≤ fld ((torusState [] { jobs := [(1, { layArea := 2 })] }).jobDie 0 1).layArea 0 32
    ∧ (s.jobDie 0 1).reshard = none ∧ ((torusState [] { jobs := [(1, { reshard := some { tile := 0, pos := 4, s := 0, t := 1, t0 := 5, rank := 0 } })] }).jobDie 0 1).reshard.isSome = true := by
  decide

/-- A RESHARD of slots 0 and 1 at T0 = 100 with one pass, on dies 0 and 1; `ds` names the dies of the placement. -/
def reshard0 (rank : Nat) : Reshard := { tile := 0, pos := 4, s := 0, t := 1, t0 := 100, rank := rank }
def reshardState (ds : List Nat) (r q : Reshard) (ns : Nat) (m : List (Nat × Msg)) : State :=
  let j (r : Reshard) : JobDie :=
    { slots := [(0, img0), (1, img0)], passes := some [{ xmask := 1, off := 10, slack := 5 }], reshard := some r }
  { on { unit0 with started := [{ cmdOf .reshard 0 0 with legs := 1 }] } with
    dies := [(0, { jobs := [(1, j r)] }), (1, { jobs := [(1, j q)] })], jobs := [(1, { placed := true, dies := ds })], msgs := m, nextId := 9, ns := ns }
def ready0 : Reshard := { reshard0 0 with sent := true, readys := [(1, 0, 0, 1, 100)] }
def ready1 : Reshard := { reshard0 1 with sent := true, readys := [(0, 0, 0, 1, 100)] }
theorem witness_reshardPass :
    let s (r q : Reshard) (ns : Nat) := reshardState [0, 1] r q ns [(3, .ready 1 1 0 0 0 1 100)]
    let p : Pass := { xmask := 1, off := 10, slack := 5 }
    (s (reshard0 0) ready1 115).curPass 0 1 (reshard0 0) = some p ∧ (s (reshard0 0) ready1 115).partner 1 (reshard0 0) p = 1
    ∧ 110 ≤ (s (reshard0 0) ready1 110).ptc 0 ∧ (s (reshard0 0) ready1 110).ptc 0 ≤ 115 ∧ 115 < (s (reshard0 0) ready1 116).ptc 0
    ∧ Tab.find? (s (reshard0 0) ready1 110).msgs 3 = some (.ready 1 1 0 0 0 1 100) ∧ (reshard0 0).sent = false ∧ (reshard0 0).readyFrom 1 = none
    ∧ ready0.readyFrom 1 = some true ∧ ready0.moved = false ∧ ((s ready0 ready1 115).jobDie 1 1).reshard = some ready1 ∧ ready1.readyFrom 0 = some true
    ∧ ready0.pass + 1 = (((s ready0 ready1 115).jobDie 0 1).passes.getD []).length ∧ ((s ready0 ready1 115).jobDie 0 1).lastT0 = none := by decide
/-- A partner's READY of other slots, before the die's own READY and after it, and one that comes past the slack; an abort of
another RESHARD, and one that the die has had already. -/
theorem witness_reshardMismatch :
    let s (r : Reshard) (ns : Nat) := reshardState [0, 1] r ready1 ns [(3, .ready 1 1 0 0 0 2 100), (4, .ready 1 1 0 0 0 1 100), (5, .abort 1 1 0 99 0x18 7)]
    let other : Reshard := { reshard0 0 with readys := [(1, 0, 0, 2, 100)] }
    other.readyFrom 1 = some false ∧ other.sent = false ∧ 110 ≤ (s other 110).ptc 0 ∧ Tab.find? (s ready0 110).msgs 3 = some (.ready 1 1 0 0 0 2 ready0.t0)
    ∧ ready0.sent = true ∧ 2 ≠ ready0.t ∧ Tab.find? (s ready0 116).msgs 4 = some (.ready 1 1 0 0 ready0.s ready0.t ready0.t0) ∧ 100 + 10 + 5 < (s ready0 116).ptc 0
    ∧ Tab.find? (s ready0 110).msgs 5 = some (.abort 1 1 0 99 0x18 7) ∧ 99 ≠ ready0.t0 ∧ ((s ready0 110).jobDie 0 1).lastAbort ≠ some 99 := by decide
/-- A pass whose READYs are both in, before, at and past the time of the next one, whose READY is not in, or is of other slots. -/
def aheadState (l : List Pass) (r : Reshard) (ns : Nat) : State :=
  { reshardState [0, 1] r ready1 ns [] with
    dies := [(0, { jobs := [(1, { slots := [(0, img0), (1, img0)], passes := some l, reshard := some r })] })] }
theorem witness_reshardAhead :
    let p : Pass := { xmask := 1, off := 10, slack := 5 }
    let n : Pass := { xmask := 1, off := 20, slack := 5 }
    let s := aheadState [p, n] ready0
    let q : Reshard := { ready0 with pass := 1 }
    let bad : Reshard := { ready0 with readys := (1, 1, 0, 2, 100) :: ready0.readys }
    (s 112).curPass 0 1 ready0 = some p ∧ (s 112).passMet 1 ready0 p = true ∧ (s 112).curPass 0 1 q = some n ∧ (s 112).ptc 0 < 120
    ∧ 120 ≤ (s 120).ptc 0 ∧ (s 120).ptc 0 < 125 ∧ q.readyFrom ((s 120).partner 1 q n) ≠ some false ∧ 125 ≤ (s 125).ptc 0
    ∧ (aheadState [p, n] bad 120).passMet 1 bad p = true
    ∧ ({ bad with pass := 1 } : Reshard).readyFrom ((aheadState [p, n] bad 120).partner 1 { bad with pass := 1 } n) = some false
    ∧ (aheadState [p] ready0 112).curPass 0 1 q = none ∧ (aheadState [p] { ready0 with readys := [] } 112).passMet 1 { ready0 with readys := [] } p = false := by decide
/-- The source and target runs of die 0 are block 0: mapped, not mapped, and on a page of another function. -/
def img1 : LaySlot := { img0 with ext := [8, 1, 1, 1], blk := [8, 1, 1, 1] }
theorem witness_reshardRuns :
    let s (o : Tab Nat) : State := { reshardState [0, 1] ready0 ready1 115 [] with
      owners := o
      dies := [(0, { resolver := [(0, { target := 0x20000, refs := 1 })], jobs := [(1, { slots := [(0, img1), (1, img1)], reshard := some ready0 })] })
              , (1, { jobs := [(1, { slots := [(0, img1), (1, img1)], reshard := some ready1 })] })] }
    (s []).runsBad 0 1 ready0.s ready0.t = false ∧ (s []).runsBad 1 1 ready0.s ready0.t = false ∧ (s []).linked 0 1 = true
    ∧ (s [(0, 1)]).runsBad 0 1 ready0.s ready0.t = true ∧ ({ s [] with dies := [(0, { jobs := ((s []).die 0).jobs })] } : State).runsBad 0 1 ready0.s ready0.t = true := by decide
theorem witness_reshardEnd :
    let s (m : Msg) := reshardState [0, 1] { ready0 with reports := [0] } ready1 115 [(3, m)]
    (s (.report 1 1 0 100)).linked 1 0 = true ∧ (s (.report 1 1 0 100)).linked ((s (.report 1 1 0 100)).homeDie 1) 0 = true
    ∧ Tab.find? (s (.abort 1 1 0 100 0x18 7)).msgs 3 = some (.abort 1 1 0 ready0.t0 0x18 7) ∧ Tab.find? (s (.report 1 1 0 100)).msgs 3 = some (.report 1 1 0 ready0.t0)
    ∧ (∀ d ∈ ((s (.report 1 1 0 100)).job 1).dies, d = 1 ∨ d ∈ [0]) ∧ Tab.find? (s (.commit 1 0 100)).msgs 3 = some (.commit 1 0 ready0.t0)
    ∧ (s (.commit 1 0 100)).oldestInstall 3 0 1 = true ∧ ((reshardState [0] (reshard0 0) ready1 100 []).job 1).dies.length = 1
    ∧ (reshard0 0).t0 ≤ (reshardState [0] (reshard0 0) ready1 100 []).ptc 0 ∧ (reshardState [0] (reshard0 0) ready1 99 []).ptc 0 < (reshard0 0).t0 := by decide

/-- A collective of dies 0 (its root) and 1 of the package, with OP 4 and one element, DEADLINE 1000. -/
def box0 : CollBox := { x0 := 0, y0 := 0, z0 := 0, sx := 2, sy := 1, sz := 1 }
def part0 : Partial := { value := List.replicate 8 1, count := 1, present := [1], op := 1, len := 1, deadline := 1000 }
def local0 : CollLocal := { tile := 0, pos := 4, buf := some 0x1000, op := 1, len := 1 }
def slot0 : CollSlot := { box := box0, deadline := 1000, inputs := [(0, part0)], loc := some local0 }
def collState (die : Nat) (c : Option CollSlot) (ns : Nat) : State :=
  { on { unit0 with started := [{ cmdOf .cred 0 0 with legs := 1 }] } with
    dies := [(die, { colls := (c.map fun c => (collKey 1 5, c)).toList })]
    msgs := [(3, .part 1 5 1 die 0 box0 part0), (4, .result 1 5 1 die box0 part0)], nextId := 9, ns := ns }
set_option maxRecDepth 4000 in
theorem witness_partials :
    let s := collState 0 (some slot0) 1000
    s.linked 0 0 = true ∧ s.ptc 0 ≤ part0.deadline ∧ 0 ∉ s.lost ∧ (collState 0 none 1000).coll 0 (collKey 1 5) = none ∧ ((collState 0 none 1000).die 0).colls.length < 64
    ∧ (collKey 1 5, part0.deadline) ∉ ((collState 0 none 1000).die 0).collsGone ∧ s.coll 0 (collKey 1 5) = some slot0 ∧ slot0.state = .gather
    ∧ Tab.find? slot0.inputs 1 = none ∧ part0.deadline < (collState 0 none 1001).ptc 0 ∧ slot0.folded = some part0
    ∧ s.outPort box0 1 = some 1 ∧ s.neighbour 1 1 = some 0 ∧ s.hops box0 1 = 1 ∧ s.outPort box0 0 = none := by decide
set_option maxRecDepth 4000 in
theorem witness_collectives :
    let s := collState 0 (some slot0) 1000
    s.expComplete 0 slot0 = false ∧ slot0.deadline ≤ s.ptc 0 ∧ s.expComplete 0 { slot0 with inputs := [(0, part0), (1, part0)] } = true
    ∧ (delivery box0 local0 part0).1.length = 24 ∧ s.resolve 0 0x1000 24 = some 0x1000 ∧ (collState 0 none 999).ptc 0 < slot0.deadline
    ∧ (collState 1 (some { slot0 with loc := none }) 900).expComplete 1 { slot0 with loc := none } = true
    ∧ slot0.deadline ≤ (collState 1 none 900).ptc 1 + 100 * (collState 1 none 900).hops box0 1
    ∧ (collState 1 none 899).ptc 1 + 100 * (collState 1 none 899).hops box0 1 < slot0.deadline
    ∧ slot0.deadline + 50000 ≤ (collState 0 none 51000).ptc 0 ∧ (collState 0 none 50999).ptc 0 < slot0.deadline + 50000
    ∧ s.ptc 0 < slot0.deadline + 50000 ∧ s.ptc 0 ≤ slot0.deadline ∧ ({ part0 with bcast := true } : Partial).bcast = true ∧ part0.bcast = false ∧ slot0.state ≠ .done
    ∧ (collState 0 (some { slot0 with inputs := [] }) 51000).outPort box0 0 = none ∧ ({ slot0 with inputs := [] } : CollSlot).folded = none
    ∧ slot0.state = .gather ∧ ({ slot0 with state := .sent } : CollSlot).state ≠ .gather ∧ local0.op ≠ 6
    ∧ s.resolve 0 0x1000 16 = some 0x1000 ∧ ({ local0 with op := 6 } : CollLocal).op = 6 ∧ slot0.deadline < (collState 0 none 1001).ptc 0 := by decide

/-! ## Witnesses: words and steps -/

theorem witness_wordsRoundTrip : wellFormed (.ld 7 8 0 0 3 1 31) = true ∧ encode (.ld 7 8 0 0 3 1 31) = some 0x203900FF#32
    ∧ wellFormed (.vloop 0xFFFF) = true ∧ microOrder (.vloop 0xFFFF) = true ∧ encode (.vloop 0xFFFF) = some 0x8000FFFF#32
    ∧ microOrder (.bufphClose 63) = false ∧ (encode (.bufphClose 63)).isSome = true := by decide
/-- A word that the fetch buffer of a tile holds, though memory holds another; and what a buffer may take. -/
theorem witness_fetchBuffer :
    let s : State := on { unit0 with fbuf := [(0, 0x02182100#32)] }
    FetchReady s 0 0x02182100#32 ∧ (s.tile 0).status = .running ∧ s.check 0 4#64 4 .x = .ok { plain := 4 } ∧ s.resolve (tileDie 0) 4 4 = some 4
    ∧ s.badSector 4 4 = none ∧ tileDie 0 ∉ s.lost ∧ ({ s with turns := [{ who := .prefetch 0 4 }] } : State).midWord = false :=
  ⟨⟨by decide, rfl, fun _ h => (by cases h), by decide, fun _ => ⟨by decide, .inr (fun r h => by cases h)⟩, by decide, by decide, by decide, _, rfl, rfl⟩,
    rfl, rfl, rfl, rfl, by decide, rfl⟩
/-- A turn of tile 0, after a cycle: a word of the page; the last word of a clause; a word
after its PFX; a step of the vector sequencer; an event. -/
theorem witness_stepRuns :
    let s (t : Tile) : State := { on t with turns := [{ who := .ct 0 }], mem := [(1, 0x21), (2, 0x18), (3, 0x02)] }
    (s unit0).midWord = false ∧ FetchReady { s unit0 with turns := [] } 0 0x02182100#32
    ∧ FetchReady { s { unit0 with clause := 0x11 } with turns := [] } 0 0x02182100#32 ∧ (s { unit0 with pfx := some 1 }).midWord = true
    ∧ FetchReady (s { unit0 with pfx := some 1 }) 0 0x02182100#32 ∧ decodeCt 0x02182100#32 = .ok (.add 3 1 2) ∧ decodeCt 0x0218211C#32 = .error .unassigned
    ∧ run0.done = false ∧ run0.halt = false ∧ encode (.dispatch 0) = none :=
  ⟨rfl, ⟨by decide, rfl, fun _ h => (by cases h), by decide, fun _ => ⟨by decide, .inr (fun r h => by cases h)⟩, by decide, by decide, by decide,
      _, rfl, _, rfl, rfl, by decide⟩,
    ⟨by decide, rfl, fun _ h => (by cases h), by decide, fun _ => ⟨by decide, .inr (fun r h => by cases h)⟩, by decide, by decide, by decide,
      _, rfl, _, rfl, rfl, by decide⟩, by decide,
    ⟨by decide, rfl, fun _ h => (by cases h), by decide, fun h => (by cases h), by decide, by decide, by decide,
      _, rfl, _, rfl, rfl, by decide⟩, by decide, by decide, rfl, rfl, rfl⟩
/-- A page with one byte written, and the step that runs its first word. -/
theorem witness_memoryKept : ({ on unit0 with mem := [(3, 0x08)] } : State).memoryOk ∧ (match step { on unit0 with mem := [(3, 0x08)], turns := [{ who := .ct 0 }] } with
    | .next t => t.mem
    | _ => []) = [(3, 0x08)] := by
  refine ⟨⟨by decide, by decide⟩, by decide⟩

/-! ## How a program comes into memory -/

/-- The kernel of the example under R108: its source words, and the words that the assembler emits. -/
theorem test_assemble_count_up :
    assemble [⟨0x04500000, .value 13 0 100000⟩, ⟨0x205820A0, .value 5 0 2⟩, ⟨0x04596000, .value 13 0 1⟩, ⟨0x08916500, .none⟩,
      ⟨0x32400000, .label 21 0 2⟩, ⟨0x22582080, .value 5 0 2⟩, ⟨0xE8000000, .none⟩]
    = some [0x3E00000C, 0x045006A0, 0x205820A2, 0x04596001, 0x08916500, 0x325FFFFE, 0x22582082, 0xE8000000] := by decide
/-- A file whose bytes are all zero is refused (R116). -/
theorem test_clo_magic : (State.reset.loadClo (List.replicate 64 0) (fun _ => 0) (fun _ => 0)) = .error .magic := by decide
/-- The first bytes of a context frame are its MAGIC and VERSION (R263). -/
theorem test_frame_head : ((List.range 6).map fun i => ({ key := 0, tile := {}, slice := [] } : Saved).frameByte i) = [0x43, 0x46, 0x52, 0x4D, 1, 0] := by decide

end Sys2Proof.Tests
end

section
/-! SUPPORT. The form of the two memories along a step: what it says of an outcome, and how it passes branches and folds. Each
lemma `State.memoryOk.f` of the sections that follow says that the operation `f` keeps it. A lemma whose operation may fail takes
the result as an equation. -/

namespace Sys2Proof.Machine

/-! ## What carries a state -/

/-- The outcome of an instruction holds both memories in their one form, where it holds a state. -/
def Out.memoryOk : Out → Prop
  | .next s => s.memoryOk
  | .fault _ | .refused _ => True
/-- As `Out.memoryOk`, for what a command does. -/
def Ran.memoryOk : Ran → Prop
  | .ok s _ | .wait s _ | .fault s _ _ => s.memoryOk
/-- As `Out.memoryOk`, for what a micro-order does. -/
def VRes.memoryOk : VRes → Prop
  | .go s _ | .flagged s | .hold s _ => s.memoryOk
  | .jump _ _ | .trap _ _ => True
/-- As `Out.memoryOk`, for what a turn finds. -/
def Fetched.memoryOk : Fetched → Prop
  | .done s | .run _ s => s.memoryOk
  | .idle => True

variable {s t : State}

theorem Out.memoryOk.next (h : s.memoryOk) : Out.memoryOk (.next s) := h
theorem Ran.memoryOk.fault {c : Cmd} {i : TrapInfo} (h : s.memoryOk) : Ran.memoryOk (.fault s c i) := h
theorem Fetched.memoryOk.run {i : Instr} (h : s.memoryOk) : Fetched.memoryOk (.run i s) := h

theorem Ran.memoryOk.of_ok {r : Ran} {c : Cmd} (h : r.memoryOk) (e : r = .ok s c) : s.memoryOk := by subst e; exact h
theorem Ran.memoryOk.of_wait {r : Ran} {c : Cmd} (h : r.memoryOk) (e : r = .wait s c) : s.memoryOk := by subst e; exact h
theorem Ran.memoryOk.of_fault {r : Ran} {c : Cmd} {i : TrapInfo} (h : r.memoryOk) (e : r = .fault s c i) : s.memoryOk := by
  subst e; exact h
theorem State.memoryOk.of_fst {α : Type} {p : State × α} {a : α} (h : p.1.memoryOk) (e : p = (t, a)) : t.memoryOk := by
  subst e; exact h
theorem State.memoryOk.of_snd {α : Type} {p : α × State} {a : α} (h : p.2.memoryOk) (e : p = (a, t)) : t.memoryOk := by
  subst e; exact h

/-! ## Branches and folds -/

theorem State.memoryOk.ite {c : Prop} [Decidable c] (hs : s.memoryOk) (ht : t.memoryOk) : (if c then s else t).memoryOk := by
  split <;> assumption
theorem State.memoryOk.fst_ite {α : Type} {c : Prop} [Decidable c] {p q : State × α} (hp : p.1.memoryOk) (hq : q.1.memoryOk) :
    (if c then p else q).1.memoryOk := by
  split <;> assumption
theorem Out.memoryOk.ite {c : Prop} [Decidable c] {a b : Out} (ha : a.memoryOk) (hb : b.memoryOk) :
    Out.memoryOk (if c then a else b) := by
  split <;> assumption
theorem Ran.memoryOk.ite {c : Prop} [Decidable c] {a b : Ran} (ha : a.memoryOk) (hb : b.memoryOk) :
    (if c then a else b).memoryOk := by
  split <;> assumption
theorem VRes.memoryOk.ite {c : Prop} [Decidable c] {a b : VRes} (ha : a.memoryOk) (hb : b.memoryOk) :
    (if c then a else b).memoryOk := by
  split <;> assumption
theorem Fetched.memoryOk.ite {c : Prop} [Decidable c] {a b : Fetched} (ha : a.memoryOk) (hb : b.memoryOk) :
    (if c then a else b).memoryOk := by
  split <;> assumption

theorem State.memoryOk.foldl {α : Type} {f : State → α → State} (h : s.memoryOk) (hf : ∀ s a, s.memoryOk → (f s a).memoryOk)
    (l : List α) : (l.foldl f s).memoryOk := by
  induction l generalizing s with
  | nil => exact h
  | cons a l ih => exact ih (hf s a h)
theorem State.memoryOk.foldl_fst {α β : Type} {f : State × β → α → State × β} {x : State × β} (h : x.1.memoryOk)
    (hf : ∀ x a, x.1.memoryOk → (f x a).1.memoryOk) (l : List α) : (l.foldl f x).1.memoryOk := by
  induction l generalizing x with
  | nil => exact h
  | cons a l ih => exact ih (hf x a h)

end Sys2Proof.Machine
end

section
/-! SUPPORT. The operations over the state keep the form of the two memories: plain updates, work, frames and faults. -/

namespace Sys2Proof.Machine

variable {s t : State}

/-! ## Plain operations -/

theorem State.memoryOk.setTile {k : Nat} {t : Tile} (h : s.memoryOk) : (s.setTile k t).memoryOk :=
  (s.memoryOk_setTile k t).mpr h
theorem State.memoryOk.modTile {k : Nat} {f : Tile → Tile} (h : s.memoryOk) : (s.modTile k f).memoryOk := h.setTile
theorem State.memoryOk.setDie {d : Nat} {x : Die} (h : s.memoryOk) : (s.setDie d x).memoryOk := (s.memoryOk_setDie d x).mpr h
theorem State.memoryOk.modDie {d : Nat} {f : Die → Die} (h : s.memoryOk) : (s.modDie d f).memoryOk := h.setDie
theorem State.memoryOk.setPkg {p : Nat} {x : Pkg} (h : s.memoryOk) : (s.setPkg p x).memoryOk := (s.memoryOk_setPkg p x).mpr h
theorem State.memoryOk.modPkg {p : Nat} {f : Pkg → Pkg} (h : s.memoryOk) : (s.modPkg p f).memoryOk := h.setPkg
theorem State.memoryOk.setJob {j : Nat} {x : Job} (h : s.memoryOk) : (s.setJob j x).memoryOk := (s.memoryOk_setJob j x).mpr h
theorem State.memoryOk.modFunc {p f : Nat} {g : Func → Func} (h : s.memoryOk) : (s.modFunc p f g).memoryOk := h.modPkg
theorem State.memoryOk.modJobDie {d j : Nat} {g : JobDie → JobDie} (h : s.memoryOk) : (s.modJobDie d j g).memoryOk := h.modDie
theorem State.memoryOk.bump (h : s.memoryOk) : (s.bump).memoryOk := h
theorem State.memoryOk.retire {t : Tile} (h : s.memoryOk) : (s.retire t).memoryOk := h.setTile
theorem State.memoryOk.retireTo {t : Tile} {pc : W64} (h : s.memoryOk) : (s.retireTo t pc).memoryOk := h.setTile
theorem State.memoryOk.stall {k : Nat} {on : WaitOn} {bound : Option Nat} {parked : Bool} {dst : Nat} (h : s.memoryOk) :
    (s.stall k on bound parked dst).memoryOk :=
  h.modTile
theorem State.memoryOk.stallIssue {k : Nat} {on : WaitOn} (h : s.memoryOk) : (s.stallIssue k on).memoryOk := h.stall
theorem State.memoryOk.putByte {p : Nat} {b : Byte} (h : s.memoryOk) : (s.putByte p b).memoryOk := s.memoryOk_putByte p b h
theorem State.memoryOk.putBytes {p : Nat} {bs : List Byte} (h : s.memoryOk) : (s.putBytes p bs).memoryOk :=
  State.memoryOk_putBytes bs s p h
theorem State.memoryOk.putHost {p : Nat} {bs : List Byte} (h : s.memoryOk) : (s.putHost p bs).memoryOk :=
  State.memoryOk_putHost bs s p h
theorem State.memoryOk.touchSectors {p len : Nat} (h : s.memoryOk) : (s.touchSectors p len).memoryOk :=
  s.memoryOk_touchSectors p len h
theorem State.memoryOk.writeAtomic {p : Nat} {bs : List Byte} (h : s.memoryOk) : (s.writeAtomic p bs).memoryOk :=
  h.putBytes.touchSectors
theorem State.memoryOk.zeroRange {p len : Nat} (h : s.memoryOk) : (s.zeroRange p len).memoryOk := s.memoryOk_zeroRange p len h
theorem State.memoryOk.writePlain {p : Nat} {bs : List Byte} {code : BitVec 4} (h : s.memoryOk) :
    (s.writePlain p bs code).memoryOk :=
  s.memoryOk_writePlain p bs code h
theorem State.memoryOk.tell {d kind job what : Nat} (h : s.memoryOk) : (s.tell d kind job what).memoryOk := h.modDie

/-! ## Accesses and messages -/

theorem State.memoryOk.writeAcc {k : Nat} {a : Acc} {bs : List Byte} {code : BitVec 4} (h : s.memoryOk) :
    (s.writeAcc k a bs code).memoryOk :=
  s.memoryOk_writeAcc k a bs code h
theorem State.memoryOk.send {k dst : Nat} {op : HomeOp} {sink : Sink} {addr : W64} {logged : Bool} {opc : Nat}
    (h : s.memoryOk) : (s.send k dst op sink addr logged opc).1.memoryOk :=
  .ite h.setTile h
theorem State.memoryOk.post {m : Msg} (h : s.memoryOk) : (s.post m).memoryOk := h
theorem State.memoryOk.unpost {id : Nat} (h : s.memoryOk) : (s.unpost id).memoryOk := h
theorem State.memoryOk.modReq {id : Nat} {f : Request → Request} (h : s.memoryOk) : (s.modReq id f).memoryOk := by
  unfold State.modReq
  split <;> exact h
theorem State.memoryOk.dropReq {id : Nat} (h : s.memoryOk) : (s.dropReq id).memoryOk := h
theorem State.memoryOk.answerReq {id : Nat} {a : Answer} (h : s.memoryOk) : (s.answerReq id a).memoryOk := .modReq h

/-! ## Work: levels, events, records and the completion of a unit -/

theorem State.memoryOk.cacheWalk {d asid va : Nat} (h : s.memoryOk) : (s.cacheWalk d asid va).memoryOk := by
  unfold State.cacheWalk
  split
  · split
    · exact h
    · exact h.modDie
  · exact h
theorem State.memoryOk.writeJobVa {d asid va : Nat} {bs : List Byte} (h : s.memoryOk) :
    (s.writeJobVa d asid va bs).memoryOk := by
  induction bs generalizing s va with
  | nil => exact h
  | cons b r ih =>
    unfold State.writeJobVa
    split
    · split
      · exact ih h.putByte
      · exact ih h
    · exact ih h
theorem State.memoryOk.damage {d : Nat} {e : Damage} (h : s.memoryOk) : (s.damage d e).memoryOk := by
  unfold State.damage
  extract_lets
  split
  · exact h.modDie
  split
  · exact h.modDie
  extract_lets
  split
  · exact h.modDie.writeJobVa.writeJobVa
  · exact h.modDie.writeJobVa
theorem State.memoryOk.flushCqGo {p f : Nat} {es : List CqEntry} (h : s.memoryOk) : (flushCqGo s p f es).memoryOk := by
  induction es generalizing s with
  | nil => exact h.modFunc
  | cons e r ih => exact .ite (ih h.putHost.modFunc) h.modFunc
theorem State.memoryOk.flushCq {p f : Nat} (h : s.memoryOk) : (s.flushCq p f).memoryOk := h.flushCqGo
theorem State.memoryOk.complete {p f : Nat} {e : CqEntry} (h : s.memoryOk) : (s.complete p f e).memoryOk := h.modFunc.flushCq
theorem State.memoryOk.preemptFor {d : Nat} {r : Rec} (h : s.memoryOk) : (s.preemptFor d r).memoryOk := by
  unfold State.preemptFor
  split
  · exact h
  · exact h.foldl (fun _ _ h => h.modTile) _
theorem State.memoryOk.preemptAll {d : Nat} (h : s.memoryOk) : (s.preemptAll d).memoryOk := by
  unfold State.preemptAll
  exact h.foldl (fun _ _ h => h.foldl (fun _ _ h => h.preemptFor) _) _
theorem State.memoryOk.enqueue {d : Nat} {e : Entry} {keepEnqt : Bool} (h : s.memoryOk) : (s.enqueue d e keepEnqt).memoryOk :=
  h.modDie.preemptFor
theorem State.memoryOk.modLevel {j level id : Nat} {f : LevelEntry → LevelEntry} (h : s.memoryOk) :
    (s.modLevel j level id f).memoryOk :=
  h.modDie
theorem State.memoryOk.dropLevel {j level id : Nat} (h : s.memoryOk) : (s.dropLevel j level id).memoryOk := h.modDie
theorem State.memoryOk.openLevel {r : Rec} {fuel level id : Nat} (h : s.memoryOk) : (openLevel s r fuel level id).memoryOk := by
  induction fuel generalizing level id with
  | zero => exact h
  | succ fuel ih =>
    unfold Sys2Proof.Machine.openLevel
    split
    · exact h
    refine .modDie ?_
    split
    · exact ih.modLevel
    · exact h
theorem State.memoryOk.setEvent {d key : Nat} {e : Event} (h : s.memoryOk) : (s.setEvent d key e).memoryOk := h.modDie
theorem State.memoryOk.placeUnit {pkg launch i d : Nat} {reg : Option Nat} {r : Rec} {e : Entry} (h : s.memoryOk)
    (he : s.placeUnit pkg reg r launch i = some (t, d, e)) : t.memoryOk := by
  unfold State.placeUnit at he
  split at he
  · cases he
  · cases he
    exact h.bump.modJobDie.modLevel
theorem State.memoryOk.release {w : Waiter} (h : s.memoryOk) : (s.release w).memoryOk := by
  unfold State.release
  split
  · exact h.enqueue
  · exact h
theorem State.memoryOk.signal {d j name n : Nat} (h : s.memoryOk) : (s.signal d j name n).memoryOk := by
  unfold State.signal
  extract_lets
  split
  · exact h.modDie
  · split
    exact h.setEvent.foldl (fun _ _ h => h.release) _
theorem State.memoryOk.hostDone {e : LevelEntry} (h : s.memoryOk) : (s.hostDone e).memoryOk := by
  unfold State.hostDone
  split
  · exact h.complete
  · exact h
theorem State.memoryOk.setSeq {d idx : Nat} {q : Seqn} (h : s.memoryOk) : (s.setSeq d idx q).memoryOk := h.modDie
theorem State.memoryOk.setBt {q : Seqn} {b : Nat} {e : BlockEntry} (h : s.memoryOk) : (s.setBt q b e).memoryOk := h.putBytes
theorem State.memoryOk.dropBlock {d job : Nat} {e : BlockEntry} (h : s.memoryOk) : (s.dropBlock d job e).memoryOk := by
  unfold State.dropBlock
  extract_lets
  split
  · exact h
  split
  · exact h.modDie.modJobDie
  · exact h.modDie
theorem State.memoryOk.freeSeq {d idx : Nat} (h : s.memoryOk) : (s.freeSeq d idx).memoryOk := by
  unfold State.freeSeq
  exact (h.foldl (fun _ _ h => h.dropBlock) _).setSeq
theorem State.memoryOk.endJob {j : Nat} (h : s.memoryOk) : (s.endJob j).memoryOk := by
  unfold State.endJob
  exact (h.foldl (fun _ _ h => (h.foldl (fun _ _ h => h.freeSeq) _).modDie) _).setJob
theorem State.memoryOk.levelCheck {j fuel level id : Nat} (h : s.memoryOk) : (levelCheck s j fuel level id).memoryOk := by
  induction fuel generalizing s level id with
  | zero => exact h
  | succ fuel ih =>
    unfold Sys2Proof.Machine.levelCheck
    split
    · exact h
    refine .ite ?_ h
    extract_lets s₁ s₂
    have h₁ : s₁.memoryOk := by
      unfold s₁
      split
      · exact h.signal
      · exact h
    have h₂ : s₂.memoryOk := h₁.dropLevel.hostDone
    refine .ite h₂.endJob ?_
    split
    · exact ih h₂.modLevel
    · exact h₂
theorem State.memoryOk.launchChild {r : Rec} {cancelled : Bool} (h : s.memoryOk) : (s.launchChild r cancelled).memoryOk :=
  h.modLevel.levelCheck
theorem State.memoryOk.closeLaunch {j launch : Nat} (h : s.memoryOk) : (s.closeLaunch j launch).memoryOk :=
  h.modLevel.levelCheck
theorem State.memoryOk.dropGrants {k unit : Nat} {gs : Tab Grant} (h : s.memoryOk) : (s.dropGrants k unit gs).memoryOk := by
  unfold State.dropGrants
  refine h.foldl (fun _ _ h => ?_) _
  split
  · exact h
  · exact h.modDie
theorem State.memoryOk.freeTile {k : Nat} (h : s.memoryOk) : (s.freeTile k).memoryOk := h.dropGrants.modTile.preemptAll
theorem State.memoryOk.lastAction {d : Nat} {e : Entry} {cancelled : Bool} (h : s.memoryOk) :
    (s.lastAction d e cancelled).memoryOk := by
  unfold State.lastAction
  extract_lets s₁ home
  have h₁ : s₁.memoryOk := h.modJobDie
  exact .ite h₁.launchChild (.ite h₁ h₁)
theorem State.memoryOk.finishActions {d k : Nat} {held : Bool} {e : Entry} {cancelled : Bool} (h : s.memoryOk) :
    (s.finishActions d k held e cancelled).memoryOk := by
  unfold State.finishActions
  extract_lets
  split
  · exact .lastAction (.ite h.freeTile h)
  split
  · exact .lastAction (.ite h.damage.freeTile h.damage)
  split
  · exact .lastAction (.signal (.ite h.freeTile h))
  split
  · exact .modTile h
  · exact h
theorem State.memoryOk.joinAt {d fid plain : Nat} (h : s.memoryOk) (he : s.joinAt d fid plain = .ok t) : t.memoryOk := by
  unfold State.joinAt at he
  split at he
  · split at he
    · cases he
    split at he
    · cases he
    · cases he
      exact h.writeAtomic
  · cases he
  · cases he
theorem State.memoryOk.joinAction {d k : Nat} {r : Rec} {a : Option Acc} (h : s.memoryOk) :
    (s.joinAction d k r a).memoryOk := by
  unfold State.joinAction
  extract_lets
  split
  · exact h.damage
  split
  · exact h
  split
  · exact h.joinAt ‹_›
  · exact h.damage
theorem State.memoryOk.setAside {d : Nat} {e : Entry} {asked : Option Nat} (h : s.memoryOk) :
    (s.setAside d e asked).memoryOk := by
  unfold State.setAside
  extract_lets s₁
  have h₁ : s₁.memoryOk := by
    unfold s₁
    split
    · exact h.tell
    · exact h
  exact .modDie h₁
theorem State.memoryOk.discardRecord {d : Nat} {e : Entry} (h : s.memoryOk) : (s.discardRecord d e).memoryOk := by
  unfold State.discardRecord
  dsimp only
  split
  · exact h.setAside
  refine .finishActions ?_
  split
  · refine .modJobDie ?_
    split
    · exact .dropGrants (.ite h.joinAction h)
    split
    · exact h.joinAction
    · exact h
  · split
    · exact .dropGrants (.ite h.joinAction h)
    split
    · exact h.joinAction
    · exact h
theorem State.memoryOk.discardUnplaced {pkg launch i : Nat} {r : Rec} (h : s.memoryOk)
    (he : s.discardUnplaced pkg r launch i = some t) : t.memoryOk := by
  unfold State.discardUnplaced at he
  split at he
  · cases he
  · cases he
    exact h.bump.modLevel.discardRecord
theorem State.memoryOk.registerUnit {pkg launch i : Nat} {reg : Option Nat} {r : Rec} (h : s.memoryOk)
    (he : s.registerUnit pkg reg r launch i = some t) : t.memoryOk := by
  unfold State.registerUnit at he
  split at he
  · split at he
    · exact h.discardUnplaced he
    · cases he
  · next hp =>
    split at he
    · cases he
      exact (h.placeUnit hp).discardRecord
    · split at he
      · cases he
      · cases he
        exact (h.placeUnit hp).enqueue
theorem State.memoryOk.retireUnit {k : Nat} {cancelled : Bool} (h : s.memoryOk) : (s.retireUnit k cancelled).memoryOk := by
  unfold State.retireUnit
  dsimp only
  split
  · exact h.modTile.finishActions
  split
  · split
    · exact h.modTile.joinAction.finishActions
    · exact h.modTile.send.modTile
  · exact h.modTile.joinAction.finishActions

/-! ## Context frames -/

theorem State.memoryOk.putFrame {base : Nat} {v : Saved} (h : s.memoryOk) : (s.putFrame base v).memoryOk :=
  s.memoryOk_putFrame base v h
theorem State.memoryOk.setFrame {d job n : Nat} {v : Saved} (h : s.memoryOk) : (s.setFrame d job n v).memoryOk :=
  h.modJobDie.putFrame

/-! ## Faults, cuts, the handler and the journal of a tile -/

theorem State.memoryOk.deathDamage {k : Nat} {d : Death} (h : s.memoryOk) : (s.deathDamage k d).memoryOk := h.damage
theorem State.memoryOk.killUnit {k : Nat} {d : Death} (h : s.memoryOk) : (s.killUnit k d).memoryOk := h.deathDamage.retireUnit
theorem State.memoryOk.handlerEntry {k : Nat} {i : TrapInfo} (h : s.memoryOk) : (s.handlerEntry k i).memoryOk := by
  unfold State.handlerEntry
  extract_lets
  split
  · exact h.setTile
  split
  · exact h.writeAcc.modTile
  · exact h.setTile
theorem State.memoryOk.takePhase {k : Nat} (h : s.memoryOk) : (s.takePhase k).memoryOk := h.modTile
theorem State.memoryOk.sectorDamage {k : Nat} {i : TrapInfo} (h : s.memoryOk) : (s.sectorDamage k i).memoryOk := by
  unfold State.sectorDamage
  split
  · exact h
  split
  · exact h.damage
  split
  · exact h.damage
  · exact h
theorem State.memoryOk.saveFrame {k : Nat} {i : TrapInfo} (h : s.memoryOk) : (s.saveFrame k i).memoryOk :=
  h.setFrame.modTile.freeTile.enqueue
theorem State.memoryOk.endUnit {k : Nat} (h : s.memoryOk) : (s.endUnit k).memoryOk := by
  unfold State.endUnit
  extract_lets
  split
  · exact h
  split
  · exact h.retireUnit
  · exact h.killUnit
  · exact h.retireUnit
  · exact h
theorem State.memoryOk.endCut {k : Nat} (h : s.memoryOk) : (s.endCut k).memoryOk := by
  unfold State.endCut
  extract_lets
  split
  · split
    · exact h
    · exact h.handlerEntry.endUnit
  · split
    · exact h
    · exact h.saveFrame
  · split
    · exact h
    split
    · exact h.setTile
    · exact h
  · exact h.endUnit
theorem State.memoryOk.finishWord {k : Nat} {f : Tile → Tile} (h : s.memoryOk) : (s.finishWord k f).memoryOk := h.setTile.endCut
theorem State.memoryOk.serveBar {d b : Nat} {ws : List BarWaiter} (h : s.memoryOk) : (serveBar d b ws s).memoryOk := by
  induction ws generalizing s with
  | nil => exact h.modDie
  | cons w r ih => exact .ite (ih h.modDie.finishWord) h.modDie
theorem State.memoryOk.setBar {d b v : Nat} (h : s.memoryOk) : (s.setBar d b v).memoryOk := h.modDie.serveBar
theorem State.memoryOk.unwait {k : Nat} (h : s.memoryOk) : (s.unwait k).memoryOk := by
  unfold State.unwait
  exact h.foldl (fun _ _ h => .ite h.serveBar h) _
theorem State.memoryOk.takeCut {k : Nat} {why : CutWhy} {pos : Nat} {pc : W64} {clause : BitVec 5} (h : s.memoryOk) :
    (s.takeCut k why pos pc clause).memoryOk := by
  unfold State.takeCut
  extract_lets
  split
  exact .endCut (.setTile (.ite h h.unwait))
theorem State.memoryOk.raiseAt {k : Nat} {i : TrapInfo} {pos : Nat} {pc : W64} {clause : BitVec 5} (h : s.memoryOk) :
    (s.raiseAt k i pos pc clause).memoryOk := by
  unfold State.raiseAt
  extract_lets
  split
  · exact h.sectorDamage.takeCut
  split
  · exact h.takePhase.takeCut
  · split <;> exact h.sectorDamage.takeCut
theorem State.memoryOk.raise {k : Nat} {i : TrapInfo} (h : s.memoryOk) : (s.raise k i).memoryOk := h.raiseAt
theorem State.memoryOk.failWord {k : Nat} {i : TrapInfo} (h : s.memoryOk) : (s.failWord k i).memoryOk := by
  unfold State.failWord
  extract_lets
  split
  · exact h.modTile.raise
  · split
    · exact h.modTile.takeCut
    · exact h.modTile.sectorDamage.modTile.endCut
  · exact h.modTile.sectorDamage.modTile.endCut
  · exact h.modTile.endCut
theorem State.memoryOk.fault {k cls : Nat} {addr : W64} (h : s.memoryOk) : (s.fault k cls addr).memoryOk := h.raise
theorem State.memoryOk.illegal {k : Nat} (h : s.memoryOk) : (s.illegal k).memoryOk := h.fault
theorem State.memoryOk.raiseReport {k : Nat} {r : Report} (h : s.memoryOk) : (s.raiseReport k r).memoryOk := h.raise
theorem State.memoryOk.cmdFault {k : Nat} {c : Cmd} {i : TrapInfo} {vrun : Option VsRun} (h : s.memoryOk) :
    (s.cmdFault k c i vrun).memoryOk := by
  unfold State.cmdFault
  extract_lets t₀ t₁ q dcc i full t₂ t₃ s₁ again s₂ pt merge abort goOn replay
  have hs : s₂.memoryOk := .ite h.setTile.takePhase h.setTile.sectorDamage
  have hgo (j : TrapInfo) (why : CutWhy) : (goOn j why).memoryOk := hs.modTile.endCut
  have hreplay (j : TrapInfo) : (replay j).memoryOk := hs.modTile.endCut
  split
  · exact .ite (hreplay _) (.ite hs.takeCut (hgo _ _))
  · exact .ite (hreplay _) (.ite hs.takeCut (.ite hs.takeCut (hgo _ _)))
  · exact .ite hs.takeCut (hgo _ _)
  · exact hs.endCut
  · exact hs.takeCut
  · exact .ite hs.takeCut (.ite hs.takeCut (.ite hs.takeCut hs.takeCut))
theorem State.memoryOk.joinRelease {k : Nat} {e : JEntry} {r : Report} {j : TrapInfo} {why : TrapInfo → CutWhy}
    (h : s.memoryOk) : (s.joinRelease k e r j why).memoryOk :=
  h.sectorDamage.setTile.endCut
theorem State.memoryOk.releaseFault {k : Nat} {e : JEntry} {r : Report} (h : s.memoryOk) : (s.releaseFault k e r).memoryOk := by
  unfold State.releaseFault
  extract_lets
  split
  · exact h.joinRelease
  · exact h.joinRelease
  · split
    · exact h.sectorDamage.takeCut
    · exact h.joinRelease
  · exact h.setTile.raiseAt
theorem State.memoryOk.dumpReports {k : Nat} {rs : List Report} (h : s.memoryOk) : (s.dumpReports k rs).memoryOk := by
  unfold State.dumpReports
  exact h.foldl (fun _ _ h => h.sectorDamage.deathDamage) _
theorem State.memoryOk.settle {k : Nat} (h : s.memoryOk) : (s.settle k).memoryOk := by
  unfold State.settle
  dsimp only
  split
  · split
    · exact h.setTile.dumpReports.sectorDamage.takeCut
    · exact h.setTile.endCut
  · exact h.dumpReports.setTile.endCut
  · exact h.dumpReports.setTile.endCut
  · exact h.setTile.endCut
  · split
    · exact h.setTile.releaseFault
    · exact h.setTile.endCut
theorem State.memoryOk.prefetch {k va : Nat} (h : s.memoryOk) : (s.prefetch k va).memoryOk := by
  unfold State.prefetch
  split
  · exact h.modTile
  · exact h

end Sys2Proof.Machine
end

section
/-! SUPPORT. The hub, the levels of work and the homes of requests keep the form of the two memories. -/

namespace Sys2Proof.Machine

variable {s t : State}

/-! ## The hub -/

theorem State.memoryOk.modSlot {p f slot : Nat} {g : Slot → Slot} (h : s.memoryOk) : (s.modSlot p f slot g).memoryOk :=
  h.modFunc
theorem State.memoryOk.launchFails {p f slot status sub : Nat} (h : s.memoryOk) :
    (s.launchFails p f slot status sub).memoryOk :=
  h.complete
theorem State.memoryOk.torn {p f slot sub : Nat} (h : s.memoryOk) : (s.torn p f slot sub).memoryOk := h.modSlot.launchFails
theorem State.memoryOk.launchWait {job key name thr : Nat} (h : s.memoryOk) : (s.launchWait job key name thr).memoryOk := by
  unfold State.launchWait
  extract_lets
  split
  · exact h.release
  split
  · exact h.setEvent
  · exact .tell (.modDie h)
theorem State.memoryOk.acceptLaunch {p f slot : Nat} {v : W32} (h : s.memoryOk) : (s.acceptLaunch p f slot v).memoryOk := by
  unfold State.acceptLaunch
  extract_lets
  split
  · exact h.modSlot.launchFails
  · exact h.modSlot.launchFails
  · split
    · exact h.modSlot.launchFails
    split
    · exact h
    split
    · exact h.modSlot.bump.openLevel.modLevel.setJob.launchWait
    · exact h.modSlot.bump.openLevel.modLevel.setJob
theorem State.memoryOk.compareStamp {p f slot : Nat} {v : W32} {left : Nat} (h : s.memoryOk) :
    (s.compareStamp p f slot v left).memoryOk := by
  unfold State.compareStamp
  extract_lets
  split
  · exact h.acceptLaunch
  split
  · exact h.torn
  · exact h.modSlot
theorem State.memoryOk.notify {p f slot : Nat} {v : W32} (h : s.memoryOk) : (s.notify p f slot v).memoryOk := by
  unfold State.notify
  extract_lets
  split
  · exact h
  split
  · exact h.modSlot
  split
  · exact h.modSlot.torn
  · exact h.modSlot.compareStamp
theorem State.memoryOk.writeCqCtl {p f : Nat} {v : W64} (h : s.memoryOk) : (s.writeCqCtl p f v).memoryOk := by
  unfold State.writeCqCtl
  extract_lets
  split
  · exact h
  split
  · exact h
  · exact h.modFunc.flushCq
theorem State.memoryOk.writeCqHead {p f : Nat} {v : W32} (h : s.memoryOk) : (s.writeCqHead p f v).memoryOk := by
  unfold State.writeCqHead
  split
  · exact h
  · exact h.modFunc.flushCq
/-- Of the hub's registers, only those that launch work or move a completion queue reach memory. -/
theorem State.memoryOk.hubWrite {p off len v : Nat} (h : s.memoryOk) (he : s.hubWrite p off len v = .ok t) : t.memoryOk := by
  -- the kernel would compute `hubOff off` to compare the two sides of a plain unfolding
  generalize hF : @State.hubWrite = F at he
  delta State.hubWrite at hF
  subst hF
  beta_reduce at he
  generalize hubOff off = o at he
  extract_lets put at he
  split at he
  · cases he
  · split at he
    · cases he; exact h
    split at he
    · cases he; exact h.modFunc
    split at he
    · cases he; exact .ite h.notify.notify h.notify
    split at he
    · cases he; exact h.modFunc
    split at he
    · cases he; exact h.writeCqCtl
    split at he
    · cases he; exact h.writeCqHead
    · cases he; exact h
  · cases he; exact .ite h h.modPkg

/-! ## Cancelling work and closing levels -/

theorem State.memoryOk.cancelTile {k : Nat} (h : s.memoryOk) : (s.cancelTile k).memoryOk := by
  unfold State.cancelTile
  extract_lets
  split
  · exact h
  · exact h.setTile
  · exact h.takeCut
  · exact h
  · exact h.setTile
  · exact h.setTile
  · exact h.setTile
  · exact h
theorem State.memoryOk.cancelWaiters {d : Nat} {p : Entry → Bool} {pl : Nat → Bool} (h : s.memoryOk) :
    (s.cancelWaiters d p pl).memoryOk := by
  unfold State.cancelWaiters
  refine (h.modDie.foldl (fun _ _ h => h.release) _).foldl (fun _ _ h => ?_) _
  split
  · exact h.discardRecord
  · exact h.release
theorem State.memoryOk.cancelDie {d : Nat} {p : Entry → Bool} {pl : Nat → Bool} (h : s.memoryOk) :
    (s.cancelDie d p pl).memoryOk := by
  unfold State.cancelDie
  exact h.modDie.cancelWaiters.foldl (fun _ _ h => .ite h.cancelTile h) _
theorem State.memoryOk.cancelWork {j level id die : Nat} (h : s.memoryOk) : (s.cancelWork j level id die).1.memoryOk := by
  unfold State.cancelWork
  split
  · exact h.foldl (fun _ _ h => h.cancelDie) _
  split
  · exact h
  split
  · exact h
  · exact h.modLevel.foldl (fun _ _ h => h.cancelDie) _
theorem State.memoryOk.retryLevels {d : Nat} (h : s.memoryOk) : (s.retryLevels d).memoryOk := by
  unfold State.retryLevels
  exact h.foldl (fun _ _ h => h.levelCheck) _
theorem State.memoryOk.closeEntry {j level id : Nat} {ev : Option (Nat × Nat)} (h : s.memoryOk) :
    (s.closeEntry j level id ev).1.memoryOk := by
  unfold State.closeEntry
  split
  · split
    · exact h
    · exact h.modLevel.levelCheck
  · split
    · exact h.signal
    · exact h
theorem State.memoryOk.registerAll {pkg reg launch n i : Nat} {r : Rec} (h : s.memoryOk)
    (he : registerAll pkg reg r launch n i s = some t) : t.memoryOk := by
  induction n generalizing s i with
  | zero => cases he; exact h
  | succ n ih =>
    unfold Sys2Proof.Machine.registerAll at he
    split at he
    · next hr => exact ih (h.registerUnit hr) he
    · cases he
theorem State.memoryOk.spawn {reg n id : Nat} {r : Rec} (h : s.memoryOk) (he : s.spawn reg r n = some (t, id)) :
    t.memoryOk := by
  unfold State.spawn at he
  extract_lets launch at he
  split at he
  · cases he
  · obtain ⟨u, hu, hc⟩ := Option.map_eq_some_iff.mp he
    exact (h.bump.openLevel.registerAll hu).closeLaunch.of_fst hc

/-! ## What a home does with a request -/

theorem State.memoryOk.amoAt {q op size : Nat} {v cmp fpc : W64} (h : s.memoryOk) :
    (s.amoAt q op size v cmp fpc).1.memoryOk := by
  unfold State.amoAt
  extract_lets
  split
  · split
    split
    · exact h
    · exact h.writeAtomic
  · split
    · exact h.writeAtomic
    · exact h
theorem State.memoryOk.allocBlock {d b : Nat} {q : Seqn} (h : s.memoryOk) (he : s.allocBlock d q b = some t) : t.memoryOk := by
  unfold State.allocBlock at he
  split at he
  · cases he; exact h
  extract_lets o at he
  split at he
  · cases he
  · cases he; exact h.modJobDie.modDie.setBt
theorem State.memoryOk.allocBlocks {d n b : Nat} {q : Seqn} (h : s.memoryOk) (he : allocBlocks d q n b s = some t) :
    t.memoryOk := by
  induction n generalizing s b with
  | zero => cases he; exact h
  | succ n ih =>
    unfold Sys2Proof.Machine.allocBlocks at he
    split at he
    · cases he
    · next ha => exact ih (h.allocBlock ha) he
theorem State.memoryOk.newSeq {d i : Nat} {q q' : Seqn} (h : s.memoryOk) (he : s.newSeq d q = some (t, i, q')) :
    t.memoryOk := by
  unfold State.newSeq at he
  extract_lets used at he
  split at he
  · cases he
  split at he
  · cases he
  · exact h.bump.zeroRange.of_fst (Option.some.inj he)
theorem State.memoryOk.narrow {d idx req c : Nat} {q : Seqn} {gs : List RegGrant} {drop : Bool} (h : s.memoryOk) :
    (s.narrow d idx req q gs c drop).1.memoryOk := by
  unfold State.narrow
  refine foldl_fst (x := (s, [])) h (fun x g hx => ?_) gs
  exact hx.post
theorem State.memoryOk.installGrant {k : Nat} {g : W64} {b plain wlo whi byte : Nat} (h : s.memoryOk) :
    (s.installGrant k g b plain wlo whi byte).1.memoryOk := by
  unfold State.installGrant
  dsimp only
  split
  · exact h.setTile
  refine .setTile ?_
  split
  · split
    · exact h.modDie
    · exact h
  · exact h
/-- What the home of a sequence does with each of the sequence words (R196 to R211). -/
theorem State.memoryOk.seqOp {id : Nat} {r : Request} {hd : W64} {q : Seqn} (h : s.memoryOk) :
    (s.seqOp id r hd q).1.memoryOk := by
  unfold State.seqOp
  extract_lets d idx window
  have hw : window.1.memoryOk := h
  split
  · -- SQRES
    refine .fst_ite hw (.fst_ite h (.fst_ite hw (.fst_ite h ?_)))
    split
    · exact h
    · exact (h.allocBlocks ‹_›).setSeq
  · -- SQCOM
    refine .fst_ite hw (.fst_ite h (.fst_ite hw (.fst_ite h.setSeq ?_)))
    split
    next hn => exact h.setSeq.narrow.of_fst hn
  · -- SQLEN
    exact h
  · -- SQWAIT
    exact .fst_ite hw (.fst_ite h h)
  · -- SQSEAL
    exact h.setSeq
  · -- SQFORK: the new sequence, then the copied references, then the copy of a partial block
    refine .fst_ite hw ?_
    extract_lets whole ents refs
    refine .fst_ite hw ?_
    split
    · exact h
    next hn =>
    split
    · exact h
    next _ u ha =>
    have hu : u.memoryOk := by
      split at ha
      · cases ha
        exact h.newSeq hn
      · exact (h.newSeq hn).allocBlock ha
    extract_lets u₁ u₂
    have h₁ : u₁.memoryOk := hu.foldl (fun _ _ h => h.modDie.setBt.setBt) ents
    have h₂ : u₂.memoryOk := by
      refine .ite h₁ ?_
      split
      · exact .writePlain h₁
      · exact h₁
    exact h₂.setSeq
  · -- SQDROP
    refine .fst_ite h.freeSeq ?_
    split
    next hn => exact h.narrow.of_fst hn
  · -- SQSLOT
    refine .fst_ite hw (.fst_ite h (.fst_ite h (.fst_ite h ?_)))
    split
    next hg => exact (h.installGrant.of_fst hg).modDie
  · exact h
theorem State.memoryOk.atq {r : Request} {tag : BitVec 16} (h : s.memoryOk) : (s.atq r tag).1.memoryOk := by
  unfold State.atq
  extract_lets
  split
  · exact h
  split
  · split
    · exact h
    · exact h.setDie
  · extract_lets
    split
    · split
      · exact h
      · exact h.setDie
    · split
      · exact h
      split
      · split <;> exact h
      · exact h.setDie
theorem State.memoryOk.useLog {r : Request} {enter : Tab LogEntry → Tab LogEntry} (h : s.memoryOk) :
    (s.useLog r enter).memoryOk :=
  h.modDie
theorem State.memoryOk.logOutcome {r : Request} {st : Nat} {res : W64} (h : s.memoryOk) : (s.logOutcome r st res).memoryOk :=
  h.useLog
theorem State.memoryOk.logAnswer {r : Request} {a : Answer} (h : s.memoryOk) : (s.logAnswer r a).memoryOk := by
  unfold State.logAnswer
  split
  · exact h
  split
  · split
    · exact h.logOutcome
    · exact h.useLog
  · exact h.useLog
theorem State.memoryOk.yieldSave {k : Nat} (h : s.memoryOk) : (s.yieldSave k).1.memoryOk := h.freeTile
theorem State.memoryOk.eventWait {r : Request} {die job name thr : Nat} (h : s.memoryOk) :
    (s.eventWait r die job name thr).1.memoryOk := by
  unfold State.eventWait
  extract_lets key e
  split
  · exact h
  split
  · exact h
  split
  · split
    next hy => exact (h.yieldSave.of_fst hy).discardRecord
  split
  next hy =>
    have hu := h.yieldSave.of_fst hy
    split
    · exact hu.setEvent
    · exact .tell (.modDie hu)
/-- What a home does with each kind of request. -/
theorem State.memoryOk.atHome {id : Nat} {r : Request} (h : s.memoryOk) : (s.atHome id r).1.memoryOk := by
  unfold State.atHome
  split
  · -- a load
    split
    · exact h
    · exact h
    · exact h
    · exact h.bump
  · -- a store; under a name of its own, `hubWrite` is not computed by the kernel
    obtain ⟨write, hwrite⟩ : ∃ w, w = @State.hubWrite := ⟨_, rfl⟩
    rw [← hwrite]
    split
    · exact h
    · exact h.writePlain
    · split
      · next he => exact h.hubWrite (hwrite ▸ he)
      · exact h
    · exact h
  · -- an atomic
    split
    · exact h
    · exact h.amoAt
    · exact h
  · -- JOIN
    split
    · exact h.joinAt ‹_›
    · exact h
  · -- SPAWN
    split
    · exact h.spawn ‹_›
    · exact h
  · -- CANCEL
    split
    exact h.cancelWork.of_fst ‹_›
  · -- a unit counted at its launch
    exact h.launchChild
  · -- CMPL
    extract_lets
    refine .fst_ite h ?_
    split
    exact h.closeEntry.of_fst ‹_›
  · -- a signal of an event
    extract_lets
    exact .fst_ite h.setEvent (.fst_ite h h.signal)
  · -- EVPOLL
    exact h
  · -- EVWAIT
    exact h.eventWait
  · -- a barrier
    exact h.setBar
  · -- ATQ
    exact h.atq
  · -- SQNEW
    split
    · exact h
    · exact (h.newSeq ‹_›).setSeq
  · -- a word on a sequence
    split
    · exact h
    split
    · exact h
    · exact .fst_ite h h.seqOp
theorem State.memoryOk.endWord {k : Nat} {r : Request} {a : Answer} (h : s.memoryOk) : (s.endWord k r a).memoryOk := by
  unfold State.endWord
  extract_lets
  split
  · exact h.failWord
  · exact h
  · split <;> exact h.finishWord
  · split
    · exact h.modTile.failWord
    split
    · exact h.finishWord
    · exact h.finishWord
    · split
      · exact h.modTile.stall
      · exact h.modTile.endCut
    · split
      · exact h.modTile.stall
      · exact h.modTile.endCut
    · exact h.finishWord
    · exact h.finishWord
    · split
      · exact h.finishWord
      split
      · exact h
      · exact h.finishWord
    · split
      · exact h.finishWord
      · exact h
    · exact h.finishWord
theorem State.memoryOk.endSignal {id : Nat} {r : Request} {fail : Option Nat} (h : s.memoryOk) :
    (s.endSignal id r fail).memoryOk := by
  unfold State.endSignal
  split
  · refine .lastAction ?_
    split
    · split
      · exact h.damage.freeTile
      · exact h.damage
    · split
      · exact h.freeTile
      · exact h
  · exact h
theorem State.memoryOk.awaitAnswer {id : Nat} {r : Request} {bound : Option Nat} (h : s.memoryOk) :
    (s.awaitAnswer id r bound).memoryOk := by
  unfold State.awaitAnswer
  split
  · exact h
  · exact h.modTile
theorem State.memoryOk.answerKept {id : Nat} {r : Request} {a : Answer} (h : s.memoryOk) : (s.answerKept id r a).memoryOk := by
  unfold State.answerKept
  extract_lets
  split
  · split
    · exact h.logAnswer.dropReq.endSignal
    · exact h.logAnswer.dropReq
    · split
      · exact h.logAnswer.dropReq
      · exact h.logAnswer.dropReq.endWord
  · split
    · exact h.logAnswer.dropReq
    · exact .modReq (.answerReq (.ite h.logAnswer.awaitAnswer h.logAnswer))
theorem State.memoryOk.keepReq {id : Nat} {r : Request} {acks : List Nat} {told : Option Nat} (h : s.memoryOk) :
    (s.keepReq id r acks told).memoryOk := by
  unfold State.keepReq
  extract_lets s₁
  have h₁ : s₁.memoryOk := by
    unfold s₁
    split
    · exact .ite h h.tell
    · exact h
  exact h₁
theorem State.memoryOk.serveSeq {g : W64} (h : s.memoryOk) : (s.serveSeq g).memoryOk := by
  unfold State.serveSeq
  refine h.foldl (fun _ _ h => ?_) _
  split
  · split
    · exact (h.atHome.of_fst ‹_›).answerKept
    · exact h
  · exact h
theorem State.memoryOk.afterOp {op : HomeOp} (h : s.memoryOk) : (s.afterOp op).memoryOk := by
  unfold State.afterOp
  split
  · exact h.serveSeq
  · exact h
theorem State.memoryOk.askWith {dl : State → Nat → Request → Answer → State} {k dst opc : Nat} {op : HomeOp} {sink : Sink}
    {addr : W64} {logged : Bool} {on : Nat → WaitOn} {bound : Option Nat} (h : s.memoryOk)
    (hd : ∀ s k r a, s.memoryOk → (dl s k r a).memoryOk) :
    (State.askWith dl s k dst op sink addr logged opc on bound).memoryOk := by
  unfold State.askWith
  refine .ite h.fault (.ite ?_ (.ite h.stallIssue ?_))
  · extract_lets id r
    split
    · next he => exact hd _ _ _ _ (h.atHome.of_fst he).afterOp
    · next u _ _ he =>
      have hu : u.memoryOk := h.atHome.of_fst he
      exact .stall (.keepReq hu)
  · split
    next he => exact (h.send.of_fst he).stall
theorem State.memoryOk.deliver {k : Nat} {r : Request} {a : Answer} (h : s.memoryOk) : (s.deliver k r a).memoryOk := by
  unfold State.deliver
  split
  · split
    · exact h.askWith (fun _ _ _ _ h => h.endWord)
    · exact h.endWord
  · exact h.endWord
theorem State.memoryOk.ask {k dst : Nat} {op : HomeOp} {sink : Sink} {addr : W64} {logged : Bool} {opc : Nat}
    {on : Nat → WaitOn} {bound : Option Nat} (h : s.memoryOk) : (s.ask k dst op sink addr logged opc on bound).memoryOk := by
  unfold State.ask
  exact h.askWith (fun _ _ _ _ h => h.deliver)

end Sys2Proof.Machine
end

section
/-! SUPPORT. Scalar words, tensor maps and the engines of a tile keep the form of the two memories. -/

namespace Sys2Proof.Machine

variable {s t : State}

/-! ## Results of scalar words -/

theorem State.memoryOk.setG {d : Nat} {v : W64} (h : s.memoryOk) : (s.setG d v).memoryOk := h.retire
theorem State.memoryOk.setQ {d : Nat} {v : Bool} (h : s.memoryOk) : (s.setQ d v).memoryOk := h.retire
theorem State.memoryOk.flagFault {k cls flags : Nat} (h : s.memoryOk) : (s.flagFault k cls flags).memoryOk := h.modTile.fault
theorem State.memoryOk.setF {d : Nat} {r : FRes} (h : s.memoryOk) : (s.setF d r).memoryOk := by
  unfold State.setF
  extract_lets
  split
  · exact h.flagFault
  · exact h.retire
theorem State.memoryOk.setGFlags {d : Nat} {v : W64} {fl : Nat} (h : s.memoryOk) : (s.setGFlags d v fl).memoryOk := by
  unfold State.setGFlags
  extract_lets
  split
  · exact h.flagFault
  · exact h.retire
theorem State.memoryOk.setQFlags {d : Nat} {v : Bool} {fl : Nat} (h : s.memoryOk) : (s.setQFlags d v fl).memoryOk := by
  unfold State.setQFlags
  extract_lets
  split
  · exact h.flagFault
  · exact h.retire

/-! ## Loads, stores and fences -/

theorem State.memoryOk.commitThen {f : State → Out} (h : s.memoryOk) (hf : ∀ s, s.memoryOk → Out.memoryOk (f s)) :
    (s.commitThen f).memoryOk :=
  .ite h.stallIssue (hf s h)
theorem State.memoryOk.drained {f : State → Out} (h : s.memoryOk) (hf : ∀ s, s.memoryOk → Out.memoryOk (f s)) :
    (s.drained f).memoryOk := by
  unfold State.drained
  extract_lets t
  split
  · exact h.setTile.raiseReport
  · exact .ite h.stallIssue (.ite h.stall (hf s h))
theorem State.memoryOk.releaseIf {rel : Bool} {f : State → Out} (h : s.memoryOk) (hf : ∀ s, s.memoryOk → Out.memoryOk (f s)) :
    (s.releaseIf rel f).memoryOk :=
  .ite (h.drained hf) (hf s h)
theorem State.memoryOk.load {ea : W64} {len : Nat} {sink : Sink} {fin : State → Nat → Out} (h : s.memoryOk)
    (hf : ∀ s v, s.memoryOk → Out.memoryOk (fin s v)) : (s.load ea len sink fin).memoryOk := by
  unfold State.load
  extract_lets k d
  refine .ite h.fault ?_
  split
  · exact h.fault
  refine .ite (hf _ _ h) ?_
  split
  · exact h.commitThen fun _ h => .ite h.stallIssue h.ask
  · refine .ite h.stallIssue ?_
    split
    · exact h.fault
    · exact hf _ _ h
  · exact .ite (hf _ _ h) (.ite h.stallIssue h.ask)
theorem State.memoryOk.execLd {d b : BitVec 6} {_sc : BitVec 3} {_o z : BitVec 2} {g : BitVec 1} {i : BitVec 5}
    (h : s.memoryOk) : (execLd d b _sc _o z g i s).memoryOk := by
  unfold Sys2Proof.Machine.execLd
  exact h.load (fun _ _ h => h.setG)
theorem State.memoryOk.enqueueStores {rel : Bool} {es : List (W64 × Acc × List Byte)} (h : s.memoryOk) :
    (s.enqueueStores rel es).memoryOk := by
  unfold State.enqueueStores
  extract_lets
  split
  · split
    · exact h.stallIssue
    · exact h.retire
  · exact h.releaseIf (fun _ h => .ite h.stallIssue h.retire)
theorem State.memoryOk.store {ea : W64} {rel : Bool} {bs : List Byte} (h : s.memoryOk) : (s.store ea rel bs).memoryOk := by
  unfold State.store
  extract_lets
  split
  · exact h.fault
  split
  · exact h.fault
  split
  · exact h.commitThen (fun _ h => h.enqueueStores)
  · exact h.enqueueStores
theorem State.memoryOk.execFld {d : BitVec 5} {a : BitVec 6} {i : BitVec 13} (h : s.memoryOk) : (execFld d a i s).memoryOk := by
  unfold Sys2Proof.Machine.execFld
  exact h.load (fun _ _ h => h.retire)
theorem State.memoryOk.tagPart {va : W64} {acc : Acc} {len : Nat} {sink : Sink} {fin : Nat → Out} (h : s.memoryOk)
    (hf : ∀ v, Out.memoryOk (fin v)) : (s.tagPart va acc len sink fin).memoryOk := by
  unfold State.tagPart
  refine .ite (hf _) (.ite (hf _) (.ite h.stallIssue (.ite h.ask ?_)))
  split
  · exact h.fault
  · exact hf _
theorem State.memoryOk.execFldT {d : BitVec 5} {a : BitVec 6} {i : BitVec 13} (h : s.memoryOk) :
    (execFldT d a i s).memoryOk := by
  unfold Sys2Proof.Machine.execFldT
  extract_lets
  split
  · exact h.fault
  split
  · exact h.fault
  · exact h.fault
  · split
    · exact h.retire
    split
    · exact h.tagPart (fun _ => h.retire)
    · exact h.tagPart (fun _ => h.stall)
theorem State.memoryOk.execFstT {d : BitVec 5} {a : BitVec 6} {i : BitVec 13} (h : s.memoryOk) :
    (execFstT d a i s).memoryOk := by
  unfold Sys2Proof.Machine.execFstT
  extract_lets
  split
  · exact h.fault
  split
  · exact h.fault
  · exact h.fault
  · exact h.enqueueStores
theorem State.memoryOk.imageStop {x : ImageStop} (h : s.memoryOk) : (s.imageStop x).memoryOk := by
  unfold State.imageStop
  split
  · exact h.fault
  · exact h.stallIssue
  · exact h.ask
theorem State.memoryOk.fence (h : s.memoryOk) : (s.fence).memoryOk := by
  unfold State.fence
  split
  · exact h.stallIssue
  · exact h.drained (fun _ h => h.retire)
theorem State.memoryOk.execMark (h : s.memoryOk) : (execMark s).memoryOk := by
  unfold Sys2Proof.Machine.execMark
  extract_lets
  split
  · exact h.setTile.raiseReport
  split
  · exact h.stallIssue
  split
  · exact h.stallIssue
  split
  · exact h.stallIssue
  split
  · exact h.stall
  · exact h.retire
theorem State.memoryOk.performStore {k n : Nat} (h : s.memoryOk) : (s.performStore k n).memoryOk := by
  unfold State.performStore
  extract_lets
  split
  · exact h
  extract_lets
  split
  · exact h.setTile.modTile.settle
  split
  · split
    · exact ((h.setTile.atHome.of_fst ‹_›).modTile).settle
    · refine .settle ?_
      split
      · exact ((h.setTile.atHome.of_fst ‹_›).modTile).modTile
      · exact (h.setTile.atHome.of_fst ‹_›).modTile
    · exact (h.setTile.atHome.of_fst ‹_›).settle
  · split
    · exact h.setTile.setTile
    · split
      exact (((h.setTile.send.of_fst ‹_›).modReq).modTile).settle

/-! ## Atomics -/

theorem State.memoryOk.atomic {op size : Nat} {ea v cmp : W64} {rel nr : Bool} {sink : Sink} (h : s.memoryOk) :
    (s.atomic op size ea v cmp rel nr sink).memoryOk := by
  unfold State.atomic
  refine h.commitThen (fun _ h => ?_)
  extract_lets
  split
  · exact h.fault
  refine h.releaseIf (fun _ h => ?_)
  extract_lets
  split
  · split
    · exact h.retire
    split
    · exact h.stallIssue
    split
    · exact h.stallIssue
    · exact h.retire
  · split
    · split
      · exact h.setG
      · exact h.retire
      · exact h.retire
    · split
      · exact h.stallIssue
      · exact h.ask
theorem State.memoryOk.moveF {d : Nat} {v : FReg} (h : s.memoryOk) : (s.moveF d v).memoryOk := h.retire
theorem State.memoryOk.atomicInt {op : Nat} {d a b : BitVec 6} {o : BitVec 2} {z n : BitVec 1} (h : s.memoryOk) :
    (s.atomicInt op d a b o z n).memoryOk :=
  h.atomic
theorem State.memoryOk.atomicFloat {op : Nat} {d : BitVec 5} {a : BitVec 6} {b : BitVec 5} {o : BitVec 2} {n : BitVec 1}
    (h : s.memoryOk) : (s.atomicFloat op d a b o n).memoryOk :=
  h.atomic
theorem State.memoryOk.execAtq {d a b : BitVec 6} (h : s.memoryOk) : (execAtq d a b s).memoryOk := by
  unfold Sys2Proof.Machine.execAtq
  refine h.commitThen (fun _ h => ?_)
  extract_lets
  split
  · exact h.illegal
  split
  · exact h.fault
  split
  · exact h.stallIssue
  · exact h.ask

/-! ## Tensor maps -/

theorem State.memoryOk.execTmap {d : BitVec 4} {a : BitVec 6} {i : BitVec 13} (h : s.memoryOk) :
    (execTmap d a i s).memoryOk := by
  unfold Sys2Proof.Machine.execTmap
  extract_lets
  split
  · exact h.fault
  split
  · exact h.imageStop
  split
  · exact h.illegal
  · exact h.fault
  · exact h.retire
theorem State.memoryOk.engineWrite {k va : Nat} {bs : List Byte} {slots : Bool} {code : BitVec 4} (h : s.memoryOk)
    (he : s.engineWrite k va bs slots code = .ok t) : t.memoryOk := by
  unfold State.engineWrite at he
  split at he
  · cases he
  · cases he; exact h.writeAcc
theorem State.memoryOk.putAt {k v : Nat} {m : TMap} {p : ElemAt} {slots : Bool} (h : s.memoryOk)
    (he : s.putAt k m p v slots = .ok t) : t.memoryOk := by
  unfold State.putAt at he
  split at he
  · exact h.engineWrite he
  split at he
  · cases he
  · exact h.engineWrite he
theorem State.memoryOk.writeElem {k n v : Nat} {m : TMap} {slots : Bool} {wrote wrote' : List (Nat × Option Nat)}
    (h : s.memoryOk) (he : s.writeElem k m n v slots wrote = .ok (t, wrote')) : t.memoryOk := by
  unfold State.writeElem at he
  split at he
  · cases he
  split at he
  · cases he
  split at he
  · cases he
  · next hp => cases he; exact h.putAt hp

/-! ## Issue of engine commands -/

theorem State.memoryOk.stallCount {k : Nat} (h : s.memoryOk) : (s.stallCount k).memoryOk := by
  unfold State.stallCount
  extract_lets
  split
  · split
    · exact h.raiseAt
    · exact h
  · exact h
theorem State.memoryOk.issue {kind : CmdKind} {a g c : BitVec 6} {x y : BitVec 1} {pair : Bool}
    {check : State → W64 → W64 → IssueCheck} (h : s.memoryOk) : (s.issue kind a g c x y pair check).memoryOk := by
  unfold State.issue
  extract_lets k t q dcc num src p0 p1 room
  refine .ite h.illegal (.ite h.retire ?_)
  have hroom (f : Out) (hf : f.memoryOk) : (room f).memoryOk :=
    .ite h.stallIssue (.ite h.stallIssue (.ite h.stall (.ite h.stallIssue hf)))
  split
  · exact h.illegal
  · exact h.fault
  · exact h.stallIssue
  · exact hroom _ h.imageStop
  · refine hroom _ ?_
    split
    exact h.retire.stallCount
theorem State.memoryOk.issueDrain {kind : CmdKind} {a g c : BitVec 6} {x y : BitVec 1} {ok : TMap → Nat → Bool}
    (h : s.memoryOk) : (s.issueDrain kind a g c x y ok).memoryOk :=
  h.issue
theorem State.memoryOk.issueCopy {kind : CmdKind} {a g c : BitVec 6} {x y : BitVec 1} (h : s.memoryOk) :
    (s.issueCopy kind a g c x y).memoryOk :=
  h.issue
theorem State.memoryOk.issueCollective {kind : CmdKind} {a g c : BitVec 6} {x y : BitVec 1} (h : s.memoryOk) :
    (s.issueCollective kind a g c x y).memoryOk :=
  h.issue
theorem State.memoryOk.execLayget {d a : BitVec 6} {f : BitVec 7} (h : s.memoryOk) : (execLayget d a f s).memoryOk := by
  unfold Sys2Proof.Machine.execLayget
  exact h.commitThen (fun _ h => .ite h.illegal h.setG)

/-! ## The engines of a tile -/

theorem State.memoryOk.stale {c : Cmd} {m : TMap} (h : s.memoryOk) : (Ran.stale s c m).memoryOk := h
theorem State.memoryOk.runVbase {k : Nat} {c : Cmd} (h : s.memoryOk) : (runVbase s k c).memoryOk := h.modTile
theorem State.memoryOk.runVbaseL {k : Nat} {c : Cmd} (h : s.memoryOk) : (runVbaseL s k c).memoryOk := by
  unfold Sys2Proof.Machine.runVbaseL
  extract_lets
  split
  extract_lets
  split <;> exact h.modTile
theorem State.memoryOk.runVhalt {k : Nat} {c : Cmd} (h : s.memoryOk) : (runVhalt s k c).memoryOk := h.modTile
theorem State.memoryOk.runVsend {k : Nat} {c : Cmd} (h : s.memoryOk) : (runVsend s k c).memoryOk := h.modTile
theorem State.memoryOk.runWdef {k : Nat} {c : Cmd} (h : s.memoryOk) : (runWdef s k c).memoryOk := by
  unfold Sys2Proof.Machine.runWdef
  split
  · exact h
  split
  · exact h
  · exact h.modTile
theorem State.memoryOk.startMmul {k : Nat} {c : Cmd} (h : s.memoryOk) : (startMmul s k c).memoryOk := by
  unfold Sys2Proof.Machine.startMmul
  extract_lets
  split
  · exact h
  · split <;> exact h
theorem State.memoryOk.chunkMmul {k : Nat} {c : Cmd} (h : s.memoryOk) : (chunkMmul s k c).memoryOk := by
  unfold Sys2Proof.Machine.chunkMmul
  extract_lets
  split
  · exact h
  split
  · exact h
  split
  · exact h
  split
  · split
    · exact h
    · exact h.setTile
  · split
    · exact h
    · exact h.setTile
theorem State.memoryOk.startMldb {k : Nat} {c : Cmd} (h : s.memoryOk) : (startMldb s k c).memoryOk := by
  unfold Sys2Proof.Machine.startMldb
  split
  · exact h
  · exact h.modTile
theorem State.memoryOk.runMldb {k : Nat} {c : Cmd} (h : s.memoryOk) : (runMldb s k c).memoryOk := by
  unfold Sys2Proof.Machine.runMldb
  split
  split
  · exact h
  · exact h.modTile
theorem State.memoryOk.runMclr {k : Nat} {c : Cmd} (h : s.memoryOk) : (runMclr s k c).memoryOk := h.modTile
theorem State.memoryOk.runMshr {k : Nat} {c : Cmd} (h : s.memoryOk) : (runMshr s k c).memoryOk := h.modTile
theorem State.memoryOk.drainOne {k : Nat} {c : Cmd} (h : s.memoryOk) : (drainOne s k c).memoryOk := by
  unfold Sys2Proof.Machine.drainOne
  split
  split
  · exact h
  split
  · exact h
  · exact h.writeElem ‹_›
theorem State.memoryOk.copyOne {k : Nat} {c : Cmd} (h : s.memoryOk) : (copyOne s k c).memoryOk := by
  unfold Sys2Proof.Machine.copyOne
  split
  · exact h
  split
  · exact h
  split
  · exact h
  · exact h.writeElem ‹_›
theorem State.memoryOk.runElems {one : State → Nat → Cmd → Ran} {k count fuel : Nat} {c : Cmd} (h : s.memoryOk)
    (ho : ∀ s k c, s.memoryOk → (one s k c).memoryOk) : (runElems one k count fuel s c).memoryOk := by
  induction fuel generalizing s c with
  | zero => exact h
  | succ fuel ih =>
    unfold Sys2Proof.Machine.runElems
    split
    · exact h
    split
    · exact ih ((ho _ _ _ h).of_ok ‹_›)
    · exact ho _ _ _ h
theorem State.memoryOk.startCopy {k : Nat} {c : Cmd} (h : s.memoryOk) : (startCopy s k c).memoryOk := by
  unfold Sys2Proof.Machine.startCopy
  split
  · exact h
  split
  · exact h
  · split <;> exact h
theorem State.memoryOk.transfer {k : Nat} {c : Cmd} (h : s.memoryOk) : (s.transfer k c).memoryOk := by
  unfold State.transfer
  extract_lets
  split
  · split
    · exact h.runElems (fun _ _ _ h => h.copyOne)
    split
    · exact (h.bump.runElems (fun _ _ _ h => h.copyOne)).of_ok ‹_›
    · exact h.bump.runElems (fun _ _ _ h => h.copyOne)
  · exact h.runElems (fun _ _ _ h => h.copyOne)
theorem State.memoryOk.fillStream {k rc : Nat} (h : s.memoryOk) : (s.fillStream k rc).memoryOk := by
  unfold State.fillStream
  dsimp only
  split
  · exact h
  split
  · exact h.setTile
  · exact h.modTile
  · split <;> exact .modTile (.ite h.setTile h)

/-! ## Events, barriers and tokens -/

theorem State.memoryOk.eventOp {sel : W64} {f : State → Nat → Out} (h : s.memoryOk)
    (hf : ∀ s d, s.memoryOk → Out.memoryOk (f s d)) : (s.eventOp sel f).memoryOk := by
  unfold State.eventOp
  exact h.commitThen fun s h => .ite h.illegal (.ite h.fault (hf s _ h))
theorem State.memoryOk.execEvsig {a b : BitVec 6} (h : s.memoryOk) : (execEvsig a b s).memoryOk := by
  unfold Sys2Proof.Machine.execEvsig
  exact h.eventOp (fun _ _ h => .ite h.illegal (h.drained (fun _ h => h.ask)))
theorem State.memoryOk.execEvsigR {a : BitVec 6} (h : s.memoryOk) : (execEvsigR a s).memoryOk := by
  unfold Sys2Proof.Machine.execEvsigR
  exact h.eventOp (fun _ _ h => h.drained (fun _ h => h.ask))
theorem State.memoryOk.execEvpoll {d a : BitVec 6} (h : s.memoryOk) : (execEvpoll d a s).memoryOk := by
  unfold Sys2Proof.Machine.execEvpoll
  exact h.eventOp (fun _ _ h => h.ask)
theorem State.memoryOk.execEvwait {a b : BitVec 6} (h : s.memoryOk) : (execEvwait a b s).memoryOk := by
  unfold Sys2Proof.Machine.execEvwait
  extract_lets
  split
  · exact h.illegal
  · exact h.eventOp (fun _ _ h => .ite h.illegal (.ite h.takeCut (.ite h.stall (h.drained (fun _ h => h.ask)))))
theorem State.memoryOk.barOp {sel v : W64} {init : Bool} (h : s.memoryOk) : (s.barOp sel v init).memoryOk := by
  unfold State.barOp
  refine h.commitThen (fun _ h => ?_)
  extract_lets
  split
  · exact h.illegal
  split
  · exact h.fault
  split
  · exact h.fault
  · exact h.drained (fun _ h => h.ask)
theorem State.memoryOk.execBarwait {d a : BitVec 6} {i : BitVec 13} (h : s.memoryOk) : (execBarwait d a i s).memoryOk := by
  unfold Sys2Proof.Machine.execBarwait
  extract_lets
  split
  · exact h.stall
  split
  · exact h.illegal
  split
  · exact h.fault
  split
  · exact h.retire
  · exact h.stall.serveBar
theorem State.memoryOk.execToksig {t a : BitVec 6} {i : BitVec 13} (h : s.memoryOk) : (execToksig t a i s).memoryOk := by
  unfold Sys2Proof.Machine.execToksig
  extract_lets
  split
  · exact h.retire
  · exact h.drained (fun _ h => h.retire)
theorem State.memoryOk.execTokwait {t a : BitVec 6} {i : BitVec 13} (h : s.memoryOk) : (execTokwait t a i s).memoryOk := by
  unfold Sys2Proof.Machine.execTokwait
  extract_lets
  split
  · exact h.illegal
  split
  · exact h.stall
  split
  · exact h.retire
  split
  · exact h.retire
  · exact h.stall.modTile

end Sys2Proof.Machine
end

section
/-! SUPPORT. The torus, collectives, RESHARD and engine commands keep the form of the two memories. -/

namespace Sys2Proof.Machine

variable {s t : State}

/-! ## HEXCH and layouts -/

theorem State.memoryOk.modCmd {k pos : Nat} {f : Cmd → Cmd} (h : s.memoryOk) : (s.modCmd k pos f).memoryOk := by
  unfold State.modCmd
  split
  · exact h.modTile
  · exact h.modDie
theorem State.memoryOk.finishLegs {c : Cmd} {src : Nat} (h : s.memoryOk) : (finishLegs s c src).memoryOk := by
  unfold Sys2Proof.Machine.finishLegs
  split
  · exact h
  · split <;> exact h
theorem State.memoryOk.postSlabs {k die bar per count fuel i legs : Nat} {c : Cmd} {b : TMap} {f : Face} {vals : List Nat}
    (h : s.memoryOk) : (postSlabs k c b f vals die bar per count fuel i s legs).1.memoryOk := by
  induction fuel generalizing s i legs with
  | zero => exact h
  | succ fuel ih =>
    unfold Sys2Proof.Machine.postSlabs
    split
    · exact h
    extract_lets idx have_ n
    split
    · exact ih h
    split
    split
    · exact h.post
    · exact ih h.post
theorem State.memoryOk.sendFace {k : Nat} {b : TMap} {barn : Nat → Nat} {f : Face} {vals : List Nat} {x : State × Cmd}
    (h : x.1.memoryOk) : (sendFace k b barn f vals x).1.memoryOk := by
  obtain ⟨s, c⟩ := x
  unfold Sys2Proof.Machine.sendFace
  dsimp only
  split
  · exact h
  split
  · exact h
  · exact State.memoryOk.postSlabs h
theorem State.memoryOk.startHexch {k : Nat} {c : Cmd} (h : s.memoryOk) : (startHexch s k c).memoryOk := by
  unfold Sys2Proof.Machine.startHexch
  extract_lets err
  split
  · exact h
  · exact h
  · split
    · exact h.stale
    refine .ite h ?_
    extract_lets read
    clear_value read
    split
    · exact h
    extract_lets vals fl
    split
    · exact h
    · split
      next he => exact (foldl_fst (x := (s, _)) h (fun _ _ h => h.sendFace) _).of_fst he
theorem State.memoryOk.putElem {d bits code : Nat} {e : Option Nat × Option Nat × Nat} (h : s.memoryOk) :
    (s.putElem d bits code e).memoryOk := by
  unfold State.putElem
  split
  · exact h
  split
  · exact h
  · split <;> exact h.writePlain
theorem State.memoryOk.slabArrives {id tile pos die bar job fid idx bits code : Nat} {es : List (Option Nat × Option Nat × Nat)}
    {flt : Option AFault} (h : s.memoryOk) : (s.slabArrives id tile pos die bar job fid idx bits code es flt).memoryOk := by
  unfold State.slabArrives
  split
  · exact h
  extract_lets
  split
  · exact h.unpost.modCmd
  · exact ((h.unpost.foldl (fun _ _ h => h.putElem) _).setBar).modCmd
theorem State.memoryOk.startLayset {k : Nat} {c : Cmd} (h : s.memoryOk) : (startLayset s k c).memoryOk := by
  unfold Sys2Proof.Machine.startLayset
  dsimp only
  split
  · exact h
  split
  · exact h
  split
  · split
    · exact h
    · exact h.post
  · split
    · exact h
    split
    · exact h
    split
    · exact h
    split
    · exact h
    · exact h.post
theorem State.memoryOk.distribute {id tile pos job slot : Nat} {addr : W64} {img : LaySlot} (h : s.memoryOk) :
    (s.distribute id tile pos job slot addr img).memoryOk := by
  unfold State.distribute
  extract_lets
  split
  · exact (h.unpost.foldl (fun _ _ h => h.tell) _).modCmd
  · exact (h.unpost.foldl (fun _ _ h => h.post) _).modCmd
theorem State.memoryOk.install {id tile pos die job slot : Nat} {img : LaySlot} (h : s.memoryOk) :
    (s.install id tile pos die job slot img).memoryOk :=
  h.unpost.modJobDie.modCmd
theorem State.memoryOk.startLaysetPass {k : Nat} {c : Cmd} (h : s.memoryOk) : (startLaysetPass s k c).memoryOk := by
  unfold Sys2Proof.Machine.startLaysetPass
  extract_lets
  split
  · exact h
  extract_lets
  split
  · exact h
  split
  · exact h
  split
  · exact h
  split
  · exact h
  split
  · exact h
  · exact h.post
theorem State.memoryOk.distributePass {id tile pos job : Nat} {ps : List Pass} (h : s.memoryOk) :
    (s.distributePass id tile pos job ps).memoryOk := by
  unfold State.distributePass
  exact (h.unpost.foldl (fun _ _ h => h.post) _).modCmd
theorem State.memoryOk.installPass {id tile pos die job : Nat} {ps : List Pass} (h : s.memoryOk) :
    (s.installPass id tile pos die job ps).memoryOk := by
  unfold State.installPass
  extract_lets
  split
  · exact h.unpost.modJobDie
  · exact h.unpost.modJobDie.modCmd
theorem State.memoryOk.installWaiting {die job : Nat} (h : s.memoryOk) : (s.installWaiting die job).memoryOk := by
  unfold State.installWaiting
  exact h.modJobDie.foldl (fun _ _ h => h.modJobDie.modCmd) _

/-! ## Collectives -/

theorem State.memoryOk.setColl {d key : Nat} {c : CollSlot} (h : s.memoryOk) : (s.setColl d key c).memoryOk := h.modDie
theorem State.memoryOk.freeColl {d key deadline : Nat} (h : s.memoryOk) : (s.freeColl d key deadline).memoryOk := h.modDie
theorem State.memoryOk.writeBuf {d : Nat} {buf : Option Nat} {bs : List Byte} (h : s.memoryOk) :
    (s.writeBuf d buf bs).memoryOk := by
  unfold State.writeBuf
  split
  · exact h
  split
  · exact h.writeAtomic
  · exact h
theorem State.memoryOk.endLocal {d key deadline : Nat} {l : CollLocal} {bs : List Byte} {flags : Nat} (h : s.memoryOk) :
    (s.endLocal d key deadline l bs flags).memoryOk :=
  h.writeBuf.freeColl.modCmd
theorem State.memoryOk.sendDown {d job cid : Nat} {b : CollBox} {p : Partial} (h : s.memoryOk) :
    (s.sendDown d job cid b p).memoryOk := by
  unfold State.sendDown
  exact h.foldl (fun _ _ h => h.post) _
theorem State.memoryOk.collDone {d job cid : Nat} {c : CollSlot} {p : Partial} (h : s.memoryOk) :
    (s.collDone d job cid c p).memoryOk := by
  unfold State.collDone
  extract_lets
  split
  · split
    exact h.sendDown.endLocal
  · exact h.sendDown.setColl
theorem State.memoryOk.startCollective {k : Nat} {c : Cmd} (h : s.memoryOk) : (startCollective s k c).memoryOk := by
  unfold Sys2Proof.Machine.startCollective
  extract_lets
  split
  · exact h
  extract_lets
  split
  · exact h
  · exact h
  · extract_lets
    split
    · exact h
    split
    · exact h.writeBuf
    split
    · exact h.writeBuf
    split
    · exact h.sendDown.writeBuf
    split
    · split
      exact h.writeBuf.freeColl
    · exact h.setColl
    · exact h.setColl
theorem State.memoryOk.partArrives {id job cid die port : Nat} {b : CollBox} {p : Partial} (h : s.memoryOk) :
    (s.partArrives id job cid die port b p).memoryOk := by
  unfold State.partArrives
  extract_lets
  split
  · exact h.unpost
  split
  · exact h.unpost
  · exact h.unpost.setColl
theorem State.memoryOk.forwardColl {die job cid : Nat} (h : s.memoryOk) : (s.forwardColl die job cid).memoryOk := by
  unfold State.forwardColl
  extract_lets
  split
  · exact h
  split
  · split
    · exact h
    extract_lets
    split
    · exact h.setColl.post
    · exact h.setColl
  · exact h
theorem State.memoryOk.rootFinish {die job cid : Nat} (h : s.memoryOk) : (s.rootFinish die job cid).memoryOk := by
  unfold State.rootFinish
  split
  · exact h
  split
  · split
    · exact h
    · exact h.collDone
  · exact h
theorem State.memoryOk.bcastDeadline {die job cid : Nat} (h : s.memoryOk) : (s.bcastDeadline die job cid).memoryOk := by
  unfold State.bcastDeadline
  extract_lets
  split
  · exact h
  split
  · split
    · exact h.endLocal
    · exact h
  · exact h
theorem State.memoryOk.collTimeout {die job cid : Nat} (h : s.memoryOk) : (s.collTimeout die job cid).memoryOk := by
  unfold State.collTimeout
  extract_lets
  split
  · exact h
  split
  · exact h
  split
  · exact h.bcastDeadline
  split
  · exact h.rootFinish
  split
  · exact h.endLocal
  · exact h.freeColl
theorem State.memoryOk.resultArrives {id job cid die : Nat} {b : CollBox} {p : Partial} (h : s.memoryOk) :
    (s.resultArrives id job cid die b p).memoryOk := by
  unfold State.resultArrives
  extract_lets
  split
  · exact h.unpost
  split
  · split
    · exact h.unpost
    split
    · exact h.unpost.sendDown.collTimeout
    split
    · exact h.unpost.sendDown.bcastDeadline
    · exact h.unpost.collDone
  · split
    · exact h.unpost.sendDown
    · exact h.unpost.collDone

/-! ## RESHARD -/

theorem State.memoryOk.moveElems {ls lt : LaySlot} {a b : Nat} (h : s.memoryOk) : (s.moveElems ls lt a b).memoryOk := by
  unfold State.moveElems
  exact h.foldl (fun _ _ h => .ite h (h.foldl (fun _ _ h => h.putElem) _)) _
theorem State.memoryOk.freeTarget {die : Nat} {ls lt : LaySlot} (h : s.memoryOk) : (s.freeTarget die ls lt).memoryOk := by
  unfold State.freeTarget
  refine h.foldl (fun _ _ h => h.foldl (fun _ _ h => ?_) _) _
  extract_lets
  split
  · exact h
  · exact .writePlain h
theorem State.memoryOk.endReshard {die job t0 cls : Nat} {faddr : W64} (h : s.memoryOk) :
    (s.endReshard die job t0 cls faddr).memoryOk := by
  unfold State.endReshard
  extract_lets
  split
  · exact h.modJobDie
  split
  · exact h
  · exact h.freeTarget.modJobDie.modCmd.installWaiting
theorem State.memoryOk.sendAborts {die job t0 cls : Nat} {faddr : W64} (h : s.memoryOk) :
    (s.sendAborts die job t0 cls faddr).memoryOk := by
  unfold State.sendAborts
  exact h.foldl (fun _ _ h => h.post) _
theorem State.memoryOk.abortOwn {die job : Nat} {r : Reshard} {cls : Nat} (h : s.memoryOk) :
    (s.abortOwn die job r cls).memoryOk :=
  h.sendAborts.endReshard
theorem State.memoryOk.go {k d j sl tl t0 rank : Nat} {c : Cmd} {err : State → Nat → W64 → Ran} (h : s.memoryOk)
    (he : ∀ s cls va, s.memoryOk → (err s cls va).memoryOk) : (startReshard.go s k c err d j sl tl t0 rank).memoryOk := by
  unfold startReshard.go
  split
  · exact he _ _ _ (.modJobDie (.endReshard (.sendAborts (.ite h h.freeTarget))))
  · exact h.modJobDie
theorem State.memoryOk.startReshard {k : Nat} {c : Cmd} (h : s.memoryOk) : (startReshard s k c).memoryOk := by
  unfold Sys2Proof.Machine.startReshard
  extract_lets
  split
  · split
    · exact .fault (.ite h h.freeTarget)
    · exact h.go (fun _ _ _ h => h)
  · exact h.go (fun _ _ _ h => h)
theorem State.memoryOk.setReshard {die job : Nat} {r : Reshard} (h : s.memoryOk) : (s.setReshard die job r).memoryOk :=
  h.modJobDie
theorem State.memoryOk.commitReshard {die job : Nat} {r : Reshard} (h : s.memoryOk) : (s.commitReshard die job r).memoryOk :=
  h.modJobDie.modCmd.installWaiting
theorem State.memoryOk.aheadCheck {die job : Nat} {r : Reshard} (h : s.memoryOk) : (s.aheadCheck die job r).memoryOk := by
  unfold State.aheadCheck
  extract_lets
  split
  · exact h
  split
  · exact h
  split
  · exact h.abortOwn
  split
  · exact h.abortOwn
  · exact h
theorem State.memoryOk.passTime {die job : Nat} (h : s.memoryOk) : (s.passTime die job).memoryOk := by
  unfold State.passTime
  split
  · exact h
  split
  · exact h
  split
  · exact h
  split
  · exact h.aheadCheck
  split
  · exact h
  split
  · exact h.abortOwn
  extract_lets
  split
  · exact h.setReshard.post.abortOwn
  · exact h.setReshard.post
theorem State.memoryOk.slackExpiry {die job : Nat} (h : s.memoryOk) : (s.slackExpiry die job).memoryOk := by
  unfold State.slackExpiry
  split
  · exact h
  split
  · exact h
  split
  · exact h
  split
  · exact h.aheadCheck
  split
  · exact h
  · exact h.abortOwn
theorem State.memoryOk.readyArrives {id job frm die pass sl tl t0 : Nat} (h : s.memoryOk) :
    (s.readyArrives id job frm die pass sl tl t0).memoryOk := by
  unfold State.readyArrives
  extract_lets
  split
  · exact h.unpost
  split
  · exact h
  split
  · exact h
  extract_lets
  split
  · split
    · exact h.unpost.setReshard
    split
    · exact h.unpost.abortOwn
    split
    · exact h.unpost.abortOwn
    · exact h.unpost.setReshard
  · split
    · exact h.unpost.setReshard.aheadCheck
    · exact h.unpost.setReshard
theorem State.memoryOk.passEnd {die job : Nat} (h : s.memoryOk) : (s.passEnd die job).memoryOk := by
  unfold State.passEnd
  split
  · exact h
  split
  · exact h
  dsimp only
  split
  · exact h
  split
  · exact h.abortOwn
  split
  · split
    · split
      · exact h.setReshard.post
      · exact h.setReshard
    · split
      · exact h.moveElems.setReshard.post
      · exact h.moveElems.setReshard
  · split
    · exact h
    · exact h.abortOwn
    · split
      · exact h
      split
      · split
        · split
          · exact h.moveElems.moveElems.setReshard.setReshard.post
          · exact h.moveElems.moveElems.setReshard.setReshard
        · split
          · exact h.moveElems.moveElems.setReshard.moveElems.setReshard.post
          · exact h.moveElems.moveElems.setReshard.moveElems.setReshard
      · exact h
theorem State.memoryOk.reportArrives {id job frm die t0 : Nat} (h : s.memoryOk) :
    (s.reportArrives id job frm die t0).memoryOk := by
  unfold State.reportArrives
  extract_lets
  split
  · exact h.unpost
  split
  · exact h
  split
  · exact h
  extract_lets
  split
  · exact h.unpost.setReshard.foldl (fun _ _ h => h.post) _
  · exact h.unpost.setReshard
theorem State.memoryOk.commitArrives {id job die t0 : Nat} (h : s.memoryOk) : (s.commitArrives id job die t0).memoryOk := by
  unfold State.commitArrives
  split
  · exact h.unpost
  split
  · exact h.unpost.commitReshard
  · exact h.unpost
theorem State.memoryOk.localMove {die job : Nat} (h : s.memoryOk) : (s.localMove die job).memoryOk := by
  unfold State.localMove
  split
  · exact h
  split
  · exact h
  split
  · exact h.abortOwn
  · exact h.moveElems.commitReshard

/-! ## Engine commands from start to completion -/

theorem State.memoryOk.gateIdle {k i : Nat} (h : s.memoryOk) : (s.gateIdle k i).memoryOk := by
  unfold State.gateIdle
  extract_lets
  split
  · exact h
  · exact h.setTile
theorem State.memoryOk.wakeEnds {k i : Nat} (h : s.memoryOk) : (s.wakeEnds k i).memoryOk := by
  unfold State.wakeEnds
  extract_lets
  split
  · split
    · exact h.setTile
    · exact h
  · exact h
theorem State.memoryOk.afterStep {k : Nat} (h : s.memoryOk) : (s.afterStep k).memoryOk := h.settle.modTile.stallCount
theorem State.memoryOk.finishCmd {k : Nat} {c : Cmd} (h : s.memoryOk) : (s.finishCmd k c).memoryOk := h.modTile.afterStep
theorem State.memoryOk.dropStarted {k pos : Nat} (h : s.memoryOk) : (s.dropStarted k pos).memoryOk := h.modTile
theorem State.memoryOk.endCmd {k : Nat} {c : Cmd} {i : TrapInfo} (h : s.memoryOk) : (s.endCmd k c i).memoryOk :=
  h.dropStarted.modTile.cmdFault
theorem State.memoryOk.vsFault {k : Nat} {i : TrapInfo} (h : s.memoryOk) : (s.vsFault k i).memoryOk := by
  unfold State.vsFault
  extract_lets
  split
  · exact h
  · exact h.setTile.cmdFault
theorem State.memoryOk.startDrain {k : Nat} {c : Cmd} (h : s.memoryOk) : (startDrain s k c).memoryOk := by
  unfold Sys2Proof.Machine.startDrain
  split <;> exact h
theorem State.memoryOk.startKind {k : Nat} {c : Cmd} (h : s.memoryOk) : (startKind s k c).memoryOk := by
  unfold Sys2Proof.Machine.startKind
  split
  · exact h.modTile
  · exact h.runVbase
  · exact h.modTile
  · exact h.runVhalt
  · exact h.runVsend
  · exact h.runWdef
  · exact h.startMldb
  · exact h.startMmul
  · exact h.startDrain
  · exact h.startDrain
  · exact h
  · exact h
  · exact h.modTile
  · exact h.startCopy
  · exact h.startCopy
  · exact h.startCopy
  · exact h.startCopy
  · exact h.modTile
  · exact h.startHexch
  · exact h.startLayset
  · exact h.startLaysetPass
  · exact h.startReshard
  · exact h.startCollective
  · exact h.startCollective
theorem State.memoryOk.begin_ {k : Nat} {q : Queue} {c : Cmd} {rest : List Cmd} (h : s.memoryOk) :
    (s.begin_ k q c rest).memoryOk := by
  unfold State.begin_
  extract_lets
  split
  · split
    · exact (h.setTile.startKind.of_ok ‹_›).afterStep
    split
    · exact (h.setTile.startKind.of_ok ‹_›).finishCmd
    · exact ((h.setTile.startKind.of_ok ‹_›).modTile).afterStep
  · exact ((h.setTile.startKind.of_wait ‹_›).modTile).afterStep
  · exact (h.setTile.startKind.of_fault ‹_›).endCmd
theorem State.memoryOk.raiseMiss {k : Nat} {c : Cmd} (h : s.memoryOk) : (s.raiseMiss k c).memoryOk := h.raiseAt
theorem State.memoryOk.gateSets {k : Nat} {q : Queue} (h : s.memoryOk) : (s.gateSets k q).memoryOk := by
  unfold State.gateSets
  split
  · exact h.foldl (fun _ _ h => h.gateIdle) _
  · exact h
theorem State.memoryOk.startCommand {k n : Nat} {q : Queue} (h : s.memoryOk) : (s.startCommand k q n).memoryOk := by
  unfold State.startCommand
  extract_lets s₁ t dcc
  have h : s₁.memoryOk := h.gateSets
  split
  · exact h
  refine .ite h (.ite h.raiseMiss ?_)
  split
  refine .ite h.setTile (.ite h.setTile (.ite (.ite h.setTile h.setTile.setTile) ?_))
  exact .ite h.setTile (.ite h.setTile (.ite h.setTile (.ite h.setTile h.setTile.begin_)))
theorem State.memoryOk.missEvent {k : Nat} (h : s.memoryOk) : (s.missEvent k).memoryOk := by
  unfold State.missEvent
  extract_lets
  split
  · exact h
  split
  · exact h.raiseMiss
  · exact h
theorem State.memoryOk.runKind {k : Nat} {c : Cmd} (h : s.memoryOk) : (runKind s k c).memoryOk := by
  unfold Sys2Proof.Machine.runKind
  extract_lets
  split
  · exact h.runVbaseL
  · split
    · split <;> exact h
    · exact h
  · exact h.runMldb
  · split <;> exact h
  · exact h.runElems (fun _ _ _ h => h.drainOne)
  · exact h.runElems (fun _ _ _ h => h.drainOne)
  · split
    · exact h
    · exact h.runMclr
  · split
    · exact h
    · exact h.runMshr
  · split
    · exact h
    split
    · exact h
    · exact h.transfer
  · split
    · exact h
    split
    · exact h
    · exact h.transfer
  · split
    · exact h
    split
    · exact h
    · exact h.transfer
  · split
    · exact h
    split
    · exact h
    · exact h.transfer
  · split
    · exact h.finishLegs
    · exact h
  · split
    · exact h.finishLegs
    · exact h
  · exact h.finishLegs
  · exact h.finishLegs
  · exact h.finishLegs
  · exact h.finishLegs
  · exact h
  · exact h
  · exact h
  · exact h
  · exact h
  · exact h
theorem State.memoryOk.hold {k : Nat} {r : Report} (h : s.memoryOk) : (s.hold k r).memoryOk := h.modTile
theorem State.memoryOk.finishSaved {k job n : Nat} {v : Saved} {c : Cmd} (h : s.memoryOk) :
    (s.finishSaved k job n v c).memoryOk :=
  h.setFrame
theorem State.memoryOk.finishVrun {k : Nat} (h : s.memoryOk) : (s.finishVrun k).memoryOk := by
  unfold State.finishVrun
  split
  · split
    · exact h.modTile.finishCmd
    · exact h
  · exact h
theorem State.memoryOk.endFailed {k : Nat} {c : Cmd} (h : s.memoryOk) : (s.endFailed k c).memoryOk := by
  unfold State.endFailed
  split
  · exact h.hold.finishCmd
  · exact h
theorem State.memoryOk.completeCommand {k pos : Nat} (h : s.memoryOk) : (s.completeCommand k pos).memoryOk := by
  unfold State.completeCommand
  extract_lets
  split
  · exact h.finishVrun
  split
  · split
    · exact h.endFailed
    split
    · exact h
    split
    · exact h.runKind.of_wait ‹_›
    · split
      · exact (h.runKind.of_ok ‹_›).modTile
      refine .finishCmd ?_
      split
      · exact (h.runKind.of_ok ‹_›).hold
      · exact h.runKind.of_ok ‹_›
    · split
      · exact (h.runKind.of_fault ‹_›).modTile
      · exact (h.runKind.of_fault ‹_›).endCmd
  · split
    · split
      · exact h
      · exact h.finishSaved
    · exact h
theorem State.memoryOk.lateLeg {k pos cls : Nat} {addr : W64} (h : s.memoryOk) : (s.lateLeg k pos cls addr).memoryOk := by
  unfold State.lateLeg
  extract_lets
  split
  · split
    · exact h
    split
    · exact h.endFailed
    · exact h.dropStarted.hold.afterStep
  · split
    · split
      · exact h.setFrame
      · exact h
    · exact h
theorem State.memoryOk.commitChunkEvent {k : Nat} (h : s.memoryOk) : (s.commitChunkEvent k).memoryOk := by
  unfold State.commitChunkEvent
  extract_lets
  split
  · exact h
  split
  · exact h
  split
  · exact (h.chunkMmul.of_fault ‹_›).endCmd
  · exact (h.chunkMmul.of_ok ‹_›).modTile
  · exact h.chunkMmul.of_wait ‹_›
theorem State.memoryOk.waitBound {k who : Nat} (h : s.memoryOk) : (s.waitBound k who).memoryOk := by
  unfold State.waitBound
  extract_lets
  split
  · split
    · split
      · exact h.unwait.modTile.raise
      · exact h
    · exact h
  · split
    · split
      · split
        · exact h.vsFault
        · exact h
      · exact h
    · exact h
  · extract_lets
    split
    · extract_lets
      split
      · exact h.raiseAt
      · exact h
    · exact h
theorem State.memoryOk.execReshardReady {id : Nat} (h : s.memoryOk) : (execReshardReady id s).memoryOk := by
  unfold Sys2Proof.Machine.execReshardReady
  split
  · exact h.readyArrives
  · exact h
theorem State.memoryOk.execReshardAbort {id : Nat} (h : s.memoryOk) : (execReshardAbort id s).memoryOk := by
  unfold Sys2Proof.Machine.execReshardAbort
  split
  · exact h.unpost.endReshard
  · exact h
theorem State.memoryOk.execReshardReport {id : Nat} (h : s.memoryOk) : (execReshardReport id s).memoryOk := by
  unfold Sys2Proof.Machine.execReshardReport
  split
  · exact h.reportArrives
  · exact h
theorem State.memoryOk.execReshardCommit {id : Nat} (h : s.memoryOk) : (execReshardCommit id s).memoryOk := by
  unfold Sys2Proof.Machine.execReshardCommit
  split
  · split
    · exact h.commitArrives
    · exact h
  · exact h
theorem State.memoryOk.execSlabArrival {id : Nat} (h : s.memoryOk) : (execSlabArrival id s).memoryOk := by
  unfold Sys2Proof.Machine.execSlabArrival
  split
  · exact h.slabArrives
  · exact h
theorem State.memoryOk.execLaysetDistribute {id : Nat} (h : s.memoryOk) : (execLaysetDistribute id s).memoryOk := by
  unfold Sys2Proof.Machine.execLaysetDistribute
  split
  · split
    · exact h.distribute
    · exact h
  · split
    · exact h.distributePass
    · exact h
  · exact h
theorem State.memoryOk.execLaysetInstall {id : Nat} (h : s.memoryOk) : (execLaysetInstall id s).memoryOk := by
  unfold Sys2Proof.Machine.execLaysetInstall
  split
  · split
    · exact h.install
    · exact h
  · split
    · exact h.installPass
    · exact h
  · exact h
theorem State.memoryOk.execCollectivePartialArrival {id : Nat} (h : s.memoryOk) :
    (execCollectivePartialArrival id s).memoryOk := by
  unfold Sys2Proof.Machine.execCollectivePartialArrival
  split
  · exact h.partArrives
  · exact h
theorem State.memoryOk.execCollectiveResultArrival {id : Nat} (h : s.memoryOk) :
    (execCollectiveResultArrival id s).memoryOk := by
  unfold Sys2Proof.Machine.execCollectiveResultArrival
  split
  · exact h.resultArrives
  · exact h

/-! ## Branches and guards -/

theorem State.memoryOk.branch {taken : Bool} {target : W64} (h : s.memoryOk) : (s.branch taken target).memoryOk := by
  unfold State.branch
  split
  · exact h.retireTo
  · exact h.retire
theorem State.memoryOk.execJalr {d a : BitVec 6} {i : BitVec 13} (h : s.memoryOk) : (execJalr d a i s).memoryOk := by
  unfold Sys2Proof.Machine.execJalr
  extract_lets
  split
  · exact h.fault
  · exact h.retireTo
theorem State.memoryOk.execLoop {a : BitVec 6} {o : BitVec 10} (h : s.memoryOk) : (execLoop a o s).memoryOk := by
  unfold Sys2Proof.Machine.execLoop
  extract_lets
  split
  · exact h.retire
  split
  · exact h.retire
  · exact h.retireTo
theorem State.memoryOk.execGrd {q : BitVec 3} {n : BitVec 1} {c : BitVec 3} (h : s.memoryOk) : (execGrd q n c s).memoryOk := by
  unfold Sys2Proof.Machine.execGrd
  extract_lets
  split
  · exact h.fault
  split
  · exact h.illegal
  · exact h.setTile

/-! ## Scalar floating point -/

theorem State.memoryOk.execFcvt {d a : BitVec 6} {k : BitVec 4} {r : BitVec 3} (h : s.memoryOk) :
    (execFcvt d a k r s).memoryOk := by
  unfold Sys2Proof.Machine.execFcvt
  dsimp only
  split
  · exact h.setF
  · exact h.setF
  · exact h.setGFlags
  · exact h.setGFlags
  · exact h.setGFlags
  · exact h.setGFlags
  · exact h.setF
  · exact h.setF
  · exact h.setF
  · exact h.setF
  · exact h.setGFlags
  · exact h.setGFlags
  · exact h.illegal
theorem State.memoryOk.execFsigImm {d i : BitVec 5} (h : s.memoryOk) : (execFsigImm d i s).memoryOk := by
  unfold Sys2Proof.Machine.execFsigImm
  split
  · exact h.moveF
  · exact h.moveF
  · exact h.illegal

end Sys2Proof.Machine
end

section
/-! SUPPORT. Translations, units, the network between dies, system words and the platform keep the form of the two memories. -/

namespace Sys2Proof.Machine

variable {s t : State}

/-! ## Translations and revocations -/

theorem State.memoryOk.tlbPage {d asid va : Nat} (h : s.memoryOk) : (s.tlbPage d asid va).memoryOk := h.modDie
theorem State.memoryOk.writeLeaf {d asid va entry : Nat} (h : s.memoryOk) : (s.writeLeaf d asid va entry).memoryOk := by
  unfold State.writeLeaf
  refine .tlbPage ?_
  split
  · exact h.putBytes
  · exact h.modDie
theorem State.memoryOk.revoke {j va len : Nat} (h : s.memoryOk) : (s.revoke j va len).memoryOk := h
theorem State.memoryOk.discardPages {id : Nat} {r : Revocation} (h : s.memoryOk) : (s.discardPages id r).memoryOk := by
  unfold State.discardPages
  extract_lets
  split
  exact h.foldl (fun _ _ h => h.foldl (fun _ _ h => h.writeLeaf) _) _
theorem State.memoryOk.discard {k j va len : Nat} (h : s.memoryOk) : (s.discard k j va len).1.memoryOk := .discardPages h
theorem State.memoryOk.changeLeaf {j va entry : Nat} (h : s.memoryOk) : (s.changeLeaf j va entry).memoryOk := by
  unfold State.changeLeaf
  exact (h.foldl (fun _ _ h => h.writeLeaf) _).revoke
theorem State.memoryOk.renewExtents {k va len : Nat} (h : s.memoryOk) : (s.renewExtents k va len).memoryOk := by
  unfold State.renewExtents
  extract_lets
  split <;> exact h.setTile
theorem State.memoryOk.dropStores {k va len : Nat} (h : s.memoryOk) : (s.dropStores k va len).memoryOk := h
theorem State.memoryOk.endRevocation {id : Nat} {r : Revocation} (h : s.memoryOk) : (s.endRevocation id r).memoryOk := by
  unfold State.endRevocation
  extract_lets
  split
  · split
    · split
      · exact .finishWord (.renewExtents (.dropStores h))
      · exact h
    · exact h
  · exact h

/-! ## Dispatch, launches and saves -/

theorem State.memoryOk.setQueueAt {d p : Nat} {l : List Entry} (h : s.memoryOk) : (s.setQueueAt d p l).memoryOk := h.modDie
theorem State.memoryOk.ageLevel {d p : Nat} (h : s.memoryOk) : (s.ageLevel d p).memoryOk := by
  unfold State.ageLevel
  exact h.foldl (fun _ _ h => .ite h.setQueueAt.setQueueAt h) _
theorem State.memoryOk.putSlice {k : Nat} {sl : Tab Byte} (h : s.memoryOk) : (s.putSlice k sl).memoryOk :=
  s.memoryOk_putSlice k sl h
theorem State.memoryOk.startFault {k va : Nat} (h : s.memoryOk) : (s.startFault k va).memoryOk := by
  unfold State.startFault
  extract_lets
  split
  · exact h.takeCut
  · exact h.handlerEntry.endUnit
theorem State.memoryOk.resumeFrame {k : Nat} {v : Saved} {bad : Option Nat} (h : s.memoryOk) :
    (s.resumeFrame k v bad).memoryOk := by
  unfold State.resumeFrame
  extract_lets
  split
  · split
    · exact h.takeCut
    · exact .endUnit (.modTile (.handlerEntry (.modTile (.ite h.sectorDamage h))))
  · exact h.startFault
  · split
    · split
      · exact h.writeAcc
      · exact h
    · exact h.setTile
theorem State.memoryOk.startUnit {k : Nat} {e : Entry} {exts : List Extent} {bad : Option Nat} (h : s.memoryOk) :
    (s.startUnit k e exts bad).memoryOk := by
  unfold State.startUnit
  extract_lets
  split
  · exact h.modJobDie.putSlice.setTile.resumeFrame
  split
  · exact h.setTile.startFault
  · exact h.setTile
theorem State.memoryOk.dispatchOne {d : Nat} (h : s.memoryOk) : (s.dispatchOne d).memoryOk := by
  unfold State.dispatchOne
  split
  · exact h
  refine .preemptAll ?_
  split
  · exact h.ageLevel
  extract_lets
  split
  · exact h.ageLevel.setQueueAt.discardRecord
  split
  · exact h.ageLevel.setQueueAt.setAside
  · split
    · exact h.ageLevel.setQueueAt.startUnit
    · exact h.ageLevel.setQueueAt.setAside
  · exact h.ageLevel.setQueueAt.startUnit
  · exact h.ageLevel.setQueueAt.startUnit
theorem State.memoryOk.sweep {d : Nat} (h : s.memoryOk) : (s.sweep d).memoryOk := by
  unfold State.sweep
  exact ((h.modDie.foldl (fun _ _ h => h.discardRecord) _).foldl (fun _ _ h => h.ageLevel) _).preemptAll
theorem State.memoryOk.translated {d idx : Nat} (h : s.memoryOk) : (s.translated d idx).memoryOk := by
  unfold State.translated
  split
  · exact h
  dsimp only
  split
  · exact h
  · split
    · split
      · split
        · exact h.modDie.discardRecord
        · exact h
      · exact h.modDie.setQueueAt.preemptFor
    · split
      · exact h
      · exact h.modDie.tell
  · split
    · split
      · exact h.modDie.discardRecord
      · exact h
    · exact h.modDie.setQueueAt.preemptFor
theorem State.memoryOk.reportUnmapped {d idx : Nat} (h : s.memoryOk) : (s.reportUnmapped d idx).memoryOk := by
  unfold State.reportUnmapped
  split
  · split
    · exact h.modDie
    · exact h
  · exact h
theorem State.memoryOk.forceSave {k : Nat} (h : s.memoryOk) : (s.forceSave k).memoryOk := by
  unfold State.forceSave
  extract_lets
  split
  · split
    · exact h
    split
    · split
      · exact h
      · exact h.modTile.tell
    · exact h.takeCut
  · exact h
theorem State.memoryOk.cancelExpires {k : Nat} (h : s.memoryOk) : (s.cancelExpires k).memoryOk := by
  unfold State.cancelExpires
  extract_lets
  split
  · split
    · exact h
    split
    · exact h.takeCut
    · exact h.setTile.endCut
    · exact h.setTile.endCut
    · exact h.setTile.endCut
    · exact h
  · exact h
theorem State.memoryOk.represent {d idx : Nat} (h : s.memoryOk) : (s.represent d idx).memoryOk := by
  unfold State.represent
  split
  · exact h
  extract_lets
  split
  · exact h.modDie.discardRecord
  split
  · exact h.modDie.release
  split
  · exact h.modDie.setEvent
  · exact h
theorem State.memoryOk.retrySignals {d : Nat} (h : s.memoryOk) : (s.retrySignals d).memoryOk := by
  unfold State.retrySignals
  refine h.foldl (fun _ _ h => ?_) _
  split
  · exact (h.atHome.of_fst ‹_›).answerKept
  · exact h
theorem State.memoryOk.applyPending {d : Nat} (h : s.memoryOk) : (s.applyPending d).memoryOk := by
  unfold State.applyPending
  split
  · exact h
  split
  · exact h.modDie.signal.retrySignals.retryLevels
  · exact h
theorem State.memoryOk.registerNext {j launch : Nat} (h : s.memoryOk) : (s.registerNext j launch).memoryOk := by
  unfold State.registerNext
  split
  · exact h
  extract_lets
  split
  · split
    · exact h.setJob.tell
    · exact h
  · split
    · exact (h.registerUnit ‹_›).setJob
    · exact ((h.registerUnit ‹_›).setJob).closeLaunch
theorem State.memoryOk.openJob {j : Nat} (h : s.memoryOk) : (s.openJob j).memoryOk := h.openLevel
theorem State.memoryOk.closeJob {j : Nat} (h : s.memoryOk) : (s.closeJob j).memoryOk := by
  unfold State.closeJob
  split
  · exact h
  · exact h.openJob.setJob.modLevel.levelCheck
theorem State.memoryOk.cancelJob {j : Nat} (h : s.memoryOk) : (s.cancelJob j).memoryOk := by
  unfold State.cancelJob
  split
  · exact h
  extract_lets
  split
  exact ((h.openJob.setJob.cancelWork.of_fst ‹_›).foldl (fun _ _ h => h.modDie) _).foldl (fun _ _ h => h.modLevel.levelCheck) _
theorem State.memoryOk.writeDieReg {d : Nat} {r : DieReg} {v : W64} (h : s.memoryOk) : (s.writeDieReg d r v).memoryOk :=
  h.modDie
theorem State.memoryOk.writeJobReg {d j : Nat} {r : JobReg} {v : W64} (h : s.memoryOk) : (s.writeJobReg d j r v).memoryOk :=
  h.modJobDie.preemptAll
theorem State.memoryOk.placeJob {p : JobPlacement} (h : s.memoryOk) : (s.placeJob p).memoryOk := by
  unfold State.placeJob
  split
  · exact h
  · exact (h.foldl (fun _ _ h => h.modJobDie) _).setJob
theorem State.memoryOk.renumber {p n : Nat} (h : s.memoryOk) : (s.renumber p n).memoryOk := s.memoryOk_renumber p n h
theorem State.memoryOk.formPackage {p n x y z : Nat} (h : s.memoryOk) : (s.formPackage p n x y z).memoryOk := by
  unfold State.formPackage
  split
  · exact h
  · exact .modPkg (.ite h h.modPkg.modPkg.renumber)
theorem State.memoryOk.tlbi {d kind : Nat} {v : W64} (h : s.memoryOk) : (s.tlbi d kind v).memoryOk := by
  unfold State.tlbi
  split
  · exact h.tlbPage
  · exact h.modDie
  · exact h.modDie
  · exact h
theorem State.memoryOk.writeReg {w : RegWrite} (h : s.memoryOk) : (s.writeReg w).memoryOk := by
  unfold State.writeReg
  split
  · exact h.writeDieReg
  · exact h.writeJobReg
  · exact h.modPkg
  · split
    · exact h
    · exact h.modFunc
  · split
    · exact h
    · exact h.modFunc
  · split
    · exact h.modFunc
    · exact h
  · split
    · exact h.writeAtomic
    · exact h
  · split
    · exact h
    · exact h.modDie
  · exact h.placeJob
  · exact h.modDie
  · exact h.modJobDie
  · exact h.modDie
  · exact h.modDie
  · split <;> exact h
  · exact h.reportUnmapped
  · exact h.tlbi
  · split
    · exact h.writeAtomic
    · exact h
  · exact h.modPkg
  · split
    · exact h
    · exact .ite h h.zeroRange
  · exact h.formPackage
  · split <;> exact h
theorem State.memoryOk.execLaunchStampReread {pkg fid slot : Nat} (h : s.memoryOk) :
    (execLaunchStampReread pkg fid slot s).memoryOk := by
  unfold Sys2Proof.Machine.execLaunchStampReread
  split
  · split
    · exact h
    · exact h.compareStamp
  · exact h

/-! ## Between dies -/

theorem State.memoryOk.homed {id : Nat} {r : Request} {g : Homed} (h : s.memoryOk) : (s.homed id r g).memoryOk := by
  unfold State.homed
  split
  · extract_lets
    split
    · split
      · exact h.keepReq.modTile
      · exact h.keepReq
    · exact h.keepReq
  · exact .afterOp (.ite h.logAnswer.dropReq h.logAnswer.answerReq)
theorem State.memoryOk.refuse {id : Nat} {r : Request} (h : s.memoryOk) : (s.refuse id r).memoryOk := by
  unfold State.refuse
  extract_lets
  split
  · exact .dropReq (.ite h.logOutcome h)
  · exact .modReq (.ite h.logOutcome h)
theorem State.memoryOk.arrive {src dst : Nat} {logged : Bool} (h : s.memoryOk) : (s.arrive src dst logged).memoryOk := by
  unfold State.arrive
  split
  · exact h
  · exact .ite h (.ite h.refuse h.atHome.homed)
theorem State.memoryOk.retryHome {id : Nat} (h : s.memoryOk) : (s.retryHome id).memoryOk := by
  unfold State.retryHome
  split
  · exact h
  split
  · exact h
  split
  · exact h.refuse
  split
  · exact ((h.atHome.of_fst ‹_›).answerKept).afterOp
  · exact .keepReq (.ite ((h.atHome.of_fst ‹_›).awaitAnswer) (h.atHome.of_fst ‹_›))
theorem State.memoryOk.refuseHome {id : Nat} (h : s.memoryOk) : (s.refuseHome id).memoryOk := by
  unfold State.refuseHome
  split
  · exact h
  split
  · exact h.refuse
  · exact h
theorem State.memoryOk.endPosted {k id : Nat} {rep : Option Report} {flags : Nat} (h : s.memoryOk) :
    (s.endPosted k id rep flags).memoryOk := by
  unfold State.endPosted
  extract_lets
  split
  · exact h.modTile.settle
  split
  · exact h.setFrame
  · exact h
theorem State.memoryOk.endJoin {k id : Nat} {fail : Option Nat} {addr : W64} (h : s.memoryOk) :
    (s.endJoin k id fail addr).memoryOk := by
  unfold State.endJoin
  dsimp only
  split
  · exact h
  refine .finishActions ?_
  split
  · exact h.damage
  · exact h
theorem State.memoryOk.failReq {id : Nat} {r : Request} {cls : Nat} (h : s.memoryOk) : (s.failReq id r cls).memoryOk := by
  unfold State.failReq
  split
  · exact h.endPosted
  · exact h.endJoin
  · exact h.endSignal
  · exact h
  · split
    · exact h
    · exact h.failWord
theorem State.memoryOk.respond {id : Nat} {poisoned : Bool} (h : s.memoryOk) : (s.respond id poisoned).memoryOk := by
  unfold State.respond
  split
  · exact h
  split
  · exact h
  · exact h
  · split
    · exact h
    extract_lets
    split
    · split <;> exact h.dropReq.endPosted
    · split <;> exact h.dropReq.endJoin
    · exact h.dropReq.endSignal
    · exact h.dropReq
    · split
      · exact h.dropReq
      split
      · split
        · exact h.dropReq.failReq
        · exact h.modReq
      · exact h.dropReq.deliver
theorem State.memoryOk.deadlinePasses {id : Nat} (h : s.memoryOk) : (s.deadlinePasses id).memoryOk := by
  unfold State.deadlinePasses
  split
  · exact h
  split
  · exact h
  · exact .failReq (.ite h.modReq h.dropReq)
theorem State.memoryOk.narrowUnit {k job unit num : Nat} {g : W64} {b wlo : Nat} {drop : Bool} (h : s.memoryOk) :
    (s.narrowUnit k job unit num g b wlo drop).memoryOk := by
  unfold State.narrowUnit
  split
  · exact h.modTile
  · exact h.modJobDie
theorem State.memoryOk.narrowArrives {id : Nat} (h : s.memoryOk) : (s.narrowArrives id).memoryOk := by
  unfold State.narrowArrives
  split
  · extract_lets
    split
    · exact h
    · exact h.unpost.narrowUnit.post
  · exact h
theorem State.memoryOk.ackOne {die sq id req : Nat} (h : s.memoryOk) : (s.ackOne die sq id req).memoryOk := by
  unfold State.ackOne
  split
  · exact h
  dsimp only
  split
  · exact h.modReq
  refine .afterOp (.answerKept ?_)
  split
  · exact h.modReq.freeSeq
  · exact h.modReq.setSeq
theorem State.memoryOk.narrowAckArrives {id : Nat} (h : s.memoryOk) : (s.narrowAckArrives id).memoryOk := by
  unfold State.narrowAckArrives
  split
  · extract_lets
    split
    · exact h
    · exact h.unpost.ackOne
  · exact h
theorem State.memoryOk.pteChange {j va : Nat} {entry : W64} (h : s.memoryOk) : (s.pteChange j va entry).memoryOk := by
  unfold State.pteChange
  extract_lets
  split
  · exact h
  · exact h.changeLeaf
theorem State.memoryOk.revocationArrives {id k : Nat} (h : s.memoryOk) : (s.revocationArrives id k).memoryOk := by
  unfold State.revocationArrives
  split
  · exact h
  split
  · extract_lets
    split
    · exact .modTile h
    · exact h
  · exact h
theorem State.memoryOk.revocationAck {id k : Nat} (h : s.memoryOk) : (s.revocationAck id k).memoryOk := by
  unfold State.revocationAck
  split
  · exact h
  · split <;> exact h
theorem State.memoryOk.revocationDone {id : Nat} (h : s.memoryOk) : (s.revocationDone id).memoryOk := by
  unfold State.revocationDone
  split
  · split
    · exact h.discardPages
    split
    · exact h.endRevocation
    · exact h
  · exact h
theorem State.memoryOk.migrate {j va target : Nat} (h : s.memoryOk) : (s.migrate j va target).memoryOk := by
  unfold State.migrate
  dsimp only
  split
  · exact h
  refine .foldl ?_ (fun _ _ h => h.writeLeaf) _
  split
  · exact h.writePlain
  · exact h
theorem State.memoryOk.retransmit {d port ch num : Nat} (h : s.memoryOk) : (s.retransmit d port ch num).memoryOk := by
  unfold State.retransmit
  split
  · exact h
  · exact h.modDie
theorem State.memoryOk.declareLost {d : Nat} (h : s.memoryOk) : (s.declareLost d).memoryOk := by
  unfold State.declareLost
  split <;> exact h
theorem State.memoryOk.loseFlits {d port : Nat} (h : s.memoryOk) : (s.loseFlits d port).memoryOk := h
theorem State.memoryOk.resend {d port : Nat} (h : s.memoryOk) : (s.resend d port).memoryOk := h
theorem State.memoryOk.reroute (h : s.memoryOk) : (s.reroute).memoryOk := by
  unfold State.reroute
  exact (h.foldl (fun _ _ h => h.modDie) _).foldl (fun _ _ h => h.declareLost) _
theorem State.memoryOk.linkDown {d port : Nat} (h : s.memoryOk) : (s.linkDown d port).memoryOk := by
  unfold State.linkDown
  split
  · exact h
  extract_lets
  split
  · exact h.loseFlits.resend.modDie
  · exact h.loseFlits.resend.modDie.modDie.reroute.foldl (fun _ _ h => .ite h.modPkg h) _
theorem State.memoryOk.timeSync {d : Nat} {lead : TimeLead} (h : s.memoryOk) : (s.timeSync d lead).memoryOk := by
  unfold State.timeSync
  extract_lets
  split
  · split
    · exact h
    · exact h.modPkg
  · split
    · exact h
    · exact h.setDie.modPkg
theorem State.memoryOk.timeFail {d : Nat} (h : s.memoryOk) : (s.timeFail d).memoryOk := by
  unfold State.timeFail
  extract_lets
  split
  · exact h
  · exact h.setDie
theorem State.memoryOk.meetDeadlines {d : Nat} (h : s.memoryOk) : (s.meetDeadlines d).memoryOk := by
  unfold State.meetDeadlines
  refine .sweep (.foldl (.foldl (.foldl (.foldl h ?requests _) ?collectives _) ?reshards _) ?saves _)
  case requests => exact fun _ _ h => h.deadlinePasses
  case collectives => exact fun _ _ h => h.forwardColl.rootFinish.bcastDeadline.collTimeout
  case reshards => exact fun _ _ h => h.slackExpiry
  case saves => exact fun _ _ h => h.forceSave.cancelExpires
theorem State.memoryOk.timeReturn {d : Nat} (h : s.memoryOk) : (s.timeReturn d).memoryOk := by
  unfold State.timeReturn
  extract_lets
  split
  · exact h
  · exact h.setDie.meetDeadlines
theorem State.memoryOk.watchdog {d : Nat} (h : s.memoryOk) : (s.watchdog d).memoryOk := by
  unfold State.watchdog
  split
  · exact h.declareLost
  · exact h
theorem State.memoryOk.losePackage {p : Nat} (h : s.memoryOk) : (s.losePackage p).memoryOk := by
  unfold State.losePackage
  exact h.foldl (fun _ _ h => h.declareLost) _
theorem State.memoryOk.dieFails {what : Failure} (h : s.memoryOk) : (s.dieFails what).memoryOk := by
  unfold State.dieFails
  split
  · exact h.declareLost
  · exact h.losePackage
theorem State.memoryOk.linksDown {p : Nat} (h : s.memoryOk) : (s.linksDown p).memoryOk := by
  unfold State.linksDown
  split
  · split
    · exact h.losePackage
    · exact h
  · exact h
theorem State.memoryOk.loseUnits {m j : Nat} (h : s.memoryOk) : (s.loseUnits m j).memoryOk := by
  unfold State.loseUnits
  exact (h.modDie.foldl (fun _ _ h => .ite h.modTile h) _).foldl (fun _ _ h => h.modJobDie.launchChild) _
theorem State.memoryOk.loseHome {m j : Nat} (h : s.memoryOk) : (s.loseHome m j).memoryOk := by
  unfold State.loseHome
  exact h.modDie.setJob.foldl (fun _ _ h => h.hostDone) _
theorem State.memoryOk.jobLoses {d m j : Nat} (h : s.memoryOk) : (s.jobLoses d m j).memoryOk := by
  unfold State.jobLoses
  extract_lets
  split
  · exact h.cancelDie.loseUnits.cancelJob
  split
  · exact h.cancelDie.loseHome
  · exact h.cancelDie
theorem State.memoryOk.loseRequests {d m : Nat} (h : s.memoryOk) : (s.loseRequests d m).memoryOk := by
  unfold State.loseRequests
  extract_lets out counts s₁ s₂
  have h₁ : s₁.memoryOk := h.foldl (fun _ _ h => h.dropReq.failReq) _
  have h₂ : s₂.memoryOk := h₁
  exact h₂.foldl (fun _ _ h => h.launchChild) _
theorem State.memoryOk.lostDamage {d m : Nat} {units : List (Nat × Rec)} (h : s.memoryOk) :
    (s.lostDamage d m units).memoryOk := by
  unfold State.lostDamage
  exact h.foldl (fun _ _ h => h.damage) _
theorem State.memoryOk.orphans {d m : Nat} (h : s.memoryOk) : (s.orphans d m).memoryOk := by
  unfold State.orphans
  extract_lets
  split
  · exact h
  · exact h.foldl (fun _ _ h => h.damage) _
theorem State.memoryOk.loseMessages {d m : Nat} (h : s.memoryOk) : (s.loseMessages d m).memoryOk := by
  unfold State.loseMessages
  refine h.foldl (fun _ _ h => ?_) _
  split
  · split
    · exact h.unpost.modCmd
    · exact h
  · split
    · exact h.unpost.modCmd
    · exact h
  · split
    · exact h.unpost.modCmd
    · exact h
  · split
    · exact h.unpost.modCmd
    · exact h
  · split
    · exact h.unpost.modCmd
    · exact h
  · split
    · exact h.unpost.ackOne
    · exact h
  · split
    · exact h.unpost.ackOne
    · exact h
  · exact h
theorem State.memoryOk.lossNotice {d m : Nat} (h : s.memoryOk) : (s.lossNotice d m).memoryOk := by
  unfold State.lossNotice
  refine .ite h ?_
  extract_lets s₁ s₂ units s₃ s₄ s₅ js
  have h₂ : s₂.memoryOk := h.modDie.foldl (fun _ _ h => h.modTile) _
  have h₃ : s₃.memoryOk := h₂.loseRequests.loseMessages.lostDamage
  have h₄ : s₄.memoryOk := h₃
  refine h₄.orphans.foldl (fun s j h => .jobLoses ?_) js
  split
  · exact h.abortOwn
  · exact h

/-! ## Work, regions, traps and control registers -/

theorem State.memoryOk.execSpawn {d a b : BitVec 6} (h : s.memoryOk) : (execSpawn d a b s).memoryOk := by
  unfold Sys2Proof.Machine.execSpawn
  refine h.commitThen (fun _ h => ?_)
  extract_lets
  split
  · exact h.fault
  split
  · exact h.fault
  split
  · exact h.illegal
  split
  · exact h.illegal
  · exact h.fault
  · exact h.drained (fun _ h => h.ask)
theorem State.memoryOk.execJoin {d a b : BitVec 6} (h : s.memoryOk) : (execJoin d a b s).memoryOk := by
  unfold Sys2Proof.Machine.execJoin
  refine h.commitThen (fun _ h => ?_)
  extract_lets
  split
  · exact h.fault
  split
  · exact h.fault
  split
  · exact h.fault
  split
  · exact h.illegal
  · exact h.fault
  · split
    · exact h.fault
    · exact h.drained (fun _ h => .ite h.setG (.ite h.stallIssue h.ask))
theorem State.memoryOk.leave {drop : Bool} (h : s.memoryOk) : (s.leave drop).memoryOk := by
  unfold State.leave
  extract_lets
  split
  · exact h.setTile.takeCut
  · exact h.setTile.endUnit
theorem State.memoryOk.exitWith {drop : Bool} (h : s.memoryOk) : (s.exitWith drop).memoryOk := by
  unfold State.exitWith
  split
  · exact h.stallIssue
  split
  · exact h.drained (fun _ h => h.leave)
  · exact h.leave
theorem State.memoryOk.execYield (h : s.memoryOk) : (execYield s).memoryOk := by
  unfold Sys2Proof.Machine.execYield
  extract_lets
  split
  · exact h.illegal
  refine h.commitThen (fun _ h => h.drained (fun _ h => ?_))
  extract_lets
  split
  · exact h.takeCut
  split
  · exact h.retire
  split
  · exact h.stallIssue
  · split
    exact (h.yieldSave.of_fst ‹_›).enqueue
theorem State.memoryOk.execCancel {d a : BitVec 6} (h : s.memoryOk) : (execCancel d a s).memoryOk := by
  unfold Sys2Proof.Machine.execCancel
  refine h.commitThen (fun _ h => ?_)
  extract_lets
  split
  · exact h.illegal
  extract_lets
  split
  · exact h.fault
  · exact h.ask
theorem State.memoryOk.execCmpl {d a b : BitVec 6} (h : s.memoryOk) : (execCmpl d a b s).memoryOk := by
  unfold Sys2Proof.Machine.execCmpl
  refine h.commitThen (fun _ h => ?_)
  extract_lets
  split
  · exact h.illegal
  split
  · exact h.fault
  split
  · exact h.illegal
  · exact h.drained (fun _ h => h.ask)
theorem State.memoryOk.execRegion {m : BitVec 2} {c : BitVec 1} {sl : BitVec 12} (h : s.memoryOk) :
    (execRegion m c sl s).memoryOk := by
  unfold Sys2Proof.Machine.execRegion
  extract_lets
  split
  · exact h.illegal
  split
  · exact h.stallIssue
  · exact h.commitThen (fun _ h => h.retire.modTile)
theorem State.memoryOk.raiseAfter {k : Nat} {i : TrapInfo} {f : Tile → Tile} (h : s.memoryOk) : (s.raiseAfter k i f).memoryOk :=
  h.modTile.raiseAt
theorem State.memoryOk.execSegend {a : BitVec 6} {i : BitVec 13} (h : s.memoryOk) : (execSegend a i s).memoryOk := by
  unfold Sys2Proof.Machine.execSegend
  refine h.commitThen (fun _ h => ?_)
  extract_lets
  split
  · exact h.illegal
  split
  · exact h.retire.modTile
  split
  · exact h.fault
  split
  · exact h.imageStop
  extract_lets
  split
  · exact h.damage.raiseAfter
  · exact h.retire.modTile
theorem State.memoryOk.execTrap {c : BitVec 16} (h : s.memoryOk) : (execTrap c s).memoryOk := by
  unfold Sys2Proof.Machine.execTrap
  exact h.commitThen (fun _ h => h.raiseAfter)
theorem State.memoryOk.execEret (h : s.memoryOk) : (execEret s).memoryOk := by
  unfold Sys2Proof.Machine.execEret
  extract_lets
  split
  · exact h.illegal
  split
  · exact h.stallIssue
  split
  · exact h.fault
  extract_lets
  split
  · exact h.illegal
  split
  · exact h.stall
  · exact h.setTile.raiseAt
  · exact h.setTile.raiseAt
  · exact .next (.ite h.setTile.takeCut h.setTile)
theorem State.memoryOk.execCtlr {d : BitVec 6} {n : BitVec 13} (h : s.memoryOk) : (execCtlr d n s).memoryOk := by
  unfold Sys2Proof.Machine.execCtlr
  exact h.commitThen (fun _ h => h.setG)
theorem State.memoryOk.swapPhase {v : W64} (h : s.memoryOk) : (s.swapPhase v).memoryOk := by
  unfold State.swapPhase
  extract_lets
  split
  · exact h.illegal
  split
  · exact h.stallIssue
  · exact h.retire
theorem State.memoryOk.closePhase {v : W64} (h : s.memoryOk) : (s.closePhase v).memoryOk := h.retire
theorem State.memoryOk.writeBufph {v : W64} (h : s.memoryOk) : (s.writeBufph v).memoryOk := by
  unfold State.writeBufph
  split
  · exact h.swapPhase
  · exact h.closePhase
theorem State.memoryOk.execCtlw {a : BitVec 6} {n : BitVec 13} (h : s.memoryOk) : (execCtlw a n s).memoryOk := by
  unfold Sys2Proof.Machine.execCtlw
  refine h.commitThen (fun _ h => ?_)
  split
  · exact h.retire
  · exact h.retire
  · exact h.writeBufph
  · exact h.fault
  · exact h.illegal
theorem State.memoryOk.execBufphSwap {a : BitVec 6} (h : s.memoryOk) : (execBufphSwap a s).memoryOk := by
  unfold Sys2Proof.Machine.execBufphSwap
  exact h.commitThen (fun _ h => h.writeBufph)
theorem State.memoryOk.execBufphClose {a : BitVec 6} (h : s.memoryOk) : (execBufphClose a s).memoryOk := by
  unfold Sys2Proof.Machine.execBufphClose
  exact h.commitThen (fun _ h => h.writeBufph)
theorem State.memoryOk.execCyc {d : BitVec 6} {c : BitVec 13} (h : s.memoryOk) : (execCyc d c s).memoryOk := by
  unfold Sys2Proof.Machine.execCyc
  refine h.commitThen (fun _ h => ?_)
  extract_lets
  split
  · exact h.setG
  · exact h.setG
  · exact h.illegal
theorem State.memoryOk.execTlbi {_a : BitVec 6} {c : BitVec 3} (h : s.memoryOk) : (execTlbi _a c s).memoryOk := by
  unfold Sys2Proof.Machine.execTlbi
  split
  · exact h.illegal
  · exact h.fault
theorem State.memoryOk.execPref {a b : BitVec 6} (h : s.memoryOk) : (execPref a b s).memoryOk := by
  unfold Sys2Proof.Machine.execPref
  exact h.commitThen (fun _ h => (h.foldl (fun _ _ h => .ite h.cacheWalk h) _).retire)
theorem State.memoryOk.execDiscard {a b : BitVec 6} (h : s.memoryOk) : (execDiscard a b s).memoryOk := by
  unfold Sys2Proof.Machine.execDiscard
  extract_lets
  split
  · exact h.fault
  split
  · exact h.fault
  refine h.commitThen (fun _ h => h.drained (fun _ h => ?_))
  split
  · exact h.retire
  split
  · exact h.fault
  · split
    exact (h.discard.of_fst ‹_›).stall

/-! ## The platform -/

theorem State.memoryOk.scrubRead {d sector : Nat} {ok : Bool} (h : s.memoryOk) : (s.scrubRead d sector ok).memoryOk := by
  unfold State.scrubRead
  extract_lets
  split
  · split
    · exact h
    · exact h.modTile
  · split
    · exact h.modDie
    · exact h.modDie.damage
theorem State.memoryOk.scrubBack {d sector : Nat} (h : s.memoryOk) : (s.scrubBack d sector).memoryOk := h.modDie
theorem State.memoryOk.flrTile {k : Nat} (h : s.memoryOk) : (s.flrTile k).memoryOk := by
  unfold State.flrTile
  extract_lets
  split
  · exact h.takeCut
  · exact h.takeCut
  · exact h.setTile
  · exact .setTile h
  · exact h
theorem State.memoryOk.flrStart {p f : Nat} (h : s.memoryOk) : (s.flrStart p f).memoryOk := by
  unfold State.flrStart
  split
  · exact h
  · exact h.modFunc.foldl (fun _ _ h => h.flrTile) _
theorem State.memoryOk.flrDie {p f : Nat} {js ts : List Nat} {d : Nat} (h : s.memoryOk) : (s.flrDie p f js ts d).memoryOk := by
  unfold State.flrDie
  exact (h.foldl (fun _ _ h => h.freeSeq) _).modDie
theorem State.memoryOk.zeroTile {k : Nat} (h : s.memoryOk) : (s.zeroTile k).memoryOk := h.setTile.putSlice
theorem State.memoryOk.clearExtents {js : List Nat} {k : Nat} (h : s.memoryOk) : (s.clearExtents js k).memoryOk := by
  unfold State.clearExtents
  split
  · exact h.modTile
  · exact h
theorem State.memoryOk.spdmRequest {p f code arg : Nat} (h : s.memoryOk) : (s.spdmRequest p f code arg).memoryOk := by
  unfold State.spdmRequest
  split
  · exact h
  split
  · exact h.modPkg
  · exact h.modPkg.bump
theorem State.memoryOk.answerWaiting {p f : Nat} (h : s.memoryOk) : (s.answerWaiting p f).memoryOk := by
  unfold State.answerWaiting
  split
  exact h.modPkg.foldl (fun _ _ h => h.spdmRequest) _
theorem State.memoryOk.flrFinish {p f : Nat} (h : s.memoryOk) : (s.flrFinish p f).memoryOk := by
  unfold State.flrFinish
  refine .ite h ?_
  extract_lets ts js ds s₁ s₂ s₃ s₄
  have h₁ : s₁.memoryOk := h.foldl (fun _ _ h => h.flrDie.foldl (fun _ _ h => h.clearExtents) _) ds
  have h₂ : s₂.memoryOk := h₁
  have h₃ : s₃.memoryOk := h₂.foldl (fun _ _ h => h.zeroTile) ts
  have h₄ : s₄.memoryOk := h₃.foldl (fun _ _ h => h.setJob) js
  exact h₄.modFunc.answerWaiting
theorem State.memoryOk.packageReset {p : Nat} {slotA slotB field : FwImage} (h : s.memoryOk) :
    (s.packageReset p slotA slotB field).memoryOk := by
  unfold State.packageReset
  extract_lets x a b f near booted blank js s₁ s₂
  have h₁ : s₁.memoryOk := h
  have h₂ : s₂.memoryOk := h₁.foldl (fun _ _ h => .ite h h.setDie) _
  exact h₂.setPkg
theorem State.memoryOk.firmwareUpdate {p : Nat} {i : FwImage} {root : Bool} (h : s.memoryOk) :
    (s.firmwareUpdate p i root).memoryOk :=
  h.modPkg
theorem State.memoryOk.svnCommit {p svn : Nat} (h : s.memoryOk) : (s.svnCommit p svn).memoryOk := h.modPkg
theorem State.memoryOk.reclock {d : Nat} {g : Die → Die} (h : s.memoryOk) : (s.reclock d g).memoryOk := h.modDie
theorem State.memoryOk.powerWindow {p avg stretch : Nat} (h : s.memoryOk) : (s.powerWindow p avg stretch).memoryOk := by
  unfold State.powerWindow
  split
  · exact h
  · exact (h.foldl (fun _ _ h => h.reclock) _).modPkg
theorem State.memoryOk.setTemp {d temp : Nat} (h : s.memoryOk) : (s.setTemp d temp).memoryOk := h.modDie.modPkg
theorem State.memoryOk.thermal {d temp : Nat} (h : s.memoryOk) : (s.thermal d temp).memoryOk := by
  unfold State.thermal
  extract_lets
  split
  · exact h.setTemp.reclock.modDie.declareLost
  · exact h.setTemp.reclock

/-! ## Sequences -/

theorem State.memoryOk.sequence {g : W64} {op : HomeOp} {sink : Sink} {rel logged big : Bool} {on : Nat → WaitOn}
    {bound : Option Nat} (h : s.memoryOk) : (s.sequence g op sink rel logged big on bound).memoryOk := by
  unfold State.sequence
  refine h.commitThen (fun _ h => ?_)
  extract_lets
  split
  · exact h.fault
  · exact h.releaseIf (fun _ h => .ite h.fault h.ask)
theorem State.memoryOk.execSqnew {d a : BitVec 6} (h : s.memoryOk) : (execSqnew d a s).memoryOk := by
  unfold Sys2Proof.Machine.execSqnew
  refine h.commitThen (fun _ h => ?_)
  extract_lets
  split
  · exact h.fault
  split
  · exact h.fault
  extract_lets
  split
  · exact h.illegal
  · exact h.ask
theorem State.memoryOk.execSqslot {d a b : BitVec 6} (h : s.memoryOk) : (execSqslot d a b s).memoryOk := by
  unfold Sys2Proof.Machine.execSqslot
  refine h.commitThen (fun _ h => ?_)
  extract_lets
  split
  · split
    · exact h.stall
    · exact h.stallIssue
  · exact h.sequence
theorem State.memoryOk.execSqwait {d a : BitVec 6} {i : BitVec 13} (h : s.memoryOk) : (execSqwait d a i s).memoryOk := by
  unfold Sys2Proof.Machine.execSqwait
  extract_lets
  split
  · exact h.stall
  · exact h.sequence

end Sys2Proof.Machine
end

section
/-! SUPPORT. Micro-orders and what a turn finds keep the form of the two memories. -/

namespace Sys2Proof.Machine

variable {s t : State}

/-! ## The step of a running table -/

theorem State.memoryOk.vsTrap {k : Nat} {v : VsRun} {i : TrapInfo} {fl : Nat} (h : s.memoryOk) : (s.vsTrap k v i fl).memoryOk :=
  h.modTile.vsFault
theorem State.memoryOk.vsEnd {k : Nat} {v : VsRun} {r : VRes} (h : s.memoryOk) (hr : r.memoryOk) :
    (s.vsEnd k v r).memoryOk := by
  unfold State.vsEnd
  split
  · split
    · exact State.memoryOk.modTile hr
    · exact h.vsTrap
  · split
    · exact State.memoryOk.modTile hr
    · exact h.vsTrap
  · split
    · exact h.modTile
    · exact h.vsTrap
  · exact h.vsTrap
  · exact State.memoryOk.modTile hr
theorem State.memoryOk.micro {f : Tile → VsRun → VRes} (h : s.memoryOk) (hf : ∀ t v, (f t v).memoryOk) :
    (s.micro f).memoryOk := by
  unfold State.micro
  split
  · exact h
  · exact h.vsEnd (hf _ _)
theorem State.memoryOk.microM {rd wr : List MOp} {f : Tile → VsRun → VRes} (h : s.memoryOk) (hf : ∀ t v, (f t v).memoryOk) :
    (s.microM rd wr f).memoryOk :=
  h.micro fun t v => .ite (hf t v) trivial
theorem State.memoryOk.putLanes {t : Tile} {v : VsRun} {d : MOp} {rs : List (Nat × FRes)} (h : s.memoryOk) :
    (s.putLanes t v d rs).memoryOk := by
  unfold State.putLanes
  extract_lets
  split
  · exact trivial
  · exact h.setTile
theorem State.memoryOk.lanes2 {d a : BitVec 8} {y : VSrc} {old : Bool} {f : RM → VElem → VElem → VElem → FRes}
    (h : s.memoryOk) : (s.lanes2 d a y old f).memoryOk := by
  unfold State.lanes2
  exact h.microM (fun _ _ => h.putLanes)
theorem State.memoryOk.lanes1 {d a : BitVec 8} {f : RM → VElem → FRes} (h : s.memoryOk) : (s.lanes1 d a f).memoryOk := by
  unfold State.lanes1
  exact h.microM (fun _ _ => h.putLanes)

/-! ## Floating-point micro-orders -/

theorem State.memoryOk.vcmp {c : Nat} {k : BitVec 3} {a : BitVec 8} {y : VSrc} (h : s.memoryOk) :
    (s.vcmp c k a y).memoryOk := by
  unfold State.vcmp
  refine h.microM (fun _ _ => ?_)
  extract_lets
  split
  · exact trivial
  · exact h.setTile
theorem State.memoryOk.execVcvt {d a : BitVec 8} {r : BitVec 3} {k : BitVec 4} (h : s.memoryOk) :
    (execVcvt d a r k s).memoryOk := by
  unfold Sys2Proof.Machine.execVcvt
  split
  · exact h.micro (fun _ _ => trivial)
  · exact h.lanes1
theorem State.memoryOk.execVqnt {d a : BitVec 8} {e : BitVec 4} {m : BitVec 1} {f : BitVec 2} (h : s.memoryOk) :
    (execVqnt d a e m f s).memoryOk := by
  unfold Sys2Proof.Machine.execVqnt
  split
  · exact h.micro (fun _ _ => trivial)
  refine h.microM (fun _ _ => ?_)
  split
  exact h.putLanes
theorem State.memoryOk.vreduce {z : BitVec 4} {a : BitVec 8} {fill : VElem} {f : RM → VElem → VElem → FRes} (h : s.memoryOk) :
    (s.vreduce z a fill f).memoryOk := by
  unfold State.vreduce
  refine h.microM (fun _ _ => ?_)
  extract_lets
  split
  extract_lets
  split
  · exact trivial
  · exact h.setTile

/-! ## Accumulator micro-orders -/

theorem State.memoryOk.execVaccr {d : BitVec 8} {n q y : BitVec 2} {f : BitVec 8} (h : s.memoryOk) :
    (execVaccr d n q y f s).memoryOk := by
  unfold Sys2Proof.Machine.execVaccr
  exact h.microM (fun _ _ => .ite trivial (.ite (.ite trivial h.putLanes) (.ite trivial h.putLanes)))
theorem State.memoryOk.vsacc {d : BitVec 8} {n q y : BitVec 2} {m : BitVec 1} {sr : BitVec 4} {x : Option (BitVec 2)}
    (h : s.memoryOk) : (s.vsacc d n q y m sr x).memoryOk := by
  unfold State.vsacc
  exact h.microM (fun _ _ => .ite trivial h.putLanes)

/-! ## Micro-orders that move and control -/

theorem State.memoryOk.execVnop (h : s.memoryOk) : (execVnop s).memoryOk := by
  unfold Sys2Proof.Machine.execVnop
  exact h.micro (fun _ _ => h)
theorem State.memoryOk.execVrot {d a : BitVec 8} {n : BitVec 6} (h : s.memoryOk) : (execVrot d a n s).memoryOk := by
  unfold Sys2Proof.Machine.execVrot
  exact h.microM (fun _ _ => h.putLanes)
theorem State.memoryOk.execVbcast {d : BitVec 8} {z : BitVec 4} (h : s.memoryOk) : (execVbcast d z s).memoryOk := by
  unfold Sys2Proof.Machine.execVbcast
  exact h.microM (fun _ _ => h.putLanes)
theorem State.memoryOk.execVsel {d a b : BitVec 8} (h : s.memoryOk) : (execVsel d a b s).memoryOk := by
  unfold Sys2Proof.Machine.execVsel
  exact h.microM (fun _ _ => h.putLanes)
theorem State.memoryOk.execVsigq {k : BitVec 3} {a : BitVec 8} {n : BitVec 5} (h : s.memoryOk) :
    (execVsigq k a n s).memoryOk := by
  unfold Sys2Proof.Machine.execVsigq
  exact h.microM (fun _ _ => h.setTile)
theorem State.memoryOk.execVsigs {d a : BitVec 8} (h : s.memoryOk) : (execVsigs d a s).memoryOk := by
  unfold Sys2Proof.Machine.execVsigs
  exact h.microM (fun _ _ => h.putLanes)
theorem State.memoryOk.execVkset {k : BitVec 3} {a b : BitVec 8} (h : s.memoryOk) : (execVkset k a b s).memoryOk := by
  unfold Sys2Proof.Machine.execVkset
  refine h.micro (fun _ _ => ?_)
  extract_lets
  split
  · split
    · exact trivial
    · exact h.setTile
  · split
    · exact trivial
    · exact h.setTile
  · split
    · exact trivial
    · exact h.setTile
  · split
    · exact trivial
    · exact h.setTile
  · split
    · exact trivial
    · exact h.setTile
  · split
    · exact trivial
    · exact h.setTile
  · exact trivial
theorem State.memoryOk.execVzmovLane {z : BitVec 4} {a : BitVec 8} {l : BitVec 6} (h : s.memoryOk) :
    (execVzmovLane z a l s).memoryOk := by
  unfold Sys2Proof.Machine.execVzmovLane
  exact h.microM (fun _ _ => h.setTile)
theorem State.memoryOk.execVzmovZ {z y : BitVec 4} (h : s.memoryOk) : (execVzmovZ z y s).memoryOk := by
  unfold Sys2Proof.Machine.execVzmovZ
  exact h.micro (fun _ _ => h.setTile)
theorem State.memoryOk.execVidx {i : BitVec 3} {n : BitVec 16} (h : s.memoryOk) : (execVidx i n s).memoryOk := by
  unfold Sys2Proof.Machine.execVidx
  exact h.micro (fun _ _ => h.setTile)
theorem State.memoryOk.execVidxAdd {i : BitVec 3} {n : BitVec 16} (h : s.memoryOk) : (execVidxAdd i n s).memoryOk := by
  unfold Sys2Proof.Machine.execVidxAdd
  exact h.micro (fun _ _ => h.setTile)
theorem State.memoryOk.vflag {z : BitVec 4} {f : VsRun → Nat} (h : s.memoryOk) : (s.vflag z f).memoryOk := by
  unfold State.vflag
  exact h.micro (fun _ _ => h.setTile)
theorem State.memoryOk.execVloop {n : BitVec 16} (h : s.memoryOk) : (execVloop n s).memoryOk := by
  unfold Sys2Proof.Machine.execVloop
  refine h.micro (fun _ _ => ?_)
  split
  · exact trivial
  split
  · split <;> exact trivial
  · exact trivial
theorem State.memoryOk.execVend (h : s.memoryOk) : (execVend s).memoryOk := by
  unfold Sys2Proof.Machine.execVend
  refine h.micro (fun _ _ => ?_)
  split
  · exact trivial
  split
  · exact trivial
  · split <;> exact trivial
theorem State.memoryOk.execVwait {tok : BitVec 6} {n b : BitVec 8} (h : s.memoryOk) : (execVwait tok n b s).memoryOk := by
  unfold Sys2Proof.Machine.execVwait
  refine h.micro (fun _ _ => ?_)
  extract_lets
  split
  · exact h
  split
  · exact h
  · split <;> exact h.setTile

/-! ## Integer micro-orders -/

theorem State.memoryOk.vint {d a : BitVec 8} {y : VSrc} {f : W32 → W32 → Nat} (h : s.memoryOk) : (s.vint d a y f).memoryOk :=
  h.lanes2

/-! ## Memory micro-orders -/

theorem State.memoryOk.vload {d : BitVec 8} {z : BitVec 4} {stride : Nat} {tagged : Bool} (h : s.memoryOk) :
    (s.vload d z stride tagged).memoryOk := by
  unfold State.vload
  refine h.microM (fun _ _ => ?_)
  extract_lets
  split
  · exact trivial
  · exact h.putLanes
theorem State.memoryOk.storeLanes {xs : List VElem} {ls : List Nat} {z len step : Nat} {tagged : Bool} (h : s.memoryOk) :
    (s.storeLanes xs ls z len step tagged).memoryOk := by
  unfold State.storeLanes
  exact h.foldl (fun _ _ h => .ite h.writePlain.writePlain h.writePlain) _
theorem State.memoryOk.vstore {d : BitVec 8} {z : BitVec 4} {w stride : Nat} {tagged : Bool} (h : s.memoryOk) :
    (s.vstore d z w stride tagged).memoryOk := by
  unfold State.vstore
  refine h.microM (fun _ _ => ?_)
  split
  · exact trivial
  extract_lets
  split
  · exact trivial
  · exact h.storeLanes
theorem State.memoryOk.execVpush {d : BitVec 8} {z : BitVec 4} {w : BitVec 2} (h : s.memoryOk) :
    (execVpush d z w s).memoryOk := by
  unfold Sys2Proof.Machine.execVpush
  refine h.microM (fun _ _ => ?_)
  split
  · exact trivial
  extract_lets
  split
  · exact trivial
  split
  · exact trivial
  split
  · exact trivial
  · exact h.storeLanes.modTile
theorem State.memoryOk.execVpop {d : BitVec 8} {w : BitVec 4} {b : BitVec 8} (h : s.memoryOk) :
    (execVpop d w b s).memoryOk := by
  unfold Sys2Proof.Machine.execVpop
  refine h.microM (fun t v => ?_)
  extract_lets n x
  refine .ite trivial ?_
  split
  · exact trivial
  · extract_lets u
    split
    · next s' fl' he =>
      have h' : (VRes.go s' fl').memoryOk := he ▸ h.putLanes
      exact h'
    · exact h.putLanes
  · split
    · exact h
    · exact h

/-! ## What a turn finds -/

theorem State.memoryOk.fetch {k : Nat} (h : s.memoryOk) : (s.fetch k).memoryOk := by
  unfold State.fetch
  extract_lets
  split
  · exact trivial
  split
  · exact h.takeCut
  split
  · exact h.modTile.raiseReport
  split
  · exact h.stallIssue
  split
  · exact h.fault
  split
  · exact h.setTile
  split
  · exact h.illegal
  split
  · exact h.illegal
  · exact h
theorem State.memoryOk.ctTurn {k : Nat} (h : s.memoryOk) : (s.ctTurn k).memoryOk := by
  unfold State.ctTurn
  split
  · exact trivial
  · exact h.fetch
theorem State.memoryOk.vsTurn {k : Nat} (h : s.memoryOk) : (s.vsTurn k).memoryOk := by
  unfold State.vsTurn
  extract_lets
  split
  · exact trivial
  split
  · exact trivial
  extract_lets
  split
  · split
    · exact h.setTile
    · exact h.vsTrap
  · split
    · exact h.vsTrap
    · exact h
theorem State.memoryOk.storeTurn {k n : Nat} (h : s.memoryOk) : (s.storeTurn k n).memoryOk := by
  unfold State.storeTurn
  split
  · exact trivial
  · exact h.performStore
theorem State.memoryOk.prefetchTurn {k va : Nat} (h : s.memoryOk) : (s.prefetchTurn k va).memoryOk := by
  unfold State.prefetchTurn
  split
  · exact trivial
  · exact h.prefetch
theorem State.memoryOk.afterTurn {w : Who} (h : s.memoryOk) : (s.afterTurn w).memoryOk := by
  unfold State.afterTurn
  split
  · exact h.afterStep
  · exact h.afterStep
  · exact h
  · exact h
  · exact h

end Sys2Proof.Machine
end

section
/-! SUPPORT. Every instruction, every move and every step keeps the form of the two memories. -/

namespace Sys2Proof.Machine

variable {s t : State}

/-- Each arm is the lemma of the operation that the instruction stands for. Where that operation takes a function, `exec` is
unfolded first. -/
theorem State.memoryOk.exec (h : s.memoryOk) (i : Instr) : Out.memoryOk (exec i s) := by
  cases i with
  | ill => exact h.illegal
  | add | sub | mul | mulHi | mulHiN | div | divN | rem | remN | and | or | xor | shl | shr | sra | min | minN | max | maxN
  | slt | sltN | clz | popc | sextB | sextH | sextW | addSat | subSat | addImm | lih | fclass | fsigRead => exact h.setG
  | pset | plogAnd | plogOr | plogXor | plogAndn | plogNot => exact h.setQ
  | ld d b sc o => exact h.execLd (_sc := sc) (_o := o)
  | st | fst => exact h.store
  | fld => exact h.execFld
  | fldT => exact h.execFldT
  | fstT => exact h.execFstT
  | br | bq | bsig => exact h.branch
  | jal => exact h.retireTo
  | jalr => exact h.execJalr
  | loop => exact h.execLoop
  | grd => exact h.execGrd
  | pfx => exact h.setTile
  | fadd | fsub | fmul | fdiv | fsqrt | fmax | fmin | ffma => exact h.setF
  | fsgn | fsgnN | fsgnX | fmov | fsigSet => exact h.moveF
  | fcmp => exact h.setQFlags
  | fcvt => exact h.execFcvt
  | fsigImm => exact h.execFsigImm
  | aadd | alogAnd | alogOr | alogXor | amax | amaxN | amin | aminN | acas | axch => exact h.atomicInt
  | amaxf | aminf | aaddf => exact h.atomicFloat
  | atq => exact h.execAtq
  | mark => exact h.execMark
  | fence | afence => exact h.fence
  | evsig => exact h.execEvsig
  | evsigR => exact h.execEvsigR
  | evwait => exact h.execEvwait
  | evpoll => exact h.execEvpoll
  | barinit | baradd => exact h.barOp
  | barwait => exact h.execBarwait
  | toksig => exact h.execToksig
  | tokwait => exact h.execTokwait
  | sqnew => exact h.execSqnew
  | sqres | sqcom | sqlen | sqfork | sqdrop | sqseal => exact h.sequence
  | sqslot => exact h.execSqslot
  | sqwait => exact h.execSqwait
  | vrun | vbase | vbaseL | vhalt | vsend | mldb | mmul | mclr | mbase | mshr | wdef | xpat | hexch | layset | laysetPass
  | reshard =>
    unfold Machine.exec
    exact h.issue
  | mdrain | mdrainS =>
    unfold Machine.exec
    exact h.issueDrain
  | tmap => exact h.execTmap
  | tload | tstore | tgath | tscat => exact h.issueCopy
  | layget => exact h.execLayget
  | cred | cbcast => exact h.issueCollective
  | discard => exact h.execDiscard
  | pref => exact h.execPref
  | spawn => exact h.execSpawn
  | join => exact h.execJoin
  | exit | exitD => exact h.exitWith
  | yield => exact h.execYield
  | cancel => exact h.execCancel
  | cmpl => exact h.execCmpl
  | region => exact h.execRegion
  | segend => exact h.execSegend
  | nop => exact h.retire
  | trap => exact h.execTrap
  | eret => exact h.execEret
  | ctlr => exact h.execCtlr
  | ctlw => exact h.execCtlw
  | bufphSwap => exact h.execBufphSwap
  | bufphClose => exact h.execBufphClose
  | tlbi a => exact h.execTlbi (_a := a)
  | cyc => exact h.execCyc
  | vnop => exact h.execVnop
  | vadd | vaddZ | vsub | vsubZ | vmul | vmulZ | vfma | vfmaZ | vfmaS | vfmaSZ | vdiv | vdivZ | vmax | vmaxZ | vmin | vminZ
  | vsgn | vsgnZ => exact h.lanes2
  | vrcp | vrsq | vsqrt | vexp2 | vlog2 | vmov | vsigr =>
    unfold Machine.exec
    exact h.lanes1
  | vcmpEq | vcmpLt | vcmpLe | vcmpUn | vcmpZEq | vcmpZLt | vcmpZLe | vcmpZUn => exact h.vcmp
  | vsel => exact h.execVsel
  | viadd | viaddZ | visub | visubZ | vimul | vimulZ | vimax | vimaxZ | vimin | viminZ | vbitAnd | vbitOr | vbitXor | vbitAndn
  | vshfShl | vshfShr | vshfSra | viaddSat | visubSat | vimaxN | viminN =>
    unfold Machine.exec
    exact h.vint
  | vcvt => exact h.execVcvt
  | vqnt => exact h.execVqnt
  | vrsum | vrmax | vrmin =>
    unfold Machine.exec
    exact h.vreduce
  | vrot => exact h.execVrot
  | vbcast => exact h.execVbcast
  | vld | vldT => exact h.vload
  | vst | vstT =>
    unfold Machine.exec
    exact h.vstore
  | vpop => exact h.execVpop
  | vpush => exact h.execVpush
  | vsacc | vsaccN =>
    unfold Machine.exec
    exact h.vsacc
  | vaccr => exact h.execVaccr
  | vsigq => exact h.execVsigq
  | vsigs => exact h.execVsigs
  | vloop => exact h.execVloop
  | vend => exact h.execVend
  | vflag | vflagNew => exact h.vflag
  | vwait => exact h.execVwait
  | vidx => exact h.execVidx
  | vidxAdd => exact h.execVidxAdd
  | vkset => exact h.execVkset
  | vzmovLane => exact h.execVzmovLane
  | vzmovZ => exact h.execVzmovZ
  | registerWrite => exact .next (.ite h.writeReg h)
  | launchNotify => exact h.notify
  | launchStampReread => exact h.execLaunchStampReread
  | launchUnitRegister => exact h.registerNext
  | cqCtlWrite => exact h.writeCqCtl
  | cqHeadWrite => exact h.writeCqHead
  | firmwarePreempt => exact .next (.ite h.modTile h)
  | dispatch => exact h.dispatchOne
  | agingSweep => exact h.sweep
  | translationComplete => exact h.translated
  | forcedSave => exact h.forceSave
  | contextFrameFree => exact .next (.ite h.forceSave h)
  | cancelLimitExpiry => exact h.cancelExpires
  | eventWaitRepresent => exact h.represent
  | pendingSignalApply => exact h.applyPending
  | commandStart => exact h.startCommand
  | commandComplete => exact h.completeCommand
  | schedMiss => exact h.missEvent
  | waitBound => exact h.waitBound
  | handlerEntry => exact h.endCut
  | lateLegFault => exact h.lateLeg
  | streamFillEntry => exact .next (.ite h h.fillStream)
  | mmulChunkCommit => exact h.commitChunkEvent
  | cimGateIdle => exact h.gateIdle
  | cimWakeEnd => exact h.wakeEnds
  | loggedRequestAtHome | remoteAccessAtHome => exact h.arrive
  | remoteResponse => exact h.respond
  | requestDeadline => exact h.deadlinePasses
  | scrubRead => exact h.scrubRead
  | scrubWriteback => exact h.scrubBack
  | pteChange => exact h.pteChange
  | revocationReceive => exact h.revocationArrives
  | revocationAck => exact h.revocationAck
  | revocationComplete => exact h.revocationDone
  | migrationComplete => exact h.migrate
  | grantNarrowing => exact h.narrowArrives
  | narrowingAck => exact h.narrowAckArrives
  | seqHomeRetry => exact h.retryHome
  | seqHomeRefuse => exact h.refuseHome
  | flitRetransmitRequest => exact h.retransmit
  | linkDown => exact h.linkDown
  | timeSyncExchange => exact h.timeSync
  | timeReferenceFail => exact h.timeFail
  | timeReferenceReturn => exact h.timeReturn
  | hubWatchdogExpiry => exact h.watchdog
  | packageLinksDown => exact h.linksDown
  | lossNotice => exact h.lossNotice
  | slabArrival => exact h.execSlabArrival
  | laysetDistribute => exact h.execLaysetDistribute
  | laysetInstall => exact h.execLaysetInstall
  | reshardPassTime => exact h.passTime
  | reshardReady => exact h.execReshardReady
  | reshardSlackExpiry => exact h.slackExpiry
  | reshardAbort => exact h.execReshardAbort
  | reshardPassEnd => exact h.passEnd
  | reshardReport => exact h.execReshardReport
  | reshardCommit => exact h.execReshardCommit
  | reshardLocalMove => exact h.localMove
  | collectivePartialArrival => exact h.execCollectivePartialArrival
  | collectiveForward => exact h.forwardColl
  | collectiveRootFinish => exact h.rootFinish
  | collectiveResultArrival => exact h.execCollectiveResultArrival
  | collectiveSlotTimeout => exact h.collTimeout
  | cbcastDeadline => exact h.bcastDeadline
  | flrInitiate => exact h.flrStart
  | flrDrainDone => exact h.flrFinish
  | packageReset => exact h.packageReset
  | firmwareUpdate => exact h.firmwareUpdate
  | svnCommit => exact h.svnCommit
  | getVersion | getCapabilities | negotiateAlgorithms | getDigests | getCertificate | challenge | getMeasurements
  | spdmUnsupported => exact h.spdmRequest
  | droopStretch => exact h.reclock
  | powerWindow => exact h.powerWindow
  | thermalHalfRate | thermalRecover | thermalShutdown => exact h.thermal
  | dieFailure => exact h.dieFails
  | poisonedWindowWrite => exact .next (.ite h h.modPkg)
  | jobClose => exact h.closeJob
  | jobCancel => exact h.cancelJob

/-- A move of the machine's own is the event of its name. -/
theorem State.memoryOk.act (h : s.memoryOk) (m : Move) : Out.memoryOk (m.act s) := by
  cases m with
  | turn => exact h
  | commandStart k q n => exact h.exec (.commandStart k q n)
  | commandComplete k pos => exact h.exec (.commandComplete k pos)
  | mmulChunkCommit k => exact h.exec (.mmulChunkCommit k)
  | lateLegFault k pos cls faddr => exact h.exec (.lateLegFault k pos cls faddr)
  | streamFillEntry k rec => exact h.exec (.streamFillEntry k rec)
  | handlerEntry k => exact h.exec (.handlerEntry k)
  | schedMiss k => exact h.exec (.schedMiss k)
  | waitBound k who => exact h.exec (.waitBound k who)
  | cancelLimitExpiry k => exact h.exec (.cancelLimitExpiry k)
  | forcedSave k => exact h.exec (.forcedSave k)
  | cimWakeEnd k set => exact h.exec (.cimWakeEnd k set)
  | cimGateIdle k set => exact h.exec (.cimGateIdle k set)
  | dispatch d => exact h.exec (.dispatch d)
  | agingSweep d => exact h.exec (.agingSweep d)
  | translationComplete d i => exact h.exec (.translationComplete d i)
  | eventWaitRepresent d i => exact h.exec (.eventWaitRepresent d i)
  | pendingSignalApply d => exact h.exec (.pendingSignalApply d)
  | reshardPassTime d j => exact h.exec (.reshardPassTime d j)
  | reshardPassEnd d j => exact h.exec (.reshardPassEnd d j)
  | reshardLocalMove d j => exact h.exec (.reshardLocalMove d j)
  | reshardSlackExpiry d j => exact h.exec (.reshardSlackExpiry d j)
  | collectiveForward d j c => exact h.exec (.collectiveForward d j c)
  | collectiveRootFinish d j c => exact h.exec (.collectiveRootFinish d j c)
  | collectiveSlotTimeout d j c => exact h.exec (.collectiveSlotTimeout d j c)
  | cbcastDeadline d j c => exact h.exec (.cbcastDeadline d j c)
  | slabArrival i => exact h.exec (.slabArrival i)
  | laysetDistribute i => exact h.exec (.laysetDistribute i)
  | laysetInstall i => exact h.exec (.laysetInstall i)
  | reshardReady i => exact h.exec (.reshardReady i)
  | reshardReport i => exact h.exec (.reshardReport i)
  | reshardCommit i => exact h.exec (.reshardCommit i)
  | reshardAbort i => exact h.exec (.reshardAbort i)
  | collectivePartialArrival i => exact h.exec (.collectivePartialArrival i)
  | collectiveResultArrival i => exact h.exec (.collectiveResultArrival i)
  | grantNarrowing i => exact h.exec (.grantNarrowing i)
  | narrowingAck i => exact h.exec (.narrowingAck i)
  | loggedRequestAtHome a b => exact h.exec (.loggedRequestAtHome a b)
  | remoteAccessAtHome a b => exact h.exec (.remoteAccessAtHome a b)
  | remoteResponse i p => exact h.exec (.remoteResponse i p)
  | requestDeadline i => exact h.exec (.requestDeadline i)
  | seqHomeRetry i => exact h.exec (.seqHomeRetry i)
  | seqHomeRefuse i => exact h.exec (.seqHomeRefuse i)
  | revocationReceive i k => exact h.exec (.revocationReceive i k)
  | revocationAck i k => exact h.exec (.revocationAck i k)
  | revocationComplete i => exact h.exec (.revocationComplete i)
  | launchUnitRegister j l => exact h.exec (.launchUnitRegister j l)
  | launchStampReread p f x => exact h.exec (.launchStampReread p f x)
  | flrDrainDone p f => exact h.exec (.flrDrainDone p f)
theorem State.memoryOk.eventTurn {i : Instr} {x : Fetched} (h : s.memoryOk) (hx : s.eventTurn i = some x) : x.memoryOk := by
  unfold State.eventTurn at hx
  split at hx
  · cases hx
  · split at hx <;> cases hx
    · exact .ite trivial (.run h)
    · exact .run h
theorem State.memoryOk.turnOf {w : Who} {x : Fetched} (h : s.memoryOk) (hx : s.turnOf w = some x) : x.memoryOk := by
  cases w with
  | ct => cases hx; exact h.ctTurn
  | vs => cases hx; exact h.vsTurn
  | store => cases hx; exact h.storeTurn
  | prefetch => cases hx; exact h.prefetchTurn
  | ev => exact h.eventTurn hx
theorem Out.memoryOk.finishTurn {w : Who} {o : Out} (h : o.memoryOk) : Out.memoryOk (finishTurn w o) := by
  cases o with
  | next => exact State.memoryOk.afterTurn h
  | fault | refused => exact trivial
theorem State.memoryOk.runTurn {w : Who} (h : s.memoryOk) : Out.memoryOk (s.runTurn w) := by
  unfold State.runTurn
  split
  · exact trivial
  · exact h
  · next hx => exact .afterTurn (h.turnOf hx)
  · next hx => exact .finishTurn (State.memoryOk.exec (h.turnOf hx) _)
theorem State.memoryOk.takeTurn (h : s.memoryOk) : s.takeTurn.2.memoryOk := by
  unfold State.takeTurn
  split
  · exact h
  · split <;> exact h
theorem State.memoryOk.step (h : s.memoryOk) : Out.memoryOk (step s) := by
  unfold Sys2Proof.Machine.step
  split
  · next hm => exact (h.takeTurn.of_snd hm).runTurn
  · next hm => exact (h.takeTurn.of_snd hm).act _

/-- Settles O59: the step is a turn or an own move, a turn runs one instruction or one shared operation, and each of these keeps the
form. -/
theorem memoryKept : Obligations.MemoryKept := by
  intro s t h hstep
  have hout : Out.memoryOk (step s) := h.step
  rwa [hstep] at hout

end Sys2Proof.Machine
end

section
/-! SUPPORT. What the operations read at reset. -/

namespace Sys2Proof.Machine

/-! ## What reset reads

At reset every table is empty, so each part of the state reads as the default of its type. -/

theorem State.reset_tile (k : Nat) : State.reset.tile k = {} := rfl
theorem State.reset_die (d : Nat) : State.reset.die d = {} := rfl
theorem State.reset_pkg (p : Nat) : State.reset.pkg p = {} := rfl
theorem State.reset_func (p f : Nat) : State.reset.func p f = {} := rfl
theorem State.reset_jobDie (d j : Nat) : State.reset.jobDie d j = {} := rfl

theorem slewed_same (a n : Nat) : slewed a a n = a := by simp [slewed]

theorem State.reset_dcc (d : Nat) : State.reset.dcc d = 0 := by
  have hc : State.reset.cycles = 0 := rfl
  unfold State.dcc
  rw [reset_die, hc]
  simp
theorem State.reset_hubPtc (p : Nat) : State.reset.hubPtc p = 0 := by
  have hns : State.reset.ns = 0 := rfl
  unfold State.hubPtc
  rw [reset_pkg, hns]
  simp [slewed_same]
theorem State.reset_ptc (d : Nat) : State.reset.ptc d = 0 := by
  unfold State.ptc
  rw [reset_die, reset_hubPtc]
  simp [slewed_same]

/-- Settles O60, clause by clause of the statement: the form of memory, tiles, dies, functions, packages, and the place of die 5. That
the package time starts at 0 is the model's choice (log 9). -/
theorem resetState : Obligations.ResetState := by
  refine ⟨State.memoryOk_reset, fun k => ?_, fun d => ?_, fun p f => ?_, fun p => ?_, rfl, rfl⟩
  · rw [State.reset_tile]
    decide
  · rw [State.reset_dcc, State.reset_ptc, State.reset_die]
    refine ⟨rfl, rfl, rfl, rfl, rfl, rfl, rfl, rfl, fun j => ?_⟩
    rw [State.reset_jobDie]
  · rw [State.reset_func]
    exact ⟨rfl, rfl, rfl, rfl, rfl, rfl, rfl⟩
  · rw [State.reset_pkg]
    exact ⟨rfl, rfl, rfl, rfl⟩

end Sys2Proof.Machine
end

section
/-! SUPPORT. The control registers: what CTLR reads, what a CTLW does by the register's number, and how a word that writes a
control register ends. -/

namespace Sys2Proof.Machine

/-! ## Fields of a word made from a number -/

theorem fld_eq {w : Nat} (v : BitVec w) (lo n : Nat) : fld v lo n = v.toNat / 2 ^ lo % 2 ^ n := by
  rw [fld, BitVec.extractLsb'_toNat, Nat.shiftRight_eq_div_pow]

/-- A field that lies inside the 64 bits is read back from the number that the word was made of. -/
theorem fld_w64 (x : Nat) {lo n : Nat} (h : lo + n ≤ 64) : fld (w64 x) lo n = x / 2 ^ lo % 2 ^ n := by
  rw [fld_eq, w64, BitVec.toNat_ofNat]
  apply Nat.eq_of_testBit_eq
  intro i
  by_cases hi : i < n
  · have hlt : i + lo < 64 := by omega
    simp only [Nat.testBit_mod_two_pow, Nat.testBit_div_two_pow, hi, hlt, decide_true, Bool.true_and]
  · simp [hi]

/-! ## CTLR -/

theorem State.ctlValue_cap (s : State) (k : Nat) : ∀ c ∈ capValues, s.ctlValue k c.1 = BitVec.ofNat 64 c.2 := by
  intro c hc
  simp only [capValues, List.mem_cons, List.not_mem_nil, or_false] at hc
  rcases hc with rfl | rfl | rfl | rfl | rfl | rfl | rfl | rfl | rfl | rfl | rfl | rfl | rfl | rfl | rfl | rfl | rfl | rfl <;> rfl

theorem State.ctlValue_self (s : State) :
    let v := s.ctlValue s.focus 0x112
    let d := tileDie s.focus
    fld v 0 5 = s.focus % 32 ∧ fld v 5 3 = 0 ∧ fld v 8 3 = d % 8 ∧ fld v 11 5 = 0
      ∧ (s.pkgName (d / 8) < 1024 → fld v 16 48 = s.pkgName (d / 8)) := by
  intro v d
  have hv : v = w64 (s.focus % 32 + 256 * (d % 8) + 65536 * s.pkgName (d / 8)) := rfl
  rw [hv]
  simp only [fld_w64, Nat.reduceAdd, Nat.reduceLeDiff]
  refine ⟨?_, ?_, ?_, ?_, fun h => ?_⟩ <;> omega

theorem State.ctlValue_coord (s : State) :
    let v := s.ctlValue s.focus 0x113
    let p := s.pkg (tileDie s.focus / 8)
    fld v 0 3 = p.px % 8 ∧ fld v 3 5 = 0 ∧ fld v 8 3 = p.py % 8 ∧ fld v 11 5 = 0 ∧ fld v 16 4 = p.pz % 16 ∧ fld v 20 44 = 0 := by
  intro v p
  have hv : v = w64 (p.px % 8 + 256 * (p.py % 8) + 65536 * (p.pz % 16)) := rfl
  rw [hv]
  simp only [fld_w64, Nat.reduceAdd, Nat.reduceLeDiff]
  refine ⟨?_, ?_, ?_, ?_, ?_, ?_⟩ <;> omega

/-- CLAUSE reads with the CTLR itself counted as fetched (R89). -/
theorem State.ctlValue_clause (s : State) :
    (s.ctlValue s.focus 0x62).toNat = if s.cur.clause.toNat % 16 ≤ 1 then 0 else s.cur.clause.toNat - 1 := by
  show ((clauseStep s.cur.clause).setWidth 64).toNat = _
  generalize s.cur.clause = c
  revert c
  decide

theorem State.ctlValue_phase (s : State) :
    let v := s.ctlValue s.focus 0x64
    v.getLsbD 0 = s.cur.inh ∧ v.getLsbD 1 = s.cur.phase.isSome ∧ fld v 2 62 = 0 := by
  intro v
  have hv : v = w64 ((if s.cur.inh then 1 else 0) + (if s.cur.phase.isSome then 2 else 0)) := rfl
  rw [hv]
  cases s.cur.inh <;> cases s.cur.phase.isSome <;> decide

/-- A number that names no register reads zero (R301). -/
theorem State.ctlValue_none (s : State) (k n : Nat)
    (h : n < 0x20 ∨ (0x21 < n ∧ n < 0x30) ∨ (0x32 < n ∧ n < 0x40) ∨ (0x44 < n ∧ n < 0x60) ∨ (0x64 < n ∧ n < 0x70)
      ∨ (0x70 < n ∧ n < 0x80) ∨ (0x83 < n ∧ n < 0x90) ∨ (0x90 < n ∧ n < 0x100) ∨ 0x113 < n) : s.ctlValue k n = 0 := by
  have hc : ¬ (0x100 ≤ n ∧ n < 0x114) := by omega
  unfold State.ctlValue
  split
  case h_22 => exact if_neg hc
  all_goals simp at h

/-- What CTLR reads, register by register: the fixed values, the words made of fields, the plain registers, and zero. -/
theorem State.ctlReads_ctlValue (s : State) (n : Nat) : ctlReads s n (s.ctlValue s.focus n) := by
  refine ⟨?cap, ?self, ?coord, ?_, ?_, ?_, ?_, ?clause, ?phase, ?_, ?_, ?_, ?_, ?_, ?_, ?_, ?_, ?_, ?_, ?_, s.ctlValue_none s.focus n⟩
  case cap =>
    rintro c hc rfl
    exact s.ctlValue_cap s.focus c hc
  case self =>
    rintro rfl
    exact s.ctlValue_self
  case coord =>
    rintro rfl
    exact s.ctlValue_coord
  case clause =>
    rintro rfl
    exact s.ctlValue_clause
  case phase =>
    rintro rfl
    exact s.ctlValue_phase
  all_goals
    rintro rfl
    rfl

/-! ## CTLW -/

theorem ctlwKind_priv : ∀ n ∈ [0x21, 0x30, 0x31, 0x32, 0x40, 0x41, 0x42, 0x43, 0x44, 0x70, 0x80, 0x81, 0x83, 0x90],
    ctlwKind n = .priv := by
  decide

theorem ctlwKind_illegal {n : Nat} (h : n ∉ [0x20, 0x21, 0x30, 0x31, 0x32, 0x40, 0x41, 0x42, 0x43, 0x44, 0x61, 0x63, 0x70, 0x80, 0x81,
    0x83, 0x90]) : ctlwKind n = .illegal := by
  unfold ctlwKind
  split
  case h_18 => rfl
  all_goals simp at h

/-- A word that changes the PC by its own end alone goes on at the next word, and writes no byte. -/
theorem State.retire_wordEnds (s : State) {u : Tile} (h : u.pc = s.cur.pc) : WordEnds s (s.retire u) := by
  rw [State.retire_eq, h]
  exact ⟨rfl, by simp, by simp, by simp, fun _ => rfl⟩

@[simp] theorem State.cur_retire (s : State) (u : Tile) : (s.retire u).cur = u.retire (s.dcc (tileDie s.focus)) := State.cur_setTile s _

theorem State.retire_noRegs (s : State) {u : Tile} (hg : u.g = s.cur.g) (hf : u.f = s.cur.f) (hq : u.q = s.cur.q) (hd : u.d = s.cur.d)
    (hp : u.fpc = s.cur.fpc) : NoRegs s.cur (s.retire u).cur := by
  simp [NoRegs, GSame, FSame, QSame, DSame, Tile.retire, Tile.gReg, Tile.fReg, Tile.dReg, hg, hf, hq, hd, hp]

/-- With nothing of the engines under way, a swap opens its phase (R266, R267). -/
theorem State.swapPhase_opens (s : State) (v : W64) (ha : s.cur.ahead = false) (hv : bufphOk v = true) (hvs : s.cur.vs = none)
    (hst : s.cur.started = []) :
    ∃ t p, s.swapPhase v = .next t ∧ WordEnds s t ∧ NoRegs s.cur t.cur ∧ t.cur.bufph = v &&& 0x033FFFFF#64 ∧ t.cur.phase = some p
      ∧ p.g = (List.range 8).map (fun i => s.cur.gReg (i + 1)) ∧ p.q = s.cur.q ∧ p.pc = s.cur.pc + 4 ∧ p.taken = false := by
  have hq : s.cur.queued = false := by
    unfold Tile.ahead at ha
    exact (Bool.or_eq_false_iff.1 ha).1
  have hd : s.cur.enginesDone = true := by simp [Tile.enginesDone, hvs, hst, hq]
  unfold State.swapPhase
  simp only [hv, hd, Bool.not_true, Bool.false_eq_true, if_false]
  refine ⟨_, ?p, rfl, s.retire_wordEnds rfl, s.retire_noRegs rfl rfl rfl rfl rfl, ?bufph, ?phase, ?held⟩
  case phase => rw [State.cur_retire]; rfl
  case bufph => rw [State.cur_retire]; rfl
  case held => exact ⟨rfl, rfl, rfl, rfl⟩

theorem State.closePhase_closes (s : State) (v : W64) :
    ∃ t, s.closePhase v = .next t ∧ WordEnds s t ∧ NoRegs s.cur t.cur ∧ t.cur.bufph = v &&& 0x033FFFFF#64 ∧ t.cur.phase = none := by
  refine ⟨_, rfl, s.retire_wordEnds rfl, s.retire_noRegs rfl rfl rfl rfl rfl, ?_, ?_⟩ <;> rw [State.cur_retire] <;> rfl

/-- A write to BUFPH, whichever of its words makes it. -/
theorem State.writeBufph_swap (s : State) {v : W64} (h : bit v 24 = true) : s.writeBufph v = s.swapPhase v := if_pos h
theorem State.writeBufph_close (s : State) {v : W64} (h : bit v 24 = false) : s.writeBufph v = s.closePhase v := by
  simp [State.writeBufph, h]

section
variable (s : State) (h : s.cur.ahead = false)
include h

theorem exec_ctlr_now (d : BitVec 6) (n : BitVec 13) : exec (.ctlr d n) s = s.setG d.toNat (s.ctlValue s.focus n.toNat) :=
  s.commitThen_now (fun s => s.setG d.toNat (s.ctlValue s.focus n.toNat)) h

/-- The words that write BUFPH: CTLW with its number, and the two that name it. -/
theorem exec_bufph_now (a : BitVec 6) :
    exec (.ctlw a 0x63) s = s.writeBufph (s.g a) ∧ exec (.bufphSwap a) s = s.writeBufph (s.g a)
      ∧ exec (.bufphClose a) s = s.writeBufph (s.g a) :=
  have e := s.commitThen_now (fun u => u.writeBufph (s.g a)) h
  ⟨e, e, e⟩

theorem exec_ctlw_fpc_now (a : BitVec 6) : exec (.ctlw a 0x20) s = .next (s.retire { s.cur with fpc := s.g a &&& fpcMask }) :=
  s.commitThen_now (fun u => .next (u.retire { u.cur with fpc := s.g a &&& fpcMask })) h

theorem exec_ctlw_waitCap_now (a : BitVec 6) :
    exec (.ctlw a 0x61) s = .next (s.retire { s.cur with waitCap := s.g a &&& waitCapMask }) :=
  s.commitThen_now (fun u => .next (u.retire { u.cur with waitCap := s.g a &&& waitCapMask })) h

theorem exec_ctlw_priv_now (a : BitVec 6) {n : BitVec 13} (hn : ctlwKind n.toNat = .priv) :
    exec (.ctlw a n) s = .next (s.fault s.focus Cls.priv) := by
  show execCtlw a n s = _
  simp only [execCtlw, s.commitThen_now _ h, hn]

theorem exec_ctlw_illegal_now (a : BitVec 6) {n : BitVec 13} (hn : ctlwKind n.toNat = .illegal) :
    exec (.ctlw a n) s = .next (s.illegal s.focus) := by
  show execCtlw a n s = _
  simp only [execCtlw, s.commitThen_now _ h, hn]

theorem exec_cyc_dcc_now (d : BitVec 6) : exec (.cyc d 0) s = s.setG d.toNat (w64 (s.dcc (tileDie s.focus))) :=
  s.commitThen_now (fun s => s.setG d.toNat (w64 (s.dcc (tileDie s.focus)))) h

theorem exec_cyc_ptc_now (d : BitVec 6) : exec (.cyc d 1) s = s.setG d.toNat (w64 (s.ptc (tileDie s.focus))) :=
  s.commitThen_now (fun s => s.setG d.toNat (w64 (s.ptc (tileDie s.focus)))) h

/-- CYC names two counters. -/
theorem exec_cyc_illegal_now (d : BitVec 6) {n : BitVec 13} (hn : 1 < n.toNat) : exec (.cyc d n) s = .next (s.illegal s.focus) := by
  show execCyc d n s = _
  unfold execCyc
  rw [s.commitThen_now _ h]
  dsimp only
  split
  case h_3 => rfl
  all_goals omega

end

/-- A unit's TLBI is refused, whatever it names. -/
theorem exec_tlbi (s : State) (a : BitVec 6) (c : BitVec 3) :
    exec (.tlbi a c) s = .next (s.fault s.focus (if c.toNat < 3 then Cls.priv else Cls.illegalOp)) := by
  show execTlbi a c s = _
  unfold execTlbi
  by_cases hc : c.toNat < 3
  · rw [if_neg (by omega), if_pos hc]
  · rw [if_pos (by omega), if_neg hc]
    rfl

/-- Settles O27, clause by clause of the statement. -/
theorem controlWords : Obligations.ControlWords := by
  intro s a d n v k swapped closed h
  obtain ⟨hw, hs, hc⟩ := exec_bufph_now s h a
  refine ⟨?_, ?_, ?_, fun hb => ?_, fun hb => ?_, fun hn => ?_, fun hn => ?_, ?_, ?_, fun hn => ?_, exec_tlbi s a⟩
  · obtain ⟨t, ht, hg⟩ := s.setG_spec d.toNat (s.ctlValue s.focus n.toNat)
    exact ⟨t, _, (exec_ctlr_now s h d n).trans ht, hg, s.ctlReads_ctlValue n.toNat⟩
  · rintro rfl
    refine ⟨_, exec_ctlw_fpc_now s h a, s.retire_wordEnds rfl, ?_⟩
    rw [State.cur_retire]
    exact ⟨rfl, fun _ => rfl, fun _ => rfl, rfl, fun _ => rfl⟩
  · rintro rfl
    refine ⟨_, exec_ctlw_waitCap_now s h a, s.retire_wordEnds rfl, s.retire_noRegs rfl rfl rfl rfl rfl, ?_⟩
    rw [State.cur_retire]
    rfl
  · have hopen {i : Instr} (hi : exec i s = s.writeBufph v) : swapped i := fun hv hvs hst => by
      rw [hi, s.writeBufph_swap hb]
      exact s.swapPhase_opens v h hv hvs hst
    exact ⟨by rintro rfl; exact hopen hw, hopen hs, hopen hc⟩
  · have hclose {i : Instr} (hi : exec i s = s.writeBufph v) : closed i := by
      show ∃ t, exec i s = .next t ∧ _
      rw [hi, s.writeBufph_close hb]
      exact s.closePhase_closes v
    exact ⟨by rintro rfl; exact hclose hw, hclose hs, hclose hc⟩
  · exact exec_ctlw_priv_now s h a (ctlwKind_priv _ hn)
  · exact exec_ctlw_illegal_now s h a (ctlwKind_illegal hn)
  · obtain ⟨t, ht, hg⟩ := s.setG_spec d.toNat (w64 (s.dcc (tileDie s.focus)))
    exact ⟨t, (exec_cyc_dcc_now s h d).trans ht, hg⟩
  · obtain ⟨t, ht, hg⟩ := s.setG_spec d.toNat (w64 (s.ptc (tileDie s.focus)))
    exact ⟨t, (exec_cyc_ptc_now s h d).trans ht, hg⟩
  · exact exec_cyc_illegal_now s h d hn

end Sys2Proof.Machine
end

section
/-! SUPPORT. The end of a power window, and the state that refutes the statement about it. -/

namespace Sys2Proof.Machine

/-- A window that ends records the average that it was given, whatever its size. -/
theorem State.powerWindow_avg (s : State) (p n m : Nat) (hn : n ≤ s.capHigh p) (ht : (s.pkg p).pwrAt + 1000000 ≤ s.hubPtc p) :
    ((s.powerWindow p n m).pkg p).pwrAvg = n := by
  unfold State.powerWindow
  rw [if_neg (by omega), State.pkg_modPkg_self]

/-- Package 0 stands 1 ms after its start with a cap of 70,000 in force. The register's own write keeps the cap at or below 3,600
(R278); the statement speaks of every state. -/
def wideCap : State := { State.reset with ns := 1000000, pkgs := [(0, { pwrCap := 70000 })] }

theorem wideCap_pkg : wideCap.pkg 0 = { pwrCap := 70000 } := rfl

theorem wideCap_capHigh : wideCap.capHigh 0 = 70000 := rfl

theorem wideCap_hubPtc : wideCap.hubPtc 0 = 1000000 := by
  unfold State.hubPtc
  rw [wideCap_pkg]
  simp [slewed_same, wideCap]

/-- Refutes O44: under a cap past 16 bits, a window may end with an average past 65,535, and records it as it is; the statement asks for
65,535. The state is `wideCap`, the average 70,000. -/
theorem not_clocksAndScrub : ¬ Obligations.ClocksAndScrub := by
  intro h
  obtain ⟨-, -, hwindow, -⟩ := h wideCap 0 0 70000 0
  have hcap : 70000 ≤ wideCap.capHigh 0 := by rw [wideCap_capHigh]
  have hdue : (wideCap.pkg 0).pwrAt + 1000000 ≤ wideCap.hubPtc 0 := by rw [wideCap_hubPtc]; rfl
  obtain ⟨t, hexec, -, -, havg, -⟩ := hwindow hcap hdue
  have ht : t = wideCap.powerWindow 0 70000 0 := (Host.Outcome.next.inj hexec).symm
  rw [ht, State.powerWindow_avg _ _ _ _ hcap hdue] at havg
  exact absurd havg (by decide)

end Sys2Proof.Machine
end

section
/-! SUPPORT. Writes of the agents outside the instruction stream: what each leaves of the die, the package, the function, the tiles and
the bytes that it does not name. -/

namespace Sys2Proof.Machine

/-! ## Updates of one die, one package, one function, one job's part of a die -/

theorem State.modDie_spec {s t : State} {d : Nat} {f : Die → Die} (h : t = s.modDie d f) : OnlyDie s t d ∧ t.die d = f (s.die d) := by
  subst h
  refine ⟨?_, s.die_modDie_self d f⟩
  unfold OnlyDie
  rw [State.die_modDie_self]
  rfl

theorem State.modPkg_spec {s t : State} {p : Nat} {f : Pkg → Pkg} (h : t = s.modPkg p f) : OnlyPkg s t p ∧ t.pkg p = f (s.pkg p) := by
  subst h
  refine ⟨?_, s.pkg_modPkg_self p f⟩
  unfold OnlyPkg
  rw [State.pkg_modPkg_self]
  rfl

@[simp] theorem State.func_modFunc_self (s : State) (p f : Nat) (h : Func → Func) : (s.modFunc p f h).func p f = h (s.func p f) := by
  unfold State.func State.modFunc
  rw [State.pkg_modPkg_self]
  exact Tab.get_put_self _ _ _ _

theorem State.modFunc_spec {s t : State} {p f : Nat} {g : Func → Func} (h : t = s.modFunc p f g) :
    OnlyFunc s t p f ∧ t.func p f = g (s.func p f) := by
  subst h
  refine ⟨?_, s.func_modFunc_self p f g⟩
  unfold OnlyFunc
  rw [State.func_modFunc_self]
  rfl

theorem State.die_modDie_ne (s : State) {d e : Nat} (f : Die → Die) (h : e ≠ d) : (s.modDie d f).die e = s.die e := by
  unfold State.modDie
  rw [State.die_setDie, if_neg h]

theorem State.jobDie_modJobDie (s : State) (d j e i : Nat) (h : JobDie → JobDie) :
    (s.modJobDie d j h).jobDie e i = if e = d ∧ i = j then h (s.jobDie d j) else s.jobDie e i := by
  unfold State.jobDie State.modJobDie State.modDie
  rw [State.die_setDie]
  by_cases he : e = d
  · subst he
    simp only [if_true, true_and, Tab.get_put]
  · simp only [he, if_false, false_and]

@[simp] theorem State.jobDie_modJobDie_self (s : State) (d j : Nat) (h : JobDie → JobDie) :
    (s.modJobDie d j h).jobDie d j = h (s.jobDie d j) := by
  simp [State.jobDie_modJobDie]

/-! ## Pending pre-emptions -/

/-- Nothing but pending pre-emptions changed. -/
def PreemptsOnly (s t : State) : Prop :=
  t.mem = s.mem ∧ t.dies = s.dies ∧ ∀ k, t.tile k = { s.tile k with preemptAt := (t.tile k).preemptAt }

theorem PreemptsOnly.rfl {s : State} : PreemptsOnly s s := ⟨by rfl, by rfl, fun _ => by rfl⟩

theorem PreemptsOnly.trans {s t u : State} (h : PreemptsOnly s t) (g : PreemptsOnly t u) : PreemptsOnly s u := by
  obtain ⟨hm, hd, ht⟩ := h
  obtain ⟨gm, gd, gt⟩ := g
  refine ⟨gm.trans hm, gd.trans hd, fun k => ?_⟩
  rw [gt k, ht k]

theorem PreemptsOnly.foldl {α : Type} {f : State → α → State} (hf : ∀ s a, PreemptsOnly s (f s a)) (l : List α) :
    ∀ s, PreemptsOnly s (l.foldl f s) := by
  induction l with
  | nil => exact fun _ => .rfl
  | cons a l ih => exact fun s => (hf s a).trans (ih _)

theorem State.preemptFor_only (s : State) (d : Nat) (r : Rec) : PreemptsOnly s (s.preemptFor d r) := by
  unfold State.preemptFor
  split
  · exact .rfl
  · refine .foldl (fun s k => ⟨by rfl, by rfl, fun i => ?_⟩) _ _
    rw [State.tile_modTile]
    split
    · next h => rw [h]
    · rfl

theorem State.preemptAll_only (s : State) (d : Nat) : PreemptsOnly s (s.preemptAll d) :=
  .foldl (fun _ _ => .foldl (fun s _ => s.preemptFor_only d _) _ _) _ _

/-! ## Bytes -/

theorem State.byte_writeAtomic (s : State) (p : Nat) (bs : List Byte) (a : Nat) :
    (s.writeAtomic p bs).byte a = if p ≤ a ∧ a < p + bs.length then bs.getD (a - p) 0 else s.byte a := by
  unfold State.writeAtomic
  rw [State.byte_touchSectors, State.byte_putBytes]

theorem Tab.find_filter_key {α : Type} (t : Tab α) (q : Nat → Bool) (k : Nat) :
    Tab.find? (t.filter fun c => q c.1) k = if q k = true then Tab.find? t k else none := by
  induction t with
  | nil => simp [Tab.find?]
  | cons c r ih =>
    obtain ⟨i, v⟩ := c
    by_cases hi : i = k
    · subst hi
      cases hq : q i <;> simp [Tab.find?, hq, ih]
    · cases hq : q i <;> simp [Tab.find?, hq, hi, ih]

theorem State.byte_zeroRange (s : State) (p len a : Nat) :
    (s.zeroRange p len).byte a = if p ≤ a ∧ a < p + len then 0 else s.byte a := by
  unfold State.zeroRange State.byte Tab.get
  rw [Tab.find_filter_key s.mem (fun c => !(p ≤ c && c < p + len))]
  by_cases h : p ≤ a ∧ a < p + len
  · simp [h]
  · have hq : (!(decide (p ≤ a) && decide (a < p + len))) = true := by simp; omega
    rw [if_pos hq, if_neg h]

/-- Values written one after the other from `lo` on: each at its place, everything else as before. -/
theorem Tab.get_foldl_set (bs : List Byte) (o i : Nat) : ∀ (k : Nat) (w : Tab Byte),
    Tab.get 0 ((bs.zipIdx k).foldl (fun t b => Tab.set 0 t (o + b.2) b.1) w) i
      = if o + k ≤ i ∧ i < o + k + bs.length then bs.getD (i - (o + k)) 0 else Tab.get 0 w i := by
  induction bs with
  | nil => intro k w; simp
  | cons b r ih =>
    intro k w
    rw [List.zipIdx_cons, List.foldl_cons, ih, Tab.get_set, List.length_cons]
    by_cases h1 : i = o + k
    · subst h1; simp
    · by_cases h2 : o + k + 1 ≤ i ∧ i < o + k + 1 + r.length
      · rw [if_pos (by omega), if_pos (by omega), show i - (o + k) = (i - (o + (k + 1))) + 1 by omega]
        rfl
      · rw [if_neg (by omega), if_neg h1, if_neg (by omega)]

/-! ## The placement of a job -/

theorem mem_winInsert (l : List Nat) (x k : Nat) : k ∈ winInsert l x ↔ k = x ∨ k ∈ l := by
  induction l with
  | nil => simp [winInsert]
  | cons y r ih =>
    unfold winInsert
    split
    · simp
    · split
      · next h => simp [h]
      · simp only [List.mem_cons, ih]
        tauto

theorem pairwise_winInsert (l : List Nat) (x : Nat) (h : l.Pairwise (· < ·)) : (winInsert l x).Pairwise (· < ·) := by
  induction l with
  | nil => simp [winInsert]
  | cons y r ih =>
    obtain ⟨hy, hr⟩ := List.pairwise_cons.1 h
    unfold winInsert
    split
    · next hx => exact List.pairwise_cons.2 ⟨fun b hb => (List.mem_cons.1 hb).elim (fun e => e ▸ hx) fun hb => hx.trans (hy b hb), h⟩
    · split
      · exact h
      · refine List.pairwise_cons.2 ⟨fun b hb => ?_, ih hr⟩
        rcases (mem_winInsert r x b).1 hb with rfl | hb
        · omega
        · exact hy b hb

/-- Dies by rank: the given ones, ascending. -/
theorem ranked_spec (ds : List Nat) : (ranked ds).Pairwise (· < ·) ∧ ∀ k, k ∈ ranked ds ↔ k ∈ ds := by
  have go : ∀ l : List Nat, l.Pairwise (· < ·) →
      (ds.foldl winInsert l).Pairwise (· < ·) ∧ ∀ k, k ∈ ds.foldl winInsert l ↔ k ∈ ds ∨ k ∈ l := by
    induction ds with
    | nil => exact fun l h => ⟨h, fun k => by simp⟩
    | cons d r ih =>
      intro l h
      obtain ⟨hp, hm⟩ := ih _ (pairwise_winInsert l d h)
      refine ⟨hp, fun k => ?_⟩
      rw [List.foldl_cons, hm, mem_winInsert, List.mem_cons]
      tauto
  obtain ⟨hp, hm⟩ := go [] .nil
  exact ⟨hp, fun k => (hm k).trans (by simp)⟩

/-- A job's part of each die of a list is replaced: what holds of every replacement holds there. -/
theorem State.jobDie_foldl_modJobDie {α : Type} {P : JobDie → Prop} {j k : Nat} {die : α → Nat} {g : α → JobDie → JobDie}
    (hg : ∀ a x, P (g a x)) (l : List α) : ∀ s : State, (P (s.jobDie k j) ∨ k ∈ l.map die) →
      P ((l.foldl (fun s a => s.modJobDie (die a) j (g a)) s).jobDie k j) := by
  induction l with
  | nil => exact fun s h => h.resolve_right (by simp)
  | cons a l ih =>
    intro s h
    refine ih _ ?_
    rw [State.jobDie_modJobDie]
    by_cases hk : k = die a
    · rw [if_pos ⟨hk, rfl⟩]
      exact .inl (hg a _)
    · rw [if_neg fun e => hk e.1]
      exact h.imp_right fun h => (List.mem_cons.1 h).resolve_left hk

end Sys2Proof.Machine
end

section
/-! SUPPORT. Register writes by the agents that own them, and what each stores. -/

namespace Sys2Proof.Machine

/-! ## The event -/

/-- A write by its register's agent, once boot has started that agent, is the write. -/
theorem exec_registerWrite_own (s : State) (w : RegWrite) (h : (s.pkg w.package).runs w.agent = true) :
    exec (.registerWrite { agent := w.agent, reg := w }) s = .next (s.writeReg w) := by
  show execRegisterWrite _ s = _
  unfold execRegisterWrite
  rw [if_pos ⟨rfl, h⟩]

theorem exec_registerWrite_other (s : State) (w : RegWrite) (a : Agent) (h : a ≠ w.agent ∨ (s.pkg w.package).runs a = false) :
    exec (.registerWrite { agent := a, reg := w }) s = .next s := by
  show execRegisterWrite _ s = _
  unfold execRegisterWrite
  refine congrArg Host.Outcome.next (if_neg ?_)
  rintro ⟨ha, hr⟩
  rcases h with h | h
  · exact h ha
  · exact Bool.false_ne_true (h.symm.trans hr)

/-- What holds of the state that a write leaves holds of the state that its event leaves. -/
theorem registerWrite_of {s : State} {w : RegWrite} {P : State → Prop} (h : P (s.writeReg w)) :
    (s.pkg w.package).runs w.agent = true → ∃ t, exec (.registerWrite { agent := w.agent, reg := w }) s = .next t ∧ P t :=
  fun hr => ⟨_, exec_registerWrite_own s w hr, h⟩

section
variable (s : State)

/-! ## Writes that store their value as it comes -/

theorem State.writeReg_resolver (d b t : Nat) : s.writeReg (.resolver d b t) = s.modDie d fun x =>
    { x with resolver := Tab.put x.resolver b { target := t, refs := (Tab.get { target := 0, refs := 0 } x.resolver b).refs } } := rfl

theorem State.writeReg_pool (d j : Nat) (bs : List Nat) :
    s.writeReg (.pool d j bs) = s.modJobDie d j fun x => { x with pool := x.pool ++ bs } := rfl

theorem State.writeReg_ring (d p n : Nat) :
    s.writeReg (.ring d p n) = s.modDie d fun x => { x with rings := Tab.set 0 x.rings p n } := rfl

theorem State.writeReg_seqArea (d b n : Nat) :
    s.writeReg (.seqArea d b n) = s.modDie d fun x => { x with btBase := b, btLen := n } := rfl

theorem State.writeReg_powerCap (p : Nat) (v : W64) : s.writeReg (.powerCap p v) = s.modPkg p fun x =>
    { x with pwrCap := min 3600 (max 1200 (fld v 16 16))
             pwrCaps := x.pwrCaps.filter (fun c => s.hubPtc p < c.1 + 1000000) ++ [(s.hubPtc p, x.pwrCap)] } := rfl

theorem State.writeReg_mgmtRead (p n : Nat) :
    s.writeReg (.mgmtRead p n) = s.modPkg (plainDie p / 8) fun x => { x with mgmtReply := s.mgmtBytes p n } := rfl

/-! ## A job's registers on a die -/

theorem State.modJobDie_preemptAll (d j : Nat) (g : JobDie → JobDie) :
    let t := (s.modJobDie d j g).preemptAll d
    t.mem = s.mem ∧ (∀ a, a ≠ d → t.die a = s.die a) ∧ (∀ k, t.tile k = { s.tile k with preemptAt := (t.tile k).preemptAt })
      ∧ t.jobDie d j = g (s.jobDie d j) := by
  intro t
  obtain ⟨hm, hd, ht⟩ := (s.modJobDie d j g).preemptAll_only d
  have hdie (a : Nat) : t.die a = (s.modJobDie d j g).die a := by
    unfold State.die
    rw [hd]
  refine ⟨hm, fun a ha => (hdie a).trans (s.die_modDie_ne _ ha), ht, ?_⟩
  rw [← s.jobDie_modJobDie_self d j g]
  unfold State.jobDie
  rw [hdie]

/-! ## Functions -/

section
variable {f : Nat} (hf : f < Config.functions) (p : Nat) (v : W64)
include hf

theorem State.writeReg_quads (h : (s.shares p f fun x => x.quads &&& v ≠ 0) = false) :
    s.writeReg (.functionWord p f 0 v) = s.modFunc p f fun x => { x with quads := v } := by
  refine if_neg ?_
  rintro (h16 | ⟨-, hs⟩ | ⟨h01, -⟩)
  · exact Nat.not_le.2 hf h16
  · exact Bool.false_ne_true (h.symm.trans hs)
  · cases h01

theorem State.writeReg_asidWord (h : (s.shares p f fun x => asidsMeet x.asidWord v) = false) :
    s.writeReg (.functionWord p f 1 v) = s.modFunc p f fun x => { x with asidWord := v &&& 0x1FFFF#64 } := by
  refine if_neg ?_
  rintro (h16 | ⟨h10, -⟩ | ⟨-, hs⟩)
  · exact Nat.not_le.2 hf h16
  · cases h10
  · exact Bool.false_ne_true (h.symm.trans hs)

theorem State.writeReg_enable :
    s.writeReg (.functionWord p f 2 v) = s.modFunc p f fun x => { x with en := bit v 0 && !(s.pkg p).recovery } := by
  refine if_neg ?_
  rintro (h16 | ⟨h20, -⟩ | ⟨h21, -⟩)
  · exact Nat.not_le.2 hf h16
  · cases h20
  · cases h21

theorem State.writeReg_cqBase (hr : (s.pkg p).recovery = false) :
    s.writeReg (.cqBase p f v) = s.modFunc p f fun x => { x with cqBase := v &&& 0xFFFFFFFFFFFFF000#64 } := by
  refine if_neg ?_
  rintro (h16 | h)
  · exact Nat.not_le.2 hf h16
  · exact Bool.false_ne_true (hr.symm.trans h)

theorem State.writeReg_windowBytes (hr : (s.pkg p).recovery = false) {n : Nat} {bs : List Byte} (hn : n + bs.length ≤ 0x8000) :
    let t := s.writeReg (.windowBytes p f n bs)
    OnlyFunc s t p f ∧ ∀ i, Tab.get 0 (t.func p f).window i
      = if n ≤ i ∧ i < n + bs.length then bs.getD (i - n) 0 else Tab.get 0 (s.func p f).window i := by
  intro t
  have ht : t = s.modFunc p f fun x => { x with window := bs.zipIdx.foldl (fun t b => Tab.set 0 t (n + b.2) b.1) x.window } :=
    if_pos ⟨hn, hf, by simp [hr]⟩
  obtain ⟨honly, hfunc⟩ := State.modFunc_spec ht
  rw [hfunc]
  exact ⟨honly, fun i => Tab.get_foldl_set bs n i 0 _⟩

end

theorem State.writeReg_quads_shared {p f : Nat} {v : W64}
    (h : ∃ g x, g ≠ f ∧ (g, x) ∈ (s.pkg p).funcs ∧ x.quads &&& v ≠ 0) : s.writeReg (.functionWord p f 0 v) = s := by
  obtain ⟨g, x, hg, hx, hq⟩ := h
  exact if_pos (.inr (.inl ⟨rfl, List.any_eq_true.2 ⟨(g, x), hx, by simpa [hg] using hq⟩⟩))

theorem State.writeReg_windowBytes_refused {p f n : Nat} {bs : List Byte}
    (h : 0x8000 < n + bs.length ∨ 16 ≤ f ∨ (s.pkg p).recovery = true) : s.writeReg (.windowBytes p f n bs) = s := by
  refine if_neg ?_
  rintro ⟨hn, hf, hr⟩
  rcases h with h | h | h
  · exact Nat.not_le.2 h hn
  · exact Nat.not_le.2 hf h
  · simp [h] at hr

/-! ## Memory -/

theorem State.writeReg_deviceBytes {n : Nat} {bs : List Byte} (h : s.place (plainDie n) n bs.length = .mem n) :
    s.writeReg (.deviceBytes n bs) = s.writeAtomic n bs := by
  simp only [State.writeReg, h]

theorem State.writeReg_pageOwner {f : Nat} (hf : f < Config.functions) (n : Nat) :
    let t := s.writeReg (.pageOwner n f)
    Tab.find? t.owners n = some f
      ∧ ∀ a, t.byte a = if Tab.find? s.owners n ≠ some f ∧ n * 2 ^ 21 ≤ a ∧ a < (n + 1) * 2 ^ 21 then 0 else s.byte a := by
  intro t
  have ht : t = { (if Tab.find? s.owners n = some f then s else s.zeroRange (n * 2 ^ 21) (2 ^ 21)) with owners := Tab.put s.owners n f } :=
    if_neg (Nat.not_le.2 hf)
  have hb (a : Nat) : t.byte a = (if Tab.find? s.owners n = some f then s else s.zeroRange (n * 2 ^ 21) (2 ^ 21)).byte a := by
    rw [ht]
    rfl
  refine ⟨?_, fun a => ?_⟩
  · rw [ht]
    exact (Tab.find_put _ _ _ _).trans (if_pos rfl)
  · rw [hb]
    by_cases ho : Tab.find? s.owners n = some f
    · rw [if_pos ho, if_neg fun h => h.1 ho]
    · rw [if_neg ho, State.byte_zeroRange]
      simp only [ne_eq, ho, not_false_eq_true, true_and, Nat.add_mul, Nat.one_mul]

theorem State.mgmtHome_mem {n len q : Nat} (h : s.place (plainDie n) n len = .mem q) :
    s.mgmtHome n len = if s.foreign Config.managementFid q = true ∨ s.tenantSlice q = true then none else some q := by
  simp only [State.mgmtHome, h, Bool.or_eq_true]

theorem State.mgmtBytes_mem {n x q : Nat} (h : s.place (plainDie n) n x = .mem q) :
    s.mgmtBytes n x = (s.mgmtHome n x).map fun q => s.bytes q x := by
  simp only [State.mgmtBytes, h]

/-- What a match on a place gives at the hub, said of any branches: the kernel must not evaluate the model's own, which subtract the
hub's base address. -/
theorem Place.match_hub {α : Type} {p : Place} {off : Nat} (hub : Nat → α) (other : α) : p = .hub off →
    (match p with
      | .hub o => hub o
      | _ => other) = hub off := by
  rintro rfl
  rfl

theorem State.mgmtBytes_block {n x off b c : Nat} (h : s.place (plainDie n) n x = .hub off) (hb : hubPlace (hubOff off) = .block b c) :
    s.mgmtBytes n x = some (s.hubBytes (plainDie n / 8) off x) := by
  refine (Place.match_hub _ _ h).trans ?_
  rw [hb]

theorem State.writeReg_mgmtWrite (n : Nat) (bs : List Byte) :
    s.writeReg (.mgmtWrite n bs) = ((s.mgmtHome n bs.length).map fun q => s.writeAtomic q bs).getD s := by
  unfold State.writeReg
  dsimp only
  split <;> next h => rw [h]; rfl

/-! ## Records and translation -/

theorem State.writeReg_unmapped {d n : Nat} {q : Parked} (h : Tab.find? (s.die d).aside n = some q) :
    (∀ va, q.asked = some va →
      let t := s.writeReg (.unmapped d n)
      OnlyDie s t d ∧ Tab.find? (t.die d).aside n
        = some { q with asked := none, entry := { q.entry with reported := va :: q.entry.reported } })
    ∧ (q.asked = none → s.writeReg (.unmapped d n) = s) := by
  refine ⟨fun va hq => ?_, fun hq => ?_⟩
  · intro t
    have ht : t = s.modDie d fun x =>
        { x with aside := Tab.put x.aside n { q with asked := none, entry := { q.entry with reported := va :: q.entry.reported } } } := by
      simp only [t, State.writeReg, State.reportUnmapped, h, hq]
    obtain ⟨honly, hdie⟩ := State.modDie_spec ht
    rw [hdie]
    exact ⟨honly, (Tab.find_put _ _ _ _).trans (if_pos rfl)⟩
  · simp only [State.writeReg, State.reportUnmapped, h, hq]

theorem State.writeReg_asid {n : Nat} {e : AsidEntry} (hn : n < Config.asids) (hf : e.fid < Config.functions) (d : Nat) :
    let t := s.writeReg (.asid d n e)
    OnlyDie s t d ∧ Tab.find? (t.die d).asids n = some e ∧ ∀ c ∈ (t.die d).cache, c.asid ≠ n := by
  intro t
  have ht : t = s.modDie d fun x => { x with asids := Tab.put x.asids n e, cache := x.cache.filter fun c => c.asid ≠ n } :=
    if_neg (not_or.2 ⟨Nat.not_le.2 hn, Nat.not_le.2 hf⟩)
  obtain ⟨honly, hdie⟩ := State.modDie_spec ht
  rw [hdie]
  refine ⟨honly, (Tab.find_put _ _ _ _).trans (if_pos rfl), fun c hc => ?_⟩
  simpa using (List.mem_filter.1 hc).2

theorem State.writeReg_tlbi_page (d : Nat) (v : W64) : s.writeReg (.tlbi d 0 v) = s.modDie d fun x =>
    { x with cache := x.cache.filter fun c => !(c.asid = fld v 56 8 && c.page = fld v 0 48 / 65536) } := rfl

theorem State.writeReg_tlbi_asid (d : Nat) (v : W64) : s.writeReg (.tlbi d 1 v) = s.modDie d fun x =>
    { x with cache := x.cache.filter fun c => c.asid ≠ fld v 0 8 } := rfl

theorem State.writeReg_tlbi_all (d : Nat) (v : W64) : s.writeReg (.tlbi d 2 v) = s.modDie d fun x => { x with cache := [] } := rfl

/-! ## Placements and packages -/

theorem State.writeReg_place {pl : JobPlacement} (hj : pl.job < 65536) (hf : pl.fid < Config.functions) (ha : pl.asid < Config.asids) :
    let t := s.writeReg (.place pl)
    t.job pl.job = { placed := true, fid := pl.fid, asid := pl.asid, dies := ranked pl.dies }
      ∧ ∀ k ∈ pl.dies, (t.jobDie k pl.job).frames = pl.frames ∧ (t.jobDie k pl.job).saved = [] ∧ (t.jobDie k pl.job).unitsUsed = [] := by
  intro t
  have ht : t = (pl.dies.zipIdx.foldl (fun s d => s.modJobDie d.1 pl.job fun x =>
      { trapVec := x.trapVec, trapArea := x.trapArea, dmap := x.dmap, barRange := x.barRange, layArea := x.layArea
        quota := x.quota, pool := x.pool, frames := pl.frames, frameBase := pl.frameBases.getD d.2 0 }) s).setJob pl.job
      { placed := true, fid := pl.fid, asid := pl.asid, dies := ranked pl.dies } :=
    if_neg (not_or.2 ⟨Nat.not_le.2 hj, not_or.2 ⟨Nat.not_le.2 hf, Nat.not_le.2 ha⟩⟩)
  refine ⟨?_, fun k hk => ?_⟩
  · rw [ht, State.job_setJob, if_pos rfl]
  · rw [ht]
    refine State.jobDie_foldl_modJobDie (P := fun x => x.frames = pl.frames ∧ x.saved = [] ∧ x.unitsUsed = []) (die := Prod.fst)
      (fun _ _ => ⟨rfl, rfl, rfl⟩) pl.dies.zipIdx s (.inr ?_)
    simpa using hk

theorem State.writeReg_coords {p n x y z : Nat} (hn : n < Config.packages) (hx : x < 8) (hy : y < 8) (hz : z < 16)
    (hi : s.pkgIdle p = true) (hc : ∀ q ∈ s.pkgs, q.1 ≠ p → q.2.member = true → (q.2.px, q.2.py, q.2.pz) ≠ (x, y, z))
    (hm : n = p ∨ (s.pkg n).member = false) :
    let t := s.writeReg (.coords p n x y z)
    (t.pkg n).px = x ∧ (t.pkg n).py = y ∧ (t.pkg n).pz = z ∧ (t.pkg n).member = true ∧ (n = p → OnlyPkg s t p) := by
  intro t
  have ht : ∃ u, (n = p → u = s) ∧ t = u.modPkg n fun q => { q with px := x, py := y, pz := z, member := true } := by
    refine ⟨_, fun h => if_pos h, if_neg ?_⟩
    rintro (h | h | h | h | h | ⟨hnp, h⟩ | h)
    · exact Nat.not_le.2 hn h
    · omega
    · omega
    · omega
    · simp [hi] at h
    · exact Bool.false_ne_true ((hm.resolve_left hnp).symm.trans h)
    · obtain ⟨q, hq, h⟩ := List.any_eq_true.1 h
      simp only [Bool.and_eq_true, ne_eq, decide_eq_true_eq] at h
      obtain ⟨⟨⟨⟨hqp, hqm⟩, h1⟩, h2⟩, h3⟩ := h
      exact hc q hq hqp hqm (by rw [h1, h2, h3])
  obtain ⟨u, hu, ht⟩ := ht
  obtain ⟨honly, hpkg⟩ := State.modPkg_spec ht
  rw [hpkg]
  refine ⟨rfl, rfl, rfl, rfl, ?_⟩
  rintro rfl
  rw [← hu rfl]
  exact honly

theorem State.writeReg_coords_refused {p n x y z : Nat} (h : 1024 ≤ n ∨ 8 ≤ x ∨ 8 ≤ y ∨ 16 ≤ z ∨ s.pkgIdle p = false
    ∨ (∃ q ∈ s.pkgs, q.1 ≠ p ∧ q.2.member = true ∧ (q.2.px, q.2.py, q.2.pz) = (x, y, z))) : s.writeReg (.coords p n x y z) = s := by
  refine if_pos ?_
  rcases h with h | h | h | h | h | ⟨q, hq, hp, hm, he⟩
  · exact .inl h
  · exact .inr (.inl h)
  · exact .inr (.inr (.inl h))
  · exact .inr (.inr (.inr (.inl h)))
  · exact .inr (.inr (.inr (.inr (.inl (by simp [h])))))
  · simp only [Prod.mk.injEq] at he
    obtain ⟨h1, h2, h3⟩ := he
    exact .inr (.inr (.inr (.inr (.inr (.inr (List.any_eq_true.2 ⟨q, hq, by simp [hp, hm, h1, h2, h3]⟩))))))

end

/-! ## Every register write -/

/-- Settles O39, clause by clause of the statement. -/
theorem registerWrites : Obligations.RegisterWrites := by
  intro s d j p f n x y z v bs e pl write nothing
  have stores {w : RegWrite} {P : State → Prop} (h : P (s.writeReg w)) : write w P := registerWrite_of h
  have keeps {w : RegWrite} (h : s.writeReg w = s) : nothing w := registerWrite_of (P := fun t => t = s) h
  refine ⟨fun w a => exec_registerWrite_other s w a, ?agents, fun r => stores ?dieReg, fun r => stores ?jobReg, stores ?powerCap,
    fun hf hs => stores (State.modFunc_spec (s.writeReg_quads hf p v hs)),
    fun hf hs => stores (State.modFunc_spec (s.writeReg_asidWord hf p v hs)),
    fun hf => stores (State.modFunc_spec (s.writeReg_enable hf p v)),
    fun h => keeps (s.writeReg_quads_shared h),
    fun hf hr => stores (State.modFunc_spec (s.writeReg_cqBase hf p v hr)),
    fun hf hr hn => stores (s.writeReg_windowBytes hf p hr hn),
    fun h => keeps (s.writeReg_windowBytes_refused h),
    fun hr => keeps (if_pos (.inr hr)), fun hf => ?noFunction, fun h => stores ?deviceBytes,
    fun hn hf => stores (s.writeReg_asid hn hf d), fun h => keeps (if_pos h), fun hj hf ha => stores ?place,
    stores ?resolver, stores ?pool, stores ?ring, stores ?seqArea,
    fun hf => stores (s.writeReg_pageOwner hf n), ?unmapped, ?mgmtWrite, ?mgmtRead,
    stores ?tlbiPage, stores ?tlbiAsid, stores ?tlbiAll,
    fun hp => stores (if_neg (Nat.not_le.2 hp)),
    fun _ hn hx hy hz hi hc hm => stores (s.writeReg_coords hn hx hy hz hi hc hm),
    fun h => keeps (s.writeReg_coords_refused h), fun hx hy hz => stores (if_pos ⟨hx, hy, hz⟩)⟩
  case agents => exact ⟨rfl, rfl, rfl, rfl, fun _ => ⟨rfl, fun _ => rfl⟩, rfl, rfl, rfl, fun _ => rfl, rfl, rfl, rfl⟩
  case dieReg =>
    obtain ⟨honly, hdie⟩ := State.modDie_spec (t := s.writeDieReg d r v) rfl
    exact ⟨honly, hdie.trans (by cases r <;> rfl)⟩
  case jobReg =>
    obtain ⟨hm, hd, ht, hj⟩ := s.modJobDie_preemptAll d j _
    refine ⟨hm, hd, ht, hj.trans ?_⟩
    cases r with
    | tileQuota => simp only [fld_eq, Nat.pow_zero, Nat.div_one, Nat.reducePow]
    | _ => rfl
  case powerCap =>
    obtain ⟨honly, hpkg⟩ := State.modPkg_spec (s.writeReg_powerCap p v)
    rw [hpkg]
    exact ⟨honly, by simp only [fld_eq, Nat.reducePow]⟩
  case noFunction => exact ⟨keeps (if_pos (.inl hf)), keeps (if_pos (.inl hf)), keeps (if_pos hf)⟩
  case deviceBytes =>
    rw [s.writeReg_deviceBytes h]
    exact s.byte_writeAtomic n bs
  case place =>
    obtain ⟨hjob, hdies⟩ := s.writeReg_place hj hf ha
    obtain ⟨hsorted, hmem⟩ := ranked_spec pl.dies
    rw [hjob]
    exact ⟨rfl, hsorted, hmem, hdies⟩
  case resolver =>
    obtain ⟨honly, hdie⟩ := State.modDie_spec (s.writeReg_resolver d n x)
    rw [hdie]
    exact ⟨honly, congrArg Resolved.target (Tab.get_put_self _ _ _ _)⟩
  case pool =>
    obtain ⟨honly, -⟩ := State.modDie_spec (s.writeReg_pool d j [n, x])
    exact ⟨honly, congrArg JobDie.pool (s.jobDie_modJobDie_self d j _)⟩
  case ring =>
    obtain ⟨honly, hdie⟩ := State.modDie_spec (s.writeReg_ring d n x)
    rw [hdie]
    exact ⟨honly, Tab.get_set_self _ _ _ _⟩
  case seqArea =>
    obtain ⟨honly, hdie⟩ := State.modDie_spec (s.writeReg_seqArea d n x)
    rw [hdie]
    exact ⟨honly, rfl, rfl⟩
  case unmapped =>
    intro q va hq
    obtain ⟨hasked, hnone⟩ := s.writeReg_unmapped hq
    exact ⟨fun h => stores (hasked va h), fun h => keeps (hnone h)⟩
  case mgmtWrite =>
    intro q hq tenant
    refine ⟨fun ht => stores ?_, fun ht => keeps ?_⟩
    · rw [s.writeReg_mgmtWrite, s.mgmtHome_mem hq, if_neg ht]
      exact s.byte_writeAtomic q bs
    · rw [s.writeReg_mgmtWrite, s.mgmtHome_mem hq, if_pos ht]
      rfl
  case mgmtRead =>
    intro reply
    have answers {P : Option (List Byte)} (h : s.mgmtBytes n x = P) : reply P := stores (by
      rw [← h]
      exact State.modPkg_spec (s.writeReg_mgmtRead n x))
    refine ⟨fun q hq => ⟨fun hf ht => answers ?_, fun ht => answers ?_⟩, fun off b c hq hb => answers (s.mgmtBytes_block hq hb)⟩
    · rw [s.mgmtBytes_mem hq, s.mgmtHome_mem hq, if_neg (by simp [hf, ht])]
      rfl
    · rw [s.mgmtBytes_mem hq, s.mgmtHome_mem hq, if_pos ht]
      rfl
  case tlbiPage =>
    obtain ⟨honly, hdie⟩ := State.modDie_spec (s.writeReg_tlbi_page d v)
    rw [hdie]
    refine ⟨honly, ?_⟩
    have hasid : fld v 56 8 = v.toNat / 2 ^ 56 := by
      have := v.isLt
      rw [fld_eq]
      omega
    have hpage : fld v 0 48 = v.toNat % 2 ^ 48 := by rw [fld_eq, Nat.pow_zero, Nat.div_one]
    simp only [hasid, hpage]
  case tlbiAsid =>
    obtain ⟨honly, hdie⟩ := State.modDie_spec (s.writeReg_tlbi_asid d v)
    rw [hdie]
    exact ⟨honly, by simp only [fld_eq, Nat.pow_zero, Nat.div_one, Nat.reducePow]⟩
  case tlbiAll =>
    obtain ⟨honly, hdie⟩ := State.modDie_spec (s.writeReg_tlbi_all d v)
    rw [hdie]
    exact ⟨honly, rfl⟩

end Sys2Proof.Machine
end

section
/-! SUPPORT. What work bookkeeping leaves alone: levels, queues, events and set-aside records change, and what a tile computes with,
memory, the clocks and the translations do not. -/

namespace Sys2Proof.Machine

theorem Tab.find_map {α β : Type} (t : Tab α) (g : Nat → α → β) (k : Nat) :
    Tab.find? (t.map fun p => (p.1, g p.1 p.2)) k = (Tab.find? t k).map (g k) := by
  induction t with
  | nil => rfl
  | cons p r ih =>
    obtain ⟨i, v⟩ := p
    rw [List.map_cons]
    unfold Tab.find?
    split
    · next h => subst h; rfl
    · exact ih

/-! ## Changes of nothing but the work tables -/

/-- Only the schedulers' tables changed: the level, queue, event and parking tables, the jobs' parts and the grant registers of the
dies, the launches of the jobs, the counters of fresh values, and the pre-emptions pending on tiles. -/
structure WorkOnly (s t : State) : Prop where
  rest : t = { s with fresh := t.fresh, nextId := t.nextId, dies := t.dies, tiles := t.tiles, jobs := t.jobs }
  die : ∀ d, t.die d = { s.die d with
    levels := (t.die d).levels, jobs := (t.die d).jobs, queues := (t.die d).queues, events := (t.die d).events
    pending := (t.die d).pending, aside := (t.die d).aside, fwParked := (t.die d).fwParked, mailbox := (t.die d).mailbox
    seqs := (t.die d).seqs }
  tile : ∀ k, t.tile k = { s.tile k with preemptAt := (t.tile k).preemptAt }
  job : ∀ j, t.job j = { s.job j with launches := (t.job j).launches }

variable {s t u : State}

theorem WorkOnly.refl (s : State) : WorkOnly s s := ⟨rfl, fun _ => rfl, fun _ => rfl, fun _ => rfl⟩

theorem WorkOnly.trans (h : WorkOnly s t) (g : WorkOnly t u) : WorkOnly s u where
  rest := by rw [g.rest, h.rest]
  die d := by rw [g.die d, h.die d]
  tile k := by rw [g.tile k, h.tile k]
  job j := by rw [g.job j, h.job j]

theorem WorkOnly.foldl {α : Type} {f : State → α → State} (hf : ∀ s a, WorkOnly s (f s a)) (l : List α) :
    ∀ s, WorkOnly s (l.foldl f s) := by
  induction l with
  | nil => exact .refl
  | cons a l ih => exact fun s => (hf s a).trans (ih _)

/-- A change of one die's work tables. -/
theorem WorkOnly.modDie (s : State) (d : Nat) (f : Die → Die) (h : f (s.die d) = { s.die d with
    levels := (f (s.die d)).levels, jobs := (f (s.die d)).jobs, queues := (f (s.die d)).queues, events := (f (s.die d)).events
    pending := (f (s.die d)).pending, aside := (f (s.die d)).aside, fwParked := (f (s.die d)).fwParked
    mailbox := (f (s.die d)).mailbox, seqs := (f (s.die d)).seqs }) : WorkOnly s (s.modDie d f) where
  rest := rfl
  die e := by
    by_cases he : e = d
    · subst he
      rw [State.die_modDie_self]
      exact h
    · rw [s.die_modDie_ne f he]
  tile _ := rfl
  job _ := rfl

theorem WorkOnly.modTile (s : State) (k : Nat) (f : Tile → Tile)
    (h : f (s.tile k) = { s.tile k with preemptAt := (f (s.tile k)).preemptAt }) : WorkOnly s (s.modTile k f) where
  rest := rfl
  die _ := rfl
  tile j := by
    rw [State.tile_modTile]
    split
    · next e => rw [e]; exact h
    · rfl
  job _ := rfl

/-! ## What follows -/

theorem WorkOnly.focus (h : WorkOnly s t) : t.focus = s.focus := by rw [h.rest]
theorem WorkOnly.mem (h : WorkOnly s t) : t.mem = s.mem := by rw [h.rest]
theorem WorkOnly.lost (h : WorkOnly s t) : t.lost = s.lost := by rw [h.rest]
theorem WorkOnly.reqs (h : WorkOnly s t) : t.reqs = s.reqs := by rw [h.rest]
theorem WorkOnly.ns (h : WorkOnly s t) : t.ns = s.ns := by rw [h.rest]
theorem WorkOnly.cycles (h : WorkOnly s t) : t.cycles = s.cycles := by rw [h.rest]
theorem WorkOnly.pkg (h : WorkOnly s t) (p : Nat) : t.pkg p = s.pkg p := by rw [h.rest]; rfl
theorem WorkOnly.byte (h : WorkOnly s t) (p : Nat) : t.byte p = s.byte p := by rw [h.rest]; rfl

theorem WorkOnly.status (h : WorkOnly s t) (k : Nat) : (t.tile k).status = (s.tile k).status := by rw [h.tile k]
theorem WorkOnly.entry (h : WorkOnly s t) (k : Nat) : (t.tile k).entry = (s.tile k).entry := by rw [h.tile k]
theorem WorkOnly.cur (h : WorkOnly s t) : ∃ b, t.cur = { s.cur with preemptAt := b } := by
  unfold State.cur
  rw [h.focus]
  exact ⟨_, h.tile s.focus⟩

theorem WorkOnly.cur_status (h : WorkOnly s t) : t.cur.status = s.cur.status := by
  obtain ⟨b, hc⟩ := h.cur
  rw [hc]

theorem WorkOnly.jobOf (h : WorkOnly s t) (k : Nat) : t.jobOf k = s.jobOf k := by
  unfold State.jobOf
  rw [h.entry k]
theorem WorkOnly.homeDie (h : WorkOnly s t) (j : Nat) : t.homeDie j = s.homeDie j := by
  unfold State.homeDie
  rw [h.job j]
theorem WorkOnly.unreachable (h : WorkOnly s t) (d : Nat) : (t.die d).unreachable = (s.die d).unreachable := by rw [h.die d]; rfl
theorem WorkOnly.func (h : WorkOnly s t) (p f : Nat) : t.func p f = s.func p f := by
  unfold State.func
  rw [h.pkg p]

theorem WorkOnly.hubPtc (h : WorkOnly s t) (p : Nat) : t.hubPtc p = s.hubPtc p := by
  unfold State.hubPtc
  rw [h.pkg p, h.ns]
theorem WorkOnly.ptc (h : WorkOnly s t) (d : Nat) : t.ptc d = s.ptc d := by
  unfold State.ptc
  rw [h.die d, h.hubPtc, h.ns]
theorem WorkOnly.dcc (h : WorkOnly s t) (d : Nat) : t.dcc d = s.dcc d := by
  unfold State.dcc
  rw [h.die d, h.cycles]

theorem WorkOnly.maskDies (h : WorkOnly s t) (p : Nat) (r : Rec) : t.maskDies p r = s.maskDies p r := by
  unfold State.maskDies
  rw [h.job, h.lost]

/-! ## The operations that change no more -/

theorem State.bump_workOnly (s : State) : WorkOnly s s.bump := ⟨rfl, fun _ => rfl, fun _ => rfl, fun _ => rfl⟩

theorem State.modLevel_workOnly (s : State) (j l i : Nat) (f : LevelEntry → LevelEntry) : WorkOnly s (s.modLevel j l i f) :=
  .modDie _ _ _ rfl
theorem State.modJobDie_workOnly (s : State) (d j : Nat) (f : JobDie → JobDie) : WorkOnly s (s.modJobDie d j f) := .modDie _ _ _ rfl
theorem State.setQueueAt_workOnly (s : State) (d p : Nat) (l : List Entry) : WorkOnly s (s.setQueueAt d p l) := .modDie _ _ _ rfl
theorem State.setEvent_workOnly (s : State) (d k : Nat) (e : Event) : WorkOnly s (s.setEvent d k e) := .modDie _ _ _ rfl
theorem State.tell_workOnly (s : State) (d k j w : Nat) : WorkOnly s (s.tell d k j w) := .modDie _ _ _ rfl

theorem State.preemptFor_workOnly (s : State) (d : Nat) (r : Rec) : WorkOnly s (s.preemptFor d r) := by
  unfold State.preemptFor
  split
  · exact .refl _
  · exact .foldl (fun s k => .modTile s k _ rfl) _ _
theorem State.preemptAll_workOnly (s : State) (d : Nat) : WorkOnly s (s.preemptAll d) := by
  have level (s : State) (q : Nat × List Entry) : WorkOnly s (q.2.foldl (fun s e => s.preemptFor d e.cr) s) :=
    WorkOnly.foldl (fun s (e : Entry) => State.preemptFor_workOnly s d e.cr) q.2 s
  exact WorkOnly.foldl level _ s

theorem State.enqueue_workOnly (s : State) (d : Nat) (e : Entry) (keep : Bool) : WorkOnly s (s.enqueue d e keep) :=
  (WorkOnly.modDie s d _ rfl).trans (State.preemptFor_workOnly _ _ _)

/-- Job j with the launch that a key names no longer waiting (R46, R50). -/
def Job.released (key j : Nat) (x : Job) : Job :=
  { x with launches := x.launches.map fun l => if l.launch + 65536 * j = key then { l with waiting := false } else l }

theorem State.job_release (s : State) (key thr j : Nat) : (s.release (.launch key thr)).job j = (s.job j).released key j := by
  have h : (s.release (.launch key thr)).jobs = s.jobs.map fun p => (p.1, p.2.released key p.1) := rfl
  unfold State.job Tab.get
  rw [h, Tab.find_map s.jobs (Job.released key)]
  cases Tab.find? s.jobs j <;> rfl

theorem State.release_workOnly (s : State) (w : Waiter) : WorkOnly s (s.release w) := by
  cases w with
  | unit e thr => exact s.enqueue_workOnly e.die e false
  | launch key thr =>
    refine ⟨rfl, fun _ => rfl, fun _ => rfl, fun j => ?_⟩
    rw [State.job_release]
    rfl

theorem State.signal_workOnly (s : State) (d j name n : Nat) : WorkOnly s (s.signal d j name n) := by
  unfold State.signal
  extract_lets key e c
  split
  · exact .modDie _ _ _ rfl
  · split
    exact (State.setEvent_workOnly _ _ _ _).trans (.foldl (fun s w => s.release_workOnly w) _ _)

theorem openLevel_workOnly (r : Rec) (fuel : Nat) : ∀ (s : State) (l i : Nat), WorkOnly s (openLevel s r fuel l i) := by
  induction fuel with
  | zero => exact fun s _ _ => .refl s
  | succ fuel ih =>
    intro s l i
    unfold openLevel
    split
    · exact .refl _
    · refine WorkOnly.trans ?_ (.modDie _ _ _ rfl)
      split
      · exact (ih s _ _).trans (State.modLevel_workOnly _ _ _ _ _)
      · exact .refl _

end Sys2Proof.Machine
end

section
/-! SUPPORT. Queues and events after a record has joined a queue, a waiter has been released, and a signal has been made. -/

namespace Sys2Proof.Machine

/-! ## Queues -/

@[simp] theorem State.die_preemptFor (s : State) (d : Nat) (r : Rec) (x : Nat) : (s.preemptFor d r).die x = s.die x := by
  obtain ⟨-, hd, -⟩ := s.preemptFor_only d r
  unfold State.die
  rw [hd]
@[simp] theorem State.die_preemptAll (s : State) (d x : Nat) : (s.preemptAll d).die x = s.die x := by
  obtain ⟨-, hd, -⟩ := s.preemptAll_only d
  unfold State.die
  rw [hd]

theorem State.die_modDie (s : State) (d x : Nat) (f : Die → Die) : (s.modDie d f).die x = if x = d then f (s.die d) else s.die x :=
  s.die_setDie d x _

/-- A record with the time at which it joins its queue (R31). -/
def Entry.joining (e : Entry) (now : Nat) : Entry := { e with cr := { e.cr with enqt := BitVec.ofNat 32 now } }

theorem State.enqueue_eq (s : State) (d : Nat) (e : Entry) :
    s.enqueue d e = (s.setQueueAt d e.cr.prio (s.queueAt d e.cr.prio ++ [e.joining (s.ptc d)])).preemptFor d
      (e.joining (s.ptc d)).cr := rfl

theorem State.queueAt_setQueueAt (s : State) (d p x q : Nat) (l : List Entry) :
    (s.setQueueAt d p l).queueAt x q = if x = d ∧ q = p then l else s.queueAt x q := by
  unfold State.queueAt State.setQueueAt
  rw [State.die_modDie]
  by_cases hx : x = d
  · subst hx
    simp only [if_true, true_and]
    exact Tab.get_set [] _ _ _ _
  · simp only [hx, if_false, false_and]

@[simp] theorem State.queueAt_setQueueAt_self (s : State) (d p : Nat) (l : List Entry) : (s.setQueueAt d p l).queueAt d p = l := by
  simp [State.queueAt_setQueueAt]

@[simp] theorem State.queueAt_preemptFor (s : State) (d : Nat) (r : Rec) (x p : Nat) : (s.preemptFor d r).queueAt x p = s.queueAt x p := by
  simp [State.queueAt]
@[simp] theorem State.queueAt_preemptAll (s : State) (d x p : Nat) : (s.preemptAll d).queueAt x p = s.queueAt x p := by
  simp [State.queueAt]

/-- A queue grows by the record that joins its tail; the others stay (R35). -/
theorem State.queueAt_enqueue (s : State) (d : Nat) (e : Entry) (x q : Nat) :
    (s.enqueue d e).queueAt x q =
      if x = d ∧ q = e.cr.prio then s.queueAt d e.cr.prio ++ [e.joining (s.ptc d)] else s.queueAt x q := by
  rw [State.enqueue_eq, State.queueAt_preemptFor, State.queueAt_setQueueAt]

/-! ## Events -/

theorem State.eventAt_setEvent (s : State) (d k x i : Nat) (e : Event) :
    (s.setEvent d k e).eventAt x i = if x = d ∧ i = k then e else s.eventAt x i := by
  have idle : e.active = false → e = {} := by
    obtain ⟨c, ws⟩ := e
    simp [Event.active]
  unfold State.eventAt State.setEvent
  rw [State.die_modDie]
  by_cases hx : x = d
  · subst hx
    simp only [if_true, true_and]
    cases ha : e.active with
    | true => exact Tab.get_put _ _ _ _ _
    | false =>
      unfold Tab.get
      simp only [Bool.false_eq_true, if_false, Tab.find_erase]
      split
      · exact (idle ha).symm
      · rfl
  · simp only [hx, if_false, false_and]

@[simp] theorem State.eventAt_setEvent_self (s : State) (d k : Nat) (e : Event) : (s.setEvent d k e).eventAt d k = e := by
  simp [State.eventAt_setEvent]

/-- Releasing a waiter changes no event. -/
theorem State.events_release (s : State) (w : Waiter) (x : Nat) : ((s.release w).die x).events = (s.die x).events := by
  cases w with
  | unit e thr =>
    show ((s.enqueue e.die e).die x).events = _
    rw [State.enqueue_eq, State.die_preemptFor, State.setQueueAt, State.die_modDie]
    split
    · next h => rw [h]
    · rfl
  | launch key thr => rfl

theorem State.events_foldl_release (ws : List Waiter) (x : Nat) : ∀ s : State,
    ((ws.foldl (fun s w => s.release w) s).die x).events = (s.die x).events := by
  induction ws with
  | nil => exact fun _ => rfl
  | cons w ws ih => exact fun s => (ih _).trans (s.events_release w x)

/-- The waiters that a count does not meet stay (R46). -/
theorem splitWaiters_stay (c : Nat) (ws : List Waiter) : (splitWaiters c ws).2 = ws.filter fun w => decide (c < w.thr) := by
  unfold splitWaiters
  rw [List.partition_eq_filter_filter]
  refine List.filter_congr fun w _ => Bool.eq_iff_iff.2 ?_
  rw [decide_eq_true_eq]
  cases w <;> simp [Waiter.thr]

/-- A signal for which there is an entry is added to its event, and the waiters it meets leave (R46, R47). -/
theorem State.eventAt_signal (s : State) (d j name n : Nat) (h : n = 0 ∨ s.eventRoom d (evKey j name) = true) :
    (s.signal d j name n).eventAt d (evKey j name) =
      { count := min ((s.eventAt d (evKey j name)).count + n) 0xFFFFFFFF
        waiters := (s.eventAt d (evKey j name)).waiters.filter fun w =>
          decide (min ((s.eventAt d (evKey j name)).count + n) 0xFFFFFFFF < w.thr) } := by
  have hn : ¬ (n ≠ 0 ∧ (!s.eventRoom d (evKey j name)) = true) := by
    rcases h with h | h <;> simp [h]
  unfold State.signal
  rw [if_neg hn]
  dsimp only
  rw [State.eventAt, State.events_foldl_release]
  refine (State.eventAt_setEvent_self _ _ _ _).trans ?_
  rw [splitWaiters_stay]
  rfl

/-- There is room for an event where its die's table and overflow area are the same. -/
theorem State.eventRoom_congr {s t : State} {d : Nat} (h : (t.die d).events = (s.die d).events)
    (hv : (t.die d).evovfSize = (s.die d).evovfSize) (key : Nat) : t.eventRoom d key = s.eventRoom d key := by
  unfold State.eventRoom Die.blocksFree Die.blocksUsed
  rw [h, hv]

theorem State.waiterRoom_congr {s t : State} {d : Nat} (h : (t.die d).events = (s.die d).events)
    (hv : (t.die d).evovfSize = (s.die d).evovfSize) (key : Nat) : t.waiterRoom d key = s.waiterRoom d key := by
  unfold State.waiterRoom Die.blocksFree Die.blocksUsed
  rw [State.eventRoom_congr h hv, h, hv]

end Sys2Proof.Machine
end

section
/-! SUPPORT. How a word ends whose request its own die answers in the same step, after whatever that request did to the work tables; and
the tile that a unit leaves. -/

namespace Sys2Proof.Machine

variable {s u : State}

/-! ## The end of a word -/

theorem State.retire_wroteG (s : State) (d : Nat) (v : W64) : WroteG s (s.retire (s.cur.writeG d v)) d v := by
  obtain ⟨t, h, hw⟩ := s.setG_spec d v
  cases h
  exact hw

theorem State.retire_wentTo (s : State) : WentTo s (s.retire s.cur) (s.cur.pc + 4) := s.wentTo _

/-- A word that ends after a change of the work tables alone. -/
theorem WorkOnly.retire_wordEnds (h : WorkOnly s u) : WordEnds s (u.retire u.cur) ∧ NoRegs s.cur (u.retire u.cur).cur := by
  obtain ⟨b, hc⟩ := h.cur
  obtain ⟨hf, hpc, hpfx, hw, hb⟩ := u.retire_wordEnds (u := u.cur) rfl
  obtain ⟨g1, g2, g3, g4, g5⟩ := u.retire_noRegs (u := u.cur) rfl rfl rfl rfl rfl
  rw [hc] at hf hpc hpfx hw hb g1 g2 g3 g4 g5 ⊢
  exact ⟨⟨hf.trans h.focus, hpc, hpfx, hw, fun p => (hb p).trans (h.byte p)⟩, g1, g2, g3, g4, g5⟩

/-! ## Answers of the own die -/

section
variable {op : HomeOp} {sink : Sink} {addr : W64} {logged : Bool} {opc : Nat} {on : Nat → WaitOn} {bound : Option Nat} {v : W64}
variable (hl : tileDie s.focus ∉ (s.die (tileDie s.focus)).unreachable) (hop : op.seqAfter = none)
include hl hop

/-- A request whose value the word does not take ends the word. -/
theorem State.ask_discards (h : s.atHome s.nextId (s.ownRequest s.focus op .discardValue addr opc) = (u, .value v))
    (hf : u.focus = s.focus) (hu : u.cur.status = .running) :
    s.ask s.focus (tileDie s.focus) op .discardValue addr logged opc on bound = u.retire u.cur := by
  rw [s.ask_done _ _ _ _ _ _ _ _ hl h, State.afterOp, hop]
  unfold State.cur State.retire at *
  rw [hf] at *
  exact u.deliver_none _ _ _ rfl hu

/-- A request whose value goes to g[d] ends the word with it. -/
theorem State.ask_gives {d : Nat} (h : s.atHome s.nextId (s.ownRequest s.focus op (.g d 8 false) addr opc) = (u, .value v))
    (hf : u.focus = s.focus) (hu : u.cur.status = .running) :
    s.ask s.focus (tileDie s.focus) op (.g d 8 false) addr logged opc on bound = u.retire (u.cur.writeG d v) := by
  rw [s.ask_done _ _ _ _ _ _ _ _ hl h, State.afterOp, hop]
  unfold State.cur State.retire at *
  rw [hf] at *
  have hv : BitVec.ofNat 64 (v.toNat % 2 ^ (8 * 8)) = v := by rw [Nat.mod_eq_of_lt v.isLt, BitVec.ofNat_toNat, BitVec.setWidth_eq]
  have := u.deliver_g s.focus d 8 false (s.ownRequest s.focus op (.g d 8 false) addr opc) v 0 rfl hu (flagTrap_zero _)
  rw [if_neg Bool.false_ne_true, hv] at this
  exact this

end

/-! ## The tile that a unit leaves -/

theorem State.dropGrants_workOnly (s : State) (k unit : Nat) (gs : Tab Grant) : WorkOnly s (s.dropGrants k unit gs) := by
  unfold State.dropGrants
  refine .foldl (fun s p => ?_) _ _
  split
  · exact .refl _
  · exact .modDie _ _ _ rfl

/-- What freeing makes of the tile itself (R41). -/
def Tile.freed (t : Tile) : Tile :=
  { t with status := .idle, entry := {}, cancelAt := none, preemptAt := none, cancelled := false, grants := []
           exts := [], pins := [], started := [], vq := [], mq := [], cq := [], hist := [], journal := [], storeQ := []
           cutM := none, cutC := none, cutV := none, vs := none, takers := [], wait := none, pfx := none, phase := none
           loads := [], reports := [], seg := none, streams := [] }

/-- An update of a tile that settles its pending pre-emption follows a change of the work tables. -/
theorem WorkOnly.modTile_congr (h : WorkOnly s u) (k : Nat) (f : Tile → Tile) (hf : ∀ t b, f { t with preemptAt := b } = f t) :
    WorkOnly (s.modTile k f) (u.modTile k f) where
  rest := by
    rw [State.modTile, State.setTile, h.rest]
    rfl
  die := h.die
  tile j := by
    have e : f (u.tile k) = f (s.tile k) := by rw [h.tile k, hf]
    rw [State.tile_modTile, State.tile_modTile, e]
    split
    · rfl
    · exact h.tile j
  job := h.job

/-- Freeing a tile changes it, and beside it the work tables alone (R41, R54, R201). -/
theorem State.freeTile_workOnly (s : State) (k : Nat) : WorkOnly (s.modTile k Tile.freed) (s.freeTile k) :=
  ((s.dropGrants_workOnly k _ _).modTile_congr k Tile.freed fun _ _ => rfl).trans (State.preemptAll_workOnly _ _)

theorem State.focus_freeTile (s : State) (k : Nat) : (s.freeTile k).focus = s.focus := (s.freeTile_workOnly k).focus

theorem State.status_freeTile (s : State) (k : Nat) : ((s.freeTile k).tile k).status = .idle := by
  rw [(s.freeTile_workOnly k).status, State.tile_modTile_self]
  rfl

theorem State.die_dropGrants (k unit : Nat) (gs : Tab Grant) (x : Nat) : ∀ s : State,
    ∃ q, (s.dropGrants k unit gs).die x = { s.die x with seqs := q } := by
  unfold State.dropGrants
  induction gs with
  | nil => exact fun s => ⟨_, rfl⟩
  | cons g gs ih =>
    intro s
    rw [List.foldl_cons]
    split
    · exact ih s
    · obtain ⟨q, hq⟩ := ih (s.modDie _ _)
      rw [hq, State.die_modDie]
      split
      · next h => rw [h]; exact ⟨_, rfl⟩
      · exact ⟨_, rfl⟩

/-- Of the dies, freeing a tile changes the grant registers alone (R201). -/
theorem State.die_freeTile (s : State) (k x : Nat) : ∃ q, (s.freeTile k).die x = { s.die x with seqs := q } := by
  unfold State.freeTile
  rw [State.die_preemptAll]
  exact State.die_dropGrants _ _ _ x s

theorem State.queueAt_freeTile (s : State) (k x p : Nat) : (s.freeTile k).queueAt x p = s.queueAt x p := by
  obtain ⟨q, hq⟩ := s.die_freeTile k x
  unfold State.queueAt
  rw [hq]

end Sys2Proof.Machine
end

section
/-! SUPPORT. The event words on an event of the own die. -/

namespace Sys2Proof.Machine

variable {s : State}

/-! ## A CT with nothing outstanding that reaches its own die -/

theorem running_of_here (h : Here s) : s.cur.status = .running := h.2.1
theorem reaches_of_here (h : Here s) : tileDie s.focus ∉ (s.die (tileDie s.focus)).unreachable := h.2.2
theorem commitThen_of_here (h : Here s) (f : State → Out) : s.commitThen f = f s := s.commitThen_now f h.1.1
theorem drained_of_here (h : Here s) (f : State → Out) : s.drained f = f s := by
  obtain ⟨⟨-, hq, hp, hr⟩, -, -⟩ := h
  exact s.drained_now f hq hp hr

/-- The state after an unmet EVWAIT parks its unit: the tile is free and the unit is the last waiter of the event (R311). -/
def State.parked (s : State) (key thr : Nat) : State :=
  let e := s.eventAt (tileDie s.focus) key
  (s.freeTile s.focus).setEvent (tileDie s.focus) key
    { e with waiters := e.waiters ++ [.unit (s.yieldSave s.focus).2 thr] }

section
variable {a : BitVec 6} (hsel : fld (s.g a) 19 45 = 0) (hd : s.eventDie (s.g a) = tileDie s.focus)
variable (hj : tileDie s.focus ∈ (s.job (s.jobOf s.focus)).dies) (h : Here s)
include hsel hd hj h

/-- The checks of a selector that names an event of the own die pass (R308). -/
theorem State.eventOp_own (f : State → Nat → Out) : s.eventOp (s.g a) f = f s (tileDie s.focus) := by
  unfold State.eventOp
  rw [commitThen_of_here h]
  simp [hsel, hd, hj]

/-! ## EVSIG, EVSIG.r and EVPOLL -/

/-- EVSIG ends with its signal made (R310). -/
theorem exec_evsig_own {b : BitVec 6} (hb : fld (s.g b) 32 32 = 0)
    (hr : s.g b = 0 ∨ s.eventRoom (tileDie s.focus) (evKey (s.jobOf s.focus) (fld (s.g a) 0 16)) = true) :
    let u := s.signal (tileDie s.focus) (s.jobOf s.focus) (fld (s.g a) 0 16) (s.g b).toNat
    exec (.evsig a b) s = .next (u.retire u.cur) := by
  intro u
  have hu : WorkOnly s u := s.signal_workOnly _ _ _ _
  have room : s.signalRoom (tileDie s.focus) (s.jobOf s.focus) (fld (s.g a) 0 16) (s.g b).toNat = true := by
    unfold State.signalRoom
    rcases hr with hr | hr <;> simp [hr]
  show execEvsig a b s = _
  unfold execEvsig
  dsimp only
  rw [State.eventOp_own hsel hd hj h, if_neg (by simp [hb]), drained_of_here h,
    State.ask_discards (u := u) (v := 0) (reaches_of_here h) rfl _ hu.focus (hu.cur_status.trans (running_of_here h))]
  unfold State.atHome
  simp [State.ownRequest, room, u, Homed.value]

/-- EVSIG.r ends with the count zero (R310). -/
theorem exec_evsigR_own :
    let e := s.eventAt (tileDie s.focus) (evKey (s.jobOf s.focus) (fld (s.g a) 0 16))
    let u := s.setEvent (tileDie s.focus) (evKey (s.jobOf s.focus) (fld (s.g a) 0 16)) { e with count := 0 }
    exec (.evsigR a) s = .next (u.retire u.cur) := by
  intro e u
  have hu : WorkOnly s u := s.setEvent_workOnly _ _ _
  show execEvsigR a s = _
  unfold execEvsigR
  dsimp only
  rw [State.eventOp_own hsel hd hj h, drained_of_here h,
    State.ask_discards (u := u) (v := 0) (reaches_of_here h) rfl _ hu.focus (hu.cur_status.trans (running_of_here h))]
  rfl

/-- EVPOLL ends with the count in g[d] (R309). -/
theorem exec_evpoll_own {d : BitVec 6} :
    exec (.evpoll d a) s = .next (s.retire (s.cur.writeG d.toNat
      (BitVec.ofNat 64 (s.eventAt (tileDie s.focus) (evKey (s.jobOf s.focus) (fld (s.g a) 0 16))).count))) := by
  show execEvpoll d a s = _
  unfold execEvpoll
  dsimp only
  rw [State.eventOp_own hsel hd hj h, State.ask_gives (u := s) (reaches_of_here h) rfl rfl rfl (running_of_here h)]
  rfl

/-! ## EVWAIT -/

section
variable {b : BitVec 6} (hi : s.cur.inh = false) (hc : s.cur.cancelAt = none) (hv : s.cur.vs = none) (hs : s.cur.started = [])
variable (hb : fld (s.g b) 32 32 = 0)
include hi hc hv hs hb

/-- An EVWAIT with nothing to take first or to let end asks its event (R311). -/
theorem exec_evwait_asks : exec (.evwait a b) s = .next (s.ask s.focus (tileDie s.focus)
    (.evWait (tileDie s.focus) (s.jobOf s.focus) (fld (s.g a) 0 16) (s.g b).toNat) .eventWait (s.g a)) := by
  show execEvwait a b s = _
  unfold execEvwait
  dsimp only
  rw [hi, if_neg Bool.false_ne_true, State.eventOp_own hsel hd hj h, if_neg (by simp [hb]), if_neg (by simp [hc]),
    if_neg (by simp [hv, hs]), drained_of_here h]

/-- A met EVWAIT goes on (R311). -/
theorem exec_evwait_met (hn : (s.g b).toNat ≤ (s.eventAt (tileDie s.focus) (evKey (s.jobOf s.focus) (fld (s.g a) 0 16))).count) :
    exec (.evwait a b) s = .next (s.retire s.cur) := by
  have e : s.atHome s.nextId (s.ownRequest s.focus (.evWait (tileDie s.focus) (s.jobOf s.focus) (fld (s.g a) 0 16) (s.g b).toNat)
      .eventWait (s.g a) 0) = (s, .value 1) := by
    show s.eventWait _ _ _ _ _ = _
    unfold State.eventWait
    exact if_pos hn
  rw [exec_evwait_asks hsel hd hj h hi hc hv hs hb, s.ask_done _ _ _ _ _ _ _ _ (reaches_of_here h) e,
    State.afterOp, State.deliver_end _ _ _ _ (by simp [State.ownRequest])]
  show Host.Outcome.next (s.endWord s.focus _ (.value 1 0)) = _
  unfold State.endWord
  simp only [flagTrap_zero, State.ownRequest, if_true]
  rw [State.finishWord_running _ _ _ (running_of_here h) (running_of_here h)]
  rfl

/-- An unmet EVWAIT with room in the wait list parks its unit (R311). -/
theorem exec_evwait_unmet (hn : (s.eventAt (tileDie s.focus) (evKey (s.jobOf s.focus) (fld (s.g a) 0 16))).count < (s.g b).toNat)
    (hr : s.waiterRoom (tileDie s.focus) (evKey (s.jobOf s.focus) (fld (s.g a) 0 16)) = true) :
    exec (.evwait a b) s = .next (s.parked (evKey (s.jobOf s.focus) (fld (s.g a) 0 16)) (s.g b).toNat) := by
  have run : (s.tile s.focus).status = .running := running_of_here h
  have can : (s.tile s.focus).cancelAt = none := hc
  have room : (s.freeTile s.focus).waiterRoom (tileDie s.focus) (evKey (s.jobOf s.focus) (fld (s.g a) 0 16)) = true := by
    obtain ⟨q, hq⟩ := s.die_freeTile s.focus (tileDie s.focus)
    rw [State.waiterRoom_congr (s := s) (by rw [hq]) (by rw [hq]), hr]
  have e : s.atHome s.nextId (s.ownRequest s.focus (.evWait (tileDie s.focus) (s.jobOf s.focus) (fld (s.g a) 0 16) (s.g b).toNat)
      .eventWait (s.g a) 0) = (s.parked (evKey (s.jobOf s.focus) (fld (s.g a) 0 16)) (s.g b).toNat, .value 0) := by
    show s.eventWait _ _ _ _ _ = _
    unfold State.eventWait
    dsimp only
    rw [if_neg (by exact Nat.not_le.2 hn), if_neg (by simp [State.ownRequest, Tile.toEnd, run]),
      if_neg (by simp [State.ownRequest, Tile.toCancel, run, can])]
    exact if_pos room
  rw [exec_evwait_asks hsel hd hj h hi hc hv hs hb, s.ask_done _ _ _ _ _ _ _ _ (reaches_of_here h) e,
    State.afterOp, State.deliver_end _ _ _ _ (by simp [State.ownRequest])]
  show Host.Outcome.next (State.endWord _ s.focus _ (.value 0 0)) = _
  unfold State.endWord
  simp only [flagTrap_zero, State.ownRequest]
  rfl

end
end

theorem State.parked_status (s : State) (key thr : Nat) : (s.parked key thr).cur.status = .idle := by
  unfold State.parked
  rw [(State.setEvent_workOnly _ _ _ _).cur_status, State.cur, s.focus_freeTile, s.status_freeTile]

/-- Settles O15: each word's request is answered by its own die in the same step, and the table's law gives the event. -/
theorem eventWords : Obligations.EventWords := by
  unfold Obligations.EventWords
  intro s a b d sel die key e hsel hd hj h
  refine ⟨?_, ?_, ?_, fun hi hc hv hs hb => ⟨fun hn => ?_, fun hn hr => ?_⟩⟩
  · intro hb hr c
    obtain ⟨hw, hg⟩ := (s.signal_workOnly (tileDie s.focus) (s.jobOf s.focus) (fld (s.g a) 0 16) (s.g b).toNat).retire_wordEnds
    exact ⟨_, exec_evsig_own hsel hd hj h hb hr, hw, hg,
      s.eventAt_signal _ _ _ _ (hr.imp (fun hz => by rw [hz]; rfl) id)⟩
  · obtain ⟨hw, hg⟩ := (s.setEvent_workOnly die key { e with count := 0 }).retire_wordEnds
    exact ⟨_, exec_evsigR_own hsel hd hj h, hw, hg, State.eventAt_setEvent_self _ _ _ _⟩
  · exact ⟨_, exec_evpoll_own hsel hd hj h, s.retire_wroteG _ _⟩
  · exact ⟨_, exec_evwait_met hsel hd hj h hi hc hv hs hb hn, s.retire_wentTo⟩
  · exact ⟨_, (s.yieldSave s.focus).2, exec_evwait_unmet hsel hd hj h hi hc hv hs hb hn hr, s.parked_status _ _,
      State.eventAt_setEvent_self _ _ _ _, rfl, rfl, rfl⟩

end Sys2Proof.Machine
end

section
/-! SUPPORT. Closing of level entries and the end of a job leave the tiles alone, but for the pre-emptions pending on them. -/

namespace Sys2Proof.Machine

/-- The tile in focus, every tile but for its pending pre-emption, and where the jobs lie are as before. -/
structure TilesKept (s t : State) : Prop where
  focus : t.focus = s.focus
  tile : ∀ k, t.tile k = { s.tile k with preemptAt := (t.tile k).preemptAt }
  dies : ∀ j, (t.job j).dies = (s.job j).dies

variable {s t u : State}

theorem TilesKept.refl (s : State) : TilesKept s s := ⟨rfl, fun _ => rfl, fun _ => rfl⟩

theorem TilesKept.trans (h : TilesKept s t) (g : TilesKept t u) : TilesKept s u where
  focus := g.focus.trans h.focus
  tile k := by rw [g.tile k, h.tile k]
  dies j := (g.dies j).trans (h.dies j)

theorem TilesKept.foldl {α : Type} {f : State → α → State} (hf : ∀ s a, TilesKept s (f s a)) (l : List α) :
    ∀ s, TilesKept s (l.foldl f s) := by
  induction l with
  | nil => exact .refl
  | cons a l ih => exact fun s => (hf s a).trans (ih _)

theorem TilesKept.status (h : TilesKept s t) (k : Nat) : (t.tile k).status = (s.tile k).status := by rw [h.tile k]

theorem TilesKept.cur_status (h : TilesKept s t) : t.cur.status = s.cur.status := by
  unfold State.cur
  rw [h.focus, h.status]

theorem WorkOnly.tilesKept (h : WorkOnly s t) : TilesKept s t := ⟨h.focus, h.tile, fun j => by rw [h.job j]⟩

theorem State.modDie_tilesKept (s : State) (d : Nat) (f : Die → Die) : TilesKept s (s.modDie d f) := ⟨rfl, fun _ => rfl, fun _ => rfl⟩
theorem State.modPkg_tilesKept (s : State) (p : Nat) (f : Pkg → Pkg) : TilesKept s (s.modPkg p f) := ⟨rfl, fun _ => rfl, fun _ => rfl⟩

theorem putHost_tilesKept (bs : List Byte) : ∀ (s : State) (p : Nat), TilesKept s (s.putHost p bs) := by
  induction bs with
  | nil => exact fun s _ => .refl s
  | cons b bs ih => exact fun s p =>
      TilesKept.trans (t := { s with hostMem := Tab.set 0 s.hostMem p b }) ⟨rfl, fun _ => rfl, fun _ => rfl⟩ (ih _ _)

theorem flushCqGo_tilesKept (p f : Nat) (es : List CqEntry) : ∀ s : State, TilesKept s (flushCqGo s p f es) := by
  induction es with
  | nil =>
    intro s
    unfold flushCqGo
    exact s.modPkg_tilesKept _ _
  | cons e es ih =>
    intro s
    unfold flushCqGo
    dsimp only
    split
    · exact ((putHost_tilesKept _ _ _).trans (State.modPkg_tilesKept _ _ _)).trans (ih _)
    · exact s.modPkg_tilesKept _ _

theorem State.complete_tilesKept (s : State) (p f : Nat) (e : CqEntry) : TilesKept s (s.complete p f e) :=
  (s.modPkg_tilesKept _ _).trans (flushCqGo_tilesKept _ _ _ _)

theorem State.hostDone_tilesKept (s : State) (e : LevelEntry) : TilesKept s (s.hostDone e) := by
  unfold State.hostDone
  split
  · exact s.complete_tilesKept _ _ _
  · exact .refl s

theorem State.dropBlock_tilesKept (s : State) (d job : Nat) (e : BlockEntry) : TilesKept s (s.dropBlock d job e) := by
  unfold State.dropBlock
  dsimp only
  split
  · exact .refl s
  · split
    · exact (s.modDie_tilesKept _ _).trans (State.modDie_tilesKept _ _ _)
    · exact s.modDie_tilesKept _ _

theorem State.freeSeq_tilesKept (s : State) (d idx : Nat) : TilesKept s (s.freeSeq d idx) := by
  unfold State.freeSeq
  extract_lets q u
  have hu : TilesKept s u := .foldl (fun s b => s.dropBlock_tilesKept d q.job (s.btEntry q b)) _ s
  exact hu.trans (u.modDie_tilesKept _ _)

/-- A completed job leaves one die's tables (R25, R27, R208). -/
def State.endJobOn (j : Nat) (s : State) (d : Nat) : State :=
  (((s.die d).seqs.filter fun q => q.2.live && q.2.job = j).foldl (fun s q => s.freeSeq d q.1) s).modDie d fun x =>
    { x with events := x.events.filter fun e => e.1 / 65536 ≠ j, pending := x.pending.filter fun p => p.job ≠ j
             levels := x.levels.filter fun e => e.job ≠ j }

/-- A completed job leaves the tables of the dies it lies on. -/
def State.endJobDies (s : State) (j : Nat) : State := ((s.job j).dies.filter fun d => !(d ∈ s.lost)).foldl (State.endJobOn j) s

theorem State.endJob_eq (s : State) (j : Nat) : s.endJob j = (s.endJobDies j).setJob j
    { (s.endJobDies j).job j with placed := false, closed := false, cancelled := false, launches := [] } := rfl

theorem State.endJobOn_tilesKept (j : Nat) (s : State) (d : Nat) : TilesKept s (State.endJobOn j s d) := by
  have freed (l : Tab Seqn) : TilesKept s (l.foldl (fun s q => s.freeSeq d q.1) s) :=
    TilesKept.foldl (f := fun s (q : Nat × Seqn) => s.freeSeq d q.1) (fun s q => s.freeSeq_tilesKept d q.1) l s
  unfold State.endJobOn
  exact (freed _).trans (State.modDie_tilesKept _ _ _)

theorem State.endJobDies_tilesKept (s : State) (j : Nat) : TilesKept s (s.endJobDies j) :=
  TilesKept.foldl (State.endJobOn_tilesKept j) _ s

theorem State.endJob_tilesKept (s : State) (j : Nat) : TilesKept s (s.endJob j) := by
  rw [State.endJob_eq]
  refine (s.endJobDies_tilesKept j).trans ⟨rfl, fun _ => rfl, fun i => ?_⟩
  rw [State.job_setJob]
  split
  · next h => rw [h]
  · rfl

/-! ## Completion of a level entry, step by step (R26) -/

/-- The event of a level entry takes the signal of its completion, or is gone with its die (R48). -/
def State.takesEvent (s : State) (j : Nat) (e : LevelEntry) : Bool :=
  match e.event with
  | some (d, name) => d ∈ s.lost || s.signalRoom d j name 1
  | none => true

/-- The completion event of a level entry is given. -/
def State.giveEvent (s : State) (j : Nat) (e : LevelEntry) : State :=
  match e.event with
  | some (d, name) => s.signal d j name 1
  | none => s

/-- A parent with one of its children complete. -/
def LevelEntry.lessChild (cancelled : Bool) (p : LevelEntry) : LevelEntry :=
  if cancelled then { p with count := p.count - 1, canc := p.canc + 1 } else { p with count := p.count - 1, done := p.done + 1 }

/-- The parent of a level entry that is complete counts it. -/
def State.tellParent (s : State) (j fuel : Nat) (e : LevelEntry) : State :=
  match e.parent with
  | some (l, i) => levelCheck (s.modLevel j l i (LevelEntry.lessChild e.cancelled)) j fuel l i
  | none => s

/-- A level entry leaves its table, its event given, and its host told. -/
def State.endLevel (s : State) (j level id : Nat) (e : LevelEntry) : State := ((s.giveEvent j e).dropLevel j level id).hostDone e

theorem levelCheck_none {j fuel level id : Nat} (h : s.findLevel j level id = none) : levelCheck s j fuel level id = s := by
  cases fuel with
  | zero => rfl
  | succ fuel => simp only [levelCheck, h]

theorem levelCheck_some {j fuel level id : Nat} {e : LevelEntry} (h : s.findLevel j level id = some e) :
    levelCheck s j (fuel + 1) level id =
      if (e.closed && e.count = 0 && s.takesEvent j e) = true then
        if level = 4 then (s.endLevel j level id e).endJob j else (s.endLevel j level id e).tellParent j fuel e
      else s := by
  unfold levelCheck
  rw [h]
  rfl

/-- An entry that is open, or has work outstanding, does not complete. -/
theorem levelCheck_busy {j fuel level id : Nat} {e : LevelEntry} (h : s.findLevel j level id = some e)
    (hb : e.closed = false ∨ e.count ≠ 0) : levelCheck s j fuel level id = s := by
  cases fuel with
  | zero => rfl
  | succ fuel =>
    rw [levelCheck_some h, if_neg]
    rcases hb with hb | hb <;> simp [hb]

theorem State.giveEvent_workOnly (s : State) (j : Nat) (e : LevelEntry) : WorkOnly s (s.giveEvent j e) := by
  unfold State.giveEvent
  split
  · exact s.signal_workOnly _ _ _ _
  · exact .refl s

theorem State.endLevel_tilesKept (s : State) (j level id : Nat) (e : LevelEntry) : TilesKept s (s.endLevel j level id e) :=
  ((s.giveEvent_workOnly j e).tilesKept.trans (State.modDie_tilesKept _ _ _)).trans (State.hostDone_tilesKept _ e)

/-- The completion of level entries (R26) leaves the tiles alone. -/
theorem levelCheck_tilesKept (j fuel : Nat) : ∀ (s : State) (level id : Nat), TilesKept s (levelCheck s j fuel level id) := by
  induction fuel with
  | zero => exact fun s _ _ => .refl s
  | succ fuel ih =>
    intro s level id
    cases h : s.findLevel j level id with
    | none =>
      rw [levelCheck_none h]
      exact .refl s
    | some e =>
      have up (s : State) : TilesKept s (s.tellParent j fuel e) := by
        unfold State.tellParent
        split
        · exact (State.modLevel_workOnly _ _ _ _ _).tilesKept.trans (ih _ _ _)
        · exact .refl s
      rw [levelCheck_some h]
      split
      · split
        · exact (s.endLevel_tilesKept _ _ _ _).trans (State.endJob_tilesKept _ _)
        · exact (s.endLevel_tilesKept _ _ _ _).trans (up _)
      · exact .refl s

theorem State.launchChild_tilesKept (s : State) (r : Rec) (c : Bool) : TilesKept s (s.launchChild r c) :=
  (s.modLevel_workOnly _ _ _ _).tilesKept.trans (levelCheck_tilesKept _ _ _ _ _)

theorem State.lastAction_tilesKept (s : State) (d : Nat) (e : Entry) (c : Bool) : TilesKept s (s.lastAction d e c) := by
  unfold State.lastAction
  extract_lets u home q
  have hu : TilesKept s u := (s.modJobDie_workOnly _ _ _).tilesKept
  split
  · exact hu.trans (u.launchChild_tilesKept _ _)
  · split
    · exact hu
    · exact hu.trans ⟨rfl, fun _ => rfl, fun _ => rfl⟩

end Sys2Proof.Machine
end

section
/-! SUPPORT. EXIT, EXIT.d and YIELD. -/

namespace Sys2Proof.Machine

/-! ## The token lists of a unit that leaves (R77) -/

theorem Tab.mem_of_find {α : Type} {t : Tab α} {k : Nat} {v : α} (h : Tab.find? t k = some v) : (k, v) ∈ t := by
  induction t with
  | nil => exact absurd h (by simp [Tab.find?])
  | cons p r ih =>
    obtain ⟨i, x⟩ := p
    unfold Tab.find? at h
    split at h
    · next e =>
      cases e
      cases h
      exact List.mem_cons_self
    · exact List.mem_cons_of_mem _ (ih h)

/-- A taker other than the VS. -/
def Taker.notVs : Taker → Bool
  | .vs _ => false
  | _ => true

/-- Only the VS waits for tokens. -/
def Tile.vsWaits (t : Tile) : Prop := ∀ n, ∀ w ∈ Tab.get [] t.takers n, w.notVs = false

/-- Only tokens changed, and what the VS has been granted. -/
def TokensOnly (a b : Tile) : Prop :=
  b = { a with tokens := b.tokens, took := b.took, takers := b.takers, vs := b.vs } ∧ (a.vs = none → b.vs = none)

theorem TokensOnly.trans {a b c : Tile} (h : TokensOnly a b) (g : TokensOnly b c) : TokensOnly a c := by
  obtain ⟨h, hv⟩ := h
  obtain ⟨g, gv⟩ := g
  exact ⟨by rw [g, h], fun x => gv (hv x)⟩

theorem Tile.vsWaits_set {t : Tile} (h : t.vsWaits) (n : Nat) {ws : List Taker} (hw : ∀ w ∈ ws, w.notVs = false) :
    Tile.vsWaits { t with takers := Tab.set [] t.takers n ws } := by
  intro m w hm
  rw [Tab.get_set] at hm
  split at hm
  · exact hw w hm
  · exact h m w hm

theorem serveTakers_vs (dcc n : Nat) (ws : List Taker) : ∀ t : Tile, (∀ w ∈ ws, w.notVs = false) → t.vsWaits →
    TokensOnly t (serveTakers dcc n ws t) ∧ (serveTakers dcc n ws t).vsWaits := by
  induction ws with
  | nil => exact fun t hw ht => ⟨⟨rfl, id⟩, Tile.vsWaits_set ht n hw⟩
  | cons w ws ih =>
    intro t hw ht
    unfold serveTakers
    split
    · cases w with
      | vs m =>
        have step : TokensOnly t ((t.take dcc n m).serve dcc (.vs m)) := ⟨rfl, fun h => by simp [Tile.serve, Tile.take, h]⟩
        obtain ⟨h1, h2⟩ := ih ((t.take dcc n m).serve dcc (.vs m)) (fun w h => hw w (List.mem_cons_of_mem _ h)) ht
        exact ⟨step.trans h1, h2⟩
      | ct m => exact absurd (hw _ List.mem_cons_self) (by simp [Taker.notVs])
      | gate m => exact absurd (hw _ List.mem_cons_self) (by simp [Taker.notVs])
    · exact ⟨⟨rfl, id⟩, Tile.vsWaits_set ht n hw⟩

theorem Tile.dropTakers_notVs (t : Tile) (dcc : Nat) {p : Taker → Bool} (hp : p = Taker.notVs) : TokensOnly t (t.dropTakers dcc p) := by
  subst hp
  have fold (ns : List Nat) : ∀ u : Tile, u.vsWaits →
      TokensOnly u (ns.foldl (fun t n => serveTakers dcc n (Tab.get [] t.takers n) t) u) := by
    induction ns with
    | nil => exact fun u _ => ⟨rfl, id⟩
    | cons n ns ih =>
      intro u hu
      obtain ⟨h1, h2⟩ := serveTakers_vs dcc n (Tab.get [] u.takers n) u (hu n) hu
      exact h1.trans (ih _ h2)
  unfold Tile.dropTakers
  refine TokensOnly.trans (b := { t with takers := _ }) ⟨rfl, id⟩ (fold _ _ fun n w hw => ?_)
  dsimp only at hw
  unfold Tab.get at hw
  cases hf : Tab.find? ((t.takers.map fun x => (x.1, x.2.filter fun w => !w.notVs)).filter fun x => !x.2.isEmpty) n with
  | none =>
    rw [hf] at hw
    exact absurd hw (by simp)
  | some ws =>
    rw [hf] at hw
    obtain ⟨x, -, hx⟩ := List.mem_map.1 (List.mem_filter.1 (Tab.mem_of_find hf)).1
    cases hx
    simpa using (List.mem_filter.1 hw).2

/-! ## The CT leaves its unit (R77, R313) -/

/-- The tile of a unit whose CT has left it, before it ends: it drains. -/
def Tile.left (t : Tile) (dcc : Nat) (drop : Bool) : Tile :=
  let t := t.segIssue dcc
  let t := { t with status := .draining, pfx := none, wait := none, cutM := none, cutC := none, cutV := none, phase := none
                    order := t.order + 1, vq := if drop then [] else t.vq, mq := if drop then [] else t.mq
                    cq := if drop then [] else t.cq }
  if drop then t.dropTakers dcc fun w => match w with
    | .vs _ => false
    | _ => true else t

/-- Fields of a tile that leaving its unit keeps. -/
structure LeftOver (drop : Bool) (t u : Tile) : Prop where
  status : u.status = .draining
  entry : u.entry = t.entry
  cancelAt : u.cancelAt = t.cancelAt
  wait : u.wait = none
  vs : t.vs = none → u.vs = none
  started : u.started = t.started
  queues : u.vq = (if drop then [] else t.vq) ∧ u.mq = (if drop then [] else t.mq) ∧ u.cq = (if drop then [] else t.cq)
  stores : u.journal = t.journal ∧ u.storeQ = t.storeQ ∧ u.posted = t.posted
  regs : NoRegs t u

theorem Tile.left_leftOver (t : Tile) (dcc : Nat) (drop : Bool) : LeftOver drop t (t.left dcc drop) := by
  cases drop with
  | false => exact ⟨rfl, rfl, rfl, rfl, id, rfl, ⟨rfl, rfl, rfl⟩, ⟨rfl, rfl, rfl⟩, fun _ => rfl, fun _ => rfl, rfl, fun _ => rfl, rfl⟩
  | true =>
    obtain ⟨h, hv⟩ : TokensOnly { (t.segIssue dcc) with
        status := .draining, pfx := none, wait := none, cutM := none, cutC := none, cutV := none, phase := none
        order := t.order + 1, vq := [], mq := [], cq := [] } (t.left dcc true) :=
      Tile.dropTakers_notVs _ dcc (funext fun w => by cases w <;> rfl)
    constructor
    case vs => exact hv
    case queues => rw [h]; exact ⟨rfl, rfl, rfl⟩
    case stores => rw [h]; exact ⟨rfl, rfl, rfl⟩
    case regs => rw [h]; exact ⟨fun _ => rfl, fun _ => rfl, rfl, fun _ => rfl, rfl⟩
    all_goals rw [h] <;> rfl

theorem State.leave_eq (s : State) (drop : Bool) (h : s.cur.cancelAt = none) :
    s.leave drop = (s.setTile s.focus (s.cur.left (s.dcc (tileDie s.focus)) drop)).endUnit s.focus := by
  have hc : (s.cur.left (s.dcc (tileDie s.focus)) drop).cancelAt = none := (Tile.left_leftOver _ _ _).cancelAt.trans h
  unfold State.leave
  exact if_neg (c := (s.cur.left (s.dcc (tileDie s.focus)) drop).cancelAt.isSome = true) (by rw [hc]; exact Bool.false_ne_true)

/-! ## The end of a unit whose join counter, if any, is not concerned (R28) -/

/-- A unit without a join counter performs its last two completion actions. -/
theorem State.retireUnit_unjoined (s : State) (k : Nat) (c : Bool) (hj : bit (s.tile k).entry.cr.flags 1 = false) :
    s.retireUnit k c = (s.modTile k fun t => { t with cancelled := c }).finishActions (tileDie k) k true (s.tile k).entry c := by
  unfold State.retireUnit
  extract_lets t r d u finish a
  rw [if_pos (show (!bit r.flags 1) = true by simp [r, t, hj])]
  simp only [finish, u, State.tile_modTile_self]
  rfl

/-- A draining unit without a join counter that has nothing left to do completes. -/
theorem State.endUnit_draining (s : State) (k : Nat) (hq : (s.tile k).allQuiet = true) (hs : (s.tile k).status = .draining)
    (hj : bit (s.tile k).entry.cr.flags 1 = false) : s.endUnit k = s.retireUnit k (s.tile k).cancelled := by
  have held : s.joinHeld k = false := by
    unfold State.joinHeld State.joinMoves
    cases (s.tile k).exts.find? fun e => e.covers (s.tile k).entry.cr.join.toNat 8 && e.w <;> simp [hj]
  unfold State.endUnit
  dsimp only
  rw [hq, held, hs]
  rfl

/-- With no event to signal, or with room for the signal at its own die, the tile is freed at once (R28, R41). -/
theorem State.finishActions_frees (s : State) (k : Nat) (e : Entry) (c : Bool)
    (h : bit e.cr.flags 0 = false ∨ (8 * diePkg (tileDie k) + e.cr.evDie = tileDie k ∧ tileDie k ∉ (s.die (tileDie k)).unreachable
      ∧ s.signalRoom (tileDie k) e.cr.job e.cr.event 1 = true)) :
    (s.finishActions (tileDie k) k true e c).focus = s.focus
      ∧ ((s.finishActions (tileDie k) k true e c).tile k).status = .idle := by
  have last (u : State) (hu : TilesKept (s.freeTile k) u) :
      (u.lastAction (tileDie k) e c).focus = s.focus ∧ ((u.lastAction (tileDie k) e c).tile k).status = .idle := by
    have t := hu.trans (u.lastAction_tilesKept (tileDie k) e c)
    exact ⟨t.focus.trans (s.focus_freeTile k), (t.status k).trans (s.status_freeTile k)⟩
  unfold State.finishActions
  extract_lets r ed free w id u
  split
  · exact last _ (.refl _)
  · next h0 =>
    obtain ⟨hed, hr, hroom⟩ := h.resolve_left (by simpa using h0)
    have hed : ed = tileDie k := hed
    rw [hed, if_neg hr, if_pos ⟨rfl, hroom⟩]
    exact last _ (State.signal_workOnly _ _ _ _ _).tilesKept

/-- Where the table of its own die cannot take the signal, the unit holds its tile (R48). -/
theorem State.finishActions_holds (s : State) (k : Nat) (e : Entry) (c : Bool) (h0 : bit e.cr.flags 0 = true)
    (hed : 8 * diePkg (tileDie k) + e.cr.evDie = tileDie k) (hr : tileDie k ∉ (s.die (tileDie k)).unreachable)
    (hn : s.signalRoom (tileDie k) e.cr.job e.cr.event 1 = false) :
    ∃ n, (s.finishActions (tileDie k) k true e c).focus = s.focus
      ∧ (s.finishActions (tileDie k) k true e c).tile k = { s.tile k with status := .retiring n } := by
  unfold State.finishActions
  extract_lets r ed free w id u
  have hed : ed = tileDie k := hed
  rw [if_neg (by simp [r, h0]), hed, if_neg hr, if_neg (by simp [r, hn]), if_pos rfl]
  exact ⟨s.nextId, rfl, State.tile_modTile_self _ _ _⟩

/-! ## EXIT and EXIT.d -/

section
variable {s : State} {drop : Bool}

/-- A tile that a quiet unit has left has nothing left to do. -/
theorem Tile.left_allQuiet (hj : s.cur.journal = []) (h : Quiet s.cur) (hv : s.cur.vs = none) (hs : s.cur.started = [])
    (dcc : Nat) : (s.cur.left dcc drop).allQuiet = true := by
  obtain ⟨ha, hq, hp, -⟩ := h
  obtain ⟨-, -, -, w, v, st, ⟨q1, q2, q3⟩, ⟨j, sq, ps⟩, -⟩ := Tile.left_leftOver s.cur dcc drop
  obtain ⟨e1, e2, e3⟩ : s.cur.vq = [] ∧ s.cur.mq = [] ∧ s.cur.cq = [] := by
    simpa [Tile.ahead, Tile.queued, hj, and_assoc] using ha
  simp [Tile.allQuiet, Tile.allDone, Tile.awaiting, w, v hv, st, hs, q1, q2, q3, e1, e2, e3, j, hj, sq, hq, ps, hp]

variable (hc : s.cur.cancelAt = none) (hj : s.cur.journal = [])
include hc hj

/-- With no command and no store under way, the unit ends (R313). -/
theorem State.exitWith_quiet (h : Quiet s.cur) (hv : s.cur.vs = none) (hs : s.cur.started = []) :
    s.exitWith drop = .next ((s.setTile s.focus (s.cur.left (s.dcc (tileDie s.focus)) drop)).endUnit s.focus) := by
  obtain ⟨ha, hq, hp, hr⟩ := h
  have hd : s.cur.queued = false := by
    cases hx : s.cur.queued
    · rfl
    · exact absurd ha (by simp [Tile.ahead, hx])
  unfold State.exitWith
  rw [if_neg (by simp [hj]), if_pos (by simp [Tile.enginesDone, hv, hs, hd]), s.drained_now _ hq hp hr, s.leave_eq drop hc]

/-- With a command under way, the tile drains (R77, R313). -/
theorem State.exitWith_drains (hs : s.cur.started ≠ []) :
    s.exitWith drop = .next (s.setTile s.focus (s.cur.left (s.dcc (tileDie s.focus)) drop)) := by
  have e : s.cur.started.isEmpty = false := by simpa using hs
  have busy : (s.cur.left (s.dcc (tileDie s.focus)) drop).allQuiet = false := by
    simp [Tile.allQuiet, Tile.allDone, (Tile.left_leftOver s.cur _ drop).started, e]
  unfold State.exitWith
  rw [if_neg (by simp [hj]), if_neg (by simp [Tile.enginesDone, e]), s.leave_eq drop hc]
  unfold State.endUnit
  dsimp only
  rw [State.tile_setTile_self, busy]
  rfl

end

/-! ## YIELD -/

section
variable {s : State} (hc : s.cur.cancelAt = none) (hi : s.cur.inh = false) (h : Quiet s.cur)
include hc hi h

theorem exec_yield_goesOn (hp : s.cur.preemptAt = none) : exec .yield s = .next (s.retire s.cur) := by
  obtain ⟨ha, hq, hp', hr⟩ := h
  show execYield s = _
  unfold execYield
  simp only [hi, Bool.false_eq_true, if_false, s.commitThen_now _ ha, s.drained_now _ hq hp' hr, hc, hp, Option.isSome_none,
    Option.isNone_none, if_true]

theorem exec_yield_saves (hp : s.cur.preemptAt ≠ none) (hv : s.cur.vs = none) (hs : s.cur.started = []) :
    exec .yield s = .next ((s.freeTile s.focus).enqueue (tileDie s.focus) (s.yieldSave s.focus).2) := by
  obtain ⟨ha, hq, hp', hr⟩ := h
  have hd : s.cur.queued = false := by
    cases hx : s.cur.queued
    · rfl
    · exact absurd ha (by simp [Tile.ahead, hx])
  show execYield s = _
  unfold execYield
  simp only [hi, Bool.false_eq_true, if_false, s.commitThen_now _ ha, s.drained_now _ hq hp' hr, hc, Option.isSome_none,
    Option.isNone_iff_eq_none, hp, Tile.enginesDone, hv, hs, hd, Option.isNone_none, List.isEmpty_nil, Bool.not_false, Bool.and_self,
    Bool.not_true]
  rfl

end

/-- A quiet unit without a join counter that leaves performs its last two completion actions. -/
theorem State.exitWith_finishes {s : State} {drop : Bool} (hc : s.cur.cancelAt = none) (hj : s.cur.journal = []) (h : Quiet s.cur)
    (hv : s.cur.vs = none) (hs : s.cur.started = []) (hb : bit s.cur.entry.cr.flags 1 = false) :
    ∃ (u : State) (c : Bool), s.exitWith drop = .next (u.finishActions (tileDie s.focus) s.focus true s.cur.entry c) ∧ u.focus = s.focus
      ∧ u.dies = s.dies ∧ u.cur.entry = s.cur.entry := by
  have left := Tile.left_leftOver s.cur (s.dcc (tileDie s.focus)) drop
  let v := s.setTile s.focus (s.cur.left (s.dcc (tileDie s.focus)) drop)
  have hv' : v.tile s.focus = s.cur.left (s.dcc (tileDie s.focus)) drop := State.tile_setTile_self _ _ _
  have he : (v.tile s.focus).entry = s.cur.entry := by rw [hv', left.entry]
  refine ⟨v.modTile s.focus fun t => { t with cancelled := (v.tile s.focus).cancelled }, (v.tile s.focus).cancelled, ?_, rfl, rfl, ?_⟩
  · rw [State.exitWith_quiet hc hj h hv hs, State.endUnit_draining v s.focus (by rw [hv']; exact Tile.left_allQuiet hj h hv hs _)
      (by rw [hv']; exact left.status) (by rw [he]; exact hb), v.retireUnit_unjoined s.focus _ (by rw [he]; exact hb), he]
  · exact (congrArg Tile.entry (State.tile_modTile_self v s.focus _)).trans he

/-- Settles O24: EXIT and EXIT.d come to the end of a tile that their CT has left, and YIELD to its save. -/
theorem unitEnds : Obligations.UnitEnds := by
  unfold Obligations.UnitEnds
  intro s hc hr hj
  refine ⟨fun i hi => ?_, fun hi h => ⟨fun hp => ?_, ?_⟩⟩
  · obtain ⟨drop, e, hdrop⟩ : ∃ drop, exec i s = s.exitWith drop ∧ ((i = .exit ∧ drop = false) ∨ (i = .exitD ∧ drop = true)) := by
      rcases hi with rfl | rfl
      · exact ⟨false, rfl, .inl ⟨rfl, rfl⟩⟩
      · exact ⟨true, rfl, .inr ⟨rfl, rfl⟩⟩
    rw [e]
    refine ⟨?_, fun hs => ?_⟩
    · intro r ed h hv hs hb
      obtain ⟨u, c, ex, uf, ud, ue⟩ := State.exitWith_finishes (drop := drop) hc hj h hv hs hb
      have die : u.die = s.die := by
        funext d
        unfold State.die
        rw [ud]
      have room (d j n : Nat) : u.signalRoom d j n 1 = s.signalRoom d j n 1 := by
        unfold State.signalRoom State.eventRoom
        rw [die]
      refine ⟨fun hf => ?_, fun h0 hed hl hn => ?_⟩
      · obtain ⟨f, st⟩ := u.finishActions_frees s.focus s.cur.entry c (hf.imp id fun ⟨hed, hl, hroom⟩ => by
          rw [hed] at hl hroom
          exact ⟨hed, by rwa [die], by rwa [room]⟩)
        exact ⟨_, ex, f.trans uf, by rw [State.cur, f, uf, st]⟩
      · rw [hed] at hl hn
        obtain ⟨n, f, tl⟩ := u.finishActions_holds s.focus s.cur.entry c h0 hed (by rwa [die]) (by rwa [room])
        have cur : (u.finishActions (tileDie s.focus) s.focus true s.cur.entry c).cur =
            { u.tile s.focus with status := .retiring n } := by
          rw [State.cur, f, uf, tl]
        refine ⟨_, n, ex, f.trans uf, by rw [cur], ?_⟩
        rw [cur, ← ue, State.cur, uf]
    · obtain ⟨st, -, -, -, -, sd, q, -, rg⟩ := Tile.left_leftOver s.cur (s.dcc (tileDie s.focus)) drop
      rw [State.exitWith_drains hc hj hs]
      refine ⟨_, rfl, rfl, ?_⟩
      rw [State.cur_setTile]
      refine ⟨st, rg, sd, fun h => ?_, fun h => ?_, fun p => rfl⟩
      · obtain ⟨-, rfl⟩ | ⟨h', -⟩ := hdrop
        · exact q
        · exact absurd (h.symm.trans h') (by simp)
      · obtain ⟨h', -⟩ | ⟨-, rfl⟩ := hdrop
        · exact absurd (h.symm.trans h') (by simp)
        · exact q
  · exact ⟨_, exec_yield_goesOn hc hi h hp, s.retire_wentTo⟩
  · intro hp hv hs l d
    have k := State.enqueue_workOnly (s.freeTile s.focus) d (s.yieldSave s.focus).2 false
    have q := State.queueAt_enqueue (s.freeTile s.focus) d (s.yieldSave s.focus).2 d l
    rw [if_pos ⟨rfl, rfl⟩, State.queueAt_freeTile] at q
    refine ⟨_, _, exec_yield_saves hc hi h hp hv hs, k.focus.trans (s.focus_freeTile _), ?_, q, rfl, rfl, rfl⟩
    rw [k.cur_status, State.cur, s.focus_freeTile, s.status_freeTile]

end Sys2Proof.Machine
end

section
/-! SUPPORT. What cancelling the work of a job does to its dies where no unit waits for an event (R30). -/

namespace Sys2Proof.Machine

theorem mem_dieTiles {k d : Nat} : k ∈ dieTiles d ↔ tileDie k = d := by
  unfold dieTiles tileDie
  rw [List.mem_map]
  constructor
  · rintro ⟨i, hi, rfl⟩
    have := List.mem_range.1 hi
    omega
  · rintro rfl
    exact ⟨k % 32, List.mem_range.2 (Nat.mod_lt _ (by omega)), by omega⟩

theorem nodup_dieTiles (d : Nat) : (dieTiles d).Nodup := by
  unfold dieTiles
  exact List.nodup_range.map fun a b h => by simpa using h

/-- The mark of a cancel request on a tile whose unit runs: the time of the first request stands (R30), and a segment is void. -/
def Tile.cancelMarked (now : Nat) (t : Tile) : Tile :=
  if t.status = .running then
    { t with cancelAt := some (t.cancelAt.getD now), seg := t.seg.map fun g => { g with void := true } }
  else t

theorem Tile.cancelMarked_twice (now : Nat) (t : Tile) : (t.cancelMarked now).cancelMarked now = t.cancelMarked now := by
  unfold Tile.cancelMarked
  by_cases h : t.status = .running
  · simp only [if_pos h, Option.getD_some, Option.map_map]
    rfl
  · rw [if_neg h, if_neg h]

theorem State.cancelTile_marked (s : State) (k : Nat) (h : (s.tile k).status = .idle ∨ (s.tile k).status = .running) :
    (s.cancelTile k = s ∧ (s.tile k).status = .idle) ∨ s.cancelTile k = s.modTile k (Tile.cancelMarked (s.ptc (tileDie k))) := by
  rcases h with h | h
  · left
    unfold State.cancelTile
    dsimp only
    rw [h]
    exact ⟨rfl, rfl⟩
  · right
    unfold State.cancelTile State.modTile Tile.cancelMarked
    dsimp only
    rw [if_pos h, h]

/-- The records that a cancel names are marked. -/
def Entry.marks (p : Entry → Bool) (q : Tab (List Entry)) : Tab (List Entry) := q.map fun x => (x.1, x.2.map (cancIf p))
def Parked.marks (p : Entry → Bool) (q : Tab Parked) : Tab Parked := q.map fun x => (x.1, x.2.cancIf p)

theorem cancIf_twice (p : Entry → Bool) (e : Entry) : cancIf p (cancIf p e) = cancIf p e := by
  unfold cancIf
  cases h : p e with
  | false => simp [h]
  | true => simp [Entry.canc, BitVec.or_assoc]

theorem Parked.cancIf_twice (p : Entry → Bool) (x : Parked) : (x.cancIf p).cancIf p = x.cancIf p := by
  unfold Parked.cancIf
  cases h : x.launch.isNone with
  | false => simp [h]
  | true => simp [h, Machine.cancIf_twice]

/-- What a cancel of the units that p names has made of the dies `ds`. -/
structure Cancels (p : Entry → Bool) (ds : List Nat) (s t : State) : Prop where
  focus : t.focus = s.focus
  tile : ∀ k, t.tile k = if tileDie k ∈ ds ∧ p (s.tile k).entry = true then (s.tile k).cancelMarked (s.ptc (tileDie k)) else s.tile k
  die : ∀ d, t.die d = { s.die d with
    queues := (t.die d).queues, aside := (t.die d).aside, events := (t.die d).events, fwParked := (t.die d).fwParked }
  queues : ∀ d, (t.die d).queues = if d ∈ ds then Entry.marks p (s.die d).queues else (s.die d).queues
  aside : ∀ d, (t.die d).aside = if d ∈ ds then Parked.marks p (s.die d).aside else (s.die d).aside
  events : ∀ d, (s.die d).events = [] → (t.die d).events = []
  ptc : ∀ d, t.ptc d = s.ptc d
  job : ∀ j, t.job j = { s.job j with launches := (t.job j).launches }
  mem : t.mem = s.mem

namespace Cancels

variable {p : Entry → Bool} {ds : List Nat} {s t u : State}

theorem refl (p : Entry → Bool) (s : State) : Cancels p [] s s where
  focus := rfl
  tile _ := by simp
  die _ := rfl
  queues _ := by simp
  aside _ := by simp
  events _ := id
  ptc _ := rfl
  job _ := rfl
  mem := rfl

theorem entry (h : Cancels p ds s t) (k : Nat) : (t.tile k).entry = (s.tile k).entry := by
  rw [h.tile k]
  unfold Tile.cancelMarked
  split
  · split <;> rfl
  · rfl

theorem status (h : Cancels p ds s t) (k : Nat) : (t.tile k).status = (s.tile k).status := by
  rw [h.tile k]
  unfold Tile.cancelMarked
  split
  · split <;> rfl
  · rfl

/-- Marking twice is marking once, so the dies of two cancels of the same units add up. -/
theorem append {es : List Nat} (h : Cancels p ds s t) (g : Cancels p es t u) : Cancels p (ds ++ es) s u where
  focus := g.focus.trans h.focus
  tile k := by
    rw [g.tile k, h.entry k, h.ptc, h.tile k]
    cases p (s.tile k).entry <;> by_cases h1 : tileDie k ∈ ds <;> by_cases h2 : tileDie k ∈ es <;>
      simp [h1, h2, Tile.cancelMarked_twice]
  die d := by rw [g.die d, h.die d]
  queues d := by
    have twice (q : Tab (List Entry)) : Entry.marks p (Entry.marks p q) = Entry.marks p q := by
      simp [Entry.marks, Function.comp_def, cancIf_twice]
    rw [g.queues d, h.queues d]
    by_cases h1 : d ∈ ds <;> by_cases h2 : d ∈ es <;> simp [h1, h2, twice]
  aside d := by
    have twice (q : Tab Parked) : Parked.marks p (Parked.marks p q) = Parked.marks p q := by
      simp [Parked.marks, Function.comp_def, Parked.cancIf_twice]
    rw [g.aside d, h.aside d]
    by_cases h1 : d ∈ ds <;> by_cases h2 : d ∈ es <;> simp [h1, h2, twice]
  events d hd := g.events d (h.events d hd)
  ptc d := (g.ptc d).trans (h.ptc d)
  job j := by rw [g.job j, h.job j]
  mem := g.mem.trans h.mem

end Cancels

/-! ## One die -/

/-- The waits of launches that the field firmware has parked on a die and that end with a cancel. -/
def Die.launchesParked (x : Die) (pl : Nat → Bool) : List Nat :=
  x.fwParked.filterMap fun y => y.2.launch.bind fun key => if pl key then some key else none

theorem State.release_launch (s : State) (key : Nat) :
    s.release (.launch key 0) = { s with jobs := (s.release (.launch key 0)).jobs } := rfl

/-- Releasing launches changes nothing but the jobs' launches. -/
theorem State.foldl_release_launch (keys : List Nat) : ∀ s : State,
    (keys.foldl (fun s key => s.release (.launch key 0)) s = { s with jobs := (keys.foldl (fun s key => s.release (.launch key 0)) s).jobs })
      ∧ ∀ j, (keys.foldl (fun s key => s.release (.launch key 0)) s).job j =
        { s.job j with launches := ((keys.foldl (fun s key => s.release (.launch key 0)) s).job j).launches } := by
  induction keys with
  | nil => exact fun s => ⟨rfl, fun _ => rfl⟩
  | cons key keys ih =>
    intro s
    obtain ⟨h1, h2⟩ := ih (s.release (.launch key 0))
    refine ⟨h1, fun j => ?_⟩
    rw [List.foldl_cons, h2 j, State.job_release]
    rfl

/-- The units of one die's tiles that p names are marked. -/
theorem State.foldl_cancelTile (p : Entry → Bool) (ks : List Nat) (hn : ks.Nodup) : ∀ s : State,
    (∀ k ∈ ks, (s.tile k).status = .idle ∨ (s.tile k).status = .running) →
    let t := ks.foldl (fun s k => if p (s.tile k).entry then s.cancelTile k else s) s
    t = { s with tiles := t.tiles } ∧ ∀ k, t.tile k =
      if k ∈ ks ∧ p (s.tile k).entry = true then (s.tile k).cancelMarked (s.ptc (tileDie k)) else s.tile k := by
  induction ks with
  | nil => exact fun s _ => ⟨rfl, fun k => by simp⟩
  | cons i ks ih =>
    intro s hs t
    obtain ⟨hi, hn⟩ := List.nodup_cons.1 hn
    let u := if p (s.tile i).entry then s.cancelTile i else s
    have hu : u = { s with tiles := u.tiles } ∧ ∀ k, u.tile k =
        if k = i ∧ p (s.tile k).entry = true then (s.tile k).cancelMarked (s.ptc (tileDie k)) else s.tile k := by
      dsimp only [u]
      split
      · next hp =>
        obtain ⟨h, hidle⟩ | h := s.cancelTile_marked i (hs i List.mem_cons_self)
        · refine ⟨by rw [h], fun k => ?_⟩
          rw [h]
          split
          · next hk => rw [hk.1, Tile.cancelMarked, if_neg (by simp [hidle])]
          · rfl
        · refine ⟨by rw [h]; rfl, fun k => ?_⟩
          rw [h, State.tile_modTile]
          by_cases hk : k = i
          · rw [if_pos hk, if_pos ⟨hk, by rw [hk]; exact hp⟩, hk]
          · rw [if_neg hk, if_neg (by simp [hk])]
      · next hp =>
        refine ⟨rfl, fun k => (if_neg ?_).symm⟩
        rintro ⟨rfl, h⟩
        exact hp h
    obtain ⟨hr, ht⟩ := ih hn u (fun k hk => by
      rw [hu.2 k, if_neg (by rintro ⟨rfl, -⟩; exact hi hk)]
      exact hs k (List.mem_cons_of_mem _ hk))
    have hp (d : Nat) : u.ptc d = s.ptc d := by rw [hu.1]; rfl
    refine ⟨hr.trans (congrArg (fun w : State => { w with tiles := t.tiles }) hu.1), fun k => (ht k).trans ?_⟩
    rw [hu.2 k, hp]
    by_cases hk : k = i
    · subst hk
      cases hpk : p (s.tile k).entry <;> simp [hi, hpk]
    · simp [hk]

/-- Where no unit waits for an event, only the waits that the field firmware has parked for launches end (R30, R48). -/
theorem State.cancelWaiters_quiet (s : State) (d : Nat) (p : Entry → Bool) (pl : Nat → Bool) (hev : (s.die d).events = []) :
    s.cancelWaiters d p pl = ((s.die d).launchesParked pl).foldl (fun s key => s.release (.launch key 0))
      (s.setDie d { s.die d with events := [], fwParked := (s.die d).fwParked.filter fun y => !(y.2.launch.any pl) }) := by
  unfold State.cancelWaiters
  simp only [hev, List.flatMap_nil, List.foldl_nil, State.modDie, List.map_nil, List.filter_nil]
  rfl

/-- The records of a die's tables that p names are marked. -/
def Die.marks (p : Entry → Bool) (x : Die) : Die :=
  { x with queues := Entry.marks p x.queues, aside := Parked.marks p x.aside, fwParked := Parked.marks p x.fwParked }

theorem State.cancelDie_eq (s : State) (d : Nat) (p : Entry → Bool) (pl : Nat → Bool) : s.cancelDie d p pl =
    (dieTiles d).foldl (fun s k => if p (s.tile k).entry then s.cancelTile k else s)
      ((s.setDie d ((s.die d).marks p)).cancelWaiters d p pl) := rfl

/-- A cancel on a die where no unit waits for an event, before it reaches the tiles. -/
theorem State.cancelWaiters_marks (s : State) (d : Nat) (p : Entry → Bool) (pl : Nat → Bool) (hev : (s.die d).events = []) :
    ∃ v w, (s.setDie d ((s.die d).marks p)).cancelWaiters d p pl = v ∧ v = { s with dies := v.dies, jobs := v.jobs }
      ∧ (∀ x, v.die x = if x = d then { (s.die d).marks p with events := [], fwParked := w } else s.die x)
      ∧ ∀ j, v.job j = { s.job j with launches := (v.job j).launches } := by
  have h1 := State.die_setDie_self s d ((s.die d).marks p)
  rw [State.cancelWaiters_quiet _ _ _ _ (by rw [h1]; exact hev), h1]
  obtain ⟨h, hj⟩ := State.foldl_release_launch (((s.die d).marks p).launchesParked pl)
    ((s.setDie d ((s.die d).marks p)).setDie d { (s.die d).marks p with
      events := [], fwParked := ((s.die d).marks p).fwParked.filter fun y => !(y.2.launch.any pl) })
  generalize ((((s.die d).marks p).launchesParked pl).foldl (fun s key => s.release (.launch key 0)) _ : State) = v at h hj
  refine ⟨v, ((s.die d).marks p).fwParked.filter fun y => !(y.2.launch.any pl), rfl, ?_, fun x => (congrArg (fun v => State.die v x) h).trans ?_, hj⟩
  · generalize v.jobs = js at h
    rw [h]
    rfl
  · show ((s.setDie d ((s.die d).marks p)).setDie d _).die x = _
    rw [State.die_setDie, State.die_setDie]
    split <;> rfl

/-- A cancel on a die where no unit waits for an event and none is past its EXIT (R30). -/
theorem State.cancelDie_cancels (s : State) (d : Nat) (p : Entry → Bool) (pl : Nat → Bool) (hev : (s.die d).events = [])
    (hst : ∀ k ∈ dieTiles d, (s.tile k).status = .idle ∨ (s.tile k).status = .running) : Cancels p [d] s (s.cancelDie d p pl) := by
  obtain ⟨v, w, ev, hv, die, job⟩ := s.cancelWaiters_marks d p pl hev
  have tile (k : Nat) : v.tile k = s.tile k := by rw [hv]; rfl
  have ptc (x : Nat) : v.ptc x = s.ptc x := by
    unfold State.ptc
    rw [die, show v.hubPtc = s.hubPtc by rw [hv]; rfl, show v.ns = s.ns by rw [hv]]
    split
    · next hx => rw [hx]; rfl
    · rfl
  obtain ⟨hr, ht⟩ := State.foldl_cancelTile p (dieTiles d) (nodup_dieTiles d) v (fun k hk => by rw [tile]; exact hst k hk)
  rw [← ev, ← State.cancelDie_eq, ev] at hr ht
  generalize s.cancelDie d p pl = t at hr ht
  have dieT (x : Nat) : t.die x = v.die x := by rw [hr]; rfl
  constructor
  case focus => rw [hr, hv]
  case tile =>
    intro k
    rw [ht k, tile, ptc]
    simp only [mem_dieTiles, List.mem_singleton]
  case die =>
    intro x
    rw [dieT, die]
    split
    · next hx => rw [hx]; rfl
    · rfl
  case queues =>
    intro x
    rw [dieT, die]
    by_cases hx : x = d
    · simp [hx, Die.marks]
    · simp [hx]
  case aside =>
    intro x
    rw [dieT, die]
    by_cases hx : x = d
    · simp [hx, Die.marks]
    · simp [hx]
  case events =>
    intro x hx
    rw [dieT, die]
    split
    · rfl
    · exact hx
  case ptc =>
    intro x
    rw [← ptc x, hr]
    rfl
  case job =>
    intro j
    have : t.job j = v.job j := by rw [hr]; rfl
    rw [this]
    exact job j
  case mem => rw [hr, hv]

/-- A cancel of units over several dies, none of which holds a unit that waits for an event or is past its EXIT. -/
theorem foldl_cancelDie_cancels (p : Entry → Bool) (pl : Nat → Bool) (ds : List Nat) : ∀ s : State,
    (∀ d ∈ ds, (s.die d).events = [] ∧ ∀ k ∈ dieTiles d, (s.tile k).status = .idle ∨ (s.tile k).status = .running) →
    Cancels p ds s (ds.foldl (fun s d => s.cancelDie d p pl) s) := by
  induction ds with
  | nil => exact fun s _ => .refl p s
  | cons d ds ih =>
    intro s h
    obtain ⟨hev, hst⟩ := h d List.mem_cons_self
    have first := s.cancelDie_cancels d p pl hev hst
    refine first.append (ih _ fun x hx => ?_)
    obtain ⟨hev, hst⟩ := h x (List.mem_cons_of_mem _ hx)
    exact ⟨first.events x hev, fun k hk => by rw [first.status]; exact hst k hk⟩

end Sys2Proof.Machine
end

section
/-! SUPPORT. CANCEL and CMPL of what the own die is home to (R293, R298). -/

namespace Sys2Proof.Machine

/-! ## The entry of a level (R26) -/

/-- A change of one level entry that keeps its key is seen where the entry is looked up. -/
theorem State.findLevel_modLevel_map (s : State) (j l i : Nat) (f : LevelEntry → LevelEntry)
    (hf : ∀ e, (f e).job = e.job ∧ (f e).level = e.level ∧ (f e).id = e.id) (l' i' : Nat) :
    (s.modLevel j l i f).findLevel j l' i' =
      (s.findLevel j l' i').map fun e => if e.job = j && e.level = l && e.id = i then f e else e := by
  unfold State.findLevel
  rw [show (s.modLevel j l i f).homeDie j = s.homeDie j from rfl, State.modLevel, State.die_modDie_self, List.find?_map]
  congr 2
  funext e
  dsimp only [Function.comp]
  split
  · rw [(hf e).1, (hf e).2.1, (hf e).2.2]
  · rfl

theorem State.findLevel_modLevel (s : State) (j l i : Nat) (f : LevelEntry → LevelEntry)
    (hf : ∀ e, (f e).job = e.job ∧ (f e).level = e.level ∧ (f e).id = e.id) :
    (s.modLevel j l i f).findLevel j l i = (s.findLevel j l i).map f := by
  rw [s.findLevel_modLevel_map j l i f hf]
  cases h : s.findLevel j l i with
  | none => rfl
  | some e => rw [Option.map_some, Option.map_some, if_pos (List.find?_some h)]

theorem Cancels.findLevel {p : Entry → Bool} {ds : List Nat} {s t : State} (h : Cancels p ds s t) (j l i : Nat) :
    t.findLevel j l i = s.findLevel j l i := by
  unfold State.findLevel State.homeDie
  rw [h.job, h.die]

/-! ## CANCEL (R30, R293) -/

/-- The units that a selector names: a level 0 id one unit of its die, a higher level those under its entry (R25, R293). -/
def State.cancelNames (s : State) (j lv id home : Nat) (e : Entry) : Bool :=
  e.cr.job = j && if lv = 0 then e.cr.unitId = id && e.die = home else isUnder s j lv id 5 1 e.cr.launch

theorem State.cancelNames_iff (s : State) (j lv id home : Nat) (e : Entry) :
    s.cancelNames j lv id home e = true ↔ Under s j lv id home e := by
  unfold State.cancelNames Under
  by_cases h : lv = 0 <;> simp [h]

/-- The entry that a selector of a level above 0 names is cancelled (R30). -/
def State.cancelLevel (s : State) (j lv id : Nat) : State :=
  if lv = 0 then s else s.modLevel j lv id fun e => { e with cancelled := true }

theorem State.cancelLevel_workOnly (s : State) (j lv id : Nat) : WorkOnly s (s.cancelLevel j lv id) := by
  unfold State.cancelLevel
  split
  · exact .refl s
  · exact s.modLevel_workOnly _ _ _ _

@[simp] theorem State.tile_cancelLevel (s : State) (j lv id k : Nat) : (s.cancelLevel j lv id).tile k = s.tile k := by
  unfold State.cancelLevel
  split <;> rfl

theorem State.die_cancelLevel (s : State) (j lv id x : Nat) :
    (s.cancelLevel j lv id).die x = { s.die x with levels := ((s.cancelLevel j lv id).die x).levels } := by
  unfold State.cancelLevel
  split
  · rfl
  · rw [State.modLevel, State.die_modDie]
    split
    · next h => rw [h]
    · rfl

/-- A cancel that names a unit, or an entry that is there (R293). -/
theorem State.cancelWork_cancels (s : State) (j lv id home : Nat) (hid : lv = 2 ∨ lv = 3 → id ≠ 0) (hx : lv ≠ 0 → (s.findLevel j lv id).isSome)
    (h : ∀ c ∈ (s.job j).dies, (s.die c).events = [] ∧ ∀ k ∈ dieTiles c, (s.tile k).status = .idle ∨ (s.tile k).status = .running) :
    Cancels (s.cancelNames j lv id home) (s.job j).dies (s.cancelLevel j lv id) (s.cancelWork j lv id home).1
      ∧ (s.cancelWork j lv id home).2 = (lv ≠ 0 || (s.job j).dies.any fun d => s.anyUnit d (s.cancelNames j lv id home)) := by
  unfold State.cancelWork
  by_cases h0 : lv = 0
  · have names : (fun e : Entry => decide (e.cr.job = j) && decide (e.cr.unitId = id) && decide (e.die = home)) = s.cancelNames j lv id home := by
      funext e
      simp [State.cancelNames, h0, Bool.and_assoc]
    rw [if_pos h0]
    dsimp only
    rw [names, State.cancelLevel, if_pos h0]
    exact ⟨foldl_cancelDie_cancels _ _ _ s h, by simp [h0]⟩
  · obtain ⟨x, hx⟩ := Option.isSome_iff_exists.1 (hx h0)
    have names : (fun e : Entry => decide (e.cr.job = j) && isUnder s j lv id 5 1 e.cr.launch) = s.cancelNames j lv id home := by
      funext e
      simp [State.cancelNames, h0]
    rw [if_neg h0, if_neg (by rintro ⟨h2, hz⟩; exact hid h2 hz), hx]
    dsimp only
    rw [names, State.cancelLevel, if_neg h0]
    refine ⟨foldl_cancelDie_cancels _ _ _ _ fun c hc => ?_, by simp [h0]⟩
    obtain ⟨hev, hst⟩ := h c hc
    refine ⟨?_, hst⟩
    rw [State.modLevel, State.die_modDie]
    split
    · next hd => rw [← hd]; exact hev
    · exact hev

/-! ## The words (R293, R298) -/

/-- A request to a home on another die that the tile reaches is sent, and the word is parked for its answer (R243, R245). -/
theorem State.askWith_away (dl : State → Nat → Request → Answer → State) (s : State) (dst : Nat) (op : HomeOp) (sink : Sink) (addr : W64)
    (opc : Nat) (hd : dst ≠ tileDie s.focus) (hr : dst ∉ (s.die (tileDie s.focus)).unreachable) :
    s.askWith dl s.focus dst op sink addr false opc .response none
      = (s.send s.focus dst op sink addr false opc).1.stall s.focus (.response s.nextId) none true := by
  unfold State.askWith
  rw [if_neg hr, if_neg hd, Bool.false_and, if_neg Bool.false_ne_true]
  cases op <;> rfl

theorem State.askWith_asks (dl : State → Nat → Request → Answer → State) (s : State) (dst : Nat) (op : HomeOp) (sink : Sink) (addr : W64)
    (opc : Nat) (hd : dst ≠ tileDie s.focus) (hr : dst ∉ (s.die (tileDie s.focus)).unreachable) :
    Asks s (s.askWith dl s.focus dst op sink addr false opc .response none) dst op := by
  rw [s.askWith_away dl dst op sink addr opc hd hr]
  obtain ⟨w, cur, on⟩ : ∃ w : Wait, ((s.send s.focus dst op sink addr false opc).1.stall s.focus (.response s.nextId) none true).cur
      = { s.cur with wait := some w } ∧ w.on = .response s.nextId := ⟨_, State.tile_modTile_self _ _ _, rfl⟩
  refine ⟨w, s.nextId, _, by rw [cur], on, (Tab.find_put _ _ _ _).trans (if_pos rfl), rfl, rfl, rfl, rfl, ?_, ?_⟩
  · rw [cur]
  · rw [cur]
    exact ⟨fun _ => rfl, fun _ => rfl, rfl, fun _ => rfl, rfl⟩

theorem State.ask_asks (s : State) (dst : Nat) (op : HomeOp) (sink : Sink) (addr : W64) (opc : Nat) (hd : dst ≠ tileDie s.focus)
    (hr : dst ∉ (s.die (tileDie s.focus)).unreachable) : Asks s (s.ask s.focus dst op sink addr false opc) dst op :=
  s.askWith_asks State.deliver dst op sink addr opc hd hr

section
variable {s : State} {d a b : BitVec 6} {lv id die : Nat} (h : Here s) (hsel : levelSel (s.g a) = some (lv, id, die)) (hlv : lv < 4)
include h hsel hlv

theorem exec_cancel_asks : exec (.cancel d a) s = .next (s.ask s.focus
    (if lv = 0 then 8 * diePkg (tileDie s.focus) + die else s.homeDie (s.jobOf s.focus)) (.cancel lv id) (.g d.toNat 8 false) (s.g a)) := by
  show execCancel d a s = _
  unfold execCancel
  dsimp only
  rw [commitThen_of_here h, hsel]
  dsimp only
  rw [if_neg (show ¬ lv = 4 by omega)]

/-- CANCEL whose home is the own die ends with what the cancel found (R293). -/
theorem exec_cancel_own (hh : (if lv = 0 then 8 * diePkg (tileDie s.focus) + die else s.homeDie (s.jobOf s.focus)) = tileDie s.focus)
    {u : State} {found : Bool} (hw : s.cancelWork (s.jobOf s.focus) lv id (tileDie s.focus) = (u, found))
    (hf : u.focus = s.focus) (hu : u.cur.status = .running) :
    exec (.cancel d a) s = .next (u.retire (u.cur.writeG d.toNat (if found then 0 else 1))) := by
  rw [exec_cancel_asks h hsel hlv, hh,
    State.ask_gives (u := u) (v := if found then 0 else 1) (reaches_of_here h) rfl _ hf hu]
  unfold State.atHome
  simp [State.ownRequest, hw]

theorem exec_cmpl_asks (h2 : 2 ≤ lv) (hid : id ≠ 0) (hb : fld (s.g b) 32 32 = 0) (hb' : fld (s.g b) 19 12 = 0) :
    exec (.cmpl d a b) s = .next (s.ask s.focus (s.homeDie (s.jobOf s.focus)) (.cmpl lv id
      (if bit (s.g b) 31 then some (8 * diePkg (tileDie s.focus) + fld (s.g b) 16 3, fld (s.g b) 0 16) else none))
      (.g d.toNat 8 false) (s.g a)) := by
  show execCmpl d a b s = _
  unfold execCmpl
  dsimp only
  rw [commitThen_of_here h, hsel]
  dsimp only
  rw [if_neg (show ¬ lv = 4 by omega), if_neg (by rintro (x | x | x | x) <;> omega), drained_of_here h]

/-- CMPL whose home is the own die, and whose event can be given, ends with its result (R298). -/
theorem exec_cmpl_own (h2 : 2 ≤ lv) (hid : id ≠ 0) (hb : fld (s.g b) 32 32 = 0) (hb' : fld (s.g b) 19 12 = 0)
    (hh : s.homeDie (s.jobOf s.focus) = tileDie s.focus) {ev : Option (Nat × Nat)}
    (hev : ev = if bit (s.g b) 31 then some (8 * diePkg (tileDie s.focus) + fld (s.g b) 16 3, fld (s.g b) 0 16) else none)
    (hroom : (s.findLevel (s.jobOf s.focus) lv id).isSome ∨ ∀ x, ev = some x → s.signalRoom x.1 (s.jobOf s.focus) x.2 1 = true)
    {u : State} {res : Nat} (hw : s.closeEntry (s.jobOf s.focus) lv id ev = (u, res)) (hf : u.focus = s.focus) (hu : u.cur.status = .running) :
    exec (.cmpl d a b) s = .next (u.retire (u.cur.writeG d.toNat (BitVec.ofNat 64 res))) := by
  rw [exec_cmpl_asks h hsel hlv h2 hid hb hb', hh, ← hev,
    State.ask_gives (u := u) (v := BitVec.ofNat 64 res) (reaches_of_here h) rfl _ hf hu]
  unfold State.atHome
  simp only [State.ownRequest, hw]
  rw [if_neg]
  · rfl
  · rintro ⟨hn, hfull⟩
    rcases hroom with hx | hx
    · rw [Option.isNone_iff_eq_none.1 hn] at hx
      exact absurd hx (by simp)
    · clear hev hw
      cases ev with
      | none => exact absurd hfull (by simp)
      | some x => exact absurd hfull (by simp [hx x rfl])

end

/-! ## The parts of the obligation -/

theorem cancels_holds : cancels := by
  intro s d a lv id die j own home h hsel hlv
  have asks : exec (.cancel d a) s = .next (s.ask s.focus home (.cancel lv id) (.g d.toNat 8 false) (s.g a)) :=
    exec_cancel_asks h hsel hlv
  refine ⟨fun hh h1 hn => ?_, ?_, fun hh hr => ⟨_, asks, s.ask_asks home _ _ _ _ hh hr⟩⟩
  · have none : s.cancelWork j lv id own = (s, false) := by
      unfold State.cancelWork
      rw [if_neg (by omega), hn, ite_self]
    exact ⟨_, exec_cancel_own h hsel hlv hh none rfl (running_of_here h), s.retire_wroteG _ _⟩
  · intro hh u
    refine ⟨_, asks, fun hf hu => ?_⟩
    have e := exec_cancel_own (d := d) h hsel hlv hh (u := u) (found := (s.cancelWork j lv id home).2)
      (by rw [show tileDie s.focus = home from hh.symm]) hf hu
    rw [Host.Outcome.next.inj (asks.symm.trans e)]
    exact u.retire_wroteG _ _

/-- The tile in focus after a word that writes g[d]. -/
theorem State.tile_retire_writeG (u : State) (d : Nat) (v : W64) (k : Nat) :
    ((u.retire (u.cur.writeG d v)).tile k).status = (u.tile k).status
      ∧ ((u.retire (u.cur.writeG d v)).tile k).cancelAt = (u.tile k).cancelAt := by
  unfold State.retire
  rw [State.tile_setTile]
  split
  · next h => simp [h, Tile.writeG, Tile.retire, Tile.retireTo, Tile.segIssue, State.cur]
  · exact ⟨rfl, rfl⟩

theorem Tile.gReg_cancelMarked (t : Tile) (now n : Nat) : (t.cancelMarked now).gReg n = t.gReg n := by
  unfold Tile.cancelMarked
  split <;> rfl

/-- Of the records that a cancel names, the flag CANC alone changes; the others stay. -/
theorem State.cancIf_names (s : State) (j lv id home : Nat) (e : Entry) :
    (Under s j lv id home e → cancIf (s.cancelNames j lv id home) e = { e with cr := { e.cr with flags := e.cr.flags ||| 0x20 } })
      ∧ (¬ Under s j lv id home e → cancIf (s.cancelNames j lv id home) e = e) := by
  rw [← State.cancelNames_iff]
  exact ⟨fun h => if_pos h, fun h => if_neg h⟩

/-- Where no unit waits for an event and none is past its EXIT, a unit is queued, set aside, or runs. -/
theorem State.anyUnit_iff {s : State} {c : Nat} (p : Entry → Bool) (hev : (s.die c).events = []) (hfw : (s.die c).fwParked = [])
    (hst : ∀ k ∈ dieTiles c, (s.tile k).status = .idle ∨ (s.tile k).status = .running) :
    s.anyUnit c p = true ↔ (∃ l ∈ (s.die c).queues, ∃ e ∈ l.2, p e = true) ∨ (∃ x ∈ (s.die c).aside, p x.2.entry = true)
      ∨ ∃ k ∈ dieTiles c, (s.tile k).status = .running ∧ p (s.tile k).entry = true := by
  have busy (k : Nat) (hk : k ∈ dieTiles c) : (s.tile k).isIdle = false ↔ (s.tile k).status = .running := by
    unfold Tile.isIdle
    rcases hst k hk with h | h <;> simp [h, TStatus.isIdle]
  unfold State.anyUnit
  simp only [hev, hfw, List.any_nil, Bool.or_false, Bool.or_eq_true, List.any_eq_true, Bool.and_eq_true, Bool.not_eq_true', or_assoc]
  refine or_congr_right (or_congr_right (exists_congr fun k => and_congr_right fun hk => ?_))
  rw [busy k hk]

theorem cancelMarks_holds : cancelMarks := by
  intro s d a lv id die j own home marked h hsel hlv hh hid hx hd found
  let p := s.cancelNames j lv id home
  obtain ⟨hc, hb⟩ := s.cancelWork_cancels j lv id home (fun h2 => hid (by omega)) (fun h0 => by obtain ⟨x, hx⟩ := hx h0; rw [hx]; rfl)
    fun c hc => ⟨(hd c hc).1, (hd c hc).2.2⟩
  obtain ⟨u, f, hw⟩ : ∃ u f, s.cancelWork j lv id home = (u, f) := ⟨_, _, rfl⟩
  rw [hw] at hc hb
  have hc : Cancels p (s.job j).dies (s.cancelLevel j lv id) u := hc
  have hb : f = (lv ≠ 0 || (s.job j).dies.any fun d => s.anyUnit d p) := hb
  have hw0 := s.cancelLevel_workOnly j lv id
  have hf : u.focus = s.focus := hc.focus.trans hw0.focus
  have status (k : Nat) : (u.tile k).status = (s.tile k).status := by rw [hc.status, State.tile_cancelLevel]
  have greg (n : Nat) : u.cur.gReg n = s.cur.gReg n := by
    rw [State.cur, hf, hc.tile, State.tile_cancelLevel]
    split
    · exact Tile.gReg_cancelMarked _ _ _
    · rfl
  have wrote : GSet s.cur (u.retire (u.cur.writeG d.toNat (if f then 0 else 1))).cur d.toNat (if f then 0 else 1) := by
    intro n
    obtain ⟨-, hg, -⟩ := u.retire_wroteG d.toNat (if f then 0 else 1)
    rw [hg n, greg]
  have hfound : found ↔ f = true := by
    rw [hb, Bool.or_eq_true, decide_eq_true_eq, List.any_eq_true]
    refine or_congr_right (exists_congr fun c => and_congr_right fun hcd => ?_)
    obtain ⟨hev, hfw, hst⟩ := hd c hcd
    rw [State.anyUnit_iff _ hev hfw hst]
    simp only [p, State.cancelNames_iff]
  refine ⟨_, exec_cancel_own h hsel hlv hh (by rw [show tileDie s.focus = home from hh.symm]; exact hw) hf
    (by rw [State.cur, hf, status]; exact running_of_here h), hf, fun hn => ?_, fun hn => ?_, fun x h0 hx => ?_,
     fun c hcd => ⟨fun q => ?_, fun i x hi hl => ?_, fun k hk => ?_⟩⟩
  · rw [hfound] at hn
    simpa only [hn, if_true] using wrote
  · rw [hfound, Bool.not_eq_true] at hn
    simpa only [hn, Bool.false_eq_true, if_false] using wrote
  · show u.findLevel j lv id = _
    rw [hc.findLevel, State.cancelLevel, if_neg h0]
    refine (s.findLevel_modLevel j lv id (fun e => { e with cancelled := true }) fun e => ⟨rfl, rfl, rfl⟩).trans ?_
    rw [hx]
    rfl
  · show List.Forall₂ marked (s.queueAt c q) (u.queueAt c q)
    have e : u.queueAt c q = (s.queueAt c q).map (cancIf p) := by
      unfold State.queueAt
      rw [hc.queues, if_pos (by exact hcd), State.die_cancelLevel]
      unfold Tab.get Entry.marks
      rw [Tab.find_map _ fun _ => List.map (cancIf p)]
      cases Tab.find? (s.die c).queues q <;> rfl
    rw [e, List.forall₂_map_right_iff, List.forall₂_same]
    exact fun e _ => s.cancIf_names j lv id home e
  · refine ⟨x.cancIf p, ?_, ?_⟩
    · show Tab.find? (u.die c).aside i = _
      rw [hc.aside, if_pos (by exact hcd), State.die_cancelLevel]
      unfold Parked.marks
      rw [Tab.find_map _ fun _ => Parked.cancIf p]
      dsimp only
      rw [hi]
      rfl
    · have e : (x.cancIf p).entry = cancIf p x.entry := by
        unfold Parked.cancIf
        rw [hl]
        rfl
      rw [e]
      exact s.cancIf_names j lv id home x.entry
  · obtain ⟨h1, h2⟩ := u.tile_retire_writeG d.toNat (if f then 0 else 1) k
    have on : tileDie k = c := mem_dieTiles.1 hk
    rw [h1, h2, status]
    refine ⟨rfl, fun hr hu => ?_, fun hu => ?_⟩
    · rw [hc.tile, State.tile_cancelLevel, if_pos ⟨by rw [on]; exact hcd, (s.cancelNames_iff _ _ _ _ _).2 hu⟩, hw0.ptc, on,
        Tile.cancelMarked, if_pos hr]
    · rw [hc.tile, State.tile_cancelLevel, if_neg fun hp => hu ((s.cancelNames_iff _ _ _ _ _).1 hp.2)]

theorem completes_holds : completes := by
  intro s d a b lv id die j own home ev h hsel h2 hlv hid hb hb'
  have asks : exec (.cmpl d a b) s = .next (s.ask s.focus home (.cmpl lv id ev) (.g d.toNat 8 false) (s.g a)) :=
    exec_cmpl_asks h hsel hlv h2 hid hb hb'
  have own_ (hh : home = own) (hroom : (s.findLevel j lv id).isSome ∨ ∀ x, ev = some x → s.signalRoom x.1 j x.2 1 = true)
      {u : State} {res : Nat} (hw : s.closeEntry j lv id ev = (u, res)) (hf : u.focus = s.focus) (hu : u.cur.status = .running) :
      WroteG u (s.ask s.focus home (.cmpl lv id ev) (.g d.toNat 8 false) (s.g a)) d.toNat (BitVec.ofNat 64 res) := by
    rw [Host.Outcome.next.inj (asks.symm.trans (exec_cmpl_own h hsel hlv h2 hid hb hb' hh rfl hroom hw hf hu))]
    exact u.retire_wroteG _ _
  refine ⟨fun e hh he hc => ⟨_, asks, ?_⟩, fun hh hn hv => ⟨_, asks, ?_⟩, ?_, ?_, fun hh hr => ⟨_, asks, s.ask_asks home _ _ _ _ hh hr⟩⟩
  · refine own_ hh (.inl (by rw [he]; rfl)) (u := s) ?_ rfl (running_of_here h)
    unfold State.closeEntry
    rw [he]
    exact if_pos hc
  · refine own_ hh (.inr (by simp [hv])) (u := s) ?_ rfl (running_of_here h)
    unfold State.closeEntry
    rw [hn, hv]
  · intro e hh he hc u
    refine ⟨_, asks, fun hf hu => own_ hh (.inl (by rw [he]; rfl)) (u := u) ?_ hf hu⟩
    unfold State.closeEntry
    rw [he]
    exact if_neg (by simp [hc])
  · intro x hh hn hv hl hr u
    refine ⟨_, asks, fun hf hu => own_ hh (.inr fun y hy => ?_) (u := u) ?_ hf hu⟩
    · cases hv.symm.trans hy
      exact hr
    · unfold State.closeEntry
      rw [hn, hv]

theorem levelSelectors_holds : levelSelectors := by
  refine ⟨fun v => ?_, fun s d a b ha => ?_⟩
  · unfold levelSel
    constructor
    · simp only [ite_eq_left_iff, reduceCtorEq, imp_false, not_not]
      rfl
    · intro h
      exact if_neg fun hc => h (if_pos hc)
  · have cancel : exec (.cancel d a) s = execCancel d a s := rfl
    have cmpl : exec (.cmpl d a b) s = execCmpl d a b s := rfl
    rw [cancel, cmpl]
    unfold execCancel execCmpl
    rw [s.commitThen_now _ ha, s.commitThen_now _ ha]
    refine ⟨fun hn => ?_, fun hn h4 => ?_⟩
    · rw [hn]
      exact ⟨rfl, rfl⟩
    · have e : levelSel (s.g a) = some (4, fld (s.g a) 0 16, fld (s.g a) 24 3) := by
        unfold levelSel at hn ⊢
        rw [if_neg fun hc => hn (if_pos hc), h4]
      rw [e]
      exact ⟨rfl, rfl⟩

/-- Settles O25: the selector's checks, what a cancel marks and finds, and the entry that CMPL closes. -/
theorem cancelWords : Obligations.CancelWords := by
  unfold Obligations.CancelWords
  exact ⟨cancels_holds, cancelMarks_holds, completes_holds, levelSelectors_holds⟩

end Sys2Proof.Machine
end

section
/-! SUPPORT. The field firmware's work: parked waits, held signals, and the end and the cancel of a job. -/

namespace Sys2Proof.Machine

variable {s : State}

/-! ## Parked waits (R46 to R48) -/

/-- Releasing a waiter changes the ready queues alone of a die. -/
theorem State.die_release (s : State) (w : Waiter) (x : Nat) : ∃ q, (s.release w).die x = { s.die x with queues := q } := by
  cases w with
  | unit e thr =>
    show ∃ q, (s.enqueue e.die e).die x = _
    rw [State.enqueue_eq, State.die_preemptFor, State.setQueueAt, State.die_modDie]
    split
    · next h => exact ⟨_, by rw [h]⟩
    · exact ⟨_, rfl⟩
  | launch key thr => exact ⟨_, rfl⟩

theorem State.die_foldl_release (ws : List Waiter) (x : Nat) : ∀ s : State,
    ∃ q, (ws.foldl (fun s w => s.release w) s).die x = { s.die x with queues := q } := by
  induction ws with
  | nil => exact fun s => ⟨_, rfl⟩
  | cons w ws ih =>
    intro s
    obtain ⟨q, hq⟩ := s.die_release w x
    obtain ⟨q', hq'⟩ := ih (s.release w)
    exact ⟨q', by rw [List.foldl_cons, hq', hq]⟩

section
variable {d i : Nat} {x : Parked} (hx : Tab.find? (s.die d).fwParked i = some x) (hl : x.launch = none) (hc : x.entry.cr.isCanc = false)
include hx hl hc

/-- A die's parked waits without one of them. -/
def State.unpark (s : State) (d i : Nat) : State := s.modDie d fun x => { x with fwParked := Tab.erase x.fwParked i }

theorem State.represent_eq : s.represent d i =
    if x.thr ≤ (s.eventAt d x.event).count then (s.unpark d i).enqueue x.entry.die x.entry
    else if s.waiterRoom d x.event then (s.unpark d i).setEvent d x.event
      { s.eventAt d x.event with waiters := (s.eventAt d x.event).waiters ++ [.unit x.entry x.thr] }
    else s := by
  unfold State.represent
  simp only [hx, hl, hc, Option.isNone_none, Bool.and_false, Bool.false_eq_true, if_false]
  rfl

end

theorem State.find_unpark (s : State) (d i : Nat) : Tab.find? ((s.unpark d i).die d).fwParked i = none := by
  rw [State.unpark, State.die_modDie_self]
  exact (Tab.find_erase _ _ _).trans (if_pos rfl)

theorem State.queueAt_unpark (s : State) (d i x p : Nat) : (s.unpark d i).queueAt x p = s.queueAt x p := by
  unfold State.queueAt State.unpark
  rw [State.die_modDie]
  split
  · next h => rw [h]
  · rfl

/-! ## Held signals (R48) -/

/-- No closed level entry is without work outstanding. -/
def State.levelsBusy (s : State) : Prop := ∀ x ∈ s.dies, ∀ y ∈ x.2.levels, y.closed = true → y.count ≠ 0

theorem State.levelsBusy.modDie (h : s.levelsBusy) (d : Nat) (f : Die → Die) (hf : (f (s.die d)).levels = (s.die d).levels) :
    (s.modDie d f).levelsBusy := by
  intro x hx
  have hx : x ∈ Tab.put s.dies d (f (s.die d)) := hx
  rcases Tab.mem_insert _ _ _ _ hx with rfl | hx
  · dsimp only
    rw [hf]
    unfold State.die Tab.get
    cases hd : Tab.find? s.dies d with
    | none => exact fun y hy => absurd hy List.not_mem_nil
    | some v => exact h _ (Tab.mem_of_find hd)
  · exact h x (List.mem_filter.1 hx).1

theorem State.levelsBusy.release (h : s.levelsBusy) (w : Waiter) : (s.release w).levelsBusy := by
  cases w with
  | unit e thr =>
    obtain ⟨-, hd, -⟩ := (s.setQueueAt e.die e.cr.prio (s.queueAt e.die e.cr.prio ++ [e.joining (s.ptc e.die)])).preemptFor_only
      e.die (e.joining (s.ptc e.die)).cr
    show ∀ x ∈ (s.enqueue e.die e).dies, _
    rw [State.enqueue_eq, hd]
    exact h.modDie _ _ rfl
  | launch key thr => exact h

theorem State.levelsBusy.foldl_release (ws : List Waiter) : ∀ {s : State}, s.levelsBusy →
    (ws.foldl (fun s w => s.release w) s).levelsBusy := by
  induction ws with
  | nil => exact id
  | cons w ws ih => exact fun h => ih (h.release w)

theorem State.signal_room (s : State) (d j name n : Nat) (h : s.eventRoom d (evKey j name) = true) : s.signal d j name n =
    (splitWaiters (min ((s.eventAt d (evKey j name)).count + n) evMax) (s.eventAt d (evKey j name)).waiters).1.foldl
      (fun s w => s.release w) (s.setEvent d (evKey j name)
        { count := min ((s.eventAt d (evKey j name)).count + n) evMax
          waiters := (splitWaiters (min ((s.eventAt d (evKey j name)).count + n) evMax) (s.eventAt d (evKey j name)).waiters).2 }) := by
  unfold State.signal
  rw [if_neg (by simp [h])]
  rfl

theorem State.levelsBusy.signal (hs : s.levelsBusy) {d j name n : Nat} (h : s.eventRoom d (evKey j name) = true) :
    (s.signal d j name n).levelsBusy := by
  rw [s.signal_room d j name n h]
  exact State.levelsBusy.foldl_release _ (hs.modDie _ _ rfl)

theorem State.pending_signal {d j name n : Nat} (h : s.eventRoom d (evKey j name) = true) :
    ((s.signal d j name n).die d).pending = (s.die d).pending := by
  rw [s.signal_room d j name n h]
  obtain ⟨q, hq⟩ := State.die_foldl_release (splitWaiters (min ((s.eventAt d (evKey j name)).count + n) evMax)
    (s.eventAt d (evKey j name)).waiters).1 d (s.setEvent d (evKey j name)
      { count := min ((s.eventAt d (evKey j name)).count + n) evMax
        waiters := (splitWaiters (min ((s.eventAt d (evKey j name)).count + n) evMax) (s.eventAt d (evKey j name)).waiters).2 })
  rw [hq, State.setEvent, State.die_modDie_self]

/-- With no request kept at a home, and no closed entry without work outstanding, nothing else goes on (R48). -/
theorem State.retries_idle (hr : ∀ q ∈ s.reqs, q.2.kept = false) (hl : s.levelsBusy) (d : Nat) :
    (s.retrySignals d).retryLevels d = s := by
  have signals : s.retrySignals d = s := by
    unfold State.retrySignals
    rw [List.filter_eq_nil_iff.2 fun q hq => by simp [hr q hq]]
    rfl
  have levels : (s.dies.flatMap fun x => x.2.levels.filter fun e => e.closed && e.count = 0 && (e.event.any fun v => v.1 = d)) = [] := by
    rw [List.flatMap_eq_nil_iff]
    intro x hx
    rw [List.filter_eq_nil_iff]
    intro e he hc
    simp only [Bool.and_eq_true, decide_eq_true_eq] at hc
    exact hl x hx e he hc.1.1 hc.1.2
  rw [signals, State.retryLevels, levels]
  rfl

/-- A held signal that finds an entry is added to its event, and nothing else is (R48). -/
theorem State.applyPending_room {d : Nat} {g : Signal} {r : List Signal} (hp : (s.die d).pending = g :: r)
    (hr : ∀ q ∈ s.reqs, q.2.kept = false) (hl : s.levelsBusy) (h : s.eventRoom d (evKey g.job g.name) = true) :
    s.applyPending d = (s.modDie d fun x => { x with pending := r }).signal d g.job g.name g.n := by
  have room : (s.modDie d fun x => { x with pending := r }).eventRoom d (evKey g.job g.name) = true := by
    rw [← h]
    exact State.eventRoom_congr (by rw [State.die_modDie_self]) (by rw [State.die_modDie_self]) _
  unfold State.applyPending
  rw [hp]
  dsimp only
  rw [if_pos h]
  refine State.retries_idle ?_ ((hl.modDie _ _ rfl).signal room) d
  rw [(State.signal_workOnly _ _ _ _ _).reqs]
  exact hr

/-! ## The end of a job (R25) -/

theorem State.findLevel_congr {t : State} {j : Nat} (hh : t.homeDie j = s.homeDie j)
    (hl : (t.die (s.homeDie j)).levels = (s.die (s.homeDie j)).levels) (l i : Nat) : t.findLevel j l i = s.findLevel j l i := by
  unfold State.findLevel
  rw [hh, hl]

/-- Opening a job's entry leaves one that is there, and adds one that is not. -/
theorem State.openJob_some {j : Nat} {x : LevelEntry} (h : s.findLevel j 4 j = some x) : s.openJob j = s := by
  unfold State.openJob openLevel
  rw [h]

theorem State.openJob_none {j : Nat} (h : s.findLevel j 4 j = none) :
    (s.openJob j).findLevel j 4 j = some { job := j, level := 4, id := j } ∧ (s.openJob j).job j = s.job j := by
  have e : s.openJob j = s.modDie (s.homeDie j) fun x => { x with levels := x.levels ++ [{ job := j, level := 4, id := j }] } := by
    unfold State.openJob openLevel
    rw [h]
    rfl
  rw [e]
  refine ⟨?_, rfl⟩
  unfold State.findLevel at h ⊢
  rw [show State.homeDie (s.modDie _ _) j = s.homeDie j from rfl, State.die_modDie_self, List.find?_append, h]
  simp

/-- The job with a mark of its own. -/
def State.markJob (s : State) (j : Nat) (f : Job → Job) : State := s.setJob j (f (s.job j))

theorem State.findLevel_markJob (s : State) (j : Nat) (f : Job → Job) (hf : (f (s.job j)).dies = (s.job j).dies) (l i : Nat) :
    (s.markJob j f).findLevel j l i = s.findLevel j l i := by
  refine State.findLevel_congr (s := s) (t := s.markJob j f) ?_ rfl l i
  unfold State.homeDie State.markJob
  rw [State.job_setJob, if_pos rfl, hf]

/-- A closed job's state before its entry is looked at: the job and its entry are closed. -/
def State.closed (s : State) (j : Nat) : State :=
  ((s.openJob j).markJob j fun x => { x with closed := true }).modLevel j 4 j fun e => { e with closed := true }

theorem State.closeJob_eq {j : Nat} (h : (s.job j).placed = true) : s.closeJob j = levelCheck (s.closed j) j 5 4 j := by
  unfold State.closeJob
  rw [h]
  rfl

theorem State.findLevel_closed {j : Nat} {x : LevelEntry} (h : (s.openJob j).findLevel j 4 j = some x) :
    (s.closed j).findLevel j 4 j = some { x with closed := true } := by
  refine (State.findLevel_modLevel _ j 4 j (fun e => { e with closed := true }) fun _ => ⟨rfl, rfl, rfl⟩).trans ?_
  rw [State.findLevel_markJob _ _ _ rfl, h]
  rfl

theorem State.job_closed {j : Nat} (h : (s.openJob j).job j = s.job j) : (s.closed j).job j = { s.job j with closed := true } := by
  show ((s.openJob j).markJob j fun x => { x with closed := true }).job j = _
  rw [State.markJob, State.job_setJob, if_pos rfl, h]

/-- A closed job with nothing outstanding ends (R25, R27). -/
theorem State.closeJob_ends {j : Nat} (hp : (s.job j).placed = true) {x : LevelEntry} (hx : (s.openJob j).findLevel j 4 j = some x)
    (ho : (s.openJob j).job j = s.job j) (hc : x.count = 0) (he : x.event = none) :
    ((s.closeJob j).job j).placed = false ∧ ((s.closeJob j).job j).dies = (s.job j).dies := by
  rw [State.closeJob_eq hp, levelCheck_some (State.findLevel_closed hx), if_pos (by simp [hc, State.takesEvent, he]), if_pos rfl]
  refine ⟨?_, ?_⟩
  · rw [State.endJob_eq, State.job_setJob, if_pos rfl]
  · rw [(State.endJob_tilesKept _ j).dies, (State.endLevel_tilesKept _ j 4 j _).dies, State.job_closed ho]

/-! ## The cancel of a job (R30) -/

/-- The job is marked cancelled, and its launches no longer wait. -/
def Job.cancelMarked (x : Job) : Job := { x with cancelled := true, launches := x.launches.map fun l => { l with waiting := false } }

/-- A cancelled job's events, held signals and parked launches leave one die. -/
def State.dropEvents (j : Nat) (s : State) (d : Nat) : State := s.modDie d fun x =>
  { x with events := x.events.filter fun e => e.1 / 65536 ≠ j, pending := x.pending.filter fun p => p.job ≠ j
           fwParked := x.fwParked.filter fun p => !(p.2.launch.isSome && p.2.event / 65536 = j) }

theorem levels_foldl_dropEvents (j : Nat) (ds : List Nat) : ∀ s : State,
    (∀ d, ((ds.foldl (State.dropEvents j) s).die d).levels = (s.die d).levels)
      ∧ (∀ k, (ds.foldl (State.dropEvents j) s).tile k = s.tile k) ∧ ∀ i, (ds.foldl (State.dropEvents j) s).job i = s.job i := by
  induction ds with
  | nil => exact fun s => ⟨fun _ => rfl, fun _ => rfl, fun _ => rfl⟩
  | cons c ds ih =>
    intro s
    obtain ⟨h1, h2, h3⟩ := ih (State.dropEvents j s c)
    refine ⟨fun d => (h1 d).trans ?_, h2, h3⟩
    rw [State.dropEvents, State.die_modDie]
    split
    · next h => rw [h]
    · rfl

theorem State.cancelJob_eq {j : Nat} {x : LevelEntry} (hp : (s.job j).placed = true) (hx : s.findLevel j 4 j = some x) :
    let u := ((s.markJob j Job.cancelMarked).cancelWork j 4 j 0).1
    let v := (u.job j).dies.foldl (State.dropEvents j) u
    s.cancelJob j = (((v.die (v.homeDie j)).levels.filter fun e => e.job = j && (e.level = 2 || e.level = 3)).map fun e => (e.level, e.id)).foldl
      (fun s e => levelCheck (s.modLevel j e.1 e.2 fun x => { x with closed := true }) j 5 e.1 e.2) v := by
  unfold State.cancelJob
  rw [hp, State.openJob_some hx]
  rfl

theorem isUnder_congr {t : State} {j tl ti : Nat} (h : ∀ l i, t.findLevel j l i = s.findLevel j l i) (fuel : Nat) :
    ∀ l i, isUnder t j tl ti fuel l i = isUnder s j tl ti fuel l i := by
  induction fuel with
  | zero => exact fun _ _ => rfl
  | succ fuel ih =>
    intro l i
    unfold isUnder
    simp only [h, ih]

/-- What cancelling a job makes of its mark, its entry and its tiles (R30). -/
theorem State.cancelJob_spec {j : Nat} {x : LevelEntry} (hp : (s.job j).placed = true) (hx : s.findLevel j 4 j = some x)
    (hl : ∀ y ∈ (s.die (s.homeDie j)).levels, y.job = j → y.level ≠ 2 ∧ y.level ≠ 3)
    (hd : ∀ c ∈ (s.job j).dies, (s.die c).events = [] ∧ ∀ k ∈ dieTiles c, (s.tile k).status = .idle ∨ (s.tile k).status = .running) :
    ((s.cancelJob j).job j).cancelled = true ∧ (s.cancelJob j).findLevel j 4 j = some { x with cancelled := true }
      ∧ ∀ k, tileDie k ∈ (s.job j).dies → s.cancelNames j 4 j 0 (s.tile k).entry = true →
        (s.cancelJob j).tile k = (s.tile k).cancelMarked (s.ptc (tileDie k)) := by
  let w := s.markJob j Job.cancelMarked
  have wjob : w.job j = (s.job j).cancelMarked := (State.job_setJob _ _ _ _).trans (if_pos rfl)
  have wlev (l i : Nat) : w.findLevel j l i = s.findLevel j l i := s.findLevel_markJob j Job.cancelMarked rfl l i
  have whome : w.homeDie j = s.homeDie j := by
    unfold State.homeDie
    rw [wjob]
    rfl
  have names : w.cancelNames j 4 j 0 = s.cancelNames j 4 j 0 := by
    funext e
    unfold State.cancelNames
    rw [isUnder_congr wlev]
  obtain ⟨hc, -⟩ := w.cancelWork_cancels j 4 j 0 (by omega) (fun _ => by rw [wlev, hx]; rfl)
    (by rw [wjob]; exact hd)
  rw [names, wjob] at hc
  have mark : w.cancelLevel j 4 j = w.modLevel j 4 j fun e => { e with cancelled := true } := if_neg (by decide)
  obtain ⟨v1, v2, v3⟩ := levels_foldl_dropEvents j ((w.cancelWork j 4 j 0).1.job j).dies (w.cancelWork j 4 j 0).1
  have e := State.cancelJob_eq hp hx
  change s.cancelJob j = _ at e
  generalize (w.cancelWork j 4 j 0).1 = u at hc v1 v2 v3 e
  generalize (u.job j).dies.foldl (State.dropEvents j) u = v at v1 v2 v3 e
  have home : v.homeDie j = s.homeDie j := by
    rw [← whome]
    unfold State.homeDie
    rw [v3, hc.job, mark]
    rfl
  have lev (c : Nat) : (v.die c).levels = ((w.cancelLevel j 4 j).die c).levels := by rw [v1, hc.die]
  have none : (v.die (v.homeDie j)).levels.filter (fun e => e.job = j && (e.level = 2 || e.level = 3)) = [] := by
    rw [lev, home, mark, State.modLevel, whome, State.die_modDie_self, List.filter_eq_nil_iff]
    intro y hy hy'
    obtain ⟨z, hz, rfl⟩ := List.mem_map.1 hy
    have hz := hl z hz
    split at hy' <;> simp at hy' <;> omega
  rw [none] at e
  change s.cancelJob j = v at e
  rw [e]
  refine ⟨?_, ?_, fun k hk hn => ?_⟩
  · rw [v3, hc.job, mark]
    exact congrArg Job.cancelled wjob
  · rw [State.findLevel_congr (s := w.cancelLevel j 4 j) (t := v) (by rw [home, mark]; exact whome.symm) (lev _), mark]
    refine (State.findLevel_modLevel w j 4 j (fun e => { e with cancelled := true }) fun _ => ⟨rfl, rfl, rfl⟩).trans ?_
    rw [wlev, hx]
    rfl
  · rw [v2, hc.tile, if_pos]
    · rw [mark, (State.modLevel_workOnly _ _ _ _ _).ptc]
      rfl
    · rw [mark]
      exact ⟨hk, hn⟩

/-- Settles O46: each of the firmware's steps, from the state that its own checks reach. -/
theorem firmwareWork : Obligations.FirmwareWork := by
  unfold Obligations.FirmwareWork
  intro s d i j
  refine ⟨fun x hx hl hc => ?_, fun g r hp hr hl => ?_, fun hp => ⟨fun h => ?_, fun x hx hc => ?_, fun x hx hl hd => ?_⟩⟩
  · intro e
    have ex : exec (.eventWaitRepresent d i) s = .next (s.represent d i) := rfl
    rw [ex, State.represent_eq hx hl hc]
    refine ⟨fun hn => ?_, fun hn hr => ?_, fun hn hr => ?_⟩
    · rw [if_pos hn]
      refine ⟨_, x.entry.joining ((s.unpark d i).ptc x.entry.die), rfl, ?_, ?_, rfl, rfl⟩
      · obtain ⟨q, hq⟩ := (s.unpark d i).die_release (.unit x.entry 0) d
        have hq : ((s.unpark d i).enqueue x.entry.die x.entry).die d = { (s.unpark d i).die d with queues := q } := hq
        rw [hq]
        exact s.find_unpark d i
      · rw [State.queueAt_enqueue, if_pos ⟨rfl, rfl⟩, State.queueAt_unpark]
    · rw [if_neg (Nat.not_le.2 hn), if_pos hr]
      refine ⟨_, rfl, ?_, State.eventAt_setEvent_self _ _ _ _⟩
      rw [State.setEvent, State.die_modDie_self]
      exact s.find_unpark d i
    · rw [if_neg (Nat.not_le.2 hn), hr]
      rfl
  · intro key e c
    have ex : exec (.pendingSignalApply d) s = .next (s.applyPending d) := rfl
    rw [ex]
    refine ⟨fun h => ⟨_, rfl, ?_⟩, fun h => ?_⟩
    · have ev : (s.modDie d fun x => { x with pending := r }).eventAt d = s.eventAt d := by
        funext k
        rw [State.eventAt, State.die_modDie_self]
        rfl
      have room : (s.modDie d fun x => { x with pending := r }).eventRoom d key = true :=
        (State.eventRoom_congr (by rw [State.die_modDie_self]) (by rw [State.die_modDie_self]) _).trans h
      rw [State.applyPending_room hp hr hl h, State.pending_signal room, State.eventAt_signal _ _ _ _ _ (.inr room), ev,
        State.die_modDie_self]
      exact ⟨rfl, rfl⟩
    · unfold State.applyPending
      rw [hp]
      dsimp only
      rw [if_neg (by simp [key] at h; simp [h])]
  · have ex : exec (.jobClose j) s = .next (s.closeJob j) := rfl
    rw [ex]
    rcases h with h | ⟨x, h, hc, he⟩
    · obtain ⟨h1, h2⟩ := State.openJob_none h
      exact ⟨_, rfl, State.closeJob_ends hp h1 h2 rfl rfl⟩
    · have ho := State.openJob_some h
      exact ⟨_, rfl, State.closeJob_ends hp (by rw [ho]; exact h) (by rw [ho]) hc he⟩
  · have ho := State.openJob_some hx
    have lev : (s.closed j).findLevel j 4 j = some { x with closed := true } := State.findLevel_closed (by rw [ho]; exact hx)
    have ex : exec (.jobClose j) s = .next (s.closed j) := by
      show Host.Outcome.next (s.closeJob j) = _
      rw [State.closeJob_eq hp, levelCheck_busy lev (.inr hc)]
    exact ⟨_, ex, State.job_closed (by rw [ho]), lev⟩
  · obtain ⟨h1, h2, h3⟩ := State.cancelJob_spec hp hx hl hd
    refine ⟨s.cancelJob j, rfl, h1, h2, fun c hcd k hk hr hj hu => ?_⟩
    have on : tileDie k = c := mem_dieTiles.1 hk
    rw [h3 k (by rw [on]; exact hcd) ((s.cancelNames_iff _ _ _ _ _).2 ⟨hj, by rw [if_neg (by decide)]; exact hu⟩), Tile.cancelMarked, if_pos hr]
    rfl

end Sys2Proof.Machine
end

section
/-! SUPPORT. Registration of units (R36 to R38): each joins the tail of its level's queue on the die that it is placed on. -/

namespace Sys2Proof.Machine

variable {s t u : State}

/-! ## The die of a unit (R37) -/

theorem mem_of_foldl_pick (le : Nat → Nat → Bool) (ds : List Nat) : ∀ b : Option Nat, ∀ d,
    ds.foldl (fun b x => match b with
      | none => some x
      | some y => if le x y then some x else some y) b = some d → b = some d ∨ d ∈ ds := by
  induction ds with
  | nil => exact fun b d h => .inl h
  | cons x ds ih =>
    intro b d h
    rcases ih _ d h with h | h
    · cases b with
      | none =>
        cases h
        exact .inr List.mem_cons_self
      | some y =>
        dsimp only at h
        split at h
        · cases h
          exact .inr List.mem_cons_self
        · exact .inl h
    · exact .inr (List.mem_cons_of_mem _ h)

/-- A unit is placed on a die that its record and the job's placement allow (R37). -/
theorem State.mem_of_placeDie {pkg d : Nat} {reg : Option Nat} {r : Rec} (h : s.placeDie pkg reg r = some d) : d ∈ s.maskDies pkg r := by
  unfold State.placeDie at h
  extract_lets ds idle at h
  have sub : ∀ x ∈ ds, x ∈ s.maskDies pkg r := fun x hx => (List.mem_filter.1 hx).1
  have subIdle : ∀ x ∈ idle, x ∈ s.maskDies pkg r := fun x hx => sub x (List.mem_filter.1 hx).1
  have least (h : ds.foldl (fun b x => match b with
      | none => some x
      | some y =>
        if (Tab.get [] (s.die x).queues r.prio).length < (Tab.get [] (s.die y).queues r.prio).length then some x else some y) none = some d) :
      d ∈ s.maskDies pkg r := by
    rcases mem_of_foldl_pick (fun x y => (Tab.get [] (s.die x).queues r.prio).length < (Tab.get [] (s.die y).queues r.prio).length) ds none d
      (by simpa using h) with h | h
    · cases h
    · exact sub d h
  cases reg with
  | none =>
    dsimp only at h
    split at h
    · exact subIdle d (List.mem_of_head? h)
    · exact least h
  | some x =>
    dsimp only at h
    split at h
    · next hx =>
      cases h
      exact subIdle _ hx
    · split at h
      · exact subIdle d (List.mem_of_head? h)
      · exact least h

/-! ## One unit -/

/-- A unit of a launch is counted, and a unit id of die d is taken (R38). -/
def State.counted (s : State) (r : Rec) (launch d : Nat) : State :=
  (s.bump.modJobDie d r.job fun x =>
    { x with unitsUsed := pickFree (s.jobDie d r.job).unitsUsed Config.unitIds s.fresh :: x.unitsUsed }).modLevel r.job 1 launch
      fun e => { e with count := e.count + 1 }

/-- The record of a registered unit (R31, R33). -/
def State.unitEntry (s : State) (r : Rec) (launch i d : Nat) : Entry :=
  { cr := { r with launch := launch
                   unit := BitVec.ofNat 16 (r.evDie * 8192 + pickFree (s.jobDie d r.job).unitsUsed Config.unitIds s.fresh) }
    index := i, die := d }

theorem State.placeUnit_some {pkg d : Nat} {reg : Option Nat} {r : Rec} (launch i : Nat) (h : s.placeDie pkg reg r = some d) :
    s.placeUnit pkg reg r launch i = some (s.counted r launch d, d, s.unitEntry r launch i d) := by
  unfold State.placeUnit
  rw [h]
  rfl

theorem State.counted_workOnly (s : State) (r : Rec) (launch d : Nat) : WorkOnly s (s.counted r launch d) :=
  (s.bump_workOnly.trans (State.modJobDie_workOnly _ _ _ _)).trans (State.modLevel_workOnly _ _ _ _ _)

theorem ancestorCancelled_congr {j : Nat} (h : ∀ l i, (t.findLevel j l i).map (fun e => (e.cancelled, e.parent))
      = (s.findLevel j l i).map fun e => (e.cancelled, e.parent)) (fuel : Nat) :
    ∀ l i, ancestorCancelled t j fuel l i = ancestorCancelled s j fuel l i := by
  induction fuel with
  | zero => exact fun _ _ => rfl
  | succ fuel ih =>
    intro l i
    have h := h l i
    unfold ancestorCancelled
    cases ht : t.findLevel j l i with
    | none =>
      cases hs : s.findLevel j l i with
      | none => rfl
      | some e =>
        rw [ht, hs] at h
        cases h
    | some e' =>
      cases hs : s.findLevel j l i with
      | none =>
        rw [ht, hs] at h
        cases h
      | some e =>
        rw [ht, hs, Option.map_some, Option.map_some, Option.some_inj, Prod.mk.injEq] at h
        simp only [h.1, h.2, ih]

/-- The level entry of a job, in a state where the home die's table is as before. -/
theorem State.findLevel_sameWork (h : SameWork s t) (j l i : Nat) : t.findLevel j l i = s.findLevel j l i := by
  obtain ⟨-, hj, hl, -⟩ := h
  exact State.findLevel_congr (homeDie_of_jobs hj j) (hl _) l i

theorem State.findLevel_counted (s : State) (r : Rec) (launch d l i : Nat) : (s.counted r launch d).findLevel r.job l i =
    (s.findLevel r.job l i).map fun e =>
      if e.job = r.job && e.level = 1 && e.id = launch then { e with count := e.count + 1 } else e := by
  refine (State.findLevel_modLevel_map _ r.job 1 launch (fun e => { e with count := e.count + 1 }) (fun _ => ⟨rfl, rfl, rfl⟩) l i).trans ?_
  refine congrArg _ (State.findLevel_congr (s := s) ?_ ?_ l i)
  · rfl
  · rw [State.modJobDie, State.die_modDie]
    split
    · next h => rw [h]; rfl
    · rfl

theorem ancestorCancelled_counted (s : State) (r : Rec) (launch d fuel l i : Nat) :
    ancestorCancelled (s.counted r launch d) r.job fuel l i = ancestorCancelled s r.job fuel l i := by
  refine ancestorCancelled_congr (fun l i => ?_) fuel l i
  rw [State.findLevel_counted, Option.map_map]
  congr 1
  funext e
  dsimp only [Function.comp]
  split <;> rfl

section
variable {pkg launch i : Nat} {reg : Option Nat} {r : Rec} (hc : ancestorCancelled s r.job 5 1 launch = false)
include hc

/-- A unit of a launch that nothing cancels joins the tail of its queue (R36, R38). -/
theorem State.registerUnit_placed {d : Nat} (h : s.placeDie pkg reg r = some d) (hq : s.queueFull d r.prio = false) :
    s.registerUnit pkg reg r launch i = some ((s.counted r launch d).enqueue d (s.unitEntry r launch i d)) := by
  unfold State.registerUnit
  rw [State.placeUnit_some launch i h]
  dsimp only
  rw [ancestorCancelled_counted, hc, hq]
  rfl

theorem State.registerUnit_inv (h : s.registerUnit pkg reg r launch i = some t) :
    ∃ d, s.placeDie pkg reg r = some d ∧ t = (s.counted r launch d).enqueue d (s.unitEntry r launch i d) := by
  cases hd : s.placeDie pkg reg r with
  | none =>
    unfold State.registerUnit State.placeUnit at h
    rw [hd] at h
    simp [hc] at h
  | some d =>
    cases hq : s.queueFull d r.prio with
    | false =>
      rw [State.registerUnit_placed hc hd hq] at h
      exact ⟨d, rfl, (Option.some.inj h).symm⟩
    | true =>
      unfold State.registerUnit at h
      rw [State.placeUnit_some launch i hd] at h
      dsimp only at h
      rw [ancestorCancelled_counted, hc, hq] at h
      cases h

end

/-! ## All the units of a launch (R36, R354) -/

/-- Units i to i + n - 1 of a record have joined the tails of their queues, and the launch counts each of them. -/
structure Queued (s t : State) (pkg : Nat) (r : Rec) (launch i n : Nat) : Prop where
  work : WorkOnly s t
  queues : ∃ place : Nat → Nat, (∀ m, i ≤ m → m < i + n → place m ∈ s.maskDies pkg r)
    ∧ ∀ x p, ∃ l, t.queueAt x p = s.queueAt x p ++ l
      ∧ l.map (fun e => e.index) = (if p = r.prio then (List.range' i n).filter fun m => decide (place m = x) else [])
      ∧ ∀ e ∈ l, e.die = x ∧ e.frame = none ∧ e.ext = []
        ∧ e.cr = { r with launch := launch, unit := e.cr.unit, enqt := BitVec.ofNat 32 (s.ptc x) }
  cancelled : ∀ fuel l i, ancestorCancelled t r.job fuel l i = ancestorCancelled s r.job fuel l i
  counts : n ≠ 0 → ∀ e, t.findLevel r.job 1 launch = some e → e.count ≠ 0

theorem Queued.zero (s : State) (pkg : Nat) (r : Rec) (launch i : Nat) : Queued s s pkg r launch i 0 where
  work := .refl s
  queues := ⟨id, fun m h1 h2 => absurd h2 (by omega), fun x p => ⟨[], by simp, by simp, fun _ h => absurd h List.not_mem_nil⟩⟩
  cancelled _ _ _ := rfl
  counts h := absurd rfl h

/-- Counting a unit changes no queue. -/
theorem State.queueAt_counted (s : State) (r : Rec) (launch d x p : Nat) : (s.counted r launch d).queueAt x p = s.queueAt x p := by
  unfold State.queueAt State.counted State.modLevel State.modJobDie
  rw [State.die_modDie, State.die_modDie, State.die_modDie]
  split
  · next h =>
    split
    · next h' => rw [h, h']; rfl
    · rw [h]; rfl
  · split
    · next h' => rw [h']; rfl
    · rfl

theorem State.enqueue_counted_queued {pkg launch i d : Nat} {r : Rec} (hd : d ∈ s.maskDies pkg r) :
    Queued s ((s.counted r launch d).enqueue d (s.unitEntry r launch i d)) pkg r launch i 1 where
  work := (s.counted_workOnly r launch d).trans (State.enqueue_workOnly _ _ _ _)
  queues := by
    refine ⟨fun _ => d, fun _ _ _ => hd, fun x p => ?_⟩
    rw [State.queueAt_enqueue, State.queueAt_counted, State.queueAt_counted, (s.counted_workOnly r launch d).ptc]
    by_cases h : x = d ∧ p = r.prio
    · obtain ⟨rfl, rfl⟩ := h
      refine ⟨[(s.unitEntry r launch i x).joining (s.ptc x)], if_pos ⟨rfl, rfl⟩, by simp [Entry.joining, State.unitEntry], fun e he => ?_⟩
      rw [List.mem_singleton.1 he]
      exact ⟨rfl, rfl, rfl, rfl⟩
    · refine ⟨[], (if_neg h).trans (List.append_nil _).symm, ?_, fun _ h => absurd h List.not_mem_nil⟩
      by_cases hp : p = r.prio
      · have : ¬ d = x := fun e => h ⟨e.symm, hp⟩
        simp [hp, this]
      · simp [hp]
  cancelled fuel l i := by
    rw [← ancestorCancelled_counted s r launch d]
    exact ancestorCancelled_congr (fun l i => by rw [State.findLevel_sameWork (State.enqueue_same _ _ _ _)]) fuel l i
  counts _ e he := by
    rw [State.findLevel_sameWork (State.enqueue_same _ _ _ _), State.findLevel_counted] at he
    obtain ⟨x, hx, rfl⟩ := Option.map_eq_some_iff.1 he
    rw [if_pos (List.find?_some hx)]
    exact Nat.succ_ne_zero _

theorem Queued.append {pkg launch i m n : Nat} {r : Rec} (h : Queued s t pkg r launch i m) (g : Queued t u pkg r launch (i + m) n)
    (hn : n ≠ 0 ∨ u = t) : Queued s u pkg r launch i (m + n) where
  work := h.work.trans g.work
  queues := by
    obtain ⟨p1, m1, q1⟩ := h.queues
    obtain ⟨p2, m2, q2⟩ := g.queues
    refine ⟨fun k => if k < i + m then p1 k else p2 k, fun k h1 h2 => ?_, fun x p => ?_⟩
    · by_cases hk : k < i + m
      · simpa only [hk, if_true] using m1 k h1 hk
      · simpa only [hk, if_false, h.work.maskDies] using m2 k (by omega) (by omega)
    · obtain ⟨l1, e1, i1, r1⟩ := q1 x p
      obtain ⟨l2, e2, i2, r2⟩ := q2 x p
      refine ⟨l1 ++ l2, by rw [e2, e1, List.append_assoc], ?_, fun e he => ?_⟩
      · rw [List.map_append, i1, i2]
        split
        · rw [← List.range'_append_1, List.filter_append]
          congr 1
          · refine List.filter_congr fun k hk => ?_
            have := List.mem_range'_1.1 hk
            simp only [if_pos this.2]
          · refine List.filter_congr fun k hk => ?_
            have := List.mem_range'_1.1 hk
            simp only [if_neg (Nat.not_lt.2 this.1)]
        · rfl
      · rcases List.mem_append.1 he with he | he
        · exact r1 e he
        · rw [← h.work.ptc]
          exact r2 e he
  cancelled fuel l i := (g.cancelled fuel l i).trans (h.cancelled fuel l i)
  counts hmn := by
    by_cases h0 : n = 0
    · obtain rfl := hn.resolve_left (by omega)
      exact h.counts (by omega)
    · exact g.counts h0

/-- All the units of a launch that nothing cancels join their queues, in order (R36). -/
theorem registerAll_queued {pkg reg launch : Nat} {r : Rec} (n : Nat) : ∀ (i : Nat) (s t : State),
    ancestorCancelled s r.job 5 1 launch = false → registerAll pkg reg r launch n i s = some t → Queued s t pkg r launch i n := by
  induction n with
  | zero =>
    intro i s t _ h
    cases h
    exact .zero s pkg r launch i
  | succ n ih =>
    intro i s t hc h
    unfold registerAll at h
    split at h
    · next v hv =>
      obtain ⟨d, hd, rfl⟩ := State.registerUnit_inv hc hv
      have first : Queued s _ pkg r launch i 1 := State.enqueue_counted_queued (State.mem_of_placeDie hd)
      rw [Nat.add_comm n 1]
      refine first.append (ih (i + 1) _ t ((first.cancelled 5 1 launch).trans hc) h) ?_
      cases n with
      | zero =>
        cases h
        exact .inr rfl
      | succ n => exact .inl (by omega)
    · cases h

end Sys2Proof.Machine
end

section
/-! SUPPORT. SPAWN and JOIN (R327, R354). -/

namespace Sys2Proof.Machine

variable {s t u : State}

/-! ## A launch opened, and closed -/

theorem State.die_modLevel (s : State) (j l i x : Nat) (f : LevelEntry → LevelEntry) :
    ∃ ls, (s.modLevel j l i f).die x = { s.die x with levels := ls } := by
  rw [State.modLevel, State.die_modDie]
  split
  · next h => exact ⟨_, by rw [h]⟩
  · exact ⟨_, rfl⟩

/-- Opening level entries changes the level tables alone. -/
theorem die_openLevel (r : Rec) (x fuel : Nat) : ∀ (s : State) (l i : Nat),
    ∃ ls, (openLevel s r fuel l i).die x = { s.die x with levels := ls } := by
  induction fuel with
  | zero => exact fun s _ _ => ⟨_, rfl⟩
  | succ fuel ih =>
    intro s l i
    have add (v : State) (hv : ∃ ls, v.die x = { s.die x with levels := ls }) (e : LevelEntry) :
        ∃ ls, (v.modDie (v.homeDie r.job) fun x => { x with levels := x.levels ++ [e] }).die x = { s.die x with levels := ls } := by
      obtain ⟨ls, hv⟩ := hv
      rw [State.die_modDie]
      split
      · next h => exact ⟨ls ++ [e], by rw [← h, hv]⟩
      · exact ⟨ls, hv⟩
    unfold openLevel
    split
    · exact ⟨_, rfl⟩
    · refine add _ ?_ _
      split
      · next l' i' _ =>
        obtain ⟨ls, h1⟩ := ih s l' i'
        obtain ⟨ls', h2⟩ := (openLevel s r fuel l' i').die_modLevel r.job l' i' x fun e => { e with count := e.count + 1 }
        exact ⟨ls', by rw [h2, h1]⟩
      · exact ⟨_, rfl⟩

theorem queueAt_openLevel (s : State) (r : Rec) (fuel l i x p : Nat) : (openLevel s r fuel l i).queueAt x p = s.queueAt x p := by
  obtain ⟨ls, h⟩ := die_openLevel r x fuel s l i
  unfold State.queueAt
  rw [h]

theorem State.queueAt_modLevel (s : State) (j l i x p : Nat) (f : LevelEntry → LevelEntry) :
    (s.modLevel j l i f).queueAt x p = s.queueAt x p := by
  obtain ⟨ls, h⟩ := s.die_modLevel j l i x f
  unfold State.queueAt
  rw [h]

/-- A launch with a unit that has not completed does not complete as it is closed (R25, R26). -/
theorem State.closeLaunch_busy {j launch : Nat} (h : ∀ e, s.findLevel j 1 launch = some e → e.count ≠ 0) :
    s.closeLaunch j launch = s.modLevel j 1 launch fun e => { e with closed := true } := by
  unfold State.closeLaunch
  have found := s.findLevel_modLevel j 1 launch (fun e => { e with closed := true }) fun _ => ⟨rfl, rfl, rfl⟩
  cases hx : s.findLevel j 1 launch with
  | none => exact levelCheck_none (by rw [found, hx]; rfl)
  | some e => exact levelCheck_busy (e := { e with closed := true }) (by rw [found, hx]; rfl) (.inr (h e hx))

/-- The units of a launch that nothing cancels, once they are registered and the launch is closed (R36, R354). -/
theorem Queued.registered {w v : State} {pkg launch n : Nat} {r : Rec} (h : Queued w u pkg r launch 0 n) (hpkg : pkg = diePkg (tileDie s.focus))
    (hq : ∀ x p, w.queueAt x p = s.queueAt x p) (hp : ∀ x, w.ptc x = s.ptc x) (hm : w.maskDies pkg r = s.maskDies pkg r)
    (hv : ∀ x p, v.queueAt x p = u.queueAt x p) : Registered s v r launch n := by
  obtain ⟨place, hplace, hl⟩ := h.queues
  refine ⟨place, fun i hi => ?_, fun x p => ?_⟩
  · rw [← hpkg, ← hm]
    exact hplace i (Nat.zero_le _) (by omega)
  · obtain ⟨l, h1, h2, h3⟩ := hl x p
    refine ⟨l, by rw [hv, h1, hq], by rw [h2, List.range_eq_range'], fun e he => ?_⟩
    rw [← hp]
    exact h3 e he

/-- The state in which the units of a new launch are registered. -/
def State.launched (s : State) (r : Rec) (launch : Nat) : State := openLevel s.bump r 5 1 launch

theorem State.launched_workOnly (s : State) (r : Rec) (launch : Nat) : WorkOnly s (s.launched r launch) :=
  s.bump_workOnly.trans (openLevel_workOnly r 5 _ _ _)

theorem State.queueAt_launched (s : State) (r : Rec) (launch x p : Nat) : (s.launched r launch).queueAt x p = s.queueAt x p :=
  queueAt_openLevel s.bump r 5 1 launch x p

theorem State.spawn_eq {reg n : Nat} {r : Rec} (hl : s.levelRoom r = true) : s.spawn reg r n =
    (registerAll (diePkg reg) reg r (s.newLaunch r.job) n 0 (s.launched r (s.newLaunch r.job))).map fun u =>
      (u.closeLaunch r.job (s.newLaunch r.job), s.newLaunch r.job) := by
  unfold State.spawn
  rw [hl]
  rfl

/-- The units of a spawn that nothing cancels. -/
theorem State.spawn_registered {n launch : Nat} {r : Rec} (hn : n ≠ 0)
    (h : registerAll (diePkg (tileDie s.focus)) (tileDie s.focus) r launch n 0 (s.launched r launch) = some u)
    (hc : ancestorCancelled (s.launched r launch) r.job 5 1 launch = false) :
    WorkOnly s (u.closeLaunch r.job launch) ∧ ∀ v : State, v.dies = (u.closeLaunch r.job launch).dies → Registered s v r launch n := by
  have q := registerAll_queued n 0 _ u hc h
  have w := s.launched_workOnly r launch
  rw [State.closeLaunch_busy (q.counts hn)]
  refine ⟨(w.trans q.work).trans (State.modLevel_workOnly _ _ _ _ _), fun v hv => ?_⟩
  refine q.registered rfl (s.queueAt_launched r launch) w.ptc (w.maskDies _ _) fun x p => ?_
  rw [← u.queueAt_modLevel r.job 1 launch x p]
  unfold State.queueAt State.die
  rw [hv]

/-! ## SPAWN -/

theorem spawnUnits_holds : spawnUnits := by
  intro s d a b r n pkg launch home h ha hr h1 h2 hn hc
  have asks : exec (.spawn d a b) s = .next (s.ask s.focus home (.spawn r n (tileDie s.focus)) (.g d.toNat 8 false) (s.g a)) := by
    show execSpawn d a b s = _
    unfold execSpawn
    dsimp only
    rw [commitThen_of_here h, if_neg (by simp [ha]), hr]
    dsimp only
    rw [if_neg (show ¬ (n = 0 ∨ 65536 < n ∨ Config.unitIds * (s.maskDies pkg { r with job := s.jobOf s.focus }).length < n) by
      rw [show Config.unitIds = 8192 from rfl]
      omega), hc]
    dsimp only
    rw [drained_of_here h]
  refine ⟨?_, fun hh hl => ⟨_, asks, s.ask_asks home _ _ _ _ hh hl⟩⟩
  intro u hh hl hu v
  have spawned : s.spawn (tileDie s.focus) r n = some (v, launch) := by
    rw [State.spawn_eq hl]
    exact congrArg (Option.map _) hu
  have ends (hf : v.focus = s.focus) (hs : v.cur.status = .running) :
      s.ask s.focus home (.spawn r n (tileDie s.focus)) (.g d.toNat 8 false) (s.g a)
        = v.retire (v.cur.writeG d.toNat (BitVec.ofNat 64 launch)) := by
    rw [hh, State.ask_gives (u := v) (v := BitVec.ofNat 64 launch) (reaches_of_here h) rfl _ hf hs]
    unfold State.atHome
    simp only [State.ownRequest, spawned]
    rfl
  refine ⟨_, asks, fun hf hs => ?_, fun hcanc => ?_⟩
  · rw [ends hf hs]
    exact v.retire_wroteG _ _
  · obtain ⟨hw, hreg⟩ := State.spawn_registered (s := s) (show n ≠ 0 by omega) hu hcanc
    rw [ends hw.focus (hw.cur_status.trans (running_of_here h))]
    exact hreg _ rfl

/-! ## JOIN -/

theorem leNat_lt (bs : List Byte) : leNat bs < 256 ^ bs.length := by
  induction bs with
  | nil => simp [leNat]
  | cons b bs ih =>
    have := b.isLt
    rw [List.length_cons, Nat.pow_succ]
    unfold leNat
    omega

theorem length_bytes (s : State) (p n : Nat) : (s.bytes p n).length = n := by simp [State.bytes]

/-- An atomic write changes no tile and no job, of a die the sector versions alone. -/
theorem State.writeAtomic_eq (s : State) (p : Nat) (bs : List Byte) :
    s.writeAtomic p bs = { s with mem := (s.writeAtomic p bs).mem, dies := (s.writeAtomic p bs).dies }
      ∧ ∀ x, ∃ v, (s.writeAtomic p bs).die x = { s.die x with versions := v } := by
  have put (bs : List Byte) : ∀ (s : State) (p : Nat), s.putBytes p bs = { s with mem := (s.putBytes p bs).mem } := by
    induction bs with
    | nil => exact fun _ _ => rfl
    | cons b bs ih => exact fun s p => ih _ _
  have put := put bs s p
  unfold State.writeAtomic
  generalize s.putBytes p bs = w at put
  obtain ⟨m, rfl⟩ : ∃ m, w = { s with mem := m } := ⟨w.mem, put⟩
  unfold State.touchSectors
  split
  · refine ⟨rfl, fun x => ?_⟩
    rw [State.die_modDie]
    split
    · next h => exact ⟨_, by rw [h]; rfl⟩
    · exact ⟨_, rfl⟩
  · exact ⟨rfl, fun x => ⟨_, rfl⟩⟩

/-- The counter's home counts it down unless it holds 0 (R327). -/
theorem atHome_join {d : BitVec 6} {r : Rec} {acc : Acc} {q : Nat} {addr : W64} (hp : s.place (tileDie s.focus) acc.plain 8 = .mem q)
    (hfo : s.foreign (s.fidOf s.focus) q = false) (hbad : s.badSector q 8 = none) :
    s.atHome s.nextId (s.ownRequest s.focus (.amo 13 acc.plain 8 0 0 s.cur.fpc) (.joinCount d.toNat r) addr 0) =
    (if leNat (s.bytes q 8) = 0 then s else s.writeAtomic q (leBytes 8 (leNat (s.bytes q 8) - 1)),
      .value (BitVec.ofNat 64 (leNat (s.bytes q 8)))) := by
  unfold State.atHome State.homeAccess
  simp only [State.ownRequest, hp, hfo, hbad, Bool.false_eq_true, if_false, Option.isSome_none]
  unfold State.amoAt amoInt
  by_cases h0 : leNat (s.bytes q 8) = 0
  · simp [readLe, h0]
    rfl
  · simp [readLe, h0]
    rfl

/-- A JOIN of a good record on a counter that lies in memory of the own die (R327). -/
structure JoinReady (s : State) (a b : BitVec 6) (r : Rec) (acc : Acc) (q : Nat) : Prop where
  here : Here s
  counterAligned : (s.g a).toNat % 8 = 0
  recordAligned : (s.g b).toNat % 64 = 0
  record : s.recordAt (s.g b) = .ok r
  check : s.checkOwn r = .ok
  counter : s.atomicCheck (s.g a) 8 = .ok acc
  present : acc.fallow = false
  own : plainDie acc.plain = tileDie s.focus
  place : s.place (tileDie s.focus) acc.plain 8 = .mem q
  mine : s.foreign (s.fidOf s.focus) q = false
  good : s.badSector q 8 = none

section
variable {d a b : BitVec 6} {r : Rec} {acc : Acc} {q : Nat}

/-- A JOIN that has room for its record, or needs none, asks the counter's home (R327). -/
theorem exec_join_asks (J : JoinReady s a b r acc q)
    (hroom : s.homeDie r.job = tileDie s.focus → leNat (s.bytes q 8) = 1 → s.joinRoom s.focus r = true) :
    exec (.join d a b) s = .next (s.ask s.focus (tileDie s.focus) (.amo 13 acc.plain 8 0 0 s.cur.fpc) (.joinCount d.toNat r) (s.g a)) := by
  have res : s.resolve (tileDie s.focus) acc.plain 8 = some q := by
    unfold State.resolve
    rw [J.place]
  show execJoin d a b s = _
  unfold execJoin
  dsimp only
  rw [commitThen_of_here J.here, if_neg (by simp [J.counterAligned]), if_neg (by simp [J.recordAligned]), J.record]
  dsimp only
  rw [J.check]
  dsimp only
  rw [J.counter]
  dsimp only
  rw [drained_of_here J.here, J.present, if_neg Bool.false_ne_true, res, J.own]
  dsimp only
  refine if_neg ?_
  rintro ⟨-, hh, h1, hn⟩
  rw [hroom hh h1] at hn
  cases hn

end

/-- A counter that does not reach zero ends the JOIN (R327). -/
theorem State.deliver_joinCount (w : State) (k d : Nat) (cr : Rec) (req : Request) (v : W64) (hs : req.sink = .joinCount d cr) (hv : v ≠ 1)
    (hrun : (w.tile k).status = .running) : w.deliver k req (.value v 0)
      = w.setTile k (((w.tile k).writeG d (if v = 0 then 2 else 0)).retire (w.dcc (tileDie k))) := by
  have run (x : W64) : ((w.tile k).writeG d x).status = .running := by simp [Tile.writeG, hrun]
  have ends : w.deliver k req (.value v 0) = w.endWord k req (.value v 0) := by
    unfold State.deliver
    rw [hs]
    exact if_neg hv
  rw [ends]
  unfold State.endWord
  simp only [flagTrap_zero, hs, hv, if_false]
  split
  · exact State.finishWord_running _ _ _ (run 2) hrun
  · exact State.finishWord_running _ _ _ (run 0) hrun

theorem State.deliver_joinCount_one (w : State) (k d : Nat) (cr : Rec) (req : Request) (hs : req.sink = .joinCount d cr) :
    w.deliver k req (.value 1 0)
      = w.askWith State.endWord k (w.homeDie cr.job) (.spawn cr 1 (tileDie k)) (.joinDone d) req.addr false 0 .response none := by
  unfold State.deliver
  rw [hs]
  rfl

/-- The record of a JOIN whose counter has reached zero is registered by the own die, and the word ends with 1 (R327). -/
theorem State.askWith_joinDone {w u : State} {d l : Nat} {cr : Rec} {addr : W64} (hr : tileDie w.focus ∉ (w.die (tileDie w.focus)).unreachable)
    (hsp : w.spawn (tileDie w.focus) cr 1 = some (u, l)) (hf : u.focus = w.focus) (hu : u.cur.status = .running) :
    w.askWith State.endWord w.focus (tileDie w.focus) (.spawn cr 1 (tileDie w.focus)) (.joinDone d) addr false 0 .response none
      = u.retire (u.cur.writeG d 1) := by
  have e : w.atHome w.nextId (w.ownRequest w.focus (.spawn cr 1 (tileDie w.focus)) (.joinDone d) addr 0)
      = (u, .value (BitVec.ofNat 64 l)) := by
    unfold State.atHome
    simp only [State.ownRequest, hsp]
    rfl
  have run : (u.tile w.focus).status = .running := by rw [← hf]; exact hu
  unfold State.askWith
  rw [if_neg hr, if_pos rfl]
  simp only [e]
  show (u.afterOp (.spawn cr 1 (tileDie w.focus))).endWord w.focus _ (.value _ 0) = _
  rw [show u.afterOp (.spawn cr 1 (tileDie w.focus)) = u from rfl]
  unfold State.endWord
  simp only [flagTrap_zero, State.ownRequest]
  rw [State.finishWord_running _ _ _ (by simp [Tile.writeG, run]) run, State.retire, State.cur, hf]

theorem Registered.of_same {w v : State} {r : Rec} {l n : Nat} (h : Registered w v r l n) (hf : w.focus = s.focus)
    (hq : ∀ x p, w.queueAt x p = s.queueAt x p) (hp : ∀ x, w.ptc x = s.ptc x) (hm : ∀ pkg, w.maskDies pkg r = s.maskDies pkg r) :
    Registered s v r l n := by
  unfold Registered at h ⊢
  simpa only [hf, hq, hp, hm] using h

/-- A spawn that succeeds has registered its units and closed its launch. -/
theorem State.spawn_inv {w : State} {reg l n : Nat} {r : Rec} (h : w.spawn reg r n = some (u, l)) :
    ∃ v, registerAll (diePkg reg) reg r l n 0 (w.launched r l) = some v ∧ u = v.closeLaunch r.job l := by
  cases hl : w.levelRoom r with
  | false =>
    unfold State.spawn at h
    rw [hl] at h
    cases h
  | true =>
    rw [State.spawn_eq hl] at h
    obtain ⟨v, hv, e⟩ := Option.map_eq_some_iff.1 h
    cases e
    exact ⟨v, hv, rfl⟩

/-- What a JOIN's counter holds is a word's value. -/
theorem State.joinCount_eq (s : State) (q n : Nat) (hn : n < 2 ^ 64) :
    (BitVec.ofNat 64 (leNat (s.bytes q 8)) = BitVec.ofNat 64 n) ↔ leNat (s.bytes q 8) = n := by
  have lt := leNat_lt (s.bytes q 8)
  rw [length_bytes] at lt
  rw [← BitVec.toNat_inj, BitVec.toNat_ofNat, BitVec.toNat_ofNat, Nat.mod_eq_of_lt (by omega), Nat.mod_eq_of_lt hn]

theorem State.cur_writeAtomic (s : State) (p : Nat) (bs : List Byte) : (s.writeAtomic p bs).cur = s.cur := by
  rw [(s.writeAtomic_eq p bs).1]
  rfl

theorem State.focus_writeAtomic (s : State) (p : Nat) (bs : List Byte) : (s.writeAtomic p bs).focus = s.focus := by
  rw [(s.writeAtomic_eq p bs).1]

theorem State.ptc_writeAtomic (s : State) (p : Nat) (bs : List Byte) (x : Nat) : (s.writeAtomic p bs).ptc x = s.ptc x := by
  obtain ⟨e, hd⟩ := s.writeAtomic_eq p bs
  obtain ⟨v, hv⟩ := hd x
  unfold State.ptc
  rw [hv, show (s.writeAtomic p bs).hubPtc = s.hubPtc by rw [e]; rfl, show (s.writeAtomic p bs).ns = s.ns by rw [e]]

theorem State.queueAt_writeAtomic (s : State) (p : Nat) (bs : List Byte) (x q : Nat) : (s.writeAtomic p bs).queueAt x q = s.queueAt x q := by
  obtain ⟨v, hv⟩ := (s.writeAtomic_eq p bs).2 x
  unfold State.queueAt
  rw [hv]

section
variable {d a b : BitVec 6} {r : Rec} {acc : Acc} {q : Nat} (J : JoinReady s a b r acc q)
include J

/-- A JOIN on what its counter holds, which the counter's home has counted down (R327). -/
theorem exec_join_delivers (hroom : s.homeDie r.job = tileDie s.focus → leNat (s.bytes q 8) = 1 → s.joinRoom s.focus r = true) :
    ∃ req : Request, req.sink = .joinCount d.toNat r ∧ exec (.join d a b) s =
      .next ((if leNat (s.bytes q 8) = 0 then s else s.writeAtomic q (leBytes 8 (leNat (s.bytes q 8) - 1))).deliver s.focus req
        (.value (BitVec.ofNat 64 (leNat (s.bytes q 8))) 0)) := by
  refine ⟨s.ownRequest s.focus (.amo 13 acc.plain 8 0 0 s.cur.fpc) (.joinCount d.toNat r) (s.g a) 0, rfl, ?_⟩
  rw [exec_join_asks (d := d) J hroom, s.ask_done s.focus _ _ _ _ _ _ _ (reaches_of_here J.here) (atHome_join J.place J.mine J.good)]
  rfl

theorem exec_join_zero (h0 : leNat (s.bytes q 8) = 0) : exec (.join d a b) s = .next (s.retire (s.cur.writeG d.toNat 2)) := by
  obtain ⟨req, hs, e⟩ := exec_join_delivers (d := d) J fun _ h1 => by omega
  rw [e, if_pos h0, h0, State.deliver_joinCount s s.focus d.toNat r req _ hs (by decide) (running_of_here J.here)]
  rfl

theorem exec_join_counts (h1 : 1 < leNat (s.bytes q 8)) :
    let w := s.writeAtomic q (leBytes 8 (leNat (s.bytes q 8) - 1))
    exec (.join d a b) s = .next (w.retire (w.cur.writeG d.toNat 0)) := by
  intro w
  obtain ⟨req, hs, e⟩ := exec_join_delivers (d := d) J fun _ h => by omega
  have run : (w.tile s.focus).status = .running := by
    rw [← s.focus_writeAtomic q (leBytes 8 (leNat (s.bytes q 8) - 1))]
    exact (congrArg Tile.status (s.cur_writeAtomic _ _)).trans (running_of_here J.here)
  have n1 : BitVec.ofNat 64 (leNat (s.bytes q 8)) ≠ 1 := fun h => by
    have := (s.joinCount_eq q 1 (by omega)).1 h
    omega
  have n0 : BitVec.ofNat 64 (leNat (s.bytes q 8)) ≠ 0 := fun h => by
    have := (s.joinCount_eq q 0 (by omega)).1 h
    omega
  rw [e, if_neg (by omega), State.deliver_joinCount w s.focus d.toNat r req _ hs n1 run, if_neg n0, State.retire, State.cur,
    s.focus_writeAtomic]

theorem exec_join_last (h1 : leNat (s.bytes q 8) = 1) (hroom : s.homeDie r.job = tileDie s.focus → s.joinRoom s.focus r = true) :
    let w := s.writeAtomic q (leBytes 8 0)
    ∃ addr, exec (.join d a b) s = .next (w.askWith State.endWord w.focus (s.homeDie r.job) (.spawn r 1 (tileDie w.focus)) (.joinDone d.toNat)
      addr false 0 .response none) := by
  intro w
  obtain ⟨req, hs, e⟩ := exec_join_delivers (d := d) J fun h _ => hroom h
  have home : w.homeDie r.job = s.homeDie r.job := by
    show (s.writeAtomic q (leBytes 8 0)).homeDie r.job = _
    rw [(s.writeAtomic_eq q (leBytes 8 0)).1]
    rfl
  rw [h1, if_neg (by decide)] at e
  have e : exec (.join d a b) s = .next (w.deliver s.focus req (.value 1 0)) := e
  refine ⟨req.addr, ?_⟩
  rw [e, State.deliver_joinCount_one w s.focus d.toNat r req hs, home, s.focus_writeAtomic]

end

/-- A counter counted down holds the lower number, and no other byte changes (R327). -/
theorem State.updated_writeAtomic (s : State) {t : State} (q n : Nat) (h : ∀ p, t.byte p = (s.writeAtomic q (leBytes 8 n)).byte p) :
    Updated s t q 8 (some n) := by
  intro p
  rw [h, State.byte_writeAtomic]
  simp only [leBytes, List.length_map, List.length_range]
  split
  · next hp =>
    simp only [List.getD_eq_getElem?_getD, List.getElem?_map, List.getElem?_range (show p - q < 8 by omega), Option.map_some, Option.getD_some]
  · rfl

theorem joinCounter_holds : joinCounter := by
  intro s d a b r acc q old h ha hb hr hc hacc hf hd hp hfo hbad
  have J : JoinReady s a b r acc q := ⟨h, ha, hb, hr, hc, hacc, hf, hd, hp, hfo, hbad⟩
  obtain ⟨same, die⟩ := s.writeAtomic_eq q (leBytes 8 0)
  have focus := s.focus_writeAtomic q (leBytes 8 0)
  have cur := s.cur_writeAtomic q (leBytes 8 0)
  refine ⟨fun h0 => ⟨_, exec_join_zero J h0, s.retire_wroteG _ _⟩, fun h1 => ?_, fun u l h1 hh hroom hsp => ?_, fun h1 hh hl => ?_⟩
  · obtain ⟨⟨-, -, -, hpc⟩, hg, hfs, hq, hds, hfp⟩ := (s.writeAtomic q (leBytes 8 (old - 1))).retire_wroteG d.toNat 0
    have cur := s.cur_writeAtomic q (leBytes 8 (old - 1))
    refine ⟨_, exec_join_counts J h1, hpc.trans (by rw [cur]), State.updated_writeAtomic s q (old - 1) fun p => rfl, ?_⟩
    rw [cur] at hg hfs hq hds hfp
    rw [cur]
    exact ⟨hg, hfs, hq, hds, hfp⟩
  · obtain ⟨addr, e⟩ := exec_join_last (d := d) J h1 fun _ => hroom
    rw [hh, ← focus] at e
    rw [← focus] at hsp
    have reach := reaches_of_here h
    have ends (hf : u.focus = (s.writeAtomic q (leBytes 8 0)).focus) (hs : u.cur.status = .running) :=
      State.askWith_joinDone (d := d.toNat) (addr := addr) (by
        obtain ⟨v, hv⟩ := die (tileDie s.focus)
        rw [focus, hv]
        exact reach) hsp hf hs
    refine ⟨_, e, fun hf hs => ?_, fun hcanc => ?_⟩
    · rw [ends (hf.trans focus.symm) hs]
      exact u.retire_wroteG _ _
    · obtain ⟨v, hv, rfl⟩ := State.spawn_inv hsp
      obtain ⟨hw, hreg⟩ := State.spawn_registered Nat.one_ne_zero hv hcanc
      rw [ends hw.focus (hw.cur_status.trans ((congrArg Tile.status cur).trans (running_of_here h)))]
      refine Registered.of_same (hreg _ rfl) focus (s.queueAt_writeAtomic q _) (s.ptc_writeAtomic q _) fun pkg => ?_
      rw [same]
      rfl
  · obtain ⟨addr, e⟩ := exec_join_last (d := d) J h1 fun x => absurd x hh
    obtain ⟨v, hv⟩ := die (tileDie s.focus)
    obtain ⟨w, id, req, hw⟩ := (s.writeAtomic q (leBytes 8 0)).askWith_asks State.endWord (s.homeDie r.job)
      (.spawn r 1 (tileDie (s.writeAtomic q (leBytes 8 0)).focus)) (.joinDone d.toNat) addr 0 (by rwa [focus]) (by rwa [focus, hv])
    rw [focus, cur] at hw
    rw [focus] at e
    refine ⟨_, e, State.updated_writeAtomic s q 0 fun p => ?_, w, id, req, hw⟩
    rw [← focus, State.askWith_away _ _ _ _ _ _ _ (by rwa [focus]) (by rwa [focus, hv])]
    rfl

/-- Settles O23: SPAWN registers its units in order, and JOIN does what its counter, counted down in the same step, says. -/
theorem spawnJoin : Obligations.SpawnJoin := by
  unfold Obligations.SpawnJoin
  exact ⟨spawnUnits_holds, joinCounter_holds⟩

end Sys2Proof.Machine
end

section
/-! SUPPORT. The launch window: slots, notifies, accepted launches and completion queues (R38, R49 to R52, R272). -/

namespace Sys2Proof.Machine

variable {s t : State}

/-! ## One function of a package, written twice -/

theorem Tab.insert_erase_insert {α : Type} (t : Tab α) (k : Nat) (v : α) (h : ∀ p ∈ t, p.1 ≠ k) : Tab.erase (Tab.insert t k v) k = t := by
  induction t with
  | nil => simp [Tab.insert, Tab.erase]
  | cons p t ih =>
    obtain ⟨i, x⟩ := p
    have keep : ∀ q ∈ (i, x) :: t, (q.1 != k) = true := fun q hq => by simpa using h q hq
    unfold Tab.insert
    split
    · unfold Tab.erase
      rw [List.filter_cons_of_neg (by simp), List.filter_eq_self.2 keep]
    · have := ih fun q hq => h q (List.mem_cons_of_mem _ hq)
      unfold Tab.erase at this ⊢
      rw [List.filter_cons, if_pos (keep (i, x) List.mem_cons_self), this]

/-- The later of two writes of a key stands. -/
theorem Tab.put_put {α : Type} (t : Tab α) (k : Nat) (v w : α) : Tab.put (Tab.put t k v) k w = Tab.put t k w := by
  unfold Tab.put
  rw [Tab.insert_erase_insert]
  intro p hp
  simpa using (List.mem_filter.1 hp).2

theorem State.modFunc_modFunc (s : State) (p f : Nat) (g h : Func → Func) :
    (s.modFunc p f g).modFunc p f h = s.modFunc p f fun x => h (g x) := by
  have e : (s.modFunc p f g).pkg p = { s.pkg p with funcs := Tab.put (s.pkg p).funcs f (g (Tab.get {} (s.pkg p).funcs f)) } :=
    State.pkg_modPkg_self _ _ _
  unfold State.modFunc State.modPkg State.setPkg at *
  rw [e]
  simp only [Tab.put_put, Tab.get_put_self]

theorem State.func_modFunc (s : State) (p f q g : Nat) (h : Func → Func) :
    (s.modFunc p f h).func q g = if q = p ∧ g = f then h (s.func p f) else s.func q g := by
  unfold State.func State.modFunc State.modPkg
  rw [State.pkg_setPkg]
  by_cases hq : q = p
  · subst hq
    simp only [if_true, true_and]
    exact Tab.get_put _ _ _ _ _
  · simp only [hq, if_false, false_and]

/-! ## Slots (R49, R51) -/

theorem slotOf_modSlot (s : State) (p f n : Nat) (h : Slot → Slot) : slotOf (s.modSlot p f n h) p f n = h (slotOf s p f n) := by
  unfold slotOf State.modSlot
  rw [State.func_modFunc_self]
  exact Tab.get_put_self _ _ _ _

theorem State.func_modSlot (s : State) (p f n : Nat) (h : Slot → Slot) : (s.modSlot p f n h).func p f =
    { s.func p f with slots := Tab.put (s.func p f).slots n (h (slotOf s p f n)) } := s.func_modFunc_self p f _

theorem State.modSlot_only (s : State) (p f n : Nat) (h : Slot → Slot) : OnlyFunc s (s.modSlot p f n h) p f := (State.modFunc_spec rfl).1

theorem State.modSlot_modSlot (s : State) (p f n : Nat) (g h : Slot → Slot) :
    (s.modSlot p f n g).modSlot p f n h = s.modSlot p f n fun x => h (g x) := by
  unfold State.modSlot
  rw [State.modFunc_modFunc]
  simp only [Tab.put_put, Tab.get_put_self]

/-- The bytes of a slot do not change with its status. -/
theorem State.slotBytes_modSlot (s : State) (p f n i : Nat) (h : Slot → Slot) :
    ((s.modSlot p f n h).func p f).slotBytes i = (s.func p f).slotBytes i := by
  unfold State.modSlot
  rw [State.func_modFunc_self]
  rfl

/-! ## Completion queues (R52, R272) -/

theorem flushCqGo_nil (s : State) (p f : Nat) : flushCqGo s p f [] = s.modFunc p f fun x => { x with held := [] } := by
  unfold flushCqGo
  rfl

/-- The place in host memory of a function's next completion entry. -/
def Func.cqPlace (x : Func) : Nat := fld x.cqBase 12 52 * 4096 + 32 * (x.cqN % 2 ^ cqLog2N x.cqCtl)

/-- A function with one more entry written: its count, and the vector of its interrupt. -/
def Func.cqWrote (x : Func) : Func := { x with cqN := x.cqN + 1, msix := fld x.cqCtl 18 2 :: x.msix }

/-- The queue is enabled and has room. -/
def Func.cqRoom (x : Func) : Prop := bit x.cqCtl 17 = true ∧ x.cqN - x.cqHead.toNat < 2 ^ cqLog2N x.cqCtl

theorem flushCqGo_room {p f : Nat} {e : CqEntry} {es : List CqEntry} (h : (s.func p f).cqRoom) : flushCqGo s p f (e :: es) =
    flushCqGo ((s.putHost (s.func p f).cqPlace (e.bytes (s.func p f).cqN (cqLog2N (s.func p f).cqCtl))).modFunc p f Func.cqWrote) p f es := by
  rw [flushCqGo]
  exact if_pos h

theorem flushCqGo_full {p f : Nat} {e : CqEntry} {es : List CqEntry} (h : ¬ (s.func p f).cqRoom) :
    flushCqGo s p f (e :: es) = s.modFunc p f fun x => { x with held := e :: es } := by
  rw [flushCqGo]
  exact if_neg h

theorem State.func_putHost (bs : List Byte) (p f : Nat) : ∀ (s : State) (a : Nat), (s.putHost a bs).func p f = s.func p f := by
  induction bs with
  | nil => exact fun _ _ => rfl
  | cons b bs ih => exact fun s a => ih _ _

/-- Of a function, writing its held entries changes its queue alone. -/
theorem func_flushCqGo (p f : Nat) (es : List CqEntry) : ∀ s : State, ∃ n h m,
    (flushCqGo s p f es).func p f = { s.func p f with cqN := n, held := h, msix := m } := by
  induction es with
  | nil =>
    intro s
    rw [flushCqGo_nil]
    exact ⟨_, _, _, s.func_modFunc_self p f _⟩
  | cons e es ih =>
    intro s
    by_cases h : (s.func p f).cqRoom
    · rw [flushCqGo_room h]
      obtain ⟨n, h, m, e⟩ := ih ((s.putHost (s.func p f).cqPlace (e.bytes (s.func p f).cqN (cqLog2N (s.func p f).cqCtl))).modFunc p f Func.cqWrote)
      exact ⟨n, h, m, by rw [e, State.func_modFunc_self, State.func_putHost]; rfl⟩
    · rw [flushCqGo_full h]
      exact ⟨_, _, _, s.func_modFunc_self p f _⟩

/-- With the queue disabled, a completion entry is held. -/
theorem State.complete_disabled {p f : Nat} (e : CqEntry) (h : (s.func p f).cqCtl.getLsbD 17 = false) :
    ((s.complete p f e).func p f).held = (s.func p f).held ++ [e] := by
  have off (es : List CqEntry) (w : State) (hw : (w.func p f).cqCtl.getLsbD 17 = false) : ((flushCqGo w p f es).func p f).held = es := by
    cases es with
    | nil => rw [flushCqGo_nil, State.func_modFunc_self]
    | cons e es => rw [flushCqGo_full fun hx => absurd (hw.symm.trans hx.1) Bool.false_ne_true, State.func_modFunc_self]
  unfold State.complete State.flushCq
  rw [off, State.func_modFunc_self]
  rw [State.func_modFunc_self]
  exact h

theorem State.slots_complete (s : State) (p f : Nat) (e : CqEntry) : ((s.complete p f e).func p f).slots = (s.func p f).slots := by
  obtain ⟨n, h, m, e⟩ := func_flushCqGo p f ((s.modFunc p f fun x => { x with held := x.held ++ [e] }).func p f).held
    (s.modFunc p f fun x => { x with held := x.held ++ [e] })
  unfold State.complete State.flushCq
  rw [e, State.func_modFunc_self]

/-- A launch refused as torn (R51, R52), its slot possibly rewritten before. -/
theorem State.torn_torn (s : State) (p f n sub : Nat) (g : Slot → Slot) : Torn s ((s.modSlot p f n g).torn p f n sub) p f n sub := by
  have slot : slotOf ((s.modSlot p f n g).torn p f n sub) p f n = { g (slotOf s p f n) with busy := false, torn := true, notify := none } := by
    unfold State.torn State.launchFails
    rw [slotOf, State.slots_complete, State.modSlot_modSlot]
    exact slotOf_modSlot s p f n fun x => { g x with busy := false, torn := true, notify := none }
  refine ⟨by rw [slot], by rw [slot], by rw [slot], fun hoff => ?_⟩
  unfold State.torn State.launchFails
  rw [State.modSlot_modSlot]
  refine ⟨_, (State.complete_disabled _ (by rw [State.func_modSlot]; exact hoff)).trans (by rw [State.func_modSlot]), rfl, rfl, rfl, ?_, rfl, rfl⟩
  rfl

/-! ## A notify, and the re-reads of a stamp (R51) -/

/-- The stamp that a slot's bytes hold. -/
def slotStamp (s : State) (p f n : Nat) : W32 := BitVec.ofNat 32 (bytesAt ((s.func p f).slotBytes n) 0x7C 4)

section
variable {p f n : Nat} {v : W32} (hr : (s.pkg p).recovery = false) (hf : f < 16) (hn : n < 256)
include hr hf hn

theorem State.notify_busy (h : (s.func p f).en = false ∨ (s.func p f).flrb = true ∨ (slotOf s p f n).busy = true) :
    s.notify p f n v = s.modSlot p f n fun x => { x with torn := true } := by
  unfold State.notify
  rw [if_neg (by rw [hr, show Config.functions = 16 from rfl]; simp; omega)]
  refine if_pos ?_
  rcases h with h | h | h
  · simp [h]
  · simp [h]
  · simp [show (Tab.get {} (s.func p f).slots n).busy = true from h]

theorem State.notify_ready (h1 : (s.func p f).en = true) (h2 : (s.func p f).flrb = false) (h3 : (slotOf s p f n).busy = false) :
    s.notify p f n v = if (slotOf s p f n).stamp = some v then (s.modSlot p f n fun x => { x with busy := true, notify := some (v, 64) }).torn p f n 2
      else (s.modSlot p f n fun x => { x with busy := true, notify := some (v, 64) }).compareStamp p f n v 64 := by
  unfold State.notify
  rw [if_neg (by rw [hr, show Config.functions = 16 from rfl]; simp; omega)]
  exact if_neg (by simp [h1, h2, show (Tab.get {} (s.func p f).slots n).busy = false from h3])

end

theorem State.notify_dropped {p f n : Nat} {v : W32} (h : (s.pkg p).recovery = true ∨ 16 ≤ f ∨ 256 ≤ n) : s.notify p f n v = s := by
  unfold State.notify
  exact if_pos h

theorem State.compareStamp_eq (s : State) (p f n : Nat) (v : W32) (left : Nat) : s.compareStamp p f n v left =
    if slotStamp s p f n = v then s.acceptLaunch p f n v
    else if left = 0 then s.torn p f n 1 else s.modSlot p f n fun x => { x with notify := some (v, left - 1) } := by
  unfold State.compareStamp slotStamp
  cases left <;> rfl

theorem slotStamp_modSlot (s : State) (p f n i : Nat) (h : Slot → Slot) : slotStamp (s.modSlot p f n h) p f i = slotStamp s p f i := by
  unfold slotStamp
  rw [State.slotBytes_modSlot]

end Sys2Proof.Machine
end

section
/-! SUPPORT. A launch that is accepted (R38, R46, R50, R51). -/

namespace Sys2Proof.Machine

variable {s t : State}

/-! ## A free launch id (R38) -/

theorem firstFree_notMem (used : List Nat) (fuel : Nat) : ∀ n, (∃ m, n ≤ m ∧ m < n + fuel ∧ m ∉ used) → firstFree used fuel n ∉ used := by
  induction fuel with
  | zero =>
    rintro n ⟨m, h1, h2, -⟩
    omega
  | succ fuel ih =>
    rintro n ⟨m, h1, h2, h3⟩
    unfold firstFree
    split
    · next hn =>
      have : m ≠ n := fun e => h3 (e ▸ hn)
      exact ih (n + 1) ⟨m, by omega, by omega, h3⟩
    · next hn => exact hn

theorem exists_free (used : List Nat) : ∃ m, m < used.length + 1 ∧ m ∉ used := by
  have card : used.toFinset.card < (Finset.range (used.length + 1)).card := by
    rw [Finset.card_range]
    exact Nat.lt_succ_of_le (List.toFinset_card_le used)
  obtain ⟨m, hm, hn⟩ := Finset.exists_mem_notMem_of_card_lt_card card
  exact ⟨m, Finset.mem_range.1 hm, fun h => hn (List.mem_toFinset.2 h)⟩

/-- A number picked is free (R38). -/
theorem pickFree_notMem (used : List Nat) (lim fresh : Nat) : pickFree used lim fresh ∉ used := by
  unfold pickFree
  dsimp only
  split
  · obtain ⟨m, hm, hn⟩ := exists_free used
    exact firstFree_notMem used _ 0 ⟨m, Nat.zero_le m, by omega, hn⟩
  · next h => exact h

/-- No launch of the job that is still registering has the id of a new one. -/
theorem State.newLaunch_ne {j : Nat} {l : HostLaunch} (h : l ∈ (s.job j).launches) : l.launch ≠ s.newLaunch j := by
  intro e
  have free := pickFree_notMem ((((s.die (s.homeDie j)).levels.filter fun e => e.job = j && e.level = 1).map fun e => e.id)
    ++ (s.job j).launches.map fun l => l.launch) 65536 s.fresh
  rw [← State.newLaunch, ← e] at free
  exact free (List.mem_append_right _ (List.mem_map_of_mem h))

/-! ## The checks do not look at a slot's status -/

theorem State.admits_modSlot (s : State) (p f n : Nat) (h : Slot → Slot) (r : Rec) (k : Nat) : (s.modSlot p f n h).admits r k = s.admits r k := by
  have quads (q g : Nat) : ((s.modSlot p f n h).func q g).quads = (s.func q g).quads := by
    unfold State.modSlot
    rw [State.func_modFunc]
    split
    · next e => rw [e.1, e.2]
    · rfl
  have part (k j : Nat) : (s.modSlot p f n h).inPartition k j = s.inPartition k j := congrArg (fun q => bit q _) (quads _ _)
  unfold State.admits
  rw [part]
  rfl

theorem State.checkRec_modSlot (s : State) (p f n : Nat) (h : Slot → Slot) (pkg : Nat) (r : Rec) (ok : Bool) :
    (s.modSlot p f n h).checkRec pkg r ok = s.checkRec pkg r ok := by
  unfold State.checkRec
  simp only [State.admits_modSlot]
  rfl

theorem levelsNeeded_congr {r : Rec} (h : ∀ l i, t.findLevel r.job l i = s.findLevel r.job l i) (fuel : Nat) :
    ∀ l i, levelsNeeded t r fuel l i = levelsNeeded s r fuel l i := by
  induction fuel with
  | zero => exact fun _ _ => rfl
  | succ fuel ih =>
    intro l i
    unfold levelsNeeded
    simp only [h, ih]

theorem State.levelRoom_modSlot (s : State) (p f n : Nat) (h : Slot → Slot) (r : Rec) : (s.modSlot p f n h).levelRoom r = s.levelRoom r := by
  unfold State.levelRoom
  simp only [levelsNeeded_congr (s := s) (t := s.modSlot p f n h) fun _ _ => rfl]
  rfl

theorem slotOk_modSlot (p f n : Nat) (h : Slot → Slot) (hs : slotOk s p f n) : slotOk (s.modSlot p f n h) p f n := by
  unfold slotOk at hs ⊢
  dsimp only at hs ⊢
  rw [State.slotBytes_modSlot, State.checkRec_modSlot, State.levelRoom_modSlot]
  exact hs

/-! ## Acceptance (R38, R50, R51) -/

/-- The launch that a slot's bytes describe, with its id. -/
def State.slotLaunch (s : State) (p f n : Nat) : HostLaunch :=
  let bs := (s.func p f).slotBytes n
  let r := Rec.ofBytes bs
  { pkg := p, fid := f, slot := n, tmpl := r, count := bytesAt bs 0x40 2 + 1, launch := s.newLaunch r.job
    cqtag := BitVec.ofNat 32 (bytesAt bs 0x4C 4), waiting := decide (bytesAt bs 0x46 2 % 2 = 1) }

/-- The slot of an accepted launch may be rewritten. -/
def State.slotTaken (s : State) (p f n : Nat) (v : W32) : State :=
  s.modSlot p f n fun x => { x with busy := false, torn := false, stamp := some v, notify := none }

/-- The level entries of an accepted launch, its host told at their end. -/
def State.slotOpened (s : State) (p f n : Nat) (v : W32) : State :=
  let bs := (s.func p f).slotBytes n
  let r := Rec.ofBytes bs
  ((s.slotTaken p f n v).launched r (s.newLaunch r.job)).modLevel r.job 1 (s.newLaunch r.job) fun e =>
    { e with host := some (p, f, n, BitVec.ofNat 32 (bytesAt bs 0x4C 4), decide (bytesAt bs 0x46 2 / 2 % 2 = 1)) }

/-- An accepted launch joins those that its job still registers. -/
def State.slotAccepted (s : State) (p f n : Nat) (v : W32) : State :=
  (s.slotOpened p f n v).markJob (s.slotLaunch p f n).tmpl.job fun x => { x with launches := x.launches ++ [s.slotLaunch p f n] }

theorem State.acceptLaunch_ok {p f n : Nat} (v : W32) (h : slotOk s p f n) :
    let bs := (s.func p f).slotBytes n
    let job := (Rec.ofBytes bs).job
    s.acceptLaunch p f n v = if bytesAt bs 0x46 2 % 2 = 1 then
        (s.slotAccepted p f n v).launchWait job (s.newLaunch job + 65536 * job) (bytesAt bs 0x44 2) (bytesAt bs 0x48 4)
      else s.slotAccepted p f n v := by
  obtain ⟨hc, h1, h2, h3, h4, h5⟩ := h
  intro bs job
  unfold State.acceptLaunch
  dsimp only
  rw [hc]
  dsimp only
  rw [if_neg, h5]
  · rfl
  · rw [show Config.unitIds = 8192 from rfl, h1, h3]
    simp only [ne_eq, not_true_eq_false, false_or]
    omega

theorem State.launchWait_workOnly (s : State) (job key name thr : Nat) : WorkOnly s (s.launchWait job key name thr) := by
  unfold State.launchWait
  dsimp only
  split
  · exact s.release_workOnly (.launch key thr)
  · split
    · exact s.setEvent_workOnly _ _ _
    · refine WorkOnly.trans (t := { s with nextId := s.nextId + 1 }) ⟨rfl, fun _ => rfl, fun _ => rfl, fun _ => rfl⟩ ?_
      exact (WorkOnly.modDie _ _ _ rfl).trans (State.tell_workOnly _ _ _ _ _)

/-- Waiting for its event, a launch alone of its job may be marked. -/
theorem State.launches_launchWait (s : State) (job id name thr : Nat) :
    ((s.launchWait job (id + 65536 * job) name thr).job job).launches = (s.job job).launches
      ∨ ((s.launchWait job (id + 65536 * job) name thr).job job).launches =
        (s.job job).launches.map fun l => if l.launch = id then { l with waiting := false } else l := by
  unfold State.launchWait
  dsimp only
  split
  · right
    rw [State.job_release]
    simp only [Job.released, Nat.add_right_cancel_iff]
  · left
    split <;> rfl

theorem slotOf_congr {p f n : Nat} (h : t.func p f = s.func p f) : slotOf t p f n = slotOf s p f n := by
  unfold slotOf
  rw [h]

theorem slotOf_slotAccepted (s : State) (p f n : Nat) (v : W32) : slotOf (s.slotAccepted p f n v) p f n = { stamp := some v } := by
  have work : WorkOnly (s.slotTaken p f n v) (s.slotOpened p f n v) :=
    ((s.slotTaken p f n v).launched_workOnly _ _).trans (State.modLevel_workOnly _ _ _ _ _)
  have e : (s.slotAccepted p f n v).func p f = (s.slotTaken p f n v).func p f := work.func p f
  rw [slotOf_congr e]
  exact slotOf_modSlot s p f n _

theorem job_openLevel (r : Rec) (j fuel : Nat) : ∀ (s : State) (l i : Nat), (openLevel s r fuel l i).job j = s.job j := by
  induction fuel with
  | zero => exact fun _ _ _ => rfl
  | succ fuel ih =>
    intro s l i
    unfold openLevel
    split
    · rfl
    · cases parentOf r l with
      | none => rfl
      | some x => exact ih s _ _

theorem launches_slotAccepted (s : State) (p f n : Nat) (v : W32) :
    ((s.slotAccepted p f n v).job (s.slotLaunch p f n).tmpl.job).launches
      = (s.job (s.slotLaunch p f n).tmpl.job).launches ++ [s.slotLaunch p f n] := by
  have e : (s.slotOpened p f n v).job (s.slotLaunch p f n).tmpl.job = s.job (s.slotLaunch p f n).tmpl.job :=
    job_openLevel _ _ 5 (s.slotTaken p f n v).bump _ _
  rw [State.slotAccepted, State.markJob, State.job_setJob, if_pos rfl, e]

/-- A matching record that passes its checks is accepted (R51 step 3). -/
theorem State.acceptLaunch_accepted {p f n : Nat} {v : W32} (h : slotOk s p f n) : Accepted s (s.acceptLaunch p f n v) p f n v := by
  have e := State.acceptLaunch_ok v h
  dsimp only at e
  have launches := launches_slotAccepted s p f n v
  have plain : Accepted s (s.slotAccepted p f n v) p f n v :=
    ⟨slotOf_slotAccepted s p f n v, s.slotLaunch p f n, launches, rfl, rfl, rfl, rfl, rfl, rfl, rfl⟩
  rw [e]
  split
  · refine ⟨?_, ?_⟩
    · rw [slotOf_congr ((State.launchWait_workOnly _ _ _ _ _).func p f)]
      exact slotOf_slotAccepted s p f n v
    · rcases State.launches_launchWait (s.slotAccepted p f n v) (s.slotLaunch p f n).tmpl.job (s.newLaunch (s.slotLaunch p f n).tmpl.job)
        (bytesAt ((s.func p f).slotBytes n) 0x44 2) (bytesAt ((s.func p f).slotBytes n) 0x48 4) with hl | hl
      · exact ⟨s.slotLaunch p f n, hl.trans launches, rfl, rfl, rfl, rfl, rfl, rfl, rfl⟩
      · refine ⟨{ s.slotLaunch p f n with waiting := false }, hl.trans ?_, rfl, rfl, rfl, rfl, rfl, rfl, rfl⟩
        rw [launches, List.map_append, List.map_congr_left (g := id), List.map_id, List.map_singleton,
          if_pos (show (s.slotLaunch p f n).launch = s.newLaunch (s.slotLaunch p f n).tmpl.job from rfl)]
        · rfl
        intro l hl
        exact if_neg (State.newLaunch_ne hl)
  · exact plain

/-- As `acceptLaunch_accepted`, for a slot whose status has changed since its notify. -/
theorem Accepted.of_modSlot {p f n : Nat} {v : W32} {h : Slot → Slot} (ha : Accepted (s.modSlot p f n h) t p f n v) : Accepted s t p f n v := by
  unfold Accepted at ha ⊢
  dsimp only at ha ⊢
  rw [State.slotBytes_modSlot] at ha
  exact ha

end Sys2Proof.Machine
end

section
/-! SUPPORT. Registration for the host, and the registers of a completion queue (R38, R272). -/

namespace Sys2Proof.Machine

variable {s t : State}

/-! ## The next unit of a host launch (R38) -/

section
variable {l : HostLaunch} {d : Nat}
variable (hl : (s.job l.tmpl.job).launches.find? (fun y => y.launch = l.launch && !y.waiting && !(s.func y.pkg y.fid).flrb) = some l)
variable (hd : s.placeDie l.pkg none l.tmpl = some d) (hc : ancestorCancelled s l.tmpl.job 5 1 l.launch = false)
variable (hq : s.queueFull d l.tmpl.prio = false) (hn : l.next + 1 < l.count)
include hl hd hc hq hn

/-- A unit of a host launch that nothing cancels joins its queue, and the launch goes on with the next one (R38). -/
theorem State.registerNext_placed : s.registerNext l.tmpl.job l.launch =
    ((s.counted l.tmpl l.launch d).enqueue d (s.unitEntry l.tmpl l.launch l.next d)).markJob l.tmpl.job fun x =>
      { x with launches := x.launches.map fun y => if y.launch = l.launch then { y with next := l.next + 1, told := false } else y } := by
  unfold State.registerNext
  rw [hl]
  dsimp only
  rw [State.registerUnit_placed hc hd hq]
  exact if_pos hn

theorem State.queueAt_registerNext : ∃ e, (s.registerNext l.tmpl.job l.launch).queueAt d l.tmpl.prio = s.queueAt d l.tmpl.prio ++ [e]
    ∧ e = (s.unitEntry l.tmpl l.launch l.next d).joining (s.ptc d) := by
  refine ⟨_, ?_, rfl⟩
  rw [State.registerNext_placed hl hd hc hq hn]
  show ((s.counted l.tmpl l.launch d).enqueue d (s.unitEntry l.tmpl l.launch l.next d)).queueAt d l.tmpl.prio = _
  rw [State.queueAt_enqueue, if_pos ⟨rfl, rfl⟩, State.queueAt_counted, (s.counted_workOnly _ _ _).ptc]
  rfl

theorem State.launches_registerNext : ((s.registerNext l.tmpl.job l.launch).job l.tmpl.job).launches =
    (s.job l.tmpl.job).launches.map fun y => if y.launch = l.launch then { y with next := l.next + 1, told := false } else y := by
  have jobs : ((s.counted l.tmpl l.launch d).enqueue d (s.unitEntry l.tmpl l.launch l.next d)).job l.tmpl.job = s.job l.tmpl.job := by
    obtain ⟨-, hj, -⟩ := State.enqueue_same (s.counted l.tmpl l.launch d) d (s.unitEntry l.tmpl l.launch l.next d) false
    unfold State.job
    rw [hj]
    rfl
  rw [State.registerNext_placed hl hd hc hq hn, State.markJob, State.job_setJob, if_pos rfl, jobs]

end

/-! ## Completion-queue registers (R272) -/

theorem State.hostByte_putHost (bs : List Byte) : ∀ (s : State) (p q : Nat),
    (s.putHost p bs).hostByte q = if p ≤ q ∧ q < p + bs.length then bs.getD (q - p) 0 else s.hostByte q := by
  induction bs with
  | nil =>
    intro s p q
    rw [if_neg (by rw [List.length_nil]; omega)]
    rfl
  | cons b bs ih =>
    intro s p q
    have first : ({ s with hostMem := Tab.set 0 s.hostMem p b } : State).hostByte q = if q = p then b else s.hostByte q :=
      Tab.get_set 0 s.hostMem p q b
    unfold State.putHost
    rw [ih, first, List.length_cons]
    rcases Nat.lt_trichotomy q p with h | h | h
    · rw [if_neg (by omega), if_neg (by omega), if_neg (by omega)]
    · rw [if_neg (by omega), if_pos h, if_pos (by omega), h, Nat.sub_self, List.getD_cons_zero]
    · by_cases h2 : q < p + 1 + bs.length
      · rw [if_pos (by omega), if_pos (by omega), show q - p = (q - (p + 1)) + 1 by omega, List.getD_cons_succ]
      · rw [if_neg (by omega), if_neg (by omega), if_neg (by omega)]

/-- Bytes put in host memory read back. -/
theorem State.hostBytes_putHost (s : State) (p : Nat) (bs : List Byte) :
    (List.range bs.length).map (fun i => (s.putHost p bs).hostByte (p + i)) = bs := by
  apply List.ext_getElem
  · simp
  · intro i h1 h2
    simp only [List.getElem_map, List.getElem_range]
    rw [State.hostByte_putHost, if_pos ⟨by omega, by omega⟩, Nat.add_sub_cancel_left]
    simp [List.getD_eq_getElem?_getD, h2]

theorem CqEntry.length_bytes (e : CqEntry) (n l : Nat) : (e.bytes n l).length = 32 := by simp [CqEntry.bytes, leBytes]

/-- What a function becomes says what its write does. -/
theorem State.modFunc_congr {p f : Nat} {g h : Func → Func} (e : g (s.func p f) = h (s.func p f)) : s.modFunc p f g = s.modFunc p f h := by
  have e : g (Tab.get {} (s.pkg p).funcs f) = h (Tab.get {} (s.pkg p).funcs f) := e
  unfold State.modFunc State.modPkg
  dsimp only
  rw [e]

/-- With no entry held, nothing is written. -/
theorem State.flushCq_empty {p f : Nat} {g : Func → Func} (h : (g (s.func p f)).held = []) :
    (s.modFunc p f g).flushCq p f = s.modFunc p f g := by
  unfold State.flushCq
  rw [State.func_modFunc_self, h, flushCqGo_nil, State.modFunc_modFunc]
  refine State.modFunc_congr ?_
  generalize g (s.func p f) = y at h
  rw [← h]

section
variable {p f : Nat} (hf : f < 16) (hr : (s.pkg p).recovery = false)
include hf hr

theorem State.writeCqCtl_taken {c : W64} (h : (c &&& 0x00000000000E001F#64).getLsbD 17 = true →
      6 ≤ cqLog2N (c &&& 0x00000000000E001F#64) ∧ cqLog2N (c &&& 0x00000000000E001F#64) ≤ 16) : s.writeCqCtl p f c =
    (s.modFunc p f fun x => { x with cqCtl := c &&& 0x00000000000E001F#64
                                     cqN := if bit (c &&& 0x00000000000E001F#64) 17 ∧ !bit x.cqCtl 17 then 0 else x.cqN }).flushCq p f := by
  unfold State.writeCqCtl
  dsimp only
  rw [if_neg (by rw [hr, show Config.functions = 16 from rfl]; simp; omega), if_neg]
  rintro ⟨h1, h2⟩
  have := h h1
  omega

theorem State.writeCqHead_taken (v : W32) : s.writeCqHead p f v = (s.modFunc p f fun x => { x with cqHead := v }).flushCq p f := by
  unfold State.writeCqHead
  exact if_neg (by rw [hr, show Config.functions = 16 from rfl]; simp; omega)

end

theorem State.cqWrites_dropped {p f : Nat} (h : 16 ≤ f ∨ (s.pkg p).recovery = true) (c : W64) (v : W32) :
    s.writeCqCtl p f c = s ∧ s.writeCqHead p f v = s := by
  unfold State.writeCqCtl State.writeCqHead
  exact ⟨if_pos h, if_pos h⟩

theorem State.writeCqCtl_refused {p f : Nat} {c : W64} (h1 : (c &&& 0x00000000000E001F#64).getLsbD 17 = true)
    (h2 : cqLog2N (c &&& 0x00000000000E001F#64) < 6 ∨ 16 < cqLog2N (c &&& 0x00000000000E001F#64)) : s.writeCqCtl p f c = s := by
  unfold State.writeCqCtl
  dsimp only
  rw [if_pos (show bit (c &&& 0x00000000000E001F#64) 17 = true ∧ _ from ⟨h1, h2⟩), ite_self]

/-- The one entry that is held is written at the place of entry 0, as the queue is enabled (R272). -/
theorem flushCqGo_first {p f : Nat} {e : CqEntry} {x : Func} (hx : s.func p f = x) (hen : bit x.cqCtl 17 = true) (hn : x.cqN = 0) :
    ((flushCqGo s p f [e]).func p f).held = [] ∧ ((flushCqGo s p f [e]).func p f).cqN = 1
      ∧ ((flushCqGo s p f [e]).func p f).msix = fld x.cqCtl 18 2 :: x.msix
      ∧ (List.range 32).map (fun i => (flushCqGo s p f [e]).hostByte (fld x.cqBase 12 52 * 4096 + i)) = e.bytes 0 (cqLog2N x.cqCtl) := by
  have place : x.cqPlace = fld x.cqBase 12 52 * 4096 := by
    unfold Func.cqPlace
    rw [hn, Nat.zero_mod, Nat.mul_zero, Nat.add_zero]
  have room : (s.func p f).cqRoom := by
    rw [hx]
    exact ⟨hen, by rw [hn, Nat.zero_sub]; exact Nat.two_pow_pos _⟩
  have bytes := s.hostBytes_putHost (fld x.cqBase 12 52 * 4096) (e.bytes 0 (cqLog2N x.cqCtl))
  have func : (s.putHost (fld x.cqBase 12 52 * 4096) (e.bytes 0 (cqLog2N x.cqCtl))).func p f = x := (State.func_putHost _ _ _ _ _).trans hx
  rw [CqEntry.length_bytes] at bytes
  rw [flushCqGo_room room, hx, place, hn, flushCqGo_nil, State.modFunc_modFunc]
  generalize s.putHost (fld x.cqBase 12 52 * 4096) (e.bytes 0 (cqLog2N x.cqCtl)) = w at bytes func ⊢
  rw [State.func_modFunc_self, func]
  exact ⟨rfl, by rw [Func.cqWrote, hn], rfl, bytes⟩

theorem cqLog2N_eq (c : W64) : cqLog2N c = c.toNat % 32 := by
  exact (fld_eq c 0 5).trans (by rw [Nat.pow_zero, Nat.div_one]; rfl)

theorem cqVector_eq (c : W64) : fld c 18 2 = c.toNat / 262144 % 4 := fld_eq c 18 2

theorem State.torn_modSlot (s : State) (p f n sub : Nat) : (s.modSlot p f n id).torn p f n sub = s.torn p f n sub := by
  unfold State.torn
  rw [State.modSlot_modSlot]
  rfl

/-- A re-read of the stamp of a slot whose notify stands (R51 step 2). -/
theorem launchStampReread_eq {p f n m : Nat} {v : W32} (hm : (slotOf s p f n).notify = some (v, m)) (hr : (s.func p f).flrb = false) :
    exec (.launchStampReread p f n) s = .next (s.compareStamp p f n v m) := by
  have hm : (Tab.get {} (s.func p f).slots n).notify = some (v, m) := hm
  show execLaunchStampReread p f n s = _
  unfold execLaunchStampReread
  rw [hm]
  dsimp only
  rw [if_neg (by rw [hr]; exact Bool.false_ne_true)]

/-- CQ_CTL as the queue is enabled with one entry held and the host's head at 0: the entry is written (R272). -/
theorem State.writeCqCtl_enables {p f : Nat} {c w : W64} {e : CqEntry} (hw : c &&& 0xE001F#64 = w) (hf : f < 16) (hr : (s.pkg p).recovery = false)
    (hlg : w.getLsbD 17 = true → 6 ≤ w.toNat % 32 ∧ w.toNat % 32 ≤ 16) (hon : (w.getLsbD 17 && !(s.func p f).cqCtl.getLsbD 17) = true)
    (hh : (s.func p f).held = [e]) :
    ((s.writeCqCtl p f c).func p f).held = [] ∧ ((s.writeCqCtl p f c).func p f).cqN = 1
      ∧ ((s.writeCqCtl p f c).func p f).msix = w.toNat / 262144 % 4 :: (s.func p f).msix
      ∧ (List.range 32).map (fun i => (s.writeCqCtl p f c).hostByte (((s.func p f).cqBase.toNat / 4096 % 2 ^ 52) * 4096 + i))
        = e.bytes 0 (w.toNat % 32) := by
  subst hw
  have rises : bit (c &&& 0xE001F#64) 17 = true ∧ (!bit (s.func p f).cqCtl 17) = true := by simpa [bit] using hon
  rw [State.writeCqCtl_taken hf hr (by rw [cqLog2N_eq]; exact hlg), State.flushCq, State.func_modFunc_self]
  dsimp only
  rw [hh]
  have first := flushCqGo_first (e := e) (s.func_modFunc_self p f fun x =>
    { x with cqCtl := c &&& 0xE001F#64, cqN := if bit (c &&& 0xE001F#64) 17 ∧ !bit x.cqCtl 17 then 0 else x.cqN }) rises.1 (if_pos rises)
  rw [cqLog2N_eq, cqVector_eq, fld_eq] at first
  exact first

/-- Settles O40: the window's writes, step by step. -/
theorem launchWindow : Obligations.LaunchWindow := by
  unfold Obligations.LaunchWindow
  intro s p f n v c x sl stamp
  refine ⟨fun hr hf hn h => ?_, fun h => ?_, fun hr hf hn h1 h2 h3 => ?_, fun m hm hfl => ?_, fun l d hl hd hc hq hn => ?_, fun h => ?_,
    ⟨fun h1 h2 => ?_, fun hf hr h => ⟨fun hh => ?_, fun e hrise hh h0 => ?_⟩⟩, fun hf hr hh => ?_, fun hf => ?_, fun hf => ?_⟩
  · exact ⟨_, congrArg Host.Outcome.next (State.notify_busy hr hf hn h), State.modSlot_only _ _ _ _ _, slotOf_modSlot _ _ _ _ _⟩
  · exact congrArg Host.Outcome.next (State.notify_dropped h)
  · have ready := State.notify_ready (v := v) hr hf hn h1 h2 h3
    refine ⟨fun hs => ⟨_, congrArg Host.Outcome.next (ready.trans (if_pos hs)), State.torn_torn _ _ _ _ _ _⟩,
      fun hs (hv : slotStamp s p f n ≠ v) => ?_,
      fun hs (hv : slotStamp s p f n = v) hok => ?_⟩
    · rw [if_neg hs, State.compareStamp_eq, slotStamp_modSlot, if_neg hv, if_neg (by decide), State.modSlot_modSlot] at ready
      exact ⟨_, congrArg Host.Outcome.next ready, State.modSlot_only _ _ _ _ _, slotOf_modSlot _ _ _ _ _⟩
    · rw [if_neg hs, State.compareStamp_eq, slotStamp_modSlot, if_pos hv] at ready
      exact ⟨_, congrArg Host.Outcome.next ready, Accepted.of_modSlot (State.acceptLaunch_accepted (slotOk_modSlot _ _ _ _ hok))⟩
  · rw [launchStampReread_eq hm hfl, State.compareStamp_eq]
    refine ⟨fun (hv : slotStamp s p f n ≠ v) h0 => ?_, fun (hv : slotStamp s p f n ≠ v) h0 => ?_,
      fun hv hok => ⟨_, congrArg Host.Outcome.next (if_pos hv), State.acceptLaunch_accepted hok⟩⟩
    · rw [if_neg hv, if_neg (by omega)]
      exact ⟨_, rfl, State.modSlot_only _ _ _ _ _, slotOf_modSlot _ _ _ _ _⟩
    · rw [if_neg hv, if_pos h0, ← State.torn_modSlot]
      exact ⟨_, rfl, State.torn_torn _ _ _ _ _ _⟩
  · obtain ⟨e, hq, rfl⟩ := State.queueAt_registerNext hl hd hc hq hn
    exact ⟨_, _, rfl, hq, rfl, rfl, rfl, rfl, rfl, rfl, State.launches_registerNext hl hd hc ‹_› hn⟩
  · obtain ⟨h1, h2⟩ := State.cqWrites_dropped h c v
    exact ⟨congrArg Host.Outcome.next h1, congrArg Host.Outcome.next h2⟩
  · exact ⟨_, rfl, State.writeCqCtl_refused h1 (by rw [cqLog2N_eq]; exact h2)⟩
  · have taken := State.writeCqCtl_taken hf hr (c := c) (by rw [cqLog2N_eq]; exact h)
    rw [State.flushCq_empty hh] at taken
    obtain ⟨only, func⟩ := State.modFunc_spec taken
    refine ⟨_, rfl, only, func.trans ?_⟩
    simp [x, bit]
  · exact ⟨_, rfl, State.writeCqCtl_enables rfl hf hr h hrise hh⟩
  · have taken := State.writeCqHead_taken hf hr v
    rw [State.flushCq_empty hh] at taken
    exact ⟨_, rfl, State.modFunc_spec taken⟩
  · exact congrArg Host.Outcome.next (if_pos hf)
  · exact ⟨_, congrArg Host.Outcome.next (if_neg (Nat.not_le.2 hf)), State.modPkg_spec rfl⟩

end Sys2Proof.Machine
end

section
/-! SUPPORT. The record that a pop takes (R39). -/

namespace Sys2Proof.Machine

variable {s t : State}

/-- The tile that a pop would give a queued record of die d. -/
def State.popTile (s : State) (d : Nat) (e : Entry) : Option Nat :=
  if e.cr.isCanc && !s.discardable d e then none else s.idleFor e.cr d

theorem State.popChoice_eq (s : State) (d : Nat) : s.popChoice d = (s.die d).queues.reverse.findSome? fun (l : Nat × List Entry) =>
    l.2.findSome? fun e => (s.popTile d e).map fun k => (l.1, e, k) := by
  unfold State.popChoice State.popTile
  congr 1
  funext l
  congr 1
  funext e
  split <;> rfl

/-- What a pop gives a record is a tile that it may have. -/
theorem dispatchable_of_popTile {d k : Nat} {e : Entry} (h : s.popTile d e = some k) : Dispatchable s d e k := by
  unfold State.popTile at h
  split at h
  · cases h
  · next hc =>
    unfold State.idleFor at h
    split at h
    · next hq =>
      have found := List.find?_some h
      have ⟨hi, ha⟩ := Bool.and_eq_true_iff.1 found
      refine ⟨List.mem_of_find?_eq_some h, hi, ha, hq.1, by simpa using hq.2, fun he => ?_⟩
      simpa [he] using hc
    · cases h

/-- A record without a tile at a pop is not dispatchable. -/
theorem not_dispatchable_of_popTile {d : Nat} {e : Entry} (h : s.popTile d e = none) (n : Nat) : ¬ Dispatchable s d e n := by
  rintro ⟨hm, hi, ha, hq, hf, hd⟩
  unfold State.popTile at h
  rw [if_neg] at h
  · unfold State.idleFor at h
    rw [if_pos ⟨hq, by simp [hf]⟩] at h
    exact absurd (Bool.and_eq_true_iff.2 ⟨hi, ha⟩) (List.find?_eq_none.1 h n hm)
  · intro hc
    have ⟨h1, h2⟩ := Bool.and_eq_true_iff.1 hc
    rw [hd h1] at h2
    exact Bool.false_ne_true h2

/-- A level has nothing to pop exactly where none of its records has a tile. -/
theorem level_none_iff {d q : Nat} {l : List Entry} :
    (l.findSome? fun e => (s.popTile d e).map fun k => (q, e, k)) = none ↔ ∀ x ∈ l, s.popTile d x = none := by
  simp [List.findSome?_eq_none_iff]

/-- What stands between smaller and greater keys is read at its key. -/
theorem Tab.get_middle {α : Type} (dflt : α) {below above : Tab α} {p : Nat} {v : α} (h : ∀ x ∈ below, x.1 < p) :
    Tab.get dflt (below ++ (p, v) :: above) p = v := by
  unfold Tab.get
  induction below with
  | nil => simp [Tab.find?]
  | cons x below ih =>
    have hx := h x List.mem_cons_self
    rw [List.cons_append, Tab.find?, if_neg (by omega)]
    exact ih fun y hy => h y (List.mem_cons_of_mem _ hy)

/-- Writing a key of a table with rising keys keeps them rising. -/
theorem Tab.set_rising {α : Type} [DecidableEq α] (dflt : α) {t : Tab α} (k : Nat) (v : α) (h : (t.map Prod.fst).Pairwise (· < ·)) :
    ((Tab.set dflt t k v).map Prod.fst).Pairwise (· < ·) := by
  rw [List.pairwise_map] at h ⊢
  have erased : (Tab.erase t k).Pairwise fun a b => a.1 < b.1 := h.filter _
  unfold Tab.set
  split
  · exact erased
  · exact Tab.pairwise_insert _ _ _ erased fun p hp => by simpa using (List.mem_filter.1 hp).2

/-- A pop takes the oldest record that has a tile of the highest level that holds one (R39). -/
theorem popChoice_some {d p k : Nat} {e : Entry} (h : s.popChoice d = some (p, e, k)) : s.popTile d e = some k
    ∧ ∃ below above older younger, (s.die d).queues = below ++ (p, older ++ e :: younger) :: above
      ∧ (∀ x ∈ older, s.popTile d x = none) ∧ ∀ l ∈ above, ∀ x ∈ l.2, s.popTile d x = none := by
  rw [State.popChoice_eq] at h
  obtain ⟨above, ⟨q, l⟩, below, hl, hq, hab⟩ := List.findSome?_eq_some_iff.1 h
  obtain ⟨older, x, younger, rfl, hx, ho⟩ := List.findSome?_eq_some_iff.1 hq
  obtain ⟨n, hn, he⟩ := Option.map_eq_some_iff.1 hx
  obtain ⟨rfl, rfl, rfl⟩ : q = p ∧ x = e ∧ n = k := by simpa using he
  refine ⟨hn, below.reverse, above.reverse, older, younger, ?_, fun y hy => by simpa using ho y hy, fun l hl => ?_⟩
  · rw [← List.reverse_reverse (s.die d).queues, hl]
    simp
  · exact level_none_iff.1 (hab l (List.mem_reverse.1 hl))

theorem popRule_holds : popRule := by
  unfold popRule
  intro s d
  refine ⟨fun p e k h => ?_, fun h l hl x hx => ?_, fun h p l => ?_⟩
  · obtain ⟨hk, below, above, older, younger, hq, ho, ha⟩ := popChoice_some h
    refine ⟨dispatchable_of_popTile hk, below, above, older, younger, hq, fun x hx => not_dispatchable_of_popTile (ho x hx),
      fun l hl x hx => not_dispatchable_of_popTile (ha l hl x hx), fun hs => ?_⟩
    rw [hq, List.map_append, List.map_cons, List.pairwise_append, List.pairwise_cons] at hs
    obtain ⟨-, ⟨hup, -⟩, hlow⟩ := hs
    refine ⟨fun l hl => hup _ (List.mem_map_of_mem hl), ?_⟩
    unfold State.queueAt
    rw [hq]
    exact Tab.get_middle [] fun x hx => hlow _ (List.mem_map_of_mem hx) _ List.mem_cons_self
  · rw [State.popChoice_eq, List.findSome?_eq_none_iff] at h
    exact not_dispatchable_of_popTile (level_none_iff.1 (h l (List.mem_reverse.2 hl)) x hx)
  · unfold State.setQueueAt
    rw [State.die_modDie_self]
    exact Tab.set_rising [] p l h

end Sys2Proof.Machine
end

section
/-! SUPPORT. Aging of queued records (R40). -/

namespace Sys2Proof.Machine

variable {s t : State}

theorem WorkOnly.agedNow (h : WorkOnly s t) (d : Nat) (r : Rec) : t.agedNow d r = s.agedNow d r := by
  unfold State.agedNow
  rw [h.ptc, h.die d]

/-! ## One record, one level -/

/-- A record leaves its level for the tail of the level that it is raised to. -/
def State.ageOne (s : State) (d p : Nat) (e : Entry) : State :=
  let w := s.setQueueAt d p ((s.queueAt d p).erase e)
  w.setQueueAt d e.raised.cr.prio (w.queueAt d e.raised.cr.prio ++ [e.raised])

theorem State.ageOne_workOnly (s : State) (d p : Nat) (e : Entry) : WorkOnly s (s.ageOne d p e) :=
  (s.setQueueAt_workOnly d p _).trans (State.setQueueAt_workOnly _ _ _ _)

theorem State.ageLevel_eq (s : State) (d p : Nat) :
    s.ageLevel d p = (s.queueAt d p).foldl (fun s e => if s.agedNow d e.cr then s.ageOne d p e else s) s := rfl

theorem State.ageLevel_workOnly (s : State) (d p : Nat) : WorkOnly s (s.ageLevel d p) := by
  rw [State.ageLevel_eq]
  refine WorkOnly.foldl (fun s e => ?_) _ s
  split
  · exact s.ageOne_workOnly d p e
  · exact .refl s

/-- A level without a record that is due keeps its records. -/
theorem State.ageLevel_none {d p : Nat} (h : ∀ x ∈ s.queueAt d p, s.agedNow d x.cr = false) : s.ageLevel d p = s := by
  rw [State.ageLevel_eq]
  generalize s.queueAt d p = l at h
  induction l with
  | nil => rfl
  | cons e l ih =>
    rw [List.foldl_cons, if_neg (by rw [h e List.mem_cons_self]; exact Bool.false_ne_true)]
    exact ih fun x hx => h x (List.mem_cons_of_mem _ hx)

theorem State.queueAt_ageOne (s : State) (d p q : Nat) (e : Entry) : (s.ageOne d p e).queueAt d q =
    (if q = p then (s.queueAt d p).erase e else s.queueAt d q) ++ if e.raised.cr.prio = q then [e.raised] else [] := by
  unfold State.ageOne
  dsimp only
  rw [State.queueAt_setQueueAt, State.queueAt_setQueueAt, State.queueAt_setQueueAt]
  by_cases hq : e.raised.cr.prio = q
  · subst hq
    simp
  · simp [hq, Ne.symm hq]

theorem agedPart_nil (s : State) (d q : Nat) : agedPart s d [] q = [] := rfl

theorem agedPart_append (s : State) (d q : Nat) (l m : List Entry) : agedPart s d (l ++ m) q = agedPart s d l q ++ agedPart s d m q := by
  simp [agedPart]

theorem agedPart_single (s : State) (d q : Nat) (e : Entry) :
    agedPart s d [e] q = if s.agedNow d e.cr ∧ e.raised.cr.prio = q then [e.raised] else [] := by
  have : e.raised.cr.prio = min (e.cr.prio + 16) 255 := rfl
  by_cases h1 : s.agedNow d e.cr <;> by_cases h2 : min (e.cr.prio + 16) 255 = q <;> simp [agedPart, h1, h2, this]

theorem WorkOnly.agedPart_eq (h : WorkOnly s t) (d q : Nat) (l : List Entry) : agedPart t d l q = agedPart s d l q := by
  unfold agedPart
  simp only [h.agedNow]

/-- What stays of a level at its visit. -/
def State.unaged (s : State) (d : Nat) (l : List Entry) : List Entry := l.filter fun e => !s.agedNow d e.cr

theorem WorkOnly.unaged (h : WorkOnly s t) (d : Nat) (l : List Entry) : t.unaged d l = s.unaged d l := by
  unfold State.unaged
  simp only [h.agedNow]

/-- A visit to a level, with the records `done` weighed and `es` still to weigh (R40). -/
theorem queueAt_foldl_age {d p : Nat} (es : List Entry) : ∀ (done : List Entry) (t : State), WorkOnly s t → (done ++ es).Nodup →
    (∀ q, t.queueAt d q = (if q = p then s.unaged d done ++ es else s.queueAt d q) ++ agedPart s d done q) → ∀ q,
    (es.foldl (fun s e => if s.agedNow d e.cr then s.ageOne d p e else s) t).queueAt d q =
      (if q = p then s.unaged d (done ++ es) else s.queueAt d q) ++ agedPart s d (done ++ es) q := by
  induction es with
  | nil => exact fun done t _ _ ht q => by simpa using ht q
  | cons e es ih =>
    intro done t hw hn ht q
    rw [List.foldl_cons, ← List.singleton_append, ← List.append_assoc]
    have fresh : e ∉ s.unaged d done := fun he => by
      have := (List.nodup_append.1 hn).2.2 e (List.mem_filter.1 he).1 e List.mem_cons_self
      exact this rfl
    have head : (s.unaged d done ++ e :: es ++ agedPart s d done p).erase e = s.unaged d done ++ es ++ agedPart s d done p := by
      rw [List.append_assoc, List.erase_append_right _ fresh, List.cons_append, List.erase_cons_head, List.append_assoc]
    have nodup : (done ++ [e] ++ es).Nodup := by rwa [List.append_assoc, List.singleton_append]
    by_cases ha : s.agedNow d e.cr = true
    · rw [if_pos ((hw.agedNow d e.cr).trans ha)]
      refine ih (done ++ [e]) _ (hw.trans (t.ageOne_workOnly d p e)) nodup (fun q => ?_) q
      have stays : s.unaged d (done ++ [e]) = s.unaged d done := by simp [State.unaged, ha]
      rw [State.queueAt_ageOne, agedPart_append, agedPart_single, stays, ht p, if_pos rfl, head, ht q]
      by_cases hq : q = p
      · subst hq
        simp [ha]
      · simp [ha, hq]
    · rw [if_neg (by rw [hw.agedNow]; exact ha)]
      refine ih (done ++ [e]) t hw nodup (fun q => ?_) q
      have stays : s.unaged d (done ++ [e]) = s.unaged d done ++ [e] := by simp [State.unaged, ha]
      rw [agedPart_append, agedPart_single, stays, ht q, if_neg (c := _ ∧ _) (fun h => ha h.1), List.append_nil,
        List.append_assoc, List.singleton_append]

/-- A visit to a level (R40). -/
theorem State.queueAt_ageLevel {d p : Nat} (h : (s.queueAt d p).Nodup) (q : Nat) : (s.ageLevel d p).queueAt d q =
    (if q = p then s.unaged d (s.queueAt d p) else s.queueAt d q) ++ agedPart s d (s.queueAt d p) q := by
  refine queueAt_foldl_age (s := s) (s.queueAt d p) [] s (.refl s) h (fun q => ?_) q
  rw [agedPart_nil, List.append_nil]
  split
  · next e => rw [e]; rfl
  · rfl

/-! ## A sweep, highest level first -/

/-- A level of a die whose records all have its priority, each once. -/
def LevelOk (l : Nat × List Entry) : Prop := l.2.Nodup ∧ l.1 ≤ 255 ∧ ∀ e ∈ l.2, e.cr.prio = l.1

/-- Nothing is raised from a level into a lower one. -/
theorem agedPart_lower {d q : Nat} {l : Nat × List Entry} (h : LevelOk l) (hq : q < l.1) : agedPart s d l.2 q = [] := by
  obtain ⟨-, h255, hp⟩ := h
  unfold agedPart
  rw [List.map_eq_nil_iff, List.filter_eq_nil_iff]
  intro e he
  have := hp e he
  simp only [Bool.and_eq_true, decide_eq_true_eq, not_and]
  omega

/-- The levels `ls`, in falling order, are visited one after another (R40). -/
theorem queueAt_foldl_ageLevel {d : Nat} (ls : List (Nat × List Entry)) : ∀ s : State, (ls.map Prod.fst).Pairwise (· > ·) →
    (∀ l ∈ ls, LevelOk l ∧ s.queueAt d l.1 = l.2) → ∀ q,
    ((ls.map Prod.fst).foldl (fun s p => s.ageLevel d p) s).queueAt d q =
      (if q ∈ ls.map Prod.fst then s.unaged d (s.queueAt d q) else s.queueAt d q) ++ ls.flatMap fun l => agedPart s d l.2 q := by
  induction ls with
  | nil => exact fun s _ _ q => by simp
  | cons l ls ih =>
    intro s hs hl q
    rw [List.map_cons, List.pairwise_cons] at hs
    obtain ⟨low, hs⟩ := hs
    obtain ⟨hok, hq⟩ := hl l List.mem_cons_self
    have work := s.ageLevel_workOnly d l.1
    have visit := State.queueAt_ageLevel (s := s) (d := d) (p := l.1) (by rw [hq]; exact hok.1)
    rw [hq] at visit
    have below (q : Nat) (h : q ∈ ls.map Prod.fst) : (s.ageLevel d l.1).queueAt d q = s.queueAt d q := by
      rw [visit, agedPart_lower hok (low q h), List.append_nil, if_neg (Nat.ne_of_lt (low q h))]
    rw [List.map_cons, List.foldl_cons, ih _ hs (fun m hm => ⟨(hl m (List.mem_cons_of_mem _ hm)).1,
      (below m.1 (List.mem_map_of_mem hm)).trans (hl m (List.mem_cons_of_mem _ hm)).2⟩), List.flatMap_cons]
    simp only [work.unaged, work.agedPart_eq]
    by_cases h : q ∈ ls.map Prod.fst
    · rw [if_pos h, if_pos (List.mem_cons_of_mem _ h), below q h, agedPart_lower hok (low q h), List.nil_append]
    · rw [if_neg h, visit, List.append_assoc]
      by_cases e : q = l.1
      · rw [if_pos e, if_pos (by rw [e]; exact List.mem_cons_self), e, hq]
      · rw [if_neg e, if_neg (by rw [List.mem_cons]; exact not_or.2 ⟨e, h⟩)]

/-- Of the levels that a sweep visits, those without a record do not count. -/
theorem flatMap_agedPart_filter (s : State) (d q : Nat) (ls : List (Nat × List Entry)) :
    ((ls.filter fun l => !l.2.isEmpty).flatMap fun l => agedPart s d l.2 q) = ls.flatMap fun l => agedPart s d l.2 q := by
  induction ls with
  | nil => rfl
  | cons l ls ih =>
    obtain ⟨p, es⟩ := l
    cases es with
    | nil => simpa [agedPart_nil] using ih
    | cons e es => simpa using ih

/-- A die's queues without the levels that hold no record. -/
def State.packQueues (s : State) (d : Nat) : State := s.modDie d fun x => { x with queues := x.queues.filter fun l => !l.2.isEmpty }

/-- A sweep of a die without cancelled records: its levels are aged, the highest first (R40). -/
theorem State.sweep_eq {d : Nat} (h : ∀ l ∈ (s.die d).queues, ∀ e ∈ l.2, e.cr.isCanc = false) :
    s.sweep d = (((s.packQueues d).die d).queues.reverse.map Prod.fst |>.foldl (fun s p => s.ageLevel d p) (s.packQueues d)).preemptAll d := by
  have gone : ((s.die d).queues.flatMap fun (q : Nat × List Entry) => q.2.filter fun e => e.cr.isCanc && s.discardable d e) = [] := by
    rw [List.flatMap_eq_nil_iff]
    intro l hl
    rw [List.filter_eq_nil_iff]
    intro e he
    simp [h l hl e he]
  have kept : ((s.die d).queues.map fun (q : Nat × List Entry) => (q.1, q.2.filter fun e => !(e.cr.isCanc && s.discardable d e)))
      = (s.die d).queues := by
    rw [List.map_congr_left (g := id), List.map_id]
    intro l hl
    rw [List.filter_eq_self.2 fun e he => by simp [h l hl e he]]
    rfl
  have pack : (s.modDie d fun x => { x with queues := (x.queues.map fun (q : Nat × List Entry) =>
      (q.1, q.2.filter fun e => !(e.cr.isCanc && s.discardable d e))).filter fun q => !q.2.isEmpty }) = s.packQueues d := by
    unfold State.packQueues State.modDie
    dsimp only
    rw [kept]
  unfold State.sweep
  dsimp only
  rw [gone, pack, List.foldl_nil, Tab.keys, List.map_reverse]

theorem State.packQueues_workOnly (s : State) (d : Nat) : WorkOnly s (s.packQueues d) := .modDie _ _ _ rfl

theorem State.queues_packQueues (s : State) (d : Nat) :
    ((s.packQueues d).die d).queues = (s.die d).queues.filter fun l => !l.2.isEmpty := by
  unfold State.packQueues
  rw [State.die_modDie_self]

/-- A level with records is read at its priority, in a die whose levels are listed by rising priority. -/
theorem Tab.get_of_mem {α : Type} (dflt : α) {t : Tab α} {x : Nat × α} (hs : (t.map Prod.fst).Pairwise (· < ·)) (hx : x ∈ t) :
    Tab.get dflt t x.1 = x.2 := by
  obtain ⟨below, above, rfl⟩ := List.append_of_mem hx
  rw [List.map_append, List.map_cons, List.pairwise_append] at hs
  exact Tab.get_middle dflt fun y hy => hs.2.2 _ (List.mem_map_of_mem hy) _ List.mem_cons_self

theorem Tab.find_of_notMem {α : Type} {t : Tab α} {k : Nat} (h : k ∉ t.map Prod.fst) : Tab.find? t k = none := by
  cases e : Tab.find? t k with
  | none => rfl
  | some v => exact absurd (List.mem_map_of_mem (Tab.mem_of_find e)) h

theorem Tab.get_of_notMem {α : Type} (dflt : α) {t : Tab α} {k : Nat} (h : k ∉ t.map Prod.fst) : Tab.get dflt t k = dflt := by
  unfold Tab.get
  rw [Tab.find_of_notMem h]
  rfl

theorem State.rising_packQueues {d : Nat} (hs : ((s.die d).queues.map Prod.fst).Pairwise (· < ·)) :
    (((s.packQueues d).die d).queues.map Prod.fst).Pairwise (· < ·) := by
  rw [s.queues_packQueues]
  exact hs.sublist (List.filter_sublist.map _)

/-- Every level reads as before. -/
theorem State.queueAt_packQueues {d : Nat} (hs : ((s.die d).queues.map Prod.fst).Pairwise (· < ·)) (q : Nat) :
    (s.packQueues d).queueAt d q = s.queueAt d q := by
  have queues := s.queues_packQueues d
  have rising := State.rising_packQueues hs
  by_cases h : q ∈ ((s.packQueues d).die d).queues.map Prod.fst
  · obtain ⟨l, hm, rfl⟩ := List.mem_map.1 h
    have read := Tab.get_of_mem [] rising hm
    rw [queues] at hm
    exact read.trans (Tab.get_of_mem [] hs (List.mem_of_mem_filter hm)).symm
  · have read : (s.packQueues d).queueAt d q = [] := Tab.get_of_notMem [] h
    rw [read]
    by_cases hq : q ∈ (s.die d).queues.map Prod.fst
    · obtain ⟨l, hm, rfl⟩ := List.mem_map.1 hq
      have full : s.queueAt d l.1 = l.2 := Tab.get_of_mem [] hs hm
      rw [full]
      by_contra hne
      refine h (List.mem_map_of_mem ?_)
      rw [queues, List.mem_filter]
      exact ⟨hm, by simpa using fun e => hne e.symm⟩
    · exact (Tab.get_of_notMem [] hq).symm

theorem agingRule_holds : agingRule := by
  unfold agingRule
  intro s d hs hl
  refine ⟨_, congrArg Host.Outcome.next (State.sweep_eq fun l h e he => ((hl l h).2.2 e he).1), fun q _ => ?_⟩
  have work := s.packQueues_workOnly d
  have queues := s.queues_packQueues d
  have rising := State.rising_packQueues hs
  have same := State.queueAt_packQueues hs
  have swept := queueAt_foldl_ageLevel (d := d) ((s.packQueues d).die d).queues.reverse (s.packQueues d)
    (by rw [List.map_reverse]; exact List.pairwise_reverse.2 rising) (fun l hm => by
      have hm := List.mem_reverse.1 hm
      have read := Tab.get_of_mem [] rising hm
      rw [queues] at hm
      obtain ⟨hn, h255, he⟩ := hl l (List.mem_of_mem_filter hm)
      exact ⟨⟨hn, h255, fun e h => (he e h).2⟩, read⟩) q
  rw [State.queueAt_preemptAll, swept]
  simp only [work.unaged, work.agedPart_eq, same]
  rw [queues, ← List.filter_reverse, flatMap_agedPart_filter]
  congr 1
  split
  · rfl
  · next h =>
    have empty : s.queueAt d q = [] := by
      rw [← same]
      exact Tab.get_of_notMem [] fun hq => h (by rw [List.filter_reverse, ← queues, List.map_reverse]; exact List.mem_reverse.2 hq)
    rw [empty]
    rfl

/-- A due record that is alone on its die (R40). -/
theorem sweep_alone {d : Nat} {e : Entry} (hq : (s.die d).queues = [(e.cr.prio, [e])]) (hp : e.cr.prio ≤ 255) (hc : e.cr.isCanc = false)
    (ha : s.agedNow d e.cr = true) : ∃ t, exec (.agingSweep d) s = .next t ∧ t.queueAt d (min (e.cr.prio + 16) 255) = [e.raised] := by
  obtain ⟨t, ht, h⟩ := agingRule_holds s d (by rw [hq]; exact List.pairwise_singleton _ _) (by
    rw [hq]
    intro l hl
    obtain rfl := List.mem_singleton.1 hl
    refine ⟨List.nodup_singleton e, hp, fun x hx => ?_⟩
    obtain rfl := List.mem_singleton.1 hx
    exact ⟨hc, rfl⟩)
  refine ⟨t, ht, ?_⟩
  have gone (q : Nat) : (s.queueAt d q).filter (fun e => !s.agedNow d e.cr) = [] := by
    unfold State.queueAt Tab.get
    rw [hq, Tab.find?]
    split
    · simp [ha]
    · rfl
  rw [h _ (by omega), gone, hq, List.reverse_singleton, List.flatMap_cons, List.flatMap_nil, agedPart_single, if_pos ⟨ha, rfl⟩]
  rfl

end Sys2Proof.Machine
end

section
/-! SUPPORT. Dispatch and translation of a record (R34, R39, R44). -/

namespace Sys2Proof.Machine

variable {s t : State}

/-! ## Translation does not look at the work tables -/

theorem WorkOnly.peers (h : WorkOnly s t) (p q : Nat) : t.peers p q = s.peers p q := by
  unfold State.peers
  rw [h.pkg, h.pkg]

theorem WorkOnly.plainIn (h : WorkOnly s t) (p a : Nat) : t.plainIn p a = s.plainIn p a := by
  unfold State.plainIn State.pkgNamed
  simp only [h.pkg]

theorem WorkOnly.leafDecodes (h : WorkOnly s t) (q p size : Nat) : leafDecodes t q p size = leafDecodes s q p size := by
  unfold Machine.leafDecodes
  rw [h.peers]

theorem WorkOnly.walkGo (h : WorkOnly s t) (q va : Nat) : ∀ lv table, walkGo t q va lv table = walkGo s q va lv table := by
  intro lv
  induction lv with
  | zero => exact fun _ => rfl
  | succ lv ih =>
    intro table
    unfold Machine.walkGo
    have bytes (p n : Nat) : readLe t p n = readLe s p n := by
      unfold readLe State.bytes
      simp only [h.byte]
    simp only [bytes, h.plainIn, h.leafDecodes, ih]

theorem WorkOnly.walk (h : WorkOnly s t) (d asid va : Nat) : t.walk d asid va = s.walk d asid va := by
  unfold State.walk
  rw [h.die d]
  simp only [h.plainIn, h.leafDecodes, h.walkGo]

theorem WorkOnly.place (h : WorkOnly s t) (d p len : Nat) : t.place d p len = s.place d p len := by
  have link (e : Nat) : t.hubLinkUp d e = s.hubLinkUp d e := by
    unfold State.hubLinkUp
    rw [h.die]
  have resolver (e : Nat) : (t.die e).resolver = (s.die e).resolver := by rw [h.die e]
  unfold State.place
  simp only [link, resolver, h.peers, h.unreachable]

theorem WorkOnly.readJobVa (h : WorkOnly s t) (d asid n : Nat) : ∀ va, t.readJobVa d asid va n = s.readJobVa d asid va n := by
  induction n with
  | zero => exact fun _ => rfl
  | succ n ih =>
    intro va
    unfold State.readJobVa State.resolve
    simp only [h.walk, h.place, h.byte, ih]

theorem WorkOnly.footRange (h : WorkOnly s t) (d asid foot acc fuel : Nat) : ∀ va len es,
    footRange t d asid foot acc fuel va len es = footRange s d asid foot acc fuel va len es := by
  induction fuel with
  | zero => exact fun _ _ _ => rfl
  | succ fuel ih =>
    intro va len es
    unfold Machine.footRange
    simp only [h.walk, ih]

theorem WorkOnly.footList (h : WorkOnly s t) (d asid foot : Nat) (only : Nat → Bool) (n : Nat) : ∀ i es,
    footList t d asid foot only n i es = footList s d asid foot only n i es := by
  induction n with
  | zero => exact fun _ _ => rfl
  | succ n ih =>
    intro i es
    unfold Machine.footList
    simp only [h.readJobVa, h.footRange, ih]

theorem WorkOnly.translate (h : WorkOnly s t) (d asid : Nat) (r : Rec) : t.translate d asid r = s.translate d asid r := h.footList _ _ _ _ _ _ _

/-! ## One pop (R34, R39, R44) -/

/-- What a pop does with the record that it has taken. -/
def State.placeRecord (s : State) (d k : Nat) (e : Entry) : Foot → State
  | .migrating _ => s.setAside d e none
  | .unmapped va => if va ∈ e.reported then s.startUnit k e [] (some va) else s.setAside d e (some va)
  | .ok es => s.startUnit k e es none
  | .fault va => s.startUnit k e [] (some va)

/-- The die's queues without the record. -/
def State.popped (s : State) (d p : Nat) (e : Entry) : State := s.setQueueAt d p ((s.queueAt d p).erase e)

theorem State.dispatchOne_eq {d p k : Nat} {e : Entry} (h : s.popChoice d = some (p, e, k))
    (ha : ∀ x ∈ s.queueAt d p, s.agedNow d x.cr = false) (hc : e.cr.isCanc = false) :
    s.dispatchOne d = ((s.popped d p e).placeRecord d k e (s.translate d (s.job e.cr.job).asid e.cr)).preemptAll d := by
  have work : WorkOnly s (s.popped d p e) := s.setQueueAt_workOnly d p _
  rw [← work.translate d]
  unfold State.dispatchOne
  rw [h]
  dsimp only
  rw [State.ageLevel_none ha, h]
  dsimp only
  rw [if_neg (by rw [hc]; exact Bool.false_ne_true)]
  rfl

theorem State.setAside_workOnly (s : State) (d : Nat) (e : Entry) (asked : Option Nat) : WorkOnly s (s.setAside d e asked) := by
  unfold State.setAside
  cases asked with
  | none => exact WorkOnly.trans (t := { s with nextId := s.nextId + 1 }) ⟨rfl, fun _ => rfl, fun _ => rfl, fun _ => rfl⟩ (.modDie _ _ _ rfl)
  | some va =>
    refine (s.tell_workOnly d 3 e.cr.job va).trans ?_
    exact WorkOnly.trans (t := { s.tell d 3 e.cr.job va with nextId := s.nextId + 1 })
      ⟨rfl, fun _ => rfl, fun _ => rfl, fun _ => rfl⟩ (.modDie _ _ _ rfl)

/-- A record set aside leaves the queues, and the firmware is asked at most for one page (R44). -/
theorem State.die_setAside (s : State) (d : Nat) (e : Entry) (asked : Option Nat) : (s.setAside d e asked).die d =
    { s.die d with
      aside := Tab.put (s.die d).aside s.nextId { entry := e, asked := asked }
      mailbox := (s.die d).mailbox ++ (asked.map fun va => { kind := 3, job := e.cr.job, what := va }).toList } := by
  cases asked with
  | none =>
    have eq : s.setAside d e none = ({ s with nextId := s.nextId + 1 } : State).modDie d fun x =>
      { x with aside := Tab.put x.aside s.nextId { entry := e, asked := none } } := rfl
    rw [eq, State.die_modDie_self, Option.map_none, Option.toList_none, List.append_nil]
    rfl
  | some va =>
    have eq : s.setAside d e (some va) = ({ s.tell d 3 e.cr.job va with nextId := s.nextId + 1 } : State).modDie d fun x =>
      { x with aside := Tab.put x.aside s.nextId { entry := e, asked := some va } } := rfl
    have told : (s.tell d 3 e.cr.job va).die d =
        { s.die d with mailbox := (s.die d).mailbox ++ [{ kind := 3, job := e.cr.job, what := va }] } := State.die_modDie_self _ _ _
    have same : ({ s.tell d 3 e.cr.job va with nextId := s.nextId + 1 } : State).die d = (s.tell d 3 e.cr.job va).die d := rfl
    rw [eq, State.die_modDie_self, same, told]
    rfl

/-- The tile of a first dispatch (R34). -/
def Tile.dispatched (t : Tile) (e : Entry) (asid : Nat) (exts pins : List Extent) : Tile :=
  (((t.blank { e with reported := [] } asid exts pins).putG 1 e.cr.state).putG 2 (w64 e.index)).putG 3 e.cr.frame

theorem State.startUnit_first {k : Nat} {e : Entry} (es : List Extent) (hf : e.frame = none) (h2 : bit e.cr.flags 2 = false) :
    s.startUnit k e es none =
      s.setTile k ((s.tile k).dispatched e (s.job e.cr.job).asid es (s.pinsOf (tileDie k) e.cr.job (s.job e.cr.job).asid)) := by
  unfold State.startUnit
  dsimp only
  rw [hf, Option.bind_none]
  dsimp only
  unfold Tile.firstRegs
  have first : ¬ bit ({ e with frame := none, reported := [] } : Entry).cr.flags 2 = true := fun h => Bool.false_ne_true (h2.symm.trans h)
  rw [if_neg first]
  unfold Tile.dispatched
  rw [hf]

theorem Tile.gReg_dispatched (t : Tile) (e : Entry) (asid : Nat) (exts pins : List Extent) (n : Nat) :
    (t.dispatched e asid exts pins).gReg n = match n with
      | 1 => e.cr.state
      | 2 => BitVec.ofNat 64 e.index
      | 3 => e.cr.frame
      | _ => 0 := by
  have read : (t.dispatched e asid exts pins).g = Tab.set 0 (Tab.set 0 (Tab.set 0 [] 1 e.cr.state) 2 (w64 e.index)) 3 e.cr.frame := rfl
  unfold Tile.gReg
  rw [read]
  match n with
  | 0 => rfl
  | 1 => rw [Tab.get_set_ne _ _ _ (by decide), Tab.get_set_ne _ _ _ (by decide), Tab.get_set_self]; rfl
  | 2 => rw [Tab.get_set_ne _ _ _ (by decide), Tab.get_set_self]; rfl
  | 3 => rw [Tab.get_set_self]; rfl
  | n + 4 => rw [Tab.get_set_ne _ _ _ (by omega), Tab.get_set_ne _ _ _ (by omega), Tab.get_set_ne _ _ _ (by omega)]; rfl

theorem Tile.others_dispatched (t : Tile) (e : Entry) (asid : Nat) (exts pins : List Extent) (n : Nat) :
    (t.dispatched e asid exts pins).fReg n = {} ∧ (t.dispatched e asid exts pins).token n = 0
      ∧ (t.dispatched e asid exts pins).qReg (n + 1) = false := by
  refine ⟨rfl, rfl, ?_⟩
  have read : (t.dispatched e asid exts pins).q = 1#8 := rfl
  unfold Tile.qReg
  rw [read]
  simp

end Sys2Proof.Machine
end

section
/-! SUPPORT. The outcomes of a pop and of a translation (R34, R39, R44, R54). -/

namespace Sys2Proof.Machine

variable {s t : State}

section
variable {d p k : Nat} {e : Entry} (h : s.popChoice d = some (p, e, k)) (ha : ∀ x ∈ s.queueAt d p, s.agedNow d x.cr = false)
variable (hc : e.cr.isCanc = false)
include h ha hc

/-- A record whose footprint is there starts on its tile (R34, R39). -/
theorem dispatch_starts {es : List Extent} (hf : e.frame = none) (ht : s.translate d (s.job e.cr.job).asid e.cr = .ok es)
    (h2 : bit e.cr.flags 2 = false) : ∃ t a b asid pins, exec (.dispatch d) s = .next t ∧ t.queueAt d p = (s.queueAt d p).erase e
      ∧ t.tile k = { Tile.dispatched a e asid es pins with preemptAt := b } ∧ ∀ a, t.byte a = s.byte a := by
  have eq := State.dispatchOne_eq h ha hc
  rw [ht, State.placeRecord, State.startUnit_first es hf h2] at eq
  have pop : WorkOnly s (s.popped d p e) := s.setQueueAt_workOnly d p _
  have work := State.preemptAll_workOnly ((s.popped d p e).setTile k (((s.popped d p e).tile k).dispatched e
    ((s.popped d p e).job e.cr.job).asid es ((s.popped d p e).pinsOf (tileDie k) e.cr.job ((s.popped d p e).job e.cr.job).asid))) d
  have tile := work.tile k
  rw [State.tile_setTile_self] at tile
  refine ⟨_, _, _, _, _, congrArg Host.Outcome.next eq, ?_, tile, fun a => (work.byte a).trans (pop.byte a)⟩
  rw [State.queueAt_preemptAll]
  exact s.queueAt_setQueueAt_self d p _

/-- A record that is set aside leaves its queue; of a tile, a pre-emption at most becomes pending (R44). -/
theorem dispatch_aside {asked : Option Nat} (eq : (s.popped d p e).placeRecord d k e (s.translate d (s.job e.cr.job).asid e.cr)
      = (s.popped d p e).setAside d e asked) : ∃ t, exec (.dispatch d) s = .next t ∧ t.queueAt d p = (s.queueAt d p).erase e
      ∧ (∀ n, ∃ b, t.tile n = { s.tile n with preemptAt := b }) ∧ Tab.find? (t.die d).aside s.nextId = some { entry := e, asked := asked }
      ∧ (t.die d).mailbox = (s.die d).mailbox ++ (asked.map fun va => { kind := 3, job := e.cr.job, what := va }).toList := by
  have placed := State.dispatchOne_eq h ha hc
  rw [eq] at placed
  have work : WorkOnly s (((s.popped d p e).setAside d e asked).preemptAll d) :=
    (s.setQueueAt_workOnly d p _).trans ((State.setAside_workOnly _ _ _ _).trans (State.preemptAll_workOnly _ _))
  have die := (s.popped d p e).die_setAside d e asked
  refine ⟨_, congrArg Host.Outcome.next placed, ?_, fun n => ⟨_, work.tile n⟩, ?_, ?_⟩
  · rw [State.queueAt_preemptAll, State.queueAt, die]
    exact s.queueAt_setQueueAt_self d p _
  · rw [State.die_preemptAll, die, Tab.find_put]
    exact if_pos rfl
  · rw [State.die_preemptAll, die]
    unfold State.popped State.setQueueAt
    rw [State.die_modDie_self]

end

/-! ## A record set aside comes back (R44) -/

/-- The record that was set aside goes to the head of its level. -/
def State.broughtBack (s : State) (d i : Nat) (e : Entry) : State :=
  let gone := s.modDie d fun x => { x with aside := Tab.erase x.aside i }
  (gone.setQueueAt d e.cr.prio (e :: gone.queueAt d e.cr.prio)).preemptFor d e.cr

theorem State.aside_broughtBack (s : State) (d i : Nat) (e : Entry) : Tab.find? ((s.broughtBack d i e).die d).aside i = none := by
  unfold State.broughtBack State.setQueueAt
  rw [State.die_preemptFor, State.die_modDie_self, State.die_modDie_self, Tab.find_erase]
  exact if_pos rfl

theorem State.queueAt_broughtBack (s : State) (d i : Nat) (e : Entry) :
    (s.broughtBack d i e).queueAt d e.cr.prio = e :: s.queueAt d e.cr.prio := by
  unfold State.broughtBack
  rw [State.queueAt_preemptFor, State.queueAt_setQueueAt_self]
  unfold State.queueAt
  rw [State.die_modDie_self]

section
variable {d i : Nat} {x : Parked} (hx : Tab.find? (s.die d).aside i = some x) (hc : x.entry.cr.isCanc = false)
include hx hc

/-- A footprint that is there, that is wrong, or that the firmware has reported, brings the record back (R44). -/
theorem State.translated_back (h : (∃ es, s.translate d (s.job x.entry.cr.job).asid x.entry.cr = .ok es)
      ∨ ∃ va, s.translate d (s.job x.entry.cr.job).asid x.entry.cr = .fault va
        ∨ s.translate d (s.job x.entry.cr.job).asid x.entry.cr = .unmapped va ∧ va ∈ x.entry.reported) :
    s.translated d i = s.broughtBack d i x.entry := by
  have hc' : ¬ x.entry.cr.isCanc = true := by rw [hc]; exact Bool.false_ne_true
  unfold State.translated
  rw [hx]
  dsimp only
  rw [if_neg hc']
  rcases h with ⟨es, h⟩ | ⟨va, h | ⟨h, hr⟩⟩
  · rw [h]
    rfl
  · rw [h]
    rfl
  · rw [h]
    exact if_pos (Or.inl hr)

/-- A page in migration, and one that the firmware has been asked for, leave the record where it is (R44). -/
theorem State.translated_waits {va : Nat} (h : s.translate d (s.job x.entry.cr.job).asid x.entry.cr = .migrating va
      ∨ s.translate d (s.job x.entry.cr.job).asid x.entry.cr = .unmapped va ∧ va ∉ x.entry.reported ∧ x.asked = some va) :
    s.translated d i = s := by
  unfold State.translated
  rw [hx]
  dsimp only
  rcases h with h | ⟨h, hr, hq⟩
  · rw [h]
  · rw [h]
    dsimp only
    rw [if_neg (by simp [hr, hc]), if_pos hq]

end

/-- A pre-emption becomes pending on a running tile (R54). -/
theorem firmwarePreempt_pending {k : Nat} (h : (s.tile k).status = .running) : exec (.firmwarePreempt k) s =
    .next (s.setTile k { s.tile k with preemptAt := some ((s.tile k).preemptAt.getD (s.ptc (tileDie k))) }) := by
  show execFirmwarePreempt k s = _
  unfold execFirmwarePreempt
  rw [h]
  rfl

end Sys2Proof.Machine
end

section
/-! SUPPORT. A cut of a tile at rest, the forced save and the limit of a cancel (R30, R56, R252). -/

namespace Sys2Proof.Machine

variable {s t : State}

/-! ## The cut of a tile with nothing under way (R252) -/

theorem foldl_same {α β : Type} {f : β → α → β} {b : β} (l : List α) (h : ∀ x ∈ l, f b x = b) : l.foldl f b = b := by
  induction l with
  | nil => rfl
  | cons x l ih =>
    rw [List.foldl_cons, h x List.mem_cons_self]
    exact ih fun y hy => h y (List.mem_cons_of_mem _ hy)

/-- A tile that waits at no barrier withdraws requests at most. -/
theorem State.unwait_reqs {k : Nat} (h : ∀ b ∈ (s.die (tileDie k)).bars, ∀ w ∈ b.2.waiters, w.tile ≠ k) :
    ∃ rs, s.unwait k = { s with reqs := rs } := by
  unfold State.unwait
  dsimp only
  rw [foldl_same]
  · exact ⟨_, rfl⟩
  · intro b hb
    refine if_neg ?_
    simpa using h b hb

/-- The tile as its cut leaves it. -/
def Tile.cutTile (t : Tile) (why : CutWhy) : Tile :=
  { t with status := .cutting why, pfx := none, wait := none, vq := [], mq := [], cq := [], journal := [], takers := [], started := []
           seg := t.seg.map fun g => { g with void := true }, loads := t.loads.filter fun c => !(c.pos ∈ ([] : List Nat)) }

theorem Tile.undoFrom_empty {t : Tile} (h : t.journal = []) (p : Nat) : t.undoFrom p = { t with journal := [] } := by
  unfold Tile.undoFrom
  simp only [h, List.reverse_nil, List.filter_nil, List.foldl_nil]

theorem Tile.dropTakers_empty {t : Tile} (h : t.takers = []) (dcc : Nat) (p : Taker → Bool) : t.dropTakers dcc p = { t with takers := [] } := by
  unfold Tile.dropTakers
  rw [h]
  rfl

theorem Tile.commitJournal_empty {t : Tile} (h : t.journal = []) (dcc : Nat) : t.commitJournal dcc = { t with journal := [] } := by
  unfold Tile.commitJournal
  rw [h]
  rfl

/-- What the cut of a tile at rest writes down of the point where the tile stands (R252, R254). -/
def State.cutPoint (s : State) (k : Nat) (i : TrapInfo) : TrapInfo :=
  let t := s.tile k
  { i with
    pc := t.pc, clause := t.clause, cutPos := t.order, ptc := s.ptc (tileDie k)
    next := [nextOf t .vq t.order t.nextV, nextOf t .mq t.order t.nextM, nextOf t .cq t.order t.nextC] }

/-- The reason of such a cut, with its point. -/
def State.cutReason (s : State) (k : Nat) : CutWhy → CutWhy
  | .trap i => .trap (s.cutPoint k i)
  | .save i => .save (s.cutPoint k i)
  | .replay i => .replay (s.cutPoint k i)
  | w => w

/-- A tile with nothing under way stops at its next word, and its cut is over (R252). -/
theorem State.takeCut_atRest {k : Nat} (h : AtRest s k) (why : CutWhy) : ∃ rs,
    s.takeCut k why (s.tile k).order (s.tile k).instrPc (s.tile k).instrClause =
      (State.setTile { s with reqs := rs } k ((s.tile k).cutTile (s.cutReason k why))).endCut k := by
  obtain ⟨⟨ha, hq, hp, hr⟩, hs, hv, hst, hw, hx, ht, hb⟩ := h
  obtain ⟨rs, hu⟩ := State.unwait_reqs hb
  refine ⟨rs, ?_⟩
  obtain ⟨⟨⟨hvq, hmq⟩, hcq⟩, hj⟩ : (((s.tile k).vq = [] ∧ (s.tile k).mq = []) ∧ (s.tile k).cq = []) ∧ (s.tile k).journal = [] := by
    simpa [Tile.ahead, Tile.queued] using ha
  have why' (i : TrapInfo) : s.cutPoint k i = { i with
    pc := (s.tile k).pc, clause := (s.tile k).clause, cutPos := (s.tile k).order, ptc := s.ptc (tileDie k)
    next := [nextOf (s.tile k) .vq (s.tile k).order (s.tile k).nextV, nextOf (s.tile k) .mq (s.tile k).order (s.tile k).nextM
            , nextOf (s.tile k) .cq (s.tile k).order (s.tile k).nextC] } := rfl
  unfold State.takeCut State.cutReason
  dsimp only
  simp only [why']
  generalize s.tile k = a at *
  have held : a.awaiting = false := by
    unfold Tile.awaiting
    rw [hw]
  have plain : a.instrPc = a.pc ∧ a.instrClause = a.clause := by
    unfold Tile.instrPc Tile.instrClause
    rw [hx]
    exact ⟨rfl, rfl⟩
  simp only [held, Bool.false_and, Bool.false_eq_true, if_false, hu, hvq, hmq, hcq, plain, List.append_nil, List.filter_nil, oldestIn,
    List.foldl_nil, gateTokens, List.filterMap_nil, List.find?_nil]
  rw [Tile.undoFrom_empty hj]
  dsimp only
  rw [Tile.dropTakers_empty (by exact ht), Tile.commitJournal_empty (by rfl)]
  congr 2
  unfold Tile.cutTile
  simp only [hst, hvq, hmq, hcq, List.map_nil, List.append_nil, Option.none_or]
  cases why <;> rfl

end Sys2Proof.Machine
end

section
/-! SUPPORT. The save of a unit into a context frame (R56), and the end of a cancelled one (R30). -/

namespace Sys2Proof.Machine

variable {s t : State}

/-! ## A save into a frame (R56) -/

theorem foldl_memOnly {α : Type} {f : State → α → State} (hf : ∀ s a, ∃ m, f s a = { s with mem := m }) (l : List α) :
    ∀ s, ∃ m, l.foldl f s = { s with mem := m } := by
  induction l with
  | nil => exact fun s => ⟨s.mem, rfl⟩
  | cons a l ih =>
    intro s
    obtain ⟨m, hm⟩ := hf s a
    rw [List.foldl_cons, hm]
    exact ih _

theorem State.putFrame_memOnly (s : State) (base : Nat) (v : Saved) : ∃ m, s.putFrame base v = { s with mem := m } := by
  unfold State.putFrame
  generalize List.range 0xF0000 = l
  obtain ⟨m, hm⟩ := foldl_memOnly (f := fun s i => if v.frameByte i = 0 then s else s.putByte (base + i) (v.frameByte i))
    (fun s i => by
      split
      · exact ⟨s.mem, rfl⟩
      · exact ⟨_, rfl⟩) l (s.zeroRange base frameLen)
  obtain ⟨n, hn⟩ := foldl_memOnly (f := fun s (c : Nat × Byte) => s.putByte (base + 0xF0000 + c.1) c.2) (fun s c => ⟨_, rfl⟩) v.slice
    { s.zeroRange base frameLen with mem := m }
  dsimp only
  rw [hm, hn]
  exact ⟨n, rfl⟩

theorem State.setFrame_memOnly (s : State) (d j n : Nat) (v : Saved) :
    ∃ m, s.setFrame d j n v = { s.modJobDie d j fun x => { x with saved := Tab.put x.saved n v } with mem := m } :=
  State.putFrame_memOnly _ _ _

/-- The frame that a save of the unit on tile k takes. -/
def State.saveSlot (s : State) (k : Nat) : Nat :=
  firstFree (Tab.keys (s.jobDie (tileDie k) (s.jobOf k)).saved) ((s.jobDie (tileDie k) (s.jobOf k)).saved.length + 1) 0

/-- What the frame takes. -/
def State.saveImage (s : State) (k : Nat) (i : TrapInfo) : Saved :=
  let t := s.tile k
  { key := k, tile := { (if i.cls = 0 then t.numbers i.next else t) with
      status := .running, preemptAt := none, exts := [], pins := [], wait := none, pfx := none }
    slice := (s.mem.filter fun c => sliceBase k ≤ c.1 && c.1 < sliceBase k + 2 ^ 22).map fun c => (c.1 - sliceBase k, c.2)
    trap := if i.cls = 0 then none else some i
    record := if t.inh then s.readRecord k else none
    ptc := s.ptc (tileDie k), self := s.capSelf k }

/-- The record of the saved unit, which resumes on this tile. -/
def State.saveEntry (s : State) (k : Nat) : Entry :=
  let t := s.tile k
  { t.entry with
    cr := { t.entry.cr with
      flags := t.entry.cr.flags ||| (if t.cancelAt.isSome then 0x2C else 0xC), tileMask := BitVec.ofNat 32 (2 ^ tileNum k)
      dieMask := BitVec.ofNat 8 (2 ^ dieNum (tileDie k)) }
    ext := [], frame := some (s.saveSlot k) }

/-- The frame is taken. -/
def State.slotFilled (s : State) (k : Nat) (i : TrapInfo) : State :=
  s.modJobDie (tileDie k) (s.jobOf k) fun x => { x with saved := Tab.put x.saved (s.saveSlot k) (s.saveImage k i) }

/-- A save takes a frame, frees the tile, and queues its record (R56). -/
theorem State.saveFrame_eq (s : State) (k : Nat) (i : TrapInfo) : ∃ m, s.saveFrame k i =
    ((({ s.slotFilled k i with mem := m } : State).modTile k fun t => { t with grants := [] }).freeTile k).enqueue
      (tileDie k) (s.saveEntry k) := by
  have eq : s.saveFrame k i = (((s.setFrame (tileDie k) (s.jobOf k) (s.saveSlot k) (s.saveImage k i)).modTile k fun t =>
    { t with grants := [] }).freeTile k).enqueue (tileDie k) (s.saveEntry k) := rfl
  obtain ⟨m, hm⟩ := s.setFrame_memOnly (tileDie k) (s.jobOf k) (s.saveSlot k) (s.saveImage k i)
  rw [eq, hm]
  exact ⟨m, rfl⟩

/-- The frame is a free one (R56). -/
theorem State.saveSlot_free (s : State) (k : Nat) : Tab.find? (s.jobDie (tileDie k) (s.jobOf k)).saved (s.saveSlot k) = none := by
  obtain ⟨m, hm, hn⟩ := exists_free (Tab.keys (s.jobDie (tileDie k) (s.jobOf k)).saved)
  rw [Tab.keys, List.length_map] at hm
  exact Tab.find_of_notMem (firstFree_notMem _ _ 0 ⟨m, Nat.zero_le m, by omega, hn⟩)

theorem State.status_saveFrame (s : State) (k : Nat) (i : TrapInfo) : ((s.saveFrame k i).tile k).status = .idle := by
  obtain ⟨m, hm⟩ := s.saveFrame_eq k i
  rw [hm, (State.enqueue_workOnly _ _ _ _).status, State.status_freeTile]

theorem State.jobs_enqueue (s : State) (d : Nat) (e : Entry) (x : Nat) : ((s.enqueue d e).die x).jobs = (s.die x).jobs := by
  rw [State.enqueue_eq, State.die_preemptFor, State.setQueueAt, State.die_modDie]
  split
  · next h => rw [h]
  · rfl

/-- A frame and a queue of the tile's die after a save (R56). -/
theorem State.die_saveFrame (s : State) (k : Nat) (i : TrapInfo) :
    Tab.find? ((s.saveFrame k i).jobDie (tileDie k) (s.jobOf k)).saved (s.saveSlot k) = some (s.saveImage k i)
      ∧ (s.saveFrame k i).queueAt (tileDie k) (s.tile k).entry.cr.prio =
        s.queueAt (tileDie k) (s.tile k).entry.cr.prio ++ [(s.saveEntry k).joining (s.ptc (tileDie k))] := by
  obtain ⟨m, hm⟩ := s.saveFrame_eq k i
  have work : WorkOnly s (s.slotFilled k i) := s.modJobDie_workOnly _ _ _
  rw [hm]
  refine ⟨?_, ?_⟩
  · obtain ⟨q, hq⟩ := State.die_freeTile (({ s.slotFilled k i with mem := m } : State).modTile k fun t => { t with grants := [] }) k (tileDie k)
    have filled : ((s.slotFilled k i).jobDie (tileDie k) (s.jobOf k)).saved =
        Tab.put (s.jobDie (tileDie k) (s.jobOf k)).saved (s.saveSlot k) (s.saveImage k i) := by
      unfold State.slotFilled
      rw [State.jobDie_modJobDie_self]
    unfold State.jobDie
    rw [State.jobs_enqueue, hq]
    exact (congrArg (fun l => Tab.find? l (s.saveSlot k)) filled).trans ((Tab.find_put _ _ _ _).trans (if_pos rfl))
  · have ptc (w : State) : (w.freeTile k).ptc (tileDie k) = w.ptc (tileDie k) := (w.freeTile_workOnly k).ptc _
    have queue : (s.slotFilled k i).queueAt (tileDie k) (s.tile k).entry.cr.prio = s.queueAt (tileDie k) (s.tile k).entry.cr.prio := by
      unfold State.queueAt State.slotFilled State.modJobDie
      rw [State.die_modDie_self]
    rw [State.queueAt_enqueue, if_pos ⟨rfl, rfl⟩, State.queueAt_freeTile, ptc]
    refine congr (congrArg _ queue) ?_
    exact congrArg (fun n => [(s.saveEntry k).joining n]) (work.ptc (tileDie k))

/-! ## The limits of a pre-emption and of a cancel (R30, R56) -/

/-- A unit at rest is saved whole into a free frame (R56). -/
theorem State.savedWhole_of_cut {k : Nat} {rs : Tab Request} {i : TrapInfo} (hi : i.cls = 0) :
    let w := State.setTile { s with reqs := rs } k ((s.tile k).cutTile (.save i))
    Tab.find? (s.jobDie (tileDie k) (s.jobOf k)).saved (w.saveSlot k) = none ∧ SavedWhole s (w.saveFrame k i) k (w.saveSlot k) := by
  intro w
  have tile : w.tile k = (s.tile k).cutTile (.save i) := State.tile_setTile_self _ _ _
  have job : w.jobOf k = s.jobOf k := by
    unfold State.jobOf
    rw [tile]
    rfl
  have free := w.saveSlot_free k
  obtain ⟨saved, queue⟩ := w.die_saveFrame k i
  have entry : w.saveEntry k = { (s.tile k).entry with
    cr := { (s.tile k).entry.cr with
      flags := (s.tile k).entry.cr.flags ||| (if (s.tile k).cancelAt.isSome then 0x2C else 0xC), tileMask := BitVec.ofNat 32 (2 ^ tileNum k)
      dieMask := BitVec.ofNat 8 (2 ^ dieNum (tileDie k)) }
    ext := [], frame := some (w.saveSlot k) } := by
    unfold State.saveEntry
    rw [tile]
    rfl
  have image : (w.saveImage k i).tile = { ((s.tile k).cutTile (.save i)).numbers i.next with
      status := .running, preemptAt := none, exts := [], pins := [], wait := none, pfx := none } := by
    unfold State.saveImage
    dsimp only
    rw [if_pos hi, tile]
  have trap : (w.saveImage k i).trap = none := if_pos hi
  rw [job] at free saved
  rw [tile, entry] at queue
  refine ⟨free, w.status_saveFrame k i, ⟨_, saved, trap, ?_⟩, _, queue, rfl, rfl, rfl, rfl, rfl⟩
  rw [image]
  exact ⟨rfl, rfl, rfl, rfl, rfl, rfl, rfl, rfl, rfl, rfl, rfl⟩

section
variable {k b : Nat} (hb : (s.tile k).preemptAt = some b)
include hb

/-- Before its limit, and where the limit is off, a pre-emption stays pending (R56). -/
theorem State.forceSave_early (hl : fld (s.die (tileDie k)).preemptLimit 0 32 = 0
      ∨ s.ptc (tileDie k) < b + fld (s.die (tileDie k)).preemptLimit 0 32) : s.forceSave k = s := by
  unfold State.forceSave
  dsimp only
  rw [hb]
  refine if_pos ?_
  rcases hl with hl | hl <;> simp [hl]

variable (h : AtRest s k) (hl : fld (s.die (tileDie k)).preemptLimit 0 32 ≠ 0)
variable (hp : b + fld (s.die (tileDie k)).preemptLimit 0 32 ≤ s.ptc (tileDie k))
include h hl hp

/-- Past its limit the save begins, where a frame is free; otherwise the firmware is told once (R56). -/
theorem State.forceSave_due : s.forceSave k = if s.framesFree (tileDie k) (s.jobOf k) = 0 then
    if (s.tile k).saveAsked then s else (s.modTile k fun t => { t with saveAsked := true }).tell (tileDie k) 0 (s.jobOf k) 0
    else s.takeCut k (.save { cls := 0 }) (s.tile k).order (s.tile k).instrPc (s.tile k).instrClause := by
  obtain ⟨-, hs, -⟩ := h
  unfold State.forceSave
  dsimp only
  rw [hb]
  refine if_neg ?_
  simp [Tile.isRunning, hs, hl, hp]

/-- With no frame free, the firmware is told (R56). -/
theorem State.forceSave_tells (hf : s.framesFree (tileDie k) (s.jobOf k) = 0) (hq : (s.tile k).saveAsked = false) :
    (s.forceSave k).tile k = { s.tile k with saveAsked := true }
      ∧ ((s.forceSave k).die (tileDie k)).mailbox = (s.die (tileDie k)).mailbox ++ [{ kind := 0, job := s.jobOf k }] := by
  rw [State.forceSave_due hb h hl hp, if_pos hf, if_neg (by rw [hq]; exact Bool.false_ne_true)]
  refine ⟨?_, ?_⟩
  · exact s.tile_modTile_self k fun t => { t with saveAsked := true }
  · unfold State.tell
    rw [State.die_modDie_self]
    rfl

/-- Past its limit, a unit at rest is saved whole into a free frame (R56). -/
theorem State.forceSave_saves (hf : 0 < s.framesFree (tileDie k) (s.jobOf k)) :
    ∃ n, Tab.find? (s.jobDie (tileDie k) (s.jobOf k)).saved n = none ∧ SavedWhole s (s.forceSave k) k n := by
  obtain ⟨rs, hc⟩ := State.takeCut_atRest h (.save { cls := 0 })
  have ended : s.forceSave k =
      (State.setTile { s with reqs := rs } k ((s.tile k).cutTile (.save (s.cutPoint k { cls := 0 })))).saveFrame k (s.cutPoint k { cls := 0 }) := by
    rw [State.forceSave_due hb h hl hp, if_neg (by omega), hc]
    obtain ⟨⟨-, hq, -⟩, -, hv, -⟩ := h
    unfold State.endCut State.cutReason
    dsimp only
    rw [State.tile_setTile_self]
    refine if_neg ?_
    simp [Tile.holding, Tile.moving, Tile.awaiting, Tile.cutTile, hv, hq]
  rw [ended]
  exact ⟨_, State.savedWhole_of_cut rfl⟩

end

/-- The unit of a cut cancel without a join counter that has nothing left to do completes, cancelled (R30). -/
theorem State.endUnit_cancelled {k : Nat} (hq : (s.tile k).allQuiet = true) (hs : (s.tile k).status = .cutting .cancel)
    (hj : bit (s.tile k).entry.cr.flags 1 = false) : s.endUnit k = s.retireUnit k true := by
  have held : s.joinHeld k = false := by
    unfold State.joinHeld State.joinMoves
    cases (s.tile k).exts.find? fun e => e.covers (s.tile k).entry.cr.join.toNat 8 && e.w <;> simp [hj]
  unfold State.endUnit
  dsimp only
  rw [hq, held, hs]
  rfl

theorem State.finishActions_unsignalled {d k : Nat} {e : Entry} (h : bit e.cr.flags 0 = false) (c : Bool) :
    s.finishActions d k true e c = (s.freeTile k).lastAction d e c := by
  unfold State.finishActions
  exact if_pos (by rw [h]; rfl)

/-- Past its limit, a cancel ends a unit at rest that has no join counter and no event: its tile is freed and its launch counts it
cancelled (R28, R30). -/
theorem State.cancelExpires_ends {k b : Nat} (h : AtRest s k) (hb : (s.tile k).cancelAt = some b)
    (hp : b + fld (s.die (tileDie k)).preemptLimit 0 32 ≤ s.ptc (tileDie k)) (h0 : bit (s.tile k).entry.cr.flags 0 = false)
    (h1 : bit (s.tile k).entry.cr.flags 1 = false) : ∃ u : State,
    s.cancelExpires k = (u.freeTile k).lastAction (tileDie k) (s.tile k).entry true ∧ u.dies = s.dies ∧ u.jobs = s.jobs := by
  obtain ⟨rs, hc⟩ := State.takeCut_atRest h .cancel
  obtain ⟨⟨-, hq, hps, -⟩, hs, hv, -⟩ := h
  have cut : s.cancelExpires k = s.takeCut k .cancel (s.tile k).order (s.tile k).instrPc (s.tile k).instrClause := by
    unfold State.cancelExpires
    dsimp only
    rw [hb]
    dsimp only
    rw [if_neg (by omega), hs]
  let w := State.setTile { s with reqs := rs } k ((s.tile k).cutTile .cancel)
  have tile : w.tile k = (s.tile k).cutTile .cancel := State.tile_setTile_self _ _ _
  have ended : s.cancelExpires k = w.retireUnit k true := by
    have toEnd : w.endCut k = w.endUnit k := by
      unfold State.endCut
      dsimp only
      rw [tile]
      rfl
    rw [cut, hc, ← State.endUnit_cancelled (s := w)]
    · exact toEnd
    · rw [tile]
      simp [Tile.allQuiet, Tile.allDone, Tile.awaiting, Tile.cutTile, hv, hq, hps]
    · rw [tile]
      rfl
    · rw [tile]
      exact h1
  have entry : (w.tile k).entry = (s.tile k).entry := by
    rw [tile]
    rfl
  refine ⟨w.modTile k fun t => { t with cancelled := true }, ?_, rfl, rfl⟩
  rw [ended, State.retireUnit_unjoined _ _ _ (by rw [entry]; exact h1), entry, State.finishActions_unsignalled h0]

/-- The level table after a tile is freed and its unit's id with it. -/
theorem State.findLevel_freed (u : State) (k d j : Nat) (f : JobDie → JobDie) (i l n : Nat) :
    ((u.freeTile k).modJobDie d j f).findLevel i l n = u.findLevel i l n := by
  have levels (x : Nat) : (((u.freeTile k).modJobDie d j f).die x).levels = (u.die x).levels := by
    obtain ⟨q, hq⟩ := u.die_freeTile k x
    unfold State.modJobDie
    rw [State.die_modDie]
    split
    · next e => rw [← e, hq]
    · rw [hq]
  exact State.findLevel_congr (s := u) (t := (u.freeTile k).modJobDie d j f) ((u.freeTile_workOnly k).homeDie i) (levels _) l n

/-- The launch of a unit that ends, with others outstanding, counts it (R25, R28). -/
theorem State.findLevel_launchChild {r : Rec} {x : LevelEntry} (h : s.findLevel r.job 1 r.launch = some x) (hx : 1 < x.count) :
    (s.launchChild r true).findLevel r.job 1 r.launch = some { x with count := x.count - 1, canc := x.canc + 1 } := by
  have counted : (s.modLevel r.job 1 r.launch (LevelEntry.lessChild true)).findLevel r.job 1 r.launch
      = some { x with count := x.count - 1, canc := x.canc + 1 } := by
    rw [State.findLevel_modLevel (f := LevelEntry.lessChild true) (hf := fun e => ⟨rfl, rfl, rfl⟩), h]
    rfl
  have eq : s.launchChild r true = levelCheck (s.modLevel r.job 1 r.launch (LevelEntry.lessChild true)) r.job 5 1 r.launch := rfl
  rw [eq, levelCheck_busy counted (.inr (by show x.count - 1 ≠ 0; omega)), counted]

theorem State.lastAction_home {d : Nat} {e : Entry} (c : Bool) (h : s.homeDie e.cr.job = d) :
    s.lastAction d e c = (s.modJobDie d e.cr.job fun x => { x with unitsUsed := x.unitsUsed.filter (· ≠ e.cr.unitId) }).launchChild e.cr c := by
  unfold State.lastAction
  exact if_pos h

/-- To a home on another die the decrement goes as a message (R215). -/
theorem State.lastAction_away {d : Nat} {e : Entry} (c : Bool) (h : s.homeDie e.cr.job ≠ d) (hr : s.homeDie e.cr.job ∉ (s.die d).unreachable) :
    ∃ n w, Tab.find? (s.lastAction d e c).reqs n = some w ∧ w.op = .count e.cr c ∧ w.src = d ∧ w.dst = s.homeDie e.cr.job := by
  have work := s.modJobDie_workOnly d e.cr.job fun x => { x with unitsUsed := x.unitsUsed.filter (· ≠ e.cr.unitId) }
  unfold State.lastAction
  dsimp only
  rw [if_neg (by exact h), if_neg (by rw [work.unreachable]; exact hr)]
  exact ⟨_, _, (Tab.find_put _ _ _ _).trans (if_pos rfl), rfl, rfl, rfl⟩

end Sys2Proof.Machine
end

section
/-! SUPPORT. The scheduler, settled. -/

namespace Sys2Proof.Machine

variable {s t : State}

/-- A cancel past its limit: the tile is freed, and the launch counts the unit at its home, or is told (R28, R30, R215). -/
theorem cancelLimit_counts {k b : Nat} {x : LevelEntry} (h : AtRest s k) (hb : (s.tile k).cancelAt = some b)
    (hp : b + fld (s.die (tileDie k)).preemptLimit 0 32 ≤ s.ptc (tileDie k)) (h0 : bit (s.tile k).entry.cr.flags 0 = false)
    (h1 : bit (s.tile k).entry.cr.flags 1 = false) :
    let r := (s.tile k).entry.cr
    let home := s.homeDie r.job
    ((s.cancelExpires k).tile k).status = .idle
    ∧ (home = tileDie k → s.findLevel r.job 1 r.launch = some x → 1 < x.count →
      (s.cancelExpires k).findLevel r.job 1 r.launch = some { x with count := x.count - 1, canc := x.canc + 1 })
    ∧ (home ≠ tileDie k → home ∉ (s.die (tileDie k)).unreachable → ∃ n w, Tab.find? (s.cancelExpires k).reqs n = some w
      ∧ w.op = .count r true ∧ w.src = tileDie k ∧ w.dst = home) := by
  intro r home
  obtain ⟨u, e, hd, hj⟩ := State.cancelExpires_ends h hb hp h0 h1
  have die (d : Nat) : u.die d = s.die d := by
    unfold State.die
    rw [hd]
  have rank (j : Nat) : u.homeDie j = s.homeDie j := by
    unfold State.homeDie State.job
    rw [hj]
  have freed := u.freeTile_workOnly k
  have hh : (u.freeTile k).homeDie r.job = home := (freed.homeDie r.job).trans (rank r.job)
  rw [e]
  refine ⟨?_, fun hm hl hx => ?_, fun hm hr => ?_⟩
  · rw [(State.lastAction_tilesKept _ _ _ _).status, State.status_freeTile]
  · rw [State.lastAction_home true (hh.trans hm)]
    refine State.findLevel_launchChild ?_ hx
    rw [State.findLevel_freed, State.findLevel_congr (rank _) (by rw [die])]
    exact hl
  · have lost : home ∉ ((u.freeTile k).die (tileDie k)).unreachable := by
      rw [freed.unreachable]
      exact fun hu => hr (by rw [← die]; exact hu)
    obtain ⟨n, w, hw, ho, hs, ht⟩ := State.lastAction_away (e := (s.tile k).entry) true (by rw [hh]; exact hm) (by rw [hh]; exact lost)
    exact ⟨n, w, hw, ho, hs, ht.trans hh⟩

/-- Settles O45: the scheduler's steps, each by the lemma that says what it does. -/
theorem scheduling : Obligations.Scheduling := by
  unfold Obligations.Scheduling
  refine ⟨popRule_holds, agingRule_holds, fun s d k i e => ⟨fun p h ha hc hf _ => ⟨fun es ht h2 => ?_, fun va ht => ?_, fun va ht hr => ?_⟩,
    fun hq hp hc ha => sweep_alone hq hp hc ha, fun x hx hc => ?_, fun hs => ⟨_, firmwarePreempt_pending hs, rfl⟩, fun b h hb => ?_,
    fun b x h hb hp => ?_⟩⟩
  · obtain ⟨t, a, b, asid, pins, ex, hq, tile, hm⟩ := dispatch_starts h ha hc hf ht h2
    refine ⟨t, ex, hq, ?_⟩
    rw [tile]
    exact ⟨rfl, rfl, rfl, rfl, rfl, rfl, fun n => Tile.gReg_dispatched a e asid es pins n, fun n => Tile.others_dispatched a e asid es pins n, hm⟩
  · obtain ⟨t, ex, hq, tiles, aside, -⟩ := dispatch_aside h ha hc (asked := none) (by rw [ht]; rfl)
    exact ⟨t, ex, hq, tiles, aside⟩
  · exact dispatch_aside h ha hc (asked := some va) (by rw [ht]; exact if_neg hr)
  · intro foot
    refine ⟨fun hfoot => ⟨_, congrArg Host.Outcome.next (State.translated_back hx hc hfoot), s.aside_broughtBack d i x.entry,
      s.queueAt_broughtBack d i x.entry⟩, fun va hfoot => congrArg Host.Outcome.next (State.translated_waits hx hc hfoot)⟩
  · intro lim
    refine ⟨fun hl => congrArg Host.Outcome.next (State.forceSave_early hb hl), fun hl hp => ⟨fun hf w hw => ?_, fun hf hq => ?_⟩⟩
    · obtain ⟨n, hn, saved⟩ := State.forceSave_saves hb h hl hp hf
      refine ⟨s.forceSave k, n, ?_, hn, saved⟩
      rcases hw with rfl | ⟨rfl, hq⟩
      · rfl
      · exact congrArg Host.Outcome.next (if_pos hq)
    · exact ⟨_, rfl, State.forceSave_tells hb h hl hp hf hq⟩
  · intro r home h0 h1
    obtain ⟨idle, here, away⟩ := cancelLimit_counts (x := x) h hb hp h0 h1
    refine ⟨fun hm hl hx => ⟨_, rfl, idle, here hm hl hx⟩, fun hm hr => ?_⟩
    obtain ⟨n, w, hw⟩ := away hm hr
    exact ⟨_, n, w, rfl, idle, hw⟩

end Sys2Proof.Machine
end

section
/-! SUPPORT. Tile tokens: signals and takes on a token that no one waits for, and TOKSIG and TOKWAIT (R66, R67, R365, R366). -/

namespace Sys2Proof.Machine

variable {s : State}

/-! ## Counts -/

theorem tokSet_of {t u : Tile} {n v : Nat} (h : u.tokens = Tab.set 0 t.tokens n v) : TokSet t u n v := fun m => by
  unfold Tile.token
  rw [h, Tab.get_set]

/-- The count that a signal leaves where no taker waits: it saturates before what the cycle has taken already (R66, R67). -/
def Tile.signalled (t : Tile) (dcc n amount : Nat) : Nat := min (t.token n + t.takenNow dcc n + amount) 0xFFFF - t.takenNow dcc n

/-- A signal on a token without takers changes its count alone. -/
theorem Tile.signalToken_untaken {t : Tile} {n : Nat} (h : Tab.get [] t.takers n = []) (dcc amount : Nat) :
    t.signalToken dcc n amount
      = { t with tokens := Tab.set 0 t.tokens n (t.signalled dcc n amount), takers := Tab.set [] t.takers n [] } := by
  unfold Tile.signalToken
  rw [h]
  rfl

/-- A word that ends with no more than the tile's tokens, takers and journal changed. -/
theorem State.retire_tokens {u : Tile}
    (h : u = { s.cur with tokens := u.tokens, takers := u.takers, took := u.took, journal := u.journal }) :
    WordEnds s (s.retire u) ∧ NoRegs s.cur (s.retire u).cur ∧ (s.retire u).cur.tokens = u.tokens
      ∧ (s.retire u).cur.journal = u.journal := by
  rw [h]
  refine ⟨s.retire_wordEnds rfl, s.retire_noRegs rfl rfl rfl rfl rfl, ?_, ?_⟩ <;> rw [State.cur_retire] <;> rfl

/-- A TOKWAIT that cannot be met waits parked, at the end of its token's list. -/
theorem State.cur_stall_taker (s : State) (n m : Nat) (bound : Option Nat) : ∃ w : Wait,
    ((s.stall s.focus (.token n m) bound true).modTile s.focus fun x => x.addTaker n (.ct m)).cur
      = ({ s.cur with wait := some w } : Tile).addTaker n (.ct m) ∧ w.on = .token n m ∧ w.bound = bound := by
  obtain ⟨w, cur, on, bd⟩ : ∃ w : Wait, (s.stall s.focus (.token n m) bound true).cur = { s.cur with wait := some w }
      ∧ w.on = .token n m ∧ w.bound = bound := ⟨_, State.tile_modTile_self _ _ _, rfl, rfl⟩
  exact ⟨w, (State.cur_modTile _ _).trans (congrArg (fun x : Tile => x.addTaker n (.ct m)) cur), on, bd⟩

/-! ## TOKSIG -/

section
variable (n a : BitVec 6) (i : BitVec 13)

/-- What TOKSIG adds: its sum, clamped (R365). -/
def State.sigAmount (s : State) (a : BitVec 6) (i : BitVec 13) : Nat := min ((s.g a).toNat + s.cur.immU i) 0xFFFF

theorem sigAmount_clamp :
    (if 0xFFFF < (s.g a).toNat + s.cur.immU i then 0xFFFF else (s.g a).toNat + s.cur.immU i) = s.sigAmount a i := by
  unfold State.sigAmount
  split <;> omega

theorem exec_toksig_ahead (h : s.cur.ahead = true) :
    exec (.toksig n a i) s = .next (s.retire (s.cur.journalAdd (.tok n.toNat (s.sigAmount a i)) 0 true)) := by
  show execToksig n a i s = _
  unfold execToksig
  dsimp only
  rw [sigAmount_clamp, if_pos h]

theorem exec_toksig_quiet (h : Quiet s.cur) :
    exec (.toksig n a i) s = .next (s.retire (s.cur.signalToken (s.dcc (tileDie s.focus)) n.toNat (s.sigAmount a i))) := by
  obtain ⟨ha, hq, hp, hr⟩ := h
  show execToksig n a i s = _
  unfold execToksig
  dsimp only
  rw [sigAmount_clamp, if_neg (by rw [ha]; exact Bool.false_ne_true), s.drained_now _ hq hp hr]

/-! ## TOKWAIT -/

theorem exec_tokwait_illegal (h : 0xFFFF < (s.g a).toNat) : exec (.tokwait n a i) s = .next (s.fault s.focus Cls.illegalOp) :=
  if_pos h

theorem exec_tokwait_now (hm : (s.g a).toNat ≤ 0xFFFF) (h : s.cur.ahead = false) :
    exec (.tokwait n a i) s =
      if (s.g a).toNat = 0 then .next (s.retire s.cur)
      else if s.cur.canTake n.toNat (s.g a).toNat then .next (s.retire (s.cur.take (s.dcc (tileDie s.focus)) n.toNat (s.g a).toNat))
      else .next ((s.stall s.focus (.token n.toNat (s.g a).toNat) (some (s.cur.bound (s.cur.immU i))) true).modTile s.focus
        fun x => x.addTaker n.toNat (.ct (s.g a).toNat)) := by
  show execTokwait n a i s = _
  unfold execTokwait
  dsimp only
  rw [if_neg (by omega), if_neg (by rw [h]; exact Bool.false_ne_true)]

end

/-- Settles O17: each word's outcome by its own equation, the counts by what a signal and a take leave of a token. -/
theorem tokenWords : Obligations.TokenWords := by
  intro s n a i
  refine ⟨fun hq ht => ?signal, fun ha => ?journal, exec_tokwait_illegal n a i, fun hm ha => ⟨fun h0 => ?none, fun h0 hc => ?take, fun h0 hc => ?wait⟩⟩
  case signal =>
    refine ⟨_, exec_toksig_quiet n a i hq, ?_⟩
    rw [Tile.signalToken_untaken ht]
    obtain ⟨he, hr, htok, -⟩ := State.retire_tokens (s := s) (u := { s.cur with
      tokens := Tab.set 0 s.cur.tokens n.toNat (s.cur.signalled (s.dcc (tileDie s.focus)) n.toNat (s.sigAmount a i))
      takers := Tab.set [] s.cur.takers n.toNat [] }) rfl
    exact ⟨he, hr, tokSet_of htok⟩
  case journal =>
    obtain ⟨he, hr, htok, hj⟩ := State.retire_tokens (s := s) (u := s.cur.journalAdd (.tok n.toNat (s.sigAmount a i)) 0 true) rfl
    exact ⟨_, _, exec_toksig_ahead n a i ha, he, hr, hj, rfl, rfl, htok⟩
  case none =>
    refine ⟨_, (exec_tokwait_now n a i hm ha).trans (if_pos h0), s.retire_wentTo⟩
  case take =>
    obtain ⟨he, hr, htok, -⟩ := State.retire_tokens (s := s) (u := s.cur.take (s.dcc (tileDie s.focus)) n.toNat (s.g a).toNat) rfl
    exact ⟨_, (exec_tokwait_now n a i hm ha).trans ((if_neg (by omega)).trans (if_pos hc)), he, hr, tokSet_of htok⟩
  case wait =>
    obtain ⟨w, cur, on, bound⟩ := s.cur_stall_taker n.toNat (s.g a).toNat (some (s.cur.bound (s.cur.immU i)))
    refine ⟨_, w, (exec_tokwait_now n a i hm ha).trans ((if_neg (by omega)).trans (if_neg (by rw [hc]; exact Bool.false_ne_true))),
      ?_, on, bound, ?_, ?_⟩ <;> rw [cur]
    · rfl
    · rfl
    · exact Tab.get_set_self _ _ _ _

end Sys2Proof.Machine
end

section
/-! SUPPORT. NOP, REGION and SEGEND (R75, R264, R265, R351, R353). -/

namespace Sys2Proof.Machine

variable {s : State}

/-- The tile of a region's first word's end: the mode with its slack and CHK, its stamps' reference, and the segment of a strict one. -/
def Tile.entersRegion (t : Tile) (dcc : Nat) (m : BitVec 2) (c : BitVec 1) (sl : BitVec 12) : Tile :=
  { t with regionState := w64 (m.toNat + 4 * c.toNat + 65536 * sl.toNat), mbaseAt := none, refPos := t.order, refPending := false
           stampRef := dcc, seg := if m = 2 then some { void := t.inh } else none }

/-- A REGION of a known mode that has nothing to wait for (R75, R351). -/
theorem exec_region_now {m : BitVec 2} {c : BitVec 1} (sl : BitVec 12) (hm : m ≠ 3) (hc : c = 1 → m = 0) (hx : s.cur.pfx.getD 0 = 0)
    (ha : s.cur.ahead = false) (hd : m.toNat = s.cur.mode ∨ (s.cur.vs = none ∧ s.cur.started = [])) :
    exec (.region m c sl) s
      = .next ((s.retire s.cur).modTile s.focus fun t => t.entersRegion (s.dcc (tileDie s.focus)) m c sl) := by
  have well : ¬ (m = 3 ∨ (c = 1 ∧ m ≠ 0) ∨ s.cur.pfx.getD 0 ≠ 0) := by
    rintro (h | ⟨h1, h2⟩ | h)
    · exact hm h
    · exact h2 (hc h1)
    · exact h hx
  have ready : ¬ (m.toNat ≠ s.cur.mode ∧ (!s.cur.enginesDone) = true) := by
    rintro ⟨h1, h2⟩
    obtain ⟨hv, hs⟩ := hd.resolve_left h1
    have hq : s.cur.queued = false := (Bool.or_eq_false_iff.1 ha).1
    simp [Tile.enginesDone, hv, hs, hq] at h2
  show execRegion m c sl s = _
  unfold execRegion
  dsimp only
  rw [if_neg well, if_neg ready, s.commitThen_now _ ha]
  rfl

/-- The word of a SEGEND ends, and the next segment opens (R264). -/
def State.nextSegment (s : State) : State := (s.retire s.cur).modTile s.focus fun t => { t with seg := some { void := t.inh } }

/-- A change of the tile that ends its word, of anything but its registers and its place in the program, keeps both. -/
theorem State.modTile_retire {f : Tile → Tile} (h : ∀ t : Tile, (f t).g = t.g ∧ (f t).f = t.f ∧ (f t).q = t.q ∧ (f t).d = t.d
      ∧ (f t).fpc = t.fpc ∧ (f t).pc = t.pc ∧ (f t).pfx = t.pfx ∧ (f t).wait = t.wait) :
    let u := (s.retire s.cur).modTile s.focus f
    WordEnds s u ∧ NoRegs s.cur u.cur ∧ u.cur = f (s.cur.retire (s.dcc (tileDie s.focus))) := by
  intro u
  have cur : u.cur = f (s.cur.retire (s.dcc (tileDie s.focus))) := by
    rw [← s.cur_retire]
    exact State.tile_modTile_self _ _ _
  obtain ⟨hg, hf, hq, hd, hfpc, hpc, hpfx, hw⟩ := h (s.cur.retire (s.dcc (tileDie s.focus)))
  refine ⟨⟨rfl, ?_, ?_, ?_, fun _ => rfl⟩, ⟨fun n => ?_, fun n => ?_, ?_, fun n => ?_, ?_⟩, cur⟩
  · rw [cur, hpc]; rfl
  · rw [cur, hpfx]; rfl
  · rw [cur, hw]; rfl
  · rw [cur, Tile.gReg, hg]; rfl
  · rw [cur, Tile.fReg, hf]; rfl
  · rw [QSame, cur, hq]; rfl
  · rw [cur, Tile.dReg, hd]; rfl
  · rw [cur, hfpc]; rfl

section
variable {a : BitVec 6} {i : BitVec 13} {g : Segment} (ha : s.cur.ahead = false) (hm : s.cur.mode = 2)
  (hg : (s.cur.segIssue (s.dcc (tileDie s.focus))).seg = some g)
include ha hm hg

/-- A void segment ends with no look at its entry (R264). -/
theorem exec_segend_void (hv : g.void = true) : exec (.segend a i) s = .next s.nextSegment := by
  show execSegend a i s = _
  unfold execSegend
  dsimp only
  rw [s.commitThen_now _ ha, if_pos hm, hg]
  dsimp only
  rw [if_pos hv]
  rfl

/-- A segment that is not void asks for its entry (R265, R353). -/
theorem exec_segend_stop (hv : g.void = false) (h8 : (s.g a + s.cur.imm i).toNat % 8 = 0) {x : ImageStop}
    (hx : s.loadImage s.focus (s.g a + s.cur.imm i) 24 true = .error x) : exec (.segend a i) s = s.imageStop x := by
  show execSegend a i s = _
  unfold execSegend
  dsimp only
  rw [s.commitThen_now _ ha, if_pos hm, hg]
  dsimp only
  rw [hv, if_neg Bool.false_ne_true, if_neg (not_not.2 h8), hx]

/-- A segment whose cycles and signature are as its entry says ends (R265, R353). -/
theorem exec_segend_meets (hv : g.void = false) (h8 : (s.g a + s.cur.imm i).toNat % 8 = 0) {img : List Byte}
    (hx : s.loadImage s.focus (s.g a + s.cur.imm i) 24 true = .ok img)
    (hlo : s.dcc (tileDie s.focus) - g.start.getD (s.dcc (tileDie s.focus)) ≤ bytesAt img 0xC 4 + s.cur.slack)
    (hhi : bytesAt img 0xC 4 ≤ s.dcc (tileDie s.focus) - g.start.getD (s.dcc (tileDie s.focus)) + s.cur.slack)
    (hsig : (~~~g.crc).toNat = bytesAt img 0x10 4) : exec (.segend a i) s = .next s.nextSegment := by
  show execSegend a i s = _
  unfold execSegend
  dsimp only
  rw [s.commitThen_now _ ha, if_pos hm, hg]
  dsimp only
  rw [hv, if_neg Bool.false_ne_true, if_neg (not_not.2 h8), hx]
  dsimp only
  rw [if_neg (by rintro (h | h) <;> omega)]
  rfl

end

/-- Settles O26: REGION and SEGEND by the equation of each outcome; the entry on another die is asked for as an image is. -/
theorem regionWords : Obligations.RegionWords := by
  intro s
  refine ⟨⟨_, rfl, s.retire_wentTo⟩, fun m c sl hm hc hx ha hd => ?region, fun a i g ha hm hg h => ?segend,
    fun a i g die p x bs ha hm hg hv h8 hx hd hr => ?asks⟩
  case region =>
    obtain ⟨he, hr, cur⟩ := State.modTile_retire (s := s) (f := fun t => t.entersRegion (s.dcc (tileDie s.focus)) m c sl)
      fun _ => ⟨rfl, rfl, rfl, rfl, rfl, rfl, rfl, rfl⟩
    refine ⟨_, exec_region_now sl hm hc hx ha hd, he, hr, ?_, ?_, ?_⟩ <;> rw [cur] <;> rfl
  case segend =>
    obtain ⟨he, hr, cur⟩ := State.modTile_retire (s := s) (f := fun t => { t with seg := some { void := t.inh } })
      fun _ => ⟨rfl, rfl, rfl, rfl, rfl, rfl, rfl, rfl⟩
    have ends : exec (.segend a i) s = .next s.nextSegment := by
      cases hv : g.void with
      | true => exact exec_segend_void ha hm hg hv
      | false =>
        obtain ⟨h8, img, himg, hlo, hhi, hsig⟩ := h.resolve_left (by rw [hv]; exact Bool.false_ne_true)
        exact exec_segend_meets ha hm hg hv h8 himg hlo hhi hsig
    exact ⟨_, ends, he, hr, congrArg Tile.seg cur⟩
  case asks =>
    exact ⟨_, exec_segend_stop ha hm hg hv h8 hx, s.ask_asks die _ _ _ _ hd hr⟩

end Sys2Proof.Machine
end

section
/-! SUPPORT. A turn of the schedule: what each of its agents runs (R59, R70, R80, R84, R187, R267; logs 2, 92). -/

namespace Sys2Proof.Machine

variable {s : State}

/-! ## Whose turn it is -/

/-- Between two words the schedule's first turn comes. -/
theorem step_turn {t : Turn} {r : List Turn} (hm : s.midWord = false) (ht : s.turns = t :: r) :
    step s = State.runTurn { s.elapse t.cycles t.ns with turns := r } t.who := by
  unfold step State.takeTurn
  rw [hm, if_neg Bool.false_ne_true, ht]

/-- After a PFX its word comes at once (R84). -/
theorem step_midWord (hm : s.midWord = true) : step s = s.runTurn (.ct s.focus) := by
  unfold step State.takeTurn
  rw [if_pos hm]

theorem State.runTurn_run {w : Who} {i : Instr} {v : State} (h : s.turnOf w = some (.run i v)) : s.runTurn w = finishTurn w (exec i v) := by
  unfold State.runTurn
  rw [h]

theorem State.runTurn_done {w : Who} {v : State} (h : s.turnOf w = some (.done v)) : s.runTurn w = .next (v.afterTurn w) := by
  unfold State.runTurn
  rw [h]

theorem State.stopped_eq_false {k : Nat} (h : tileDie k ∉ s.lost) : s.stopped k = false := decide_eq_false h

/-! ## The control thread -/

/-- A word's place forbids it: it follows a PFX that its format does not take, or its clause does not allow it (R85, R88). -/
def misplaced (t : Tile) (i : Instr) : Bool :=
  (t.pfx.isSome && !takesPfx i) || (0 < clauseRem t.clause && neverGoverned i) || (1 < clauseRem t.clause && lastGoverned i)

theorem misplaced_iff (t : Tile) (i : Instr) : misplaced t i = true ↔
    (t.pfx.isSome = true ∧ takesPfx i = false) ∨ (0 < clauseRem t.clause ∧ neverGoverned i = true)
      ∨ (1 < clauseRem t.clause ∧ lastGoverned i = true) := by
  simp [misplaced, or_assoc]

/-- What a tile makes of a word that it has fetched and that its clause runs (R80, R95). -/
def State.decoded (s : State) (k : Nat) (w : W32) : Fetched :=
  match decodeCt w with
  | .error _ => .done (s.illegal k)
  | .ok i =>
    if misplaced (s.tile k) i then .done (s.illegal k)
    else .run (refineBufph (s.tile k) i) { s.setTile k { s.tile k with word := w } with focus := k }

/-- The word that a ready tile fetches: the buffer's, or memory's (R187). -/
theorem State.fetchWord_ready {k : Nat} {w : W32} (h : FetchReady s k w) : s.fetchWord k (s.tile k).pc = .ok w := by
  obtain ⟨-, -, -, -, -, -, -, h4, a, hc, hw⟩ := h
  unfold State.fetchWord
  split at hw
  · next x hx => rw [hx]; dsimp only; rw [hc, hw]
  · next hx =>
    obtain ⟨q, hr, hb, hw⟩ := hw
    rw [hx]
    simp [State.codeWord, h4, hc, hr, hb, hw]

/-- The turn of a ready tile comes to its word. -/
theorem State.ctTurn_ready {k : Nat} {w : W32} (h : FetchReady s k w) : s.ctTurn k = s.decoded k w := by
  have hf := State.fetchWord_ready h
  obtain ⟨hl, hs, hw, ht, hfirst, hj, hp, -⟩ := h
  have cancel : ((s.tile k).pfx.isNone && s.cancelNow k) = false := by
    cases hx : (s.tile k).pfx with
    | none => simpa using (hfirst hx).1
    | some p => rfl
  have report : (if ((s.tile k).pfx.isNone && !(s.tile k).inh) = true then (s.tile k).reports.find? fun r => r.leg else none) = none := by
    split
    · next c =>
      obtain ⟨hx, hi⟩ : (s.tile k).pfx = none ∧ (s.tile k).inh = false := by simpa using c
      simpa using (hfirst hx).2.resolve_left (by rw [hi]; exact Bool.false_ne_true)
    · rfl
  have runs : (s.tile k).isRunning = true := by simp [Tile.isRunning, hs]
  have due : ¬ (s.dcc (tileDie k) < (s.tile k).stallUntil) := by omega
  have room : ¬ ((s.tile k).journal.length ≥ Config.journalSize) := by omega
  have governed : ¬ (0 < clauseRem (s.tile k).clause ∧ (!clausePv (s.tile k).clause) = true) := by
    rcases hp with h | h <;> simp [h]
  unfold State.ctTurn
  rw [State.stopped_eq_false hl, if_neg Bool.false_ne_true]
  unfold State.fetch State.decoded misplaced
  rcases hx : (s.tile k).wait with _ | x
  · simp only [hx, runs, due, Bool.not_true, decide_false, Bool.or_self, Bool.false_eq_true, if_false, cancel, report, room, hf,
      governed] <;> rfl
  · simp only [hx, runs, due, hw x hx, Bool.not_true, decide_false, Bool.or_self, Bool.false_eq_true, if_false, cancel, report, room, hf,
      governed] <;> rfl

section
variable {k : Nat} {w : W32} (h : FetchReady s k w)
include h

theorem State.runTurn_ready {i : Instr} (hd : decodeCt w = .ok i) (hb : misplaced (s.tile k) i = false) : s.runTurn (.ct k)
    = finishTurn (.ct k) (exec (refineBufph (s.tile k) i) { s.setTile k { s.tile k with word := w } with focus := k }) := by
  refine State.runTurn_run (congrArg some ((State.ctTurn_ready h).trans ?_))
  rw [State.decoded, hd]
  dsimp only
  rw [hb, if_neg Bool.false_ne_true]

theorem State.runTurn_misplaced {i : Instr} (hd : decodeCt w = .ok i) (hb : misplaced (s.tile k) i = true) :
    s.runTurn (.ct k) = .next ((s.fault k 0x01).afterTurn (.ct k)) := by
  refine State.runTurn_done (congrArg some ((State.ctTurn_ready h).trans ?_))
  rw [State.decoded, hd]
  exact if_pos hb

theorem State.runTurn_undecoded {e : DecodeErr} (hd : decodeCt w = .error e) :
    s.runTurn (.ct k) = .next ((s.fault k 0x01).afterTurn (.ct k)) := by
  refine State.runTurn_done (congrArg some ((State.ctTurn_ready h).trans ?_))
  rw [State.decoded, hd]
  rfl

end

/-! ## The other agents -/

/-- A running table that stands at a step of its pass runs it (R70). -/
theorem State.runTurn_vs {k : Nat} {v : VsRun} {i : Instr} (hl : tileDie k ∉ s.lost) (hv : (s.tile k).vs = some v) (hd : v.done = false)
    (hh : v.halt = false) (hs : (s.tile k).seekStep v (v.steps - v.upc) v.upc = v.upc) (hu : v.upc < v.steps)
    (hi : decodeVs ((s.tile k).stepWord v v.upc) = .ok i) :
    s.runTurn (.vs k) = finishTurn (.vs k) (exec i { s.setTile k { s.tile k with vs := some v } with focus := k }) := by
  have moves : ¬ ((s.stopped k || v.done || (v.halt && !v.granted)) = true) := by simp [State.stopped_eq_false hl, hd, hh]
  refine State.runTurn_run (congrArg some ?_)
  unfold State.vsTurn
  dsimp only
  rw [hv]
  dsimp only
  rw [if_neg moves, hs, if_neg (Nat.not_le.2 hu), hi]

/-- A fetch buffer takes a word that memory holds (R187). -/
theorem State.runTurn_prefetch {k va q : Nat} {a : Acc} (hl : tileDie k ∉ s.lost) (hs : (s.tile k).status = .running) (h4 : va % 4 = 0)
    (hc : s.check k (BitVec.ofNat 64 va) 4 .x = .ok a) (hr : s.resolve (tileDie k) a.plain 4 = some q) (hb : s.badSector q 4 = none) :
    s.runTurn (.prefetch k va) = .next (s.setTile k { s.tile k with
      fbuf := ((va, BitVec.ofNat 32 (leNat (s.bytes q 4))) :: (s.tile k).fbuf.filter fun x => x.1 ≠ va).take 64 }) := by
  have aligned : ¬ ((w64 va).toNat % 4 ≠ 0) := by
    unfold w64
    rw [BitVec.toNat_ofNat]
    omega
  have word : s.codeWord k (w64 va) = .ok (BitVec.ofNat 32 (leNat (s.bytes q 4))) := by
    unfold State.codeWord
    rw [if_neg aligned, w64, hc]
    dsimp only
    rw [hr]
    dsimp only
    rw [hb]
  have moves : ¬ ((s.stopped k || !(s.tile k).isRunning) = true) := by simp [State.stopped_eq_false hl, Tile.isRunning, hs]
  refine State.runTurn_done (congrArg some ((if_neg moves).trans (congrArg Fetched.done ?_)))
  rw [State.prefetch, word]
  rfl

/-- An event happens where its die is not lost. -/
theorem State.runTurn_event {i : Instr} (he : encode i = none) (hl : ∀ d, eventHome i = some d → d ∉ s.lost) :
    s.runTurn (.ev i) = finishTurn (.ev i) (exec i s) := by
  refine State.runTurn_run (?_ : s.eventTurn i = _)
  unfold State.eventTurn
  rw [he]
  cases hh : eventHome i with
  | none => rfl
  | some d => exact congrArg some (if_neg (hl d hh))

/-- Settles O58, agent by agent. -/
theorem stepRuns : Obligations.StepRuns := by
  intro s k c n rest w i u bad
  have placed {t : Tile} (h : ¬ bad t) : misplaced t i = false := Bool.eq_false_iff.2 fun x => h ((misplaced_iff t i).1 x)
  refine ⟨fun hm ht h => ⟨fun hd hb => ?_, fun hd hb => ?_, fun e hd => ?_⟩, fun hm h hd hb => ?_, fun v hm ht hl hv hd hh hs hu hi => ?_,
    fun va a q hm ht hl hs h4 hc hr hb => ?_, fun hm ht he hl => ?_⟩
  · exact (step_turn hm ht).trans (State.runTurn_ready h hd (placed hb))
  · exact (step_turn hm ht).trans (State.runTurn_misplaced h hd ((misplaced_iff _ i).2 hb))
  · exact (step_turn hm ht).trans (State.runTurn_undecoded h hd)
  · exact (step_midWord hm).trans (State.runTurn_ready h hd (placed hb))
  · exact (step_turn hm ht).trans (State.runTurn_vs (s := u) hl hv hd hh hs hu hi)
  · exact (step_turn hm ht).trans (State.runTurn_prefetch (s := u) hl hs h4 hc hr hb)
  · exact ⟨_, rfl, (step_turn hm ht).trans (State.runTurn_event (s := u) he hl)⟩

end Sys2Proof.Machine
end

section
/-! SUPPORT. The trap record's fields, and the entry of the handler where its record and its first word can be reached (R255 to R257). -/

namespace Sys2Proof.Machine

variable {s t : State}

/-! ## Fields of a record (R3, R255) -/

@[simp] theorem length_leBytes (n v : Nat) : (leBytes n v).length = n := by simp [leBytes]

theorem leBytes_succ (n v : Nat) : leBytes (n + 1) v = BitVec.ofNat 8 v :: leBytes n (v / 256) := by
  unfold leBytes
  rw [List.range_succ_eq_map, List.map_cons, List.map_map]
  refine congr (congrArg _ (by simp)) (List.map_congr_left fun i _ => ?_)
  rw [Function.comp_apply, Nat.div_div_eq_div_mul, show 2 ^ (8 * i.succ) = 256 * 2 ^ (8 * i) by rw [Nat.succ_eq_add_one, Nat.mul_add, Nat.pow_add]; omega]

/-- Little-endian bytes hold their number, modulo what fits (R3). -/
theorem leNat_leBytes (n : Nat) : ∀ v, leNat (leBytes n v) = v % 256 ^ n := by
  induction n with
  | zero => exact fun v => by rw [Nat.pow_zero, Nat.mod_one]; rfl
  | succ n ih =>
    intro v
    have split : v % 256 ^ (n + 1) = v % 256 + 256 * (v / 256 % 256 ^ n) := by rw [Nat.pow_succ', Nat.mod_mul]
    rw [leBytes_succ, leNat, ih, split, BitVec.toNat_ofNat]

/-- Numbers of given sizes laid out one after the other, little-endian. -/
def fieldBytes (fs : List (Nat × Nat)) : List Byte := fs.flatMap fun f => leBytes f.1 f.2

theorem length_fieldBytes (fs : List (Nat × Nat)) : (fieldBytes fs).length = (fs.map Prod.fst).sum := by
  simp [fieldBytes, List.length_flatMap]

/-- A field reads back after the sizes of those before it. -/
theorem fieldBytes_part (n v : Nat) : ∀ (fs : List (Nat × Nat)) (j : Nat), fs[j]? = some (n, v) →
    ((fieldBytes fs).drop ((fs.map Prod.fst).take j).sum).take n = leBytes n v := by
  intro fs
  induction fs with
  | nil => exact fun j h => by simp at h
  | cons f r ih =>
    intro j h
    have layout : fieldBytes (f :: r) = leBytes f.1 f.2 ++ fieldBytes r := List.flatMap_cons
    cases j with
    | zero =>
      cases h
      exact (layout ▸ List.take_left' (length_leBytes n v) :)
    | succ j =>
      rw [layout, List.map_cons, List.take_succ_cons, List.sum_cons, ← List.drop_drop, List.drop_left' (length_leBytes f.1 f.2)]
      exact ih j h

/-- The fields of a trap record, in order (R255). -/
def Tile.recordFields (t : Tile) (i : TrapInfo) : List (Nat × Nat) :=
  let vs (f : VsRun → Nat) : Nat := (t.cutRun.map f).getD 0
  let count (l : Nat) : Nat := vs fun v => (v.levels.getD l { count := 0, start := 0 }).count
  [ (8, i.pc.toNat), (8, i.faddr.toNat), (1, i.cls), (1, i.src), (1, i.objk), (1, i.obj), (2, i.atag.toNat), (2, t.stat i)
  , (2, t.lsV.last.toNat), (2, t.lsM.last.toNat), (2, t.lsC.last.toNat), (2, i.wseq.toNat)
  , (2, (i.next.getD 0 0).toNat), (2, (i.next.getD 1 0).toNat), (2, (i.next.getD 2 0).toNat), (2, i.lane), (8, i.clause.toNat)
  , (2, vs fun v => v.upc), (1, vs fun v => stageMask v.ns v.n v.pass), (1, vs fun v => v.rb), (4, vs fun v => v.pass)
  , (2, count 0), (2, count 1), (2, count 2), (2, count 3), (4, i.ly.toNat)
  , (2, (t.cutM.map fun c => c.seq.toNat).getD 0), (1, (t.cutM.map fun c => c.chunk).getD 0), (1, 0)
  , (2, (t.cutC.map fun c => c.seq.toNat).getD 0), (6, 0), (8, (t.cutC.map fun c => c.elem).getD 0), (8, i.ptc)
  , (8, (t.gReg 1).toNat), (8, (t.gReg 2).toNat), (8, (t.gReg 3).toNat), (8, (t.gReg 4).toNat) ]

theorem Tile.record_eq (a : Tile) (i : TrapInfo) : a.record i = fieldBytes (a.recordFields i) := by
  have levels (f : Nat → List Byte) : (List.range 4).flatMap f = f 0 ++ (f 1 ++ (f 2 ++ f 3)) := by
    simp [List.range_succ]
  unfold Tile.record Tile.recordFields fieldBytes
  dsimp only
  rw [levels]
  simp only [List.flatMap_cons, List.flatMap_nil, List.append_nil]
  simp only [List.append_assoc]

/-- The sizes of a trap record's fields. -/
def recordSizes : List Nat :=
  [8, 8, 1, 1, 1, 1, 2, 2, 2, 2, 2, 2, 2, 2, 2, 2, 8, 2, 1, 1, 4, 2, 2, 2, 2, 4, 2, 1, 1, 2, 6, 8, 8, 8, 8, 8, 8]

theorem Tile.recordFields_sizes (a : Tile) (i : TrapInfo) : (a.recordFields i).map Prod.fst = recordSizes := rfl

theorem Tile.length_record (a : Tile) (i : TrapInfo) : (a.record i).length = 128 := by
  rw [Tile.record_eq, length_fieldBytes, Tile.recordFields_sizes]
  rfl

/-- Where a state's memory holds a record, field j of it reads back at its offset. -/
theorem State.bytes_record {a : Tile} {i : TrapInfo} {q : Nat} (h : t.bytes q 128 = a.record i) (j : Nat) {o n v : Nat}
    (hj : (a.recordFields i)[j]? = some (n, v)) (ho : (recordSizes.take j).sum = o) (hn : o + n ≤ 128) :
    t.bytes (q + o) n = leBytes n v := by
  rw [← fieldBytes_part n v _ j hj, ← Tile.record_eq, ← h, Tile.recordFields_sizes, ho]
  refine List.ext_getElem (by simp [State.bytes]; omega) fun m h1 h2 => ?_
  simp [State.bytes, Nat.add_assoc]

theorem State.word_record {a : Tile} {i : TrapInfo} {q : Nat} (h : t.bytes q 128 = a.record i) (j : Nat) {o n v : Nat}
    (hj : (a.recordFields i)[j]? = some (n, v)) (ho : (recordSizes.take j).sum = o) (hn : o + n ≤ 128) (hv : v < 256 ^ n) :
    leNat (t.bytes (q + o) n) = v := by
  rw [State.bytes_record h j hj ho hn, leNat_leBytes, Nat.mod_eq_of_lt hv]

theorem State.byte_record {a : Tile} {i : TrapInfo} {q : Nat} (h : t.bytes q 128 = a.record i) (j : Nat) {o v : Nat}
    (hj : (a.recordFields i)[j]? = some (1, v)) (ho : (recordSizes.take j).sum = o) (hn : o + 1 ≤ 128) :
    t.byte (q + o) = BitVec.ofNat 8 v := by
  have b := State.bytes_record h j hj ho hn
  simpa [State.bytes, leBytes] using b

/-! ## The entry -/

/-- The tile as its handler's first word finds it (R257). -/
def Tile.inHandler (t : Tile) (va vec : W64) (i : TrapInfo) : Tile :=
  let t := (((t.putG 1 va).putG 2 (w64 i.cls)).putG 3 i.faddr).putG 4 i.pc
  { t with status := .running, clause := 0, inh := true, pc := vec, pfx := none, wait := none
           handlerPos := t.order, handlerLs := [t.lsV, t.lsM, t.lsC], handlerNext := i.next, journal := [] }

theorem State.handlerEntry_ready {q : Nat} (h : HandlerReady s q) (i : TrapInfo) :
    s.handlerEntry s.focus i = (s.writePlain q (s.cur.record i)).modTile s.focus
      fun u => u.inHandler (s.recordVa s.focus) (s.handlerVa s.focus) i := by
  obtain ⟨hv, ⟨x, hx⟩, a, ha, hf, hp⟩ := h
  have write : s.writeAcc s.focus a (s.cur.record i) = s.writePlain q (s.cur.record i) := by
    unfold State.writeAcc State.resolve
    rw [hf, if_neg Bool.false_ne_true, Tile.length_record, hp]
  unfold State.handlerEntry
  dsimp only
  rw [if_neg hv, ha, hx]
  dsimp only
  rw [show s.tile s.focus = s.cur from rfl, write]
  rfl

end Sys2Proof.Machine
end

section
/-! SUPPORT. What the entry of a handler leaves (R255, R257), and the cut that is taken at once (R252). -/

namespace Sys2Proof.Machine

variable {s t : State} {q : Nat} {i : TrapInfo}

/-! ## What an entered handler finds -/

/-- NEXT of a cut, by queue. -/
def TrapInfo.nextNum (i : TrapInfo) : Queue → BitVec 16
  | .vq => i.next.getD 0 0
  | .mq => i.next.getD 1 0
  | .cq => i.next.getD 2 0

theorem Tile.gReg_inHandler (a : Tile) (va vec : W64) (n : Nat) :
    (a.inHandler va vec i).gReg n = match n with
      | 1 => va
      | 2 => BitVec.ofNat 64 i.cls
      | 3 => i.faddr
      | 4 => i.pc
      | n => a.gReg n := by
  show ((((a.putG 1 va).putG 2 (w64 i.cls)).putG 3 i.faddr).putG 4 i.pc).gReg n = _
  simp only [Tile.gReg_putG]
  match n with
  | 0 | 1 | 2 | 3 | 4 => rfl
  | n + 5 => simp

theorem State.focus_writePlain (s : State) (p : Nat) (bs : List Byte) (c : BitVec 4) : (s.writePlain p bs c).focus = s.focus := by
  have put : ∀ (bs : List Byte) (s : State) (p : Nat), (s.putBytes p bs).focus = s.focus := by
    intro bs
    induction bs with
    | nil => exact fun _ _ => rfl
    | cons b r ih => exact fun s p => ih _ _
  unfold State.writePlain State.markSwizzle State.touchSectors
  split <;> split <;> exact put bs s p

/-- The tile and the record after the entry of a handler. -/
theorem State.handlerEntry_cur (h : HandlerReady s q) (i : TrapInfo) :
    (s.handlerEntry s.focus i).focus = s.focus
    ∧ (∃ z, (s.handlerEntry s.focus i).cur = ({ s.cur with swz := z } : Tile).inHandler (s.recordVa s.focus) (s.handlerVa s.focus) i)
    ∧ (s.handlerEntry s.focus i).bytes q 128 = s.cur.record i
    ∧ ∀ p, p < q ∨ q + 128 ≤ p → (s.handlerEntry s.focus i).byte p = s.byte p := by
  rw [State.handlerEntry_ready h]
  have focus := s.focus_writePlain q (s.cur.record i) 0
  refine ⟨focus, ?_, ?_, fun p hp => ?_⟩
  · obtain ⟨z, hz⟩ := s.tile_writePlain q (s.cur.record i) 0 s.focus
    refine ⟨z, ?_⟩
    show State.tile _ (State.focus (State.modTile _ _ _)) = _
    rw [show (State.modTile (s.writePlain q (s.cur.record i)) s.focus _).focus = s.focus from focus, State.tile_modTile_self, hz]
    rfl
  · have b := s.bytes_writePlain q (s.cur.record i) 0
    rwa [Tile.length_record] at b
  · show (s.writePlain q (s.cur.record i)).byte p = _
    rw [State.byte_writePlain, Tile.length_record, if_neg (by omega)]

theorem State.entered_handlerEntry (h : HandlerReady s q) (i : TrapInfo) :
    Entered s (s.handlerEntry s.focus i) q i.cls i.faddr i.pc i.clause i.nextNum := by
  obtain ⟨focus, ⟨z, cur⟩, mem, rest⟩ := State.handlerEntry_cur h i
  generalize s.handlerEntry s.focus i = t at *
  have wide (v : W64) : v.toNat < 256 ^ 8 := v.isLt
  have half (v : BitVec 16) : v.toNat < 256 ^ 2 := v.isLt
  refine ⟨focus, ?_, ?_, ?_, ?_, fun n => ?_, fun n => ?_, ?_, fun n => ?_, ?_,
    State.word_record (o := 0) mem 0 rfl rfl (by omega) (wide _), State.word_record mem 1 rfl rfl (by omega) (wide _),
    State.byte_record mem 2 rfl rfl (by omega),
    State.word_record mem 16 rfl rfl (by omega) (Nat.lt_of_lt_of_le i.clause.isLt (by decide)), fun n hn => ?_,
    State.word_record mem 8 rfl rfl (by omega) (half _), State.word_record mem 9 rfl rfl (by omega) (half _),
    State.word_record mem 10 rfl rfl (by omega) (half _), State.word_record mem 12 rfl rfl (by omega) (half _),
    State.word_record mem 13 rfl rfl (by omega) (half _), State.word_record mem 14 rfl rfl (by omega) (half _), rest⟩
  · rw [cur]; rfl
  · rw [cur]; rfl
  · rw [cur]; rfl
  · rw [cur]; rfl
  · rw [cur, Tile.gReg_inHandler]; rfl
  · rw [cur]; rfl
  · rw [cur]; exact Tile.putG_q _ _ _
  · rw [cur]; rfl
  · rw [cur]; exact Tile.putG_fpc _ _ _
  · rw [Nat.add_assoc]
    match n with
    | 0 => exact State.word_record (v := (s.cur.gReg 1).toNat) mem 33 rfl rfl (by omega) (wide _)
    | 1 => exact State.word_record (v := (s.cur.gReg 2).toNat) mem 34 rfl rfl (by omega) (wide _)
    | 2 => exact State.word_record (v := (s.cur.gReg 3).toNat) mem 35 rfl rfl (by omega) (wide _)
    | 3 => exact State.word_record (v := (s.cur.gReg 4).toNat) mem 36 rfl rfl (by omega) (wide _)

/-! ## States that differ in what a cut changes -/

/-- What a trap record, its place and the handler's registers are made of is the same in two tiles. -/
structure SameUnit (a b : Tile) : Prop where
  g : b.g = a.g
  f : b.f = a.f
  q : b.q = a.q
  d : b.d = a.d
  fpc : b.fpc = a.fpc
  ls : (b.lsV, b.lsM, b.lsC) = (a.lsV, a.lsM, a.lsC)
  entry : b.entry = a.entry
  exts : (b.pins, b.exts) = (a.pins, a.exts)
  grants : b.grants = a.grants

/-- The state with the unit in focus cut. -/
def State.withUnit (s : State) (rs : Tab Request) (u : Tile) : State := State.setTile { s with reqs := rs } s.focus u

variable {rs : Tab Request} {u : Tile}

theorem State.tile_withUnit (s : State) (rs : Tab Request) (u : Tile) : (s.withUnit rs u).tile s.focus = u :=
  State.tile_setTile_self _ _ _

theorem State.homeCheck_withUnit (h : SameUnit s.cur u) (va : W64) (a : Acc) (len : Nat) :
    (s.withUnit rs u).homeCheck s.focus va a len false = s.homeCheck s.focus va a len false := by
  have fid : (s.withUnit rs u).fidOf s.focus = s.fidOf s.focus := by
    unfold State.fidOf State.jobOf
    rw [State.tile_withUnit, h.entry]
    rfl
  unfold State.homeCheck
  rw [fid]
  rfl

theorem State.check_withUnit (h : SameUnit s.cur u) (va : W64) (len : Nat) (n : Need) :
    (s.withUnit rs u).check s.focus va len n = s.check s.focus va len n := by
  have find : u.findExtent va.toNat len n = s.cur.findExtent va.toNat len n := by
    obtain ⟨hp, he⟩ := Prod.mk.inj h.exts
    unfold Tile.findExtent
    rw [hp, he]
  unfold State.check
  dsimp only
  rw [State.tile_withUnit, find, s.tile_focus]
  simp only [State.homeCheck_withUnit h, Bool.false_eq_true, false_and, if_false]
  rfl

theorem State.jobRegs_withUnit (h : SameUnit s.cur u) : (s.withUnit rs u).jobRegs s.focus = s.jobRegs s.focus := by
  unfold State.jobRegs State.jobOf
  rw [State.tile_withUnit, h.entry]
  rfl

theorem State.recordVa_withUnit (h : SameUnit s.cur u) : (s.withUnit rs u).recordVa s.focus = s.recordVa s.focus := by
  unfold State.recordVa
  rw [State.jobRegs_withUnit h]

theorem State.handlerVa_withUnit (h : SameUnit s.cur u) : (s.withUnit rs u).handlerVa s.focus = s.handlerVa s.focus := by
  unfold State.handlerVa
  rw [State.jobRegs_withUnit h]

theorem State.handlerReady_withUnit (h : SameUnit s.cur u) (hr : HandlerReady s q) : HandlerReady (s.withUnit rs u) q := by
  unfold HandlerReady at hr ⊢
  rw [show (s.withUnit rs u).focus = s.focus from rfl, State.handlerVa_withUnit h, State.recordVa_withUnit h,
    State.check_withUnit h, State.check_withUnit h]
  exact hr

/-- A handler entered from the cut unit is entered from the unit. -/
theorem State.entered_withUnit {cls : Nat} {faddr pc : W64} {cl : BitVec 5} {next : Queue → BitVec 16} (h : SameUnit s.cur u)
    (he : Entered (s.withUnit rs u) t q cls faddr pc cl next) : Entered s t q cls faddr pc cl next := by
  obtain ⟨hf, hpc, hinh, hcl, hst, hg, hff, hq, hd, hfpc, b⟩ := he
  have focus : (s.withUnit rs u).focus = s.focus := rfl
  have cur : (s.withUnit rs u).cur = u := s.tile_withUnit rs u
  have g (n : Nat) : u.gReg n = s.cur.gReg n := by unfold Tile.gReg; rw [h.g]
  obtain ⟨hv, hmc⟩ := Prod.mk.inj h.ls
  obtain ⟨hm, hc⟩ := Prod.mk.inj hmc
  have ls (q : Queue) : u.lsNum q = s.cur.lsNum q := by
    unfold Tile.lsNum
    cases q
    · exact congrArg Started.last hv
    · exact congrArg Started.last hm
    · exact congrArg Started.last hc
  simp only [focus, cur, State.recordVa_withUnit h, State.handlerVa_withUnit h, g, ls] at hf hpc hg hff hq hd hfpc b
  refine ⟨hf, hpc, hinh, hcl, hst, hg, fun n => ?_, ?_, fun n => ?_, hfpc.trans h.fpc, b⟩
  · rw [hff n]; unfold Tile.fReg; rw [h.f]
  · exact hq.trans h.q
  · rw [hd n]; unfold Tile.dReg; rw [h.d]

/-! ## A cut that is taken at once (R252) -/

theorem State.endCut_enters (hs : s.cur.status = .cutting (.trap i)) (hh : s.cur.holding = false) (hr : HandlerReady s q) :
    s.endCut s.focus = s.handlerEntry s.focus i := by
  obtain ⟨focus, ⟨z, cur⟩, -⟩ := State.handlerEntry_cur hr i
  have status : ((s.handlerEntry s.focus i).tile s.focus).status = .running := by
    have tile : (s.handlerEntry s.focus i).tile s.focus = (s.handlerEntry s.focus i).cur := by
      unfold State.cur
      rw [focus]
    rw [tile, cur]
    rfl
  unfold State.endCut
  dsimp only
  rw [s.tile_focus, hs]
  dsimp only
  rw [if_neg (by rw [hh]; exact Bool.false_ne_true)]
  exact State.endUnit_running _ _ status

/-- What a cut at a point writes down of it (R252, R254). -/
def State.cutAt (s : State) (i : TrapInfo) (pos : Nat) (pc : W64) (cl : BitVec 5) : TrapInfo :=
  { i with pc := pc, clause := cl, cutPos := pos, ptc := s.ptc (tileDie s.focus)
           next := [nextOf s.cur .vq pos s.cur.nextV, nextOf s.cur .mq pos s.cur.nextM, nextOf s.cur .cq pos s.cur.nextC] }

/-- No command waits, or one alone, at the point of the cut, that has not taken its gate token. -/
def Tile.AloneAt (a : Tile) (pos : Nat) : Prop :=
  a.vq = [] ∧ a.cq = [] ∧ (a.mq = [] ∨ ∃ c, a.mq = [c] ∧ c.unstamped = false ∧ c.gateTaken = false ∧ c.pos = pos)

/-- No command of such a tile lies before the point, or has taken a token, or re-entered its queue. -/
theorem Tile.AloneAt.point {a : Tile} {pos : Nat} (h : a.AloneAt pos) :
    (oldestIn ((a.vq ++ a.mq ++ a.cq).filter fun c => !c.unstamped) = none
      ∨ ∃ c, oldestIn ((a.vq ++ a.mq ++ a.cq).filter fun c => !c.unstamped) = some c ∧ c.pos = pos ∧ a.mq = [c])
    ∧ gateTokens (a.vq ++ a.mq ++ a.cq) = [] := by
  obtain ⟨hv, hc, hm | ⟨c, hm, hu, hg, hp⟩⟩ := h
  · rw [hv, hc, hm]
    exact ⟨.inl rfl, rfl⟩
  · rw [hv, hc, hm]
    exact ⟨.inr ⟨c, by simp [oldestIn, hu], hp, rfl⟩, by simp [gateTokens, hg]⟩

/-- Nothing holds a cut of the unit in focus. -/
def State.CutFree (s : State) : Prop :=
  s.cur.vs = none ∧ s.cur.started = [] ∧ s.cur.journal = [] ∧ s.cur.awaiting = false
  ∧ ∀ b ∈ (s.die (tileDie s.focus)).bars, ∀ w ∈ b.2.waiters, w.tile ≠ s.focus

theorem State.takeCut_free (hn : s.CutFree) {pos : Nat} (ha : s.cur.AloneAt pos) (i : TrapInfo) (pc : W64) (cl : BitVec 5) :
    ∃ rs u, s.takeCut s.focus (.trap i) pos pc cl = (s.withUnit rs u).endCut s.focus ∧ SameUnit s.cur u
      ∧ u.status = .cutting (.trap (s.cutAt i pos pc cl)) ∧ u.holding = false ∧ u.mq = [] := by
  obtain ⟨hv, hst, hj, hw, hb⟩ := hn
  obtain ⟨rs, hu⟩ := State.unwait_reqs hb
  obtain ⟨point, gates⟩ := ha.point
  unfold State.takeCut
  dsimp only
  rw [s.tile_focus, hw, Tile.undoFrom_empty hj]
  simp only [Bool.false_and, Bool.false_eq_true, if_false, hu, gates, List.foldl_nil]
  generalize hy : Tile.dropTakers _ (s.dcc (tileDie s.focus)) _ = y
  have tk := hy ▸ Tile.dropTakers_notVs _ (s.dcc (tileDie s.focus)) (p := _) (by funext w; cases w <;> rfl)
  obtain ⟨ey, vs⟩ := tk
  have jy : y.journal = [] := by rw [ey]
  have sy : y.started = [] := by rw [ey]; exact hst
  have same : SameUnit s.cur y := by constructor <;> rw [ey]
  have empty : y.mq = [] := by rw [ey]
  have free : y.vs = none := vs hv
  clear ey hy vs
  rw [Tile.commitJournal_empty jy]
  obtain ⟨g, f, q, d, fpc, ls, entry, exts, grants⟩ := same
  rcases point with h | ⟨c, h, hp, -⟩
  · simp only [h]
    exact ⟨rs, _, rfl, ⟨g, f, q, d, fpc, ls, entry, exts, grants⟩, rfl, by simp [Tile.holding, Tile.awaiting, free, sy], empty⟩
  · simp only [h, hp, Nat.lt_irrefl, if_false]
    exact ⟨rs, _, rfl, ⟨g, f, q, d, fpc, ls, entry, exts, grants⟩, rfl, by simp [Tile.holding, Tile.awaiting, free, sy], empty⟩

/-- The handler is entered at once, with what the trap says and the point of the cut. -/
theorem State.takeCut_entered (hn : s.CutFree) {pos : Nat} (ha : s.cur.AloneAt pos) (i : TrapInfo) (pc : W64) (cl : BitVec 5)
    (hr : HandlerReady s q) : ∃ t, s.takeCut s.focus (.trap i) pos pc cl = t
      ∧ Entered s t q i.cls i.faddr pc cl (nextAt s.cur pos) ∧ t.cur.mq = [] ∧ t.cur.wait = none
      ∧ t.byte (q + 18) = BitVec.ofNat 8 i.objk ∧ t.byte (q + 19) = BitVec.ofNat 8 i.obj := by
  obtain ⟨rs, u, cut, same, status, held, empty⟩ := State.takeCut_free hn ha i pc cl
  have cur : (s.withUnit rs u).cur = u := s.tile_withUnit rs u
  have ready := State.handlerReady_withUnit (rs := rs) same hr
  have enters := State.endCut_enters (s := s.withUnit rs u) (by rw [cur]; exact status) (by rw [cur]; exact held) ready
  obtain ⟨-, ⟨z, after⟩, mem, -⟩ := State.handlerEntry_cur ready (s.cutAt i pos pc cl)
  refine ⟨_, cut.trans enters, ?_, ?_, ?_, ?_, ?_⟩
  · exact State.entered_withUnit same (State.entered_handlerEntry ready _)
  · rw [after, cur]
    exact (Tile.putG_mq _ _ _).trans empty
  · rw [after]
    rfl
  · exact State.byte_record mem 4 rfl rfl (by omega)
  · exact State.byte_record mem 5 rfl rfl (by omega)

/-- A fault of a unit that runs, outside a handler, that is no bad sector: a cut at its point. -/
theorem State.raiseAt_running (hs : s.cur.status = .running) (hi : s.cur.inh = false) (hc : i.cls ≠ Cls.uncorrectable) (pos : Nat)
    (pc : W64) (cl : BitVec 5) :
    s.raiseAt s.focus i pos pc cl = s.takeCut s.focus (.trap { i with pos := pos }) pos pc cl := by
  have hit : s.phaseHit s.focus i = false := by
    unfold State.phaseHit
    dsimp only
    split
    · simp [hc]
    · rfl
  have sector : s.sectorDamage s.focus i = s := if_pos hc
  unfold State.raiseAt
  dsimp only
  rw [s.tile_focus, hs, hit, sector, hi]
  rfl

/-- The same of the word in hand, which no PFX precedes. -/
theorem State.raise_running (hs : s.cur.status = .running) (hi : s.cur.inh = false) (hx : s.cur.pfx = none)
    (hc : i.cls ≠ Cls.uncorrectable) :
    s.raise s.focus i = s.takeCut s.focus (.trap { i with pos := s.cur.order }) s.cur.order s.cur.pc s.cur.clause := by
  have at_ : s.cur.instrPc = s.cur.pc ∧ s.cur.instrClause = s.cur.clause := by
    unfold Tile.instrPc Tile.instrClause
    rw [hx]
    exact ⟨rfl, rfl⟩
  rw [← at_.1, ← at_.2]
  exact State.raiseAt_running hs hi hc _ _ _

end Sys2Proof.Machine
end

section
/-! SUPPORT. A command that is late in a strict region, a wait past its bound, and the fault in hand (R74, R76, R257). -/

namespace Sys2Proof.Machine

variable {s t : State} {q : Nat}

theorem State.cutFree_now (h : CutNow s) : s.CutFree := by
  obtain ⟨-, hv, hst, hj, -, -, hw, -, hb, -⟩ := h
  exact ⟨hv, hst, hj, hw, hb⟩

/-- The stamped command that is late beyond S (R74). -/
theorem exec_schedMiss_late {c : Cmd} (hr : HandlerReady s q) (hn : CutNow s) (hv : s.cur.vq = []) (hc : s.cur.cq = [])
    (hm : s.cur.mq = [c]) (hg : c.gateTaken = false) (late : s.cur.missed (s.dcc (tileDie s.focus)) c = true) :
    ∃ t, exec (.schedMiss s.focus) s = .next t ∧ Entered s t q 0x07 0 c.atag c.clause (nextAt s.cur c.pos) ∧ t.cur.mq = [] := by
  have stamped : c.unstamped = false := by
    unfold Tile.missed Cmd.stamped at late
    cases h : c.unstamped
    · rfl
    · simp [h] at late
  have event : s.missEvent s.focus = s.raiseMiss s.focus c := by
    unfold State.missEvent
    dsimp only
    rw [s.tile_focus, hm, List.find?_cons_of_pos late]
    simp [Tile.mayStart, hn.1]
  obtain ⟨t, cut, entered, empty, -⟩ := State.takeCut_entered (State.cutFree_now hn) (pos := c.pos)
    ⟨hv, hc, .inr ⟨c, hm, stamped, hg, rfl⟩⟩ { cls := Cls.schedMiss, src := 2, seq := c.seq.toNat, ctag := some c.atag, pos := c.pos }
    c.atag c.clause hr
  obtain ⟨hs, -, -, -, hi, -⟩ := hn
  refine ⟨t, congrArg Host.Outcome.next (event.trans ?_), entered, empty⟩
  rw [← cut]
  exact State.raiseAt_running hs hi (show Cls.schedMiss ≠ Cls.uncorrectable by decide) _ _ _

/-- A wait on a token past its bound (R76). -/
theorem exec_waitBound_passed {w : Wait} {n m b : Nat} (hr : HandlerReady s q) (hn : CutNow s) (hv : s.cur.vq = []) (hc : s.cur.cq = [])
    (hm : s.cur.mq = []) (hw : s.cur.wait = some w) (on : w.on = .token n m) (hb : w.bound = some b)
    (past : w.since + b < s.dcc (tileDie s.focus)) :
    ∃ t, exec (.waitBound s.focus 0) s = .next t ∧ Entered s t q 0x09 0 s.cur.pc s.cur.clause (nextAt s.cur s.cur.order)
      ∧ t.cur.wait = none ∧ t.byte (q + 18) = 1 ∧ t.byte (q + 19) = BitVec.ofNat 8 n := by
  obtain ⟨hs, vs, st, jo, hi, hx, aw, -, bars, -⟩ := hn
  obtain ⟨rs, hu⟩ := State.unwait_reqs bars
  have gone : (s.unwait s.focus).modTile s.focus (fun t => { t with wait := none }) = s.withUnit rs { s.cur with wait := none } := by
    rw [hu]
    rfl
  have same : SameUnit s.cur { s.cur with wait := none } := ⟨rfl, rfl, rfl, rfl, rfl, rfl, rfl, rfl, rfl⟩
  have cur : (s.withUnit rs { s.cur with wait := none }).cur = { s.cur with wait := none } := s.tile_withUnit _ _
  have running : s.cur.isRunning = true := by
    simp [Tile.isRunning, hs]
  have passed : w.passed (s.dcc (tileDie s.focus)) = true := by
    unfold Wait.passed
    rw [hb]
    exact decide_eq_true past
  have none_waits : ∀ p : Tile, p.wait = none → p.awaiting = false := fun p h => by
    unfold Tile.awaiting
    rw [h]
  obtain ⟨t, cut, entered, -, wait, objk, obj⟩ := State.takeCut_entered (s := s.withUnit rs { s.cur with wait := none }) (pos := s.cur.order)
    (by unfold State.CutFree; rw [cur]; exact ⟨vs, st, jo, none_waits _ rfl, bars⟩)
    (by rw [cur]; exact ⟨hv, hc, .inl hm⟩)
    { cls := Cls.waitBound, objk := 1, obj := n, wseq := s.cur.producerLs n, pos := s.cur.order } s.cur.pc s.cur.clause
    (State.handlerReady_withUnit same hr)
  rw [cur] at entered
  refine ⟨t, congrArg Host.Outcome.next ?_, State.entered_withUnit same entered, wait, objk, obj⟩
  have raised (i : TrapInfo) (h : i.cls ≠ Cls.uncorrectable) : (s.withUnit rs { s.cur with wait := none }).raise s.focus i
      = (s.withUnit rs { s.cur with wait := none }).takeCut s.focus (.trap { i with pos := s.cur.order }) s.cur.order s.cur.pc s.cur.clause := by
    have r := State.raise_running (s := s.withUnit rs { s.cur with wait := none }) (by rw [cur]; exact hs) (by rw [cur]; exact hi)
      (by rw [cur]; exact hx) h
    rwa [cur] at r
  rw [← cut]
  unfold State.waitBound
  dsimp only
  rw [s.tile_focus, hw]
  dsimp only
  rw [running, passed, Bool.true_and, if_pos rfl, gone, on]
  exact raised _ (show Cls.waitBound ≠ Cls.uncorrectable by decide)

theorem exec_waitBound_within {w : Wait} {b : Nat} (hw : s.cur.wait = some w) (hb : w.bound = some b)
    (within : s.dcc (tileDie s.focus) ≤ w.since + b) : exec (.waitBound s.focus 0) s = .next s := by
  have passed : w.passed (s.dcc (tileDie s.focus)) = false := by
    unfold Wait.passed
    rw [hb]
    exact decide_eq_false (Nat.not_lt.2 within)
  refine congrArg Host.Outcome.next ?_
  unfold State.waitBound
  dsimp only
  rw [s.tile_focus, hw]
  dsimp only
  rw [passed, Bool.and_false]
  rfl

/-- The fault in hand (R257). -/
theorem exec_handlerEntry_free {i : TrapInfo} (hr : HandlerReady s q) (hs : s.cur.status = .cutting (.trap i))
    (hh : s.cur.holding = false) :
    ∃ t, exec (.handlerEntry s.focus) s = .next t ∧ Entered s t q i.cls i.faddr i.pc i.clause i.nextNum :=
  ⟨_, congrArg Host.Outcome.next (State.endCut_enters hs hh hr), State.entered_handlerEntry hr i⟩

theorem exec_handlerEntry_held {i : TrapInfo} (hs : s.cur.status = .cutting (.trap i)) (hh : s.cur.holding = true) :
    exec (.handlerEntry s.focus) s = .next s := by
  refine congrArg Host.Outcome.next ?_
  unfold State.endCut
  dsimp only
  rw [s.tile_focus, hs]
  exact if_pos hh

end Sys2Proof.Machine
end

section
namespace Sys2Proof.Machine

/-- Settles O49: the cut is taken at once at the late command or at the word in hand, and the handler is entered from the cut
tile, which differs from the unit in nothing that the record or the handler's registers show. -/
theorem lateWaits : Obligations.LateWaits := by
  unfold Obligations.LateWaits
  intro s q c w n m b i hr
  refine ⟨fun hn hv hc hm hg late => exec_schedMiss_late hr hn hv hc hm hg late, fun hn hv hc hm hw on _ hb => ⟨?_, ?_⟩,
    fun hs => ⟨fun hh => ?_, fun hh => exec_handlerEntry_held hs hh⟩⟩
  · exact fun past => exec_waitBound_passed hr hn hv hc hm hw on hb past
  · exact fun within => exec_waitBound_within hw hb within
  · obtain ⟨t, runs, entered⟩ := exec_handlerEntry_free hr hs hh
    exact ⟨t, runs, entered⟩

end Sys2Proof.Machine
end

section
/-! SUPPORT. What an engine's step leaves of a quiet tile, and the start of a queue's oldest command (R59, R61, R62, R66, R67, R254). -/

namespace Sys2Proof.Machine

variable {s : State} {t u : Tile} {k : Nat} {q : Queue} {c : Cmd} {rest : List Cmd}

/-! ## After a step -/

theorem Tile.getQ_promote (t : Tile) (dcc : Nat) (q : Queue) :
    ((t.promote dcc).getQ q).map (fun x => x.pos) = (t.getQ q).map fun x => x.pos := by
  have head (l : List Cmd) : (headSince dcc l).map (fun x => x.pos) = l.map fun x => x.pos := by
    cases l with
    | nil => rfl
    | cons c r =>
      unfold headSince
      rw [List.map_cons, List.map_cons]
      split <;> rfl
  cases q <;> exact head _

/-- Outside fixed mode, or with CHK off, nothing raises STALL_COUNT (R74). -/
theorem State.stallCount_unchecked (h : (s.tile k).mode ≠ 0 ∨ (s.tile k).chk = false) : s.stallCount k = s := by
  have off : ((s.tile k).mode = 0 && (s.tile k).chk) = false := by
    rcases h with h | h
    · simp [h]
    · simp [h]
  unfold State.stallCount
  dsimp only
  split
  · next c hc =>
    obtain ⟨q, -, hq⟩ := List.exists_of_findSome?_eq_some hc
    rw [off] at hq
    split at hq <;> simp at hq
  · rfl

/-- Nothing of a quiet tile's journal or reports comes between two steps of its engines: the heads of its queues get their times. -/
theorem State.tile_afterStep (h : EngineQuiet (s.tile k)) : (s.afterStep k).tile k = (s.tile k).promote (s.dcc (tileDie k)) := by
  obtain ⟨hj, hr, hs, hc⟩ := h
  have same : (s.tile k).commitJournal (s.dcc (tileDie k)) = s.tile k := by
    rw [Tile.commitJournal_empty hj, ← hj]
  have settled : s.settle k = s.setTile k (s.tile k) := by
    have free : (s.tile k).failedRelease = none := by
      unfold Tile.failedRelease
      rw [hj]
    unfold State.settle
    dsimp only
    rw [same, hs, free]
    exact State.endCut_running _ _ ((congrArg Tile.status (State.tile_setTile_self _ _ _)).trans hs)
  unfold State.afterStep
  rw [settled]
  dsimp only
  rw [State.stallCount_unchecked]
  · rw [State.tile_modTile_self, State.tile_setTile_self]
    rfl
  · rw [State.tile_modTile_self, State.tile_setTile_self]
    exact .inr hc

/-! ## The gate (R66, R67) -/

/-- What the start of a command leaves of its tile before the command has any effect: its gate token taken, its queue without it,
LS its number. -/
structure Dequeued (t u : Tile) (q : Queue) (c : Cmd) (rest : List Cmd) : Prop where
  tile : ∃ tk tok, u = (({ t with tokens := tk, took := tok } : Tile).setQueue q rest).setLs q ((t.ls q).push c.seq)
  tokens : ∀ n, u.token n = if c.gate = some n then t.token n - 1 else t.token n

theorem Dequeued.lsNum (h : Dequeued t u q c rest) : u.lsNum q = c.seq := by
  obtain ⟨⟨tk, tok, e⟩, -⟩ := h
  rw [e]
  cases q <;> rfl

theorem Dequeued.getQ (h : Dequeued t u q c rest) : u.getQ q = rest := by
  obtain ⟨⟨tk, tok, e⟩, -⟩ := h
  rw [e]
  cases q <;> rfl

theorem Dequeued.same (h : Dequeued t u q c rest) :
    u.started = t.started ∧ u.vs = t.vs ∧ u.vbase = t.vbase ∧ u.m = t.m ∧ u.z = t.z ∧ (EngineQuiet t → EngineQuiet u) := by
  obtain ⟨⟨tk, tok, e⟩, -⟩ := h
  rw [e]
  cases q <;> exact ⟨rfl, rfl, rfl, rfl, rfl, id⟩

/-- The gate token of the oldest command is there, or it has none: it is taken at once. -/
theorem Tile.gateStep_met (hq : t.getQ q = c :: rest) (hg : c.gateTaken = false) (hs : c.gateSince = none)
    (h : c.gate = none ∨ ∃ n, c.gate = some n ∧ t.canTake n 1 = true) (dcc : Nat) :
    ∃ v b, t.gateStep dcc q c rest = (v, { c with gateTaken := b }) ∧ v.vs = t.vs ∧ (c.gate.isSome && !b) = false
      ∧ Dequeued t ((v.setQueue q rest).setLs q ((v.ls q).push c.seq)) q c rest := by
  rcases h with h | ⟨n, h, hn⟩
  · have step : t.gateStep dcc q c rest = (t, { c with gateTaken := false }) := by
      have same : ({ c with gateTaken := false } : Cmd) = c := by rw [← hg]
      rw [same]
      unfold Tile.gateStep
      rw [h]
    refine ⟨t, false, step, rfl, by rw [h]; rfl, ⟨t.tokens, t.took, rfl⟩, fun n => ?_⟩
    rw [h, if_neg (by simp)]
    cases q <;> rfl
  · have step : t.gateStep dcc q c rest = ((t.take dcc n 1).setQueue q ({ c with gateTaken := true } :: rest), { c with gateTaken := true }) := by
      unfold Tile.gateStep
      rw [h]
      dsimp only
      rw [hg, hs, if_neg (by simp), if_pos hn]
    refine ⟨_, true, step, ?_, by rw [Bool.not_true, Bool.and_false],
      ⟨Tab.set 0 t.tokens n (t.token n - 1), Tab.put t.took n (dcc, t.takenNow dcc n + 1), ?_⟩, fun m => ?_⟩
    · cases q <;> rfl
    · cases q <;> rfl
    · have count : Tab.get 0 (Tab.set 0 t.tokens n (t.token n - 1)) m = if c.gate = some m then t.token m - 1 else t.token m := by
        rw [Tab.get_set, h]
        by_cases hm : m = n
        · subst hm; simp
        · rw [if_neg hm, if_neg (by simpa using fun e => hm e.symm)]; rfl
      rw [← count]
      cases q <;> rfl

/-! ## The start (R62, R254) -/

/-- What follows the start of a command, once it has left its queue. -/
def State.begun (s : State) (k : Nat) (c : Cmd) : State :=
  match startKind s k c with
  | .ok s c =>
    if c.kind == CmdKind.vrun then s.afterStep k
    else if c.kind == CmdKind.mbase then s.finishCmd k c
    else (s.modTile k fun t => { t with started := t.started ++ [c] }).afterStep k
  | .wait s c => (s.modTile k fun t => { t with started := t.started ++ [c] }).afterStep k
  | .fault s c i => s.endCmd k c i

theorem State.begin_stamped (h : c.unstamped = false) :
    s.begin_ k q c rest = (s.setTile k (((s.tile k).setQueue q rest).setLs q (((s.tile k).ls q).push c.seq))).begun k
      { c with startedAt := s.dcc (tileDie k) } := by
  have ls : ((s.tile k).setQueue q rest).ls q = (s.tile k).ls q := by cases q <;> rfl
  unfold State.begin_ State.begun
  dsimp only
  rw [if_neg (by rw [h]; exact Bool.false_ne_true), ls] <;> rfl

/-- A command that starts without more than its effect joins the started ones. -/
theorem State.tile_begun {s' : State} (h : startKind s k c = .ok s' c) (hv : c.kind ≠ .vrun) (hm : c.kind ≠ .mbase)
    (hq : EngineQuiet (s'.tile k)) :
    ((s.begun k c).tile k) = Tile.promote { s'.tile k with started := (s'.tile k).started ++ [c] } (s'.dcc (tileDie k)) := by
  unfold State.begun
  rw [h]
  dsimp only
  rw [if_neg (by simpa using hv), if_neg (by simpa using hm), State.tile_afterStep, State.tile_modTile_self]
  · rfl
  · rw [State.tile_modTile_self]
    exact hq

/-- A command of this kind needs no more than its edges and its gate to start: no weight set, no free table, no release. -/
def Cmd.plainStart (c : Cmd) (t : Tile) : Prop :=
  c.sets = [] ∧ c.kind ≠ .mmul ∧ c.kind ≠ .cred ∧ c.kind ≠ .cbcast ∧ (c.kind = .vrun → t.vs = none)

theorem State.gateSets_none (hq : (s.tile k).getQ q = c :: rest) (h : c.sets = []) : s.gateSets k q = s := by
  unfold State.gateSets
  rw [hq]
  dsimp only
  rw [h]
  rfl

theorem Cmd.unstamped_of_time (h : c.time = 0) : c.stamped = false := by
  unfold Cmd.stamped
  rw [h]
  simp

/-- The oldest command of a queue, unstamped by TIME, with no edge left and its gate token there or none needed. -/
structure Startable (s : State) (k : Nat) (q : Queue) (c : Cmd) (rest : List Cmd) : Prop where
  quiet : EngineQuiet (s.tile k)
  head : (s.tile k).getQ q = c :: rest
  resolved : (s.tile k).unresolved c = false
  time : c.time = 0
  uncut : c.unstamped = false
  untaken : c.gateTaken = false
  unasked : c.gateSince = none
  gate : c.gate = none ∨ ∃ n, c.gate = some n ∧ (s.tile k).canTake n 1 = true

/-- Such a command starts (R62). -/
theorem State.startCommand_starts (h : Startable s k q c rest) (hp : c.plainStart (s.tile k)) :
    ∃ w b, s.startCommand k q c.seq.toNat = State.begun w k { c with gateTaken := b, startedAt := s.dcc (tileDie k) }
      ∧ Dequeued (s.tile k) (w.tile k) q c rest ∧ w.dcc (tileDie k) = s.dcc (tileDie k) := by
  obtain ⟨⟨-, -, hs, -⟩, hq, hu, ht, hn, hg, hgs, gate⟩ := h
  obtain ⟨sets, nommul, nocred, nocbcast, table⟩ := hp
  obtain ⟨v, b, step, vs, granted, deq⟩ := Tile.gateStep_met hq hg hgs gate (s.dcc (tileDie k))
  have nostamp := Cmd.unstamped_of_time ht
  have may : (s.tile k).mayStart = true := by simp [Tile.mayStart, hs]
  have inTime : (s.tile k).missed (s.dcc (tileDie k)) c = false := by simp [Tile.missed, nostamp]
  have norelease (s : State) (c : Cmd) (h1 : c.kind ≠ .cred) (h2 : c.kind ≠ .cbcast) : s.releaseWaits k c = false := by
    unfold State.releaseWaits
    dsimp only
    split
    · next h => exact absurd h h1
    · next h => exact absurd h h2
    · rfl
  refine ⟨(s.setTile k v).setTile k ((v.setQueue q rest).setLs q ((v.ls q).push c.seq)), b, ?_, ?_, rfl⟩
  · unfold State.startCommand
    dsimp only
    rw [State.gateSets_none hq sets, hq]
    dsimp only
    obtain ⟨c', hc⟩ : ∃ c' : Cmd, c' = { c with gateTaken := b } := ⟨_, rfl⟩
    rw [← hc] at step
    rw [step]
    dsimp only
    have kind : c'.kind = c.kind := by rw [hc]
    have sets' : c'.sets = [] := by rw [hc]; exact sets
    have nostamp' : c'.stamped = false := by rw [hc]; exact nostamp
    have granted' : (c'.gate.isSome && !c'.gateTaken) = false := by rw [hc]; exact granted
    have fresh' : c'.unstamped = false := by rw [hc]; exact hn
    have seq' : c'.seq = c.seq := by rw [hc]
    have later : State.begin_ (s.setTile k v) k q c' rest = ((s.setTile k v).setTile k
        ((v.setQueue q rest).setLs q ((v.ls q).push c.seq))).begun k { c' with startedAt := s.dcc (tileDie k) } := by
      rw [State.begin_stamped fresh', State.tile_setTile_self, seq']
      rfl
    rw [show ({ c with gateTaken := b, startedAt := s.dcc (tileDie k) } : Cmd) = { c' with startedAt := s.dcc (tileDie k) } by rw [hc],
      ← later]
    have norun : (c'.kind == CmdKind.vrun && v.vs.isSome) = false := by
      rw [vs, kind]
      by_cases h : c.kind = .vrun
      · rw [table h]; exact Bool.and_false _
      · rw [beq_eq_false_iff_ne.2 h]; rfl
    have nomul : (c'.kind == CmdKind.mmul) = false := by rw [kind]; exact beq_eq_false_iff_ne.2 nommul
    rw [if_neg (by simp [may, hu]), inTime]
    simp only [granted', sets', nostamp', norun, nomul, norelease _ c' (kind ▸ nocred) (kind ▸ nocbcast), List.any_nil, Bool.false_and,
      Bool.false_eq_true, if_false, Nat.not_lt_zero]
  · rw [State.tile_setTile_self]
    exact deq

/-! ## The tile after the start -/

/-- What an effect of a command leaves: the numbers, the queues, the tokens, the started commands, and what holds the tile's engines. -/
structure KeepsQueues (a b : Tile) : Prop where
  ls : ∀ q, b.ls q = a.ls q
  queues : ∀ q, b.getQ q = a.getQ q
  tokens : b.tokens = a.tokens
  quiet : EngineQuiet a → EngineQuiet b

/-- What every start of a command shows (R62, R66, R254). -/
theorem Dequeued.shown {b : Tile} (h : Dequeued t b q c rest) (hu : KeepsQueues b u) (dcc : Nat) :
    (u.promote dcc).lsNum q = c.seq ∧ ((u.promote dcc).getQ q).map (fun x => x.pos) = rest.map (fun x => x.pos)
      ∧ ∀ n, (u.promote dcc).token n = if c.gate = some n then t.token n - 1 else t.token n := by
  have ls : (u.promote dcc).ls q = u.ls q := by cases q <;> rfl
  refine ⟨?_, ?_, fun n => ?_⟩
  · unfold Tile.lsNum
    rw [ls, hu.ls]
    exact h.lsNum
  · rw [Tile.getQ_promote, hu.queues, h.getQ]
  · rw [← h.tokens n]
    unfold Tile.token
    rw [← hu.tokens]
    rfl

/-- A command with effect `f` on its tile starts: it joins the started ones. -/
theorem State.startCommand_joins (h : Startable s k q c rest) (hp : c.plainStart (s.tile k)) (hv : c.kind ≠ .vrun) (hm : c.kind ≠ .mbase)
    (f : Tile → Tile) (hf : ∀ a, KeepsQueues a (f a) ∧ (f a).started = a.started)
    (effect : ∀ (w : State) (x : Cmd), x.kind = c.kind → x.p0 = c.p0 → x.p1 = c.p1 → x.unstamped = c.unstamped →
      ∃ w', startKind w k x = .ok w' x ∧ w'.tile k = f (w.tile k)) :
    ∃ b x dcc, Dequeued (s.tile k) b q c rest
      ∧ (s.startCommand k q c.seq.toNat).tile k = Tile.promote { f b with started := (s.tile k).started ++ [x] } dcc
      ∧ x.kind = c.kind ∧ x.pos = c.pos ∧ x.seq = c.seq ∧ x.startedAt = s.dcc (tileDie k) := by
  obtain ⟨w, g, start, deq, -⟩ := State.startCommand_starts h hp
  obtain ⟨started, -, -, -, -, quiet⟩ := deq.same
  obtain ⟨w', ok, tile⟩ := effect w { c with gateTaken := g, startedAt := s.dcc (tileDie k) } rfl rfl rfl rfl
  obtain ⟨keeps, same⟩ := hf (w.tile k)
  refine ⟨w.tile k, { c with gateTaken := g, startedAt := s.dcc (tileDie k) }, w'.dcc (tileDie k), deq, ?_, rfl, rfl, rfl, rfl⟩
  rw [start, State.tile_begun ok hv hm (by rw [tile]; exact keeps.quiet (quiet h.quiet)), tile, same, started]

end Sys2Proof.Machine
end

section
/-! SUPPORT. What the commands of VQ and MQ do as they start, the wait for a gate, and completion (R61, R66, R67, R72, R341, R372, R398). -/

namespace Sys2Proof.Machine

variable {s : State} {t u : Tile} {k pos : Nat} {q : Queue} {c : Cmd} {rest : List Cmd}

/-! ## Starts, kind by kind -/

/-- A start that a queue shows: its number is LS, it has left the queue, its gate token is taken (R62, R66, R254). -/
def Tile.Shows (t u : Tile) (q : Queue) (c : Cmd) (rest : List Cmd) : Prop :=
  u.lsNum q = c.seq ∧ (u.getQ q).map (fun x => x.pos) = rest.map (fun x => x.pos)
  ∧ ∀ n, u.token n = if c.gate = some n then t.token n - 1 else t.token n

/-- The command is the last of the started ones. -/
def Tile.Joined (t u : Tile) (c : Cmd) (dcc : Nat) : Prop :=
  ∃ x, u.started = t.started ++ [x] ∧ x.kind = c.kind ∧ x.pos = c.pos ∧ x.seq = c.seq ∧ x.startedAt = dcc

theorem KeepsQueues.started {a b : Tile} (h : KeepsQueues a b) (l : List Cmd) : KeepsQueues a { b with started := l } := by
  obtain ⟨ls, queues, tokens, quiet⟩ := h
  exact ⟨fun q => (by cases q <;> rfl : _ = b.ls q).trans (ls q), fun q => (by cases q <;> rfl : _ = b.getQ q).trans (queues q), tokens, quiet⟩

/-- A command with effect `f` starts, and shows. -/
theorem State.startCommand_shows (h : Startable s k q c rest) (hp : c.plainStart (s.tile k)) (hv : c.kind ≠ .vrun) (hm : c.kind ≠ .mbase)
    (f : Tile → Tile) (hf : ∀ a, KeepsQueues a (f a) ∧ (f a).started = a.started)
    (effect : ∀ (w : State) (x : Cmd), x.kind = c.kind → x.p0 = c.p0 → x.p1 = c.p1 → x.unstamped = c.unstamped →
      ∃ w', startKind w k x = .ok w' x ∧ w'.tile k = f (w.tile k)) :
    let u := (s.startCommand k q c.seq.toNat).tile k
    (s.tile k).Shows u q c rest ∧ (s.tile k).Joined u c (s.dcc (tileDie k))
      ∧ ∃ b, Dequeued (s.tile k) b q c rest ∧ u.vbase = (f b).vbase ∧ u.m = (f b).m ∧ u.z = (f b).z := by
  obtain ⟨b, x, dcc, deq, tile, kind, pos, seq, at_⟩ := State.startCommand_joins h hp hv hm f hf effect
  dsimp only
  rw [tile]
  exact ⟨deq.shown ((hf b).1.started _) dcc, ⟨x, rfl, kind, pos, seq, at_⟩, b, deq, rfl, rfl, rfl⟩

theorem KeepsQueues.refl (a : Tile) : KeepsQueues a a := ⟨fun _ => rfl, fun _ => rfl, rfl, id⟩

theorem Cmd.plainStart_of_kind {a : Tile} (h : c.kind = .mclr ∨ c.kind = .mshr ∨ c.kind = .vbaseL ∨ c.kind = .vbase ∨ c.kind = .vsend) :
    c.plainStart a := by
  unfold Cmd.plainStart Cmd.sets
  rcases h with h | h | h | h | h <;> rw [h] <;> exact ⟨rfl, nofun, nofun, nofun, nofun⟩

/-- MCLR, MSHR and VBASE.l change nothing before they run: they join the started commands. -/
theorem State.startCommand_plain (h : Startable s k q c rest) (hk : c.kind = .mclr ∨ c.kind = .mshr ∨ c.kind = .vbaseL) :
    (s.tile k).Shows ((s.startCommand k q c.seq.toNat).tile k) q c rest
      ∧ (s.tile k).Joined ((s.startCommand k q c.seq.toNat).tile k) c (s.dcc (tileDie k)) := by
  have others : c.kind ≠ .vrun ∧ c.kind ≠ .mbase := by rcases hk with h | h | h <;> rw [h] <;> exact ⟨nofun, nofun⟩
  obtain ⟨shows_, joins, -⟩ := State.startCommand_shows h (Cmd.plainStart_of_kind (by tauto)) others.1 others.2 id
    (fun a => ⟨.refl a, rfl⟩) fun w x hx _ _ hu => by
      unfold startKind
      rw [hx]
      rcases hk with hk | hk | hk <;> rw [hk]
      · exact ⟨w, rfl, rfl⟩
      · exact ⟨w, rfl, rfl⟩
      · dsimp only
        rw [hu, h.uncut]
        exact ⟨_, rfl, State.tile_modTile_self _ _ _⟩
  exact ⟨shows_, joins⟩

/-- VBASE sets the base and clears the zeroed registers (R372). -/
theorem State.startCommand_vbase (h : Startable s k q c rest) (hk : c.kind = .vbase) :
    let u := (s.startCommand k q c.seq.toNat).tile k
    (s.tile k).Shows u q c rest ∧ (s.tile k).Joined u c (s.dcc (tileDie k))
      ∧ u.vbase = BitVec.ofNat 14 (fld c.p0 16 14) ∧ u.m = (s.tile k).m.filter fun e => fld c.p0 0 16 / 2 ^ (e.1 / 4096) % 2 = 0 := by
  obtain ⟨shows_, joins, b, deq, vbase, m, -⟩ := State.startCommand_shows h (Cmd.plainStart_of_kind (by tauto)) (by rw [hk]; exact nofun)
    (by rw [hk]; exact nofun)
    (fun a => { a with vbase := BitVec.ofNat 14 (fld c.p0 16 14), m := a.m.filter fun e => fld c.p0 0 16 / 2 ^ (e.1 / 4096) % 2 = 0 })
    (fun a => ⟨⟨fun q => by cases q <;> rfl, fun q => by cases q <;> rfl, rfl, id⟩, rfl⟩)
    fun w x hx h0 _ _ => ⟨_, by unfold startKind; rw [hx, hk]; rfl, by rw [State.tile_modTile_self, h0]⟩
  obtain ⟨-, -, -, bm, -⟩ := deq.same
  exact ⟨shows_, joins, vbase, m.trans (by rw [bm])⟩

/-- VSEND of a scalar register writes it with its count (R398). -/
theorem State.startCommand_vsend (h : Startable s k q c rest) (hk : c.kind = .vsend) (hd : fld c.p0 28 2 = 0) :
    let u := (s.startCommand k q c.seq.toNat).tile k
    (s.tile k).Shows u q c rest ∧ (s.tile k).Joined u c (s.dcc (tileDie k))
      ∧ u.zGet (fld c.p0 16 4) = { val := c.p1.setWidth 32, tag := storeCount (c.p1.setWidth 32) (fld c.p0 23 5) } := by
  obtain ⟨shows_, joins, b, -, -, -, z⟩ := State.startCommand_shows h (Cmd.plainStart_of_kind (by tauto)) (by rw [hk]; exact nofun)
    (by rw [hk]; exact nofun)
    (fun a => a.zPut (fld c.p0 16 4) { val := c.p1.setWidth 32, tag := storeCount (c.p1.setWidth 32) (fld c.p0 23 5) })
    (fun a => ⟨⟨fun q => by cases q <;> rfl, fun q => by cases q <;> rfl, rfl, id⟩, rfl⟩)
    fun w x hx h0 h1 _ => ⟨_, by unfold startKind; rw [hx, hk]; rfl, by rw [State.tile_modTile_self, h0, h1, hd]; rfl⟩
  refine ⟨shows_, joins, ?_⟩
  unfold Tile.zGet
  rw [z]
  exact Tab.get_set_self _ _ _ _

/-- VRUN starts its table at body step 0 (R72). -/
theorem State.startCommand_vrun (h : Startable s k q c rest) (hk : c.kind = .vrun) (hv : (s.tile k).vs = none) :
    let u := (s.startCommand k q c.seq.toNat).tile k
    (s.tile k).Shows u q c rest ∧ ∃ v, u.vs = some v ∧ v.cmd.pos = c.pos ∧ v.upc = 0 ∧ v.pass = 0
      ∧ v.body = (s.tile k).vbase.toNat + fld c.p0 0 14 + 2 ∧ v.levels = [] := by
  have plain : c.plainStart (s.tile k) := by
    unfold Cmd.plainStart Cmd.sets
    rw [hk]
    exact ⟨rfl, nofun, nofun, nofun, fun _ => hv⟩
  obtain ⟨w, g, start, deq, -⟩ := State.startCommand_starts h plain
  generalize hc : ({ c with gateTaken := g, startedAt := s.dcc (tileDie k) } : Cmd) = x at start
  have kind : x.kind = .vrun := by rw [← hc]; exact hk
  have p0 : x.p0 = c.p0 := by rw [← hc]
  have uncut : x.unstamped = false := by rw [← hc]; exact h.uncut
  have xpos : x.pos = c.pos := by rw [← hc]
  have table : ∃ v, w.startTable k x = v ∧ v.cmd = x ∧ v.upc = 0 ∧ v.pass = 0 ∧ v.body = (w.tile k).vbase.toNat + fld x.p0 0 14 + 2
      ∧ v.levels = [] := by
    unfold State.startTable
    dsimp only
    rw [uncut]
    exact ⟨_, rfl, rfl, rfl, rfl, rfl, rfl⟩
  obtain ⟨v, table, cmd, upc, pass, body, levels⟩ := table
  obtain ⟨-, -, vbase, -, -, quiet⟩ := deq.same
  have runs : (w.begun k x).tile k = Tile.promote { w.tile k with vs := some v } (w.dcc (tileDie k)) := by
    have ok : startKind w k x = .ok (w.modTile k fun t => { t with vs := some v, cutV := t.cutV }) x := by
      unfold startKind
      rw [kind]
      dsimp only
      rw [table, uncut]
      rfl
    unfold State.begun
    rw [ok]
    dsimp only
    rw [kind, if_pos (beq_self_eq_true _), State.tile_afterStep, State.tile_modTile_self]
    · rfl
    · rw [State.tile_modTile_self]
      exact quiet h.quiet
  dsimp only
  rw [start, runs]
  refine ⟨deq.shown ⟨fun q => by cases q <;> rfl, fun q => by cases q <;> rfl, rfl, id⟩ _, v, rfl, ?_, upc, pass, ?_, levels⟩
  · rw [cmd, xpos]
  · rw [body, vbase, p0]

/-! ## The wait for a gate, and for an edge (R62, R67) -/

/-- A command whose gate token is not there joins the token's list. -/
theorem State.startCommand_waits {n : Nat} (hq : (s.tile k).getQ q = c :: rest) (hs : (s.tile k).status = .running)
    (hu : (s.tile k).unresolved c = false) (ht : c.time = 0) (hn : c.gate = some n) (hg : c.gateTaken = false) (hgs : c.gateSince = none)
    (hc : (s.tile k).canTake n 1 = false) (sets : c.sets = []) :
    s.startCommand k q c.seq.toNat = s.setTile k
      (((s.tile k).setQueue q ({ c with gateSince := some (s.dcc (tileDie k)) } :: rest)).addTaker n (.gate c.pos)) := by
  have may : (s.tile k).mayStart = true := by simp [Tile.mayStart, hs]
  have inTime : (s.tile k).missed (s.dcc (tileDie k)) c = false := by simp [Tile.missed, Cmd.unstamped_of_time ht]
  have step : (s.tile k).gateStep (s.dcc (tileDie k)) q c rest
      = (((s.tile k).setQueue q ({ c with gateSince := some (s.dcc (tileDie k)) } :: rest)).addTaker n (.gate c.pos),
        { c with gateSince := some (s.dcc (tileDie k)) }) := by
    unfold Tile.gateStep
    rw [hn]
    dsimp only
    rw [hg, hgs, hc]
    rfl
  unfold State.startCommand
  dsimp only
  rw [State.gateSets_none hq sets, hq]
  dsimp only
  rw [if_neg (by simp [may, hu]), inTime, step]
  simp [hn, hg]

theorem Tile.parked_shows (t : Tile) (q : Queue) (c : Cmd) (rest : List Cmd) (n dcc : Nat) :
    let u := (t.setQueue q ({ c with gateSince := some dcc } :: rest)).addTaker n (.gate c.pos)
    Tab.get [] u.takers n = Tab.get [] t.takers n ++ [.gate c.pos] ∧ u.token n = t.token n ∧ u.started = t.started
      ∧ (u.getQ q).map (fun x => x.pos) = c.pos :: rest.map fun x => x.pos := by
  cases q <;> exact ⟨Tab.get_set_self _ _ _ _, rfl, rfl, rfl⟩

/-- One with an edge left waits in its queue. -/
theorem State.startCommand_edge (hq : (s.tile k).getQ q = c :: rest) (hu : (s.tile k).unresolved c = true) (sets : c.sets = []) (n : Nat) :
    s.startCommand k q n = s := by
  unfold State.startCommand
  dsimp only
  rw [State.gateSets_none hq sets, hq]
  dsimp only
  rw [if_pos (by simp [hu])]

/-! ## Completion (R61, R66, R79) -/

/-- What the service of a token's takers leaves of a tile. -/
structure ServeKeeps (a b : Tile) : Prop where
  journal : b.journal = a.journal
  reports : b.reports = a.reports
  status : b.status = a.status
  region : b.regionState = a.regionState
  started : b.started = a.started
  fpc : b.fpc = a.fpc
  acc : b.acc = a.acc
  rows : b.rows = a.rows
  vs : a.vs = none → b.vs = none

theorem ServeKeeps.trans {a b d : Tile} (h : ServeKeeps a b) (g : ServeKeeps b d) : ServeKeeps a d :=
  ⟨g.journal.trans h.journal, g.reports.trans h.reports, g.status.trans h.status, g.region.trans h.region, g.started.trans h.started,
    g.fpc.trans h.fpc, g.acc.trans h.acc, g.rows.trans h.rows, fun x => g.vs (h.vs x)⟩

theorem Tile.serve_keeps (t : Tile) (dcc : Nat) (w : Taker) : ServeKeeps t (t.serve dcc w) := by
  cases w with
  | ct n => exact ⟨rfl, rfl, rfl, rfl, rfl, rfl, rfl, rfl, id⟩
  | vs n => exact ⟨rfl, rfl, rfl, rfl, rfl, rfl, rfl, rfl, fun h => by simp [Tile.serve, h]⟩
  | gate p => exact ⟨rfl, rfl, rfl, rfl, rfl, rfl, rfl, rfl, id⟩

theorem serveTakers_keeps (dcc n : Nat) (ws : List Taker) : ∀ t, ServeKeeps t (serveTakers dcc n ws t) := by
  induction ws with
  | nil => exact fun t => ⟨rfl, rfl, rfl, rfl, rfl, rfl, rfl, rfl, id⟩
  | cons w ws ih =>
    intro t
    unfold serveTakers
    split
    · have take : ServeKeeps t (t.take dcc n w.amount) := ⟨rfl, rfl, rfl, rfl, rfl, rfl, rfl, rfl, id⟩
      exact (take.trans (Tile.serve_keeps _ dcc w)).trans (ih _)
    · exact ⟨rfl, rfl, rfl, rfl, rfl, rfl, rfl, rfl, id⟩

theorem Tile.signalToken_keeps (t : Tile) (dcc n amount : Nat) : ServeKeeps t (t.signalToken dcc n amount) := by
  unfold Tile.signalToken
  exact ServeKeeps.trans (b := { t with tokens := Tab.set 0 t.tokens n (t.signalled dcc n amount) }) ⟨rfl, rfl, rfl, rfl, rfl, rfl, rfl, rfl, id⟩ (serveTakers_keeps dcc n _ _)

/-- The idle counters of a command's sets restart: nothing else changes (R147). -/
theorem Tile.restSets_keeps (t : Tile) (dcc : Nat) (c : Cmd) :
    ServeKeeps t (t.restSets dcc c) ∧ (t.restSets dcc c).tokens = t.tokens := by
  have rest (l : List Nat) : ∀ u : Tile, ServeKeeps u (l.foldl (fun t i => t.setCim i { t.cim i with idleSince := dcc }) u)
      ∧ (l.foldl (fun t i => t.setCim i { t.cim i with idleSince := dcc }) u).tokens = u.tokens := by
    induction l with
    | nil => exact fun u => ⟨⟨rfl, rfl, rfl, rfl, rfl, rfl, rfl, rfl, id⟩, rfl⟩
    | cons i l ih =>
      intro u
      have one (x : CimGate) : ServeKeeps u (u.setCim i x) ∧ (u.setCim i x).tokens = u.tokens := by
        unfold Tile.setCim
        split <;> exact ⟨⟨rfl, rfl, rfl, rfl, rfl, rfl, rfl, rfl, id⟩, rfl⟩
      obtain ⟨keeps, tokens⟩ := ih (u.setCim i { u.cim i with idleSince := dcc })
      exact ⟨(one _).1.trans keeps, tokens.trans (one _).2⟩
  exact rest _ t

/-- A command that completes leaves the started ones and signals its token. -/
theorem Tile.finish_keeps (t : Tile) (dcc : Nat) (c : Cmd) :
    ServeKeeps { t with started := t.started.filter fun x => x.pos ≠ c.pos } (t.finish dcc c)
    ∧ ∀ n, c.comp = some n → Tab.get [] t.takers n = [] → (t.finish dcc c).token n = t.signalled dcc n 1 := by
  have rest (u : Tile) (l : List (Nat × Queue × BitVec 16)) (x : Started) :
      ServeKeeps u ((({ u with hist := l } : Tile).setLs (Queue.slotOf c.kind) x).restSets dcc c)
      ∧ ((({ u with hist := l } : Tile).setLs (Queue.slotOf c.kind) x).restSets dcc c).tokens = u.tokens := by
    have ls : ServeKeeps u (({ u with hist := l } : Tile).setLs (Queue.slotOf c.kind) x)
        ∧ (({ u with hist := l } : Tile).setLs (Queue.slotOf c.kind) x).tokens = u.tokens := by
      cases Queue.slotOf c.kind <;> exact ⟨⟨rfl, rfl, rfl, rfl, rfl, rfl, rfl, rfl, id⟩, rfl⟩
    obtain ⟨keeps, tokens⟩ := Tile.restSets_keeps (({ u with hist := l } : Tile).setLs (Queue.slotOf c.kind) x) dcc c
    exact ⟨ls.1.trans keeps, tokens.trans ls.2⟩
  unfold Tile.finish
  dsimp only
  cases hc : c.comp with
  | none => exact ⟨(rest _ _ _).1, nofun⟩
  | some n =>
    dsimp only
    refine ⟨(Tile.signalToken_keeps _ dcc n 1).trans (rest _ _ _).1, fun m hm ht => ?_⟩
    cases hm
    unfold Tile.token
    rw [(rest _ _ _).2, Tile.signalToken_untaken (by exact ht)]
    exact Tab.get_set_self _ _ _ _

/-- What a completion leaves (R61, R66, R79). -/
def Tile.Finished (t u : Tile) (c : Cmd) (dcc : Nat) : Prop :=
  u.started = t.started.filter (fun x => x.pos ≠ c.pos) ∧ u.fpc = t.fpc ||| BitVec.ofNat 64 c.flags
  ∧ ∀ n, c.comp = some n → Tab.get [] t.takers n = [] → u.token n = t.signalled dcc n 1

theorem State.finishCmd_finishes (hq : EngineQuiet (s.tile k)) (c : Cmd) :
    (s.tile k).Finished ((s.finishCmd k c).tile k) c (s.dcc (tileDie k))
    ∧ ((s.finishCmd k c).tile k).acc = (s.tile k).acc ∧ ((s.finishCmd k c).tile k).rows = (s.tile k).rows
    ∧ ((s.tile k).vs = none → ((s.finishCmd k c).tile k).vs = none) := by
  obtain ⟨hj, hr, hs, hc⟩ := hq
  obtain ⟨keeps, tokens⟩ := Tile.finish_keeps { s.tile k with fpc := (s.tile k).fpc ||| BitVec.ofNat 64 c.flags } (s.dcc (tileDie k)) c
  unfold State.finishCmd
  rw [State.tile_afterStep, State.tile_modTile_self]
  · exact ⟨⟨keeps.started, keeps.fpc, tokens⟩, keeps.acc, keeps.rows, keeps.vs⟩
  · rw [State.tile_modTile_self]
    refine ⟨keeps.journal.trans hj, keeps.reports.trans hr, keeps.status.trans hs, ?_⟩
    unfold Tile.chk at hc ⊢
    rw [keeps.region]
    exact hc

/-- The started command at a position runs to its completion, with its effect on the tile, and completes. -/
theorem State.completeCommand_finishes {s' : State} (hf : (s.tile k).started.find? (fun x => x.pos = pos) = some c)
    (hv : ((s.tile k).vs.map fun v => v.cmd.pos) ≠ some pos) (hl : c.late = false) (hg : c.legs = 0) (hx : c.kind ≠ .hexch)
    (hr : c.kind ≠ .cred) (run : runKind s k c = .ok s' c) : s.completeCommand k pos = s'.finishCmd k c := by
  have alive : c.allFailed = false := by
    unfold Cmd.allFailed
    rw [beq_eq_false_iff_ne.2 hx]
    rfl
  have calm : credTrap c = none := by
    unfold credTrap
    rw [if_neg (by simpa using hr)]
  unfold State.completeCommand
  dsimp only
  rw [if_neg hv, hf]
  dsimp only
  rw [alive, run]
  dsimp only
  rw [calm]
  simp [hl, hg]

theorem State.completeCommand_waits {s' : State} (hf : (s.tile k).started.find? (fun x => x.pos = pos) = some c)
    (hv : ((s.tile k).vs.map fun v => v.cmd.pos) ≠ some pos) (hl : c.late = false) (hx : c.kind ≠ .hexch)
    (run : runKind s k c = .wait s' c) : s.completeCommand k pos = s' := by
  have alive : c.allFailed = false := by
    unfold Cmd.allFailed
    rw [beq_eq_false_iff_ne.2 hx]
    rfl
  unfold State.completeCommand
  dsimp only
  rw [if_neg hv, hf]
  dsimp only
  rw [alive, run]
  simp [hl]

/-! ## MCLR (R341) -/

/-- One row of an accumulator cleared. -/
def Tile.clearRow (t : Tile) (a r : Nat) : Tile :=
  ({ t with acc := t.acc.filter fun e => e.1 / 256 ≠ a * 32 + r } : Tile).setRow a r {}

/-- Rows lo to lo + n - 1 of an accumulator cleared, in order. -/
def Tile.clearRows (t : Tile) (a lo n : Nat) : Tile := (List.range n).foldl (fun u i => u.clearRow a (lo + i)) t

theorem Tile.clearRows_succ (t : Tile) (a lo n : Nat) : t.clearRows a lo (n + 1) = (t.clearRows a lo n).clearRow a (lo + n) := by
  unfold Tile.clearRows
  rw [List.range_succ, List.foldl_append]
  rfl

/-- Clearing changes rows and values alone. -/
theorem Tile.clearRows_only (t : Tile) (a lo n : Nat) :
    t.clearRows a lo n = { t with acc := (t.clearRows a lo n).acc, rows := (t.clearRows a lo n).rows } := by
  induction n with
  | zero => rfl
  | succ n ih =>
    rw [Tile.clearRows_succ, ih]
    rfl

/-- The row and its 256 values are clear. -/
def Tile.RowClear (t : Tile) (a r : Nat) : Prop := t.row a r = {} ∧ ∀ n, n < 256 → t.accVal a r n = 0

theorem Tile.rowClear_clearRow (t : Tile) (a r x : Nat) (h : r = x ∨ t.RowClear a r) : (t.clearRow a x).RowClear a r := by
  have row : (t.clearRow a x).row a r = if a * 32 + r = a * 32 + x then {} else t.row a r :=
    Tab.get_set {} t.rows (a * 32 + x) (a * 32 + r) {}
  have value (n : Nat) (hn : n < 256) : (t.clearRow a x).accVal a r n = if r = x then 0 else t.accVal a r n := by
    have key : accKey a r n / 256 = a * 32 + r := by unfold accKey; omega
    unfold Tile.accVal
    have find : Tab.find? (t.clearRow a x).acc (accKey a r n) = if r = x then none else Tab.find? t.acc (accKey a r n) := by
      refine (Tab.find_filter_key t.acc (fun e => decide (e / 256 ≠ a * 32 + x)) _).trans ?_
      rw [key]
      by_cases hr : r = x
      · simp [hr]
      · simp [hr]
    unfold Tab.get
    rw [find]
    split <;> rfl
  by_cases hr : r = x
  · exact ⟨by rw [row, if_pos (by rw [hr])], fun n hn => by rw [value n hn, if_pos hr]⟩
  · obtain ⟨hrow, hval⟩ := h.resolve_left hr
    exact ⟨by rw [row, if_neg (by omega), hrow], fun n hn => by rw [value n hn, if_neg hr, hval n hn]⟩

theorem Tile.clearRows_clear (t : Tile) (a lo r : Nat) : ∀ n, lo ≤ r → r < lo + n → (t.clearRows a lo n).RowClear a r := by
  intro n
  induction n with
  | zero => intro h1 h2; omega
  | succ n ih =>
    intro h1 h2
    rw [Tile.clearRows_succ]
    refine Tile.rowClear_clearRow _ a r _ ?_
    by_cases h : r = lo + n
    · exact .inl h
    · exact .inr (ih h1 (by omega))

end Sys2Proof.Machine
end

section
/-! SUPPORT. COMMAND_START and COMMAND_COMPLETE, as the words of the schedule (R61, R62). -/

namespace Sys2Proof.Machine

variable {s : State} {k pos : Nat} {c : Cmd} {rest : List Cmd}

theorem exec_commandStart (s : State) (k qn n : Nat) : exec (.commandStart k qn n) s = .next (s.startCommand k (queueNo qn) n) := by
  show Host.Outcome.next (s.startCommand k (if qn = 0 then .vq else if qn = 1 then .mq else .cq) n) = _
  rfl

theorem exec_commandComplete (s : State) (k pos : Nat) : exec (.commandComplete k pos) s = .next (s.completeCommand k pos) := rfl

section
variable (hq : EngineQuiet (s.tile k)) (hf : (s.tile k).started.find? (fun x => x.pos = pos) = some c)
  (hv : ((s.tile k).vs.map fun v => v.cmd.pos) ≠ some pos) (hl : c.late = false) (hg : c.legs = 0)
include hq hf hv hl hg

/-- A command whose effect was at its start completes. -/
theorem State.completeCommand_atStart (hk : c.kind = .vbase ∨ c.kind = .vsend ∨ c.kind = .wdef ∨ c.kind = .xpat) :
    (s.tile k).Finished ((s.completeCommand k pos).tile k) c (s.dcc (tileDie k)) := by
  have run : runKind s k c = .ok s c := by
    unfold runKind
    rcases hk with h | h | h | h <;> rw [h]
  have kinds : c.kind ≠ .hexch ∧ c.kind ≠ .cred := by
    rcases hk with h | h | h | h <;> rw [h] <;> exact ⟨nofun, nofun⟩
  rw [State.completeCommand_finishes hf hv hl hg kinds.1 kinds.2 run]
  exact (State.finishCmd_finishes hq c).1

/-- MCLR completes in 4 + r cycles, its rows clear. -/
theorem State.completeCommand_mclr (hk : c.kind = .mclr) (due : c.startedAt + 4 + rowsOf c.p0 ≤ s.dcc (tileDie k)) :
    (s.tile k).Finished ((s.completeCommand k pos).tile k) c (s.dcc (tileDie k))
    ∧ ∀ r, row0Of c.p0 ≤ r → r < row0Of c.p0 + rowsOf c.p0 → ((s.completeCommand k pos).tile k).RowClear (accOf c.p0) r := by
  have run : runKind s k c = .ok (s.modTile k fun t => t.clearRows (accOf c.p0) (row0Of c.p0) (rowsOf c.p0)) c := by
    unfold runKind
    dsimp only
    rw [hk]
    dsimp only
    rw [if_neg (by omega)]
    rfl
  have tile : (s.modTile k fun t => t.clearRows (accOf c.p0) (row0Of c.p0) (rowsOf c.p0)).tile k
      = (s.tile k).clearRows (accOf c.p0) (row0Of c.p0) (rowsOf c.p0) := State.tile_modTile_self _ _ _
  rw [State.completeCommand_finishes hf hv hl hg (by rw [hk]; exact nofun) (by rw [hk]; exact nofun) run]
  have only := (s.tile k).clearRows_only (accOf c.p0) (row0Of c.p0) (rowsOf c.p0)
  have clear := fun r => (s.tile k).clearRows_clear (accOf c.p0) (row0Of c.p0) r (rowsOf c.p0)
  rw [← tile] at only clear
  obtain ⟨done, acc, rows, -⟩ := State.finishCmd_finishes (by rw [only]; exact hq) c
  refine ⟨?_, fun r h1 h2 => ?_⟩
  · rw [only] at done
    exact done
  · unfold Tile.RowClear Tile.row Tile.accVal
    rw [acc, rows]
    exact clear r h1 h2

end

theorem State.completeCommand_mclr_early (hf : (s.tile k).started.find? (fun x => x.pos = pos) = some c)
    (hv : ((s.tile k).vs.map fun v => v.cmd.pos) ≠ some pos) (hl : c.late = false) (hk : c.kind = .mclr)
    (early : s.dcc (tileDie k) < c.startedAt + 4 + rowsOf c.p0) : s.completeCommand k pos = s := by
  have run : runKind s k c = .wait s c := by
    unfold runKind
    dsimp only
    rw [hk]
    exact if_pos early
  exact State.completeCommand_waits hf hv hl (by rw [hk]; exact nofun) run

/-- The running table has ended: its VRUN completes, with its flags (R72, R79). -/
theorem State.completeCommand_vrun {v : VsRun} (hq : EngineQuiet (s.tile k)) (hv : (s.tile k).vs = some v) (hp : v.cmd.pos = pos)
    (hd : v.done = true) : ((s.completeCommand k pos).tile k).vs = none
      ∧ (s.tile k).Finished ((s.completeCommand k pos).tile k) { v.cmd with flags := v.flags } (s.dcc (tileDie k)) := by
  have ends : s.completeCommand k pos
      = (s.modTile k fun t => { t with vs := none }).finishCmd k { v.cmd with flags := v.flags } := by
    unfold State.completeCommand State.finishVrun
    dsimp only
    rw [if_pos (by rw [hv, ← hp]; rfl), hv]
    dsimp only
    rw [hd]
    rfl
  have tile : (s.modTile k fun t => { t with vs := none }).tile k = { s.tile k with vs := none } := State.tile_modTile_self _ _ _
  obtain ⟨done, -, -, vs⟩ := State.finishCmd_finishes (s := s.modTile k fun t => { t with vs := none }) (by rw [tile]; exact hq)
    { v.cmd with flags := v.flags }
  rw [tile] at done vs
  rw [ends]
  exact ⟨vs rfl, done⟩

/-- One that has not ended goes on. -/
theorem State.completeCommand_vrunning {v : VsRun} (hv : (s.tile k).vs = some v) (hp : v.cmd.pos = pos) (hd : v.done = false)
    (hh : v.halt = false) : s.completeCommand k pos = s := by
  unfold State.completeCommand State.finishVrun
  dsimp only
  rw [if_pos (by rw [hv, ← hp]; rfl), hv]
  dsimp only
  rw [hd, hh]
  rfl

/-- What VBASE's bits say of a register file (R372). -/
theorem get_zeroed (m : Tab VElem) (z i : Nat) :
    Tab.get {} (m.filter fun e => z / 2 ^ (e.1 / 4096) % 2 = 0) i = if z / 2 ^ (i / 4096) % 2 = 0 then Tab.get {} m i else {} := by
  unfold Tab.get
  rw [Tab.find_filter_key m (fun e => decide (z / 2 ^ (e / 4096) % 2 = 0))]
  by_cases h : z / 2 ^ (i / 4096) % 2 = 0 <;> simp [h]

end Sys2Proof.Machine
end

section
namespace Sys2Proof.Machine

/-- Settles O47: a start is the command's dequeuing and its effect on its tile, a completion its effect and what every
completion leaves. -/
theorem commandSteps : Obligations.CommandSteps := by
  unfold Obligations.CommandSteps
  intro s k qn pos c rest
  dsimp only
  intro hquiet
  refine ⟨fun hq _ hu ht hn hg hgs gate => ?_, fun n hq hu ht hn hg hgs hc sets => ?_, ⟨fun hq hu sets => ?_, fun hf hv hl hg => ?_⟩,
    fun v hv hp => ⟨fun hd => ?_, fun hd hh => ?_⟩⟩
  · have ready : Startable s k (queueNo qn) c rest := ⟨hquiet, hq, hu, ht, hn, hg, hgs, gate⟩
    refine ⟨fun hk => ?_, fun hk => ?_, fun hk hd => ?_, fun hk hv => ?_⟩
    · obtain ⟨shows_, joins⟩ := State.startCommand_plain ready hk
      exact ⟨_, exec_commandStart .., shows_, joins⟩
    · obtain ⟨shows_, joins, vbase, m⟩ := State.startCommand_vbase ready hk
      refine ⟨_, exec_commandStart .., shows_, joins, ?_, fun i => ?_⟩
      · rw [vbase, fld_eq, show (2 : Nat) ^ 16 = 65536 by decide]
        exact BitVec.eq_of_toNat_eq (by rw [BitVec.toNat_ofNat, BitVec.toNat_ofNat, Nat.mod_mod])
      · rw [m, get_zeroed, fld_eq, Nat.pow_zero, Nat.div_one, show (2 : Nat) ^ 16 = 65536 by decide]
    · obtain ⟨shows_, joins, z⟩ := State.startCommand_vsend ready hk hd
      exact ⟨_, exec_commandStart .., shows_, joins, z⟩
    · obtain ⟨shows_, v, hvs, pos, upc, pass, body, levels⟩ := State.startCommand_vrun ready hk hv
      exact ⟨_, exec_commandStart .., shows_, v, hvs, pos, upc, pass, body, levels⟩
  · obtain ⟨-, -, hs, -⟩ := hquiet
    refine ⟨_, (exec_commandStart ..).trans (congrArg Host.Outcome.next (State.startCommand_waits hq hs hu ht hn hg hgs hc sets)), ?_⟩
    rw [State.tile_setTile_self]
    exact (s.tile k).parked_shows _ c rest n _
  · rw [exec_commandStart, State.startCommand_edge hq hu sets]
  · refine ⟨fun hk => ⟨_, exec_commandComplete .., State.completeCommand_atStart hquiet hf hv hl hg hk⟩, fun hk => ⟨fun early => ?_, fun due => ?_⟩⟩
    · rw [exec_commandComplete, State.completeCommand_mclr_early hf hv hl hk early]
    · obtain ⟨done, clear⟩ := State.completeCommand_mclr hquiet hf hv hl hg hk due
      exact ⟨_, exec_commandComplete .., done, clear⟩
  · obtain ⟨vs, -, fpc, tokens⟩ := State.completeCommand_vrun hquiet hv hp hd
    exact ⟨_, exec_commandComplete .., vs, fpc, tokens⟩
  · rw [exec_commandComplete, State.completeCommand_vrunning hv hp hd hh]

end Sys2Proof.Machine
end

section
/-! SUPPORT. The issue of a command into its queue (R60 to R62, R127, R254). -/

namespace Sys2Proof.Machine

variable {s : State} {kind : CmdKind} {a g c : BitVec 6} {x y : BitVec 1} {pair : Bool} {check : State → W64 → W64 → IssueCheck}

/-! ## The four ends of an issue -/

theorem exec_issue_odd (hp : pair = true) (ha : a.toNat % 2 = 1) : s.issue kind a g c x y pair check = .next (s.fault s.focus Cls.illegalOp) := by
  unfold State.issue
  dsimp only
  rw [if_pos ⟨hp, ha⟩]
  rfl

/-- The word's number has started already: only the queue's number goes on (R254). -/
theorem issue_skips (ha : pair = true → a.toNat % 2 = 0) (hs : s.cur.skips (Queue.slotOf kind) (s.cur.nextNum (Queue.slotOf kind)) = true) :
    ∃ u, s.issue kind a g c x y pair check = .next (s.retire (s.cur.bumpNum (Queue.slotOf kind) |> fun t => { t with hist := u })) := by
  refine ⟨s.cur.hist ++ [(s.cur.order, Queue.slotOf kind, s.cur.nextNum (Queue.slotOf kind))], ?_⟩
  unfold State.issue
  dsimp only
  rw [if_neg (fun h => by have := ha h.1; omega), if_pos hs]

/-- The tile's queue has one command more, of the entry `e`, and its next number; the CT's own state is as it was. -/
structure Enqueued (t u : Tile) (q : Queue) (e : CmdKind × BitVec 16 × W64 × Nat × Option Nat × Option Nat × W64 × W64 × W64) : Prop where
  pc : u.pc = t.pc
  regs : u.g = t.g ∧ u.f = t.f ∧ u.q = t.q ∧ u.d = t.d ∧ u.fpc = t.fpc
  region : u.regionState = t.regionState
  num : u.nextNum q = t.nextNum q + 1
  queue : (u.getQ q).map entryOf = (t.getQ q).map entryOf ++ [e]

theorem Tile.entries_promote (t : Tile) (dcc : Nat) (q : Queue) : ((t.promote dcc).getQ q).map entryOf = (t.getQ q).map entryOf := by
  have head (l : List Cmd) : (headSince dcc l).map entryOf = l.map entryOf := by
    cases l with
    | nil => rfl
    | cons c r =>
      unfold headSince
      rw [List.map_cons, List.map_cons]
      split <;> rfl
  cases q <;> exact head _

/-- A tile with a command put at the tail of a queue (R61). -/
def Tile.putTail (t : Tile) (q : Queue) (cmd : Cmd) (hist : List (Nat × Queue × BitVec 16)) (loads : List Cmd) (stall dcc : Nat) : Tile :=
  Tile.promote { (t.setQueue q (t.getQ q ++ [cmd])).bumpNum q with hist := hist, loads := loads, stallUntil := stall } dcc

theorem Tile.putTail_enqueued (t : Tile) (q : Queue) (cmd : Cmd) (hist : List (Nat × Queue × BitVec 16)) (loads : List Cmd) (stall dcc : Nat) :
    Enqueued t (t.putTail q cmd hist loads stall dcc) q (entryOf cmd) := by
  have queue : ({ (t.setQueue q (t.getQ q ++ [cmd])).bumpNum q with hist := hist, loads := loads, stallUntil := stall } : Tile).getQ q
      = t.getQ q ++ [cmd] := by cases q <;> rfl
  refine ⟨?_, ?_, ?_, ?_, ?_⟩
  · cases q <;> rfl
  · cases q <;> exact ⟨rfl, rfl, rfl, rfl, rfl⟩
  · cases q <;> rfl
  · cases q <;> rfl
  · unfold Tile.putTail
    rw [Tile.entries_promote, queue, List.map_append]
    rfl

section
variable {p1 : W64} {body : Cmd} (ha : pair = true → a.toNat % 2 = 0) (hp : p1 = if pair = true then s.cur.gReg (a.toNat + 1) else 0)
  (hs : s.cur.skips (Queue.slotOf kind) (s.cur.nextNum (Queue.slotOf kind)) = false) (hc : check s (s.g a) p1 = .ok body)
include ha hp hs hc

/-- A queue with room takes the command (R61). -/
theorem issue_enqueues (room : (s.cur.getQ (Queue.slotOf kind)).length < 32)
    (late : s.cur.lateStall (s.dcc (tileDie s.focus)) = false) (held : s.cur.issueHeld (tileDie s.focus) = false) :
    ∃ u, s.issue kind a g c x y pair check = .next ((s.retire u).stallCount s.focus)
      ∧ Enqueued s.cur u (Queue.slotOf kind) (kind, s.cur.nextNum (Queue.slotOf kind), s.cur.instrPc, s.cur.order,
        if x = 1 then some g.toNat else none, if y = 1 then some c.toNat else none, s.g a, p1, s.cur.fpc) := by
  obtain ⟨nopen, nfar⟩ : s.cur.releaseOpen = false ∧ s.cur.releaseFar (tileDie s.focus) = false := by
    simpa [Tile.issueHeld] using held
  have notFull : ¬ Config.queueSize ≤ (s.cur.getQ (Queue.slotOf kind)).length := Nat.not_le.2 room
  unfold State.issue
  dsimp only
  rw [if_neg (fun h => by have := ha h.1; omega), hs, ← hp, show s.cur.gReg a.toNat = s.g a from rfl, hc]
  dsimp only
  rw [if_neg Bool.false_ne_true, if_neg notFull, late, nopen, nfar]
  exact ⟨_, rfl, Tile.putTail_enqueued _ _ _ _ _ _ _⟩

/-- A full queue holds the word (R62). -/
theorem issue_waits (full : (s.cur.getQ (Queue.slotOf kind)).length = 32) :
    s.issue kind a g c x y pair check = .next (s.stallIssue s.focus (.queue (Queue.slotOf kind))) := by
  unfold State.issue
  dsimp only
  rw [if_neg (fun h => by have := ha h.1; omega), hs, ← hp, show s.cur.gReg a.toNat = s.g a from rfl, hc]
  dsimp only
  rw [if_neg Bool.false_ne_true]
  exact if_pos (by rw [full]; exact Nat.le_refl _)

end

/-- A stall of a word without PFX leaves the tile but for its wait. -/
theorem State.cur_stallIssue (h : s.cur.pfx = none) (on : WaitOn) :
    ∃ w, (s.stallIssue s.focus on).cur = { s.cur with wait := some w } ∧ w.on = on := by
  have bare : s.cur.unprefix = s.cur := by
    unfold Tile.unprefix
    rw [h]
    rfl
  refine ⟨_, (State.cur_modTile _ _).trans (by rw [if_neg Bool.false_ne_true, bare]), rfl⟩

end Sys2Proof.Machine
end

section
/-! SUPPORT. The checks of each engine word on its parameters (R60, R61, R91, and the words' entries). -/

namespace Sys2Proof.Machine

variable (a g c : BitVec 6) (x y : BitVec 1)

/-- A check that the parameters of R61's entries pass. -/
def Accepts (kind : CmdKind) (check : State → W64 → W64 → IssueCheck) : Prop :=
  ∀ s p0 p1, paramsOk s kind p0 p1 → ∃ body, check s p0 p1 = .ok body

/-- The word issues a command of the kind, under a check that such parameters pass. -/
def Issues (i : Instr) (kind : CmdKind) (a g c : BitVec 6) (x y : BitVec 1) : Prop :=
  ∃ check, (∀ s, exec i s = s.issue kind a g c x y (paired kind) check) ∧ Accepts kind check

/-! ## Bits of a parameter register -/

theorem fld_testBit (p0 : W64) (i : Nat) : (fld p0 0 51).testBit i = (decide (i < 51) && p0.getLsbD i) := by
  rw [fld_eq, Nat.pow_zero, Nat.div_one, Nat.testBit_mod_two_pow]
  rfl

/-- The bits outside a mask are zero: the matrix words' check passes. -/
theorem matrixOk_of_onlyBits {p0 : W64} {mask : Nat} (hm : mask < 2 ^ 51) (h : onlyBits p0 mask) : matrixOk p0 mask = true := by
  refine decide_eq_true (Nat.eq_of_testBit_eq fun i => ?_)
  rw [Nat.testBit_and, fld_testBit, Nat.zero_testBit, show 2 ^ 51 - 1 - mask = 2 ^ 51 - (mask + 1) by omega, Nat.testBit_two_pow_sub_succ hm]
  by_cases hi : i < 51
  · cases hb : p0.getLsbD i with
    | false => simp
    | true =>
      have bit : mask.testBit i = true := by
        rw [Nat.testBit_eq_decide_div_mod_eq]
        exact decide_eq_true (h i hi hb)
      simp [bit]
  · simp [hi]

theorem fld_of_onlyBits {p0 : W64} (h : onlyBits p0 0) : fld p0 0 51 = 0 := by
  refine Nat.eq_of_testBit_eq fun i => ?_
  rw [fld_testBit, Nat.zero_testBit]
  by_cases hi : i < 51
  · cases hb : p0.getLsbD i with
    | false => simp
    | true => exact absurd (h i hi hb) (by simp)
  · simp [hi]

/-! ## The vector queue -/

theorem vrun_issues : Issues (.vrun a g c x y) .vrun a g c x y := by
  refine ⟨_, fun s => (rfl : execVrun a g c x y s = _), fun s p0 p1 ok => ?_⟩
  obtain ⟨h0, h1, owed, header⟩ := ok
  have none_owed : (s.cur.owed.any fun e => e.kind = .vbase || e.kind = .vbaseL) = false := by
    rw [List.any_eq_false]
    intro e he
    simpa using owed e he
  dsimp only
  rw [if_neg (by simp [h0, h1]), none_owed, header]
  exact ⟨_, rfl⟩

theorem vbase_issues : Issues (.vbase a g c x y) .vbase a g c x y := by
  refine ⟨_, fun s => (rfl : execVbase a g c x y s = _), fun s p0 p1 ok => ?_⟩
  obtain ⟨h0, h1, h2⟩ := ok
  exact ⟨_, if_neg (by simp [h0, h1, h2])⟩

theorem vbaseL_issues : Issues (.vbaseL a g c x y) .vbaseL a g c x y := by
  refine ⟨_, fun s => (rfl : execVbaseL a g c x y s = _), fun s p0 p1 ok => ?_⟩
  obtain ⟨h0, h1, h2, h3, h4, h5, h6⟩ := ok
  dsimp only
  rw [if_neg (by simp [h0, h1, h2, h3, h4, h5]), if_neg (by simp [h6])]
  exact ⟨_, rfl⟩

theorem vhalt_issues : Issues (.vhalt a g c x y) .vhalt a g c x y :=
  ⟨_, fun s => (rfl : execVhalt a g c x y s = _), fun _ _ _ ok => ⟨_, if_neg (not_not.2 (fld_of_onlyBits ok))⟩⟩

theorem vsend_issues : Issues (.vsend a g c x y) .vsend a g c x y := by
  refine ⟨_, fun s => (rfl : execVsend a g c x y s = _), fun s p0 p1 ok => ?_⟩
  obtain ⟨h0, h1, h2, h3, h4, h5, h6⟩ := ok
  dsimp only
  exact ⟨_, if_neg (by omega)⟩

theorem wdef_issues : Issues (.wdef a g c x y) .wdef a g c x y := by
  refine ⟨_, fun s => (rfl : execWdef a g c x y s = _), fun s p0 p1 ok => ?_⟩
  obtain ⟨h0, h1, h2, h3, h4⟩ := ok
  dsimp only
  rw [if_neg]
  · exact ⟨_, rfl⟩
  · rintro (h | ⟨he, h⟩ | h | ⟨hx, h⟩ | ⟨he, h⟩ | ⟨hi, he⟩)
    · exact h h0
    · exact h (h1 (by simpa using he))
    · rw [h2] at h
      exact absurd h (by decide)
    · rcases h3 with h3 | h3
      · rw [h3] at hx
        exact absurd hx (by decide)
      · simp at h3
        omega
    · have := (h4 he).1
      omega
    · rw [(h4 he).2] at hi
      exact absurd hi (by decide)

/-! ## The matrix queue -/

theorem mbase_issues : Issues (.mbase a g c x y) .mbase a g c x y := by
  refine ⟨_, fun s => (rfl : execMbase a g c x y s = _), fun s p0 p1 ok => ?_⟩
  have bits := matrixOk_of_onlyBits (by decide) ok
  exact ⟨_, if_neg (by simp [bits])⟩

theorem mclr_issues : Issues (.mclr a g c x y) .mclr a g c x y := by
  refine ⟨_, fun s => (rfl : execMclr a g c x y s = _), fun s p0 p1 ok => ?_⟩
  obtain ⟨h0, h1⟩ := ok
  have bits : matrixOk p0 (mNr + mRow0 + mAcc) = true := matrixOk_of_onlyBits (by decide) h0
  exact ⟨_, if_neg (by simp [bits]; exact h1)⟩

theorem mshr_issues : Issues (.mshr a g c x y) .mshr a g c x y := by
  refine ⟨_, fun s => (rfl : execMshr a g c x y s = _), fun s p0 p1 ok => ?_⟩
  obtain ⟨h0, h1, h2⟩ := ok
  have bits : matrixOk p0 (mShift + mNr + mRow0 + mAcc) = true := matrixOk_of_onlyBits (by decide) h0
  exact ⟨_, if_neg (by simp [bits]; exact ⟨h1, h2⟩)⟩

theorem mldb_issues : Issues (.mldb a g c x y) .mldb a g c x y := by
  refine ⟨_, fun s => (rfl : execMldb a g c x y s = _), fun s p0 p1 ok => ?_⟩
  obtain ⟨h0, h1, h2, h3, h4, h5⟩ := ok
  have bits : matrixOk p0 (mSet + mMap) = true := matrixOk_of_onlyBits (by decide) h0
  have format : ((s.cur.dReg (fld p0 0 4)).format = 0 || (s.cur.dReg (fld p0 0 4)).format = 1 || (s.cur.dReg (fld p0 0 4)).format = 12) = true := by
    simpa [or_assoc] using h4
  dsimp only
  rw [if_neg (by simp [bits, h1, h2, h3, format]; exact h5)]
  exact ⟨_, rfl⟩

theorem mmul_issues : Issues (.mmul a g c x y) .mmul a g c x y := by
  refine ⟨_, fun s => (rfl : execMmul a g c x y s = _), fun s p0 p1 ok => ?_⟩
  obtain ⟨h0, h1, h2, h3, h4, h5⟩ := ok
  have bits : matrixOk p0 (mNr + mAcc + mSet + mNch + mMap) = true := matrixOk_of_onlyBits (by decide) h0
  have count : ((s.cur.dReg (fld p0 0 4)).count = rowsOf p0 * (fld p0 7 1 + 1) * 512
      || (s.cur.dReg (fld p0 0 4)).count = rowsOf p0 * (fld p0 7 1 + 1) * 1024) = true :=
    Bool.or_eq_true_iff.2 (h5.imp decide_eq_true decide_eq_true)
  dsimp only
  rw [if_neg (by simp [bits, h1, h2, h3, count]; exact h4)]
  exact ⟨_, rfl⟩

/-- The check of the two forms of MDRAIN (R342). -/
def drainCheck (kind : CmdKind) (fits : TMap → Nat → Bool) (s : State) (p0 _p1 : W64) : IssueCheck :=
  let m := s.cur.dReg (fld p0 0 4)
  if !matrixOk p0 (mNr + mRow0 + mAcc + mMap) ∨ row0Of p0 + rowsOf p0 > 32 ∨ !m.writes ∨ m.idx ∨ !fits m (rowsOf p0) then .illegal
  else
    let (r, e) := s.mapRes s.focus m false
    okCmd kind (.a (accOf p0) :: e) r m

theorem drainCheck_ok {kind : CmdKind} {fits : TMap → Nat → Bool} {s : State} {p0 p1 : W64}
    (h0 : onlyBits p0 (0x1F * 2 ^ 24 + 0x1F * 2 ^ 16 + 3 * 2 ^ 12 + 15)) (h1 : row0Of p0 + rowsOf p0 ≤ 32)
    (h2 : (s.cur.dReg (fld p0 0 4)).writes = true) (h3 : (s.cur.dReg (fld p0 0 4)).idx = false)
    (h4 : fits (s.cur.dReg (fld p0 0 4)) (rowsOf p0) = true) : ∃ body, drainCheck kind fits s p0 p1 = .ok body := by
  have bits : matrixOk p0 (mNr + mRow0 + mAcc + mMap) = true := matrixOk_of_onlyBits (by decide) h0
  unfold drainCheck
  dsimp only
  rw [if_neg (by simp [bits, h2, h3, h4]; exact h1)]
  exact ⟨_, rfl⟩

theorem mdrain_issues : Issues (.mdrain a g c x y) .mdrain a g c x y := by
  refine ⟨drainCheck .mdrain fun m n => (m.format = 5 || m.format = 7 || m.format = 9) && m.count = 256 * n, fun _ => rfl, fun s p0 p1 ok => ?_⟩
  obtain ⟨h0, h1, h2, h3, h4, h5⟩ := ok
  refine drainCheck_ok h0 h1 h2 h3 (Bool.and_eq_true_iff.2 ⟨?_, decide_eq_true h5⟩)
  simpa [or_assoc] using h4

theorem mdrainS_issues : Issues (.mdrainS a g c x y) .mdrainS a g c x y := by
  refine ⟨drainCheck .mdrainS fun m n => m.format = 8 && m.count = n, fun _ => rfl, fun s p0 p1 ok => ?_⟩
  obtain ⟨h0, h1, h2, h3, h4, h5⟩ := ok
  exact drainCheck_ok h0 h1 h2 h3 (Bool.and_eq_true_iff.2 ⟨decide_eq_true h4, decide_eq_true h5⟩)

/-! ## The copy queue -/

/-- The check of the four copies (R360). -/
def copyCheck (kind : CmdKind) (s : State) (p0 _p1 : W64) : IssueCheck :=
  let src := s.cur.dReg (fld p0 0 4)
  let dst := s.cur.dReg (fld p0 4 4)
  let intoSlice := kind = .tload || kind = .tgath
  if fld p0 8 43 ≠ 0 ∨ !src.reads ∨ !dst.writes ∨ src.idx ≠ (kind = .tgath) ∨ dst.idx ≠ (kind = .tscat) ∨ src.count ≠ dst.count
      ∨ s.cur.copyWidth src ≠ dst.bits ∨ !s.ownSlice s.focus (if intoSlice then dst.base else src.base) then .illegal
  else
    let (r, e) := s.mapRes s.focus src (kind = .tgath)
    let (w, f) := s.mapRes s.focus dst (kind = .tscat)
    okCmd kind (r ++ e ++ f) w src dst

theorem copyCheck_ok {kind : CmdKind} {s : State} {p0 p1 : W64} (ok : copyOk s kind p0) : ∃ body, copyCheck kind s p0 p1 = .ok body := by
  obtain ⟨h0, h1, h2, h3, h4, h5, h6, h7⟩ := ok
  unfold copyCheck
  dsimp only
  rw [if_neg]
  · exact ⟨_, rfl⟩
  · rintro (h | h | h | h | h | h | h | h)
    · exact h h0
    · rw [h1] at h
      exact absurd h (by decide)
    · rw [h2] at h
      exact absurd h (by decide)
    · rw [h3] at h
      simp at h
    · rw [h4] at h
      simp at h
    · exact h h5
    · exact h h6
    · simp [h7] at h

theorem tload_issues : Issues (.tload a g c x y) .tload a g c x y := ⟨copyCheck .tload, fun _ => rfl, fun _ _ _ ok => copyCheck_ok ok⟩
theorem tstore_issues : Issues (.tstore a g c x y) .tstore a g c x y := ⟨copyCheck .tstore, fun _ => rfl, fun _ _ _ ok => copyCheck_ok ok⟩
theorem tgath_issues : Issues (.tgath a g c x y) .tgath a g c x y := ⟨copyCheck .tgath, fun _ => rfl, fun _ _ _ ok => copyCheck_ok ok⟩
theorem tscat_issues : Issues (.tscat a g c x y) .tscat a g c x y := ⟨copyCheck .tscat, fun _ => rfl, fun _ _ _ ok => copyCheck_ok ok⟩

theorem xpat_issues : Issues (.xpat a g c x y) .xpat a g c x y := by
  refine ⟨_, fun s => (rfl : execXpat a g c x y s = _), fun s p0 p1 ok => ?_⟩
  obtain ⟨h0, bs, p, image, pattern⟩ := ok
  have aligned : (w64 (fld p0 0 48)).toNat % 64 = 0 := by
    unfold w64
    rw [BitVec.toNat_ofNat]
    omega
  rw [if_neg (not_not.2 aligned), show w64 (fld p0 0 48) = BitVec.ofNat 64 (fld p0 0 48) from rfl, image]
  dsimp only
  rw [pattern]
  exact ⟨_, rfl⟩

theorem hexch_issues : Issues (.hexch a g c x y) .hexch a g c x y := by
  refine ⟨_, fun s => (rfl : execHexch a g c x y s = _), fun s p0 p1 ok => ?_⟩
  obtain ⟨h0, h1⟩ := ok
  rw [if_neg (not_not.2 h0), if_neg (not_not.2 h1)]
  exact ⟨_, rfl⟩

theorem layset_issues : Issues (.layset a g c x y) .layset a g c x y :=
  ⟨_, fun s => (rfl : execLayset a g c x y s = _), fun _ _ _ ok => ⟨_, if_neg (not_not.2 ok)⟩⟩

theorem laysetPass_issues : Issues (.laysetPass a g c x y) .laysetPass a g c x y := by
  refine ⟨_, fun s => (rfl : execLaysetPass a g c x y s = _), fun s p0 p1 ok => ?_⟩
  obtain ⟨h0, h1⟩ := ok
  dsimp only
  rw [if_neg (not_not.2 h0), if_neg (not_not.2 h1)]
  exact ⟨_, rfl⟩

theorem reshard_issues : Issues (.reshard a g c x y) .reshard a g c x y := by
  refine ⟨_, fun s => (rfl : execReshard a g c x y s = _), fun s p0 p1 ok => ?_⟩
  obtain ⟨h0, h1⟩ := ok
  exact ⟨_, if_neg (by simp [h0, h1])⟩

/-- The check of the two collectives (R294). -/
def collectiveCheck (kind : CmdKind) (s : State) (p0 p1 : W64) : IssueCheck :=
  let desc := fld p0 0 48
  let buf := fld p1 0 48
  if fld p0 48 3 ≠ 0 ∨ fld p1 48 16 ≠ 0 then .illegal
  else if desc % 32 ≠ 0 then .fault Cls.align (w64 desc)
  else if buf % 16 ≠ 0 then .fault Cls.align (w64 buf)
  else
    let b := s.rangeRes s.focus buf (buf + 272)
    okCmd kind (s.rangeRes s.focus desc (desc + 32) ++ b) b

theorem collectiveCheck_ok {kind : CmdKind} {s : State} {p0 p1 : W64} (h0 : fld p0 48 3 = 0) (h1 : fld p1 48 16 = 0)
    (h2 : fld p0 0 48 % 32 = 0) (h3 : fld p1 0 48 % 16 = 0) : ∃ body, collectiveCheck kind s p0 p1 = .ok body := by
  unfold collectiveCheck
  dsimp only
  rw [if_neg (by simp [h0, h1]), if_neg (not_not.2 h2), if_neg (not_not.2 h3)]
  exact ⟨_, rfl⟩

theorem cred_issues : Issues (.cred a g c x y) .cred a g c x y :=
  ⟨collectiveCheck .cred, fun _ => rfl, fun _ _ _ ⟨h0, h1, h2, h3⟩ => collectiveCheck_ok h0 h1 h2 h3⟩
theorem cbcast_issues : Issues (.cbcast a g c x y) .cbcast a g c x y :=
  ⟨collectiveCheck .cbcast, fun _ => rfl, fun _ _ _ ⟨h0, h1, h2, h3⟩ => collectiveCheck_ok h0 h1 h2 h3⟩

/-- Every engine word issues its command. -/
theorem issues_of_issueForm {i : Instr} {kind : CmdKind} {a g c : BitVec 6} {x y : BitVec 1} (h : issueForm i = some (kind, a, g, c, x, y)) :
    Issues i kind a g c x y := by
  unfold issueForm at h
  split at h
  · cases h; exact vrun_issues a g c x y
  · cases h; exact vbase_issues a g c x y
  · cases h; exact vbaseL_issues a g c x y
  · cases h; exact vhalt_issues a g c x y
  · cases h; exact vsend_issues a g c x y
  · cases h; exact wdef_issues a g c x y
  · cases h; exact mldb_issues a g c x y
  · cases h; exact mmul_issues a g c x y
  · cases h; exact mdrain_issues a g c x y
  · cases h; exact mdrainS_issues a g c x y
  · cases h; exact mclr_issues a g c x y
  · cases h; exact mbase_issues a g c x y
  · cases h; exact mshr_issues a g c x y
  · cases h; exact tload_issues a g c x y
  · cases h; exact tstore_issues a g c x y
  · cases h; exact tgath_issues a g c x y
  · cases h; exact tscat_issues a g c x y
  · cases h; exact xpat_issues a g c x y
  · cases h; exact hexch_issues a g c x y
  · cases h; exact layset_issues a g c x y
  · cases h; exact laysetPass_issues a g c x y
  · cases h; exact reshard_issues a g c x y
  · cases h; exact cred_issues a g c x y
  · cases h; exact cbcast_issues a g c x y
  · cases h

@[simp] theorem Tile.nextNum_retire (t : Tile) (dcc : Nat) (q : Queue) : (t.retire dcc).nextNum q = t.nextNum q := by cases q <;> rfl
@[simp] theorem Tile.getQ_retire (t : Tile) (dcc : Nat) (q : Queue) : (t.retire dcc).getQ q = t.getQ q := by cases q <;> rfl

/-- A number passed over: the queue's next number alone. -/
theorem Tile.bumpNum_only (t : Tile) (q : Queue) (l : List (Nat × Queue × BitVec 16)) :
    let u : Tile := { t.bumpNum q with hist := l }
    u.pc = t.pc ∧ (u.g = t.g ∧ u.f = t.f ∧ u.q = t.q ∧ u.d = t.d ∧ u.fpc = t.fpc) ∧ u.nextNum q = t.nextNum q + 1 ∧ u.getQ q = t.getQ q := by
  cases q <;> exact ⟨rfl, ⟨rfl, rfl, rfl, rfl, rfl⟩, rfl, rfl⟩

theorem queueOf_eq (kind : CmdKind) : queueOf kind = Queue.slotOf kind := by cases kind <;> rfl

end Sys2Proof.Machine
end

section
namespace Sys2Proof.Machine

/-- The command is in its queue, or, where its number has started already, is skipped. -/
theorem issueWords_queue : issueQueues := by
  intro i s kind a g c x y form
  obtain ⟨check, runs, accepts⟩ := issues_of_issueForm form
  dsimp only
  rw [runs, queueOf_eq]
  intro ha
  refine ⟨fun hs ok room late held calm => ?_, fun hs => ?_⟩
  · obtain ⟨body, hc⟩ := accepts s _ _ ok
    obtain ⟨u, issue, pc, ⟨hg, hf, hq, hd, hfpc⟩, region, num, queue⟩ := issue_enqueues (g := g) (c := c) (x := x) (y := y) ha rfl hs hc room late held
    have calm' : ((s.retire u).tile s.focus).mode ≠ 0 ∨ ((s.retire u).tile s.focus).chk = false := by
      rw [show (s.retire u).tile s.focus = u.retire (s.dcc (tileDie s.focus)) from s.cur_retire u]
      unfold Tile.mode Tile.chk
      rw [show (u.retire (s.dcc (tileDie s.focus))).regionState = s.cur.regionState from region]
      exact calm
    rw [State.stallCount_unchecked calm'] at issue
    refine ⟨_, issue, s.retire_wordEnds pc, s.retire_noRegs hg hf hq hd hfpc, ?_, ?_⟩
    · rw [s.cur_retire, Tile.nextNum_retire, num]
    · rw [s.cur_retire, Tile.getQ_retire, queue]
  · obtain ⟨l, issue⟩ := issue_skips (check := check) (g := g) (c := c) (x := x) (y := y) ha hs
    obtain ⟨pc, ⟨hg, hf, hq, hd, hfpc⟩, num, queue⟩ := s.cur.bumpNum_only (Queue.slotOf kind) l
    refine ⟨_, issue, s.retire_wordEnds pc, s.retire_noRegs hg hf hq hd hfpc, ?_, ?_⟩
    · rw [s.cur_retire, Tile.nextNum_retire]
      exact num
    · rw [s.cur_retire, Tile.getQ_retire]
      exact queue

/-- An odd pair is refused, and a full queue holds the word. -/
theorem issueWords_hold : issueHolds := by
  intro i s kind a g c x y form
  obtain ⟨check, runs, accepts⟩ := issues_of_issueForm form
  dsimp only
  rw [runs, queueOf_eq]
  refine ⟨fun hp ha => exec_issue_odd hp ha, fun ha hs ok full pfx => ?_⟩
  obtain ⟨body, hc⟩ := accepts s _ _ ok
  obtain ⟨w, cur, on⟩ := State.cur_stallIssue pfx (.queue (Queue.slotOf kind))
  refine ⟨_, w, issue_waits ha rfl hs hc full, ?_⟩
  rw [cur]
  exact ⟨rfl, on, rfl, by cases Queue.slotOf kind <;> rfl, fun _ => rfl, fun _ => rfl, rfl, fun _ => rfl, rfl⟩

/-- Settles O21: every engine word is the one issue under its own check, which the parameters of its entry pass. -/
theorem issueWords : Obligations.IssueWords := ⟨issueWords_queue, issueWords_hold⟩

end Sys2Proof.Machine
end

section
/-! SUPPORT. Lane-wise micro-orders: every operand read first, the masked lanes written, the flags added (R65, R98, R100, R126, R370). -/

namespace Sys2Proof.Machine

variable {s : State} {v : VsRun} {i : Instr} {d a : BitVec 8} {rd : List MOp} {ls : List Nat} {f : Nat → FRes}

/-! ## Lanes of an operand (R96, R98) -/

/-- Two lanes of an operand are two elements of its register. -/
theorem mKey_inj (reg dir idx : Nat) {l m : Nat} (h : mKey reg dir idx l = mKey reg dir idx m) :
    l = m := by
  match dir, h with
  | 0, h =>
    have h : reg * 4096 + idx * 64 + l = reg * 4096 + idx * 64 + m := h
    omega
  | 1, h =>
    have h : reg * 4096 + l * 64 + idx = reg * 4096 + m * 64 + idx := h
    omega
  | 2, h =>
    have h : reg * 4096 + l * 64 + (l + idx) % 64 = reg * 4096 + m * 64 + (m + idx) % 64 := h
    omega
  | n + 3, h =>
    have h : reg * 4096 + l * 64 + (idx + 64 - l) % 64 = reg * 4096 + m * 64 + (idx + 64 - m) % 64 := h
    omega

theorem Tile.getD_mRead (t : Tile) (r : MRef) {l : Nat} (h : l < 64) : (t.mRead r).getD l {} = t.mGet r l := by
  simp [Tile.mRead, List.getD_eq_getElem?_getD, h]

/-- Lanes written with their elements: each holds its own, and nothing else changes. -/
theorem Tile.mWrite_lanes (t : Tile) (r : MRef) (e : Nat → VElem) (ls : List Nat) :
    LanesSet t (t.mWrite r (ls.map fun l => (l, e l))) r ls e := by
  induction ls generalizing t with
  | nil => exact ⟨nofun, fun _ _ => rfl⟩
  | cons x ls ih =>
    obtain ⟨at_, off⟩ := ih (t.mPut r x (e x))
    have put (n : Nat) : Tab.get ({} : VElem) (t.mPut r x (e x)).m n = if n = mKey r.reg r.dir r.idx x then e x else Tab.get {} t.m n :=
      Tab.get_set _ _ _ _ _
    refine ⟨fun l hl => ?_, fun n hn => ?_⟩
    · by_cases later : l ∈ ls
      · exact at_ l later
      · have here : l = x := (List.mem_cons.1 hl).resolve_right later
        subst here
        refine (off _ fun m hm hk => ?_).trans ((put _).trans (if_pos rfl))
        exact later (mKey_inj _ _ _ hk ▸ hm)
    · refine (off n fun l hl => hn l (List.mem_cons_of_mem x hl)).trans ((put n).trans (if_neg fun h => ?_))
      exact hn x List.mem_cons_self h.symm

theorem Tile.mWrite_only (t : Tile) (r : MRef) (ws : List (Nat × VElem)) : t.mWrite r ws = { t with m := (t.mWrite r ws).m } := by
  unfold Tile.mWrite
  induction ws generalizing t with
  | nil => rfl
  | cons w ws ih =>
    rw [List.foldl_cons, ih]
    rfl

theorem Tile.stepLanes_lt (t : Tile) (v : VsRun) {l : Nat} (h : l ∈ t.stepLanes v) : l < 64 := by
  unfold Tile.stepLanes Tile.lanes at h
  split at h
  · exact List.mem_range.1 h
  · exact List.mem_range.1 (List.mem_filter.1 h).1

/-! ## A step's end (R69 to R72) -/

/-- The table goes on where it does not end a pass with a loop level open. -/
theorem VsRun.goTo_next (v : VsRun) (fl : Nat) (h : v.upc + 1 < v.steps ∨ v.levels = []) :
    ∃ w, v.goTo (v.upc + 1) v.levels fl = some w ∧ w.flags = v.flags ||| fl ∧ w.levels = v.levels ∧ w.moved = true
      ∧ (if v.upc + 1 < v.steps then w.upc = v.upc + 1 ∧ w.pass = v.pass else w.upc = 0 ∧ w.pass = v.pass + 1) := by
  unfold VsRun.goTo
  dsimp only
  by_cases hu : v.upc + 1 < v.steps
  · exact ⟨_, if_pos hu, rfl, rfl, rfl, by rw [if_pos hu]; exact ⟨rfl, rfl⟩⟩
  · have hl := h.resolve_left hu
    refine ⟨_, (if_neg hu).trans (if_pos (by rw [hl]; rfl)), rfl, rfl, rfl, by rw [if_neg hu]; exact ⟨rfl, rfl⟩⟩

/-! ## The form of a lane-wise micro-order -/

/-- The micro-order checks its footprint and puts f into the lanes ls of operand d. -/
def Lanewise (i : Instr) (s : State) (v : VsRun) (d : BitVec 8) (rd : List MOp) (ls : List Nat) (f : Nat → FRes) : Prop :=
  ∃ R : Tile → VsRun → List (Nat × FRes), exec i s = s.microM rd [mop d] (fun t v => s.putLanes t v (mop d) (R t v))
    ∧ R s.cur v = ls.map fun l => (l, f l)

theorem Lanewise.outside (h : Lanewise i s v d rd ls f) (hv : s.cur.vs = some v) (hf : (rd.all v.mayRead && v.mayWrite (mop d)) = false) :
    exec i s = .next (s.vsTrap s.focus v { cls := Cls.illegalOp } 0) := by
  obtain ⟨R, runs, -⟩ := h
  rw [runs]
  unfold State.microM State.micro
  rw [hv]
  dsimp only
  rw [if_neg (by simpa using hf)]
  rfl

theorem Lanewise.sets (h : Lanewise i s v d rd ls f) (hv : s.cur.vs = some v) (hf : (rd.all v.mayRead && v.mayWrite (mop d)) = true)
    (hl : v.upc + 1 < v.steps ∨ v.levels = []) (calm : laneTrap v.cmd.fpc (laneFlags v.cmd.fpc (ls.map fun l => (l, f l))) = none) :
    ∃ t, exec i s = .next t ∧ SetsLanes s t v d ls f := by
  obtain ⟨R, runs, form⟩ := h
  obtain ⟨w, goes, flags, levels, moved, upc⟩ := v.goTo_next (orFlags (laneFlags v.cmd.fpc (ls.map fun l => (l, f l)))) hl
  generalize hb : s.cur.mWrite (s.cur.mref v (mop d)) (ls.map fun l => (l, (f l).elem)) = b
  have set : LanesSet s.cur b (s.cur.mref v (mop d)) ls fun l => (f l).elem := by
    rw [← hb]
    exact Tile.mWrite_lanes _ _ _ _
  have only : b = { s.cur with m := b.m } := by
    rw [← hb]
    exact Tile.mWrite_only _ _ _
  have ends : exec i s = .next ((s.setTile s.focus b).modTile s.focus fun t => { t with vs := some w }) := by
    have put : s.putLanes s.cur v (mop d) (ls.map fun l => (l, f l))
        = .go (s.setTile s.focus b) (orFlags (laneFlags v.cmd.fpc (ls.map fun l => (l, f l)))) := by
      unfold State.putLanes
      dsimp only
      rw [calm, ← hb, List.map_map]
      rfl
    rw [runs]
    unfold State.microM State.micro
    rw [hv]
    dsimp only
    rw [if_pos (by simpa using hf), form, put]
    unfold State.vsEnd
    dsimp only
    rw [goes]
  have cur : State.cur ((s.setTile s.focus b).modTile s.focus fun t => { t with vs := some w }) = { b with vs := some w } :=
    (State.cur_modTile (s.setTile s.focus b) _).trans (congrArg (fun t : Tile => { t with vs := some w }) (s.cur_setTile b))
  refine ⟨_, ends, ⟨rfl, fun k hk => ?_, ?_, ?_, ?_⟩, ?_, ?_, fun _ => rfl⟩
  · rw [State.tile_modTile, if_neg hk, State.tile_setTile, if_neg hk]
  · rw [cur]
    exact ⟨w, rfl, flags, levels, moved, upc⟩
  · rw [cur, only]
    exact ⟨fun _ => rfl, fun _ => rfl, rfl, fun _ => rfl, rfl⟩
  · rw [cur, only]
  · rw [cur]
    exact set
  · rw [cur, only]

/-! ## The shared shapes -/

/-- The element of a second operand: an m operand's lane, or the z register. -/
def Tile.vElem (t : Tile) (v : VsRun) (y : VSrc) (l : Nat) : VElem :=
  match y with
  | .m o => t.mGet (t.mref v o) l
  | .z n => t.zGet n

theorem Tile.getD_vread (t : Tile) (v : VsRun) (y : VSrc) {l : Nat} (h : l < 64) : (t.vread v y).getD l {} = t.vElem v y l := by
  cases y with
  | m o => exact t.getD_mRead _ h
  | z n =>
    show (List.replicate 64 (t.zGet n)).getD l {} = t.zGet n
    rw [List.getD_eq_getElem?_getD, List.getElem?_replicate_of_lt h]
    rfl

/-- The two-operand shape: f of a's element, the second operand's and d's own. -/
theorem lanes2_lanewise {y : VSrc} {old : Bool} {F : RM → VElem → VElem → VElem → FRes} (runs : exec i s = s.lanes2 d a y old F) :
    Lanewise i s v d (mop a :: (y.ops ++ if old then [mop d] else [])) (s.cur.stepLanes v)
      fun l => F (fpcRm v.cmd.fpc) (s.cur.mGet (s.cur.mref v (mop a)) l) (s.cur.vElem v y l) (s.cur.mGet (s.cur.mref v (mop d)) l) := by
  refine ⟨_, runs, List.map_congr_left fun l hl => ?_⟩
  have lt := s.cur.stepLanes_lt v hl
  rw [Tile.getD_mRead _ _ lt, Tile.getD_mRead _ _ lt, Tile.getD_vread _ _ _ lt]

/-- The one-operand shape. -/
theorem lanes1_lanewise {F : RM → VElem → FRes} (runs : exec i s = s.lanes1 d a F) :
    Lanewise i s v d [mop a] (s.cur.stepLanes v) fun l => F (fpcRm v.cmd.fpc) (s.cur.mGet (s.cur.mref v (mop a)) l) := by
  refine ⟨_, runs, List.map_congr_left fun l hl => ?_⟩
  rw [Tile.getD_mRead _ _ (s.cur.stepLanes_lt v hl)]

end Sys2Proof.Machine
end

section
/-! SUPPORT. The integer operations of the vector sequencer as 32-bit arithmetic (R379). -/

namespace Sys2Proof.Machine

theorem wrapN_eq_ofInt (n : Int) : wrapN n 32 = (BitVec.ofInt 32 n).toNat := (BitVec.toNat_ofInt ..).symm

theorem wrapN_add (p q : W32) : wrapN (p.toInt + q.toInt) 32 = (p + q).toNat := by
  rw [wrapN_eq_ofInt, BitVec.ofInt_add, BitVec.ofInt_toInt, BitVec.ofInt_toInt]
theorem wrapN_sub (p q : W32) : wrapN (p.toInt - q.toInt) 32 = (p - q).toNat := by
  rw [wrapN_eq_ofInt, Int.sub_eq_add_neg, BitVec.ofInt_add, BitVec.ofInt_neg, BitVec.ofInt_toInt, BitVec.ofInt_toInt, ← BitVec.sub_eq_add_neg]
theorem wrapN_mul (p q : W32) : wrapN (p.toInt * q.toInt) 32 = (p * q).toNat := by
  rw [wrapN_eq_ofInt, BitVec.ofInt_mul, BitVec.ofInt_toInt, BitVec.ofInt_toInt]

theorem toNat_max (p q : W32) : (if q.toInt ≤ p.toInt then p else q).toNat = (BitVec.ofInt 32 (max p.toInt q.toInt)).toNat := by
  rw [Int.max_def]
  by_cases h : q.toInt ≤ p.toInt
  · rw [if_pos h]
    split
    · rw [BitVec.ofInt_toInt, BitVec.eq_of_toInt_eq (show p.toInt = q.toInt by omega)]
    · rw [BitVec.ofInt_toInt]
  · rw [if_neg h, if_pos (by omega), BitVec.ofInt_toInt]
theorem toNat_min (p q : W32) : (if p.toInt ≤ q.toInt then p else q).toNat = (BitVec.ofInt 32 (min p.toInt q.toInt)).toNat := by
  rw [Int.min_def]
  split <;> rw [BitVec.ofInt_toInt]

theorem toNat_maxN (p q : W32) : (if q.toNat ≤ p.toNat then p else q).toNat = (BitVec.ofNat 32 (max p.toNat q.toNat)).toNat := by
  by_cases h : q.toNat ≤ p.toNat
  · rw [if_pos h, Nat.max_eq_left h, BitVec.ofNat_toNat, BitVec.setWidth_eq]
  · rw [if_neg h, Nat.max_eq_right (by omega), BitVec.ofNat_toNat, BitVec.setWidth_eq]
theorem toNat_minN (p q : W32) : (if p.toNat ≤ q.toNat then p else q).toNat = (BitVec.ofNat 32 (min p.toNat q.toNat)).toNat := by
  by_cases h : p.toNat ≤ q.toNat
  · rw [if_pos h, Nat.min_eq_left h, BitVec.ofNat_toNat, BitVec.setWidth_eq]
  · rw [if_neg h, Nat.min_eq_right (by omega), BitVec.ofNat_toNat, BitVec.setWidth_eq]

theorem toNat_shl (p : W32) (n : Nat) : (p <<< n).toNat = (BitVec.ofNat 32 (p.toNat * 2 ^ n)).toNat := by
  rw [BitVec.toNat_shiftLeft, BitVec.toNat_ofNat, Nat.shiftLeft_eq]
theorem toNat_shr (p : W32) (n : Nat) : (p >>> n).toNat = (BitVec.ofNat 32 (p.toNat / 2 ^ n)).toNat := by
  rw [BitVec.toNat_ushiftRight, BitVec.toNat_ofNat, Nat.shiftRight_eq_div_pow,
    Nat.mod_eq_of_lt (Nat.lt_of_le_of_lt (Nat.div_le_self _ _) p.isLt)]
theorem toNat_sra (p : W32) (n : Nat) : (p.sshiftRight n).toNat = (BitVec.ofInt 32 (p.toInt / 2 ^ n)).toNat := by
  rw [← BitVec.ofInt_toInt (x := p.sshiftRight n), BitVec.toInt_sshiftRight, Int.shiftRight_eq_div_pow]
  rfl

theorem sat_add (p q : W32) :
    wrapN (sat32 (p.toInt + q.toInt)) 32 = (BitVec.ofInt 32 (max (-2 ^ 31) (min (2 ^ 31 - 1) (p.toInt + q.toInt)))).toNat := wrapN_eq_ofInt _
theorem sat_sub (p q : W32) :
    wrapN (sat32 (p.toInt - q.toInt)) 32 = (BitVec.ofInt 32 (max (-2 ^ 31) (min (2 ^ 31 - 1) (p.toInt - q.toInt)))).toNat := wrapN_eq_ofInt _

end Sys2Proof.Machine
end

section
/-! SUPPORT. Every lane-wise micro-order has the lane form of the statement (R370, R373, R375, R376, R379, R385, R390, R397, R399). -/

namespace Sys2Proof.Machine

variable {s : State} {v : VsRun} {i : Instr} {d a : BitVec 8}

/-- An integer micro-order: the operation on the two values, count 0 (R379). -/
theorem vint_lanewise {y : VSrc} {F : W32 → W32 → Nat} {G : W32 → W32 → W32} (runs : exec i s = s.vint d a y F)
    (hf : ∀ p q, F p q = (G p q).toNat) :
    Lanewise i s v d (mop a :: (y.ops ++ [])) (s.cur.stepLanes v) fun l =>
      plainRes (G (s.cur.mGet (s.cur.mref v (mop a)) l).val (s.cur.vElem v y l).val).toNat 0 := by
  have form := lanes2_lanewise (v := v) runs
  simp only [hf] at form
  exact form

theorem vConvert_some (k : Nat) (h : k < 11) (rm : RM) (p : VElem) (r r' : FRes) : (vConvert k rm p).getD r = (vConvert k rm p).getD r' := by
  have some_ : (vConvert k rm p).isSome = true := by
    match k, h with
    | 0, _ | 1, _ | 2, _ | 3, _ | 4, _ | 5, _ | 6, _ | 7, _ | 8, _ | 9, _ | 10, _ => rfl
  obtain ⟨x, hx⟩ := Option.isSome_iff_exists.1 some_
  rw [hx]
  rfl

theorem vcvt_lanewise (r : BitVec 3) (k : BitVec 4) (hr : r.toNat < 5) (hk : k.toNat < 11) :
    Lanewise (.vcvt d a r k) s v d [mop a] (s.cur.stepLanes v) fun l =>
      (vConvert k.toNat (cvtRm r.toNat (fpcRm v.cmd.fpc)) (s.cur.mGet (s.cur.mref v (mop a)) l)).getD (plainRes 0 0) := by
  have runs : exec (.vcvt d a r k) s = s.lanes1 d a fun rm p => (vConvert k.toNat (cvtRm r.toNat rm) p).getD { bits := 0, cnt := 0 } :=
    if_neg (by omega)
  have form := lanes1_lanewise (v := v) runs
  simp only [vConvert_some _ hk _ _ { bits := 0, cnt := 0 } (plainRes 0 0)] at form
  exact form

theorem vrot_lanewise (n : BitVec 6) : Lanewise (.vrot d a n) s v d [mop a] (s.cur.stepLanes v) fun l =>
    (s.cur.mGet (s.cur.mref v (mop a)) ((l + n.toNat) % 64)).res := by
  refine ⟨_, (show execVrot d a n s = _ from rfl), List.map_congr_left fun l _ => ?_⟩
  rw [Tile.getD_mRead _ _ (Nat.mod_lt _ (by decide))]

theorem vbcast_lanewise (z : BitVec 4) : Lanewise (.vbcast d z) s v d [] (s.cur.stepLanes v) fun _ => (s.cur.zGet z.toNat).res :=
  ⟨_, (rfl : execVbcast d z s = _), rfl⟩

theorem vsel_lanewise (b : BitVec 8) : Lanewise (.vsel d a b) s v d [mop a, mop b] (List.range 64) fun l =>
    (if bit (s.cur.kGet (s.cur.stepTag v v.upc % 4)) l then s.cur.mGet (s.cur.mref v (mop a)) l else s.cur.mGet (s.cur.mref v (mop b)) l).res := by
  refine ⟨_, (rfl : execVsel d a b s = _), List.map_congr_left fun l hl => ?_⟩
  have lt := List.mem_range.1 hl
  dsimp only
  split <;> rw [Tile.getD_mRead _ _ lt]

theorem vsigs_lanewise : Lanewise (.vsigs d a) s v d [mop a, mop d] (s.cur.stepLanes v) fun l =>
    plainRes (s.cur.mGet (s.cur.mref v (mop d)) l).val.toNat
      (storeCount (s.cur.mGet (s.cur.mref v (mop d)) l).val ((s.cur.mGet (s.cur.mref v (mop a)) l).val.toNat % 32)).toNat := by
  refine ⟨_, (rfl : execVsigs d a s = _), List.map_congr_left fun l hl => ?_⟩
  have lt := s.cur.stepLanes_lt v hl
  dsimp only
  rw [Tile.getD_mRead _ _ lt, Tile.getD_mRead _ _ lt]

/-- Every micro-order that has a lane form is lane-wise. -/
theorem lanewise_of_laneForm {rd : List MOp} {ls : List Nat} {f : Nat → FRes} (h : laneForm s v i = some (d, rd, ls, f)) :
    Lanewise i s v d rd ls f := by
  unfold laneForm at h
  dsimp only at h
  split at h
  · cases h; exact lanes2_lanewise (y := .m (mop _)) (old := false) (F := vAdd) (by rfl)
  · cases h; exact lanes2_lanewise (y := .z _) (old := false) (F := vAdd) (by rfl)
  · cases h; exact lanes2_lanewise (y := .m (mop _)) (old := false) (F := vSub) (by rfl)
  · cases h; exact lanes2_lanewise (y := .z _) (old := false) (F := vSub) (by rfl)
  · cases h; exact lanes2_lanewise (y := .m (mop _)) (old := false) (F := vMul) (by rfl)
  · cases h; exact lanes2_lanewise (y := .z _) (old := false) (F := vMul) (by rfl)
  · cases h; exact lanes2_lanewise (y := .m (mop _)) (old := false) (F := vDiv) (by rfl)
  · cases h; exact lanes2_lanewise (y := .z _) (old := false) (F := vDiv) (by rfl)
  · cases h; exact lanes2_lanewise (y := .m (mop _)) (old := false) (F := vMax) (by rfl)
  · cases h; exact lanes2_lanewise (y := .z _) (old := false) (F := vMax) (by rfl)
  · cases h; exact lanes2_lanewise (y := .m (mop _)) (old := false) (F := vMin) (by rfl)
  · cases h; exact lanes2_lanewise (y := .z _) (old := false) (F := vMin) (by rfl)
  · cases h; exact lanes2_lanewise (y := .m (mop _)) (old := false) (F := vSgn) (by rfl)
  · cases h; exact lanes2_lanewise (y := .z _) (old := false) (F := vSgn) (by rfl)
  · cases h; exact lanes2_lanewise (y := .m (mop _)) (old := true) (F := vFma) (by rfl)
  · cases h; exact lanes2_lanewise (y := .z _) (old := true) (F := vFma) (by rfl)
  · cases h; exact lanes2_lanewise (y := .m (mop _)) (old := true) (F := vFms) (by rfl)
  · cases h; exact lanes2_lanewise (y := .z _) (old := true) (F := vFms) (by rfl)
  · cases h; exact lanes1_lanewise (F := fun rm p => fpRcp .f32 rm p.fv p.c) (by rfl)
  · cases h; exact lanes1_lanewise (F := fun rm p => zeroCount .f32 p.c (fpRsq .f32 rm p.fv p.c)) (by rfl)
  · cases h; exact lanes1_lanewise (F := fun rm p => fpSqrt .f32 rm p.fv p.c) (by rfl)
  · cases h; exact lanes1_lanewise (F := fun rm p => fpExp2 .f32 rm p.fv p.c (Config.exp2ZeroCount p.val p.c).toNat) (by rfl)
  · cases h; exact lanes1_lanewise (F := fun rm p => fpLog2 .f32 rm p.fv p.c) (by rfl)
  · split at h
    · next ok => cases h; exact vcvt_lanewise _ _ ok.1 ok.2
    · cases h
  · cases h; exact vint_lanewise (y := .m (mop _)) (by rfl) wrapN_add
  · cases h; exact vint_lanewise (y := .z _) (by rfl) wrapN_add
  · cases h; exact vint_lanewise (y := .m (mop _)) (by rfl) wrapN_sub
  · cases h; exact vint_lanewise (y := .z _) (by rfl) wrapN_sub
  · cases h; exact vint_lanewise (y := .m (mop _)) (by rfl) wrapN_mul
  · cases h; exact vint_lanewise (y := .z _) (by rfl) wrapN_mul
  · cases h; exact vint_lanewise (y := .m (mop _)) (by rfl) toNat_max
  · cases h; exact vint_lanewise (y := .z _) (by rfl) toNat_max
  · cases h; exact vint_lanewise (y := .m (mop _)) (by rfl) toNat_min
  · cases h; exact vint_lanewise (y := .z _) (by rfl) toNat_min
  · cases h; exact vint_lanewise (y := .m (mop _)) (by rfl) toNat_maxN
  · cases h; exact vint_lanewise (y := .m (mop _)) (by rfl) toNat_minN
  · cases h; exact vint_lanewise (y := .m (mop _)) (by rfl) sat_add
  · cases h; exact vint_lanewise (y := .m (mop _)) (by rfl) sat_sub
  · cases h; exact vint_lanewise (y := .m (mop _)) (by rfl) fun p q => (rfl : (p &&& q).toNat = _)
  · cases h; exact vint_lanewise (y := .m (mop _)) (by rfl) fun p q => (rfl : (p ||| q).toNat = _)
  · cases h; exact vint_lanewise (y := .m (mop _)) (by rfl) fun p q => (rfl : (p ^^^ q).toNat = _)
  · cases h; exact vint_lanewise (y := .m (mop _)) (by rfl) fun p q => (rfl : (p &&& ~~~q).toNat = _)
  · cases h; exact vint_lanewise (y := .m (mop _)) (by rfl) fun p q => toNat_shl p (q.toNat % 32)
  · cases h; exact vint_lanewise (y := .m (mop _)) (by rfl) fun p q => toNat_shr p (q.toNat % 32)
  · cases h; exact vint_lanewise (y := .m (mop _)) (by rfl) fun p q => toNat_sra p (q.toNat % 32)
  · cases h; exact lanes1_lanewise (F := fun _ p => p.res) (by rfl)
  · cases h; exact lanes1_lanewise (F := fun _ p => plainRes p.c 0) (by rfl)
  · cases h; exact vrot_lanewise _
  · cases h; exact vbcast_lanewise _
  · cases h; exact vsel_lanewise _
  · cases h; exact vsigs_lanewise
  · cases h

/-- Settles O32: every lane-wise micro-order has one form, whose step within its footprint writes the masked lanes and goes on. -/
theorem vectorLanes : Obligations.VectorLanes := by
  intro i s v d rd ls f hv form
  have lanewise := lanewise_of_laneForm form
  exact ⟨fun foot ends calm => lanewise.sets hv foot ends calm, fun foot => lanewise.outside hv foot⟩

end Sys2Proof.Machine
end

section
/-! SUPPORT. The words of the encoder, field by field (R81, R96): a word is the or of its parts, each in its place, and a decoder's
fields are read back from it part by part. -/

namespace Sys2Proof

/-! ## Parts of a word -/

/-- The bits of `v` moved up to place `p` of a word. -/
def place (p : Nat) {k : Nat} (v : BitVec k) : W32 := v.setWidth 32 <<< p

theorem getLsbD_place (p : Nat) {k : Nat} (v : BitVec k) (i : Nat) :
    (place p v).getLsbD i = (decide (i < 32) && (decide (p ≤ i) && v.getLsbD (i - p))) := by
  rw [place, BitVec.getLsbD_shiftLeft, BitVec.getLsbD_setWidth]
  by_cases hi : i < 32
  · by_cases hp : p ≤ i
    · have : i - p < 32 := by omega
      simp [hi, hp, this]
    · simp [hp, Nat.lt_of_not_le hp]
  · simp [hi]

theorem ofNat_toNat_eq_place {k : Nat} (v : BitVec k) : BitVec.ofNat 32 v.toNat = place 0 v := by
  rw [place, BitVec.shiftLeft_zero, BitVec.ofNat_toNat]

theorem ofNat_toNat_mul_eq_place {k m : Nat} (v : BitVec k) (hm : 2 ^ m.log2 = m) :
    BitVec.ofNat 32 (v.toNat * m) = place m.log2 v := by
  apply BitVec.eq_of_toNat_eq
  rw [place, BitVec.toNat_shiftLeft, BitVec.toNat_setWidth, BitVec.toNat_ofNat, Nat.shiftLeft_eq, hm, Nat.mod_mul_mod]

theorem place_and_place {k j p q : Nat} (v : BitVec k) (u : BitVec j) (h : q + j ≤ p) : place p v &&& place q u = 0#32 := by
  apply BitVec.eq_of_getLsbD_eq
  intro i hi
  rw [BitVec.getLsbD_and, getLsbD_place, getLsbD_place, BitVec.getLsbD_zero]
  by_cases hp : p ≤ i
  · rw [BitVec.getLsbD_of_ge u (i - q) (by omega)]
    simp
  · simp [hp]

theorem lit_and_place {k p : Nat} (c : W32) (v : BitVec k) (h : c.extractLsb' p k = 0#k) : c &&& place p v = 0#32 := by
  apply BitVec.eq_of_getLsbD_eq
  intro i hi
  rw [BitVec.getLsbD_and, getLsbD_place, BitVec.getLsbD_zero]
  by_cases hp : p ≤ i ∧ i - p < k
  · have hc : c.getLsbD i = false := by
      have := congrArg (fun x => x.getLsbD (i - p)) h
      simpa [hp.2, Nat.add_sub_cancel' hp.1] using this
    simp [hc]
  · by_cases hq : p ≤ i
    · rw [BitVec.getLsbD_of_ge v (i - p) (by omega)]
      simp
    · simp [hq]

/-! ## Fields read from the parts -/

theorem extractLsb'_place_same {k p s : Nat} (v : BitVec k) (h : p = s ∧ s + k ≤ 32) : (place p v).extractLsb' s k = v := by
  apply BitVec.eq_of_getLsbD_eq
  intro i hi
  obtain ⟨rfl, hk⟩ := h
  rw [BitVec.getLsbD_extractLsb', getLsbD_place]
  have : p + i < 32 := by omega
  simp [hi, this]

theorem extractLsb'_place_apart {k p s j : Nat} (v : BitVec k) (h : p + k ≤ s ∨ s + j ≤ p) : (place p v).extractLsb' s j = 0#j := by
  apply BitVec.eq_of_getLsbD_eq
  intro i hi
  rw [BitVec.getLsbD_extractLsb', getLsbD_place, BitVec.getLsbD_zero]
  cases h with
  | inl above =>
    rw [BitVec.getLsbD_of_ge v (s + i - p) (by omega)]
    simp
  | inr below =>
    have : ¬ p ≤ s + i := by omega
    simp [this]

theorem extractLsb'_or_place_same {k p s : Nat} (x : W32) (v : BitVec k) (h : p = s ∧ s + k ≤ 32) :
    (x ||| place p v).extractLsb' s k = x.extractLsb' s k ||| v := by
  rw [BitVec.extractLsb'_or, extractLsb'_place_same v h]

theorem extractLsb'_or_place_apart {k p s j : Nat} (x : W32) (v : BitVec k) (h : p + k ≤ s ∨ s + j ≤ p) :
    (x ||| place p v).extractLsb' s j = x.extractLsb' s j := by
  rw [BitVec.extractLsb'_or, extractLsb'_place_apart v h, BitVec.or_zero]

theorem extractLsb'_or_and_eq_zero_iff {s j : Nat} (x y : W32) (m : BitVec j) :
    (x ||| y).extractLsb' s j &&& m = 0#j ↔ x.extractLsb' s j &&& m = 0#j ∧ y.extractLsb' s j &&& m = 0#j := by
  rw [BitVec.extractLsb'_or, BitVec.and_or_distrib_right, BitVec.or_eq_zero_iff]

/-- A field that lies across parts is not the value `m` where it has a bit that `m` has not. -/
theorem extractLsb'_or_eq_iff_false {s j : Nat} (x y : W32) (m : BitVec j) (h : ¬ (x ||| y).extractLsb' s j &&& ~~~m = 0#j) :
    (x ||| y).extractLsb' s j = m ↔ False :=
  iff_false_intro fun e => h (by rw [e]; simp)

/-- The opcode, above every operand: that of the word's constant. -/
theorem toNat_top_ofNat_add {s k c x : Nat} (hs : s + k = 32) (hc : c < 2 ^ 32) (h : c % 2 ^ s + x < 2 ^ s) :
    ((BitVec.ofNat 32 (c + x)).extractLsb' s k).toNat = c / 2 ^ s := by
  have hp : 2 ^ 32 = 2 ^ s * 2 ^ k := by rw [← Nat.pow_add, hs]
  have hdiv : (c + x) / 2 ^ s = c / 2 ^ s := by
    conv_lhs => rw [← Nat.div_add_mod c (2 ^ s), Nat.add_assoc]
    rw [Nat.mul_add_div (Nat.two_pow_pos s), Nat.div_eq_of_lt h, Nat.add_zero]
  have hlt : c / 2 ^ s < 2 ^ k := Nat.div_lt_of_lt_mul (hp ▸ hc)
  have hsum : c + x < 2 ^ 32 := by
    rw [hp, Nat.mul_comm, ← Nat.div_lt_iff_lt_mul (Nat.two_pow_pos s), hdiv]
    exact hlt
  rw [BitVec.extractLsb'_toNat, BitVec.toNat_ofNat, Nat.mod_eq_of_lt hsum, Nat.shiftRight_eq_div_pow, hdiv, Nat.mod_eq_of_lt hlt]

end Sys2Proof
end

section
/-! SUPPORT. Encoding and decoding of every instruction (R93, R101): the opcode of its word selects its row of the opcode map, and the
row reads its operands back. -/

namespace Sys2Proof

/-- What the decoder of its stream reads the word of an instruction as: BUFPH_CLOSE has the word of BUFPH_SWAP (R267). -/
def reading : Instr → Instr
  | .bufphClose a => .bufphSwap a
  | i => i

/-- Where the opcode map of its stream (R93, R101) has an instruction: the opcode, and the row. -/
def rowOf : Instr → Nat × (W32 → Option Instr)
  | .ill .. => (0x00, ct00)
  | .add .. | .sub .. | .mul .. | .mulHi .. | .mulHiN .. | .div .. | .divN .. | .rem .. | .remN .. | .and .. | .or .. |
    .xor .. | .shl .. | .shr .. | .sra .. | .min .. | .minN .. | .max .. | .maxN .. | .slt .. | .sltN .. | .clz .. |
    .popc .. | .sextB .. | .sextH .. | .sextW .. | .addSat .. | .subSat .. => (0x01, ct01)
  | .addImm .. => (0x02, ct02)
  | .lih .. => (0x03, ct03)
  | .pset .. => (0x04, ct04)
  | .plogAnd .. | .plogOr .. | .plogXor .. | .plogAndn .. | .plogNot .. => (0x05, ct05)
  | .ld .. => (0x10, ct10)
  | .st .. => (0x11, ct11)
  | .fld .. => (0x14, ct14)
  | .fldT .. => (0x15, ct15)
  | .fst .. => (0x16, ct16)
  | .fstT .. => (0x17, ct17)
  | .br .. => (0x18, ct18)
  | .bq .. => (0x19, ct19)
  | .jal .. => (0x1A, ct1A)
  | .jalr .. => (0x1B, ct1B)
  | .loop .. => (0x1C, ct1C)
  | .bsig .. => (0x1D, ct1D)
  | .grd .. => (0x1E, ct1E)
  | .pfx .. => (0x1F, ct1F)
  | .fadd .. | .fsub .. | .fmul .. | .fdiv .. | .fsqrt .. | .fmax .. | .fmin .. | .fsgn .. | .fsgnN .. | .fsgnX .. |
    .fmov .. | .fclass .. => (0x20, ct20)
  | .ffma .. => (0x21, ct21)
  | .fcmp .. => (0x22, ct22)
  | .fcvt .. => (0x23, ct23)
  | .fsigRead .. | .fsigSet .. => (0x24, ct24)
  | .fsigImm .. => (0x25, ct25)
  | .aadd .. => (0x30, ct30)
  | .alogAnd .. => (0x31, ct31)
  | .alogOr .. => (0x32, ct32)
  | .alogXor .. => (0x33, ct33)
  | .amax .. => (0x34, ct34)
  | .amaxN .. => (0x35, ct35)
  | .amin .. => (0x36, ct36)
  | .aminN .. => (0x37, ct37)
  | .amaxf .. => (0x38, ct38)
  | .aminf .. => (0x39, ct39)
  | .aaddf .. => (0x3A, ct3A)
  | .acas .. => (0x3B, ct3B)
  | .axch .. => (0x3C, ct3C)
  | .atq .. => (0x3D, ct3D)
  | .mark | .fence .. | .afence => (0x40, ct40)
  | .evsig .. | .evsigR .. => (0x41, ct41)
  | .evwait .. => (0x42, ct42)
  | .evpoll .. => (0x43, ct43)
  | .barinit .. => (0x44, ct44)
  | .baradd .. => (0x45, ct45)
  | .barwait .. => (0x46, ct46)
  | .toksig .. => (0x47, ct47)
  | .tokwait .. => (0x48, ct48)
  | .sqnew .. | .sqres .. | .sqcom .. | .sqlen .. | .sqfork .. | .sqdrop .. | .sqslot .. | .sqseal .. => (0x49, ct49)
  | .sqwait .. => (0x4A, ct4A)
  | .vrun .. => (0x50, ct50)
  | .vbase .. | .vbaseL .. => (0x51, ct51)
  | .vhalt .. => (0x52, ct52)
  | .vsend .. => (0x53, ct53)
  | .mldb .. => (0x54, ct54)
  | .mmul .. => (0x55, ct55)
  | .mdrain .. | .mdrainS .. => (0x56, ct56)
  | .mclr .. => (0x57, ct57)
  | .mbase .. => (0x58, ct58)
  | .mshr .. => (0x59, ct59)
  | .wdef .. => (0x5A, ct5A)
  | .tmap .. => (0x60, ct60)
  | .tload .. => (0x61, ct61)
  | .tstore .. => (0x62, ct62)
  | .tgath .. => (0x63, ct63)
  | .tscat .. => (0x64, ct64)
  | .xpat .. => (0x65, ct65)
  | .hexch .. => (0x66, ct66)
  | .layset .. | .laysetPass .. => (0x67, ct67)
  | .layget .. => (0x68, ct68)
  | .reshard .. => (0x69, ct69)
  | .cred .. => (0x6A, ct6A)
  | .cbcast .. => (0x6B, ct6B)
  | .discard .. => (0x70, ct70)
  | .pref .. => (0x71, ct71)
  | .spawn .. => (0x72, ct72)
  | .join .. => (0x73, ct73)
  | .exit | .exitD => (0x74, ct74)
  | .yield => (0x75, ct75)
  | .cancel .. => (0x76, ct76)
  | .cmpl .. => (0x77, ct77)
  | .region .. => (0x78, ct78)
  | .segend .. => (0x79, ct79)
  | .nop | .trap .. | .eret | .ctlr .. | .ctlw .. | .bufphSwap .. | .bufphClose .. | .tlbi .. | .cyc .. => (0x7F, ct7F)
  | .vnop => (0x01, vs01)
  | .vadd .. => (0x10, vs10)
  | .vaddZ .. => (0x11, vs11)
  | .vsub .. => (0x12, vs12)
  | .vsubZ .. => (0x13, vs13)
  | .vmul .. => (0x14, vs14)
  | .vmulZ .. => (0x15, vs15)
  | .vfma .. => (0x16, vs16)
  | .vfmaZ .. => (0x17, vs17)
  | .vfmaS .. => (0x18, vs18)
  | .vfmaSZ .. => (0x19, vs19)
  | .vdiv .. => (0x1A, vs1A)
  | .vdivZ .. => (0x1B, vs1B)
  | .vmax .. => (0x1C, vs1C)
  | .vmaxZ .. => (0x1D, vs1D)
  | .vmin .. => (0x1E, vs1E)
  | .vminZ .. => (0x1F, vs1F)
  | .vsgn .. => (0x20, vs20)
  | .vsgnZ .. => (0x21, vs21)
  | .vrcp .. => (0x28, vs28)
  | .vrsq .. => (0x29, vs29)
  | .vsqrt .. => (0x2A, vs2A)
  | .vexp2 .. => (0x2B, vs2B)
  | .vlog2 .. => (0x2C, vs2C)
  | .vcmpEq .. => (0x30, vs30)
  | .vcmpLt .. => (0x31, vs31)
  | .vcmpLe .. => (0x32, vs32)
  | .vcmpUn .. => (0x33, vs33)
  | .vcmpZEq .. => (0x34, vs34)
  | .vcmpZLt .. => (0x35, vs35)
  | .vcmpZLe .. => (0x36, vs36)
  | .vcmpZUn .. => (0x37, vs37)
  | .vsel .. => (0x38, vs38)
  | .viadd .. => (0x40, vs40)
  | .viaddZ .. => (0x41, vs41)
  | .visub .. => (0x42, vs42)
  | .visubZ .. => (0x43, vs43)
  | .vimul .. => (0x44, vs44)
  | .vimulZ .. => (0x45, vs45)
  | .vimax .. => (0x46, vs46)
  | .vimaxZ .. => (0x47, vs47)
  | .vimin .. => (0x48, vs48)
  | .viminZ .. => (0x49, vs49)
  | .vbitAnd .. => (0x4A, vs4A)
  | .vbitOr .. => (0x4B, vs4B)
  | .vbitXor .. => (0x4C, vs4C)
  | .vbitAndn .. => (0x4D, vs4D)
  | .vshfShl .. => (0x4E, vs4E)
  | .vshfShr .. => (0x4F, vs4F)
  | .vshfSra .. => (0x50, vs50)
  | .viaddSat .. => (0x51, vs51)
  | .visubSat .. => (0x52, vs52)
  | .vimaxN .. => (0x53, vs53)
  | .viminN .. => (0x54, vs54)
  | .vcvt .. => (0x58, vs58)
  | .vqnt .. => (0x59, vs59)
  | .vrsum .. => (0x60, vs60)
  | .vrmax .. => (0x61, vs61)
  | .vrmin .. => (0x62, vs62)
  | .vmov .. => (0x68, vs68)
  | .vrot .. => (0x69, vs69)
  | .vbcast .. => (0x6A, vs6A)
  | .vld .. => (0x70, vs70)
  | .vst .. => (0x71, vs71)
  | .vldT .. => (0x72, vs72)
  | .vstT .. => (0x73, vs73)
  | .vpop .. => (0x74, vs74)
  | .vpush .. => (0x75, vs75)
  | .vsacc .. | .vsaccN .. => (0x78, vs78)
  | .vaccr .. => (0x79, vs79)
  | .vsigq .. => (0x7C, vs7C)
  | .vsigs .. => (0x7D, vs7D)
  | .vsigr .. => (0x7E, vs7E)
  | .vloop .. => (0x80, vs80)
  | .vend => (0x81, vs81)
  | .vflag .. | .vflagNew .. => (0x82, vs82)
  | .vwait .. => (0x83, vs83)
  | .vidx .. | .vidxAdd .. => (0x84, vs84)
  | .vkset .. => (0x85, vs85)
  | .vzmovLane .. | .vzmovZ .. => (0x86, vs86)
  | _ => (0, fun _ => none)

/-! ## The opcode selects the row -/

/-- The operands lie below the opcode, whose value is that of the word's constant. -/
theorem ctOpcode_encode {i : Instr} {w : W32} (hm : microOrder i = false) (h : encode i = some w) :
    (w.extractLsb' 25 7).toNat = (rowOf i).1 := by
  cases i <;> cases hm <;> cases h
  case mark | afence | exit | exitD | yield | nop | eret => rfl
  case' ill x => rw [← Nat.zero_add x.toNat]
  all_goals
    simp (disch := omega) only [Nat.add_assoc, toNat_top_ofNat_add]
    rfl

theorem vsOpcode_encode {i : Instr} {w : W32} (hm : microOrder i = true) (h : encode i = some w) :
    (w.extractLsb' 24 8).toNat = (rowOf i).1 := by
  cases i <;> cases hm <;> cases h
  case vnop | vend => rfl
  all_goals
    simp (disch := omega) only [Nat.add_assoc, toNat_top_ofNat_add]
    rfl

theorem ctRow_of_opcode {i : Instr} {v : W32} {n : Nat} {r : W32 → Option Instr} (hm : microOrder i = false) (h : encode i = some v)
    (hr : rowOf i = (n, r)) (w : W32) (hw : (w.extractLsb' 25 7).toNat = n) : ctRow w = r w := by
  rw [ctRow, hw]
  cases i <;> cases hm <;> cases h <;> cases hr <;> rfl

theorem vsRow_of_opcode {i : Instr} {v : W32} {n : Nat} {r : W32 → Option Instr} (hm : microOrder i = true) (h : encode i = some v)
    (hr : rowOf i = (n, r)) (w : W32) (hw : (w.extractLsb' 24 8).toNat = n) : vsRow w = r w := by
  rw [vsRow, hw]
  cases i <;> cases hm <;> cases h <;> cases hr <;> rfl

/-! ## The row reads the operands -/

/-- A row's fields are places of the word, and its constant fields tell it from the rows tried before it: the one argument for every
instruction, once its word is written as the or of its parts. CTLW to BUFPH is no CTLW (R267). -/
theorem rowOf_encode {i : Instr} {w : W32} (hf : wellFormed i = true) (h : encode i = some w) : (rowOf i).2 w = some (reading i) := by
  cases i <;> cases h
  case mark | afence | exit | exitD | yield | nop | eret | vnop | vend => rfl
  case' ctlw a n => have hn : n ≠ 0x63#13 := of_decide_eq_true hf
  all_goals
    -- the word as the or of its parts
    simp (decide := true) only [ofNat_toNat_eq_place, ofNat_toNat_mul_eq_place, BitVec.ofNat_add,
      BitVec.add_eq_or_of_and_eq_zero, BitVec.and_or_distrib_right, place_and_place, lit_and_place, BitVec.or_zero]
    -- the row's fields, read from them
    unfold rowOf
    simp (decide := true) only [extractLsb'_or_place_apart, extractLsb'_or_place_same, extractLsb'_place_same,
      BitVec.reduceExtractLsb', BitVec.zero_or, extractLsb'_or_eq_iff_false,
      extractLsb'_or_and_eq_zero_iff, BitVec.reduceNot, BitVec.reduceAnd, BitVec.reduceEq, not_false_eq_true,
      and_true, and_false, false_and, ↓reduceIte, *,
        ct00, ct01, ct02, ct03, ct04, ct05, ct10, ct11, ct14, ct15, ct16, ct17, ct18, ct19, ct1A, ct1B, ct1C, ct1D,
        ct1E, ct1F, ct20, ct21, ct22, ct23, ct24, ct25, ct30, ct31, ct32, ct33, ct34, ct35, ct36, ct37, ct38, ct39,
        ct3A, ct3B, ct3C, ct3D, ct40, ct41, ct42, ct43, ct44, ct45, ct46, ct47, ct48, ct49, ct4A, ct50, ct51, ct52,
        ct53, ct54, ct55, ct56, ct57, ct58, ct59, ct5A, ct60, ct61, ct62, ct63, ct64, ct65, ct66, ct67, ct68, ct69,
        ct6A, ct6B, ct70, ct71, ct72, ct73, ct76, ct77, ct78, ct79, ct7F, vs10, vs11, vs12, vs13, vs14, vs15, vs16,
        vs17, vs18, vs19, vs1A, vs1B, vs1C, vs1D, vs1E, vs1F, vs20, vs21, vs28, vs29, vs2A, vs2B, vs2C, vs30, vs31,
        vs32, vs33, vs34, vs35, vs36, vs37, vs38, vs40, vs41, vs42, vs43, vs44, vs45, vs46, vs47, vs48, vs49, vs4A,
        vs4B, vs4C, vs4D, vs4E, vs4F, vs50, vs51, vs52, vs53, vs54, vs58, vs59, vs60, vs61, vs62, vs68, vs69, vs6A,
        vs70, vs71, vs72, vs73, vs74, vs75, vs78, vs79, vs7C, vs7D, vs7E, vs80, vs82, vs83, vs84, vs85, vs86]
    rfl

end Sys2Proof
end

section
/-! SUPPORT. The decoder of each stream on the word of an instruction of that stream (R93, R101). -/

namespace Sys2Proof

variable {i : Instr} {w : W32}

theorem decodeCt_of_ctRow (hr : ctRow w = some i) (hf : wellFormed i = true) : decodeCt w = .ok i := by
  rw [decodeCt, hr]
  exact if_pos hf

theorem decodeVs_of_vsRow (hr : vsRow w = some i) (hf : wellFormed i = true) : decodeVs w = .ok i := by
  rw [decodeVs, hr]
  exact if_pos hf

theorem wellFormed_reading (hf : wellFormed i = true) : wellFormed (reading i) = true := by
  unfold reading
  split
  · rfl
  · exact hf

theorem reading_of_microOrder (hm : microOrder i = true) : reading i = i := by
  unfold reading
  split
  · cases hm
  · rfl

theorem decodeCt_encode (hm : microOrder i = false) (hf : wellFormed i = true) (h : encode i = some w) :
    decodeCt w = .ok (reading i) := by
  have row : ctRow w = (rowOf i).2 w := ctRow_of_opcode hm h rfl w (ctOpcode_encode hm h)
  exact decodeCt_of_ctRow (row.trans (rowOf_encode hf h)) (wellFormed_reading hf)

theorem decodeVs_encode (hm : microOrder i = true) (hf : wellFormed i = true) (h : encode i = some w) : decodeVs w = .ok i := by
  have row : vsRow w = (rowOf i).2 w := vsRow_of_opcode hm h rfl w (vsOpcode_encode hm h)
  have operands := rowOf_encode hf h
  rw [reading_of_microOrder hm] at operands
  exact decodeVs_of_vsRow (row.trans operands) hf

end Sys2Proof
end

section
namespace Sys2Proof.Machine

/-- Settles O57: the opcode of the word selects the instruction's row, and the row reads its operands back; one word alone is that of
two instructions. -/
theorem wordsRoundTrip : Obligations.WordsRoundTrip := by
  unfold Obligations.WordsRoundTrip
  intro i w hf h
  exact ⟨fun hm => decodeVs_encode hm hf h, fun hm => decodeCt_encode hm hf h⟩

/-- Settles O56: each word is the encoder's of its instruction, whose decoding gives it back; the last two words are in a reserved
selector and short of a register that its bit must name. -/
theorem decodeWords : Obligations.DecodeWords := by
  unfold Obligations.DecodeWords
  refine ⟨decodeCt_encode (i := .add 3 1 2) rfl rfl rfl, decodeCt_encode (i := .addImm 5 4 0x1FFF) rfl rfl rfl,
    decodeCt_encode (i := .ld 7 8 0 0 3 1 2) rfl rfl rfl, decodeCt_encode (i := .br 1 2 3 0x3FF) rfl rfl rfl,
    decodeCt_encode (i := .bq 1 4 6) rfl rfl rfl, decodeCt_encode (i := .fadd 3 1 2) rfl rfl rfl,
    decodeCt_encode (i := .aadd 9 8 7 2 1 1 0) rfl rfl rfl, decodeCt_encode (i := .pfx 5) rfl rfl rfl,
    decodeCt_encode (i := .grd 3 1 4) rfl rfl rfl, decodeCt_encode (i := .mmul 10 4 5 1 1) rfl rfl rfl,
    decodeCt_encode (i := .trap 0x1234) rfl rfl rfl, decodeVs_encode (i := .vadd 1 2 3) rfl rfl rfl,
    decodeVs_encode (i := .vloop 9) rfl rfl rfl, ?_, ?_⟩
  · rfl
  · rfl

end Sys2Proof.Machine
end

section
/-! SUPPORT. Exceptions of the word in hand of a unit that runs with nothing to wait for (R84, R95, R252, R257, R367). -/

namespace Sys2Proof.Machine

variable {s t : State} {q : Nat}

theorem queues_of_not_ahead {a : Tile} (h : a.ahead = false) : a.vq = [] ∧ a.mq = [] ∧ a.cq = [] ∧ a.journal = [] := by
  simpa [Tile.ahead, Tile.queued, and_assoc] using h

theorem Tile.aloneAt_of_not_ahead {a : Tile} (h : a.ahead = false) (pos : Nat) : a.AloneAt pos := by
  obtain ⟨hv, hm, hc, -⟩ := queues_of_not_ahead h
  exact ⟨hv, hc, .inl hm⟩

theorem State.cutFree_of_cutReady (h : CutReady s) : s.CutFree := by
  obtain ⟨ha, -, hvs, hst, hw, hb, -⟩ := h
  obtain ⟨-, -, -, hj⟩ := queues_of_not_ahead ha
  refine ⟨hvs, hst, hj, ?_, hb⟩
  unfold Tile.awaiting
  rw [hw]

/-- A fault of the word in hand enters the handler at once, at the word or at its PFX (R252, R257). -/
theorem State.fault_entered (h : CutReady s) (hi : s.cur.inh = false) (hr : HandlerReady s q) {cls : Nat}
    (hc : cls ≠ Cls.uncorrectable) (faddr : W64) :
    Entered s (s.fault s.focus cls faddr) q cls faddr s.cur.instrPc s.cur.instrClause (nextAt s.cur s.cur.order) := by
  obtain ⟨ahead, running, -⟩ := id h
  obtain ⟨t, cut, entered, -⟩ := State.takeCut_entered (State.cutFree_of_cutReady h) (Tile.aloneAt_of_not_ahead ahead s.cur.order)
    { cls := cls, faddr := faddr, pos := s.cur.order } s.cur.instrPc s.cur.instrClause hr
  have raised : s.fault s.focus cls faddr = t := by
    rw [← cut]
    show s.raiseAt s.focus { cls := cls, faddr := faddr } s.cur.order s.cur.instrPc s.cur.instrClause = _
    rw [State.raiseAt_running running hi hc]
  rw [raised]
  exact entered

/-- The state once the word in hand has ended. -/
def State.pastWord (s : State) : State := s.modTile s.focus fun t => t.retire (s.dcc (tileDie s.focus))

theorem State.cur_pastWord (s : State) : s.pastWord.cur = s.cur.retire (s.dcc (tileDie s.focus)) := s.cur_modTile _

theorem Tile.sameUnit_retire (a : Tile) (dcc : Nat) : SameUnit a (a.retire dcc) := ⟨rfl, rfl, rfl, rfl, rfl, rfl, rfl, rfl, rfl⟩

theorem cutReady_pastWord (h : CutReady s) : CutReady s.pastWord := by
  obtain ⟨ha, hs, hvs, hst, -, hb, hq⟩ := h
  have ahead (a : Tile) (c : Nat) : (a.retire c).ahead = a.ahead := by simp [Tile.retire, Tile.ahead, Tile.queued]
  unfold CutReady
  rw [State.cur_pastWord, ahead]
  exact ⟨ha, by simpa [Tile.retire] using hs, by simpa [Tile.retire] using hvs, by simpa [Tile.retire] using hst, rfl, hb, hq⟩

/-- A fault that stands after the word enters the handler at the next word (R252, R367). -/
theorem State.raiseAfter_entered (h : CutReady s) (hi : s.cur.inh = false) (hr : HandlerReady s q) {cls : Nat}
    (hc : cls ≠ Cls.uncorrectable) (faddr : W64) :
    Entered s (s.raiseAfter s.focus { cls := cls, faddr := faddr }) q cls faddr (s.cur.pc + 4) (clauseStep s.cur.clause)
      (nextAt s.cur (s.cur.order + 1)) := by
  have same := s.cur.sameUnit_retire (s.dcc (tileDie s.focus))
  have past := cutReady_pastWord h
  obtain ⟨ahead, running, -⟩ := id past
  have inh : s.pastWord.cur.inh = false := by rw [s.cur_pastWord]; simpa [Tile.retire] using hi
  obtain ⟨t, cut, entered, -⟩ := State.takeCut_entered (State.cutFree_of_cutReady past)
    (Tile.aloneAt_of_not_ahead ahead (s.cur.order + 1)) { cls := cls, faddr := faddr, pos := s.cur.order + 1 } (s.cur.pc + 4)
    (clauseStep s.cur.clause) (State.handlerReady_withUnit same hr)
  have raised : s.raiseAfter s.focus { cls := cls, faddr := faddr } = t := by
    rw [← cut]
    show s.pastWord.raiseAt s.pastWord.focus _ s.pastWord.cur.order s.pastWord.cur.pc s.pastWord.cur.clause = _
    rw [State.raiseAt_running running inh hc, s.cur_pastWord]
    rfl
  rw [raised]
  rw [s.cur_pastWord] at entered
  exact State.entered_withUnit same entered

theorem exec_trap_now (c : BitVec 16) (h : s.cur.ahead = false) :
    exec (.trap c) s = .next (s.raiseAfter s.focus { cls := Cls.software, faddr := c.setWidth 64 }) := by
  show execTrap c s = _
  exact s.commitThen_now _ h

end Sys2Proof.Machine
end

section
namespace Sys2Proof.Machine

/-- Settles O30: an illegal word and a TLBI fault at the word in hand, TRAP at the next one, and nothing holds the cut. -/
theorem trapWords : Obligations.TrapWords := by
  unfold Obligations.TrapWords
  intro s q h hi hr
  refine ⟨fun x => ⟨_, rfl, ?_⟩, fun c => ⟨_, exec_trap_now c h.1, ?_⟩, fun a c hc => ⟨s.fault s.focus Cls.priv, ?_, ?_⟩⟩
  · exact State.fault_entered h hi hr (show Cls.illegalOp ≠ Cls.uncorrectable by decide) 0
  · exact State.raiseAfter_entered h hi hr (show Cls.software ≠ Cls.uncorrectable by decide) _
  · exact if_neg (by omega)
  · exact State.fault_entered h hi hr (show Cls.priv ≠ Cls.uncorrectable by decide) 0

end Sys2Proof.Machine
end

section
/-! SUPPORT. GRD and PFX (R84, R85, R87 to R89). -/

namespace Sys2Proof.Machine

variable {s : State}

/-- The tile past a GRD: its clause of c + 1 words runs where q XOR n is 1 (R87, R89). -/
def Tile.guard (t : Tile) (dcc : Nat) (q : BitVec 3) (n : BitVec 1) (c : BitVec 3) : Tile :=
  { t.retire dcc with clause := BitVec.ofNat 5 ((if (t.qReg q.toNat ^^ decide (n = 1)) then 16 else 0) + c.toNat + 1) }

theorem Tile.noRegs_guard (t : Tile) (dcc : Nat) (q : BitVec 3) (n : BitVec 1) (c : BitVec 3) : NoRegs t (t.guard dcc q n c) := by
  simp [NoRegs, GSame, FSame, QSame, DSame, Tile.guard, Tile.retire, Tile.gReg, Tile.fReg, Tile.dReg]

theorem exec_grd_opens {q : BitVec 3} {n : BitVec 1} {c : BitVec 3} {w : W32}
    (hw : s.fetchWord s.focus (s.cur.pc + 4 * BitVec.ofNat 64 (c.toNat + 1)) = .ok w) (hp : fld w 25 7 ≠ 0x1F) :
    exec (.grd q n c) s = .next (s.setTile s.focus (s.cur.guard (s.dcc (tileDie s.focus)) q n c)) := by
  show execGrd q n c s = _
  unfold execGrd w64
  dsimp only
  rw [hw]
  dsimp only
  rw [if_neg hp, Bool.bne_eq_xor]
  rfl

theorem exec_grd_prefix {q : BitVec 3} {n : BitVec 1} {c : BitVec 3} {w : W32}
    (hw : s.fetchWord s.focus (s.cur.pc + 4 * BitVec.ofNat 64 (c.toNat + 1)) = .ok w) (hp : fld w 25 7 = 0x1F) :
    exec (.grd q n c) s = .next (s.fault s.focus Cls.illegalOp) := by
  show execGrd q n c s = _
  unfold execGrd w64
  dsimp only
  rw [hw]
  exact if_pos hp

end Sys2Proof.Machine
end

section
namespace Sys2Proof.Machine

/-- Settles O28: a GRD ends and leaves its clause open, unless the clause's last word is a PFX; a PFX changes the tile alone. -/
theorem clauseWords : Obligations.ClauseWords := by
  unfold Obligations.ClauseWords
  intro s
  refine ⟨fun q n c w hw => ⟨fun hp => ⟨_, exec_grd_opens hw hp, ?_⟩, exec_grd_prefix hw⟩, fun i => ⟨_, rfl, onlyTile_setTile s _, s.cur_setTile _⟩⟩
  have cur := s.cur_setTile (s.cur.guard (s.dcc (tileDie s.focus)) q n c)
  refine ⟨⟨rfl, ?_, ?_, ?_, fun _ => rfl⟩, ?_, ?_⟩
  · rw [cur]; rfl
  · rw [cur]; rfl
  · rw [cur]; rfl
  · rw [cur]; exact s.cur.noRegs_guard _ q n c
  · rw [cur]; rfl

end Sys2Proof.Machine
end

section
/-! SUPPORT. Values that a format holds, and their rounding (R117, R124). -/

namespace Sys2Proof.Machine

/-- The finite values of a format with their patterns: k counts the steps of the exponent above the subnormals' own, and
the leading bit is present wherever k is not 0 (R117). -/
structure Fmt.Holds (f : Fmt) (v : Nat) (s : Bool) (m : Nat) (e : Int) (k : Nat) : Prop where
  exp : e = f.emin - f.fb + k
  bits : v = f.zero s + (m + k * 2 ^ f.fb)
  lt : m < 2 ^ (f.fb + 1)
  normal : k ≠ 0 → 2 ^ f.fb ≤ m
  range : k < 2 * f.bias

variable {f : Fmt} {v m k : Nat} {s : Bool} {e : Int}

theorem Fmt.two_bias_eq (hb : 1 < f.eb) : 2 * f.bias = f.expOnes - 1 ∧ 0 < f.bias := by
  obtain ⟨n, hn⟩ := Nat.exists_eq_add_of_lt hb
  have hpos : 0 < 2 ^ n := Nat.two_pow_pos n
  have h1 : 2 ^ (f.eb - 1) = 2 * 2 ^ n := by rw [← pow_succ', show f.eb - 1 = n + 1 by omega]
  have h2 : 2 ^ f.eb = 2 * 2 ^ (f.eb - 1) := by rw [← pow_succ', show f.eb - 1 + 1 = f.eb by omega]
  unfold Fmt.bias Fmt.expOnes
  omega

/-- A pattern is its sign bit, its exponent field and its fraction. -/
theorem Fmt.eq_fields (hv : v < 2 * f.signBit) :
    v = f.zero (decide (v / f.signBit % 2 = 1)) + (v / 2 ^ f.fb % 2 ^ f.eb * 2 ^ f.fb + v % 2 ^ f.fb) := by
  have hsign : f.signBit = 2 ^ f.fb * 2 ^ f.eb := by rw [Fmt.signBit, Nat.add_comm, pow_add]
  have htop : v / f.signBit < 2 := Nat.div_lt_of_lt_mul (by omega)
  have hzero : f.zero (decide (v / f.signBit % 2 = 1)) = f.signBit * (v / f.signBit) := by
    rw [Nat.mod_eq_of_lt htop]
    rcases Nat.lt_succ_iff_lt_or_eq.mp htop with h | h
    · simp [Fmt.zero, Nat.lt_one_iff.mp h]
    · simp [Fmt.zero, h]
  have hlow : v % f.signBit = v % 2 ^ f.fb + 2 ^ f.fb * (v / 2 ^ f.fb % 2 ^ f.eb) := by rw [hsign, Nat.mod_mul]
  have := Nat.div_add_mod v f.signBit
  rw [hzero, Nat.mul_comm _ (2 ^ f.fb)]
  omega

/-- What unpack gives as finite, the format holds. -/
theorem Fmt.holds_of_unpack (hb : 1 < f.eb) (hv : v < 2 * f.signBit) (h : unpack f v = .fin s m e) : ∃ k, f.Holds v s m e k := by
  have hbits := f.eq_fields hv
  have hfrac : v % 2 ^ f.fb < 2 ^ f.fb := Nat.mod_lt _ (Nat.two_pow_pos _)
  have hexp : v / 2 ^ f.fb % 2 ^ f.eb < 2 ^ f.eb := Nat.mod_lt _ (Nat.two_pow_pos _)
  have htwo : 2 ^ (f.fb + 1) = 2 * 2 ^ f.fb := pow_succ' 2 f.fb
  obtain ⟨hbias, hpos⟩ := f.two_bias_eq hb
  unfold unpack at h
  generalize v / 2 ^ f.fb % 2 ^ f.eb = E at *
  dsimp only at h
  split at h
  · split at h <;> cases h
  next hE =>
    split at h <;> cases h
    next hE0 => exact ⟨0, by simp, by simpa [hE0] using hbits, by omega, by simp, by omega⟩
    next hE0 =>
      obtain ⟨k, rfl⟩ := Nat.exists_eq_succ_of_ne_zero hE0
      refine ⟨k, ?_, ?_, by omega, by omega, ?_⟩
      · simp [Fmt.emin]; omega
      · rw [Nat.succ_mul] at hbits; omega
      · unfold Fmt.expOnes at *; omega

@[simp] theorem scaleQ_zero (a b : Nat) : scaleQ a b 0 = (a, b) := by simp [scaleQ]

/-- A fraction with no remainder is not rounded away, in any mode. -/
@[simp] theorem roundsUp_zero (rm : RM) (i : Nat) : roundsUp rm s i 0 1 = false := by
  cases rm <;> simp [roundsUp]

theorem scaleQ_neg (a b n : Nat) : scaleQ a b (-(n : Int)) = (a, b * 2 ^ n) := by
  cases n with
  | zero => simp
  | succ n => rw [scaleQ, if_neg (by omega), neg_neg, Int.toNat_natCast]

theorem log2Q_one (hm : m ≠ 0) : log2Q m 1 = (Nat.log2 m : Int) := by
  have hle : ¬ m < 1 * 2 ^ m.log2 := by rw [one_mul]; exact not_lt.mpr (Nat.log2_self_le hm)
  simp only [log2Q, show Nat.log2 1 = 0 from rfl, Nat.cast_zero, sub_zero, scaleQ_neg, if_neg hle]

namespace Fmt.Holds

variable (h : f.Holds v s m e k)
include h

theorem log2_le (hm : m ≠ 0) : Nat.log2 m ≤ f.fb := Nat.lt_succ_iff.mp ((Nat.log2_lt hm).mpr h.lt)

theorem log2_eq (hm : m ≠ 0) (hk : k ≠ 0) : Nat.log2 m = f.fb :=
  le_antisymm (h.log2_le hm) ((Nat.le_log2 hm).mpr (h.normal hk))

/-- The exponent at which a value is rounded is the one it is held at. -/
theorem quantum (hm : m ≠ 0) : max (Nat.log2 m + e - f.fb) (f.emin - f.fb) = e := by
  have := h.log2_le hm
  have := h.log2_eq hm
  have := h.exp
  omega

theorem expOf_le (hm : m ≠ 0) : expOf m e ≤ f.bias := by
  have := h.log2_le hm
  have := h.range
  have := h.exp
  unfold expOf
  unfold Fmt.emin at *
  omega

/-- Rounding a value that the format holds gives its own pattern, no flag and no loss, in every mode. -/
theorem roundQ_eq (rm : RM) (hm : m ≠ 0) : roundQ f rm s m 1 e = { bits := v, flags := 0, rounded := false } := by
  have hex := h.exp
  unfold roundQ
  simp only [log2Q_one hm, h.quantum hm, sub_self, scaleQ_zero, Nat.div_one, Nat.mod_one, roundsUp_zero]
  have hov : ¬ (f.bias : Int) < expOf m e := not_lt.mpr (h.expOf_le hm)
  have hk : (e - (f.emin - f.fb)).toNat = k := by omega
  simp [hov, hk, h.bits, Fmt.zero]

end Fmt.Holds

end Sys2Proof.Machine
end

section
/-! SUPPORT. Sums with NaNs and infinities (R125). -/

namespace Sys2Proof.Machine

variable {f : Fmt} {rm : RM} {a b : FV} {ca cb : Nat}

/-- A NaN operand decides a sum: the canonical NaN, with invalid where an operand signals (R118, R125). -/
theorem fpAdd_nan (h : a.isNan ∨ b.isNan) : fpAdd f rm a ca b cb = .qnan f (anySNan a b) := by
  cases a with
  | nan => rfl
  | inf | fin =>
    cases b with
    | nan => rfl
    | inf | fin => simp [FV.isNan] at h

theorem fpAdd_inf_opposite (s : Bool) : fpAdd f rm (.inf s) ca (.inf (!s)) cb = .qnan f Flg.invalid :=
  if_neg (by simp)

/-- An infinity on the left is the sum, where the other operand is neither a NaN nor the opposite infinity (R125). -/
theorem fpAdd_inf_left {s : Bool} (hb : b.isNan = false) (hne : b ≠ .inf (!s)) :
    fpAdd f rm (.inf s) ca b cb = { bits := f.inf s, cnt := 0, sig := false } := by
  cases b with
  | nan => cases hb
  | fin => rfl
  | inf s' =>
    have hs : s' = s := by simpa using hne
    exact if_pos hs.symm

theorem fpAdd_inf_right {s : Bool} (ha : a.isNan = false) (hne : a ≠ .inf (!s)) :
    fpAdd f rm a ca (.inf s) cb = { bits := f.inf s, cnt := 0, sig := false } := by
  cases a with
  | nan => cases ha
  | fin => rfl
  | inf s' =>
    have hs : s' = s := by simpa using hne
    exact hs ▸ if_pos rfl

end Sys2Proof.Machine
end

section
namespace Sys2Proof.Machine

/-- Rounding a value unpacked from a word of f32 gives the word back, in every mode (R117, R124). -/
theorem roundingExact_holds : roundingExact := by
  intro v s m e rm h hm
  obtain ⟨k, hk⟩ := Fmt.holds_of_unpack (f := .f32) (by decide) v.isLt h
  exact hk.roundQ_eq rm hm

/-- R125: a NaN comes first, then opposite infinities, then the one infinity. -/
theorem sumOfSpecials_holds : sumOfSpecials := by
  intro rm a b ca cb
  refine ⟨fun h => ?_, fun s => ?_, fun s h ⟨ha, hb⟩ => ?_⟩
  · rw [fpAdd_nan h]
    exact ⟨rfl, rfl, by simp [FRes.qnan, anySNan]⟩
  · rw [fpAdd_inf_opposite]
    exact ⟨rfl, rfl⟩
  · obtain ⟨rfl, hne⟩ | ⟨rfl, hne⟩ := h
    · rw [fpAdd_inf_left (by simpa using hb) hne]
      exact ⟨rfl, rfl, rfl⟩
    · rw [fpAdd_inf_right (by simpa using ha) hne]
      exact ⟨rfl, rfl, rfl⟩

/-- Settles O8: a value that f32 holds is rounded at its own exponent, with nothing left over; and the sums with infinities and NaNs
are read off the cases of the addition. -/
theorem floatArithmetic : Obligations.FloatArithmetic := ⟨roundingExact_holds, sumOfSpecials_holds⟩

end Sys2Proof.Machine
end

section
/-! SUPPORT. The sums of an A row over the rows of a weight set (R141 to R143). -/

namespace Sys2Proof.Machine

theorem Tile.length_weightRow (t : Tile) (set r : Nat) : (t.weightRow set r).length = 256 := by
  have slice (lo : Nat) : (Tab.slice 0 t.b lo 256).length = 256 := by
    unfold Tab.slice
    dsimp only
    rw [List.length_map, List.length_range]
  unfold Tile.weightRow
  dsimp only
  split
  · rw [List.length_map, List.length_map, slice]
  · rw [List.length_map, List.length_map, slice]
  · rw [List.length_map, List.length_map, slice]
  · exact List.length_replicate

theorem map_range_getD {α : Type} {m : Nat} {l : List α} (h : l.length = m) (d : α) : (List.range m).map (fun i => l.getD i d) = l := by
  subst h
  refine List.ext_getElem (by rw [List.length_map, List.length_range]) fun i _ hi => ?_
  rw [List.getElem_map, List.getElem_range, List.getD_eq_getElem _ _ hi]

theorem zipIdx_map_range {α : Type} (f : Nat → α) (m : Nat) : ((List.range m).map f).zipIdx = (List.range m).map fun i => (f i, i) := by
  induction m with
  | zero => rfl
  | succ m ih => rw [List.range_succ, List.map_append, List.zipIdx_append, ih, List.map_append, List.length_map, List.length_range, Nat.zero_add]; rfl

/-- Rows of weights, each with its A element, are added to m sums; a zero A element adds nothing. -/
theorem foldl_products {m : Nat} (l : List (List Int × Int)) (h : ∀ p ∈ l, p.1.length = m) : ∀ g : Nat → Int,
    l.foldl (fun x p => if p.2 = 0 then x else (x.zip p.1).map fun q => q.1 + p.2 * q.2) ((List.range m).map g)
      = (List.range m).map fun n => g n + (l.map fun p => p.2 * p.1.getD n 0).sum := by
  induction l with
  | nil => exact fun g => List.map_congr_left fun n _ => (Int.add_zero _).symm
  | cons p l ih =>
    intro g
    have step : (if p.2 = 0 then (List.range m).map g else (((List.range m).map g).zip p.1).map fun q => q.1 + p.2 * q.2)
        = (List.range m).map fun n => g n + p.2 * p.1.getD n 0 := by
      split
      · next h0 => simp [h0]
      · conv_lhs => rw [← map_range_getD (h p List.mem_cons_self) 0, List.zip_map', List.map_map]
        rfl
    rw [List.foldl_cons, step, ih fun q hq => h q (List.mem_cons_of_mem _ hq)]
    exact List.map_congr_left fun n _ => by rw [List.map_cons, List.sum_cons, Int.add_assoc]

theorem rowSums_eq (ws : Nat → List Int) (h : ∀ r, (ws r).length = 256) (a : Nat → Int) (ka : Nat) :
    rowSums ((List.range ka).map ws) ((List.range ka).map a)
      = (List.range 256).map fun n => ((List.range ka).map fun r => a r * (ws r).getD n 0).sum := by
  have zero : List.replicate 256 (0 : Int) = (List.range 256).map fun _ => 0 := by rw [List.map_const', List.length_range]
  unfold rowSums
  rw [List.zip_map', zero, foldl_products]
  · exact List.map_congr_left fun n _ => by rw [Int.zero_add, List.map_map]; rfl
  · intro p hp
    obtain ⟨r, -, rfl⟩ := List.mem_map.1 hp
    exact h r

end Sys2Proof.Machine
end

section
/-! SUPPORT. The accumulators, element by element and row by row, and what the commit of a chunk leaves of them (R140, R143). -/

namespace Sys2Proof.Machine

variable {t u : Tile} {a b j r n m : Nat} {v : Int}

/-! ## One element, one row -/

theorem accKey_inj (hj : j < 32) (hr : r < 32) (hn : n < 256) (hm : m < 256) : accKey b r m = accKey a j n ↔ b = a ∧ r = j ∧ m = n := by
  unfold accKey
  omega

theorem Tile.accVal_setAcc (u : Tile) (a j n b r m : Nat) (v : Int) :
    (u.setAcc a j n v).accVal b r m = if accKey b r m = accKey a j n then (BitVec.ofInt 80 v).toInt else u.accVal b r m :=
  (congrArg BitVec.toInt (Tab.get_set 0 u.acc (accKey a j n) (accKey b r m) (BitVec.ofInt 80 v))).trans (apply_ite _ _ _ _)

@[simp] theorem Tile.row_setAcc (u : Tile) (a j n b r : Nat) (v : Int) : (u.setAcc a j n v).row b r = u.row b r := rfl

@[simp] theorem Tile.accVal_setRow (u : Tile) (a j b r n : Nat) (x : AccRow) : (u.setRow a j x).accVal b r n = u.accVal b r n := rfl

theorem Tile.row_setRow (hj : j < 32) (hr : r < 32) (u : Tile) (a b : Nat) (x : AccRow) :
    (u.setRow a j x).row b r = if b = a ∧ r = j then x else u.row b r := by
  have key : b * 32 + r = a * 32 + j ↔ b = a ∧ r = j := by omega
  rw [← if_congr key rfl rfl]
  exact Tab.get_set {} u.rows (a * 32 + j) (b * 32 + r) x

/-- A sum held between the bounds of an accumulator element (R143). -/
def heldSum (v : Int) : Int := max (-(2 ^ 79 - 1)) (min (2 ^ 79 - 1) v)

/-- The sum lies outside those bounds. -/
def sumOut (v : Int) : Bool := decide (v < -(2 ^ 79 - 1) ∨ 2 ^ 79 - 1 < v)

theorem eq_heldSum_iff (v : Int) : v = heldSum v ↔ sumOut v = false := by
  unfold heldSum sumOut
  rw [decide_eq_false_iff_not]
  omega

theorem toInt_heldSum (v : Int) : (BitVec.ofInt 80 (heldSum v)).toInt = heldSum v := by
  unfold heldSum
  exact BitVec.toInt_ofInt_eq_self (by omega) (by omega) (by omega)

/-- A tile of which no more than the accumulators differ. -/
def Tile.AccOnly (t u : Tile) : Prop := ∃ acc rows, u = { t with acc := acc, rows := rows }

theorem Tile.AccOnly.trans {x : Tile} : t.AccOnly u → u.AccOnly x → t.AccOnly x := by
  rintro ⟨_, _, rfl⟩ ⟨_, _, rfl⟩
  exact ⟨_, _, rfl⟩

/-! ## The sums of one row -/

/-- One sum is added to the element that tile `t` holds. -/
def Tile.addSum (t : Tile) (a j : Nat) (u : Tile) (q : Int × Nat) : Tile :=
  let x := t.accVal a j q.2 + q.1
  let u := u.setAcc a j q.2 (heldSum x)
  if x = heldSum x then u else u.setRow a j { u.row a j with ovf := true }

theorem Tile.addSum_only (t : Tile) (a j : Nat) (u : Tile) (q : Int × Nat) : u.AccOnly (t.addSum a j u q) := by
  unfold Tile.addSum
  dsimp only
  split <;> exact ⟨_, _, rfl⟩

theorem Tile.accVal_addSum (hj : j < 32) (hr : r < 32) (hn : n < 256) (hm : m < 256) :
    (t.addSum a j u (v, n)).accVal b r m = if b = a ∧ r = j ∧ m = n then heldSum (t.accVal a j n + v) else u.accVal b r m := by
  have set : (t.addSum a j u (v, n)).accVal b r m = (u.setAcc a j n (heldSum (t.accVal a j n + v))).accVal b r m := by
    unfold Tile.addSum
    dsimp only
    split <;> rfl
  rw [set, Tile.accVal_setAcc, if_congr (accKey_inj hj hr hn hm) rfl rfl, toInt_heldSum]

theorem Tile.row_addSum (hj : j < 32) (hr : r < 32) :
    (t.addSum a j u (v, n)).row b r
      = if b = a ∧ r = j then { u.row b r with ovf := (u.row b r).ovf || sumOut (t.accVal a j n + v) } else u.row b r := by
  unfold Tile.addSum
  dsimp only
  rw [if_congr (eq_heldSum_iff _) rfl rfl]
  cases out : sumOut (t.accVal a j n + v) with
  | false => rw [if_pos rfl, Bool.or_false, Tile.row_setAcc, ite_self]
  | true =>
    rw [if_neg nofun, Tile.row_setRow hj hr, Bool.or_true]
    split
    · next h => rw [h.1, h.2, Tile.row_setAcc]
    · rfl

/-- The first m sums of a row are added. -/
def Tile.addSums (t : Tile) (a j : Nat) (f : Nat → Int) (u : Tile) (m : Nat) : Tile :=
  (List.range m).foldl (fun u n => t.addSum a j u (f n, n)) u

theorem Tile.addSums_succ (t : Tile) (a j : Nat) (f : Nat → Int) (u : Tile) (m : Nat) :
    t.addSums a j f u (m + 1) = t.addSum a j (t.addSums a j f u m) (f m, m) := by
  unfold Tile.addSums
  rw [List.range_succ, List.foldl_append]
  rfl

theorem Tile.addSums_only (t : Tile) (a j : Nat) (f : Nat → Int) (u : Tile) (m : Nat) : u.AccOnly (t.addSums a j f u m) := by
  induction m with
  | zero => exact ⟨_, _, rfl⟩
  | succ m ih =>
    rw [Tile.addSums_succ]
    exact ih.trans (Tile.addSum_only ..)

theorem Tile.accVal_addSums (hj : j < 32) (hr : r < 32) (hn : n < 256) (f : Nat → Int) : ∀ m, m ≤ 256 →
    (t.addSums a j f u m).accVal b r n = if b = a ∧ r = j ∧ n < m then heldSum (t.accVal a j n + f n) else u.accVal b r n := by
  intro m
  induction m with
  | zero => exact fun _ => (if_neg fun h => Nat.not_lt_zero _ h.2.2).symm
  | succ m ih =>
    intro hm
    rw [Tile.addSums_succ, Tile.accVal_addSum hj hr (by omega) hn, ih (by omega)]
    by_cases h : b = a ∧ r = j
    · by_cases e : n = m
      · subst e
        rw [if_pos ⟨h.1, h.2, rfl⟩, if_pos ⟨h.1, h.2, Nat.lt_succ_self _⟩]
      · rw [if_neg fun x => e x.2.2]
        exact if_congr (by omega) rfl rfl
    · rw [if_neg fun x => h ⟨x.1, x.2.1⟩, if_neg fun x => h ⟨x.1, x.2.1⟩, if_neg fun x => h ⟨x.1, x.2.1⟩]

theorem Tile.row_addSums (hj : j < 32) (hr : r < 32) (f : Nat → Int) (m : Nat) :
    (t.addSums a j f u m).row b r = if b = a ∧ r = j then
        { u.row b r with ovf := (u.row b r).ovf || (List.range m).any fun n => sumOut (t.accVal a j n + f n) }
      else u.row b r := by
  induction m with
  | zero =>
    rw [List.range_zero, List.any_nil, Bool.or_false, ite_self]
    rfl
  | succ m ih =>
    rw [Tile.addSums_succ, Tile.row_addSum hj hr, ih, List.range_succ, List.any_append, List.any_cons, List.any_nil, Bool.or_false,
      ← Bool.or_assoc]
    split <;> rfl

/-! ## The rows of a chunk -/

/-- A row's sums are added, and its status takes INV and FLOOR. -/
def Tile.commitRow (t : Tile) (a j : Nat) (inv : Bool) (f : Nat → Int) (u : Tile) : Tile :=
  let u := t.addSums a j f u 256
  u.setRow a j { u.row a j with inv := (u.row a j).inv || inv, floor := min (u.row a j).floor (t.floorAt j) }

/-- What a row's status is after its sums have been added (R143). -/
def Tile.rowAfter (t : Tile) (a j : Nat) (inv : Bool) (f : Nat → Int) (x : AccRow) : AccRow :=
  { x with ovf := x.ovf || (List.range 256).any fun n => sumOut (t.accVal a j n + f n), inv := x.inv || inv, floor := min x.floor (t.floorAt j) }

theorem Tile.commitRow_only (t : Tile) (a j : Nat) (inv : Bool) (f : Nat → Int) (u : Tile) : u.AccOnly (t.commitRow a j inv f u) :=
  (t.addSums_only a j f u 256).trans ⟨_, _, rfl⟩

theorem Tile.accVal_commitRow (hj : j < 32) (hr : r < 32) (hn : n < 256) (inv : Bool) (f : Nat → Int) :
    (t.commitRow a j inv f u).accVal b r n = if b = a ∧ r = j then heldSum (t.accVal a j n + f n) else u.accVal b r n := by
  unfold Tile.commitRow
  rw [Tile.accVal_setRow, Tile.accVal_addSums hj hr hn f 256 (Nat.le_refl _)]
  exact if_congr (by omega) rfl rfl

theorem Tile.row_commitRow (hj : j < 32) (hr : r < 32) (inv : Bool) (f : Nat → Int) :
    (t.commitRow a j inv f u).row b r = if b = a ∧ r = j then t.rowAfter a j inv f (u.row b r) else u.row b r := by
  unfold Tile.commitRow
  dsimp only
  rw [Tile.row_setRow hj hr]
  split
  · next h => rw [h.1, h.2, Tile.row_addSums hj hj, if_pos ⟨rfl, rfl⟩]; rfl
  · next h => rw [Tile.row_addSums hj hr, if_neg h]

/-- The first m rows of a chunk are committed. -/
def Tile.commitRows (t : Tile) (a : Nat) (inv : Bool) (f : Nat → Nat → Int) (m : Nat) : Tile :=
  (List.range m).foldl (fun u j => t.commitRow a j inv (f j) u) t

theorem Tile.commitRows_succ (t : Tile) (a : Nat) (inv : Bool) (f : Nat → Nat → Int) (m : Nat) :
    t.commitRows a inv f (m + 1) = t.commitRow a m inv (f m) (t.commitRows a inv f m) := by
  unfold Tile.commitRows
  rw [List.range_succ, List.foldl_append]
  rfl

theorem Tile.commitRows_only (t : Tile) (a : Nat) (inv : Bool) (f : Nat → Nat → Int) (m : Nat) : t.AccOnly (t.commitRows a inv f m) := by
  induction m with
  | zero => exact ⟨_, _, rfl⟩
  | succ m ih =>
    rw [Tile.commitRows_succ]
    exact ih.trans (Tile.commitRow_only ..)

/-- Row r of accumulator `a` is among the first m + 1 where it is row m or among the first m. -/
theorem row_lt_succ_iff : b = a ∧ r < m + 1 ↔ (b = a ∧ r = m) ∨ b = a ∧ r < m := by omega

theorem Tile.row_commitRows (hr : r < 32) (inv : Bool) (f : Nat → Nat → Int) : ∀ m, m ≤ 32 →
    (t.commitRows a inv f m).row b r = if b = a ∧ r < m then t.rowAfter a r inv (f r) (t.row b r) else t.row b r := by
  intro m
  induction m with
  | zero => exact fun _ => (if_neg fun h => Nat.not_lt_zero _ h.2).symm
  | succ m ih =>
    intro hm
    rw [Tile.commitRows_succ, Tile.row_commitRow hm hr, ih (by omega)]
    by_cases h : b = a ∧ r = m
    · rw [if_pos h, if_pos (row_lt_succ_iff.2 (.inl h)), if_neg (by omega), h.2]
    · rw [if_neg h, if_congr (row_lt_succ_iff.trans (or_iff_right h)) rfl rfl]

theorem Tile.accVal_commitRows (hr : r < 32) (hn : n < 256) (inv : Bool) (f : Nat → Nat → Int) : ∀ m, m ≤ 32 →
    (t.commitRows a inv f m).accVal b r n = if b = a ∧ r < m then heldSum (t.accVal a r n + f r n) else t.accVal b r n := by
  intro m
  induction m with
  | zero => exact fun _ => (if_neg fun h => Nat.not_lt_zero _ h.2).symm
  | succ m ih =>
    intro hm
    rw [Tile.commitRows_succ, Tile.accVal_commitRow hm hr hn, ih (by omega)]
    by_cases h : b = a ∧ r = m
    · rw [if_pos h, if_pos (row_lt_succ_iff.2 (.inl h)), h.2]
    · rw [if_neg h, if_congr (row_lt_succ_iff.trans (or_iff_right h)) rfl rfl]

/-- The weight set that an MMUL's next chunk takes (R143). -/
def Cmd.chunkSet (c : Cmd) : Nat := if c.chunk = 0 then setOf c.p0 else 1 - setOf c.p0

/-- The exact sums of products of a chunk, by row and column. -/
def Tile.products (t : Tile) (set ka : Nat) (A : Nat → Nat → Int) (j n : Nat) : Int :=
  ((List.range ka).map fun r => A j r * (t.weightRow set r).getD n 0).sum

/-- The commit of a chunk whose rows have been read is that of its rows, in order. -/
theorem Tile.commitChunk_eq (t : Tile) (c : Cmd) {ka rows : Nat} (h : kRows (t.bCode c.chunkSet) = ka) (A : Nat → Nat → Int) :
    t.commitChunk c ((List.range rows).map fun j => (List.range ka).map (A j))
      = t.commitRows (accOf c.p0) (t.setReserved c.chunkSet) (t.products c.chunkSet ka A) rows := by
  have sums (j : Nat) (u : Tile) :
      (rowSums ((List.range ka).map (t.weightRow c.chunkSet)) ((List.range ka).map (A j))).zipIdx.foldl (t.addSum (accOf c.p0) j) u
        = t.addSums (accOf c.p0) j (t.products c.chunkSet ka A j) u 256 := by
    rw [rowSums_eq _ (t.length_weightRow _), zipIdx_map_range, List.foldl_map]
    rfl
  subst h
  unfold Tile.commitChunk Tile.commitRows Tile.commitRow
  rw [zipIdx_map_range, List.foldl_map]
  dsimp only
  simp only [← sums]
  rfl

end Sys2Proof.Machine
end

section
/-! SUPPORT. MMUL_CHUNK_COMMIT: what a chunk reads, and how it ends (R143, R149, R150, R345). -/

namespace Sys2Proof.Machine

variable {s : State} {k : Nat} {c c' : Cmd} {A : Nat → Nat → Int}

/-- A started command that changes is among the started ones as it is then. -/
theorem mem_started_updCmd {t : Tile} (h : c ∈ t.started) : c' ∈ (updCmd c.pos (fun _ => c') t).started :=
  List.mem_map.2 ⟨c, h, if_pos rfl⟩

theorem rowsOf_le (p0 : W64) : rowsOf p0 ≤ 32 := by
  unfold rowsOf
  rw [fld_eq]
  omega

theorem mapM_eq_ok {α β ε : Type} {f : α → Except ε β} {g : α → β} : ∀ {l : List α}, (∀ x ∈ l, f x = .ok (g x)) → l.mapM f = .ok (l.map g)
  | [], _ => rfl
  | x :: l, h => by
    rw [List.mapM_cons, h x List.mem_cons_self, mapM_eq_ok fun y hy => h y (List.mem_cons_of_mem _ hy)]
    rfl

/-- K rows of the weights that an MMUL's chunk takes (R141). -/
def Tile.chunkRows (t : Tile) (c : Cmd) : Nat := kRows (t.bCode (setOf c.p0))

/-- Every A element of the next chunk can be read, in a block whose swizzle record is its map's. -/
def State.ReadsChunk (s : State) (k : Nat) (c : Cmd) (A : Nat → Nat → Int) : Prop :=
  ∀ j, j < rowsOf c.p0 → ∀ n, n < (s.tile k).chunkRows c → s.aElem k c.m0 ((j * c.chunks + c.chunk) * (s.tile k).chunkRows c + n) = .ok (A j n)
    ∧ s.aSwizzle k c.m0 ((j * c.chunks + c.chunk) * (s.tile k).chunkRows c + n) = none

/-- No extent of the unit has been revoked, so no byte of a B tile has gone (R150). -/
theorem Tile.bRevoked_none {t : Tile} (h : ∀ e ∈ t.exts, e.revoked = false) (set : Nat) : t.bRevoked set = none := by
  unfold Tile.bRevoked
  cases t.bMap set with
  | none => rfl
  | some m =>
    have none_ : (t.exts.find? fun e => e.revoked && e.vbase < (m.range {} none).2 && (m.range {} none).1 < e.vbase + e.len) = none :=
      List.find?_eq_none.2 fun e he => by rw [h e he]; exact Bool.false_ne_true
    dsimp only
    rw [none_]
    rfl

theorem Cmd.mmul_of_find {l : List Cmd} (h : l.find? (fun x => x.kind == CmdKind.mmul && decide (x.chunk < x.chunks)) = some c) :
    c.kind = .mmul := by
  have found := List.find?_some h
  rw [Bool.and_eq_true] at found
  exact eq_of_beq found.1

section
variable (hr : s.ReadsChunk k c A) (he : ∀ e ∈ (s.tile k).exts, e.revoked = false)
include hr he

/-- A chunk whose A rows can be read is committed, or meets a bad sector of its weight set (R143, R345). -/
theorem chunkMmul_of_reads (hk : c.kind = .mmul) :
    chunkMmul s k c = if (s.tile k).setBad c.chunkSet then .fault s c { cls := Cls.uncorrectable, src := 2, inSet := true }
      else .ok (s.setTile k ((s.tile k).commitChunk c
          ((List.range (rowsOf c.p0)).map fun j => (List.range ((s.tile k).chunkRows c)).map (A j))))
        { c with chunk := c.chunk + 1, effect := true } := by
  have straight : ((List.range (rowsOf c.p0)).findSome? fun j => (List.range ((s.tile k).chunkRows c)).findSome? fun n =>
      s.aSwizzle k c.m0 ((j * c.chunks + c.chunk) * (s.tile k).chunkRows c + n)) = none :=
    List.findSome?_eq_none_iff.2 fun j hj => List.findSome?_eq_none_iff.2 fun n hn =>
      (hr j (List.mem_range.1 hj) n (List.mem_range.1 hn)).2
  have rows := mapM_eq_ok (l := List.range (rowsOf c.p0)) fun j hj =>
    mapM_eq_ok (l := List.range ((s.tile k).chunkRows c)) fun n hn => (hr j (List.mem_range.1 hj) n (List.mem_range.1 hn)).1
  have src : (Queue.slotOf c.kind).src = 2 := by rw [hk]; rfl
  unfold Tile.chunkRows at straight rows ⊢
  unfold chunkMmul
  dsimp only
  rw [straight, rows]
  dsimp only
  rw [Tile.bRevoked_none he, src]
  rfl

variable (hf : (s.tile k).started.find? (fun x => x.kind == CmdKind.mmul && decide (x.chunk < x.chunks)) = some c)
  (due : c.startedAt + (c.chunk - c.elem + 1) * (s.tile k).chunkCycles c + 12 ≤ s.dcc (tileDie k))
include hf due

/-- One whose weight set has a bad sector ends with UNCORRECTABLE (R345). -/
theorem State.commitChunkEvent_bad (bad : (s.tile k).setBad c.chunkSet = true) :
    s.commitChunkEvent k = s.endCmd k c { cls := Cls.uncorrectable, src := 2, inSet := true } := by
  have faults := (chunkMmul_of_reads hr he (Cmd.mmul_of_find hf)).trans (if_pos bad)
  unfold State.commitChunkEvent
  dsimp only
  rw [hf]
  dsimp only
  rw [if_neg (Nat.not_lt.2 due), faults]

variable (good : (s.tile k).setBad c.chunkSet = false) (same : kRows ((s.tile k).bCode c.chunkSet) = (s.tile k).chunkRows c)
include good same

/-- The tile after a chunk: its rows committed, its MMUL a chunk further. -/
theorem State.tile_commitChunkEvent :
    (s.commitChunkEvent k).tile k = updCmd c.pos (fun _ => { c with chunk := c.chunk + 1, effect := true })
      ((s.tile k).commitRows (accOf c.p0) ((s.tile k).setReserved c.chunkSet)
        ((s.tile k).products c.chunkSet ((s.tile k).chunkRows c) A) (rowsOf c.p0)) := by
  have commits := chunkMmul_of_reads hr he (Cmd.mmul_of_find hf)
  rw [good, if_neg Bool.false_ne_true, Tile.commitChunk_eq _ _ same] at commits
  unfold State.commitChunkEvent
  dsimp only
  rw [hf]
  dsimp only
  rw [if_neg (Nat.not_lt.2 due), commits]
  dsimp only
  rw [State.tile_modTile_self, State.tile_setTile_self]

/-- What such a chunk leaves alone: the weights, the tokens, and the elements of other accumulators and of rows past the MMUL's. -/
theorem State.commitChunkEvent_frame :
    let u := (s.commitChunkEvent k).tile k
    u.b = (s.tile k).b ∧ u.token = (s.tile k).token
      ∧ (∀ b j n, j < 32 → n < 256 → b ≠ accOf c.p0 ∨ rowsOf c.p0 ≤ j → u.accVal b j n = (s.tile k).accVal b j n)
      ∧ ∃ x ∈ u.started, x.pos = c.pos ∧ x.chunk = c.chunk + 1 := by
  dsimp only
  obtain ⟨acc, rows, only⟩ := (s.tile k).commitRows_only (accOf c.p0) ((s.tile k).setReserved c.chunkSet)
    ((s.tile k).products c.chunkSet ((s.tile k).chunkRows c) A) (rowsOf c.p0)
  rw [State.tile_commitChunkEvent hr he hf due good same]
  refine ⟨by rw [only]; rfl, by rw [only]; rfl, fun b j n hj hn other => ?_,
    ⟨{ c with chunk := c.chunk + 1, effect := true }, ?_, rfl, rfl⟩⟩
  · exact (Tile.accVal_commitRows hj hn _ _ _ (rowsOf_le _)).trans (if_neg fun h => other.elim (fun x => x h.1) (Nat.not_le.2 h.2))
  · rw [only]
    exact mem_started_updCmd (List.mem_of_find?_eq_some hf)

/-- What it leaves of a row of its MMUL: sums held between the bounds, and OVF, INV and FLOOR (R143). -/
theorem State.commitChunkEvent_row {j : Nat} (hj : j < rowsOf c.p0) :
    let u := (s.commitChunkEvent k).tile k
    let sums := (s.tile k).products c.chunkSet ((s.tile k).chunkRows c) A j
    (∀ n, n < 256 → u.accVal (accOf c.p0) j n = heldSum ((s.tile k).accVal (accOf c.p0) j n + sums n))
      ∧ u.row (accOf c.p0) j
          = (s.tile k).rowAfter (accOf c.p0) j ((s.tile k).setReserved c.chunkSet) sums ((s.tile k).row (accOf c.p0) j) := by
  dsimp only
  have few : j < 32 := Nat.lt_of_lt_of_le hj (rowsOf_le _)
  rw [State.tile_commitChunkEvent hr he hf due good same]
  exact ⟨fun n hn => (Tile.accVal_commitRows few hn _ _ _ (rowsOf_le _)).trans (if_pos ⟨rfl, hj⟩),
    (Tile.row_commitRows few _ _ _ (rowsOf_le _)).trans (if_pos ⟨rfl, hj⟩)⟩

end

theorem exec_mmulChunkCommit (s : State) (k : Nat) : exec (.mmulChunkCommit k) s = .next (s.commitChunkEvent k) := rfl

end Sys2Proof.Machine
end

section
/-! SUPPORT. STREAM_FILL_ENTRY of a record without an index source and without extraction (R168 to R170). -/

namespace Sys2Proof.Machine

variable {s : State} {k rc fl : Nat} {w : Stream} {e : Nat → Elem} {ls : List VElem} {x : AFault}

/-- Lane l of a record's next entry, from the elements that it reads (R169). -/
def Stream.laneOf (w : Stream) (e : Nat → Elem) (l : Nat) : VElem :=
  if 64 * w.next + l < w.map.count then streamLane w.map.format (e l) else { val := 0, tag := 31 }

/-- A record that takes its elements in order, whole. -/
structure Stream.Plain (w : Stream) : Prop where
  src : w.src = none
  xpe : w.map.xpe = false

/-! ## Lanes -/

theorem State.streamLanes_past {fuel lane : Nat} (h : w.map.count ≤ 64 * w.next + lane) (e : Nat → Elem) :
    s.streamLanes k w fuel lane = .ok ((List.range' lane fuel).map (w.laneOf e), 0) := by
  cases fuel with
  | zero => rfl
  | succ fuel =>
    have zero : (List.range' lane (fuel + 1)).map (w.laneOf e)
        = (List.range (fuel + 1)).map fun _ => ({ val := 0, tag := 31 } : VElem) := by
      rw [List.range'_eq_map_range, List.map_map]
      exact List.map_congr_left fun i _ => if_neg (by dsimp only; omega)
    rw [zero]
    unfold State.streamLanes
    exact if_pos h

theorem State.streamLanes_fault_here (hp : w.Plain) {fuel lane : Nat} (h : 64 * w.next + lane < w.map.count)
    (hx : s.streamElem k w (64 * w.next + lane) none = .error x) : s.streamLanes k w (fuel + 1) lane = .error x := by
  unfold State.streamLanes
  dsimp only
  rw [if_neg (Nat.not_le.2 h), hp.src, Option.map_none, hx]

theorem State.streamLanes_fault_later (hp : w.Plain) {fuel lane : Nat} (h : 64 * w.next + lane < w.map.count) {y : Elem}
    (hy : s.streamElem k w (64 * w.next + lane) none = .ok y) (hx : s.streamLanes k w fuel (lane + 1) = .error x) :
    s.streamLanes k w (fuel + 1) lane = .error x := by
  unfold State.streamLanes
  dsimp only
  rw [if_neg (Nat.not_le.2 h), hp.src, Option.map_none, hy]
  dsimp only
  rw [hx]

theorem State.streamLanes_cons (hp : w.Plain) {fuel lane : Nat} (h : 64 * w.next + lane < w.map.count) {y : Elem}
    (hy : s.streamElem k w (64 * w.next + lane) none = .ok y) (hr : s.streamLanes k w fuel (lane + 1) = .ok (ls, fl)) :
    s.streamLanes k w (fuel + 1) lane = .ok (streamLane w.map.format y :: ls, fl ||| y.flags) := by
  unfold State.streamLanes
  dsimp only
  rw [if_neg (Nat.not_le.2 h), hp.src, Option.map_none, hy]
  dsimp only
  rw [hr, hp.xpe]
  simp

/-- Elements that can all be read fill their lanes in order; a lane past the last reads +0 with tag 31 (R169). -/
theorem State.streamLanes_read (hp : w.Plain) : ∀ fuel lane,
    (∀ l, lane ≤ l → l < lane + fuel → 64 * w.next + l < w.map.count → s.streamElem k w (64 * w.next + l) none = .ok (e l)) →
    ∃ fl, s.streamLanes k w fuel lane = .ok ((List.range' lane fuel).map (w.laneOf e), fl) := by
  intro fuel
  induction fuel with
  | zero => exact fun _ _ => ⟨0, rfl⟩
  | succ fuel ih =>
    intro lane h
    by_cases hn : 64 * w.next + lane < w.map.count
    · obtain ⟨fl, rest⟩ := ih (lane + 1) fun l h1 h2 => h l (by omega) (by omega)
      have here : w.laneOf e lane = streamLane w.map.format (e lane) := if_pos hn
      rw [List.range'_succ, List.map_cons, here]
      exact ⟨_, State.streamLanes_cons hp hn (h lane (Nat.le_refl _) (by omega) hn) rest⟩
    · exact ⟨0, State.streamLanes_past (Nat.not_lt.1 hn) e⟩

/-- The fault of the first element that cannot be read is that of its entry (R170). -/
theorem State.streamLanes_fault (hp : w.Plain) {l : Nat} (hl : 64 * w.next + l < w.map.count)
    (hx : s.streamElem k w (64 * w.next + l) none = .error x) (ok : ∀ n, n < l → ∃ e, s.streamElem k w (64 * w.next + n) none = .ok e) :
    ∀ fuel lane, lane ≤ l → l < lane + fuel → s.streamLanes k w fuel lane = .error x := by
  intro fuel
  induction fuel with
  | zero => intro lane h1 h2; omega
  | succ fuel ih =>
    intro lane h1 h2
    by_cases h : lane = l
    · exact h ▸ State.streamLanes_fault_here hp (h ▸ hl) (h ▸ hx)
    · obtain ⟨y, hy⟩ := ok lane (by omega)
      exact State.streamLanes_fault_later hp (by omega) hy (ih (lane + 1) (by omega) (by omega))

/-! ## The entry -/

/-- A record that has an entry to fill, and room for it (R169). -/
structure Stream.Fillable (w : Stream) : Prop extends w.Plain where
  defined : w.defined = true
  going : w.stopped = false
  left : 64 * w.next < w.map.count
  room : w.queue.length < 32

theorem Stream.Fillable.fills (h : w.Fillable) : (!w.defined || w.stopped || w.map.count ≤ 64 * w.next || 32 ≤ w.queue.length) = false := by
  obtain ⟨-, defined, going, left, room⟩ := h
  simp [defined, going, left, room]

theorem State.fillStream_lanes (hw : Tab.get {} (s.tile k).streams rc = w) (h : w.Fillable) (hl : s.streamLanes k w 64 0 = .ok (ls, fl)) :
    s.fillStream k rc = s.modTile k fun t =>
      { t with streams := Tab.put t.streams rc { w with queue := w.queue ++ [.lanes ls fl], next := w.next + 1 } } := by
  unfold State.fillStream
  dsimp only
  rw [hw, if_neg (by rw [h.fills]; exact Bool.false_ne_true), h.src]
  dsimp only
  rw [hw, h.src]
  dsimp only [Option.isSome_none]
  rw [if_neg Bool.false_ne_true, hl]

theorem State.fillStream_fault {cls : Nat} {va : W64} (hw : Tab.get {} (s.tile k).streams rc = w) (h : w.Fillable)
    (hl : s.streamLanes k w 64 0 = .error (cls, va)) :
    s.fillStream k rc = s.modTile k fun t =>
      { t with streams := Tab.put t.streams rc { w with queue := w.queue ++ [.fault cls va], stopped := true } } := by
  unfold State.fillStream
  dsimp only
  rw [hw, if_neg (by rw [h.fills]; exact Bool.false_ne_true), h.src]
  dsimp only
  rw [hw, h.src]
  dsimp only [Option.isSome_none]
  rw [if_neg Bool.false_ne_true, hl]
  unfold State.modTile
  dsimp only
  rw [hw, h.src]

theorem Stream.getD_lanes (w : Stream) (e : Nat → Elem) {m l : Nat} (hl : l < m) :
    ((List.range' 0 m).map (w.laneOf e)).getD l {} = w.laneOf e l := by
  rw [List.getD_eq_getElem _ _ (by rwa [List.length_map, List.length_range']), List.getElem_map, List.getElem_range', Nat.zero_add,
    Nat.one_mul]

/-- The entry of 64 lanes joins the record's queue (R169). -/
theorem State.fillStream_entry (hw : Tab.get {} (s.tile k).streams rc = w) (h : w.Fillable)
    (he : ∀ l, l < 64 → 64 * w.next + l < w.map.count → s.streamElem k w (64 * w.next + l) none = .ok (e l)) :
    ∃ ls fl, Tab.get {} ((s.fillStream k rc).tile k).streams rc = { w with queue := w.queue ++ [.lanes ls fl], next := w.next + 1 }
      ∧ ls.length = 64 ∧ ∀ l, l < 64 → ls.getD l {} = w.laneOf e l := by
  obtain ⟨fl, lanes⟩ := State.streamLanes_read h.toPlain 64 0 fun l _ hl => he l (by omega)
  refine ⟨(List.range' 0 64).map (w.laneOf e), fl, ?_, by rw [List.length_map, List.length_range'], fun l hl => w.getD_lanes e hl⟩
  rw [State.fillStream_lanes hw h lanes, State.tile_modTile_self, Tab.get_put_self]

/-- The entry is marked with the fault of the first element that cannot be read, and the record stops (R170). -/
theorem State.fillStream_marked {cls l : Nat} {va : W64} (hw : Tab.get {} (s.tile k).streams rc = w) (h : w.Fillable) (hl : l < 64)
    (hn : 64 * w.next + l < w.map.count) (hx : s.streamElem k w (64 * w.next + l) none = .error (cls, va))
    (ok : ∀ n, n < l → ∃ e, s.streamElem k w (64 * w.next + n) none = .ok e) :
    Tab.get {} ((s.fillStream k rc).tile k).streams rc = { w with queue := w.queue ++ [.fault cls va], stopped := true } := by
  have fault := State.streamLanes_fault h.toPlain hn hx ok 64 0 (Nat.zero_le _) (by omega)
  rw [State.fillStream_fault hw h fault, State.tile_modTile_self, Tab.get_put_self]

theorem exec_streamFillEntry (h : (s.tile k).isIdle = false) : exec (.streamFillEntry k rc) s = .next (s.fillStream k rc) := by
  show Host.Outcome.next (if (s.tile k).isIdle then s else s.fillStream k rc) = _
  rw [if_neg (by rw [h]; exact Bool.false_ne_true)]

end Sys2Proof.Machine
end

section
/-! SUPPORT. The gating of an idle weight set and the end of a wake (R147, R148). -/

namespace Sys2Proof.Machine

variable {s : State} {k i : Nat}

theorem Tile.cim_setCim (t : Tile) (i : Nat) (x : CimGate) : (t.setCim i x).cim i = x := by
  unfold Tile.setCim Tile.cim
  split <;> rfl

theorem Tile.b_setCim (t : Tile) (i : Nat) (x : CimGate) : (t.setCim i x).b = t.b := by
  unfold Tile.setCim
  split <;> rfl

/-- A set idle for longer than the die's limit, and not waking, is gated (R147). -/
theorem State.gateIdle_gates (hg : ((s.tile k).cim i).gated = false) (hw : ((s.tile k).cim i).wakeEnd = none)
    (hb : (s.tile k).setBusy i = false) (hl : fld (s.die (tileDie k)).cimGate 0 16 ≠ 0)
    (idle : ((s.tile k).cim i).idleSince + fld (s.die (tileDie k)).cimGate 0 16 < s.dcc (tileDie k)) :
    s.gateIdle k i = s.setTile k ((s.tile k).setCim i { (s.tile k).cim i with gated := true }) := by
  unfold State.gateIdle
  exact if_neg (by simp [hg, hw, hb, hl, idle])

/-- One that is in use, or idle for no longer than that, or on a die without a limit, stays as it is. -/
theorem State.gateIdle_stays (h : (s.tile k).setBusy i = true ∨ fld (s.die (tileDie k)).cimGate 0 16 = 0
    ∨ s.dcc (tileDie k) ≤ ((s.tile k).cim i).idleSince + fld (s.die (tileDie k)).cimGate 0 16) : s.gateIdle k i = s := by
  unfold State.gateIdle
  exact if_pos (.inr (.inr h))

theorem State.wakeEnds_due {e : Nat} (hw : ((s.tile k).cim i).wakeEnd = some e) (h : e ≤ s.dcc (tileDie k)) :
    s.wakeEnds k i = s.setTile k ((s.tile k).setCim i { gated := false, idleSince := s.dcc (tileDie k), wakeEnd := none }) := by
  unfold State.wakeEnds
  dsimp only
  rw [hw]
  exact if_pos h

theorem State.wakeEnds_early {e : Nat} (hw : ((s.tile k).cim i).wakeEnd = some e) (h : s.dcc (tileDie k) < e) : s.wakeEnds k i = s := by
  unfold State.wakeEnds
  dsimp only
  rw [hw]
  exact if_neg (Nat.not_le.2 h)

theorem exec_cimGateIdle (s : State) (k i : Nat) : exec (.cimGateIdle k i) s = .next (s.gateIdle k i) := rfl

theorem exec_cimWakeEnd (s : State) (k i : Nat) : exec (.cimWakeEnd k i) s = .next (s.wakeEnds k i) := rfl

end Sys2Proof.Machine
end

section
/-! SUPPORT. LATE_LEG_FAULT of a command whose unit is on its tile (R262, R323). -/

namespace Sys2Proof.Machine

variable {s : State} {k pos : Nat} {c : Cmd} {va : W64} {cls : Nat}

/-- A unit that runs with its journal empty and CHK off: what it has been told of its legs does not hold up its engines. -/
structure Calm (t : Tile) : Prop where
  journal : t.journal = []
  status : t.status = .running
  chk : t.chk = false

/-- The reports held for such a unit wait for its next release: the step's end leaves them (R245, R262). -/
theorem State.tile_afterStep_calm (h : Calm (s.tile k)) : (s.afterStep k).tile k = (s.tile k).promote (s.dcc (tileDie k)) := by
  obtain ⟨hj, hs, hc⟩ := h
  have settled : s.settle k = s.setTile k (s.tile k) := by
    have same : (s.tile k).commitJournal (s.dcc (tileDie k)) = s.tile k := by rw [Tile.commitJournal_empty hj, ← hj]
    have free : (s.tile k).failedRelease = none := by
      unfold Tile.failedRelease
      rw [hj]
    unfold State.settle
    dsimp only
    rw [same, hs, free]
    exact State.endCut_running _ _ ((congrArg Tile.status (State.tile_setTile_self _ _ _)).trans hs)
  unfold State.afterStep
  rw [settled, State.stallCount_unchecked (.inr ?_), State.tile_modTile_self, State.tile_setTile_self, State.dcc_setTile]
  rw [State.tile_modTile_self, State.tile_setTile_self]
  exact hc

/-- Completion of a command of such a unit, whatever has been reported to it. -/
theorem State.finishCmd_calm (h : Calm (s.tile k)) (c : Cmd) :
    (s.tile k).Finished ((s.finishCmd k c).tile k) c (s.dcc (tileDie k)) ∧ ((s.finishCmd k c).tile k).reports = (s.tile k).reports := by
  obtain ⟨hj, hs, hc⟩ := h
  obtain ⟨keeps, tokens⟩ := Tile.finish_keeps { s.tile k with fpc := (s.tile k).fpc ||| BitVec.ofNat 64 c.flags } (s.dcc (tileDie k)) c
  have calm : Calm (Tile.finish { s.tile k with fpc := (s.tile k).fpc ||| BitVec.ofNat 64 c.flags } (s.dcc (tileDie k)) c) := by
    refine ⟨keeps.journal.trans hj, keeps.status.trans hs, ?_⟩
    unfold Tile.chk at hc ⊢
    rw [keeps.region]
    exact hc
  unfold State.finishCmd
  rw [State.tile_afterStep_calm (by rw [State.tile_modTile_self]; exact calm), State.tile_modTile_self]
  exact ⟨⟨keeps.started, keeps.fpc, tokens⟩, keeps.reports⟩

section
variable (hf : (s.tile k).started.find? (fun x => x.pos = pos) = some c) (hl : c.late = true) (hg : c.legs = 0)
  (hx : c.legFault = some (cls, va))
include hf hl hg hx

theorem State.lateLeg_failed (ha : c.allFailed = true) :
    s.lateLeg k pos cls va = (s.hold k (c.report cls va)).finishCmd k { c with legFault := none } := by
  unfold State.lateLeg State.endFailed
  dsimp only
  rw [hf]
  simp [hl, hg, hx, ha]

theorem State.lateLeg_reported (ha : c.allFailed = false) :
    s.lateLeg k pos cls va = ((s.dropStarted k pos).hold k (c.report cls va)).afterStep k := by
  unfold State.lateLeg
  dsimp only
  rw [hf]
  simp [hl, hg, hx, ha]

/-- The command is done with, and its leg's fault is reported to its unit; a HEXCH all of whose faces have failed completes (R262, R323). -/
theorem State.tile_lateLeg (hq : EngineQuiet (s.tile k)) :
    let u := (s.lateLeg k pos cls va).tile k
    u.started = (s.tile k).started.filter (fun x => x.pos ≠ pos) ∧ u.reports = [c.report cls va]
      ∧ (c.allFailed = true → (s.tile k).Finished u c (s.dcc (tileDie k))) := by
  obtain ⟨hj, hr, hs, hc⟩ := hq
  have hpos : c.pos = pos := by simpa using List.find?_some hf
  dsimp only
  cases ha : c.allFailed with
  | true =>
    have tile : (s.hold k (c.report cls va)).tile k = { s.tile k with reports := (s.tile k).reports ++ [c.report cls va] } :=
      State.tile_modTile_self _ _ _
    have calm : Calm ((s.hold k (c.report cls va)).tile k) := by rw [tile]; exact ⟨hj, hs, hc⟩
    obtain ⟨⟨started, fpc, tokens⟩, reports⟩ := State.finishCmd_calm calm { c with legFault := none }
    rw [tile] at started fpc tokens reports
    rw [State.lateLeg_failed hf hl hg hx ha]
    refine ⟨?_, ?_, fun _ => ⟨started, fpc, tokens⟩⟩
    · rw [← hpos]
      exact started
    · rw [reports, hr]
      rfl
  | false =>
    have tile : ((s.dropStarted k pos).hold k (c.report cls va)).tile k
        = { s.tile k with started := (s.tile k).started.filter fun x => x.pos ≠ pos, reports := (s.tile k).reports ++ [c.report cls va] } := by
      unfold State.hold State.dropStarted
      rw [State.tile_modTile_self, State.tile_modTile_self]
    rw [State.lateLeg_reported hf hl hg hx ha, State.tile_afterStep_calm (by rw [tile]; exact ⟨hj, hs, hc⟩), tile]
    refine ⟨rfl, ?_, nofun⟩
    show (s.tile k).reports ++ [c.report cls va] = _
    rw [hr]
    rfl

end

theorem exec_lateLegFault (s : State) (k pos : Nat) (cls : BitVec 8) (va : W64) :
    exec (.lateLegFault k pos cls va) s = .next (s.lateLeg k pos cls.toNat va) := rfl

end Sys2Proof.Machine
end

section
namespace Sys2Proof.Machine

/-- Settles O48: a chunk is the commit of its rows, an entry the lanes that its elements fill, and the gate, the wake and the late leg
change the tile alone. -/
theorem engineEvents : Obligations.EngineEvents := by
  unfold Obligations.EngineEvents
  intro s k i rc pos c
  dsimp only
  refine ⟨fun A hf due hka reads kept => ⟨fun bad => ?_, fun good => ?_⟩,
    fun busy defined going src xpe left room => ⟨fun e he => ?_, fun l cls va hl hn hx ok => ?_⟩,
    ⟨fun hg hw hb hl idle => ?_, fun h => ?_, fun e hw => ⟨fun h => ?_, fun h => ?_⟩⟩, fun cls va hq hf hl hg hx => ?_⟩
  · rw [exec_mmulChunkCommit, State.commitChunkEvent_bad reads kept hf due bad]
  · obtain ⟨b, token, others, further⟩ := State.commitChunkEvent_frame reads kept hf due good hka
    refine ⟨_, exec_mmulChunkCommit .., b, token, fun j hj => ?_, fun b j n _ => others b j n, further⟩
    obtain ⟨sums, row⟩ := State.commitChunkEvent_row reads kept hf due good hka hj
    exact ⟨sums, congrArg AccRow.ovf row, congrArg AccRow.inv row, congrArg AccRow.floor row⟩
  · obtain ⟨ls, fl, entry⟩ := State.fillStream_entry rfl ⟨⟨src, xpe⟩, defined, going, left, room⟩ he
    exact ⟨_, ls, fl, exec_streamFillEntry busy, entry⟩
  · exact ⟨_, exec_streamFillEntry busy, State.fillStream_marked rfl ⟨⟨src, xpe⟩, defined, going, left, room⟩ hl hn hx ok⟩
  · refine ⟨_, (exec_cimGateIdle ..).trans (congrArg _ (State.gateIdle_gates hg hw hb hl idle)), ?_, ?_, rfl⟩
    · rw [State.tile_setTile_self, Tile.cim_setCim]
    · rw [State.tile_setTile_self, Tile.b_setCim]
  · rw [exec_cimGateIdle, State.gateIdle_stays h]
  · refine ⟨_, (exec_cimWakeEnd ..).trans (congrArg _ (State.wakeEnds_due hw h)), ?_⟩
    rw [State.tile_setTile_self, Tile.cim_setCim]
  · rw [exec_cimWakeEnd, State.wakeEnds_early hw h]
  · obtain ⟨started, reports, finished⟩ := State.tile_lateLeg hf hl hg hx hq
    exact ⟨_, exec_lateLegFault .., started, reports, fun failed => (finished failed).2⟩

end Sys2Proof.Machine
end
